-- ==== Sys2Proof/Word.lean ====
section
/-! DEFINITION. The bit vectors of the ZV9640 and their plainest arithmetic (R9, R37). -/

namespace Sys2Proof

/-- A 32-bit word: an instruction word (R80), a lane register (R92), a PC (R39). -/
abbrev Word := BitVec 32
/-- A 64-bit value: a register pair, an offset, a time (R92, R94, R210). -/
abbrev DWord := BitVec 64
/-- A byte of memory (R10). -/
abbrev Byte := BitVec 8
/-- The six bits of an operand field D, A or B (R80). -/
abbrev RegIx := BitVec 6
/-- The four bits of a guard: sense and predicate number (R80, R85). -/
abbrev GuardBits := BitVec 4

/-- `x div y` of R37: truncation toward zero. -/
def tdiv (x y : Int) : Int := Int.tdiv x y

/-- `x rem y` of R37: the sign of x. -/
def trem (x y : Int) : Int := Int.tmod x y

/-- ceil(a / b) for positive b. -/
def ceilDiv (a b : Nat) : Nat := (a + b - 1) / b

end Sys2Proof
end

