-- ==== Sys2Proof/Syntax.lean ====
section
/-! DEFINITION. The syntax of the ZV9640: the LIT layouts of Table 5.3 and one constructor for each row of the opcode
table, the encoded words first (classes 0 to 24 and the prefix) and the part's own events after them. -/

namespace Sys2Proof

/-- The type names of Table 5.2, in the order of their codes (R87). -/
inductive Ty where
  | s32 | s8 | s16 | s64 | n8 | n16 | n32 | n64 | b8 | b16 | b32 | b64 | b128
  | f32 | f64 | h16 | bf16 | e4m3 | e5m2 | e3m2 | e2m3 | e2m1 | nl4
  deriving DecidableEq, Repr, Inhabited

/-- Rounding codes (R87, R110). -/
inductive Rnd where | rne | rz | ru | rd | rs
  deriving DecidableEq, Repr, Inhabited

/-- Denormal codes (R87, R114): `ftz`, `daz`. -/
inductive Den where | none | ftz | daz | both
  deriving DecidableEq, Repr, Inhabited

/-- Ordering codes (R87). -/
inductive Order where | rlx | acq | rel | ar | sc
  deriving DecidableEq, Repr, Inhabited

/-- Scope codes 0 to 11 (R207). -/
inductive Scope where | fib | crw | coh | hth | qd | die | sid | dev | nod | per | sys | rcv
  deriving DecidableEq, Repr, Inhabited

/-- Participant set selectors (R71, R87). -/
inductive PSet where
  | all
  | mask (j : BitVec 2)
  | reg (r : RegIx)
  deriving DecidableEq, Repr, Inhabited

/-- Sub-group width codes (R87): 32, 2, 4, 8, 16. -/
inductive Width where | w32 | w2 | w4 | w8 | w16
  deriving DecidableEq, Repr, Inhabited

/-- Overflow codes of classes 0 to 3 (Table 5.3). -/
inductive Ovf where | wrap | sat | trap
  deriving DecidableEq, Repr, Inhabited

/-- LIT payload after a word of classes 0 to 3. -/
inductive LitInt where
  | fields (ty : Ty) (ovf : Ovf) (sel : BitVec 3) (xreg : RegIx)
  | imm (v : BitVec 25)
  deriving DecidableEq, Repr, Inhabited

/-- LIT payload after a word of classes 4 to 9. `stype` keeps its five bits, because most operations require the code 0. -/
inductive LitFlt where
  | fields (ty : Ty) (stype : Ty) (rnd : Rnd) (den : Den) (nan : Bool) (sel : BitVec 3) (xreg : RegIx)
  | fimm (v : BitVec 25)
  deriving DecidableEq, Repr, Inhabited

/-- LIT payload after a word of classes 10 to 12. -/
structure LitMem where
  ty : Ty
  ord : Order
  scope : Scope
  space : BitVec 2
  off : BitVec 12
  deriving DecidableEq, Repr, Inhabited

/-- LIT payload after a word of class 13. -/
structure LitStash where
  ty : Ty
  space : BitVec 2
  off : BitVec 19
  deriving DecidableEq, Repr, Inhabited

/-- LIT payload after `fence`. -/
structure LitFence where
  ord : Order
  scope : Scope
  deriving DecidableEq, Repr, Inhabited

/-- LIT payload after a word of class 15. -/
structure LitXl where
  set : PSet
  tag : BitVec 8
  width : Width
  mode : BitVec 2
  pdst : BitVec 3
  w64 : Bool
  deriving DecidableEq, Repr, Inhabited

/-- LIT payload after a word of class 16. -/
structure LitGrp where
  set : PSet
  tag : BitVec 8
  width : Width
  rnd : Rnd
  den : Den
  deriving DecidableEq, Repr, Inhabited

/-- LIT payload after `call`. -/
structure LitCall where
  slide : BitVec 5
  deriving DecidableEq, Repr, Inhabited

/-- LIT payload after `waitc`. -/
structure LitWaitc where
  ld : BitVec 6
  st : BitVec 6
  cp : BitVec 6
  tl : BitVec 6
  deriving DecidableEq, Repr, Inhabited

/-- LIT payload after a `bar` word, its bop apart (the constructor says it). -/
structure LitBar where
  scope : Scope
  deriving DecidableEq, Repr, Inhabited

/-- LIT payload after `sleep`. -/
structure LitSleep where
  ns : BitVec 26
  deriving DecidableEq, Repr, Inhabited

/-- LIT payload after `spawn`, `spawnr` and `watch`. -/
structure LitSpawn where
  place : BitVec 2
  npay : BitVec 4
  ereg : Bool
  entry : BitVec 19
  deriving DecidableEq, Repr, Inhabited

/-- LIT payload after a word of classes 20 to 22. -/
structure LitEng where
  bv : Bool
  bar : BitVec 5
  flue : BitVec 2
  soff : BitVec 18
  deriving DecidableEq, Repr, Inhabited

/-- LIT payload after `tlbi` and `svc`: scope and service number. -/
structure LitSys where
  scope : Scope
  imm : BitVec 16
  deriving DecidableEq, Repr, Inhabited

/-- A LIT word (R86): its own chain bit and its payload. -/
structure Lit (α : Type) where
  chain : Bool
  body : α
  deriving DecidableEq, Repr, Inhabited

/-- What every instruction word carries beside its operands: the chain bit C, the guard G and at most one LIT word. -/
structure Mods (α : Type) where
  c : Bool
  g : GuardBits
  lit : Option (Lit α)
  deriving DecidableEq, Repr, Inhabited

/-- The same for an operation that takes no LIT word. -/
structure Plain where
  c : Bool
  g : GuardBits
  deriving DecidableEq, Repr, Inhabited

/-- An 80-bit address (R94): a space ID over a 64-bit offset. -/
structure GAddr where
  space : BitVec 16
  off : DWord
  deriving DecidableEq, Repr, Inhabited

/-- The register spaces that software outside a fibre writes: the management window and the sideband (R372, R432). -/
inductive RegSpace where | window | sideband
  deriving DecidableEq, Repr, Inhabited

/-- Where an uncorrectable error is detected (R413, Table 23.4). -/
inductive ErrorSite where
  | granule (pa : Nat)
  | stashLine (cohort line : Nat)
  | tile (cohort n : Nat)
  | acc (cohort n : Nat)
  | reg (uid r : Nat)
  | residue (uid : Nat) (cls : BitVec 5)
  | pair (uid : Nat)
  | tileResidue (hearth : Nat)
  deriving DecidableEq, Repr, Inhabited

/-- A store of the host to device memory (R206, R218, R228, R357): its bytes; whether the host keeps the line in its caches, whether the store
is a release, and whether its data is poisoned (the flit's poison bit, a flit that was not delivered, or one whose tag fails, R374). -/
structure HostStore where
  bytes : List Byte
  keep : Bool
  release : Bool
  poisoned : Bool
  deriving DecidableEq, Repr, Inhabited

/-- An access of the host to device memory (R218): a store, or a load of n bytes, whose lines the host keeps in its caches or not. -/
inductive HostAccess where
  | store (x : HostStore)
  | load (n : Nat) (keep : Bool)
  deriving DecidableEq, Repr, Inhabited

/-- A unit that an in-field test tests (Table 23.6): a hearth, a row of a slice of a die's L2, a row of an HBM4 stack. -/
inductive RepairUnit where
  | hearth (id : Nat)
  | l2Row (die slice row : Nat)
  | hbmRow (stack row : Nat)
  deriving DecidableEq, Repr, Inhabited

/-- What a peer device asks of this device's memory (R229): an access. -/
inductive PeerAccess where
  | load (n : Nat)
  | store (bytes : List Byte) (poisoned : Bool)
  /-- an atomic by its code of Table 13.3: operand b, and e for a compare -/
  | atomic (op : BitVec 4) (ty : Ty) (b e : Nat)
  deriving DecidableEq, Repr, Inhabited

/-- A request of a peer device (R229): its access, at an offset that this device translates through a context's tables (R378). -/
structure PeerReq where
  ctx : Nat
  off : DWord
  access : PeerAccess
  deriving DecidableEq, Repr, Inhabited

/-- Why a flit failed at its receiver (R357, R374): its CRC, or, of a confidential context's traffic, its tag; with the link. -/
inductive FlitFailure where
  | crc (link : Nat)
  | tag (link : Nat)
  deriving DecidableEq, Repr, Inhabited

/-- How the next step of bring-up ends (Table 24.6); one that fails names the unit that failed. -/
inductive BringUp where
  | passes
  | fails (unit : Nat)
  deriving DecidableEq, Repr, Inhabited

/-- The instructions and events of the opcode table, one constructor for each row. -/
inductive Instr where
  /-- `add` (R136, R137) -/
  | add (m : Mods LitInt) (d a b : RegIx)
  /-- `sub` (R136, R137) -/
  | sub (m : Mods LitInt) (d a b : RegIx)
  /-- `addc` (R136, R137) -/
  | addc (m : Mods LitInt) (d a b : RegIx)
  /-- `subb` (R136, R137) -/
  | subb (m : Mods LitInt) (d a b : RegIx)
  /-- `neg` (R136) -/
  | neg (m : Mods LitInt) (d a : RegIx)
  /-- `abs` (R136) -/
  | abs (m : Mods LitInt) (d a : RegIx)
  /-- `min` (R136, R137) -/
  | min (m : Mods LitInt) (d a b : RegIx)
  /-- `max` (R136, R137) -/
  | max (m : Mods LitInt) (d a b : RegIx)
  /-- `and` (R136, R137) -/
  | and (m : Mods LitInt) (d a b : RegIx)
  /-- `or` (R136, R137) -/
  | or (m : Mods LitInt) (d a b : RegIx)
  /-- `xor` (R136, R137) -/
  | xor (m : Mods LitInt) (d a b : RegIx)
  /-- `andn` (R136, R137) -/
  | andn (m : Mods LitInt) (d a b : RegIx)
  /-- `orn` (R136, R137) -/
  | orn (m : Mods LitInt) (d a b : RegIx)
  /-- `sel` (R136, R137) -/
  | sel (m : Mods LitInt) (d a b : RegIx)
  /-- `mov` (R136) -/
  | mov (m : Mods LitInt) (d b : RegIx)
  /-- `cmp` (R138) -/
  | cmp (m : Mods LitInt) (p : BitVec 3) (a b : RegIx)
  /-- `shl` (R139 to R145) -/
  | shl (m : Mods LitInt) (d a b : RegIx)
  /-- `shr` (R139 to R145) -/
  | shr (m : Mods LitInt) (d a b : RegIx)
  /-- `sar` (R139 to R145) -/
  | sar (m : Mods LitInt) (d a b : RegIx)
  /-- `rotl` (R139 to R145) -/
  | rotl (m : Mods LitInt) (d a b : RegIx)
  /-- `fsh` (R139 to R145) -/
  | fsh (m : Mods LitInt) (d a b : RegIx)
  /-- `bfx` (R139 to R145) -/
  | bfx (m : Mods LitInt) (d a b : RegIx)
  /-- `bfi` (R139 to R145) -/
  | bfi (m : Mods LitInt) (d a b : RegIx)
  /-- `popc` (R139 to R145) -/
  | popc (m : Mods LitInt) (d a : RegIx)
  /-- `clz` (R139 to R145) -/
  | clz (m : Mods LitInt) (d a : RegIx)
  /-- `ctz` (R139 to R145) -/
  | ctz (m : Mods LitInt) (d a : RegIx)
  /-- `brev` (R139 to R145) -/
  | brev (m : Mods LitInt) (d a : RegIx)
  /-- `bprm` (R139 to R145) -/
  | bprm (m : Mods LitInt) (d a b : RegIx)
  /-- `plog` (R139 to R145) -/
  | plog (m : Mods LitInt) (d a b : RegIx)
  /-- `lea` (R139 to R145) -/
  | lea (m : Mods LitInt) (d a b : RegIx)
  /-- `mul` (R146, R147) -/
  | mul (m : Mods LitInt) (d a b : RegIx)
  /-- `mulh` (R146, R147) -/
  | mulh (m : Mods LitInt) (d a b : RegIx)
  /-- `mad` (R146, R147) -/
  | mad (m : Mods LitInt) (d a b : RegIx)
  /-- `madh` (R146, R147) -/
  | madh (m : Mods LitInt) (d a b : RegIx)
  /-- `idp4` (R146, R147) -/
  | idp4 (m : Mods LitInt) (d a b : RegIx)
  /-- `div` (R149) -/
  | div (m : Mods LitInt) (d a b : RegIx)
  /-- `rem` (R149) -/
  | rem (m : Mods LitInt) (d a b : RegIx)
  /-- `fadd` (R175 to R188) -/
  | fadd (m : Mods LitFlt) (d a b : RegIx)
  /-- `fsub` (R175 to R188) -/
  | fsub (m : Mods LitFlt) (d a b : RegIx)
  /-- `fmin` (R175 to R188) -/
  | fmin (m : Mods LitFlt) (d a b : RegIx)
  /-- `fmax` (R175 to R188) -/
  | fmax (m : Mods LitFlt) (d a b : RegIx)
  /-- `fcmp` (R175 to R188) -/
  | fcmp (m : Mods LitFlt) (p : BitVec 3) (a b : RegIx)
  /-- `fcls` (R175 to R188) -/
  | fcls (m : Mods LitFlt) (d a : RegIx)
  /-- `fmul` (R175 to R188) -/
  | fmul (m : Mods LitFlt) (d a b : RegIx)
  /-- `ffma` (R175 to R188) -/
  | ffma (m : Mods LitFlt) (d a b : RegIx)
  /-- `fscl` (R175 to R188) -/
  | fscl (m : Mods LitFlt) (d a b : RegIx)
  /-- `fcvt` (R175 to R188) -/
  | fcvt (m : Mods LitFlt) (d a : RegIx)
  /-- `frnd` (R175 to R188) -/
  | frnd (m : Mods LitFlt) (d a : RegIx)
  /-- `fdot2` (R175 to R188) -/
  | fdot2 (m : Mods LitFlt) (d a b : RegIx)
  /-- `fdot4` (R175 to R188) -/
  | fdot4 (m : Mods LitFlt) (d a b : RegIx)
  /-- class 8 form of `fadd` (R183) -/
  | faddF64 (m : Mods LitFlt) (d a b : RegIx)
  /-- class 8 form of `fsub` (R183) -/
  | fsubF64 (m : Mods LitFlt) (d a b : RegIx)
  /-- class 8 form of `fmul` (R183) -/
  | fmulF64 (m : Mods LitFlt) (d a b : RegIx)
  /-- class 8 form of `ffma` (R183) -/
  | ffmaF64 (m : Mods LitFlt) (d a b : RegIx)
  /-- class 8 form of `fmin` (R183) -/
  | fminF64 (m : Mods LitFlt) (d a b : RegIx)
  /-- class 8 form of `fmax` (R183) -/
  | fmaxF64 (m : Mods LitFlt) (d a b : RegIx)
  /-- class 8 form of `fcmp` (R183) -/
  | fcmpF64 (m : Mods LitFlt) (p : BitVec 3) (a b : RegIx)
  /-- `frcp` (R189) -/
  | frcp (m : Mods LitFlt) (d a : RegIx)
  /-- `frsq` (R189) -/
  | frsq (m : Mods LitFlt) (d a : RegIx)
  /-- `fsqrt` (R189) -/
  | fsqrt (m : Mods LitFlt) (d a : RegIx)
  /-- `fdiv` (R189) -/
  | fdiv (m : Mods LitFlt) (d a b : RegIx)
  /-- `fex2` (R189) -/
  | fex2 (m : Mods LitFlt) (d a : RegIx)
  /-- `flg2` (R189) -/
  | flg2 (m : Mods LitFlt) (d a : RegIx)
  /-- `fsin` (R189) -/
  | fsin (m : Mods LitFlt) (d a : RegIx)
  /-- `fcos` (R189) -/
  | fcos (m : Mods LitFlt) (d a : RegIx)
  /-- `ftnh` (R189) -/
  | ftnh (m : Mods LitFlt) (d a : RegIx)
  /-- `ld` (R235, R236) -/
  | ld (m : Mods LitMem) (d a : RegIx)
  /-- `ldh` (R235, R236) -/
  | ldh (m : Mods LitMem) (d a : RegIx)
  /-- `chkh` (R235, R236) -/
  | chkh (m : Mods LitMem) (d a : RegIx)
  /-- `pref` (R237) -/
  | pref (m : Mods LitMem) (a : RegIx)
  /-- `st` (R238) -/
  | st (m : Mods LitMem) (a b : RegIx)
  /-- `atom.add` (R239) -/
  | atomAdd (m : Mods LitMem) (d a b : RegIx)
  /-- `atom.min` (R239) -/
  | atomMin (m : Mods LitMem) (d a b : RegIx)
  /-- `atom.max` (R239) -/
  | atomMax (m : Mods LitMem) (d a b : RegIx)
  /-- `atom.and` (R239) -/
  | atomAnd (m : Mods LitMem) (d a b : RegIx)
  /-- `atom.or` (R239) -/
  | atomOr (m : Mods LitMem) (d a b : RegIx)
  /-- `atom.xor` (R239) -/
  | atomXor (m : Mods LitMem) (d a b : RegIx)
  /-- `atom.xch` (R239) -/
  | atomXch (m : Mods LitMem) (d a b : RegIx)
  /-- `atom.cas` (R239) -/
  | atomCas (m : Mods LitMem) (d a b : RegIx)
  /-- `atom.incw` (R239) -/
  | atomIncw (m : Mods LitMem) (d a b : RegIx)
  /-- `atom.decw` (R239) -/
  | atomDecw (m : Mods LitMem) (d a b : RegIx)
  /-- `atom.fadd` (R239) -/
  | atomFadd (m : Mods LitMem) (d a b : RegIx)
  /-- `lds` (R242) -/
  | lds (m : Mods LitStash) (d a : RegIx)
  /-- `sts` (R242) -/
  | sts (m : Mods LitStash) (a b : RegIx)
  /-- `smap` (R244) -/
  | smap (m : Mods LitStash) (a b : RegIx)
  /-- `sumap` (R245, R246) -/
  | sumap (m : Mods LitStash) (a : RegIx)
  /-- `sflush` (R245, R246) -/
  | sflush (m : Mods LitStash) (a : RegIx)
  /-- `sfe` (R245, R246) -/
  | sfe (m : Mods LitStash) (a : RegIx)
  /-- `tfe` (R246) -/
  | tfe (m : Mods LitStash) (p : BitVec 3) (a : RegIx)
  /-- `fence` (R249) -/
  | fence (m : Mods LitFence)
  /-- `shfl` (R250) -/
  | shfl (m : Mods LitXl) (d a b : RegIx)
  /-- `bcst` (R250) -/
  | bcst (m : Mods LitXl) (d a b : RegIx)
  /-- `vote` (R254) -/
  | vote (m : Mods LitGrp) (p q mode : BitVec 3)
  /-- `redu` (R255) -/
  | redu (m : Mods LitGrp) (d a o : RegIx)
  /-- `scan` (R255) -/
  | scan (m : Mods LitGrp) (d a o : RegIx)
  /-- `mtch` (R256) -/
  | mtch (m : Mods LitGrp) (d a : RegIx) (t : BitVec 3)
  /-- `elect` (R256) -/
  | elect (m : Mods LitGrp) (p : BitVec 3)
  /-- `rdv` (R257) -/
  | rdv (m : Mods LitGrp) (d : RegIx)
  /-- `jarr` (R258) -/
  | jarr (m : Plain) (j : BitVec 2)
  /-- `jmsk` (R258) -/
  | jmsk (m : Mods LitGrp) (j : BitVec 2) (a : RegIx)
  /-- `br` (R154) -/
  | br (m : Plain) (off : BitVec 18)
  /-- `call` (R155) -/
  | call (m : Mods LitCall) (off : BitVec 18)
  /-- `ret` (R156) -/
  | ret (m : Plain)
  /-- `jt` (R158) -/
  | jt (m : Plain) (t a : RegIx)
  /-- `exit` (R159) -/
  | exit (m : Plain)
  /-- `yield` (R160) -/
  | yield (m : Plain)
  /-- `trap` (R161) -/
  | trap (m : Plain) (n : BitVec 4)
  /-- `waitc` (R164) -/
  | waitc (m : Mods LitWaitc)
  /-- `bar` forms (R166) -/
  | bar (m : Mods LitBar) (n : BitVec 5)
  /-- `bar` forms (R166) -/
  | barArrive (m : Mods LitBar) (n : BitVec 5)
  /-- `bar` forms (R166) -/
  | barWait (m : Mods LitBar) (n : BitVec 5)
  /-- `bar.expect` (R167) -/
  | barExpect (m : Mods LitBar) (n : BitVec 5) (a : RegIx)
  /-- `nop` (R160) -/
  | nop (m : Plain)
  /-- `sleep` (R162) -/
  | sleep (m : Mods LitSleep)
  /-- `spawn` (R265, R273) -/
  | spawn (m : Mods LitSpawn) (p : BitVec 3) (a b : RegIx)
  /-- `spawnr` (R265, R273) -/
  | spawnr (m : Mods LitSpawn) (p : BitVec 3) (a b : RegIx)
  /-- `jwait` (R279) -/
  | jwait (m : Plain) (a : RegIx)
  /-- `watch` (R285) -/
  | watch (m : Mods LitSpawn) (p : BitVec 3) (a b : RegIx)
  /-- `unwatch` (R290) -/
  | unwatch (m : Plain) (p : BitVec 3) (a : RegIx)
  /-- `kcap` (R277) -/
  | kcap (m : Plain) (d : RegIx)
  /-- `mtc` (R330) -/
  | mtc (m : Mods LitEng) (t : BitVec 4) (a : RegIx)
  /-- `mfc` (R330) -/
  | mfc (m : Mods LitEng) (d : RegIx) (t : BitVec 4)
  /-- `tzero` of a tile (R331) -/
  | tzeroTile (m : Mods LitEng) (t : BitVec 4)
  /-- `tzero` of an accumulator (R331) -/
  | tzeroAcc (m : Mods LitEng) (n : BitVec 3)
  /-- `tld` of a tile (R332) -/
  | tldTile (m : Mods LitEng) (t : BitVec 4) (a : RegIx)
  /-- `tld` of an accumulator (R332) -/
  | tldAcc (m : Mods LitEng) (n : BitVec 3) (a : RegIx)
  /-- `tst` of a tile (R332) -/
  | tstTile (m : Mods LitEng) (t : BitVec 4) (a : RegIx)
  /-- `tst` of an accumulator (R332) -/
  | tstAcc (m : Mods LitEng) (n : BitVec 3) (a : RegIx)
  /-- `tmma` (R335) -/
  | tmma (m : Mods LitEng)
  /-- `tbmp` (R333) -/
  | tbmp (m : Mods LitEng) (t : BitVec 4)
  /-- `tcvt` (R334) -/
  | tcvt (m : Mods LitEng) (t s : BitVec 4) (b : RegIx)
  /-- `tacc` (R336) -/
  | tacc (m : Mods LitEng) (d : RegIx) (n : BitVec 3) (b : RegIx)
  /-- `tstat` of the tile status (R337) -/
  | tstatTile (m : Mods LitEng) (d : RegIx)
  /-- `tstat` of a barrier (R337) -/
  | tstatBarrier (m : Mods LitEng) (d : RegIx) (n : BitVec 5)
  /-- `tgat` (R338) -/
  | tgat (m : Mods LitEng) (t : BitVec 4) (a b : RegIx)
  /-- `cpy` to the stash (R340) -/
  | cpyStash (m : Mods LitEng) (a : RegIx)
  /-- `cpy` to a tile (R340) -/
  | cpyTile (m : Mods LitEng) (t : BitVec 4) (a : RegIx)
  /-- `cpyl` (R341, R342) -/
  | cpyl (m : Mods LitEng) (s : BitVec 2) (a b : RegIx)
  /-- `cpylSt` (R341, R342) -/
  | cpylSt (m : Mods LitEng) (s : BitVec 2) (a b : RegIx)
  /-- `cpylGg` (R341, R342) -/
  | cpylGg (m : Mods LitEng) (s : BitVec 2) (a b : RegIx)
  /-- `cpym` (R341, R342) -/
  | cpym (m : Mods LitEng) (s : BitVec 2) (a b : RegIx)
  /-- `cwpt` (R343) -/
  | cwpt (m : Mods LitEng) (d : RegIx)
  /-- `coll` (R344) -/
  | coll (m : Mods LitEng) (a : RegIx)
  /-- `rpmark` (R403) -/
  | rpmark (m : Plain)
  /-- `rpqry` (R404) -/
  | rpqry (m : Plain) (d a : RegIx)
  /-- `movs` (R385) -/
  | movs (m : Plain) (d n : RegIx)
  /-- `movw` (R385) -/
  | movw (m : Plain) (n a : RegIx)
  /-- `rdtm` (R386) -/
  | rdtm (m : Plain) (d : RegIx)
  /-- `svc`, service 0 (R386) -/
  | svcVersion (m : Mods LitSys)
  /-- `svc`, service 1 (R386) -/
  | svcRecord (m : Mods LitSys)
  /-- `svc`, service 2, and the unknown numbers above it (R386) -/
  | svcCause (m : Mods LitSys)
  /-- `tret` (R387) -/
  | tret (m : Plain)
  /-- `tlbi` (R386) -/
  | tlbi (m : Mods LitSys) (a : RegIx)
  /-- `rep` (R89, R90) -/
  | rep (m : Plain) (n : RegIx) (m : BitVec 3)
  /-- event (R68) -/
  | censusDecision (hearth grate : Nat)
  /-- event (R151, R437) -/
  | resultWriteback (uid : Nat)
  /-- event (R235; `evict`: the L1 copy was evicted first (R200)) -/
  | loadReturn (op : Nat) (evict : Bool)
  /-- event (R212) -/
  | storeAcknowledge (op : Nat)
  /-- event (R221) -/
  | homeWritePerformed (op : Nat)
  /-- event (R214) -/
  | releaseWaitEnd (uid : Nat)
  /-- event (R216) -/
  | fenceScSequenced (uid : Nat)
  /-- event (R211) -/
  | leaseExpiry (hearth : Nat) (cohort : Option Nat) (line : Nat)
  /-- event (R205) -/
  | mappedLineFill (cohort line : Nat)
  /-- event (R248) -/
  | stashStallTimeout (uid : Nat)
  /-- event (R77) -/
  | rendezvousWatchdogExpiry (cohort crew tag : Nat)
  /-- event (R162) -/
  | sleepWake (uid : Nat)
  /-- event (R171) -/
  | devBarrierWakeWindow (slot n : Nat)
  /-- event (R269) -/
  | gatherCrew (die launch cls place unit : Nat)
  /-- event (R46) -/
  | cohortAdmit (slot : Nat)
  /-- event (R276) -/
  | spillRecordMigration (die : Nat)
  /-- event (R288) -/
  | watchFiringRecord (die index : Nat)
  /-- event (R282) -/
  | jwaitReread (uid : Nat)
  /-- event (R308) -/
  | flueCommandStart (hearth flue : Nat)
  /-- event (R309) -/
  | flueLineDelivery (hearth flue : Nat)
  /-- event (R320) -/
  | flueCommandComplete (hearth flue : Nat)
  /-- event (R300) -/
  | tileCommandStart (hearth : Nat)
  /-- event (R304) -/
  | tileCommandComplete (hearth cmd : Nat)
  /-- event (R345; `others`: the contributions of the other ranks, which come from their devices) -/
  | collComplete (cmd : Nat) (others : List (List Word))
  /-- event (R378) -/
  | translationWalkComplete (walk : Nat)
  /-- event (R381) -/
  | garleyPageService (fault : Nat)
  /-- event (R284) -/
  | launchComplete (slot : Nat)
  /-- event (R360) -/
  | tailLineStore (queue : Nat)
  /-- event (R362) -/
  | nopPacket (queue : Nat)
  /-- event (R55) -/
  | launch (queue : Nat)
  /-- event (R364) -/
  | indirect (queue : Nat)
  /-- event (R363) -/
  | wait (queue : Nat)
  /-- event (R291) -/
  | waitThresholdReached (queue : Nat)
  /-- event (R363) -/
  | signal (queue : Nat)
  /-- event (R363) -/
  | fencePacket (queue : Nat)
  /-- event (R363) -/
  | layout (queue : Nat)
  /-- event (R363) -/
  | copy (queue : Nat)
  /-- event (R398) -/
  | recoverClose (queue : Nat)
  /-- event (R391) -/
  | recoverReplay (queue : Nat)
  /-- event (R407) -/
  | recoverDiscard (queue : Nat)
  /-- event (R362) -/
  | priority (queue : Nat)
  /-- event (R365) -/
  | query (queue : Nat)
  /-- event (R372) -/
  | createContext
  /-- event (R375) -/
  | destroyContext
  /-- event (R359) -/
  | createQueue
  /-- event (R372) -/
  | destroyQueue
  /-- event (R367) -/
  | resumeQueue
  /-- event (R358) -/
  | setHostRange
  /-- event (R373) -/
  | setPolicy
  /-- event (R374; the responder's message and the session it opens come from the SPDM standard) -/
  | spdm (response : List Byte) (session : Option (Nat × Bool))
  /-- event (R381) -/
  | faultDone
  /-- event (R11, R372, R432) -/
  | registerWrite (space : RegSpace) (off : Nat) (bytes : List Byte)
  /-- event (R427) -/
  | packagePowerLimitWrite (watts : Nat)
  /-- event (R432) -/
  | packageResetRequest (v : Byte)
  /-- event (R352) -/
  | preemptStopOrder (ctx hearth : Nat)
  /-- event (R354) -/
  | contextSaveComplete (ctx : Nat)
  /-- event (R355) -/
  | contextRestore (ctx : Nat)
  /-- event (R429) -/
  | damperInterval (hearth : Nat)
  /-- event (R430) -/
  | frontClockChange (hearth : Nat)
  /-- event (R417) -/
  | retentionEntry (hearth : Nat)
  /-- event (R417) -/
  | retentionExit (hearth : Nat) (parityError : Bool)
  /-- event (R420) -/
  | inFieldTest (unit : RepairUnit) (confirmed : Bool)
  /-- event (R396) -/
  | rcvGranuleDurable (uid : Nat) (unit granule : Nat)
  /-- event (R400) -/
  | emberUnitCopyComplete (ctx unit : Nat)
  /-- event (R401) -/
  | sealWrite (ctx : Nat)
  /-- event (R411) -/
  | containedNodeCommit (slot : Nat)
  /-- event (R412) -/
  | containedNodeAbort (slot : Nat) (cause : BitVec 9)
  /-- event (R413) -/
  | uncorrectableErrorDetected (site : ErrorSite)
  /-- event (R213) -/
  | hostStoreToDevice (pa : Nat) (access : HostAccess)
  /-- event (R206) -/
  | hostInvalidate (die line : Nat)
  /-- event (R229) -/
  | peerAccess (req : PeerReq)
  /-- event (R357; link 12 is the Xandex link, 0 to 11 the peer links) -/
  | flitCrcFailure (failure : FlitFailure)
  /-- event (R357, R425) -/
  | linkRetrain (link goodLanes : Nat)
  /-- event (R425) -/
  | peerLinkDown (link : Nat)
  /-- event (R434) -/
  | dieReset (die : Nat)
  /-- event (R433) -/
  | bringUp (outcome : BringUp)
  /-- event (R431) -/
  | junctionTemperatureChange (die celsius : Nat)
  /-- event (R431) -/
  | packageTrip (die : Nat)
  /-- event (R81) -/
  | instructionFetchComplete (uid : Nat)
  /-- event (R151, R191) -/
  | pipeIntervalEnd (hearth grate lane : Nat) (cls : BitVec 5)
  /-- event (R301) -/
  | engineStashStallTimeout (hearth : Nat)
  /-- event (R386) -/
  | svcReply (uid : Nat)
  /-- event (R386) -/
  | tlbiComplete (uid : Nat)
  /-- event (R434) -/
  | dieResetComplete (die : Nat)
  /-- event (R431) -/
  | hbmStackTemperatureChange (stack celsius : Nat)
  deriving DecidableEq, Repr, Inhabited

end Sys2Proof
end

