-- ==== Sys2Proof/Config.lean ====
section
/-! DEFINITION. What one implementation fixes and the spec leaves open: the free values. An opaque constant has no body
that a proof can see, so a theorem about it holds for every value it might have. -/

namespace Sys2Proof

/-- The event that comes next when nothing else decides it (log 2): a free value, applied to the counter `tick`. -/
opaque Config.nextEvent : Nat → Instr

/-- The nanoseconds of the lease clock that pass in one decision slot (log 3): a free value. -/
opaque Config.elapsedNs : Nat → Nat

/-- The lane-clock cycles that pass in one decision slot (log 3): a free value. -/
opaque Config.elapsedCycles : Nat → Nat

/-- The approximated `.f32` functions of R189 (`frsq`, `fex2`, `flg2`, `fsin`, `fcos`, `ftnh`): the bits offered for a
finite operand outside the exact cases of Table 10.7, which are the result where they lie within the bound of Table 10.6. A function of the
operation code and the operand alone, since the word "returns the same bits for the same input on every ZV9640-A" (log 6). -/
opaque Config.sfu : BitVec 4 → Word → Word

/-- What `atom.fadd` writes for the default type `.s32`, which is legal (R86) and for which Table 13.3 states no sum (log 98): a function of
the value in memory and the operand. -/
opaque Config.faddDefault : Word → Word → Word

/-- The authentication tag of a management session (R372): a function of the session, the direction (true: a result), the sequence number and
the bytes before it. What AES-256-GCM gives for it comes from outside the spec (log 19). -/
opaque Config.mac : Nat → Bool → Nat → List Byte → List Byte

/-- What the board's storage holds at a torus configuration offset (R423): the extents of the dimensions and this device's coordinate (log 20). -/
opaque Config.torus : BitVec 16 → List Nat × List Nat

/-- The sets of an L2 slice in which a row of it holds a way (R419): which is open (log 103). -/
opaque Config.l2RowSets : Nat → Nat → Bool

/-- The 4 KiB frames, by number, that lie in a row of an HBM4 stack (R419): which is open (log 103). -/
opaque Config.hbmRowFrames : Nat → Nat → List Nat

/-- Garley's ROM version word (R386, service 0) (log 15). -/
opaque Config.romVersion : DWord

/-- The free choices: which line leaves a cache, which frame is taken, whether old or new code is read, the bytes of a field that is open,
and the like. A free value for each step (the counter `tick`), each use and each place in it (log 3). -/
opaque Config.choice : Nat → Nat → Nat → Nat

end Sys2Proof
end

