-- ==== Sys2Proof/Machine/Operands.lean ====
section
/-! DEFINITION. The operand forms of the instruction words: the widths of the types, the defaults of the LIT fields, what each
operation accepts in its LIT word, and the lane registers each word reads and writes (R87, R92, R102, R132, R173, R231). -/

namespace Sys2Proof

/-- The code of a type (Table 5.2). -/
def Ty.code : Ty → BitVec 5
  | .s32 => 0 | .s8 => 1 | .s16 => 2 | .s64 => 3 | .n8 => 4 | .n16 => 5 | .n32 => 6 | .n64 => 7
  | .b8 => 8 | .b16 => 9 | .b32 => 10 | .b64 => 11 | .b128 => 12 | .f32 => 13 | .f64 => 14 | .h16 => 15
  | .bf16 => 16 | .e4m3 => 17 | .e5m2 => 18 | .e3m2 => 19 | .e2m3 => 20 | .e2m1 => 21 | .nl4 => 22

/-- The type of a code; codes 23 to 31 are reserved (R87). -/
def Ty.ofCode (c : BitVec 5) : Option Ty :=
  match c.toNat with
  | 0 => some .s32 | 1 => some .s8 | 2 => some .s16 | 3 => some .s64 | 4 => some .n8 | 5 => some .n16
  | 6 => some .n32 | 7 => some .n64 | 8 => some .b8 | 9 => some .b16 | 10 => some .b32 | 11 => some .b64
  | 12 => some .b128 | 13 => some .f32 | 14 => some .f64 | 15 => some .h16 | 16 => some .bf16
  | 17 => some .e4m3 | 18 => some .e5m2 | 19 => some .e3m2 | 20 => some .e2m3 | 21 => some .e2m1
  | 22 => some .nl4 | _ => none

/-- The width of a value of the type in bits (R132, R108, R115). -/
def Ty.bits : Ty → Nat
  | .s8 | .n8 | .b8 | .e4m3 | .e5m2 => 8
  | .s16 | .n16 | .b16 | .h16 | .bf16 => 16
  | .s32 | .n32 | .b32 | .f32 => 32
  | .s64 | .n64 | .b64 | .f64 => 64
  | .b128 => 128
  | .e3m2 | .e2m3 => 6
  | .e2m1 | .nl4 => 4

/-- Lane registers that hold one value of the type (R92, R106). -/
def Ty.regs (t : Ty) : Nat := if t.bits = 128 then 4 else if t.bits = 64 then 2 else 1

/-- `Signed` of R133. -/
def Ty.signed : Ty → Bool
  | .s8 | .s16 | .s32 | .s64 => true
  | _ => false

def Rnd.code : Rnd → BitVec 3
  | .rne => 0 | .rz => 1 | .ru => 2 | .rd => 3 | .rs => 4
def Rnd.ofCode (c : BitVec 3) : Option Rnd :=
  match c.toNat with | 0 => some .rne | 1 => some .rz | 2 => some .ru | 3 => some .rd | 4 => some .rs | _ => none

def Den.code : Den → BitVec 2
  | .none => 0 | .ftz => 1 | .daz => 2 | .both => 3
def Den.ofCode (c : BitVec 2) : Den :=
  match c.toNat with | 0 => .none | 1 => .ftz | 2 => .daz | _ => .both
/-- The word flushes results (`.ftz`). -/
def Den.ftzOn : Den → Bool | .ftz | .both => true | _ => false
/-- The word reads subnormal sources as zeros (`.daz`). -/
def Den.dazOn : Den → Bool | .daz | .both => true | _ => false

def Order.code : Order → BitVec 3
  | .rlx => 0 | .acq => 1 | .rel => 2 | .ar => 3 | .sc => 4
def Order.ofCode (c : BitVec 3) : Option Order :=
  match c.toNat with | 0 => some .rlx | 1 => some .acq | 2 => some .rel | 3 => some .ar | 4 => some .sc | _ => none
def Order.hasAcq : Order → Bool | .acq | .ar | .sc => true | _ => false
def Order.hasRel : Order → Bool | .rel | .ar | .sc => true | _ => false

def Scope.code : Scope → BitVec 4
  | .fib => 0 | .crw => 1 | .coh => 2 | .hth => 3 | .qd => 4 | .die => 5 | .sid => 6 | .dev => 7
  | .nod => 8 | .per => 9 | .sys => 10 | .rcv => 11
def Scope.ofCode (c : BitVec 4) : Option Scope :=
  match c.toNat with
  | 0 => some .fib | 1 => some .crw | 2 => some .coh | 3 => some .hth | 4 => some .qd | 5 => some .die
  | 6 => some .sid | 7 => some .dev | 8 => some .nod | 9 => some .per | 10 => some .sys | 11 => some .rcv | _ => none
/-- Scopes widen with their codes (R207). -/
def Scope.rank (s : Scope) : Nat := s.code.toNat
/-- The wider of two scopes (R208). -/
def Scope.widen (s t : Scope) : Scope := if s.rank < t.rank then t else s

/-- SET codes (R87): 0 `.all`, 1-4 the masks, 64 + k the register k. -/
def PSet.code : PSet → BitVec 7
  | .all => 0
  | .mask j => BitVec.ofNat 7 (j.toNat + 1)
  | .reg r => BitVec.ofNat 7 (64 + r.toNat)
def PSet.ofCode (c : BitVec 7) : Option PSet :=
  if c.toNat = 0 then some .all
  else if c.toNat ≤ 4 then some (.mask (BitVec.ofNat 2 (c.toNat - 1)))
  else if c.toNat < 64 then none
  else some (.reg (BitVec.ofNat 6 (c.toNat - 64)))

def Width.code : Width → BitVec 3
  | .w32 => 0 | .w2 => 1 | .w4 => 2 | .w8 => 3 | .w16 => 4
def Width.ofCode (c : BitVec 3) : Option Width :=
  match c.toNat with | 0 => some .w32 | 1 => some .w2 | 2 => some .w4 | 3 => some .w8 | 4 => some .w16 | _ => none
/-- Vlanes of a sub-group. -/
def Width.lanes : Width → Nat | .w32 => 32 | .w2 => 2 | .w4 => 4 | .w8 => 8 | .w16 => 16

def Ovf.code : Ovf → BitVec 2
  | .wrap => 0 | .sat => 1 | .trap => 2
def Ovf.ofCode (c : BitVec 2) : Option Ovf :=
  match c.toNat with | 0 => some .wrap | 1 => some .sat | 2 => some .trap | _ => none

/-! ### Effective LIT fields: the LIT word's, or the documented defaults (R86) -/

/-- The third source, predicate or destination field widened to a D field (Pred3 formats). -/
def predField (p : BitVec 3) : RegIx := p.zeroExtend 6

def Mods.body {α : Type} (m : Mods α) (dflt : α) : α := match m.lit with | some l => l.body | none => dflt

/-- The word ties the next word of its packet into its group (R82): its last word's C bit. -/
def Mods.chains {α : Type} (m : Mods α) : Bool := match m.lit with | some l => l.chain | none => m.c

/-- Words the instruction occupies. -/
def Mods.words {α : Type} (m : Mods α) : Nat := match m.lit with | some _ => 2 | none => 1

/-- Table 5.3, classes 0-3: the defaults. -/
def LitInt.dflt (d : RegIx) : LitInt := .fields .s32 .wrap 0 d
/-- Type of an integer word; the immediate form is `.s32` (R134). -/
def LitInt.ty : LitInt → Ty | .fields t _ _ _ => t | .imm _ => .s32
def LitInt.ovf : LitInt → Ovf | .fields _ o _ _ => o | .imm _ => .wrap
def LitInt.sel : LitInt → BitVec 3 | .fields _ _ s _ => s | .imm _ => 0
def LitInt.xreg (d : RegIx) : LitInt → RegIx | .fields _ _ _ x => x | .imm _ => d
def LitInt.isImm : LitInt → Bool | .fields .. => false | .imm _ => true

/-- Table 10.1: the defaults, by the operation's default type and source type. -/
def LitFlt.dflt (t st : Ty) (d : RegIx) : LitFlt := .fields t st .rne .none false 0 d
def LitFlt.ty (t : Ty) : LitFlt → Ty | .fields t' _ _ _ _ _ _ => t' | .fimm _ => t
def LitFlt.stype (t : Ty) : LitFlt → Ty | .fields _ s _ _ _ _ _ => s | .fimm _ => t
def LitFlt.rnd : LitFlt → Rnd | .fields _ _ r _ _ _ _ => r | .fimm _ => .rne
def LitFlt.den : LitFlt → Den | .fields _ _ _ d _ _ _ => d | .fimm _ => .none
def LitFlt.nan : LitFlt → Bool | .fields _ _ _ _ n _ _ => n | .fimm _ => false
def LitFlt.sel : LitFlt → BitVec 3 | .fields _ _ _ _ _ s _ => s | .fimm _ => 0
def LitFlt.xreg (d : RegIx) : LitFlt → RegIx | .fields _ _ _ _ _ _ x => x | .fimm _ => d
def LitFlt.isImm : LitFlt → Bool | .fields .. => false | .fimm _ => true

/-- Classes 10-12: the scope defaults to `.dev` (R233). -/
def LitMem.dflt : LitMem := ⟨.s32, .rlx, .dev, 0, 0⟩
def LitStash.dflt : LitStash := ⟨.s32, 0, 0⟩
def LitFence.dflt : LitFence := ⟨.sc, .dev⟩
def LitXl.dflt : LitXl := ⟨.all, 0, .w32, 0, 7, false⟩
def LitGrp.dflt : LitGrp := ⟨.all, 0, .w32, .rne, .none⟩
def LitCall.dflt : LitCall := ⟨0⟩
def LitWaitc.dflt : LitWaitc := ⟨0, 0, 0, 0⟩
def LitBar.dflt : LitBar := ⟨.coh⟩
def LitSleep.dflt : LitSleep := ⟨0⟩
def LitSpawn.dflt : LitSpawn := ⟨0, 0, false, 0⟩
def LitEng.dflt : LitEng := ⟨false, 0, 0, 0⟩
def LitSys.dflt : LitSys := ⟨.dev, 0⟩

/-! ### What an operation accepts in its LIT word -/

def Ty.isI : Ty → Bool
  | .s8 | .s16 | .s32 | .s64 | .n8 | .n16 | .n32 | .n64 => true
  | _ => false
def Ty.isB : Ty → Bool
  | .b8 | .b16 | .b32 | .b64 => true
  | _ => false
def Ty.isIB (t : Ty) : Bool := t.isI || t.isB
def Ty.isIBQ (t : Ty) : Bool := t.isIB || t == .b128
/-- The binary formats of R108. -/
def Ty.isBin : Ty → Bool
  | .f64 | .f32 | .h16 | .bf16 => true
  | _ => false
/-- The narrow kinds of R115. -/
def Ty.isNarrow : Ty → Bool
  | .e4m3 | .e5m2 | .e3m2 | .e2m3 | .e2m1 => true
  | _ => false

/-- One row of Tables 8.2, 8.3, 8.4 and 8.5. -/
structure IntRule where
  types : List Ty
  sat : Bool := false
  trap : Bool := false
  selMax : Nat := 0
  x : Bool := false
  imm : Bool := true
  deriving DecidableEq, Repr

def tyI : List Ty := [.s8, .s16, .s32, .s64, .n8, .n16, .n32, .n64]
def tyIB : List Ty := tyI ++ [.b8, .b16, .b32, .b64]
def tyIBQ : List Ty := tyIB ++ [.b128]
def tyS : List Ty := [.s8, .s16, .s32, .s64]
def ty3264 : List Ty := [.s32, .n32, .b32, .s64, .n64, .b64]

/-- R135: the LIT word of a class 0-3 word fits the operation's row. -/
def IntRule.ok (r : IntRule) (d : RegIx) : LitInt → Bool
  | .fields t o s x =>
    r.types.contains t && (match o with | .wrap => true | .sat => r.sat | .trap => r.trap)
      && decide (s.toNat ≤ r.selMax) && (r.x || x == d)
  | .imm _ => r.imm

/-- One row of Table 10.1, 10.2 or 10.6; the pairs of `fcvt` have a rule of their own. -/
structure FltRule where
  types : List Ty
  rnd : Bool := false
  selMax : Nat := 0
  x : Bool := false
  imm : Bool := true
  den : Bool := true
  stypes : List Ty := [.s32]
  deriving DecidableEq, Repr

def tyF3 : List Ty := [.f32, .h16, .bf16]

/-- R174 for the operations other than `fcvt`. -/
def FltRule.ok (r : FltRule) (d : RegIx) : LitFlt → Bool
  | .fields t st rn de nan s x =>
    r.types.contains t && r.stypes.contains st && (rn == .rne || (r.rnd && rn != .rs))
      && (r.den || de == .none) && !nan && decide (s.toNat ≤ r.selMax) && (r.x || x == d)
  | .fimm _ => r.imm

/-- Table 10.3: the conversions `fcvt` accepts, with their selectors. -/
def cvtPair (src dst : Ty) (sel : Nat) : Bool :=
  (src.isI && dst.isBin && sel == 0) || (src.isBin && dst.isI && sel == 0) || (src.isBin && dst.isBin && sel == 0)
  || (src.isBin && dst.isNarrow && (sel == 0 || (sel == 1 && src != .f64)))
  || ((src == .f32 || src == .h16 || src == .bf16) && dst == .nl4 && decide (sel ≤ 4))
  || (src.isNarrow && dst.isBin && (sel == 0 || (sel == 1 && dst != .f64)))
  || (src == .nl4 && (dst == .f32 || dst == .h16 || dst == .bf16) && sel == 0)

/-- A conversion of 16 elements (R186). -/
def cvtBlock (src dst : Ty) (sel : Nat) : Bool :=
  src == .nl4 || dst == .nl4 || (sel == 1 && (src.isNarrow || dst.isNarrow))

/-- R184, R174, R120, R111 for `fcvt`. `x` is read only under `.rs`. -/
def cvtOk (d : RegIx) : LitFlt → Bool
  | .fields t st rn _ nan s x =>
    cvtPair st t s.toNat
      && (rn != .rs || t.isNarrow || t == .nl4)
      && (!nan || t == .e4m3 || t == .e5m2)
      && (rn == .rs || x == d)
  | .fimm _ => false

/-- The integer types of R231, with the 128-bit one. -/
def memTypes : List Ty := tyIBQ
def ty3264All : List Ty := [.s32, .n32, .b32, .s64, .n64, .b64]

/-- What a class 10-12 word accepts (R231, R233, Table 12.3, Table 13.3). -/
structure MemRule where
  types : List Ty
  ords : List Order
  fixedScope : Bool := false
  noRcv : Bool := false
  deriving DecidableEq, Repr

def MemRule.ok (r : MemRule) (l : LitMem) : Bool :=
  r.types.contains l.ty && r.ords.contains l.ord && (!r.fixedScope || l.scope == .dev)
    && (!r.noRcv || l.scope != .rcv)

/-- Types of group words (Table 13.6). -/
def grpTy (c : BitVec 3) : Ty :=
  match c.toNat with
  | 0 => .s32 | 1 => .n32 | 2 => .b32 | 3 => .f32 | 4 => .s64 | 5 => .n64 | 6 => .b64 | _ => .f64

/-- The combinations of operation and type valid for `redu` and `scan` (R252). -/
def grpOpOk (o : RegIx) : Bool :=
  let t := grpTy (o.extractLsb' 0 3)
  match (o.extractLsb' 3 3).toNat with
  | 0 | 1 | 2 => t == .s32 || t == .n32 || t == .f32 || t == .s64 || t == .n64 || t == .f64
  | 3 | 4 | 5 => t == .b32 || t == .b64
  | 6 => t == .s32 || t == .n32 || t == .s64 || t == .n64
  | _ => false

/-! ### Lane-register operands -/

/-- A lane-register operand: first register, registers, alignment of the field (R92). -/
structure Opnd where
  r : RegIx
  n : Nat := 1
  al : Nat := 1
  deriving DecidableEq, Repr

/-- The field is aligned and the run ends at or below v63 (R92, R186, R264, R324). -/
def Opnd.ok (o : Opnd) : Bool := o.r.toNat % o.al == 0 && decide (o.r.toNat + o.n ≤ 64)

/-- An operand that holds one value of type t. -/
def Opnd.ofTy (r : RegIx) (t : Ty) : Opnd := ⟨r, t.regs, t.regs⟩
def Opnd.pair (r : RegIx) : Opnd := ⟨r, 2, 2⟩
def Opnd.one (r : RegIx) : Opnd := ⟨r, 1, 1⟩

/-- The operand B of a word with an immediate form: not read in that form. -/
def bOpnd (imm : Bool) (o : Opnd) : List Opnd := if imm then [] else [o]

/-- Block operand runs of R186 (Table 10.5). -/
def blockRun (t : Ty) : Nat :=
  match t with
  | .f32 => 16 | .h16 | .bf16 => 8 | .e2m1 | .nl4 => 3 | _ => 5

/-- Packed binary types stand two to a register in FADD, FMUL, SFU and `frnd` (R173, R188): always `t.regs` registers. -/
def cvtOpnd (r : RegIx) (t : Ty) (blk : Bool) : Opnd :=
  if blk then ⟨r, blockRun t, 1⟩ else Opnd.ofTy r t

end Sys2Proof
end

