-- ==== Sys2Proof/Machine/IntArith.lean ====
section
/-! DEFINITION. The values that integer words compute, as functions of raw bits and exact integers (R106, R107, R132 to R149). -/

namespace Sys2Proof

/-- The least value of a type (R106). -/
def Ty.minVal (t : Ty) : Int := if t.signed then -(2 ^ (t.bits - 1) : Int) else 0
/-- The greatest value of a type (R106). -/
def Ty.maxVal (t : Ty) : Int := if t.signed then 2 ^ (t.bits - 1) - 1 else 2 ^ t.bits - 1

/-- `SignExtend(x, w)` of Table 2.4. -/
def sext (w x : Nat) : Int := if x % 2 ^ w < 2 ^ (w - 1) then (x % 2 ^ w : Nat) else (x % 2 ^ w : Nat) - (2 ^ w : Int)

/-- The number that the low bits of x hold in a type: signed or unsigned (R106, R133). -/
def Ty.num (t : Ty) (x : Nat) : Int := if t.signed then sext t.bits x else (x % 2 ^ t.bits : Nat)

/-- `Sat(x, t)` of Table 2.4. -/
def Ty.sat (t : Ty) (x : Int) : Int := max t.minVal (min t.maxVal x)

/-- x mod 2^n as a natural number. -/
def modPow (n : Nat) (x : Int) : Nat := (x % (2 ^ n : Int)).toNat

/-- The N bits that `Wr` writes: saturated or wrapped (R133). -/
def Ty.wr (t : Ty) (o : Ovf) (x : Int) : Nat :=
  modPow t.bits (match o with | .sat => t.sat x | _ => x)

/-- The registers that hold N bits of a type: low word first, extended to 32 bits by R106. -/
def Ty.words (t : Ty) (x : Nat) : List Word :=
  if t.bits ≤ 32 then [BitVec.ofInt 32 (t.num x)]
  else (List.range t.regs).map fun i => BitVec.ofNat 32 (x / 2 ^ (32 * i))

/-- The raw value of registers, low word first. -/
def rawOf : List Word → Nat
  | [] => 0
  | w :: ws => w.toNat + 2 ^ 32 * rawOf ws

/-- The immediate of R134. -/
def immVal (v : BitVec 25) : Int := v.toInt

/-! ### IALU (R136 to R138) -/

/-- The operations of R136. -/
inductive IaluOp where | add | sub | neg | abs | min | max | and | or | xor | andn | orn | mov
  deriving DecidableEq, Repr

/-- t of R136 for numbers a, b. -/
def ialuVal (op : IaluOp) (t : Ty) (a b : Int) : Int :=
  let N := t.bits
  let ra := modPow N a
  let rb := modPow N b
  match op with
  | .add => a + b
  | .sub => a - b
  | .neg => -a
  | .abs => if a < 0 then -a else a
  | .min => if a < b then a else b
  | .max => if a > b then a else b
  | .and => (ra &&& rb : Nat)
  | .or => (ra ||| rb : Nat)
  | .xor => (ra ^^^ rb : Nat)
  | .andn => (ra &&& (2 ^ N - 1 - rb) : Nat)
  | .orn => (ra ||| (2 ^ N - 1 - rb) : Nat)
  | .mov => b

/-- `addc` and `subb`: the N result bits and the carry or borrow (R137). -/
def addcVal (N ra rb : Nat) (c : Bool) : Nat × Bool :=
  let t := ra + rb + c.toNat
  (t % 2 ^ N, decide (2 ^ N ≤ t))
def subbVal (N ra rb : Nat) (c : Bool) : Nat × Bool :=
  let t : Int := ra - rb - c.toNat
  (modPow N t, decide (t < 0))

/-- The condition codes of `cmp` (R138). -/
def cmpVal (sel : Nat) (a b : Int) : Bool :=
  match sel with
  | 0 => decide (a = b) | 1 => decide (a ≠ b) | 2 => decide (a < b) | 3 => decide (a ≤ b) | 4 => decide (b < a)
  | _ => decide (b ≤ a)

/-! ### IBIT (R139 to R145) -/

/-- `shl` (R139): the exact product, but computed only as far as saturation and wrapping can tell apart. -/
def shlVal (t : Ty) (a : Int) (c : Nat) : Int := a * 2 ^ (min c (t.bits + 1))
/-- `shr` (R139). -/
def shrVal (ra c : Nat) : Int := (ra / 2 ^ (min c 128) : Nat)
/-- `sar` (R139). -/
def sarVal (N ra c : Nat) : Int := sext N ra / 2 ^ (min c N)
/-- `rotl` (R139). -/
def rotlVal (N ra c : Nat) : Int :=
  let k := c % N
  ((ra * 2 ^ k + ra / 2 ^ (N - k)) % 2 ^ N : Nat)
/-- `fsh` (R140). -/
def fshVal (N ra rx c : Nat) (right : Bool) : Nat :=
  let w := ra * 2 ^ N + rx
  let k := c % N
  if right then (w / 2 ^ k) % 2 ^ N else (w * 2 ^ k / 2 ^ N) % 2 ^ N
/-- `bfx` (R141). -/
def bfxVal (t : Ty) (ra o w : Nat) : Int :=
  let o := o % 64
  let w := w % 64
  let f := ra / 2 ^ o % 2 ^ w
  if t.signed && w != 0 then sext w f else (f : Nat)
/-- `bfi` (R141). -/
def bfiVal (t : Ty) (ov : Ovf) (ins : Int) (rd o w : Nat) : Nat :=
  let N := t.bits
  let o := o % 64
  let w := w % 64
  let ins := if ov = .sat then
      (if w = 0 then 0
       else if t.signed then max (-(2 ^ (w - 1) : Int)) (min (2 ^ (w - 1) - 1) ins) else max 0 (min (2 ^ w - 1) ins))
    else ins
  let m := (2 ^ w - 1) * 2 ^ o % 2 ^ N
  (rd &&& (2 ^ N - 1 - m)) ||| (modPow N (ins * 2 ^ o) &&& m)

/-- The number of 1 bits among the low n bits (R142). -/
def popCount (n x : Nat) : Nat := ((List.range n).filter fun i => x.testBit i).length
/-- The 0 bits above the highest 1 bit (R142). -/
def clzVal (n x : Nat) : Nat := ((List.range n).reverse.takeWhile fun i => !x.testBit i).length
/-- The 0 bits below the lowest 1 bit (R142). -/
def ctzVal (n x : Nat) : Nat := ((List.range n).takeWhile fun i => !x.testBit i).length
/-- A natural number from its bits, lowest first. -/
def ofBits : List Bool → Nat
  | [] => 0
  | b :: bs => b.toNat + 2 * ofBits bs
/-- `brev` (R142). -/
def brevVal (n x : Nat) : Nat := ofBits ((List.range n).map fun i => x.testBit (n - 1 - i))

/-- Byte j of a number. -/
def byteAt (x j : Nat) : Nat := x / 2 ^ (8 * j) % 256
/-- `bprm` (R143). -/
def bprmVal (src s : Nat) : Nat :=
  ((List.range 4).map fun k =>
    let n := s / 2 ^ (4 * k) % 16
    let b := byteAt src (n % 8)
    (if n < 8 then b else if 128 ≤ b then 255 else 0) * 2 ^ (8 * k)).sum
/-- `plog` (R144). -/
def plogVal (n ra rb rc T : Nat) : Nat :=
  ofBits ((List.range n).map fun i => T.testBit (4 * (ra.testBit i).toNat + 2 * (rb.testBit i).toNat + (rc.testBit i).toNat))
/-- `lea` (R145). -/
def leaVal (base : Nat) (idx : Int) (scale : Nat) : Nat := modPow 64 (base + idx * 2 ^ scale)

/-! ### IMUL and IDIV (R146 to R149) -/

/-- A byte of a word as a number. -/
def byteNum (x k : Nat) (sgn : Bool) : Int := if sgn then sext 8 (byteAt x k) else (byteAt x k : Nat)
/-- `idp4` (R147): the exact sum. -/
def idp4Val (t : Ty) (su : Bool) (ra rb : Nat) (x : Int) : Int :=
  let sa := t.signed
  let sb := if su then !sa else sa
  x + ((List.range 4).map fun k => byteNum ra k sa * byteNum rb k sb).sum
/-- `mulh` and `madh` (R146). -/
def highVal (t : Ty) (x : Int) : Int := x / 2 ^ t.bits

/-- The outcome of `div` or `rem` (R149): the value, or the detail of a class 2 cause (Table 8.7). -/
def divVal (t : Ty) (trap : Bool) (a b : Int) : Except Nat Int :=
  if b = 0 then
    if trap then .error 0
    else .ok (if t.signed then t.sat (a * 2 ^ (t.bits - 1)) else 2 ^ t.bits - 1)
  else
    let q := tdiv a b
    if trap && decide (t.maxVal < q) then .error 1 else .ok (t.sat q)
def remVal (_t : Ty) (trap : Bool) (a b : Int) : Except Nat Int :=
  if b = 0 then (if trap then .error 0 else .ok a) else .ok (trem a b)

end Sys2Proof
end

