-- ==== Sys2Proof/Machine/FloatArith.lean ====
section
/-! DEFINITION. Floating values to the bit: decoding, exact arithmetic, one rounding, flags, narrow kinds and blocks of 16
(R108 to R124, R175 to R190). -/

namespace Sys2Proof

/-- The flags of Table 7.2. -/
abbrev FFlags := BitVec 5
def fNV : FFlags := 16
def fDZ : FFlags := 8
def fOF : FFlags := 4
def fUF : FFlags := 2
def fNX : FFlags := 1
def flagIf (b : Bool) (f : FFlags) : FFlags := if b then f else 0

/-- A format with an exponent field: fraction bits, exponents of the least normal and of the top binade, the largest finite
significand in the top binade, the width, and whether the code after it is an infinity (Tables 7.1, 7.3). -/
structure FFmt where
  mb : Nat
  emin : Int
  emax : Int
  maxN : Nat
  width : Nat
  hasInf : Bool
  deriving DecidableEq, Repr

def fmtF64 : FFmt := ⟨52, -1022, 1023, 2 ^ 53 - 1, 64, true⟩
def fmtF32 : FFmt := ⟨23, -126, 127, 2 ^ 24 - 1, 32, true⟩
def fmtH16 : FFmt := ⟨10, -14, 15, 2 ^ 11 - 1, 16, true⟩
def fmtBf16 : FFmt := ⟨7, -126, 127, 2 ^ 8 - 1, 16, true⟩
def fmtE4m3 : FFmt := ⟨3, -6, 8, 14, 8, false⟩
def fmtE5m2 : FFmt := ⟨2, -14, 15, 7, 8, true⟩
def fmtE3m2 : FFmt := ⟨2, -2, 4, 7, 6, false⟩
def fmtE2m3 : FFmt := ⟨3, 0, 2, 15, 6, false⟩
def fmtE2m1 : FFmt := ⟨1, 0, 2, 3, 4, false⟩

/-- The format of a type; `.f32` for a type that has none. -/
def Ty.fmt : Ty → FFmt
  | .f64 => fmtF64 | .h16 => fmtH16 | .bf16 => fmtBf16 | .e4m3 => fmtE4m3 | .e5m2 => fmtE5m2
  | .e3m2 => fmtE3m2 | .e2m3 => fmtE2m3 | .e2m1 => fmtE2m1 | _ => fmtF32

/-- A floating value: a NaN, an infinity, or (−1)^neg × m × 2^e. -/
inductive FVal where
  | nan (signalling : Bool)
  | inf (neg : Bool)
  | fin (neg : Bool) (m : Nat) (e : Int)
  deriving DecidableEq, Repr

/-- The exponent of the least subnormal. -/
def FFmt.qmin (f : FFmt) : Int := f.emin - f.mb

/-- The value that a code holds (Tables 7.1, 7.4, 7.5). -/
def FFmt.decode (f : FFmt) (x : Nat) : FVal :=
  let x := x % 2 ^ f.width
  let neg := x.testBit (f.width - 1)
  let mag := x % 2 ^ (f.width - 1)
  let ef := mag / 2 ^ f.mb
  let fr := mag % 2 ^ f.mb
  let top := 2 ^ (f.width - 1 - f.mb) - 1
  if f.hasInf && ef == top then (if fr = 0 then .inf neg else .nan (f.width != 8 && !fr.testBit (f.mb - 1)))
  else if f.width = 8 && mag == 127 then .nan false
  else if ef = 0 then .fin neg fr f.qmin
  else .fin neg (2 ^ f.mb + fr) (f.qmin + (ef - 1 : Nat))

/-- The sign bit of a code. -/
def FFmt.signBit (f : FFmt) (neg : Bool) : Nat := neg.toNat * 2 ^ (f.width - 1)
/-- The code of the magnitude n × 2^q, q at or above the least subnormal's exponent. -/
def FFmt.codeOf (f : FFmt) (n : Nat) (q : Int) : Nat := (q - f.qmin).toNat * 2 ^ f.mb + n
/-- The largest finite magnitude's code. -/
def FFmt.maxCode (f : FFmt) : Nat := f.codeOf f.maxN (f.emax - f.mb)
/-- The code of ∞, where the format has one. -/
def FFmt.infCode (f : FFmt) : Nat := f.maxCode + 1
/-- The canonical NaN (R109, R120). -/
def FFmt.nanCode (f : FFmt) : Nat :=
  if f.width = 8 then (if f.hasInf then 126 else 127) else f.infCode + 2 ^ (f.mb - 1)

/-- `.daz` (R114): a subnormal of the format reads as a zero of its sign. -/
def FFmt.daz (f : FFmt) (on : Bool) : FVal → FVal
  | .fin neg m e => if on && decide (m < 2 ^ f.mb) && e == f.qmin then .fin neg 0 f.qmin else .fin neg m e
  | v => v

def FVal.isNan : FVal → Bool | .nan _ => true | _ => false
def FVal.isSig : FVal → Bool | .nan s => s | _ => false
def FVal.neg : FVal → FVal
  | .nan s => .nan s | .inf n => .inf (!n) | .fin n m e => .fin (!n) m e
def FVal.sign : FVal → Bool | .nan _ => false | .inf n => n | .fin n _ _ => n
def FVal.isZero : FVal → Bool | .fin _ m _ => m == 0 | _ => false
def FVal.isInf : FVal → Bool | .inf _ => true | _ => false

/-- An exact result before rounding. `sticky`: the magnitude lies strictly between m and m + 1 times 2^e. -/
inductive FRes where
  | nan (fl : FFlags)
  | inf (neg : Bool) (fl : FFlags)
  | num (neg : Bool) (m : Nat) (e : Int) (sticky : Bool)
  deriving DecidableEq, Repr

/-! ### Rounding (R110, R111, R113) -/

/-- Whether the magnitude above is chosen, from the remainder r of 2^k (R110). -/
def roundUp (mode : Rnd) (neg : Bool) (odd : Bool) (r k : Nat) (sticky : Bool) (rand : Nat) : Bool :=
  match mode with
  | .rne =>
    if k = 0 then false
    else
      let half := 2 ^ (k - 1)
      decide (half < r) || (r == half && (sticky || odd))
  | .rz => false
  | .ru => !neg && (r != 0 || sticky)
  | .rd => neg && (r != 0 || sticky)
  | .rs => decide (rand < r * 2 ^ 32 / 2 ^ k)

/-- A rounded magnitude n × 2^q with what the flags need. -/
structure Rounded where
  n : Nat
  q : Int
  inexact : Bool
  tiny : Bool
  ovf : Bool
  deriving DecidableEq, Repr

/-- Round m × 2^e (with sticky) to the format's magnitude set, continued past the largest finite magnitude (R110); tininess
after rounding to precision with an unbounded exponent (R113), under `.rne` for `.rs`. -/
def FFmt.round (f : FFmt) (mode : Rnd) (rand : Nat) (neg : Bool) (m : Nat) (e : Int) (sticky : Bool) : Rounded :=
  if m = 0 && !sticky then ⟨0, f.qmin, false, false, false⟩
  else
    let E0 : Int := Nat.log2 m + e
    let q : Int := max f.emin (min f.emax E0) - f.mb
    if f.emax + 1 < E0 then ⟨f.maxN + 1, f.emax - f.mb, true, false, true⟩
    else
      let far := decide (E0 < q - 80) || m == 0
      let m := if far then 1 else m
      let e := if far then q - 80 else e
      let sticky := sticky || far
      let E : Int := if far then q - 80 else E0
      let k := (q - e).toNat
      let big := m * 2 ^ (e - q).toNat
      let n := big / 2 ^ k
      let r := big % 2 ^ k
      let up := roundUp mode neg (n % 2 == 1) r k sticky rand
      let n' := if up then n + 1 else n
      let q' := E - f.mb
      let k' := (q' - e).toNat
      let big' := m * 2 ^ (e - q').toNat
      let up' := roundUp (if mode = .rs then .rne else mode) neg (big' / 2 ^ k' % 2 == 1) (big' % 2 ^ k') k' sticky 0
      let reaches := decide (E = f.emin - 1) && up' && big' / 2 ^ k' == 2 ^ (f.mb + 1) - 1
      ⟨n', q, r != 0 || sticky, decide (E < f.emin) && !reaches, q == f.emax - f.mb && decide (f.maxN < n')⟩

/-- A binary result with its flags (R113, R114). -/
def FFmt.finish (f : FFmt) (mode : Rnd) (ftz : Bool) : FRes → Nat × FFlags
  | .nan fl => (f.nanCode, fl)
  | .inf neg fl => (f.signBit neg + f.infCode, fl)
  | .num neg m e st =>
    let r := f.round mode 0 neg m e st
    if r.ovf then
      let toInf := match mode with | .rne | .rs => true | .rz => false | .ru => !neg | .rd => neg
      (f.signBit neg + (if toInf then f.infCode else f.maxCode), fOF ||| fNX)
    else if r.tiny && ftz then (f.signBit neg, fUF ||| fNX)
    else (f.signBit neg + f.codeOf r.n r.q, flagIf (r.tiny && r.inexact) fUF ||| flagIf r.inexact fNX)

/-! ### Exact arithmetic (R175 to R177, R182, R189) -/

/-- The signed significand of a finite value. -/
def sgn (neg : Bool) (m : Nat) : Int := if neg then -(m : Int) else m

/-- The exact sum of two dyadic numbers a × 2^e and b × 2^g. -/
def dyAdd (a : Int) (e : Int) (b : Int) (g : Int) : Int × Int :=
  let l := min e g
  (a * 2 ^ (e - l).toNat + b * 2 ^ (g - l).toNat, l)

/-- An exact nonzero dyadic as a result; an exact zero takes the given sign. -/
def dyRes (a : Int) (e : Int) (zneg : Bool) : FRes :=
  if a = 0 then .num zneg 0 0 false else .num (decide (a < 0)) a.natAbs e false

/-- The sign of an exact zero sum u + w (R175). -/
def zeroSign (mode : Rnd) (u w : FVal) : Bool :=
  if u.isZero && w.isZero && u.sign == w.sign then u.sign else decide (mode = .rd)

/-- a + b (R175). -/
def fAdd (mode : Rnd) (a b : FVal) : FRes :=
  match a, b with
  | .nan s, x | x, .nan s => .nan (flagIf (s || x.isSig) fNV)
  | .inf s, .inf t => if s = t then .inf s 0 else .nan fNV
  | .inf s, _ | _, .inf s => .inf s 0
  | .fin s m e, .fin t n g =>
    let (x, l) := dyAdd (sgn s m) e (sgn t n) g
    dyRes x l (zeroSign mode a b)

/-- a × b (R175). -/
def fMul (a b : FVal) : FRes :=
  match a, b with
  | .nan s, x | x, .nan s => .nan (flagIf (s || x.isSig) fNV)
  | .inf s, x | x, .inf s => if x.isZero then .nan fNV else .inf (s != x.sign) 0
  | .fin s m e, .fin t n g => .num (s != t) (m * n) (e + g) false

/-- The exact product of two finite or infinite values as a value (for sums of products). -/
def FRes.toVal : FRes → FVal
  | .nan _ => .nan false
  | .inf s _ => .inf s
  | .num s m e _ => .fin s m e
def FRes.flags : FRes → FFlags
  | .nan fl => fl | .inf _ fl => fl | .num .. => 0
def FRes.addFlags (fl : FFlags) : FRes → FRes
  | .nan g => .nan (g ||| fl) | .inf s g => .inf s (g ||| fl) | r => r

/-- a × b + x with one rounding to come (R175). -/
def fFma (mode : Rnd) (a b x : FVal) : FRes :=
  let p := fMul a b
  let nv := p.flags ||| flagIf x.isSig fNV
  if p.toVal.isNan || x.isNan then .nan nv else (fAdd mode p.toVal x)

/-- The exact sum of an accumulator and products (R182). -/
def fDot (mode : Rnd) (c : FVal) (ps : List (FVal × FVal)) : FRes :=
  let prods := ps.map fun (a, b) => fMul a b
  let nv := (prods.foldl (fun fl p => fl ||| p.flags) 0) ||| flagIf c.isSig fNV
  let vals := c :: prods.map FRes.toVal
  let clash := vals.any (fun v => v == .inf true) && vals.any (fun v => v == .inf false)
  if vals.any FVal.isNan || clash then .nan (nv ||| flagIf clash fNV)
  else match vals.find? FVal.isInf with
    | some v => .inf v.sign 0
    | none =>
      let (x, l) := vals.foldl (fun (x, l) v => match v with | .fin s m e => dyAdd x l (sgn s m) e | _ => (x, l)) (0, 0)
      let same := vals.all fun v => v.isZero && v.sign == c.sign
      dyRes x l (if same then c.sign else decide (mode = .rd))

/-- a ÷ b (R189, Table 10.7). -/
def fDiv (a b : FVal) : FRes :=
  match a, b with
  | .nan s, x | x, .nan s => .nan (flagIf (s || x.isSig) fNV)
  | .inf _, .inf _ => .nan fNV
  | .inf s, x => .inf (s != x.sign) 0
  | x, .inf s => .num (s != x.sign) 0 0 false
  | .fin s m e, .fin t n g =>
    if n = 0 then (if m = 0 then .nan fNV else .inf (s != t) fDZ)
    else
      let k := Nat.log2 n + 61
      .num (s != t) (m * 2 ^ k / n) (e - g - k) (m * 2 ^ k % n != 0)

/-- The integer square root, bit by bit. -/
def isqrt (x : Nat) : Nat → Nat → Nat
  | 0, r => r
  | i + 1, r => isqrt x i (if (r + 2 ^ i) * (r + 2 ^ i) ≤ x then r + 2 ^ i else r)

/-- √a (R189, Table 10.7). -/
def fSqrt (a : FVal) : FRes :=
  match a with
  | .nan s => .nan (flagIf s fNV)
  | .inf s => if s then .nan fNV else .inf false 0
  | .fin s m e =>
    if m = 0 then .num s 0 0 false
    else if s then .nan fNV
    else
      let odd := e % 2
      let x := m * 2 ^ (odd.toNat + 128)
      let r := isqrt x (Nat.log2 x / 2 + 1) 0
      .num false r ((e - odd) / 2 - 64) (r * r != x)

/-- v × 2^n (R176). -/
def fScale (a : FVal) (n : Int) : FRes :=
  match a with
  | .nan s => .nan (flagIf s fNV)
  | .inf s => .inf s 0
  | .fin s m e => .num s m (e + n) false

/-- a < b for numbers, −0 below +0 when `zeros` is set. -/
def fLess (zeros : Bool) (a b : FVal) : Bool :=
  match a, b with
  | .nan _, _ | _, .nan _ => false
  | .inf s, .inf t => s && !t
  | .inf s, _ => s
  | _, .inf t => !t
  | .fin s m e, .fin t n g =>
    let (x, _) := dyAdd (sgn s m) e (-(sgn t n)) g
    decide (x < 0) || (x == 0 && zeros && m == 0 && s && !t)

/-- `fmin` and `fmax` (R177). -/
def fMinMax (isMax : Bool) (a b : FVal) : FRes :=
  let nv := flagIf (a.isSig || b.isSig) fNV
  match a, b with
  | .nan _, .nan _ => .nan nv
  | .nan _, x | x, .nan _ => (fScale x 0).addFlags nv
  | _, _ => fScale (if fLess true a b == isMax then b else a) 0

/-- The flags that `fMinMax` raises beside its result's: a signalling NaN met with a number. -/
def fMinMaxNv (a b : FVal) : FFlags := flagIf (a.isSig || b.isSig) fNV

/-- `fcmp` (R178). -/
def fCmp (sel : Nat) (a b : FVal) : Bool :=
  let un := a.isNan || b.isNan
  let eq := !un && !fLess false a b && !fLess false b a
  match sel with
  | 0 => eq
  | 1 => un || !eq
  | 2 => fLess false a b
  | 3 => fLess false a b || eq
  | 4 => fLess false b a
  | 5 => fLess false b a || eq
  | 6 => un
  | _ => !un

/-- `fcls` (R179): the bit of a value's class. -/
def fClass (f : FFmt) (x : Nat) : Nat :=
  match f.decode x with
  | .nan s => if s then 8 else 9
  | .inf s => if s then 0 else 7
  | .fin s m e =>
    if m = 0 then (if s then 3 else 4)
    else if m < 2 ^ f.mb && e == f.qmin then (if s then 2 else 5)
    else (if s then 1 else 6)

/-- Rounding to an integral value (R185, R188): the integer magnitude and whether it differs from the source. -/
def toIntegral (mode : Rnd) (neg : Bool) (m : Nat) (e : Int) : Nat × Bool :=
  let k := (-e).toNat
  let far := decide (Nat.log2 m + 3 < k)
  let big := m * 2 ^ e.toNat
  let (n, r, k) := if m = 0 then (0, 0, 1) else if far then (0, 1, 3) else (big / 2 ^ k, big % 2 ^ k, k)
  (if roundUp mode neg (n % 2 == 1) r k false 0 then n + 1 else n, r != 0)

/-- `frnd` (R188). -/
def fRnd (mode : Rnd) (exact : Bool) (a : FVal) : FRes × FFlags :=
  match a with
  | .nan s => (.nan (flagIf s fNV), 0)
  | .inf s => (.inf s 0, 0)
  | .fin s m e =>
    let (n, inex) := toIntegral mode s m e
    (.num s n 0 false, flagIf (inex && exact) fNX)

/-! ### Conversions (R120, R121, R184 to R187) -/

/-- Binary to integer (R185). -/
def cvtToInt (t : Ty) (mode : Rnd) (a : FVal) : Int × FFlags :=
  match a with
  | .nan _ => (0, fNV)
  | .inf s => (if s then t.minVal else t.maxVal, fNV)
  | .fin s m e =>
    if 0 < m ∧ 70 < Nat.log2 m + e then (if s then t.minVal else t.maxVal, fNV)
    else
      let (n, inex) := toIntegral mode s m e
      let x := sgn s n
      if t.minVal ≤ x ∧ x ≤ t.maxVal then (x, flagIf inex fNX) else (t.sat x, fNV)

/-- Binary to a narrow kind with an exponent field (R120, R111). -/
def cvtToNarrow (f : FFmt) (mode : Rnd) (rand : Nat) (nanPol : Bool) (a : FVal) : Nat × FFlags :=
  match a with
  | .nan s => if f.width = 8 then (f.nanCode, flagIf s fNV) else (0, fNV)
  | .inf s =>
    if nanPol then (if f.hasInf then (f.signBit s + f.infCode, 0) else (f.nanCode, fNV))
    else (f.signBit s + f.maxCode, fOF ||| fNX)
  | .fin s m e =>
    let r := f.round mode rand s m e false
    if r.ovf then
      (if nanPol then (if f.hasInf then f.signBit s + f.infCode else f.nanCode) else f.signBit s + f.maxCode, fOF ||| fNX)
    else (f.signBit s + f.codeOf r.n r.q, flagIf (r.tiny && r.inexact) fUF ||| flagIf r.inexact fNX)

/-- The magnitudes of an NL4 type in units of 2^unit (Table 7.7). -/
def nl4Mags (ty : Nat) : List Nat × Int :=
  match ty with
  | 0 => ([0, 1, 2, 3, 4, 5, 6, 7], 0)
  | 1 => ([0, 1, 2, 3, 4, 6, 8, 12], -1)
  | 2 => ([0, 1, 2, 4, 8, 16, 32, 64], -6)
  | _ => ([0, 1, 2, 3, 4, 6, 8, 12], 0)

/-- The value of an NL4 code (Table 7.7). -/
def nl4Val (ty code : Nat) : FVal :=
  let (mags, u) := nl4Mags ty
  let code := code % 16
  if code < 8 then .fin false (mags.getD code 0) u
  else match ty with
    | 0 => .fin true (16 - code) u
    | 2 => if code = 8 then .fin false 0 u else .fin true (mags.getD (code - 8) 0) u
    | _ => .fin true (mags.getD (code - 8) 0) u

/-- The code of magnitude index i with a sign; every zero is 0x0 (R120). -/
def nl4Code (ty i : Nat) (neg : Bool) : Nat :=
  if i = 0 then 0 else if !neg then i else if ty = 0 then 16 - i else 8 + i

/-- Rounding to NL4 (R110): indices of the magnitudes around m × 2^e, the table continued by twice the largest. -/
def cvtToNl4 (ty : Nat) (mode : Rnd) (rand : Nat) (neg : Bool) (m : Nat) (e : Int) : Nat × FFlags :=
  let (mags, u) := nl4Mags ty
  let far := decide (m ≠ 0 ∧ (Nat.log2 m + e) < u - 40)
  let m' := if far then 1 else m
  let e' := if far then u - 40 else e
  let k := (u - e').toNat
  let x := m' * 2 ^ (e' - u).toNat
  let pts := mags ++ [2 * mags.getD 7 0]
  let i := ((pts.map (· * 2 ^ k)).filter (· ≤ x)).length - 1
  if i = 8 then (nl4Code ty 7 neg, fOF ||| fNX)
  else
    let lo := pts.getD i 0 * 2 ^ k
    let hi := pts.getD (i + 1) 0 * 2 ^ k
    let r := x - lo
    let d := hi - lo
    let up := match mode with
      | .rne => decide (d < 2 * r) || (2 * r == d && i % 2 == 1)
      | .rz => false
      | .ru => !neg && r != 0
      | .rd => neg && r != 0
      | .rs => decide (rand < r * 2 ^ 32 / d)
    let j := if up then i + 1 else i
    if j = 8 then (nl4Code ty 7 neg, fOF ||| fNX) else (nl4Code ty j neg, flagIf (r != 0) fNX)

/-- Flags of a list of results. -/
def orFlags (l : List (Nat × FFlags)) : FFlags := l.foldl (fun a x => a ||| x.2) 0

/-- The greater of two magnitudes. -/
def magMax (a b : Nat × Int) : Nat × Int :=
  if (dyAdd a.1 a.2 (-(b.1 : Int)) b.2).1 < 0 then b else a

/-- ceil(log2(m × 2^a ÷ (M × 2^u))) for nonzero magnitudes (R122). -/
def ceilLog2Ratio (m : Nat) (a : Int) (M : Nat) (u : Int) : Int :=
  let e0 : Int := (Nat.log2 m + a) - (Nat.log2 M + u)
  if (dyAdd m a (-(M : Int)) (u + e0)).1 ≤ 0 then e0 else e0 + 1

/-- The clamped block exponent of R122 from the values and the largest finite magnitude. -/
def blockExp (xs : List FVal) (M : Nat) (u lo hi : Int) : Int :=
  let amax := xs.foldl (fun acc v => match v with | .fin _ m e => magMax acc (m, e) | _ => acc) (0, 0)
  let e := if amax.1 = 0 then 0 else ceilLog2Ratio amax.1 amax.2 M u
  max lo (min hi e)

/-- r_i of R111. -/
def randOf (r i : Nat) : Nat := (r + i * 0x9E3779B9) % 2 ^ 32

/-- A block of 16 under E8M0 (R122): codes, scale byte, flags. -/
def cvtBlockE8m0 (f : FFmt) (mode : Rnd) (r : Nat) (nanPol : Bool) (xs : List FVal) : List Nat × Nat × FFlags :=
  if xs.any (fun v => v.isNan || v.isInf) then (xs.map fun _ => 0, 255, fNV)
  else
    let e := blockExp xs f.maxN (f.emax - f.mb) (-127) 127
    let cs := xs.zipIdx.map fun (v, i) => match v with
      | .fin s m g => cvtToNarrow f mode (randOf r i) nanPol (.fin s m (g - e))
      | v => cvtToNarrow f mode 0 nanPol v
    (cs.map (·.1), (e + 127).toNat, orFlags cs)

/-- A block of 16 under one NL4 type (R122). -/
def cvtBlockNl4Ty (ty : Nat) (mode : Rnd) (r : Nat) (xs : List FVal) : List Nat × Int × FFlags :=
  let (mags, u) := nl4Mags ty
  let e := blockExp xs (mags.getD 7 0) u (-32) (if ty = 3 then 30 else 31)
  let cs := xs.zipIdx.map fun (v, i) => match v with
    | .fin s m g => cvtToNl4 ty mode (randOf r i) s m (g - e)
    | _ => (0, 0)
  (cs.map (·.1), e, orFlags cs)

/-- The exact sum of squared errors of a converted block (R123). -/
def blockErr (ty : Nat) (codes : List Nat) (e : Int) (xs : List FVal) : Int × Int :=
  (xs.zip codes).foldl (fun (acc, l) (v, c) =>
    match v, nl4Val ty c with
    | .fin s m g, .fin t n h =>
      let (d, dl) := dyAdd (sgn s m) g (-(sgn t n)) (h + e)
      dyAdd acc l (d * d) (2 * dl)
    | _, _ => (acc, l)) (0, 0)

/-- The type of least error among 0 to 3, the lowest on ties (R123). -/
def bestNl4 (mode : Rnd) (r : Nat) (xs : List FVal) : Nat :=
  let errs := (List.range 4).map fun ty => let (c, e, _) := cvtBlockNl4Ty ty mode r xs; (ty, blockErr ty c e xs)
  (errs.foldl (fun (best : Nat × Int × Int) x =>
    if (dyAdd x.2.1 x.2.2 (-best.2.1) best.2.2).1 < 0 then x else best) (errs.headD (0, 0, 0))).1

/-- A block of 16 under NL4 (R122, R123): selector 0 to 3 a type, 4 the best. -/
def cvtBlockNl4 (sel : Nat) (mode : Rnd) (r : Nat) (xs : List FVal) : List Nat × Nat × FFlags :=
  if xs.any (fun v => v.isNan || v.isInf) then (xs.map fun _ => 0, 255, fNV)
  else
    let ty := if sel < 4 then sel else bestNl4 mode r xs
    let (c, e, fl) := cvtBlockNl4Ty ty mode r xs
    (c, ty * 64 + (e + 32).toNat, fl)

/-- The value of a narrow code, and the exponent of its block's scale byte (R118, R119, R128). -/
def narrowVal (t : Ty) (scale code : Nat) : FVal := if t = .nl4 then nl4Val (scale / 64) code else t.fmt.decode code
def scaleExp (t : Ty) (scale : Nat) : Int := if t = .nl4 then (scale % 64 : Nat) - 32 else (scale : Int) - 127

/-! ### Elements in registers (R124, R173, R186) -/

/-- n codes of w bits each packed from bit 0 of a number; 6-bit codes stand one per byte. -/
def packCodes (w : Nat) (codes : List Nat) : Nat :=
  let step := if w = 6 then 8 else w
  (codes.zipIdx.map fun (c, i) => (c % 2 ^ w) * 2 ^ (step * i)).sum
def unpackCodes (w n x : Nat) : List Nat :=
  let step := if w = 6 then 8 else w
  (List.range n).map fun i => x / 2 ^ (step * i) % 2 ^ w

/-- Elements of a 32-bit or 64-bit register operand (R173): two for `.h16` and `.bf16`, else one. -/
def Ty.lanes (t : Ty) : Nat := if t.bits = 16 then 2 else 1
def elemsOf (t : Ty) (x : Nat) : List Nat := (List.range t.lanes).map fun i => x / 2 ^ (t.bits * i) % 2 ^ t.bits
def joinElems (t : Ty) (es : List Nat) : Nat := (es.zipIdx.map fun (c, i) => c * 2 ^ (t.bits * i)).sum

/-- `fimm ‖ 0` widened exactly to a type (R173). -/
def fimmVal (v : BitVec 25) : FVal := fmtF32.decode (v.toNat * 2 ^ 7)

end Sys2Proof
end

