-- ==== Sys2Proof/Machine/Forms.lean ====
section
/-! DEFINITION. Each instruction's own form: its census class, its guard and chain bit, what its LIT word may hold, what its
fields may hold, and the lane registers and predicates it reads and writes (Tables 6.1 to 6.3, 8.2 to 8.5, 10.1 to 10.6,
12.3, 13.2 to 13.7, 15.2, 18.1, 21.11). -/

namespace Sys2Proof

/-- Width and access of special register n (Table 5.6): 0 read-only, 1 read-write, 2 handler-writable. -/
def sregInfo (n : Nat) : Option (Nat × Nat) :=
  match n with
  | 0 | 1 | 2 => some (5, 0) | 3 => some (48, 0) | 4 => some (8, 0) | 5 => some (16, 0) | 6 => some (2, 0)
  | 7 => some (8, 0)
  | 8 | 9 | 10 | 11 | 12 | 13 | 14 | 15 | 16 | 17 | 18 | 19 | 20 | 21 | 22 | 23 => some (32, 0)
  | 24 => some (8, 0) | 25 => some (8, 1) | 26 => some (7, 2) | 27 => some (5, 1) | 28 => some (2, 1)
  | 29 | 30 | 31 => some (64, 0) | 32 => some (9, 2) | 33 => some (32, 2) | 34 | 35 => some (64, 2)
  | 36 => some (32, 0) | 37 | 38 => some (64, 0) | 39 => some (32, 0)
  | 40 | 41 | 42 | 43 => some (16, 1)
  | _ => none

/-- A register wider than 32 bits moves through a pair (R99, R385). -/
def sregOpnd (r n : RegIx) : Opnd :=
  match sregInfo n.toNat with
  | some (w, _) => if w > 32 then .pair r else .one r
  | none => .one r

/-! ### Integer rows (Tables 8.2 to 8.5) -/

def ruleAdd : IntRule := ⟨tyIB, true, false, 0, false, true⟩
def ruleAddc : IntRule := ⟨[.n32, .n64, .b32, .b64], false, false, 7, false, true⟩
def ruleNeg : IntRule := ⟨tyS, true, false, 0, false, false⟩
def ruleMin : IntRule := ⟨tyIB, false, false, 0, false, true⟩
def ruleLogic : IntRule := ⟨tyIBQ, false, false, 0, false, true⟩
def ruleSel : IntRule := ⟨tyIBQ, false, false, 7, false, true⟩
def ruleCmp : IntRule := ⟨tyIB, false, false, 5, false, true⟩
def ruleFsh : IntRule := ⟨ty3264, false, false, 1, true, true⟩
def ruleBfx : IntRule := ⟨ty3264, false, false, 0, true, true⟩
def ruleBfi : IntRule := ⟨ty3264, true, false, 0, true, true⟩
def rulePopc : IntRule := ⟨tyIB, false, false, 0, false, false⟩
def ruleBprm : IntRule := ⟨[.s32, .b32], false, false, 0, true, true⟩
def rulePlog : IntRule := ⟨tyIB, false, false, 0, true, true⟩
def ruleLea : IntRule := ⟨[.s32, .n32, .s64, .n64], false, false, 7, false, true⟩
def ruleMad : IntRule := ⟨tyIB, true, false, 0, true, true⟩
def ruleMadh : IntRule := ⟨tyIB, false, false, 0, true, true⟩
def ruleIdp4 : IntRule := ⟨[.s32, .n32], true, false, 1, true, true⟩
def ruleDiv : IntRule := ⟨tyIB, false, true, 0, false, true⟩

/-! ### Floating rows (Tables 10.1, 10.2, 10.6; R188) -/

def ruleFadd : FltRule := { types := tyF3, rnd := true }
def ruleFmin : FltRule := { types := tyF3 }
def ruleFcmp : FltRule := { types := tyF3, selMax := 7 }
def ruleFcls : FltRule := { types := tyF3, imm := false, den := false }
def ruleFfma : FltRule := { types := tyF3, rnd := true, x := true }
def ruleFscl : FltRule := { types := tyF3, rnd := true, imm := false }
def ruleFrnd : FltRule := { types := [.f32, .f64, .h16, .bf16], rnd := true, selMax := 1, imm := false }
def ruleFdot2 : FltRule := { types := [.f32], stypes := [.bf16, .h16], rnd := true, x := true, imm := false }
def ruleFdot4 : FltRule := { types := [.f32], stypes := [.e4m3, .e5m2], rnd := true, selMax := 1, x := true, imm := false }
def ruleF64 : FltRule := { types := [.f64], rnd := true }
def ruleF64min : FltRule := { types := [.f64] }
def ruleF64cmp : FltRule := { types := [.f64], selMax := 7 }
def ruleF64fma : FltRule := { types := [.f64], rnd := true, x := true }
def ruleFrcp : FltRule := { types := [.f32, .h16, .bf16, .f64], rnd := true, imm := false }
def ruleFdiv : FltRule := { types := [.f32, .h16, .bf16, .f64], rnd := true }
def ruleSfu : FltRule := { types := tyF3, imm := false }

/-! ### Memory rows (Tables 12.3 and 13.3) -/

def ruleLd : MemRule := ⟨memTypes, [.rlx, .acq], false, false⟩
def ruleLdh : MemRule := ⟨memTypes, [.rlx], true, false⟩
def rulePref : MemRule := ⟨[.s32], [.rlx], true, false⟩
def ruleSt : MemRule := ⟨memTypes, [.rlx, .rel], false, false⟩
def ruleAtom : MemRule := ⟨ty3264All, [.rlx, .acq, .rel, .ar], false, true⟩
def ruleXch : MemRule := ⟨ty3264All ++ [.b128], [.rlx, .acq, .rel, .ar], false, true⟩
def ruleIncw : MemRule := ⟨[.n32, .b32, .n64, .b64], [.rlx, .acq, .rel, .ar], false, true⟩
def ruleFaddM : MemRule := ⟨[.f32, .f64], [.rlx, .acq, .rel, .ar], false, true⟩

/-- The default LIT body of a floating word with default type t, source type st and destination field d. -/
def fltBody (m : Mods LitFlt) (t st : Ty) (d : RegIx) : LitFlt := m.body (.dflt t st d)
def intBody (m : Mods LitInt) (d : RegIx) : LitInt := m.body (.dflt d)

/-- The LIT word, where there is one, satisfies p. -/
def Mods.allLit {α : Type} (m : Mods α) (p : α → Bool) : Bool := match m.lit with | some l => p l.body | none => true

/-- As `allLit`, where the default type is not one of the row's: a LIT word whose fields all hold their defaults is legal, and is as none
(R86, log 98). -/
def Mods.allLitOr {α : Type} [BEq α] (m : Mods α) (dflt : α) (p : α → Bool) : Bool := m.allLit fun l => l == dflt || p l

/-- Which class 20-22 fields an operation uses (R325): barrier, flue, stash offset. `bar` counts only with `bv`. -/
def engOk (bar flue soff : Bool) (l : LitEng) : Bool :=
  (if l.bv then bar else l.bar == 0) && (flue || l.flue == 0) && (soff || l.soff == 0)

/-- A class 16 LIT word: rnd and den only on floating `redu` and `scan` (R252); its rounding codes end at `.rd` (Table 5.3). -/
def grpLitOk (flt : Bool) (l : LitGrp) : Bool := l.rnd != .rs && (flt || (l.rnd == .rne && l.den == .none))

def Ty.isF (t : Ty) : Bool := t == .f32 || t == .f64

/-- R86: the LIT word's fields are ones the operation accepts. -/
def Instr.litOk : Instr → Bool
  | .add m d _ _ | .sub m d _ _ => m.allLit (ruleAdd.ok d)
  | .addc m d _ _ | .subb m d _ _ => m.allLitOr (.dflt d) (ruleAddc.ok d)
  | .neg m d _ | .abs m d _ => m.allLit (ruleNeg.ok d)
  | .min m d _ _ | .max m d _ _ => m.allLit (ruleMin.ok d)
  | .and m d _ _ | .or m d _ _ | .xor m d _ _ | .andn m d _ _ | .orn m d _ _ | .mov m d _ => m.allLit (ruleLogic.ok d)
  | .sel m d _ _ => m.allLit (ruleSel.ok d)
  | .cmp m p _ _ => m.allLit (ruleCmp.ok (predField p))
  | .shl m d _ _ => m.allLit (ruleAdd.ok d)
  | .shr m d _ _ | .sar m d _ _ | .rotl m d _ _ => m.allLit (ruleMin.ok d)
  | .fsh m d _ _ => m.allLit (ruleFsh.ok d)
  | .bfx m d _ _ => m.allLit (ruleBfx.ok d)
  | .bfi m d _ _ => m.allLit (ruleBfi.ok d)
  | .popc m d _ | .clz m d _ | .ctz m d _ | .brev m d _ => m.allLit (rulePopc.ok d)
  | .bprm m d _ _ => m.allLit (ruleBprm.ok d)
  | .plog m d _ _ => m.allLit (rulePlog.ok d)
  | .lea m d _ _ => m.allLit (ruleLea.ok d)
  | .mul m d _ _ => m.allLit (ruleAdd.ok d)
  | .mulh m d _ _ => m.allLit (ruleMin.ok d)
  | .mad m d _ _ => m.allLit (ruleMad.ok d)
  | .madh m d _ _ => m.allLit (ruleMadh.ok d)
  | .idp4 m d _ _ => m.allLit (ruleIdp4.ok d)
  | .div m d _ _ | .rem m d _ _ => m.allLit (ruleDiv.ok d)
  | .fadd m d _ _ | .fsub m d _ _ | .fmul m d _ _ => m.allLit (ruleFadd.ok d)
  | .fmin m d _ _ | .fmax m d _ _ => m.allLit (ruleFmin.ok d)
  | .fcmp m p _ _ => m.allLit (ruleFcmp.ok (predField p))
  | .fcls m d _ => m.allLit (ruleFcls.ok d)
  | .ffma m d _ _ => m.allLit (ruleFfma.ok d)
  | .fscl m d _ _ => m.allLit (ruleFscl.ok d)
  | .fcvt m d _ => m.allLit (cvtOk d)
  | .frnd m d _ => m.allLit (ruleFrnd.ok d)
  | .fdot2 m d _ _ => m.allLit (ruleFdot2.ok d)
  | .fdot4 m d _ _ => m.allLit (ruleFdot4.ok d)
  | .faddF64 m d _ _ | .fsubF64 m d _ _ | .fmulF64 m d _ _ => m.allLit (ruleF64.ok d)
  | .fminF64 m d _ _ | .fmaxF64 m d _ _ => m.allLit (ruleF64min.ok d)
  | .fcmpF64 m p _ _ => m.allLit (ruleF64cmp.ok (predField p))
  | .ffmaF64 m d _ _ => m.allLit (ruleF64fma.ok d)
  | .frcp m d _ | .fsqrt m d _ => m.allLit (ruleFrcp.ok d)
  | .fdiv m d _ _ => m.allLit (ruleFdiv.ok d)
  | .frsq m d _ | .fex2 m d _ | .flg2 m d _ | .fsin m d _ | .fcos m d _ | .ftnh m d _ => m.allLit (ruleSfu.ok d)
  | .ld m _ _ => m.allLit ruleLd.ok
  | .ldh m _ _ | .chkh m _ _ => m.allLit ruleLdh.ok
  | .pref m _ => m.allLit rulePref.ok
  | .st m _ _ => m.allLit ruleSt.ok
  | .atomAdd m _ _ _ | .atomMin m _ _ _ | .atomMax m _ _ _ | .atomAnd m _ _ _ | .atomOr m _ _ _ | .atomXor m _ _ _ =>
    m.allLit ruleAtom.ok
  | .atomXch m _ _ _ | .atomCas m _ _ _ => m.allLit ruleXch.ok
  | .atomIncw m _ _ _ | .atomDecw m _ _ _ => m.allLitOr .dflt ruleIncw.ok
  | .atomFadd m _ _ _ => m.allLitOr .dflt ruleFaddM.ok
  | .lds m _ _ | .sts m _ _ => m.allLit fun l => memTypes.contains l.ty && l.space == 0
  | .smap m _ _ => m.allLit fun l => l.ty == .s32
  | .sumap m _ | .sflush m _ | .sfe m _ | .tfe m _ _ => m.allLit fun l => l.ty == .s32 && l.space == 0
  | .fence m => m.allLit fun l => l.ord != .rlx
  | .shfl _ _ _ _ => true
  | .bcst m _ _ _ => m.allLit fun l => l.mode == 0
  | .redu m _ _ o | .scan m _ _ o => m.allLit (grpLitOk (grpTy (o.extractLsb' 0 3)).isF)
  | .vote m _ _ _ | .mtch m _ _ _ | .elect m _ | .rdv m _ | .jmsk m _ _ => m.allLit (grpLitOk false)
  | .call _ _ | .waitc _ | .sleep _ => true
  | .bar m _ | .barArrive m _ | .barWait m _ => m.allLit fun l => l.scope == .coh || l.scope == .dev
  | .barExpect m _ _ => m.allLit fun l => l.scope == .coh
  | .spawn m _ _ _ | .spawnr m _ _ _ | .watch m _ _ _ =>
    m.allLit fun l => decide (l.npay.toNat ≤ 8) && (!l.ereg || l.entry == 0)
  | .mtc m _ _ | .mfc m _ _ | .tacc m _ _ _ | .tstatTile m _ | .tstatBarrier m _ _ => m.allLit (engOk false false false)
  | .tzeroTile m _ | .tzeroAcc m _ | .tbmp m _ | .tcvt m _ _ _ | .tgat m _ _ _ | .coll m _ => m.allLit (engOk true false false)
  | .tldTile m _ _ | .tldAcc m _ _ | .tstTile m _ _ | .tstAcc m _ _ | .tmma m => m.allLit (engOk true false true)
  | .cpyStash m _ | .cpyl m _ _ _ | .cpylSt m _ _ _ | .cpym m _ _ _ => m.allLit (engOk true true true)
  | .cpyTile m _ _ | .cpylGg m _ _ _ => m.allLit (engOk true true false)
  | .cwpt m _ => m.allLit (engOk false true false)
  | .svcVersion m => m.allLit fun l => l.scope == .dev && l.imm == 0
  | .svcRecord m => m.allLit fun l => l.scope == .dev && l.imm == 1
  | .svcCause m => m.allLit fun l => l.scope == .dev && decide (2 ≤ l.imm.toNat)
  | .tlbi m _ => m.allLit fun l => (l.scope == .hth || l.scope == .die || l.scope == .dev) && l.imm == 0
  | _ => true

/-- R99, R102: the fields hold what the format admits, beyond what the constructor's types already say. -/
def Instr.formOk : Instr → Bool
  | .add m _ _ b | .sub m _ _ b | .addc m _ _ b | .subb m _ _ b | .min m _ _ b | .max m _ _ b | .and m _ _ b | .or m _ _ b
  | .xor m _ _ b | .andn m _ _ b | .orn m _ _ b | .sel m _ _ b | .mov m _ b | .cmp m _ _ b
  | .shl m _ _ b | .shr m _ _ b | .sar m _ _ b | .rotl m _ _ b | .fsh m _ _ b | .bfx m _ _ b | .bfi m _ _ b
  | .bprm m _ _ b | .plog m _ _ b | .lea m _ _ b | .mul m _ _ b | .mulh m _ _ b | .mad m _ _ b | .madh m _ _ b
  | .idp4 m _ _ b | .div m _ _ b | .rem m _ _ b => m.allLit fun l => !l.isImm || b == 0
  | .fadd m _ _ b | .fsub m _ _ b | .fmin m _ _ b | .fmax m _ _ b | .fcmp m _ _ b | .fmul m _ _ b | .ffma m _ _ b
  | .faddF64 m _ _ b | .fsubF64 m _ _ b | .fmulF64 m _ _ b | .ffmaF64 m _ _ b | .fminF64 m _ _ b | .fmaxF64 m _ _ b
  | .fcmpF64 m _ _ b | .fdiv m _ _ b => m.allLit fun l => !l.isImm || b == 0
  | .vote _ _ _ mode => decide (mode.toNat ≤ 2)
  | .redu _ _ _ o | .scan _ _ _ o => grpOpOk o
  | .spawn m _ _ b | .spawnr m _ _ b | .watch m _ _ b => (m.body .dflt).ereg || b == 0
  | .jwait m _ | .tret m => !m.c
  | .rep m _ _ => m.c
  | .movs _ _ n => (sregInfo n.toNat).isSome
  | .movw _ n _ => (sregInfo n.toNat).any fun x => x.2 != 0
  | _ => true

/-- Registers that a participant set reads (R71). -/
def PSet.opnd : PSet → List Opnd | .reg r => [.one r] | _ => []

/-- Binary operand lists of the floating words. -/
def fOp2 (t : Ty) (imm : Bool) (a b : RegIx) : List Opnd := Opnd.ofTy a t :: bOpnd imm (.ofTy b t)

/-- Lane registers the word reads at issue (R84). -/
def Instr.srcs : Instr → List Opnd
  | .add m d a b | .sub m d a b | .addc m d a b | .subb m d a b | .min m d a b | .max m d a b | .and m d a b | .or m d a b
  | .xor m d a b | .andn m d a b | .orn m d a b | .sel m d a b | .mul m d a b | .mulh m d a b | .div m d a b | .rem m d a b =>
    let l := intBody m d; .ofTy a l.ty :: bOpnd l.isImm (.ofTy b l.ty)
  | .mov m d b => let l := intBody m d; bOpnd l.isImm (.ofTy b l.ty)
  | .cmp m p a b => let l := intBody m (predField p); .ofTy a l.ty :: bOpnd l.isImm (.ofTy b l.ty)
  | .neg m d a | .abs m d a | .popc m d a | .clz m d a | .ctz m d a | .brev m d a => [.ofTy a (intBody m d).ty]
  | .shl m d a b | .shr m d a b | .sar m d a b | .rotl m d a b =>
    let l := intBody m d; .ofTy a l.ty :: bOpnd l.isImm (.one b)
  | .fsh m d a b => let l := intBody m d; [.ofTy a l.ty, .ofTy (l.xreg d) l.ty] ++ bOpnd l.isImm (.one b)
  | .bfx m d a b => let l := intBody m d; [.ofTy a l.ty, .one (l.xreg d)] ++ bOpnd l.isImm (.one b)
  | .bfi m d a b => let l := intBody m d; [.ofTy a l.ty, .one (l.xreg d), .ofTy d l.ty] ++ bOpnd l.isImm (.one b)
  | .bprm m d a b => let l := intBody m d; [.one a, .one (l.xreg d)] ++ bOpnd l.isImm (.one b)
  | .plog m d a b => let l := intBody m d; [.ofTy a l.ty, .one (l.xreg d), .ofTy d l.ty] ++ bOpnd l.isImm (.ofTy b l.ty)
  | .lea m d a b => let l := intBody m d; .pair a :: bOpnd l.isImm (.ofTy b l.ty)
  | .mad m d a b | .madh m d a b | .idp4 m d a b =>
    let l := intBody m d; [.ofTy a l.ty, .ofTy (l.xreg d) l.ty] ++ bOpnd l.isImm (.ofTy b l.ty)
  | .fadd m d a b | .fsub m d a b | .fmin m d a b | .fmax m d a b | .fmul m d a b | .fdiv m d a b =>
    let l := fltBody m .f32 .s32 d; fOp2 (l.ty .f32) l.isImm a b
  | .fcmp m p a b => let l := fltBody m .f32 .s32 (predField p); fOp2 (l.ty .f32) l.isImm a b
  | .ffma m d a b => let l := fltBody m .f32 .s32 d; .ofTy (l.xreg d) (l.ty .f32) :: fOp2 (l.ty .f32) l.isImm a b
  | .fcls m d a | .frnd m d a | .frcp m d a | .frsq m d a | .fsqrt m d a | .fex2 m d a | .flg2 m d a | .fsin m d a
  | .fcos m d a | .ftnh m d a => [.ofTy a ((fltBody m .f32 .s32 d).ty .f32)]
  | .fscl m d a b => [.ofTy a ((fltBody m .f32 .s32 d).ty .f32), .one b]
  | .fcvt m d a =>
    let l := fltBody m .f32 .s32 d
    cvtOpnd a (l.stype .s32) (cvtBlock (l.stype .s32) (l.ty .f32) l.sel.toNat) :: (if l.rnd == .rs then [.one (l.xreg d)] else [])
  | .fdot2 m d a b => let l := fltBody m .f32 .bf16 d; [.one a, .one b, .one (l.xreg d)]
  | .fdot4 m d a b => let l := fltBody m .f32 .e4m3 d; [.one a, .one b, .one (l.xreg d)]
  | .faddF64 m d a b | .fsubF64 m d a b | .fmulF64 m d a b | .fminF64 m d a b | .fmaxF64 m d a b =>
    fOp2 .f64 (fltBody m .f64 .s32 d).isImm a b
  | .fcmpF64 m p a b => fOp2 .f64 (fltBody m .f64 .s32 (predField p)).isImm a b
  | .ffmaF64 m d a b => let l := fltBody m .f64 .s32 d; .pair (l.xreg d) :: fOp2 .f64 l.isImm a b
  | .ld _ _ a | .ldh _ _ a | .chkh _ _ a | .pref _ a => [.pair a]
  | .st m a b => [.pair a, .ofTy b (m.body .dflt).ty]
  | .atomAdd m _ a b | .atomMin m _ a b | .atomMax m _ a b | .atomAnd m _ a b | .atomOr m _ a b | .atomXor m _ a b
  | .atomXch m _ a b | .atomIncw m _ a b | .atomDecw m _ a b | .atomFadd m _ a b => [.pair a, .ofTy b (m.body .dflt).ty]
  | .atomCas m d a b => [.pair a, .ofTy b (m.body .dflt).ty, .ofTy d (m.body .dflt).ty]
  | .lds _ _ a | .sumap _ a | .sflush _ a | .sfe _ a | .tfe _ _ a => [.one a]
  | .sts m a b => [.one a, .ofTy b (m.body .dflt).ty]
  | .smap _ a b => [.one a, .pair b]
  | .shfl m _ a b | .bcst m _ a b =>
    let l := m.body .dflt; [if l.w64 then .pair a else .one a, .one b] ++ l.set.opnd
  | .vote m _ _ _ | .elect m _ | .rdv m _ => (m.body .dflt).set.opnd
  | .redu m _ a o | .scan m _ a o => .ofTy a (grpTy (o.extractLsb' 0 3)) :: (m.body .dflt).set.opnd
  | .mtch m _ a t => .ofTy a (grpTy t) :: (m.body .dflt).set.opnd
  | .jmsk m _ a => .one a :: (m.body .dflt).set.opnd
  | .jt _ _ a | .barExpect _ _ a => [.one a]
  | .spawn m _ a b => let l := m.body .dflt; ⟨a, 2 + l.npay.toNat, 2⟩ :: (if l.ereg then [.one b] else [])
  | .spawnr m _ a b => let l := m.body .dflt; ⟨a, 5 + l.npay.toNat, 2⟩ :: (if l.ereg then [.one b] else [])
  | .watch m _ a b => let l := m.body .dflt; ⟨a, 9 + l.npay.toNat, 2⟩ :: (if l.ereg then [.one b] else [])
  | .jwait _ a => [.pair a]
  | .unwatch _ _ a => [.one a]
  | .mtc _ _ a | .tldTile _ _ a | .tldAcc _ _ a | .tstTile _ _ a | .tstAcc _ _ a => [.one a]
  | .tcvt _ _ _ b => [.pair b]
  | .tacc _ _ _ b => [.one b]
  | .tgat _ _ a b => [.pair a, .one b]
  | .cpyStash _ a | .cpyTile _ _ a => [⟨a, 6, 1⟩]
  | .cpyl _ _ a b | .cpylSt _ _ a b | .cpym _ _ a b => [.pair a, .one b]
  | .cpylGg _ _ a b => [⟨a, 4, 2⟩, .one b]
  | .coll _ a => [⟨a, 6, 2⟩]
  | .rpqry _ _ a | .tlbi _ a => [.pair a]
  | .movw _ n a => [sregOpnd a n]
  | .svcRecord _ => [.pair 0]
  | .svcCause _ => [⟨0, 4, 4⟩]
  | _ => []

/-- Lane registers the word writes. -/
def Instr.dsts : Instr → List Opnd
  | .add m d _ _ | .sub m d _ _ | .addc m d _ _ | .subb m d _ _ | .min m d _ _ | .max m d _ _ | .and m d _ _ | .or m d _ _
  | .xor m d _ _ | .andn m d _ _ | .orn m d _ _ | .sel m d _ _ | .mul m d _ _ | .mulh m d _ _ | .div m d _ _ | .rem m d _ _
  | .mov m d _ | .neg m d _ | .abs m d _ | .brev m d _ | .shl m d _ _ | .shr m d _ _ | .sar m d _ _ | .rotl m d _ _
  | .fsh m d _ _ | .bfx m d _ _ | .bfi m d _ _ | .plog m d _ _ | .mad m d _ _ | .madh m d _ _ | .idp4 m d _ _ =>
    [.ofTy d (intBody m d).ty]
  | .popc _ d _ | .clz _ d _ | .ctz _ d _ | .bprm _ d _ _ => [.one d]
  | .lea _ d _ _ => [.pair d]
  | .fadd m d _ _ | .fsub m d _ _ | .fmin m d _ _ | .fmax m d _ _ | .fmul m d _ _ | .fdiv m d _ _ | .ffma m d _ _
  | .fscl m d _ _ | .frnd m d _ | .frcp m d _ | .frsq m d _ | .fsqrt m d _ | .fex2 m d _ | .flg2 m d _ | .fsin m d _
  | .fcos m d _ | .ftnh m d _ => [.ofTy d ((fltBody m .f32 .s32 d).ty .f32)]
  | .fcls _ d _ | .fdot2 _ d _ _ | .fdot4 _ d _ _ => [.one d]
  | .fcvt m d _ =>
    let l := fltBody m .f32 .s32 d
    [cvtOpnd d (l.ty .f32) (cvtBlock (l.stype .s32) (l.ty .f32) l.sel.toNat)]
  | .faddF64 _ d _ _ | .fsubF64 _ d _ _ | .fmulF64 _ d _ _ | .ffmaF64 _ d _ _ | .fminF64 _ d _ _ | .fmaxF64 _ d _ _ => [.pair d]
  | .ld m d _ | .ldh m d _ | .chkh m d _ => [.ofTy d (m.body .dflt).ty]
  | .atomAdd m d _ _ | .atomMin m d _ _ | .atomMax m d _ _ | .atomAnd m d _ _ | .atomOr m d _ _ | .atomXor m d _ _
  | .atomXch m d _ _ | .atomCas m d _ _ | .atomIncw m d _ _ | .atomDecw m d _ _ | .atomFadd m d _ _ =>
    [.ofTy d (m.body .dflt).ty]
  | .lds m d _ => [.ofTy d (m.body .dflt).ty]
  | .shfl m d _ _ | .bcst m d _ _ => [if (m.body .dflt).w64 then .pair d else .one d]
  | .redu _ d _ o | .scan _ d _ o => [.ofTy d (grpTy (o.extractLsb' 0 3))]
  | .mtch _ d _ _ | .rdv _ d => [.one d]
  | .watch _ _ a _ => if a.toNat + 8 < 64 then [.one (a + 8)] else []
  | .kcap _ d | .mfc _ d _ | .tacc _ d _ _ | .rpqry _ d _ => [.one d]
  | .tstatTile _ d | .tstatBarrier _ d _ | .cwpt _ d | .rdtm _ d => [.pair d]
  | .movs _ d n => [sregOpnd d n]
  | .svcVersion _ | .svcRecord _ => [.pair 0]
  | _ => []

/-- Predicates the word reads, its guard apart. -/
def Instr.predSrcs : Instr → List (BitVec 3)
  | .addc m d _ _ | .subb m d _ _ | .sel m d _ _ => [(intBody m d).sel]
  | .vote _ _ q _ => [q]
  | _ => []

/-- Predicates the word writes. -/
def Instr.predDsts : Instr → List (BitVec 3)
  | .addc m d _ _ | .subb m d _ _ => [(intBody m d).sel]
  | .cmp _ p _ _ | .fcmp _ p _ _ | .fcmpF64 _ p _ _ | .tfe _ p _ | .vote _ p _ _ | .elect _ p
  | .spawn _ p _ _ | .spawnr _ p _ _ | .watch _ p _ _ | .unwatch _ p _ => [p]
  | .shfl m _ _ _ | .bcst m _ _ _ => [(m.body .dflt).pdst]
  | _ => []

/-- R92 and R102: every register operand fits its field. -/
def Instr.regsOk (i : Instr) : Bool := i.srcs.all Opnd.ok && i.dsts.all Opnd.ok

end Sys2Proof
end

