-- ==== Sys2Proof/WellFormed.lean ====
section
/-! DEFINITION. Which terms of `Instr` are instructions of the machine: the checks of R86, R92 and R102 on their fields. -/

namespace Sys2Proof

/-- A LIT word follows only a word whose chain bit is set (R82). -/
def Mods.chainOk {α : Type} (m : Mods α) : Bool := m.lit.isNone || m.c

/-- The modifiers' part of well-formedness: the chain bit under a LIT word, and the LIT word that selects the row where several
rows share one instruction word (R166, R167, R386). -/
def Instr.modsOk : Instr → Bool
  | .add m _ _ _ | .sub m _ _ _ | .addc m _ _ _ | .subb m _ _ _ | .neg m _ _ | .abs m _ _ | .min m _ _ _ | .max m _ _ _
  | .and m _ _ _ | .or m _ _ _ | .xor m _ _ _ | .andn m _ _ _ | .orn m _ _ _ | .sel m _ _ _ | .mov m _ _ | .cmp m _ _ _
  | .shl m _ _ _ | .shr m _ _ _ | .sar m _ _ _ | .rotl m _ _ _ | .fsh m _ _ _ | .bfx m _ _ _ | .bfi m _ _ _
  | .popc m _ _ | .clz m _ _ | .ctz m _ _ | .brev m _ _ | .bprm m _ _ _ | .plog m _ _ _ | .lea m _ _ _
  | .mul m _ _ _ | .mulh m _ _ _ | .mad m _ _ _ | .madh m _ _ _ | .idp4 m _ _ _ | .div m _ _ _ | .rem m _ _ _ => m.chainOk
  | .fadd m _ _ _ | .fsub m _ _ _ | .fmin m _ _ _ | .fmax m _ _ _ | .fcmp m _ _ _ | .fcls m _ _ | .fmul m _ _ _
  | .ffma m _ _ _ | .fscl m _ _ _ | .fcvt m _ _ | .frnd m _ _ | .fdot2 m _ _ _ | .fdot4 m _ _ _ | .faddF64 m _ _ _
  | .fsubF64 m _ _ _ | .fmulF64 m _ _ _ | .ffmaF64 m _ _ _ | .fminF64 m _ _ _ | .fmaxF64 m _ _ _ | .fcmpF64 m _ _ _
  | .frcp m _ _ | .frsq m _ _ | .fsqrt m _ _ | .fdiv m _ _ _ | .fex2 m _ _ | .flg2 m _ _ | .fsin m _ _ | .fcos m _ _
  | .ftnh m _ _ => m.chainOk
  | .ld m _ _ | .ldh m _ _ | .chkh m _ _ | .pref m _ | .st m _ _ | .atomAdd m _ _ _ | .atomMin m _ _ _ | .atomMax m _ _ _
  | .atomAnd m _ _ _ | .atomOr m _ _ _ | .atomXor m _ _ _ | .atomXch m _ _ _ | .atomCas m _ _ _ | .atomIncw m _ _ _
  | .atomDecw m _ _ _ | .atomFadd m _ _ _ => m.chainOk
  | .lds m _ _ | .sts m _ _ | .smap m _ _ | .sumap m _ | .sflush m _ | .sfe m _ | .tfe m _ _ => m.chainOk
  | .fence m => m.chainOk
  | .shfl m _ _ _ | .bcst m _ _ _ => m.chainOk
  | .vote m _ _ _ | .redu m _ _ _ | .scan m _ _ _ | .mtch m _ _ _ | .elect m _ | .rdv m _ | .jmsk m _ _ => m.chainOk
  | .call m _ => m.chainOk
  | .waitc m => m.chainOk
  | .bar m _ => m.chainOk
  | .barArrive m _ | .barWait m _ | .barExpect m _ _ => m.chainOk && m.lit.isSome
  | .sleep m => m.chainOk
  | .spawn m _ _ _ | .spawnr m _ _ _ | .watch m _ _ _ => m.chainOk
  | .mtc m _ _ | .mfc m _ _ | .tzeroTile m _ | .tzeroAcc m _ | .tldTile m _ _ | .tldAcc m _ _ | .tstTile m _ _
  | .tstAcc m _ _ | .tmma m | .tbmp m _ | .tcvt m _ _ _ | .tacc m _ _ _ | .tstatTile m _ | .tstatBarrier m _ _
  | .tgat m _ _ _ | .cpyStash m _ | .cpyTile m _ _ | .cpyl m _ _ _ | .cpylSt m _ _ _ | .cpylGg m _ _ _ | .cpym m _ _ _
  | .cwpt m _ | .coll m _ => m.chainOk
  | .svcVersion m => m.chainOk
  | .svcRecord m | .svcCause m => m.chainOk && m.lit.isSome
  | .tlbi m _ => m.chainOk
  | _ => true

/-- A well-formed instruction: one that some encoding holds (events hold nothing to check). -/
def Instr.wf (i : Instr) : Bool := i.modsOk && i.formOk && i.litOk && i.regsOk

end Sys2Proof
end

