-- ==== Sys2Proof/Decode.lean ====
section
/-! DEFINITION. Decoding and encoding of instruction words: the fields of Table 5.1, the LIT payloads of Table 5.3, the map of
Table 6.1 with the formats of Tables 6.2 and 6.3, and the rejections of R104. -/

namespace Sys2Proof

/-- The fields of an instruction word (Table 5.1). -/
structure Raw where
  c : Bool
  k : BitVec 5
  o : BitVec 4
  d : RegIx
  a : RegIx
  b : RegIx
  g : GuardBits
  deriving DecidableEq, Repr, Inhabited

/-- Bits [31], [30:26], [25:22], [21:16], [15:10], [9:4], [3:0] (R80). -/
def Raw.ofWord (w : Word) : Raw :=
  ⟨w.getLsbD 31, w.extractLsb' 26 5, w.extractLsb' 22 4, w.extractLsb' 16 6, w.extractLsb' 10 6, w.extractLsb' 4 6,
    w.extractLsb' 0 4⟩

/-- The word that the fields make (R80). -/
def Raw.toWord (r : Raw) : Word := BitVec.ofBool r.c ++ r.k ++ r.o ++ r.d ++ r.a ++ r.b ++ r.g

/-- A LIT word's chain bit and payload (R86). -/
abbrev LitRaw := Bool × BitVec 26

/-- C ‖ 0b11111 ‖ payload (R86). -/
def LitRaw.toWord (l : LitRaw) : Word := BitVec.ofBool l.1 ++ (31 : BitVec 5) ++ l.2

/-- The LIT word a word is, if its class is 31. -/
def LitRaw.ofWord (w : Word) : Option LitRaw :=
  if w.extractLsb' 26 5 = 31 then some (w.getLsbD 31, w.extractLsb' 0 26) else none

/-- Why an encoding is not an instruction (R104): cause 0.`detail`, with the instruction word or its LIT word in %tval. -/
inductive Reject where
  | word (detail : BitVec 5)
  | lit (detail : BitVec 5)
  deriving DecidableEq, Repr, Inhabited

/-! ### LIT payloads (Table 5.3) -/

def LitInt.ofBits (p : BitVec 26) : Option LitInt :=
  if p.getLsbD 25 then some (.imm (p.extractLsb' 0 25))
  else match Ty.ofCode (p.extractLsb' 20 5), Ovf.ofCode (p.extractLsb' 18 2) with
    | some t, some v => if p.extractLsb' 0 9 = 0 then some (.fields t v (p.extractLsb' 15 3) (p.extractLsb' 9 6)) else none
    | _, _ => none
def LitInt.toBits : LitInt → BitVec 26
  | .imm v => (1 : BitVec 1) ++ v
  | .fields t v s x => (0 : BitVec 1) ++ t.code ++ v.code ++ s ++ x ++ (0 : BitVec 9)

def LitFlt.ofBits (p : BitVec 26) : Option LitFlt :=
  if p.getLsbD 25 then some (.fimm (p.extractLsb' 0 25))
  else match Ty.ofCode (p.extractLsb' 20 5), Ty.ofCode (p.extractLsb' 15 5), Rnd.ofCode (p.extractLsb' 12 3) with
    | some t, some st, some r =>
      some (.fields t st r (Den.ofCode (p.extractLsb' 10 2)) (p.getLsbD 9) (p.extractLsb' 6 3) (p.extractLsb' 0 6))
    | _, _, _ => none
def LitFlt.toBits : LitFlt → BitVec 26
  | .fimm v => (1 : BitVec 1) ++ v
  | .fields t st r dn nan s x => (0 : BitVec 1) ++ t.code ++ st.code ++ r.code ++ dn.code ++ BitVec.ofBool nan ++ s ++ x

/-- `.sc` is reserved in this layout. -/
def LitMem.ofBits (p : BitVec 26) : Option LitMem :=
  match Ty.ofCode (p.extractLsb' 21 5), Order.ofCode (p.extractLsb' 18 3), Scope.ofCode (p.extractLsb' 14 4) with
  | some t, some o, some sc => if o = .sc then none else some ⟨t, o, sc, p.extractLsb' 12 2, p.extractLsb' 0 12⟩
  | _, _, _ => none
def LitMem.toBits (l : LitMem) : BitVec 26 := l.ty.code ++ l.ord.code ++ l.scope.code ++ l.space ++ l.off

def LitStash.ofBits (p : BitVec 26) : Option LitStash :=
  match Ty.ofCode (p.extractLsb' 21 5) with
  | some t => some ⟨t, p.extractLsb' 19 2, p.extractLsb' 0 19⟩
  | none => none
def LitStash.toBits (l : LitStash) : BitVec 26 := l.ty.code ++ l.space ++ l.off

def LitFence.ofBits (p : BitVec 26) : Option LitFence :=
  match Order.ofCode (p.extractLsb' 23 3), Scope.ofCode (p.extractLsb' 19 4) with
  | some o, some s => if p.extractLsb' 0 19 = 0 then some ⟨o, s⟩ else none
  | _, _ => none
def LitFence.toBits (l : LitFence) : BitVec 26 := l.ord.code ++ l.scope.code ++ (0 : BitVec 19)

def LitXl.ofBits (p : BitVec 26) : Option LitXl :=
  match PSet.ofCode (p.extractLsb' 19 7), Width.ofCode (p.extractLsb' 8 3) with
  | some s, some w =>
    if p.extractLsb' 0 2 = 0 then
      some ⟨s, p.extractLsb' 11 8, w, p.extractLsb' 6 2, p.extractLsb' 3 3, p.getLsbD 2⟩
    else none
  | _, _ => none
def LitXl.toBits (l : LitXl) : BitVec 26 :=
  l.set.code ++ l.tag ++ l.width.code ++ l.mode ++ l.pdst ++ BitVec.ofBool l.w64 ++ (0 : BitVec 2)

/-- Rounding codes 4 to 7 are reserved in this layout. -/
def LitGrp.ofBits (p : BitVec 26) : Option LitGrp :=
  match PSet.ofCode (p.extractLsb' 19 7), Width.ofCode (p.extractLsb' 8 3), Rnd.ofCode (p.extractLsb' 5 3) with
  | some s, some w, some r =>
    if p.extractLsb' 0 3 = 0 ∧ r ≠ .rs then some ⟨s, p.extractLsb' 11 8, w, r, Den.ofCode (p.extractLsb' 3 2)⟩ else none
  | _, _, _ => none
def LitGrp.toBits (l : LitGrp) : BitVec 26 :=
  l.set.code ++ l.tag ++ l.width.code ++ l.rnd.code ++ l.den.code ++ (0 : BitVec 3)

def LitCall.ofBits (p : BitVec 26) : Option LitCall :=
  if p.extractLsb' 0 21 = 0 then some ⟨p.extractLsb' 21 5⟩ else none
def LitCall.toBits (l : LitCall) : BitVec 26 := l.slide ++ (0 : BitVec 21)

def LitWaitc.ofBits (p : BitVec 26) : Option LitWaitc :=
  if p.extractLsb' 24 2 = 0 then
    some ⟨p.extractLsb' 18 6, p.extractLsb' 12 6, p.extractLsb' 6 6, p.extractLsb' 0 6⟩
  else none
def LitWaitc.toBits (l : LitWaitc) : BitVec 26 := (0 : BitVec 2) ++ l.ld ++ l.st ++ l.cp ++ l.tl

/-- The scope of a `bar` LIT word; its bop is [21:19]. -/
def LitBar.ofBits (p : BitVec 26) : Option LitBar :=
  match Scope.ofCode (p.extractLsb' 22 4) with
  | some s => if p.extractLsb' 0 19 = 0 then some ⟨s⟩ else none
  | none => none
def LitBar.toBits (bop : BitVec 3) (l : LitBar) : BitVec 26 := l.scope.code ++ bop ++ (0 : BitVec 19)

def LitSleep.ofBits (p : BitVec 26) : Option LitSleep := some ⟨p⟩
def LitSleep.toBits (l : LitSleep) : BitVec 26 := l.ns

def LitSpawn.ofBits (p : BitVec 26) : Option LitSpawn :=
  some ⟨p.extractLsb' 24 2, p.extractLsb' 20 4, p.getLsbD 19, p.extractLsb' 0 19⟩
def LitSpawn.toBits (l : LitSpawn) : BitVec 26 := l.place ++ l.npay ++ BitVec.ofBool l.ereg ++ l.entry

def LitEng.ofBits (p : BitVec 26) : Option LitEng :=
  some ⟨p.getLsbD 25, p.extractLsb' 20 5, p.extractLsb' 18 2, p.extractLsb' 0 18⟩
def LitEng.toBits (l : LitEng) : BitVec 26 := BitVec.ofBool l.bv ++ l.bar ++ l.flue ++ l.soff

def LitSys.ofBits (p : BitVec 26) : Option LitSys :=
  match Scope.ofCode (p.extractLsb' 22 4) with
  | some s => if p.extractLsb' 16 6 = 0 then some ⟨s, p.extractLsb' 0 16⟩ else none
  | none => none
def LitSys.toBits (l : LitSys) : BitVec 26 := l.scope.code ++ (0 : BitVec 6) ++ l.imm

/-! ### Building an instruction from fields -/

/-- What a word of class k decodes to before the form checks. -/
abbrev DecodeResult := Except Reject Instr

/-- The fields fit the format (R102). -/
def need (r : Raw) (p : Bool) (x : DecodeResult) : DecodeResult := if p then x else .error (.word r.k)

/-- An operation that takes a LIT word. A payload that is not one rejects the LIT word, once the instruction word itself fits. -/
def withLit {α : Type} (r : Raw) (l : Option LitRaw) (p : BitVec 26 → Option α) (k : Mods α → Instr) : DecodeResult :=
  match l with
  | none => .ok (k ⟨r.c, r.g, none⟩)
  | some (c, bits) =>
    match p bits with
    | some body => .ok (k ⟨r.c, r.g, some ⟨c, body⟩⟩)
    | none => need r (k ⟨r.c, r.g, none⟩).formOk (.error (.lit r.k))

/-- An operation that takes no LIT word (R103): the LIT word is at fault once the fields of the instruction word fit, whatever its chain
bit, which is no field of a format (R102, R104). -/
def noLit (r : Raw) (l : Option LitRaw) (k : Plain → Instr) : DecodeResult :=
  match l with
  | none => .ok (k ⟨r.c, r.g⟩)
  | some _ => need r ((k ⟨r.c, r.g⟩).formOk || (k ⟨false, r.g⟩).formOk) (.error (.lit r.k))

/-- A predicate number field: [5:3] = 0. -/
def fitsP (x : RegIx) : Bool := x.extractLsb' 3 3 == 0
def toP (x : RegIx) : BitVec 3 := x.extractLsb' 0 3
/-- A tile number field: 0 to 15. -/
def fitsT (x : RegIx) : Bool := x.extractLsb' 4 2 == 0
def toT (x : RegIx) : BitVec 4 := x.extractLsb' 0 4
/-- A barrier number field: 0 to 31. -/
def fitsB (x : RegIx) : Bool := x.extractLsb' 5 1 == 0
def toB (x : RegIx) : BitVec 5 := x.extractLsb' 0 5
/-- A rejoin mask field: 0 to 3. -/
def fitsJ (x : RegIx) : Bool := x.extractLsb' 2 4 == 0
def toJ (x : RegIx) : BitVec 2 := x.extractLsb' 0 2
/-- D ‖ A ‖ B. -/
def Raw.off18 (r : Raw) : BitVec 18 := r.d ++ r.a ++ r.b

/-- Class 0 (Tables 6.1 and 6.3). -/
def decodeIalu (r : Raw) (l : Option LitRaw) : DecodeResult :=
  match r.o.toNat with
  | 0 => withLit r l LitInt.ofBits fun m => .add m r.d r.a r.b
  | 1 => withLit r l LitInt.ofBits fun m => .sub m r.d r.a r.b
  | 2 => withLit r l LitInt.ofBits fun m => .addc m r.d r.a r.b
  | 3 => withLit r l LitInt.ofBits fun m => .subb m r.d r.a r.b
  | 4 => need r (r.b == 0) <| withLit r l LitInt.ofBits fun m => .neg m r.d r.a
  | 5 => need r (r.b == 0) <| withLit r l LitInt.ofBits fun m => .abs m r.d r.a
  | 6 => withLit r l LitInt.ofBits fun m => .min m r.d r.a r.b
  | 7 => withLit r l LitInt.ofBits fun m => .max m r.d r.a r.b
  | 8 => withLit r l LitInt.ofBits fun m => .and m r.d r.a r.b
  | 9 => withLit r l LitInt.ofBits fun m => .or m r.d r.a r.b
  | 10 => withLit r l LitInt.ofBits fun m => .xor m r.d r.a r.b
  | 11 => withLit r l LitInt.ofBits fun m => .andn m r.d r.a r.b
  | 12 => withLit r l LitInt.ofBits fun m => .orn m r.d r.a r.b
  | 13 => withLit r l LitInt.ofBits fun m => .sel m r.d r.a r.b
  | 14 => need r (r.a == 0) <| withLit r l LitInt.ofBits fun m => .mov m r.d r.b
  | 15 => need r (fitsP r.d) <| withLit r l LitInt.ofBits fun m => .cmp m (toP r.d) r.a r.b
  | _ => .error (.word r.k)

/-- Class 1 (Tables 6.1 and 6.3). -/
def decodeIbit (r : Raw) (l : Option LitRaw) : DecodeResult :=
  match r.o.toNat with
  | 0 => withLit r l LitInt.ofBits fun m => .shl m r.d r.a r.b
  | 1 => withLit r l LitInt.ofBits fun m => .shr m r.d r.a r.b
  | 2 => withLit r l LitInt.ofBits fun m => .sar m r.d r.a r.b
  | 3 => withLit r l LitInt.ofBits fun m => .rotl m r.d r.a r.b
  | 4 => withLit r l LitInt.ofBits fun m => .fsh m r.d r.a r.b
  | 5 => withLit r l LitInt.ofBits fun m => .bfx m r.d r.a r.b
  | 6 => withLit r l LitInt.ofBits fun m => .bfi m r.d r.a r.b
  | 7 => need r (r.b == 0) <| withLit r l LitInt.ofBits fun m => .popc m r.d r.a
  | 8 => need r (r.b == 0) <| withLit r l LitInt.ofBits fun m => .clz m r.d r.a
  | 9 => need r (r.b == 0) <| withLit r l LitInt.ofBits fun m => .ctz m r.d r.a
  | 10 => need r (r.b == 0) <| withLit r l LitInt.ofBits fun m => .brev m r.d r.a
  | 11 => withLit r l LitInt.ofBits fun m => .bprm m r.d r.a r.b
  | 12 => withLit r l LitInt.ofBits fun m => .plog m r.d r.a r.b
  | 13 => withLit r l LitInt.ofBits fun m => .lea m r.d r.a r.b
  | _ => .error (.word r.k)

/-- Class 2 (Tables 6.1 and 6.3). -/
def decodeImul (r : Raw) (l : Option LitRaw) : DecodeResult :=
  match r.o.toNat with
  | 0 => withLit r l LitInt.ofBits fun m => .mul m r.d r.a r.b
  | 1 => withLit r l LitInt.ofBits fun m => .mulh m r.d r.a r.b
  | 2 => withLit r l LitInt.ofBits fun m => .mad m r.d r.a r.b
  | 3 => withLit r l LitInt.ofBits fun m => .madh m r.d r.a r.b
  | 4 => withLit r l LitInt.ofBits fun m => .idp4 m r.d r.a r.b
  | _ => .error (.word r.k)

/-- Class 3 (Tables 6.1 and 6.3). -/
def decodeIdiv (r : Raw) (l : Option LitRaw) : DecodeResult :=
  match r.o.toNat with
  | 0 => withLit r l LitInt.ofBits fun m => .div m r.d r.a r.b
  | 1 => withLit r l LitInt.ofBits fun m => .rem m r.d r.a r.b
  | _ => .error (.word r.k)

/-- Class 4 (Tables 6.1 and 6.3). -/
def decodeFadd (r : Raw) (l : Option LitRaw) : DecodeResult :=
  match r.o.toNat with
  | 0 => withLit r l LitFlt.ofBits fun m => .fadd m r.d r.a r.b
  | 1 => withLit r l LitFlt.ofBits fun m => .fsub m r.d r.a r.b
  | 2 => withLit r l LitFlt.ofBits fun m => .fmin m r.d r.a r.b
  | 3 => withLit r l LitFlt.ofBits fun m => .fmax m r.d r.a r.b
  | 4 => need r (fitsP r.d) <| withLit r l LitFlt.ofBits fun m => .fcmp m (toP r.d) r.a r.b
  | 5 => need r (r.b == 0) <| withLit r l LitFlt.ofBits fun m => .fcls m r.d r.a
  | _ => .error (.word r.k)

/-- Class 5 (Tables 6.1 and 6.3). -/
def decodeFmul (r : Raw) (l : Option LitRaw) : DecodeResult :=
  match r.o.toNat with
  | 0 => withLit r l LitFlt.ofBits fun m => .fmul m r.d r.a r.b
  | 1 => withLit r l LitFlt.ofBits fun m => .ffma m r.d r.a r.b
  | 2 => withLit r l LitFlt.ofBits fun m => .fscl m r.d r.a r.b
  | _ => .error (.word r.k)

/-- Class 6 (Tables 6.1 and 6.3). -/
def decodeFcvt (r : Raw) (l : Option LitRaw) : DecodeResult :=
  match r.o.toNat with
  | 0 => need r (r.b == 0) <| withLit r l LitFlt.ofBits fun m => .fcvt m r.d r.a
  | 1 => need r (r.b == 0) <| withLit r l LitFlt.ofBits fun m => .frnd m r.d r.a
  | _ => .error (.word r.k)

/-- Class 7 (Tables 6.1 and 6.3). -/
def decodeFdot (r : Raw) (l : Option LitRaw) : DecodeResult :=
  match r.o.toNat with
  | 0 => withLit r l LitFlt.ofBits fun m => .fdot2 m r.d r.a r.b
  | 1 => withLit r l LitFlt.ofBits fun m => .fdot4 m r.d r.a r.b
  | _ => .error (.word r.k)

/-- Class 8 (Tables 6.1 and 6.3). -/
def decodeF64 (r : Raw) (l : Option LitRaw) : DecodeResult :=
  match r.o.toNat with
  | 0 => withLit r l LitFlt.ofBits fun m => .faddF64 m r.d r.a r.b
  | 1 => withLit r l LitFlt.ofBits fun m => .fsubF64 m r.d r.a r.b
  | 2 => withLit r l LitFlt.ofBits fun m => .fmulF64 m r.d r.a r.b
  | 3 => withLit r l LitFlt.ofBits fun m => .ffmaF64 m r.d r.a r.b
  | 4 => withLit r l LitFlt.ofBits fun m => .fminF64 m r.d r.a r.b
  | 5 => withLit r l LitFlt.ofBits fun m => .fmaxF64 m r.d r.a r.b
  | 6 => need r (fitsP r.d) <| withLit r l LitFlt.ofBits fun m => .fcmpF64 m (toP r.d) r.a r.b
  | _ => .error (.word r.k)

/-- Class 9 (Tables 6.1 and 6.3). -/
def decodeSfu (r : Raw) (l : Option LitRaw) : DecodeResult :=
  match r.o.toNat with
  | 0 => need r (r.b == 0) <| withLit r l LitFlt.ofBits fun m => .frcp m r.d r.a
  | 1 => need r (r.b == 0) <| withLit r l LitFlt.ofBits fun m => .frsq m r.d r.a
  | 2 => need r (r.b == 0) <| withLit r l LitFlt.ofBits fun m => .fsqrt m r.d r.a
  | 3 => withLit r l LitFlt.ofBits fun m => .fdiv m r.d r.a r.b
  | 4 => need r (r.b == 0) <| withLit r l LitFlt.ofBits fun m => .fex2 m r.d r.a
  | 5 => need r (r.b == 0) <| withLit r l LitFlt.ofBits fun m => .flg2 m r.d r.a
  | 6 => need r (r.b == 0) <| withLit r l LitFlt.ofBits fun m => .fsin m r.d r.a
  | 7 => need r (r.b == 0) <| withLit r l LitFlt.ofBits fun m => .fcos m r.d r.a
  | 8 => need r (r.b == 0) <| withLit r l LitFlt.ofBits fun m => .ftnh m r.d r.a
  | _ => .error (.word r.k)

/-- Class 10. -/
def decodeLdg (r : Raw) (l : Option LitRaw) : DecodeResult :=
  match r.o.toNat with
  | 0 => need r (r.b == 0) <| withLit r l LitMem.ofBits fun m => .ld m r.d r.a
  | 1 => need r (r.b == 0) <| withLit r l LitMem.ofBits fun m => .ldh m r.d r.a
  | 2 => need r (r.b == 0) <| withLit r l LitMem.ofBits fun m => .chkh m r.d r.a
  | 3 => need r (r.d == 0 && r.b == 0) <| withLit r l LitMem.ofBits fun m => .pref m r.a
  | _ => .error (.word r.k)

/-- Class 11. -/
def decodeStg (r : Raw) (l : Option LitRaw) : DecodeResult :=
  match r.o.toNat with
  | 0 => need r (r.d == 0) <| withLit r l LitMem.ofBits fun m => .st m r.a r.b
  | _ => .error (.word r.k)

/-- Class 12. -/
def decodeAtom (r : Raw) (l : Option LitRaw) : DecodeResult :=
  match r.o.toNat with
  | 0 => withLit r l LitMem.ofBits fun m => .atomAdd m r.d r.a r.b
  | 1 => withLit r l LitMem.ofBits fun m => .atomMin m r.d r.a r.b
  | 2 => withLit r l LitMem.ofBits fun m => .atomMax m r.d r.a r.b
  | 3 => withLit r l LitMem.ofBits fun m => .atomAnd m r.d r.a r.b
  | 4 => withLit r l LitMem.ofBits fun m => .atomOr m r.d r.a r.b
  | 5 => withLit r l LitMem.ofBits fun m => .atomXor m r.d r.a r.b
  | 6 => withLit r l LitMem.ofBits fun m => .atomXch m r.d r.a r.b
  | 7 => withLit r l LitMem.ofBits fun m => .atomCas m r.d r.a r.b
  | 8 => withLit r l LitMem.ofBits fun m => .atomIncw m r.d r.a r.b
  | 9 => withLit r l LitMem.ofBits fun m => .atomDecw m r.d r.a r.b
  | 10 => withLit r l LitMem.ofBits fun m => .atomFadd m r.d r.a r.b
  | _ => .error (.word r.k)

/-- Class 13. -/
def decodeStash (r : Raw) (l : Option LitRaw) : DecodeResult :=
  match r.o.toNat with
  | 0 => need r (r.b == 0) <| withLit r l LitStash.ofBits fun m => .lds m r.d r.a
  | 1 => need r (r.d == 0) <| withLit r l LitStash.ofBits fun m => .sts m r.a r.b
  | 2 => need r (r.d == 0) <| withLit r l LitStash.ofBits fun m => .smap m r.a r.b
  | 3 => need r (r.d == 0 && r.b == 0) <| withLit r l LitStash.ofBits fun m => .sumap m r.a
  | 4 => need r (r.d == 0 && r.b == 0) <| withLit r l LitStash.ofBits fun m => .sflush m r.a
  | 5 => need r (r.d == 0 && r.b == 0) <| withLit r l LitStash.ofBits fun m => .sfe m r.a
  | 6 => need r (fitsP r.d && r.b == 0) <| withLit r l LitStash.ofBits fun m => .tfe m (toP r.d) r.a
  | _ => .error (.word r.k)

/-- Class 14. -/
def decodeFence (r : Raw) (l : Option LitRaw) : DecodeResult :=
  match r.o.toNat with
  | 0 => need r (r.d == 0 && r.a == 0 && r.b == 0) <| withLit r l LitFence.ofBits fun m => .fence m
  | _ => .error (.word r.k)

/-- Class 15. -/
def decodeXlane (r : Raw) (l : Option LitRaw) : DecodeResult :=
  match r.o.toNat with
  | 0 => withLit r l LitXl.ofBits fun m => .shfl m r.d r.a r.b
  | 1 => withLit r l LitXl.ofBits fun m => .bcst m r.d r.a r.b
  | _ => .error (.word r.k)

/-- Class 16; B holds the operation and type codes of R252 to R256. -/
def decodeGroup (r : Raw) (l : Option LitRaw) : DecodeResult :=
  match r.o.toNat with
  | 0 => need r (fitsP r.d && fitsP r.a && fitsP r.b) <| withLit r l LitGrp.ofBits fun m => .vote m (toP r.d) (toP r.a) (toP r.b)
  | 1 => withLit r l LitGrp.ofBits fun m => .redu m r.d r.a r.b
  | 2 => withLit r l LitGrp.ofBits fun m => .scan m r.d r.a r.b
  | 3 => need r (fitsP r.b) <| withLit r l LitGrp.ofBits fun m => .mtch m r.d r.a (toP r.b)
  | 4 => need r (fitsP r.d && r.a == 0 && r.b == 0) <| withLit r l LitGrp.ofBits fun m => .elect m (toP r.d)
  | 5 => need r (r.a == 0 && r.b == 0) <| withLit r l LitGrp.ofBits fun m => .rdv m r.d
  | 6 => need r (fitsJ r.d && r.a == 0 && r.b == 0) <| noLit r l fun m => .jarr m (toJ r.d)
  | 7 => need r (fitsJ r.d && r.b == 0) <| withLit r l LitGrp.ofBits fun m => .jmsk m (toJ r.d) r.a
  | _ => .error (.word r.k)

/-- Class 17. -/
def decodeBranch (r : Raw) (l : Option LitRaw) : DecodeResult :=
  match r.o.toNat with
  | 0 => noLit r l fun m => .br m r.off18
  | 1 => withLit r l LitCall.ofBits fun m => .call m r.off18
  | 2 => need r (r.d == 0 && r.a == 0 && r.b == 0) <| noLit r l fun m => .ret m
  | 3 => need r (r.b == 0) <| noLit r l fun m => .jt m r.d r.a
  | _ => .error (.word r.k)

/-- Class 18, `bar`: the bop of the LIT word selects the form (R166, R167). -/
def decodeBar (r : Raw) (l : Option LitRaw) : DecodeResult :=
  let bop := match l with | some (_, p) => (p.extractLsb' 19 3).toNat | none => 0
  need r (fitsB r.d && r.b == 0 && (bop == 3 || r.a == 0)) <|
    match bop with
    | 0 => withLit r l LitBar.ofBits fun m => .bar m (toB r.d)
    | 1 => withLit r l LitBar.ofBits fun m => .barArrive m (toB r.d)
    | 2 => withLit r l LitBar.ofBits fun m => .barWait m (toB r.d)
    | 3 => withLit r l LitBar.ofBits fun m => .barExpect m (toB r.d) r.a
    | _ => .error (.lit r.k)

/-- Class 18. -/
def decodeFlow (r : Raw) (l : Option LitRaw) : DecodeResult :=
  match r.o.toNat with
  | 0 => need r (r.d == 0 && r.a == 0 && r.b == 0) <| noLit r l fun m => .exit m
  | 1 => need r (r.d == 0 && r.a == 0 && r.b == 0) <| noLit r l fun m => .yield m
  | 2 => need r (fitsT r.d && r.a == 0 && r.b == 0) <| noLit r l fun m => .trap m (toT r.d)
  | 3 => need r (r.d == 0 && r.a == 0 && r.b == 0) <| withLit r l LitWaitc.ofBits fun m => .waitc m
  | 4 => decodeBar r l
  | 5 => need r (r.d == 0 && r.a == 0 && r.b == 0) <| noLit r l fun m => .nop m
  | 6 => need r (r.d == 0 && r.a == 0 && r.b == 0) <| withLit r l LitSleep.ofBits fun m => .sleep m
  | _ => .error (.word r.k)

/-- Class 19. -/
def decodeSpawn (r : Raw) (l : Option LitRaw) : DecodeResult :=
  match r.o.toNat with
  | 0 => need r (fitsP r.d) <| withLit r l LitSpawn.ofBits fun m => .spawn m (toP r.d) r.a r.b
  | 1 => need r (fitsP r.d) <| withLit r l LitSpawn.ofBits fun m => .spawnr m (toP r.d) r.a r.b
  | 2 => need r (r.d == 0 && r.b == 0) <| noLit r l fun m => .jwait m r.a
  | 3 => need r (fitsP r.d) <| withLit r l LitSpawn.ofBits fun m => .watch m (toP r.d) r.a r.b
  | 4 => need r (fitsP r.d && r.b == 0) <| noLit r l fun m => .unwatch m (toP r.d) r.a
  | 5 => need r (r.a == 0 && r.b == 0) <| noLit r l fun m => .kcap m r.d
  | _ => .error (.word r.k)

/-- A tile number (0 to 15) selects the first form, B = 1 an accumulator number (0 to 7) the second (Table 18.1). -/
def tileOrAcc (r : Raw) (tile acc : DecodeResult) : DecodeResult :=
  match r.b.toNat with
  | 0 => need r (fitsT r.d) tile
  | 1 => need r (fitsP r.d) acc
  | _ => .error (.word r.k)

/-- Class 20 (Table 18.1). -/
def decodeTile (r : Raw) (l : Option LitRaw) : DecodeResult :=
  match r.o.toNat with
  | 0 => need r (fitsT r.d && r.b == 0) <| withLit r l LitEng.ofBits fun m => .mtc m (toT r.d) r.a
  | 1 => need r (fitsT r.a && r.b == 0) <| withLit r l LitEng.ofBits fun m => .mfc m r.d (toT r.a)
  | 2 => need r (r.a == 0) <| tileOrAcc r (withLit r l LitEng.ofBits fun m => .tzeroTile m (toT r.d)) (withLit r l LitEng.ofBits fun m => .tzeroAcc m (toP r.d))
  | 3 => tileOrAcc r (withLit r l LitEng.ofBits fun m => .tldTile m (toT r.d) r.a) (withLit r l LitEng.ofBits fun m => .tldAcc m (toP r.d) r.a)
  | 4 => tileOrAcc r (withLit r l LitEng.ofBits fun m => .tstTile m (toT r.d) r.a) (withLit r l LitEng.ofBits fun m => .tstAcc m (toP r.d) r.a)
  | 5 => need r (r.d == 0 && r.a == 0 && r.b == 0) <| withLit r l LitEng.ofBits fun m => .tmma m
  | 6 => need r (fitsT r.d && r.a == 0 && r.b == 0) <| withLit r l LitEng.ofBits fun m => .tbmp m (toT r.d)
  | 7 => need r (fitsT r.d && fitsT r.a) <| withLit r l LitEng.ofBits fun m => .tcvt m (toT r.d) (toT r.a) r.b
  | 8 => need r (fitsP r.a) <| withLit r l LitEng.ofBits fun m => .tacc m r.d (toP r.a) r.b
  | 9 => match r.a.toNat with
    | 0 => need r (r.b == 0) <| withLit r l LitEng.ofBits fun m => .tstatTile m r.d
    | 1 => need r (fitsB r.b) <| withLit r l LitEng.ofBits fun m => .tstatBarrier m r.d (toB r.b)
    | _ => .error (.word r.k)
  | _ => .error (.word r.k)

/-- Class 21. -/
def decodeTgath (r : Raw) (l : Option LitRaw) : DecodeResult :=
  match r.o.toNat with
  | 0 => need r (fitsT r.d) <| withLit r l LitEng.ofBits fun m => .tgat m (toT r.d) r.a r.b
  | _ => .error (.word r.k)

/-- `cpyl`: D[3:2] = 0 and D[1:0] the direction (Table 18.1). -/
def decodeCpyl (r : Raw) (l : Option LitRaw) : DecodeResult :=
  let s := r.d.extractLsb' 4 2
  match (r.d.extractLsb' 0 4).toNat with
  | 0 => withLit r l LitEng.ofBits fun m => .cpyl m s r.a r.b
  | 1 => withLit r l LitEng.ofBits fun m => .cpylSt m s r.a r.b
  | 2 => withLit r l LitEng.ofBits fun m => .cpylGg m s r.a r.b
  | _ => .error (.word r.k)

/-- Class 22 (Table 18.1). -/
def decodeCopy (r : Raw) (l : Option LitRaw) : DecodeResult :=
  match r.o.toNat with
  | 0 => need r (r.b == 0 && (r.d == 0 || r.d.extractLsb' 4 2 == 1)) <|
    if r.d == 0 then withLit r l LitEng.ofBits fun m => .cpyStash m r.a
    else withLit r l LitEng.ofBits fun m => .cpyTile m (toT r.d) r.a
  | 1 => decodeCpyl r l
  | 2 => need r (toT r.d == 0) <| withLit r l LitEng.ofBits fun m => .cpym m (r.d.extractLsb' 4 2) r.a r.b
  | 3 => need r (r.a == 0 && r.b == 0) <| withLit r l LitEng.ofBits fun m => .cwpt m r.d
  | 4 => need r (r.d == 0 && r.b == 0) <| withLit r l LitEng.ofBits fun m => .coll m r.a
  | _ => .error (.word r.k)

/-- Class 23. -/
def decodeRecov (r : Raw) (l : Option LitRaw) : DecodeResult :=
  match r.o.toNat with
  | 0 => need r (r.d == 0 && r.a == 0 && r.b == 0) <| noLit r l fun m => .rpmark m
  | 1 => need r (r.b == 0) <| noLit r l fun m => .rpqry m r.d r.a
  | _ => .error (.word r.k)

/-- `svc`: the service number of the LIT word selects the row (R386). -/
def decodeSvc (r : Raw) (l : Option LitRaw) : DecodeResult :=
  match (match l with | some (_, p) => (p.extractLsb' 0 16).toNat | none => 0) with
  | 0 => withLit r l LitSys.ofBits fun m => .svcVersion m
  | 1 => withLit r l LitSys.ofBits fun m => .svcRecord m
  | _ => withLit r l LitSys.ofBits fun m => .svcCause m

/-- Class 24. -/
def decodeSys (r : Raw) (l : Option LitRaw) : DecodeResult :=
  match r.o.toNat with
  | 0 => need r (r.b == 0) <| noLit r l fun m => .movs m r.d r.a
  | 1 => need r (r.b == 0) <| noLit r l fun m => .movw m r.d r.a
  | 2 => need r (r.a == 0 && r.b == 0) <| noLit r l fun m => .rdtm m r.d
  | 3 => need r (r.d == 0 && r.a == 0 && r.b == 0) <| decodeSvc r l
  | 4 => need r (r.d == 0 && r.a == 0 && r.b == 0) <| noLit r l fun m => .tret m
  | 5 => need r (r.d == 0 && r.b == 0) <| withLit r l LitSys.ofBits fun m => .tlbi m r.a
  | _ => .error (.word r.k)

/-- Class 30 (R89, R91). -/
def decodePfx (r : Raw) (l : Option LitRaw) : DecodeResult :=
  match r.o.toNat with
  | 0 => need r (r.a.extractLsb' 3 3 == 0 && r.b == 0) <| noLit r l fun m => .rep m r.d (toP r.a)
  | _ => .error (.word r.k)

/-- The instruction that the fields and a following LIT payload name, before the form checks (Table 6.1). -/
def decodeRaw (r : Raw) (l : Option LitRaw) : DecodeResult :=
  match r.k.toNat with
  | 0 => decodeIalu r l
  | 1 => decodeIbit r l
  | 2 => decodeImul r l
  | 3 => decodeIdiv r l
  | 4 => decodeFadd r l
  | 5 => decodeFmul r l
  | 6 => decodeFcvt r l
  | 7 => decodeFdot r l
  | 8 => decodeF64 r l
  | 9 => decodeSfu r l
  | 10 => decodeLdg r l
  | 11 => decodeStg r l
  | 12 => decodeAtom r l
  | 13 => decodeStash r l
  | 14 => decodeFence r l
  | 15 => decodeXlane r l
  | 16 => decodeGroup r l
  | 17 => decodeBranch r l
  | 18 => decodeFlow r l
  | 19 => decodeSpawn r l
  | 20 => decodeTile r l
  | 21 => decodeTgath r l
  | 22 => decodeCopy r l
  | 23 => decodeRecov r l
  | 24 => decodeSys r l
  | 30 => decodePfx r l
  | _ => .error (.word r.k)

/-- The LIT word that modifies word w: the word after it in its packet, if w chains to it and it is of class 31 (R82, R86). -/
def litOf (w : Word) (next : Option Word) : Option LitRaw :=
  if w.getLsbD 31 then next.bind LitRaw.ofWord else none

/-- The form checks in the order of R104: the instruction word's fields with their register operands (R92, R102), then the LIT word. -/
def checkForm (k : BitVec 5) (i : Instr) : DecodeResult :=
  if !i.formOk then .error (.word k)
  else if !i.regsOk then .error (.word k)
  else if !i.litOk then .error (.lit k)
  else .ok i

/-- The bits of a LIT payload that say how wide the operands are: types, or W64 (Table 5.3). -/
def litTypeMasks (k : BitVec 5) : List (BitVec 26) :=
  if k.toNat ≤ 9 then [0x1FF8000, 0x1F00000] else if k.toNat ≤ 13 then [0x3E00000] else if k = 15 then [4] else []

/-- What the fields of a word name under a LIT word that may itself be rejected: the operation with the operand widths that the LIT word's
types give, where they are types (R92). -/
def decodeBare (r : Raw) (l : Option LitRaw) : Option Instr :=
  let typed := l.toList.flatMap fun (x : LitRaw) => (litTypeMasks r.k).map fun m => some (x.1, x.2 &&& m)
  (l :: (typed ++ [none])).findSome? fun l => match decodeRaw r l with | .ok i => some i | .error _ => none

/-- The instruction that word w is, with the word after it in its packet, if any (06). -/
def decode (w : Word) (next : Option Word) : DecodeResult :=
  let r := Raw.ofWord w
  match decodeRaw r (litOf w next) with
  | .ok i => checkForm r.k i
  | .error (.lit k) => .error (if (decodeBare r (litOf w next)).all Instr.regsOk then .lit k else .word k)
  | .error (.word k) => .error (.word k)

/-! ### The encoder -/

/-- An encoded instruction: its word's fields and its LIT word. -/
structure Enc where
  raw : Raw
  lit : Option LitRaw
  deriving DecidableEq, Repr, Inhabited

/-- Fields of a word with modifiers m. -/
def encMods {α : Type} (m : Mods α) (k : BitVec 5) (o : BitVec 4) (d a b : RegIx) (bits : α → BitVec 26) : Enc :=
  ⟨⟨m.c, k, o, d, a, b, m.g⟩, m.lit.map fun l => (l.chain, bits l.body)⟩
def encPlain (m : Plain) (k : BitVec 5) (o : BitVec 4) (d a b : RegIx) : Enc := ⟨⟨m.c, k, o, d, a, b, m.g⟩, none⟩

/-- The encoding of each word row (Tables 6.1 to 6.3, 18.1); events have none. -/
def Instr.enc : Instr → Option Enc
  | .add m d a b => some (encMods m 0 0 d a b LitInt.toBits)
  | .sub m d a b => some (encMods m 0 1 d a b LitInt.toBits)
  | .addc m d a b => some (encMods m 0 2 d a b LitInt.toBits)
  | .subb m d a b => some (encMods m 0 3 d a b LitInt.toBits)
  | .neg m d a => some (encMods m 0 4 d a 0 LitInt.toBits)
  | .abs m d a => some (encMods m 0 5 d a 0 LitInt.toBits)
  | .min m d a b => some (encMods m 0 6 d a b LitInt.toBits)
  | .max m d a b => some (encMods m 0 7 d a b LitInt.toBits)
  | .and m d a b => some (encMods m 0 8 d a b LitInt.toBits)
  | .or m d a b => some (encMods m 0 9 d a b LitInt.toBits)
  | .xor m d a b => some (encMods m 0 10 d a b LitInt.toBits)
  | .andn m d a b => some (encMods m 0 11 d a b LitInt.toBits)
  | .orn m d a b => some (encMods m 0 12 d a b LitInt.toBits)
  | .sel m d a b => some (encMods m 0 13 d a b LitInt.toBits)
  | .mov m d b => some (encMods m 0 14 d 0 b LitInt.toBits)
  | .cmp m p a b => some (encMods m 0 15 (predField p) a b LitInt.toBits)
  | .shl m d a b => some (encMods m 1 0 d a b LitInt.toBits)
  | .shr m d a b => some (encMods m 1 1 d a b LitInt.toBits)
  | .sar m d a b => some (encMods m 1 2 d a b LitInt.toBits)
  | .rotl m d a b => some (encMods m 1 3 d a b LitInt.toBits)
  | .fsh m d a b => some (encMods m 1 4 d a b LitInt.toBits)
  | .bfx m d a b => some (encMods m 1 5 d a b LitInt.toBits)
  | .bfi m d a b => some (encMods m 1 6 d a b LitInt.toBits)
  | .popc m d a => some (encMods m 1 7 d a 0 LitInt.toBits)
  | .clz m d a => some (encMods m 1 8 d a 0 LitInt.toBits)
  | .ctz m d a => some (encMods m 1 9 d a 0 LitInt.toBits)
  | .brev m d a => some (encMods m 1 10 d a 0 LitInt.toBits)
  | .bprm m d a b => some (encMods m 1 11 d a b LitInt.toBits)
  | .plog m d a b => some (encMods m 1 12 d a b LitInt.toBits)
  | .lea m d a b => some (encMods m 1 13 d a b LitInt.toBits)
  | .mul m d a b => some (encMods m 2 0 d a b LitInt.toBits)
  | .mulh m d a b => some (encMods m 2 1 d a b LitInt.toBits)
  | .mad m d a b => some (encMods m 2 2 d a b LitInt.toBits)
  | .madh m d a b => some (encMods m 2 3 d a b LitInt.toBits)
  | .idp4 m d a b => some (encMods m 2 4 d a b LitInt.toBits)
  | .div m d a b => some (encMods m 3 0 d a b LitInt.toBits)
  | .rem m d a b => some (encMods m 3 1 d a b LitInt.toBits)
  | .fadd m d a b => some (encMods m 4 0 d a b LitFlt.toBits)
  | .fsub m d a b => some (encMods m 4 1 d a b LitFlt.toBits)
  | .fmin m d a b => some (encMods m 4 2 d a b LitFlt.toBits)
  | .fmax m d a b => some (encMods m 4 3 d a b LitFlt.toBits)
  | .fcmp m p a b => some (encMods m 4 4 (predField p) a b LitFlt.toBits)
  | .fcls m d a => some (encMods m 4 5 d a 0 LitFlt.toBits)
  | .fmul m d a b => some (encMods m 5 0 d a b LitFlt.toBits)
  | .ffma m d a b => some (encMods m 5 1 d a b LitFlt.toBits)
  | .fscl m d a b => some (encMods m 5 2 d a b LitFlt.toBits)
  | .fcvt m d a => some (encMods m 6 0 d a 0 LitFlt.toBits)
  | .frnd m d a => some (encMods m 6 1 d a 0 LitFlt.toBits)
  | .fdot2 m d a b => some (encMods m 7 0 d a b LitFlt.toBits)
  | .fdot4 m d a b => some (encMods m 7 1 d a b LitFlt.toBits)
  | .faddF64 m d a b => some (encMods m 8 0 d a b LitFlt.toBits)
  | .fsubF64 m d a b => some (encMods m 8 1 d a b LitFlt.toBits)
  | .fmulF64 m d a b => some (encMods m 8 2 d a b LitFlt.toBits)
  | .ffmaF64 m d a b => some (encMods m 8 3 d a b LitFlt.toBits)
  | .fminF64 m d a b => some (encMods m 8 4 d a b LitFlt.toBits)
  | .fmaxF64 m d a b => some (encMods m 8 5 d a b LitFlt.toBits)
  | .fcmpF64 m p a b => some (encMods m 8 6 (predField p) a b LitFlt.toBits)
  | .frcp m d a => some (encMods m 9 0 d a 0 LitFlt.toBits)
  | .frsq m d a => some (encMods m 9 1 d a 0 LitFlt.toBits)
  | .fsqrt m d a => some (encMods m 9 2 d a 0 LitFlt.toBits)
  | .fdiv m d a b => some (encMods m 9 3 d a b LitFlt.toBits)
  | .fex2 m d a => some (encMods m 9 4 d a 0 LitFlt.toBits)
  | .flg2 m d a => some (encMods m 9 5 d a 0 LitFlt.toBits)
  | .fsin m d a => some (encMods m 9 6 d a 0 LitFlt.toBits)
  | .fcos m d a => some (encMods m 9 7 d a 0 LitFlt.toBits)
  | .ftnh m d a => some (encMods m 9 8 d a 0 LitFlt.toBits)
  | .ld m d a => some (encMods m 10 0 d a 0 LitMem.toBits)
  | .ldh m d a => some (encMods m 10 1 d a 0 LitMem.toBits)
  | .chkh m d a => some (encMods m 10 2 d a 0 LitMem.toBits)
  | .pref m a => some (encMods m 10 3 0 a 0 LitMem.toBits)
  | .st m a b => some (encMods m 11 0 0 a b LitMem.toBits)
  | .atomAdd m d a b => some (encMods m 12 0 d a b LitMem.toBits)
  | .atomMin m d a b => some (encMods m 12 1 d a b LitMem.toBits)
  | .atomMax m d a b => some (encMods m 12 2 d a b LitMem.toBits)
  | .atomAnd m d a b => some (encMods m 12 3 d a b LitMem.toBits)
  | .atomOr m d a b => some (encMods m 12 4 d a b LitMem.toBits)
  | .atomXor m d a b => some (encMods m 12 5 d a b LitMem.toBits)
  | .atomXch m d a b => some (encMods m 12 6 d a b LitMem.toBits)
  | .atomCas m d a b => some (encMods m 12 7 d a b LitMem.toBits)
  | .atomIncw m d a b => some (encMods m 12 8 d a b LitMem.toBits)
  | .atomDecw m d a b => some (encMods m 12 9 d a b LitMem.toBits)
  | .atomFadd m d a b => some (encMods m 12 10 d a b LitMem.toBits)
  | .lds m d a => some (encMods m 13 0 d a 0 LitStash.toBits)
  | .sts m a b => some (encMods m 13 1 0 a b LitStash.toBits)
  | .smap m a b => some (encMods m 13 2 0 a b LitStash.toBits)
  | .sumap m a => some (encMods m 13 3 0 a 0 LitStash.toBits)
  | .sflush m a => some (encMods m 13 4 0 a 0 LitStash.toBits)
  | .sfe m a => some (encMods m 13 5 0 a 0 LitStash.toBits)
  | .tfe m p a => some (encMods m 13 6 (predField p) a 0 LitStash.toBits)
  | .fence m => some (encMods m 14 0 0 0 0 LitFence.toBits)
  | .shfl m d a b => some (encMods m 15 0 d a b LitXl.toBits)
  | .bcst m d a b => some (encMods m 15 1 d a b LitXl.toBits)
  | .vote m p q mode => some (encMods m 16 0 (predField p) (predField q) (predField mode) LitGrp.toBits)
  | .redu m d a o => some (encMods m 16 1 d a o LitGrp.toBits)
  | .scan m d a o => some (encMods m 16 2 d a o LitGrp.toBits)
  | .mtch m d a t => some (encMods m 16 3 d a (predField t) LitGrp.toBits)
  | .elect m p => some (encMods m 16 4 (predField p) 0 0 LitGrp.toBits)
  | .rdv m d => some (encMods m 16 5 d 0 0 LitGrp.toBits)
  | .jarr m j => some (encPlain m 16 6 (j.setWidth 6) 0 0)
  | .jmsk m j a => some (encMods m 16 7 (j.setWidth 6) a 0 LitGrp.toBits)
  | .br m off => some (encPlain m 17 0 (off.extractLsb' 12 6) (off.extractLsb' 6 6) (off.extractLsb' 0 6))
  | .call m off => some (encMods m 17 1 (off.extractLsb' 12 6) (off.extractLsb' 6 6) (off.extractLsb' 0 6) LitCall.toBits)
  | .ret m => some (encPlain m 17 2 0 0 0)
  | .jt m t a => some (encPlain m 17 3 t a 0)
  | .exit m => some (encPlain m 18 0 0 0 0)
  | .yield m => some (encPlain m 18 1 0 0 0)
  | .trap m n => some (encPlain m 18 2 (n.setWidth 6) 0 0)
  | .waitc m => some (encMods m 18 3 0 0 0 LitWaitc.toBits)
  | .bar m n => some (encMods m 18 4 (n.setWidth 6) 0 0 (LitBar.toBits 0))
  | .barArrive m n => some (encMods m 18 4 (n.setWidth 6) 0 0 (LitBar.toBits 1))
  | .barWait m n => some (encMods m 18 4 (n.setWidth 6) 0 0 (LitBar.toBits 2))
  | .barExpect m n a => some (encMods m 18 4 (n.setWidth 6) a 0 (LitBar.toBits 3))
  | .nop m => some (encPlain m 18 5 0 0 0)
  | .sleep m => some (encMods m 18 6 0 0 0 LitSleep.toBits)
  | .spawn m p a b => some (encMods m 19 0 (predField p) a b LitSpawn.toBits)
  | .spawnr m p a b => some (encMods m 19 1 (predField p) a b LitSpawn.toBits)
  | .jwait m a => some (encPlain m 19 2 0 a 0)
  | .watch m p a b => some (encMods m 19 3 (predField p) a b LitSpawn.toBits)
  | .unwatch m p a => some (encPlain m 19 4 (predField p) a 0)
  | .kcap m d => some (encPlain m 19 5 d 0 0)
  | .mtc m t a => some (encMods m 20 0 (t.setWidth 6) a 0 LitEng.toBits)
  | .mfc m d t => some (encMods m 20 1 d (t.setWidth 6) 0 LitEng.toBits)
  | .tzeroTile m t => some (encMods m 20 2 (t.setWidth 6) 0 0 LitEng.toBits)
  | .tzeroAcc m n => some (encMods m 20 2 (predField n) 0 1 LitEng.toBits)
  | .tldTile m t a => some (encMods m 20 3 (t.setWidth 6) a 0 LitEng.toBits)
  | .tldAcc m n a => some (encMods m 20 3 (predField n) a 1 LitEng.toBits)
  | .tstTile m t a => some (encMods m 20 4 (t.setWidth 6) a 0 LitEng.toBits)
  | .tstAcc m n a => some (encMods m 20 4 (predField n) a 1 LitEng.toBits)
  | .tmma m => some (encMods m 20 5 0 0 0 LitEng.toBits)
  | .tbmp m t => some (encMods m 20 6 (t.setWidth 6) 0 0 LitEng.toBits)
  | .tcvt m t s b => some (encMods m 20 7 (t.setWidth 6) (s.setWidth 6) b LitEng.toBits)
  | .tacc m d n b => some (encMods m 20 8 d (predField n) b LitEng.toBits)
  | .tstatTile m d => some (encMods m 20 9 d 0 0 LitEng.toBits)
  | .tstatBarrier m d n => some (encMods m 20 9 d 1 (n.setWidth 6) LitEng.toBits)
  | .tgat m t a b => some (encMods m 21 0 (t.setWidth 6) a b LitEng.toBits)
  | .cpyStash m a => some (encMods m 22 0 0 a 0 LitEng.toBits)
  | .cpyTile m t a => some (encMods m 22 0 ((1 : BitVec 2) ++ t) a 0 LitEng.toBits)
  | .cpyl m s a b => some (encMods m 22 1 (s ++ (0 : BitVec 4)) a b LitEng.toBits)
  | .cpylSt m s a b => some (encMods m 22 1 (s ++ (1 : BitVec 4)) a b LitEng.toBits)
  | .cpylGg m s a b => some (encMods m 22 1 (s ++ (2 : BitVec 4)) a b LitEng.toBits)
  | .cpym m s a b => some (encMods m 22 2 (s ++ (0 : BitVec 4)) a b LitEng.toBits)
  | .cwpt m d => some (encMods m 22 3 d 0 0 LitEng.toBits)
  | .coll m a => some (encMods m 22 4 0 a 0 LitEng.toBits)
  | .rpmark m => some (encPlain m 23 0 0 0 0)
  | .rpqry m d a => some (encPlain m 23 1 d a 0)
  | .movs m d n => some (encPlain m 24 0 d n 0)
  | .movw m n a => some (encPlain m 24 1 n a 0)
  | .rdtm m d => some (encPlain m 24 2 d 0 0)
  | .svcVersion m => some (encMods m 24 3 0 0 0 LitSys.toBits)
  | .svcRecord m => some (encMods m 24 3 0 0 0 LitSys.toBits)
  | .svcCause m => some (encMods m 24 3 0 0 0 LitSys.toBits)
  | .tret m => some (encPlain m 24 4 0 0 0)
  | .tlbi m a => some (encMods m 24 5 0 a 0 LitSys.toBits)
  | .rep m n s => some (encPlain m 30 0 n (predField s) 0)
  | _ => none

/-- The words of an instruction: its own and, where it has one, its LIT word. -/
def Enc.words (e : Enc) : List Word := e.raw.toWord :: (match e.lit with | some l => [l.toWord] | none => [])

/-- The words of a well-formed instruction. -/
def encode (i : Instr) : List Word := match i.enc with | some e => e.words | none => []

/-- An instruction read from the first word of a list and, where it chains, the second. -/
def decodeWords : List Word → DecodeResult
  | [] => .error (.word 31)
  | w :: rest => decode w rest.head?

/-- Word w of the opcode table's numbering: the first word is bits 31..0, a LIT word bits 63..32. -/
def decodeTableWord (nbits w : Nat) : Option Instr :=
  let w := w % 2 ^ nbits
  match decode (BitVec.ofNat 32 w) (some (BitVec.ofNat 32 (w / 2 ^ 32))) with
  | .ok i => some i
  | .error _ => none

end Sys2Proof
end

