-- ==== Sys2Proof/Machine/FibreState.lean ====
section
/-! DEFINITION. The types of a fibre's, a crew's and a cohort's state, and of the effects that an issue group collects before it
takes effect (Tables 3.1, 3.8, 9.5, 12.6, 15.3, 17.6; R39 to R47, R84). Plain data throughout. -/

namespace Sys2Proof.Machine

/-- A cause code: class × 32 + detail (R376). -/
abbrev Cause := BitVec 9
def mkCause (cls detail : Nat) : Cause := BitVec.ofNat 9 (cls * 32 + detail)

/-- Where a translated access is performed (R206, Table 13.1): device memory by physical address, host memory by host address, a
peer's memory by torus coordinate and offset. -/
inductive Target where
  | dev (pa : Nat)
  | host (ha : Nat)
  | peer (coord off : Nat)
  deriving DecidableEq, Repr, Inhabited

/-- Table 13.3. -/
inductive AtomOp where | add | min | max | and | or | xor | xch | cas | incw | decw | fadd
  deriving DecidableEq, Repr, Inhabited

/-- What a memory operation does (R200, R235, R238, R239, R205). -/
inductive MemKind where
  | load
  | store
  | atom (op : AtomOp)
  | writeBack (mask : Nat)
  | joinDec
  deriving DecidableEq, Repr, Inhabited

/-- A global access that a word makes (R232 to R240). `dst` is the first absolute register written. -/
structure MemReq where
  kind : MemKind
  addr : GAddr
  target : Target
  ty : Ty
  dst : Nat
  data : Nat
  expect : Nat
  acq : Option Scope
  hoist : Bool
  deriving DecidableEq, Repr, Inhabited

/-- A global access in flight. A load is performed when its value is fixed, a store or atomic at its home (R221). -/
structure MemOp where
  id : Nat
  uid : Nat
  hearth : Nat
  pc : Word
  /-- the repetition of its group, under `rep` -/
  rep : Option (Nat × Nat)
  req : MemReq
  /-- its address is translated (a join decrement may still wait for its walk) -/
  ready : Bool
  performed : Bool
  value : Nat
  gwct : Nat
  expiry : Nat
  poison : Bool
  deriving DecidableEq, Repr, Inhabited

/-- Range-lock entries of a hearth (R318). -/
structure RangeLock where
  cmd : Nat
  ctx : Nat
  space : BitVec 16
  lo : Nat
  hi : Nat
  writes : Bool
  deriving DecidableEq, Repr, Inhabited

/-- One member of a `tgat` (R339): its row, its address, the fibre, the PC of its group, at which it stands while it is blocked (R323), and
the PC that follows. A row above the tile's ROWS is not filled. -/
structure GatRow where
  y : Nat
  addr : GAddr
  uid : Nat
  pc : Word
  next : Word
  deriving DecidableEq, Repr, Inhabited

/-- The commands and reads of classes 20 to 22 (Table 18.1), their register operands read at issue. -/
inductive EngOp where
  | mtc (t : Nat) (v : Word)
  | mfc (t : Nat)
  | tzeroTile (t : Nat)
  | tzeroAcc (n : Nat)
  | tldTile (t o : Nat)
  | tldAcc (n o : Nat)
  | tstTile (t o : Nat)
  | tstAcc (n o : Nat)
  | tmma (o : Nat)
  | tbmp (t : Nat)
  | tcvt (t src : Nat) (ctl q : Word)
  | tacc (n i : Nat)
  | tstatTile
  | tstatBarrier (n : Nat)
  | tgat (t row0 : Nat) (rows : List GatRow)
  | cpyStash (o : Nat) (h : Word) (coords : List Word)
  | cpyTile (t : Nat) (h : Word) (coords : List Word)
  | cpyl (o : Nat) (src : GAddr) (n : Nat)
  | cpylSt (o : Nat) (dst : GAddr) (n : Nat)
  | cpylGg (src dst : GAddr) (n : Nat)
  | cpym (o : Nat) (src : GAddr) (n : Nat)
  | coll (src dst : GAddr) (count : Nat) (ctl : Word)
  deriving DecidableEq, Repr, Inhabited

/-- Where an engine command stands: `held` behind the release of its issue (R320), in its queue, running, suspended for a service, or,
for a read, performed and not yet taken by its word (R327). -/
inductive EngRun where
  | held
  | queued
  | running
  | suspended
  | finished
  deriving DecidableEq, Repr, Inhabited

/-- An engine command (R300, R308, R327). `word` is the PC of its word; `done` counts the lines delivered or the blocks of k
done (R306); `bytes` the bytes
delivered; `gwct` the largest GWCT of its stores (R320); `block` the parameter block of a `tmma`, or the layout record of a `cpy`, once read (R302,
R314); `skip` the receiving cohorts
that take nothing (R342); `value` and `cause` what a read answers (R327); `since` when it began to wait on an empty line (R301). -/
structure EngineCmd where
  id : Nat
  uid : Nat
  cohort : Nat
  hearth : Nat
  pc : Word
  word : Word
  crew : Nat
  vlane : Nat
  op : EngOp
  bar : Option Nat
  flue : Nat
  run : EngRun
  done : Nat
  bytes : Nat
  gwct : Nat
  block : Option (List Byte)
  skip : List Nat
  value : DWord
  cause : Option Cause
  since : Option Nat
  deriving DecidableEq, Repr, Inhabited

/-- A kindling record (Tables 15.3, 15.4), with what the store keeps beside it: the entry's REGS, the time it entered, its place in the order
of entries (R268) and its spill block. -/
structure KRecord where
  kind : Nat
  cls : Nat
  place : Nat
  npay : Nat
  depth : Nat
  origin : Nat
  grain : Nat
  join : GAddr
  entry : Word
  slot : Nat
  gen : Nat
  lo : Nat
  hi : Nat
  image : Nat
  payload : List Word
  regs : Nat
  since : Nat
  order : Nat
  spill : Option Nat
  /-- the first block of its image, while a continuation record stands in it (R281) -/
  head : List Byte
  deriving DecidableEq, Repr, Inhabited

/-- States of a watchpoint entry (Table 15.8). -/
inductive WatchState where | free | armed | pending | holding
  deriving DecidableEq, Repr, Inhabited

/-- A watchpoint entry of a die (R285 to R288). -/
structure WatchEntry where
  index : Nat
  gen : Nat
  state : WatchState
  ctx : Nat
  pa : Nat
  value : DWord
  mask : DWord
  persist : Bool
  threshold : Bool
  record : KRecord
  deriving DecidableEq, Repr, Inhabited

/-- What the members of a rendezvous must agree on (R75, R250, R338). -/
inductive RdvKind where
  | shfl (mode : BitVec 2) (w64 : Bool)
  | bcst (w64 : Bool) (idx : Word)
  | vote (mode : BitVec 3)
  | redu (o : RegIx) (rnd : Rnd) (den : Den)
  | scan (o : RegIx) (rnd : Rnd) (den : Den)
  | mtch (t : BitVec 3)
  | elect
  | rdv
  | jmsk (j : BitVec 2) (v : Word)
  | tgat (t : Nat) (lit : LitEng) (row0 : Word)
  deriving DecidableEq, Repr, Inhabited

/-- One member's presentation (R71, R74). `name` is the effect whose registers its result writes. -/
structure Presentation where
  uid : Nat
  name : Nat
  vlane : Nat
  kind : RdvKind
  set : PSet
  mask : Word
  width : Nat
  opnd : Nat
  pred : Bool
  idx : Word
  dst : Nat
  pdst : BitVec 3
  addr : GAddr
  pc : Word
  /-- where a member of a `tgat` goes on, its PC being unchanged until then (R323) -/
  next : Word
  deriving DecidableEq, Repr, Inhabited

/-- An open rendezvous (R74, R75). `tag` 256 is the one of `tgat` (R338). -/
structure Rdv where
  tag : Nat
  since : Nat
  members : List Presentation
  failed : Bool
  deriving DecidableEq, Repr, Inhabited

/-- A hoist-table entry (R226). -/
structure HoistEntry where
  reg : Nat
  addr : GAddr
  size : Nat
  target : Target
  expiry : Nat
  deriving DecidableEq, Repr, Inhabited

/-- What holds registers or predicates of a fibre until it lands (R437): an arithmetic result in its latency, or an operation by
its name. -/
inductive PendBy where
  | lane
  | op (id : Nat)
  deriving DecidableEq, Repr, Inhabited

/-- The registers and predicates that a result still in flight will write: those of its word that no later word of its group
writes (R84, R437). -/
structure Pend where
  regs : List Nat
  preds : List Nat
  src : PendBy
  deriving DecidableEq, Repr, Inhabited

/-- Why a fibre offers no key (Table 3.8), operand and counter waits apart, which follow from its other state. -/
inductive Wait where
  | bar (n : Nat)
  | devBar (n : Nat)
  | group (tag : Nat)
  | emptyLine (o since : Nat)
  | mapFill (line : Nat)
  | sleep (until' : Nat)
  | jwait (a : GAddr) (since : Nat)
  | parked (fault : Nat)
  | walk (id : Nat)
  | svc (name n dst : Nat) (a : GAddr)
  | tlbi (scope : Scope) (a : GAddr)
  | engineRead (cmd : Nat)
  deriving DecidableEq, Repr, Inhabited

/-- Stash words, their operands read (R241 to R246). -/
inductive StashOp where
  | lds (o : Nat) (ty : Ty) (dst : Nat)
  | sts (o : Nat) (ty : Ty) (data : Nat)
  | smap (first count : Nat) (g : GAddr)
  | sumap (first count : Nat)
  | sflush (first count : Nat)
  | sfe (first count : Nat) (empty : Bool) (w : Word)
  | tfe (first count : Nat) (empty : Bool) (p : BitVec 3)
  deriving DecidableEq, Repr, Inhabited

/-- An effect of a word, computed from the fibre as it stood before its group and applied when the group takes effect (R84, R153).
The effects from `release` on keep program order behind releases, acquires and stalls (R214, R215, R224, R243). -/
inductive Fx where
  /-- a result: absolute registers, predicates and flags; `cls` is the class whose latency holds it (R151, R191) -/
  | res (cls : Nat) (regs : List (Nat × Word)) (preds : List (Nat × Bool)) (fl : BitVec 5)
  /-- a special register (R385) -/
  | sreg (n : Nat) (v : DWord)
  | jump (target : Word)
  | call (wbase : Nat) (link : Nat) (v : Word) (target : Word)
  | ret (wbase : Nat) (target : Word)
  | exit
  | tret
  | yield
  | sleep (until' : Nat)
  | rep (n : Nat)
  /-- the hoist entry of an absolute register leaves (R236) -/
  | unhoist (reg : Nat)
  | present (tag : Nat) (p : Presentation)
  | jarr (j : BitVec 2)
  | unwatch (p : BitVec 3) (handle : Word)
  | pref (a : GAddr)
  | release (scope : Scope)
  | acquireLoads (scope : Scope)
  | sequence (scope : Scope)
  | mem (r : MemReq)
  | stash (op : StashOp)
  | devBar (n : Nat)
  | barArrive (n : Nat) (scope : Scope)
  | barWait (n : Nat) (scope : Scope)
  | barExpect (n : Nat) (v : Word)
  | spawn (p : BitVec 3) (r : KRecord)
  | spawnNone (p : BitVec 3)
  | watch (p : BitVec 3) (handle : Nat) (a : GAddr) (t : Target) (value mask : DWord) (ctl : Word) (r : KRecord)
  | jwait (a : GAddr) (t : Target)
  | engine (op : EngOp) (bar : Option Nat) (flue : Nat) (word : Word)
  | engineGo
  /-- a read of the tile engine: its command and the n registers from an absolute one that its answer goes to (R327) -/
  | read (op : EngOp) (word : Word) (dst n : Nat)
  | rpmark
  | rpqry (dst : Nat) (point : DWord)
  | rdtm (dst : Nat)
  | svc (n dst : Nat) (a : GAddr)
  | tlbi (scope : Scope) (a : GAddr)
  /-- a cause that a word raises after its release (R386) -/
  | raise (c : Cause) (tval : DWord)
  deriving DecidableEq, Repr, Inhabited

/-- The software-visible registers of a fibre (Table 3.1, Table 5.6). -/
structure ArchState where
  pc : Word
  pword : Byte
  wbase : Nat
  regs : List Word
  spaces : List (BitVec 16)
  repc : Nat
  repStart : Nat
  depth : Nat
  fflags : BitVec 5
  frm : BitVec 2
  gwct : Nat
  cause : Cause
  epc : Word
  tval : DWord
  handler : Bool
  levels : List Word
  extents : List Word
  deriving DecidableEq, Repr, Inhabited

/-- Three words of a fetched packet and its number p div 3 (R81). -/
structure Packet where
  number : Nat
  words : List Word
  deriving DecidableEq, Repr, Inhabited

/-- A pending acquire (R215): the operations whose return performs it, and the scope of a `fence.sc` that waits for the acknowledgement of its
sequencer (R216). -/
structure Acquire where
  scope : Scope
  ops : List Nat
  seq : Option Scope
  deriving DecidableEq, Repr, Inhabited

/-- The open issue group of a fibre (R82, R84): head PC, words done, effects so far, and, under `rep`, the count and what remains of
it. -/
structure OpenGroup where
  uid : Nat
  head : Word
  words : Nat
  fx : List Fx
  repeating : Option (Nat × Nat)
  /-- the unstepped field D of the repeated word now issuing (R152, R192) -/
  pin : Option RegIx
  deriving DecidableEq, Repr, Inhabited

/-- A fibre (R39 to R44). `order` is the release that it waits for and `flushed` whether its step 2 has begun (R214); `acq` the
acquire not yet performed (R215); `deferred` the effects of its last group that these hold back, each with its name; `lastL2` the
place of its last access to a line at the L2 (R201); `ibuf` the packet fetched (R81); `head` the PC of the head of the group that it
last issued, or stands blocked by, and `rep` that group's count and what remained of it at its issue, under `rep` (R38, R91); `stored`
the 64-byte granules it has stored to and `durable` whether step 1 of its `.rcv` release is past R396's reads; `since` the front cycle at
which it last became ready, while it is (R68); `held` its issued group whose effects wait for the reads of the tile engine that it holds,
and `sent` how many engine commands of its next group are issued already, where a read of that group was discarded (R327); `turn` the
front cycle and the grate of the decision in which it last issued (R268, R403). -/
structure Fibre where
  uid : Nat
  cohort : Nat
  crew : Nat
  vlane : Nat
  plane : Nat
  arch : ArchState
  ld : Nat
  st : Nat
  cp : Nat
  tl : Nat
  join : GAddr
  rangeLen : Nat
  hoist : List HoistEntry
  pend : List Pend
  waits : List Wait
  order : Option Scope
  flushed : Bool
  durable : Bool
  acq : Option Acquire
  deferred : List (Nat × Fx)
  lastL2 : List (Nat × Nat)
  ibuf : Option Packet
  head : Word
  rep : Option (Nat × Nat)
  stored : List Nat
  held : Option OpenGroup
  sent : Nat
  turn : Nat × Nat
  since : Option Nat
  demoted : Bool
  exited : Bool
  badRegs : List Nat
  deriving DecidableEq, Repr, Inhabited

/-- A crew (R42 to R44), with its open rendezvous (R74) and `tgat` progress (R322). -/
structure Crew where
  number : Nat
  grate : Nat
  unit : Nat
  masks : List Word
  slotSize : Nat
  rdvs : List Rdv
  tgprog : DWord
  deriving DecidableEq, Repr, Inhabited

/-- A cohort barrier (Table 9.5, R165); LIVE follows from the live fibres. -/
structure Barrier where
  n : Nat
  pend : Int
  flt : Bool
  lflt : Bool
  arrived : List Nat
  phase : Nat
  deriving DecidableEq, Repr, Inhabited

/-- A stash line (R46, R205). A region line has no `mapped` address. -/
structure StashLine where
  n : Nat
  full : Bool
  mapped : Option GAddr
  target : Option Target
  dirty : Nat
  expiry : Nat
  poison : Bool
  deriving DecidableEq, Repr, Inhabited

/-- A tile register (R95, R298): tcfg, element bytes, scale plane, bitmap plane (as sparse bytes), FAULT. -/
structure Tile where
  n : Nat
  tcfg : Word
  elems : List (Nat × Byte)
  scales : List (Nat × Byte)
  bitmap : List (Nat × Byte)
  fault : Bool
  poison : Bool
  deriving DecidableEq, Repr, Inhabited

/-- An accumulator (R96, R299): elements as sparse words, the valid flag. -/
structure Accum where
  n : Nat
  elems : List (Nat × Word)
  valid : Bool
  poison : Bool
  deriving DecidableEq, Repr, Inhabited

/-- Whether a cohort runs (R352). -/
inductive CohortRun where | running | stopping | suspended
  deriving DecidableEq, Repr, Inhabited

/-- The resources a cohort declares (Table 3.5). -/
structure Declared where
  regs : Nat
  bars : Nat
  lines : Nat
  tiles : Nat
  accs : Nat
  deriving DecidableEq, Repr, Inhabited

/-- A cohort (R45, R46). `flushed` is the largest GWCT of the write-backs of its mapped lines (R214). -/
structure Cohort where
  uid : Nat
  slot : Nat
  number : Nat
  hearth : Nat
  gathered : Bool
  decl : Declared
  crews : List Crew
  stash : List (Nat × Byte)
  lines : List StashLine
  bars : List Barrier
  tiles : List Tile
  accs : List Accum
  tileStatus : Byte
  wptr : List Nat
  flushed : Nat
  energy : Nat
  current : Nat
  metered : Nat
  held : Bool
  run : CohortRun
  deriving DecidableEq, Repr, Inhabited

end Sys2Proof.Machine
end

