-- ==== Sys2Proof/Machine/DeviceState.lean ====
section
/-! DEFINITION. The types of the device's state outside fibres and cohorts: issue units, hearths, caches, translation, the
kindling store, queues, contexts, launches, the recovery layer and the package (R58 to R70, R199 to R219, R263 to R293, R357 to
R440). Plain data throughout. -/

namespace Sys2Proof.Machine

/-- An issue unit: its crews (cohort, crew number), lane moves apart, and the starve count of each key present (R58, R67); of a paired unit,
whether its next decision slot is that of the shadow of what it has just issued (R416). -/
structure IssueUnit where
  hearth : Nat
  grate : Nat
  slot : Nat
  crews : List (Nat × Nat)
  starve : List (List Nat × Nat)
  paired : Bool
  shadow : Bool
  deriving DecidableEq, Repr, Inhabited

/-- An L1 copy (R200, R211): 64-byte line number, bytes, expiry, and the place of its fill in the order of fills. -/
structure L1Line where
  line : Nat
  bytes : List Byte
  expiry : Nat
  stamp : Nat
  deriving DecidableEq, Repr, Inhabited

/-- A cached translation (R379): context, page start (80-bit), size, physical start, the leaf's flags. -/
structure TlbEntry where
  ctx : Nat
  va : Nat
  size : Nat
  pa : Nat
  rd : Bool
  wr : Bool
  ex : Bool
  sys : Bool
  dirty : Bool
  emb : Bool
  deriving DecidableEq, Repr, Inhabited

/-- The last decision slot of a grate that served a unit (R64): its front cycle, the crews of the unit, and the fibres that issued. -/
structure GrateClock where
  grate : Nat
  cycle : Nat
  crews : List (Nat × Nat)
  issued : List Nat
  deriving DecidableEq, Repr, Inhabited

/-- A hearth (R3, R63, R200, R318, R379, R416, R417, R427, R430). Its engine queues are in the device's command list. `cycle` counts its
front cycles, and `served` is one past the grate served last in this one (R64, R243). -/
structure Hearth where
  id : Nat
  pointers : List Nat
  clocks : List GrateClock
  cycle : Nat
  served : Nat
  front : Nat
  frontReq : Option Nat
  l1 : List L1Line
  tlb : List TlbEntry
  locks : List RangeLock
  pipes : List (Nat × Nat × Nat)
  retention : Bool
  idleSince : Option Nat
  fenced : Bool
  suspect : Bool
  /-- the budgets of the running interval: energy in nJ, peak current in mA (R427) -/
  budget : Nat × Nat
  /-- the time at which the running interval began -/
  interval : Nat
  deriving DecidableEq, Repr, Inhabited

/-- MOESI states of a line (Table 12.5); an absent line is I. -/
inductive Moesi where | M | O | E | S
  deriving DecidableEq, Repr, Inhabited

/-- A line of a die's L2 (R202, R203): state, dirty sectors, lease horizon. Host-memory lines are apart from device lines. -/
structure L2Line where
  die : Nat
  host : Bool
  line : Nat
  state : Moesi
  dirty : Nat
  horizon : Nat
  deriving DecidableEq, Repr, Inhabited

/-- Who asked for a translation (Table 21.5), with the offset that it asked for: requests for one page join. -/
inductive Requester where
  | fibre (uid : Nat) (off : DWord)
  | fetch (uid : Nat)
  | engine (cmd : Nat) (off : DWord)
  | fill (cohort line : Nat) (off : DWord)
  | sent (op : Nat)
  | front (queue : Nat) (pkt : Option Nat)
  | peer
  deriving DecidableEq, Repr, Inhabited

/-- A walk of a (context, page) pair, or one that waits for a walker (R378, R379): the requests that it serves, each with its kind as in
Table 21.3; 4 a stash-side write-back. -/
structure Walk where
  id : Nat
  die : Nat
  ctx : Nat
  space : BitVec 16
  off : Nat
  reqs : List (Nat × Requester)
  deriving DecidableEq, Repr, Inhabited

/-- A fault being serviced (R381): 1 by Garley, 2 by the host; `kind` of the request that met it first. -/
structure Service where
  fault : Nat
  ctx : Nat
  space : BitVec 16
  off : Nat
  kind : Nat
  level : Nat
  srv : Nat
  reqs : List (Nat × Requester)
  deriving DecidableEq, Repr, Inhabited

/-- A gather queue's memory: the hearth that last received a crew from it (R269). -/
structure GatherQueue where
  slot : Nat
  cls : Nat
  place : Nat
  unit : Nat
  lastHearth : Option Nat
  deriving DecidableEq, Repr, Inhabited

/-- A die, compute (0 to 3) or I/O (4, 5): kindling store, watchpoints and generations, shared TLB, walk cache, clock, repair map
(R267, R285, R379, R420, R434). `applied`: how many entries of the map its last reset applied; `retired`: what has failed since the map is full. -/
structure Die where
  n : Nat
  store : List KRecord
  watches : List WatchEntry
  gens : List (Nat × Nat)
  tlb : List TlbEntry
  walkCache : List (Nat × Nat × Nat × Nat)
  clock : Nat
  skew : Nat
  resetting : Bool
  repair : List RepairUnit
  applied : Nat
  retired : List RepairUnit
  /-- past the junction hard limit and not yet below 100 °C again (Table 24.3) -/
  hot : Bool
  deriving DecidableEq, Repr, Inhabited

/-- A join watch of a continuation (R281). -/
structure JoinWatch where
  pa : Nat
  slot : Nat
  die : Nat
  image : Nat
  cls : Nat
  depth : Nat
  origin : Nat
  entry : Word
  deriving DecidableEq, Repr, Inhabited

/-- A device barrier entry (R170, R171): the fibres that arrived and that wait, and the wake windows to come. -/
structure DevBar where
  slot : Nat
  n : Nat
  phase : Nat
  arrived : List Nat
  waiting : List Nat
  wakes : List (Nat × List Nat)
  deriving DecidableEq, Repr, Inhabited

/-- A launch record, read (Tables 3.2 to 3.5). -/
structure LaunchRec where
  codeBase : Nat
  entry : Word
  handler : Word
  arg : DWord
  depth : Nat
  lease : Nat
  paired : Bool
  contained : Bool
  conf : Bool
  prio : Nat
  starve : Nat
  levels : List (Nat × Nat × Nat)
  formats : List Word
  spillBase : Nat
  spillSize : Nat
  stall : Nat
  watchdog : Nat
  energy : Nat
  current : Nat
  rank : Nat
  peers : Nat
  decl : Declared
  deriving DecidableEq, Repr, Inhabited

/-- A staged line of a contained node (R409): die, 256-byte line, written bytes, and the granules into which poisoned data was written
(R413). -/
structure StagedLine where
  die : Nat
  line : Nat
  base : List (Nat × Byte)
  bytes : List (Nat × Byte)
  poison : List Nat
  deriving DecidableEq, Repr, Inhabited

/-- A launch slot (R366); `busy` false is free. -/
structure LaunchSlot where
  n : Nat
  gen : Nat
  busy : Bool
  queue : Nat
  pkt : Nat
  ctx : Nat
  prio : Nat
  order : Nat
  record : LaunchRec
  next : Nat
  total : Nat
  resident : Bool
  spill : List (Nat × Nat)
  spillRecs : List KRecord
  retries : Nat
  demoted : Bool
  /-- a word waits to demote the node: its staged lines commit (R410) -/
  leaving : Bool
  staged : List StagedLine
  /-- the largest GWCT of the launch's writes, which its completion waits for (R56, R214) -/
  gwct : Nat
  colls : Nat
  /-- the cause for which the node is to be aborted (R412) -/
  aborting : Option Cause
  /-- device memory as it stood at the launch's start, for the code that is fetched as it was (R100) -/
  code : List (Nat × Byte)
  deriving DecidableEq, Repr, Inhabited

/-- States of a queue (Table 20.5). -/
inductive QueueState where | unbound | idle | running | waiting | halted | suspended | barred
  deriving DecidableEq, Repr, Inhabited

/-- A packet taken from a ring or an indirect buffer (R361 to R364). `index` is its place in the ring or the buffer; `data` what a COPY
has read and not yet written; `cut` a buffer of which no more is read (R367, R372). -/
structure Pkt where
  id : Nat
  level : Nat
  index : Nat
  parent : Option Nat
  addr : Nat
  bytes : List Byte
  started : Bool
  done : Bool
  cut : Bool
  data : List Byte
  deriving DecidableEq, Repr, Inhabited

/-- A hardware queue (R359); `headDue`: its head line is still to be written. -/
structure Queue where
  n : Nat
  ctx : Nat
  state : QueueState
  ring : GAddr
  k : Nat
  priority : Nat
  privileged : Bool
  tailLine : GAddr
  headLine : GAddr
  tail : Nat
  read : Nat
  completed : Nat
  pkts : List Pkt
  headDue : Bool
  destroying : Bool
  deriving DecidableEq, Repr, Inhabited

/-- A host-range entry (R358). -/
structure HostRange where
  k : Nat
  writable : Bool
  shared : Bool
  base : Nat
  length : Nat
  deriving DecidableEq, Repr, Inhabited

/-- States of a recovery point (Table 23.3). -/
inductive PointState where | sealing | sealed | torn | retired | discarded
  deriving DecidableEq, Repr, Inhabited

/-- An ember unit (R393 to R395): virtual and physical address, whether the tables map it now (one that a sealed point names keeps its images
when they do not), the slot the last sealed point names, the two masks, and the
images of slots 0 and 1 in mirrors 0 and 1 as sparse bytes. -/
structure EmberUnit where
  va : Nat
  pa : Nat
  mapped : Bool
  named : Option Nat
  dirty : Nat
  durable : Nat
  images : List ((Nat × Nat) × List (Nat × Byte))
  deriving DecidableEq, Repr, Inhabited

/-- A point's frontier and copy sets (R398 to R400), by the physical address of the unit; `pages`: unit address and slot named. -/
structure Point where
  n : Nat
  state : PointState
  queues : List (Nat × Nat)
  timelines : List (Nat × Nat)
  replay : Nat
  ltime : Nat
  pages : List (Nat × Nat)
  copy : List (Nat × Nat)
  durableAt : List (Nat × Nat)
  pending : List Nat
  deriving DecidableEq, Repr, Inhabited

/-- The sequencer of a scope instance (R216): the fences that have arrived, oldest first; those accepted, in their place in the single
order; how many it has accepted. -/
structure Sequencer where
  key : Nat
  arrived : List Nat
  accepted : List Nat
  count : Nat
  deriving DecidableEq, Repr, Inhabited

/-- A store of an agent outside, performed and not yet acknowledged (R213): the agent, the die of the serving slice, and the line horizon
plus 8 ns that its clock must reach. -/
structure OutsideStore where
  agent : Nat
  die : Nat
  wait : Nat
  deriving DecidableEq, Repr, Inhabited

/-- A write of the kindling interface that the copy of an ember unit holds at its home (R400). -/
structure HeldWrite where
  slot : Nat
  pa : Nat
  bytes : List Byte
  deriving DecidableEq, Repr, Inhabited

/-- What a mirror's seal slot holds (R401): copies A and B of the seal block and the page list. -/
structure Seal where
  mirror : Nat
  slot : Nat
  copies : List (List Byte)
  pages : List Byte
  deriving DecidableEq, Repr, Inhabited

/-- The recovery state of a context (R398, R408). -/
structure Recovery where
  rps : Nat
  rpo : Nat
  rpt : Nat
  replay : Nat
  quota : Nat
  units : List EmberUnit
  points : List Point
  seals : List Seal
  signals : List Nat
  signalFull : Bool
  deriving DecidableEq, Repr, Inhabited

/-- A granule on its way into both mirrors for a `.rcv` release (R396). -/
structure GranuleWrite where
  uid : Nat
  unit : Nat
  granule : Nat
  stale : Bool
  deriving DecidableEq, Repr, Inhabited

/-- A context (R358, R369, R372, R381). The layout table and the error ring stand in memory that Garley reserves. -/
structure Context where
  id : Nat
  owner : Nat
  confidential : Bool
  root : Nat
  pageQuota : Nat
  pagesUsed : Nat
  ringExp : Nat
  ringAddr : Nat
  saveAddr : Nat
  saveBytes : Nat
  layoutAddr : Nat
  guilt : Nat
  barred : Bool
  ranges : List HostRange
  recovery : Recovery
  stopping : Bool
  suspended : Bool
  /-- the pre-emption mode under which it was suspended (R370) -/
  mode : Nat
  /-- a replay that waits for the dies named to leave their reset, and the queue that goes on after its RECOVER (R391, R406, R418) -/
  replaying : Option (List Nat × Option Nat)
  /-- the time of its last restore: gather windows count afresh from it (R292) -/
  restored : Nat
  destroyed : Bool
  deriving DecidableEq, Repr, Inhabited

/-- Garley's policy table (R368, R370, R417, R430). -/
structure Policy where
  guilt : Nat
  modes : List Nat
  front : Nat
  retentionUs : Nat
  deriving DecidableEq, Repr, Inhabited

/-- The management window (R372): READY and RESULT, the buffer as sparse bytes, the command in progress by its length. -/
structure Window where
  ready : Bool
  result : BitVec 16
  buffer : List (Nat × Byte)
  pending : Option Nat
  deriving DecidableEq, Repr, Inhabited

/-- An SPDM session (R372 to R375). -/
structure Session where
  id : Nat
  verified : Bool
  requests : Nat
  responses : Nat
  deriving DecidableEq, Repr, Inhabited

/-- A link (R357, R425): 0 to 11 the peer links, 12 the Xandex link. -/
structure Link where
  n : Nat
  up : Bool
  lanes : Nat
  spares : Nat
  failures : Nat
  /-- it has retrained for the flit that it sends -/
  again : Bool
  deriving DecidableEq, Repr, Inhabited

/-- The package (R421 to R434): stage word, power, links, topology, temperatures, the reserved frames of device memory. -/
structure Package where
  stage : Word
  powered : Bool
  temps : List Nat
  hbmTemps : List Nat
  powerMw : Nat
  limitW : Nat
  torusOff : BitVec 16
  dims : List Nat
  coord : List Nat
  links : List Link
  mirrors : List Bool
  frames : List (Nat × Nat × Nat)
  deriving DecidableEq, Repr, Inhabited

/-- The decision in progress (R66, R68), with the fibres that have issued in it. -/
structure Decision where
  hearth : Nat
  grate : Nat
  slot : Nat
  issued : List Nat
  deriving DecidableEq, Repr, Inhabited

/-- The model's own bookkeeping: what comes next (log 2). -/
structure Run where
  tick : Nat
  urgent : List Instr
  agenda : List Instr
  issuing : List Nat
  group : Option OpenGroup
  decision : Option Decision
  nextUid : Nat
  nextOp : Nat
  nextStamp : Nat
  nextOrder : Nat
  /-- join watches that have fired, whose records follow (R281) -/
  fired : List JoinWatch
  /-- contexts whose replay a class 10 cause has called for (R418) -/
  escalations : List Nat
  deriving DecidableEq, Repr, Inhabited

end Sys2Proof.Machine
end

