-- ==== Sys2Proof/Machine/State.lean ====
section
/-! DEFINITION. The state of the ZV9640 and its value after power-on. -/

namespace Sys2Proof.Machine

/-- Byte memory in its one canonical form: addresses strictly rising, no entry equal to what an unlisted address reads as, which
is 0 (log 4). -/
abbrev Memory := List Host.Cell

/-- The whole device, with the memories of the host and of the peers that it can reach. -/
structure State where
  run : Run
  ltime : Nat
  mem : Memory
  hostMem : Memory
  peerMem : Memory
  poison : List Nat
  fibres : List Fibre
  cohorts : List Cohort
  units : List IssueUnit
  hearths : List Hearth
  l2 : List L2Line
  setHorizons : List (Nat × Nat)
  ops : List MemOp
  walks : List Walk
  services : List Service
  cmds : List EngineCmd
  dies : List Die
  joinWatches : List JoinWatch
  gathers : List GatherQueue
  devBars : List DevBar
  sequencers : List Sequencer
  /-- the device lines that the host caches (R218) -/
  hostLines : List (Nat × Moesi)
  /-- stores of the host, of peers and of the front end that await their acknowledgement (R213) -/
  outside : List OutsideStore
  granules : List GranuleWrite
  heldWrites : List HeldWrite
  slots : List LaunchSlot
  queues : List Queue
  /-- for a priority, the queue that last started a packet (R370) -/
  turns : List (Nat × Nat)
  contexts : List Context
  policy : Policy
  window : Window
  sessions : List Session
  pkg : Package
  deriving DecidableEq, Repr, Inhabited

/-- Why a step stops. -/
inductive Fault where
  /-- Raised by the meaning of every encoded word when no fibre is issuing: a word has no effect without a fibre that issues it
  (R37). The step never meets it, since it takes words from an issuing fibre only. Safe. -/
  | noFibre
  deriving DecidableEq, Repr, Inhabited

/-- Why an instruction has no meaning. -/
inductive Refusal where
  /-- Raised by the dispatcher for an instruction that has no meaning yet. Safe. -/
  | notModelled (mnemonic : String)
  deriving DecidableEq, Repr, Inhabited

/-- A die at power-on. -/
def Die.reset (n : Nat) : Die :=
  { n := n, store := [], watches := [], gens := [], tlb := [], walkCache := [], clock := 0, skew := 0, resetting := false,
    repair := [], applied := 0, retired := [], hot := false }

/-- A link before training (log 13): it carries nothing. -/
def Link.reset (n : Nat) : Link :=
  { n := n, up := false, lanes := if n = 12 then 32 else 16, spares := 1, failures := 0, again := false }

/-- A queue that no context holds (R359). -/
def Queue.unbound (n : Nat) : Queue :=
  { n := n, ctx := 0, state := .unbound, ring := ⟨0, 0⟩, k := 4, priority := 0, privileged := false, tailLine := ⟨0, 0⟩,
    headLine := ⟨0, 0⟩, tail := 0, read := 0, completed := 0, pkts := [], headDue := false, destroying := false }

/-- The device right after power-on: no context, no launch, no fibre; the stage word 0, READY 0, the lease clock 0 (R372, R432 to
R434). What the spec leaves open takes the values of logs 4, 5 and 8 to 13. -/
def State.reset : State :=
  { run := { tick := 0, urgent := [], agenda := [], issuing := [], group := none, decision := none, nextUid := 0, nextOp := 0,
             nextStamp := 0, nextOrder := 0, fired := [], escalations := [] },
    ltime := 0, mem := [], hostMem := [], peerMem := [], poison := [], fibres := [], cohorts := [], units := [], hearths := [],
    l2 := [], setHorizons := [], ops := [], walks := [], services := [], cmds := [],
    dies := [.reset 0, .reset 1, .reset 2, .reset 3, .reset 4, .reset 5],
    joinWatches := [], gathers := [], devBars := [], sequencers := [], hostLines := [], outside := [], granules := [], heldWrites := [], slots := [], queues := [], turns := [], contexts := [],
    policy := { guilt := 8, modes := [0, 0, 1, 1], front := 0, retentionUs := 0 },
    window := { ready := false, result := 0, buffer := [], pending := none },
    sessions := [],
    pkg := { stage := 0, powered := true, temps := [25, 25, 25, 25, 25, 25], hbmTemps := [25, 25, 25, 25, 25, 25, 25, 25, 25, 25, 25, 25],
             powerMw := 0, limitW := 2600, torusOff := 0, dims := [], coord := [],
             links := [.reset 0, .reset 1, .reset 2, .reset 3, .reset 4, .reset 5, .reset 6, .reset 7, .reset 8, .reset 9,
                       .reset 10, .reset 11, .reset 12],
             mirrors := [true, true], frames := [] } }

end Sys2Proof.Machine
end

