-- ==== Sys2Proof/Machine/Base.lean ====
section
/-! DEFINITION. The basic named operations: byte memory, lookups, time, registers, the L2 and its leases, contents as an agent sees
them, translation and the error ring (R10, R39 to R47, R200 to R213, R369, R378, R379). -/

namespace Sys2Proof.Machine

/-! ### Byte memory -/

/-- The byte at an address; an unlisted address reads 0 (log 4). -/
def Memory.get : Memory → Nat → Byte
  | [], _ => 0
  | (k, v) :: t, a => if a = k then v else Memory.get t a

/-- List a byte at its place. -/
def Memory.place : Memory → Nat → Byte → Memory
  | [], a, b => [(a, b)]
  | (k, v) :: t, a, b => if a < k then (a, b) :: (k, v) :: t else (k, v) :: Memory.place t a b

/-- Write one byte, keeping the canonical form. -/
def Memory.put (m : Memory) (a : Nat) (b : Byte) : Memory :=
  let rest := m.filter fun c => c.1 != a
  if b = 0 then rest else Memory.place rest a b

/-- Addresses strictly rising above a bound, no entry 0. -/
def Memory.wfFrom : Nat → Memory → Bool
  | _, [] => true
  | lo, (k, v) :: t => decide (lo ≤ k) && v != 0 && Memory.wfFrom (k + 1) t

/-- The canonical form. -/
def Memory.wf (m : Memory) : Bool := Memory.wfFrom 0 m

/-- n bytes from an address, lowest first. -/
def Memory.bytes (m : Memory) (a : Nat) : Nat → List Byte
  | 0 => []
  | n + 1 => m.get a :: Memory.bytes m (a + 1) n

/-- Write a run of bytes. -/
def Memory.putBytes (m : Memory) (a : Nat) : List Byte → Memory
  | [] => m
  | b :: bs => Memory.putBytes (m.put a b) (a + 1) bs

/-- The little-endian value of bytes (R10). -/
def leNat : List Byte → Nat
  | [] => 0
  | b :: bs => b.toNat + 256 * leNat bs

/-- The n low bytes of a value, little-endian (R10). -/
def leBytes : Nat → Nat → List Byte
  | 0, _ => []
  | n + 1, x => BitVec.ofNat 8 x :: leBytes n (x / 256)

def Memory.readLE (m : Memory) (a n : Nat) : Nat := leNat (m.bytes a n)
def Memory.writeLE (m : Memory) (a n v : Nat) : Memory := m.putBytes a (leBytes n v)

/-! ### Lookups -/

def State.fibre? (s : State) (uid : Nat) : Option Fibre := s.fibres.find? (·.uid == uid)
def State.setFibre (s : State) (f : Fibre) : State :=
  { s with fibres := s.fibres.map fun g => if g.uid = f.uid then f else g }
def State.updFibre (s : State) (uid : Nat) (g : Fibre → Fibre) : State :=
  { s with fibres := s.fibres.map fun f => if f.uid = uid then g f else f }

def State.cohort? (s : State) (uid : Nat) : Option Cohort := s.cohorts.find? (·.uid == uid)
def State.updCohort (s : State) (uid : Nat) (g : Cohort → Cohort) : State :=
  { s with cohorts := s.cohorts.map fun c => if c.uid = uid then g c else c }
def Cohort.crew? (c : Cohort) (n : Nat) : Option Crew := c.crews.find? (·.number == n)
def Cohort.updCrew (c : Cohort) (n : Nat) (g : Crew → Crew) : Cohort :=
  { c with crews := c.crews.map fun w => if w.number = n then g w else w }
def State.updCrew (s : State) (cohort crew : Nat) (g : Crew → Crew) : State := s.updCohort cohort (·.updCrew crew g)

/-- The budgets of a hearth for an interval (R427, R430): the defaults scaled by the package limit, the front-clock offset, then the
thermal reductions, whose percentages add. -/
def State.budgetOf (s : State) (hearth front : Nat) : Nat × Nat :=
  let hot (t : Nat) : Nat := 10 * (t - 95)
  let side := hearth / 96
  let hbm := (s.pkg.hbmTemps.drop (6 * side)).take 6
  let keep := 100 - (hot (s.pkg.temps.getD (hearth / 48) 0) + (hbm.map hot).foldl max 0)
  let scaled (d : Nat) : Nat := d * s.pkg.limitW / 2600
  let energy := if front = 1 then scaled 75000 - 4000 else if front = 2 then scaled 75000 + 2000 else scaled 75000
  (energy * keep / 100, scaled 12000 * keep / 100)

/-- A hearth that nothing has touched: the default front clock, empty caches and tables. -/
def Hearth.fresh (s : State) (id : Nat) : Hearth :=
  { id := id, pointers := [0, 0, 0, 0], clocks := [], cycle := 0, served := 0, front := s.policy.front, frontReq := none, l1 := [], tlb := [], locks := [],
    pipes := [], retention := false, idleSince := none, fenced := false, suspect := false,
    budget := s.budgetOf id s.policy.front, interval := 0 }
def State.hearth (s : State) (id : Nat) : Hearth := (s.hearths.find? (·.id == id)).getD (Hearth.fresh s id)
def State.setHearth (s : State) (h : Hearth) : State :=
  { s with hearths := h :: s.hearths.filter fun g => g.id != h.id }
def State.updHearth (s : State) (id : Nat) (g : Hearth → Hearth) : State := s.setHearth (g (s.hearth id))

def State.die (s : State) (n : Nat) : Die := (s.dies.find? (·.n == n)).getD (Die.reset n)
def State.updDie (s : State) (n : Nat) (g : Die → Die) : State :=
  { s with dies := s.dies.map fun d => if d.n = n then g d else d }

/-- A free launch slot of generation 0 (log 9). -/
def LaunchSlot.free (n : Nat) : LaunchSlot := { (default : LaunchSlot) with n := n, busy := false }
def State.slot (s : State) (n : Nat) : LaunchSlot := (s.slots.find? (·.n == n)).getD (LaunchSlot.free n)
def State.setSlot (s : State) (l : LaunchSlot) : State :=
  { s with slots := l :: s.slots.filter fun g => g.n != l.n }
def State.updSlot (s : State) (n : Nat) (g : LaunchSlot → LaunchSlot) : State := s.setSlot (g (s.slot n))

/-- The launch's completion waits for a GWCT (R56, R214). -/
def State.raiseSlot (s : State) (n g : Nat) : State := if g = 0 then s else s.updSlot n fun l => { l with gwct := max l.gwct g }

def State.queue (s : State) (n : Nat) : Queue := (s.queues.find? (·.n == n)).getD (Queue.unbound n)
def State.setQueue (s : State) (q : Queue) : State :=
  { s with queues := q :: s.queues.filter fun g => g.n != q.n }

def State.context? (s : State) (id : Nat) : Option Context := s.contexts.find? (fun c => c.id == id && !c.destroyed)
def State.updContext (s : State) (id : Nat) (g : Context → Context) : State :=
  { s with contexts := s.contexts.map fun c => if c.id = id then g c else c }

def State.updOp (s : State) (id : Nat) (g : MemOp → MemOp) : State :=
  { s with ops := s.ops.map fun o => if o.id = id then g o else o }
def State.dropOp (s : State) (id : Nat) : State := { s with ops := s.ops.filter fun o => o.id != id }
def State.op? (s : State) (id : Nat) : Option MemOp := s.ops.find? (·.id == id)

def State.updCmd (s : State) (id : Nat) (g : EngineCmd → EngineCmd) : State :=
  { s with cmds := s.cmds.map fun c => if c.id = id then g c else c }
def State.cmd? (s : State) (id : Nat) : Option EngineCmd := s.cmds.find? (·.id == id)

/-! ### Where things are -/

/-- The compute die of a hearth (R3). -/
def dieOfHearth (h : Nat) : Nat := h / 48
/-- The quad of a hearth, numbered over the device (R3). -/
def quadOfHearth (h : Nat) : Nat := h / 4

/-- %ltime as a die reads it: the package clock within the skew of R210 (log 5). -/
def State.ltimeAt (s : State) (die : Nat) : Nat := s.ltime + (s.die die).skew

def State.cohortOf (s : State) (f : Fibre) : Cohort := (s.cohort? f.cohort).getD default
def State.hearthOf (s : State) (f : Fibre) : Nat := (s.cohortOf f).hearth
def State.slotOf (s : State) (f : Fibre) : LaunchSlot := s.slot (s.cohortOf f).slot
def State.ctxOf (s : State) (f : Fibre) : Nat := (s.slotOf f).ctx

/-- The live fibres of a cohort (R76, R159). -/
def State.liveOf (s : State) (cohort : Nat) : List Fibre := s.fibres.filter fun f => f.cohort == cohort && !f.exited
/-- The live fibres of a crew. -/
def State.crewLive (s : State) (cohort crew : Nat) : List Fibre := (s.liveOf cohort).filter (·.crew == crew)

/-- A fibre's slot in its cohort: crew × 32 + vlane (R165). -/
def Fibre.place (f : Fibre) : Nat := f.crew * 32 + f.vlane

/-- A launch that is a contained node, not demoted: its writes are staged (R409, R410). -/
def LaunchSlot.node (l : LaunchSlot) : Option Nat := if l.busy && l.record.contained && !l.demoted then some l.n else none

/-! ### Registers of a fibre (R41, R57, R85, R92, R93) -/

/-- `V(k)`: register %wbase + k. -/
def Fibre.V (f : Fibre) (k : RegIx) : Word := f.arch.regs.getD (f.arch.wbase + k.toNat) 0
/-- `VP(k)`: bits [31:0] in vk (R92). -/
def Fibre.VP (f : Fibre) (k : RegIx) : DWord := f.V (k + 1) ++ f.V k
/-- The n registers from field k, low word first. -/
def Fibre.run (f : Fibre) (k : RegIx) (n : Nat) : List Word :=
  (List.range n).map fun i => f.arch.regs.getD (f.arch.wbase + k.toNat + i) 0
/-- The absolute number of field k. -/
def Fibre.abs (f : Fibre) (k : RegIx) : Nat := f.arch.wbase + k.toNat
/-- `P(n)`; p7 reads 1 (R93). -/
def Fibre.P (f : Fibre) (n : BitVec 3) : Bool := n == 7 || f.arch.pword.getLsbD n.toNat
/-- The guard: G[3] inverts the predicate G[2:0] (R85). -/
def Fibre.guard (f : Fibre) (g : GuardBits) : Bool := f.P (g.extractLsb' 0 3) != g.getLsbD 3
/-- The raw value of an operand of a type. -/
def Fibre.raw (f : Fibre) (k : RegIx) (t : Ty) : Nat := rawOf (f.run k t.regs) % 2 ^ t.bits

/-- The words of a register operand's value, low word first. -/
def regWords (n x : Nat) : List Word := (List.range n).map fun i => BitVec.ofNat 32 (x / 2 ^ (32 * i))
/-- The pairs (absolute register, word) that writing words to field k makes. -/
def Fibre.wr (f : Fibre) (k : RegIx) (ws : List Word) : List (Nat × Word) :=
  ws.zipIdx.map fun (w, i) => (f.abs k + i, w)

/-- Write one absolute register; hoist entries that hold it become invalid (Table 12.6). -/
def Fibre.putReg (f : Fibre) (r : Nat) (w : Word) : Fibre :=
  { f with arch := { f.arch with regs := f.arch.regs.set r w },
           hoist := f.hoist.filter fun h => decide (r < h.reg) || decide (h.reg + max 1 (h.size / 4) ≤ r) }
def Fibre.putRegs (f : Fibre) (l : List (Nat × Word)) : Fibre := l.foldl (fun f x => f.putReg x.1 x.2) f
/-- Write one predicate; p7 discards (R93). -/
def Fibre.putPred (f : Fibre) (p : Nat) (v : Bool) : Fibre :=
  if 7 ≤ p then f
  else { f with arch := { f.arch with
      pword := if v then f.arch.pword ||| BitVec.ofNat 8 (2 ^ p) else f.arch.pword &&& ~~~ (BitVec.ofNat 8 (2 ^ p)) } }
def Fibre.putPreds (f : Fibre) (l : List (Nat × Bool)) : Fibre := l.foldl (fun f x => f.putPred x.1 x.2) f
/-- OR flags into %fflags (R112). -/
def Fibre.orFlags (f : Fibre) (fl : BitVec 5) : Fibre := { f with arch := { f.arch with fflags := f.arch.fflags ||| fl } }

/-- %repc as it stood for the repetition that the fibre last issued, or stands blocked by (R91). -/
def Fibre.backUp (f : Fibre) : Fibre :=
  match f.rep with
  | some (n, r) => { f with arch := { f.arch with repc := r, repStart := n } }
  | none => f

/-! ### The L2, leases and horizons (R202, R203, R211, R212, R218) -/

/-- The set that a 256-byte line falls into on a die: slice and set (R202). -/
def setKey (die line : Nat) : Nat :=
  let pa := line * 256
  let slice := (pa / 2 ^ 8 % 32) ^^^ (pa / 2 ^ 13 % 32) ^^^ (pa / 2 ^ 18 % 32)
  die * 2 ^ 14 + slice * 512 + pa / 2 ^ 13 % 512

def State.setHorizon (s : State) (key : Nat) : Nat := ((s.setHorizons.find? (·.1 == key)).map (·.2)).getD 0
def State.foldHorizon (s : State) (key h : Nat) : State :=
  if s.setHorizon key < h then { s with setHorizons := (key, h) :: s.setHorizons.filter (·.1 != key) } else s

def L2Line.is (l : L2Line) (die : Nat) (host : Bool) (line : Nat) : Bool := l.die == die && l.host == host && l.line == line
def State.l2? (s : State) (die : Nat) (host : Bool) (line : Nat) : Option L2Line := s.l2.find? (·.is die host line)

/-- The horizon of a line on a die; an absent line takes its set's (R203). -/
def State.horizon (s : State) (die : Nat) (host : Bool) (line : Nat) : Nat :=
  match s.l2? die host line with
  | some l => l.horizon
  | none => s.setHorizon (setKey die line)

/-- A line leaves a die's L2: its horizon folds into its set's (R203). -/
def State.evictL2 (s : State) (die : Nat) (host : Bool) (line : Nat) : State :=
  match s.l2? die host line with
  | some l => { s with l2 := s.l2.filter fun x => !x.is die host line }.foldHorizon (setKey die line) l.horizon
  | none => s

/-- A host line is held in the slice while a lease on it lives: leases on host lines are those of mapped stash lines (R206). -/
def State.leaseHeld (s : State) (l : L2Line) : Bool := l.host && decide (s.ltimeAt l.die < l.horizon)

/-- The spares that the map's entries of a kind take, in their order, as far as there are any: an entry with a spare is repaired, unless what
took its place has failed since (R2, Table 23.6). -/
def repaired (spares : Nat) (l : List RepairUnit) : List RepairUnit := (l.take spares).filter fun u => !(l.drop spares).contains u
def RepairUnit.isHearth : RepairUnit → Bool | .hearth _ => true | _ => false
def RepairUnit.inSlice (n : Nat) : RepairUnit → Bool | .l2Row _ m _ => n == m | _ => false

/-- The units that the last reset of a die repaired: four hearths of a compute die, two rows of each slice of its L2; of an I/O die every row of its
stacks, which post-package repair takes (R419; DESIGN CHOICE, log 103). -/
def Die.repairs (d : Die) : List RepairUnit :=
  let l := d.repair.take d.applied
  if 4 ≤ d.n then l
  else repaired 4 (l.filter RepairUnit.isHearth) ++ (List.range 32).flatMap fun n => repaired 2 (l.filter (RepairUnit.inSlice n))
/-- The units of a die that are out of service: those found since its last reset, and those that it could not repair (R419, R420). -/
def Die.faulty (d : Die) : List RepairUnit :=
  (d.repair.take d.applied).filter (fun u => !d.repairs.contains u) ++ d.repair.drop d.applied ++ d.retired
/-- A unit found faulty takes an entry of the die's map of 64; without one it stays out of service (R420). -/
def Die.found (d : Die) (u : RepairUnit) : Die :=
  if d.faulty.contains u then d
  else if d.repair.length < 64 then { d with repair := d.repair ++ [u] } else { d with retired := d.retired ++ [u] }

/-- The ways of a set that are allocated: 16, those apart that a row out of service holds (R202, R419). -/
def State.waysOf (s : State) (key : Nat) : Nat :=
  16 - ((s.die (key / 2 ^ 14)).faulty.filter fun u => match u with
    | .l2Row _ slice row => slice == key / 512 % 32 && Config.l2RowSets row (key % 512)
    | _ => false).length

/-- The lines in the set of a line. -/
def State.sameSet (s : State) (die line : Nat) : List L2Line := s.l2.filter fun x => x.die == die && setKey die x.line == setKey die line
/-- A line finds a way in its set: not where host lines that a lease holds have them all (R206). -/
def State.hasWay (s : State) (die line : Nat) : Bool := decide (((s.sameSet die line).filter s.leaseHeld).length < s.waysOf (setKey die line))
/-- Make room for a line in its set; which line leaves a full set is open (log 3), the host lines that a lease holds apart. -/
def State.makeRoom (s : State) (die line : Nat) : State :=
  (List.range 16).foldl (fun (s : State) i =>
    let free := (s.sameSet die line).filter fun x => !s.leaseHeld x
    if (s.sameSet die line).length < s.waysOf (setKey die line) then s
    else match free[Config.choice s.run.tick 2 (line + i) % max 1 free.length]? with
      | some v => s.evictL2 die v.host v.line
      | none => s) s

/-- The state of a device line at the host, none for I (R218). -/
def State.hostHas (s : State) (line : Nat) : Option Moesi := (s.hostLines.find? (·.1 == line)).map (·.2)
/-- A holder of a line after another has read it (Table 12.5). -/
def Moesi.shared : Moesi → Moesi | .M => .O | .O => .O | _ => .S

/-- The directory entry of a line at its home (R218): the dies that hold it, whether the host does, and the owner, which has it in M or O:
a die, or 6 for the host. -/
structure Directory where
  dies : List Nat
  host : Bool
  owner : Option Nat
  deriving DecidableEq, Repr, Inhabited

/-- The entry, exact for each line of device memory: the holders' own states say all of it. -/
def State.directory (s : State) (line : Nat) : Directory :=
  let ls := s.l2.filter fun x => !x.host && x.line == line
  let owns (m : Moesi) : Bool := m == .M || m == .O
  { dies := ls.map (·.die), host := (s.hostHas line).isSome,
    owner := ((ls.find? fun x => owns x.state).map (·.die)).or ((s.hostHas line).bind fun m => if owns m then some 6 else none) }

/-- Another die holds a line's watches: it alone may hold the line in M or E (R287). -/
def State.watchedApart (s : State) (die line : Nat) : Bool :=
  (s.dies.any fun d => d.n != die && d.watches.any fun w => w.pa / 256 == line) || s.joinWatches.any fun w => w.die != die && w.pa / 256 == line

/-- Another agent has read a line: its holders share it (Table 12.5). -/
def State.shareLine (s : State) (host : Bool) (line : Nat) : State :=
  { s with
    l2 := s.l2.map fun x => if x.host == host && x.line == line then { x with state := x.state.shared } else x
    hostLines := s.hostLines.map fun x => if !host && x.1 == line then (x.1, x.2.shared) else x }

/-- Bring a line into a die's L2 for reading (Table 12.5): shared where another die or the host has it, or holds its watches (R287). With no way
for it in its set, it is read and not kept (DESIGN CHOICE, log 103). -/
def State.l2Load (s : State) (die : Nat) (host : Bool) (line : Nat) : State :=
  match s.l2? die host line with
  | some _ => s
  | none =>
    let shared := s.l2.any (fun x => x.die != die && x.host == host && x.line == line)
      || (!host && ((s.hostHas line).isSome || s.watchedApart die line))
    let s := (s.makeRoom die line).shareLine host line
    let new : L2Line := { die := die, host := host, line := line, state := if shared then .S else .E, dirty := 0,
                          horizon := s.setHorizon (setKey die line) }
    if s.hasWay die line then { s with l2 := new :: s.l2 } else s

/-- A line leaves every other holder, each die's horizon folding into its set's (R203, R218). -/
def State.invalidate (s : State) (die : Nat) (host : Bool) (line : Nat) : State :=
  let others := s.l2.filter fun x => x.die != die && x.host == host && x.line == line
  let s := others.foldl (fun s x => s.evictL2 x.die host line) s
  { s with hostLines := s.hostLines.filter fun x => host || x.1 != line }

/-- Take a line exclusive on a die for writing a sector: it leaves its other holders, and a die that holds it no more has its leases in
its set horizon (R203, R218). The new horizon counts every die's leases; it is its set's where the line finds no way. Answers the GWCT (R212). -/
def State.l2Store (s : State) (die : Nat) (host : Bool) (line sector : Nat) : State × Nat :=
  let s := s.invalidate die host line
  let s := if (s.l2? die host line).isSome then s else s.makeRoom die line
  let h := [0, 1, 2, 3].foldl (fun m d => max m (s.horizon d host line)) (s.horizon die host line)
  let old := ((s.l2? die host line).map (·.dirty)).getD 0
  let new : L2Line := { die := die, host := host, line := line, state := .M, dirty := old ||| 2 ^ sector, horizon := h }
  if (s.l2? die host line).isSome || s.hasWay die line then ({ s with l2 := new :: s.l2.filter fun x => !x.is die host line }, h)
  else (s.foldHorizon (setKey die line) h, h)

/-- Grant a lease of some length on a line (R211): the expiry, with the horizon raised to it. -/
def State.grantLease (s : State) (die : Nat) (host : Bool) (line len : Nat) : State × Nat :=
  let e := s.ltimeAt die + len
  let s := s.l2Load die host line
  if (s.l2? die host line).isSome then
    ({ s with l2 := s.l2.map fun x => if x.is die host line then { x with horizon := max x.horizon e } else x }, e)
  else (s.foldHorizon (setKey die line) e, e)

/-! ### Contents of memory as an agent sees them -/

/-- Staged bytes of a contained node at a physical address (R409). -/
def State.stagedByte (s : State) (node : Option Nat) (pa : Nat) : Option Byte :=
  match node with
  | none => none
  | some n =>
    match (s.slot n).staged.find? (·.line == pa / 256) with
    | none => none
    | some l =>
      match l.bytes.find? (·.1 == pa) with
      | some x => some x.2
      | none => (l.base.find? (·.1 == pa)).map (·.2)

/-- A byte of device memory as an agent of a node, or of none, reads it. -/
def State.devByte (s : State) (node : Option Nat) (pa : Nat) : Byte :=
  match s.stagedByte node pa with
  | some b => b
  | none => s.mem.get pa

/-- The bytes at a target. -/
def State.targetBytes (s : State) (node : Option Nat) (t : Target) (n : Nat) : List Byte :=
  match t with
  | .dev pa => (List.range n).map fun i => s.devByte node (pa + i)
  | .host ha => s.hostMem.bytes ha n
  | .peer c off => s.peerMem.bytes (c * 2 ^ 64 + off) n

/-- The words of 8 bytes that a write touches. -/
def touches (pa n word : Nat) : Bool := decide (word < pa + n) && decide (pa < word + 8)

/-- The 64-byte granules that a byte range touches (R413). -/
def granulesOf (a n : Nat) : List Nat := (List.range (n / 64 + 2)).filterMap fun i =>
  let g := a / 64 + i
  if 0 < n && decide (g * 64 < a + n) then some g else none

/-- The granule of an address in the list of poisoned granules: device granules by number, those of the host and of peers above them. -/
def Target.granule (t : Target) : Nat :=
  match t with
  | .dev pa => pa / 64
  | .host ha => 2 ^ 58 + ha / 64
  | .peer c off => (c + 1) * 2 ^ 60 + off / 64
/-- The granules that n bytes at a target touch. -/
def Target.granules (t : Target) (n : Nat) : List Nat :=
  match t with
  | .dev pa => granulesOf pa n
  | .host ha => (granulesOf ha n).map (2 ^ 58 + ·)
  | .peer c off => (granulesOf off n).map ((c + 1) * 2 ^ 60 + ·)
/-- The offset of a target in its space. -/
def Target.off : Target → Nat | .dev a | .host a | .peer _ a => a
/-- The granules that n bytes at a target cover whole. -/
def Target.whole (t : Target) (n : Nat) : List Nat :=
  (granulesOf t.off n).filterMap fun g =>
    if t.off ≤ g * 64 ∧ g * 64 + 64 ≤ t.off + n then some (t.granule + g - t.off / 64) else none

/-- Poison over a byte range (R413). -/
def State.poisoned (s : State) (t : Target) (n : Nat) : Bool := (t.granules n).any fun g => s.poison.contains g
/-- The node wrote every byte of a granule of a staged line. -/
def StagedLine.covers (l : StagedLine) (g : Nat) : Bool := (List.range 64).all fun i => l.bytes.any fun x => x.1 == 64 * g + i
/-- Poison as an agent of a node, or of none, meets it: on a staged line what the node wrote into it, and of the rest what stands at the home
(R409, R413). -/
def State.poisonedFor (s : State) (node : Option Nat) (t : Target) (n : Nat) : Bool :=
  match node, t with
  | some k, .dev pa => (granulesOf pa n).any fun g =>
      match (s.slot k).staged.find? (·.line == g / 4) with
      | some l => l.poison.contains g || (s.poison.contains g && !l.covers g)
      | none => s.poison.contains g
  | _, _ => s.poisoned t n
/-- Granules become poisoned, or their poison is cleared (R413). -/
def State.taint (s : State) (gs : List Nat) : State := { s with poison := s.poison ++ gs.filter fun g => !s.poison.contains g }
def State.cleanse (s : State) (gs : List Nat) : State := { s with poison := s.poison.filter fun g => !gs.contains g }
/-- The same for the write of a node, or of none: on its staged lines (R409). -/
def State.taintFor (s : State) (node : Option Nat) (t : Target) (gs : List Nat) : State :=
  match node, t with
  | some k, .dev _ => s.updSlot k fun l => { l with staged := l.staged.map fun x => { x with poison := x.poison ++ gs.filter fun g => g / 4 == x.line && !x.poison.contains g } }
  | _, _ => s.taint gs
def State.cleanseFor (s : State) (node : Option Nat) (t : Target) (gs : List Nat) : State :=
  match node, t with
  | some k, .dev _ => s.updSlot k fun l => { l with staged := l.staged.map fun x => { x with poison := x.poison.filter fun g => !gs.contains g } }
  | _, _ => s.cleanse gs

/-- The dirty and durable masks after a write at a physical address (R395), and granule writes in progress that it makes stale
(R396). -/
def State.markEmber (s : State) (pa n : Nat) : State :=
  let touch (u : EmberUnit) : Nat :=
    ((granulesOf pa n).filter fun g => u.mapped && g * 64 / 4096 * 4096 == u.pa).foldl (fun m g => m ||| 2 ^ (g % 64)) 0
  { s with
    contexts := s.contexts.map fun c => { c with recovery := { c.recovery with
      units := c.recovery.units.map fun u => { u with dirty := u.dirty ||| touch u, durable := u.durable &&& (2 ^ 64 - 1 - touch u) } } }
    granules := s.granules.map fun g => if (granulesOf pa n).contains (g.unit / 64 + g.granule) then { g with stale := true } else g }

/-- The bytes lie on an ember unit whose copy for a sealing point is not finished: writes wait (R400). -/
def State.copying (s : State) (pa n : Nat) : Bool :=
  s.contexts.any fun c => c.recovery.points.any fun p =>
    p.state == .sealing && p.pending.any fun u => decide (u < pa + n) && decide (pa < u + 4096)

/-- Stage bytes of a node (R409): the line takes its base bytes from memory when first staged. -/
def State.stage (s : State) (node die pa : Nat) (bs : List Byte) : State :=
  bs.zipIdx.foldl (fun s (b, i) =>
    let a := pa + i
    let l := s.slot node
    let line := a / 256
    let l := if l.staged.any (·.line == line) then l
      else { l with staged := l.staged ++ [{ die := die, line := line, base := ((List.range 256).map fun j =>
        (line * 256 + j, s.mem.get (line * 256 + j))), bytes := [], poison := [] }] }
    s.setSlot { l with staged := l.staged.map fun x =>
      if x.line = line then { x with bytes := (a, b) :: x.bytes.filter (·.1 != a) } else x }) s

/-- Perform a write of bytes at a target, for an agent of a node or of none. Whole granules written clear poison (R413). -/
def State.writeBytes (s : State) (node : Option Nat) (die : Nat) (t : Target) (bs : List Byte) : State :=
  match t with
  | .dev pa =>
    match node with
    | some n => (s.stage n die pa bs).cleanseFor node t (t.whole bs.length)
    | none => ({ s with mem := s.mem.putBytes pa bs }.cleanse (t.whole bs.length)).markEmber pa bs.length
  | .host ha => { s with hostMem := s.hostMem.putBytes ha bs }.cleanse (t.whole bs.length)
  | .peer c off => { s with peerMem := s.peerMem.putBytes (c * 2 ^ 64 + off) bs }.cleanse (t.whole bs.length)

/-- Read and write numbers at a target. -/
def State.targetNat (s : State) (node : Option Nat) (t : Target) (n : Nat) : Nat := leNat (s.targetBytes node t n)

/-! ### Addresses (R94, R206, R358, R424) -/

/-- Addr(s, pair, off): the sum wraps modulo 2^64 (R94). -/
def Fibre.addr (f : Fibre) (sp : BitVec 2) (pair : RegIx) (off : Int) : GAddr :=
  ⟨f.arch.spaces.getD sp.toNat 0, f.VP pair + BitVec.ofInt 64 off⟩

/-- KIND and NUM of a space ID (Table 5.4). -/
def spaceKind (sp : BitVec 16) : Nat := sp.toNat / 2 ^ 14
def spaceNum (sp : BitVec 16) : Nat := sp.toNat % 2 ^ 14

/-- The width of a torus dimension's field (R423). -/
def dimWidth (e : Nat) : Nat := Nat.log2 (2 * e - 1)

/-- The coordinate that a NUM holds (R424). -/
def coordOf : List Nat → Nat → List Nat
  | [], _ => []
  | e :: es, num => num % 2 ^ dimWidth e :: coordOf es (num / 2 ^ dimWidth e)
def numRest : List Nat → Nat → Nat
  | [], num => num
  | e :: es, num => numRest es (num / 2 ^ dimWidth e)

/-- NUM names another device of the torus (R424). -/
def Package.peerOk (p : Package) (num : Nat) : Bool :=
  let c := coordOf p.dims num
  numRest p.dims num == 0 && (c.zip p.dims).all (fun (x, e) => decide (x < e)) && c != p.coord && p.dims != []

/-- The I/O die of a link (Table 0.2, Table 24.1): links 0 to 5 and the Xandex link 12 on die 4, links 6 to 11 on die 5. -/
def linkDie (n : Nat) : Nat := if 6 ≤ n ∧ n < 12 then 5 else 4
/-- The Xandex link carries traffic. -/
def State.hostUp (s : State) : Bool := s.pkg.links.any fun l => l.n == 12 && l.up
/-- A peer link carries traffic. -/
def State.peersUp (s : State) : Bool := s.pkg.links.any fun l => decide (l.n < 12) && l.up

/-- The side that serves a physical address (R421). -/
def sideOf (pa : Nat) : Nat := pa / 2 ^ 16 % 2
/-- Its line within the side: PA[51:17] ‖ PA[15:8] (R421). -/
def lineIndex (pa : Nat) : Nat := 256 * (pa / 2 ^ 17 % 2 ^ 35) + pa / 2 ^ 8 % 256
/-- Its stack and its row of that stack (R421). -/
def stackOf (pa : Nat) : Nat := 6 * sideOf pa + lineIndex pa % 6
def rowOf (pa : Nat) : Nat := lineIndex pa / 6

/-- I/O die 0 runs, with the front end and Garley on it (R1). -/
def State.frontUp (s : State) : Bool := !(s.die 4).resetting
/-- The stacks of an address serve it: not in self-refresh, while the I/O die of their side resets (R434). -/
def State.stackUp (s : State) (pa : Nat) : Bool := !(s.die (4 + sideOf pa)).resetting
/-- Both ember engines run, with both mirrors (R1, R393, R434). -/
def State.emberUp (s : State) : Bool := !(s.die 4).resetting && !(s.die 5).resetting
/-- What an access to a target needs carries it: the stack, or an L2 that holds the line; the link to the host. -/
def Target.linked (t : Target) (s : State) : Bool :=
  match t with
  | .dev pa => s.stackUp pa || s.l2.any fun x => !x.host && x.line == pa / 256
  | .host _ => s.hostUp
  | .peer _ _ => true

/-- The links to a neighbour in dimension d, the one to take first: the shorter way round, + on a tie; where both reach the same device, the two
alternate by the 256-byte line (R423, R425). -/
def linkOrder (d e here there off : Nat) : List Nat :=
  let plus := (there + e - here) % e
  let first := if e = 2 then off / 256 % 2 == 0 else decide (plus ≤ e - plus)
  if first then [2 * d, 2 * d + 1] else [2 * d + 1, 2 * d]
/-- The link by which an access leaves for another device: of the lowest dimension that differs, the other way round where that link is down.
What follows runs over links of other devices (R425). -/
def Package.route (p : Package) (num off : Nat) : Option Nat :=
  match ((coordOf p.dims num).zip (p.coord.zip p.dims)).zipIdx.find? fun x => x.1.1 != x.1.2.1 with
  | some ((there, here, e), d) => (linkOrder d e here there off).find? fun n => p.links.any fun l => l.n == n && l.up
  | none => none

/-- Check of a space ID (R94): cause 3.08 for a reserved KIND or KIND 00 with NUM ≠ 0, 3.09 for what the context is not given. -/
def State.spaceFault (s : State) (ctx : Nat) (sp : BitVec 16) : Option Cause :=
  match spaceKind sp with
  | 0 => if spaceNum sp = 0 then none else some (mkCause 3 8)
  | 1 => if s.pkg.peerOk (spaceNum sp) then none else some (mkCause 3 9)
  | 2 =>
    match s.context? ctx with
    | none => some (mkCause 3 9)
    | some c =>
      match c.ranges.find? (·.k == spaceNum sp) with
      | none => some (mkCause 3 9)
      | some r => if c.confidential && !r.shared then some (mkCause 3 9) else none
  | _ => some (mkCause 3 8)

/-- The 80-bit address as a number. -/
def vaOf (a : GAddr) : Nat := a.space.toNat * 2 ^ 64 + a.off.toNat

/-- What a translation answers. -/
inductive Xlate where
  | ok (t : Target)
  | fault (c : Cause) (tval : DWord)
  | miss
  deriving DecidableEq, Repr, Inhabited

/-- A cached translation's answer (R378): SYS 5.05, RD 5.02, WR 5.03, EX 5.04; a write needs D set. -/
def TlbEntry.use (e : TlbEntry) (kind : Nat) (va : Nat) (tval : DWord) : Xlate :=
  if e.sys then .fault (mkCause 5 5) tval
  else if kind = 2 then (if e.ex then .ok (.dev (e.pa + va % e.size)) else .fault (mkCause 5 4) tval)
  else if kind = 1 || kind = 4 then
    (if !e.wr then .fault (mkCause 5 3) tval else if !e.dirty then .miss else .ok (.dev (e.pa + va % e.size)))
  else if e.rd then .ok (.dev (e.pa + va % e.size)) else .fault (mkCause 5 2) tval

def TlbEntry.covers (e : TlbEntry) (ctx va : Nat) : Bool := e.ctx == ctx && e.va == va / e.size * e.size

/-- The cached entry for an address: the hearth's, else the die's (R379). -/
def State.tlbFind (s : State) (hearth ctx va : Nat) : Option TlbEntry :=
  match (s.hearth hearth).tlb.find? (·.covers ctx va) with
  | some e => some e
  | none => (s.die (dieOfHearth hearth)).tlb.find? (·.covers ctx va)

/-- Translation and protection of a checked space (Table 13.1, step 6). `kind`: 0 read, 1 write, 2 fetch, 3 stash side; 4 a write-back. -/
def State.translate (s : State) (hearth ctx kind : Nat) (a : GAddr) (tval : DWord) : Xlate :=
  match spaceKind a.space with
  | 1 => if (s.pkg.route (spaceNum a.space) a.off.toNat).isSome then .ok (.peer (spaceNum a.space) a.off.toNat) else .fault (mkCause 3 13) tval
  | 2 =>
    match (s.context? ctx).bind fun c => c.ranges.find? (·.k == spaceNum a.space) with
    | none => .fault (mkCause 3 9) (a.space.zeroExtend 64)
    | some r =>
      if r.length ≤ a.off.toNat then .fault (mkCause 3 12) a.off
      else if (kind = 1 || kind = 4) && !r.writable then .fault (mkCause 5 1) a.off
      else .ok (.host (r.base + a.off.toNat))
  | _ =>
    match s.tlbFind hearth ctx (vaOf a) with
    | some e => e.use kind (vaOf a) tval
    | none => .miss

/-- n bytes that the spec leaves open, of one use, from a place in it on (log 3). -/
def freeBytes (tick use place n : Nat) : List Byte := (List.range n).map fun i => BitVec.ofNat 8 (Config.choice tick use (place + i))

/-! ### Watched words (R285, R287, R291) -/

/-- A timeline with value v has reached threshold t (R291). -/
def timelineReached (v t : DWord) : Bool := decide (0 ≤ (v - t).toInt)

/-- The condition of a watch on a value (Table 15.6). -/
def WatchEntry.holds (w : WatchEntry) (v : DWord) : Bool :=
  if w.threshold then timelineReached v w.value else (v &&& w.mask) == (w.value &&& w.mask)

/-- A write's effect on an armed or holding entry (Table 15.8). -/
def WatchEntry.onWrite (w : WatchEntry) (v : DWord) : WatchEntry :=
  match w.state with
  | .armed => if w.holds v then { w with state := .pending } else w
  | .holding => if w.holds v then w else { w with state := .armed }
  | _ => w

/-- Evaluation of the entries of the watchpoint tables on the words that a write to memory touched, against their new values (R287). -/
def State.evalTable (s : State) (hit : Nat → Bool) : State :=
  let eval (w : WatchEntry) : WatchEntry := if hit w.pa then w.onWrite (BitVec.ofNat 64 (s.mem.readLE w.pa 8)) else w
  { s with dies := s.dies.map fun d => { d with watches := d.watches.map eval } }

/-- A write of a node, or of none, has been performed on the words that `hit` names: every watch and join watch on them is evaluated at once, against
the new value (R281, R287). Staged bytes are seen by the node's own join watches alone (R409). A join watch that fires leaves its line, and its record
follows (`fireJoins`). -/
def State.noteWrite (s : State) (node : Option Nat) (hit : Nat → Bool) : State :=
  let s := if node.isSome then s else s.evalTable hit
  let fires (w : JoinWatch) : Bool :=
    let own := (s.slot w.slot).node
    hit w.pa && (node.isNone || own == node) && decide ((BitVec.ofNat 64 (s.targetNat own (.dev w.pa) 8) : DWord).toInt ≤ 0)
  { s with joinWatches := s.joinWatches.filter (!fires ·), run := { s.run with fired := s.run.fired ++ s.joinWatches.filter fires } }

/-! ### The error ring (R369) -/

/-- Write a 64-byte record into a context's error ring, or count it dropped; answers whether it was written. -/
def State.writeRecord (s : State) (ctx : Nat) (bytes : List Byte) : State × Bool :=
  match s.context? ctx with
  | none => (s, false)
  | some c =>
    let w := s.mem.readLE c.ringAddr 8
    let r := s.mem.readLE (c.ringAddr + 8) 8
    if (w + 2 ^ 64 - r) % 2 ^ 64 < 2 ^ c.ringExp then
      let at' := c.ringAddr + 64 + 64 * (w % 2 ^ c.ringExp)
      ({ s with mem := (s.mem.putBytes at' (bytes ++ List.replicate (64 - bytes.length) 0)).writeLE c.ringAddr 8 (w + 1) }.noteWrite none fun w =>
        touches at' 64 w || touches c.ringAddr 8 w, true)
    else ({ s with mem := s.mem.writeLE (c.ringAddr + 16) 8 (s.mem.readLE (c.ringAddr + 16) 8 + 1) }.noteWrite none (touches (c.ringAddr + 16) 8), false)

/-- A fibre fault record (Table 21.6). -/
def State.faultRecord (s : State) (f : Fibre) (nest nohdl cont : Bool) (c : Cause) (tval : DWord) (pc : Word) : List Byte :=
  let h := s.hearthOf f
  leBytes 1 0x0A ++ leBytes 1 (nest.toNat + 2 * nohdl.toNat + 4 * cont.toNat) ++ leBytes 2 c.toNat ++ leBytes 4 pc.toNat
    ++ leBytes 8 tval.toNat ++ leBytes 8 (s.cohortOf f).number ++ leBytes 2 (f.crew * 256 + f.vlane) ++ leBytes 1 h
    ++ leBytes 5 0 ++ leBytes 8 (s.ltimeAt (dieOfHearth h))

end Sys2Proof.Machine
end

