-- ==== Sys2Proof/Machine/Mem.lean ====
section
/-! DEFINITION. Global accesses in flight: sending one, the L1 and its copies, returning a load, performing a store or an atomic at
its home, write-backs of mapped lines, and the steps of a release (R200 to R203, R211 to R226, R235 to R240). -/

namespace Sys2Proof.Machine

/-! ### Counters and landings (R40, R163, R437) -/

def Fibre.bumpLd (f : Fibre) : Fibre := { f with ld := f.ld + 1 }
def Fibre.dropLd (f : Fibre) : Fibre := { f with ld := f.ld - 1 }
def Fibre.bumpSt (f : Fibre) : Fibre := { f with st := f.st + 1 }
def Fibre.dropSt (f : Fibre) : Fibre := { f with st := f.st - 1 }

/-- %gwct := max(%gwct, GWCT) (R212). -/
def Fibre.raiseGwct (f : Fibre) (g : Nat) : Fibre := { f with arch := { f.arch with gwct := max f.arch.gwct g } }

/-- The named result lands: it writes the registers and predicates that are still its to write (R84, R437). An exited fibre's
results are discarded (R159). -/
def Fibre.land (f : Fibre) (name : Nat) (regs : List (Nat × Word)) (preds : List (Nat × Bool)) : Fibre :=
  match f.pend.find? (·.src == .op name) with
  | none => f
  | some p =>
    let f := { f with pend := f.pend.erase p }
    if f.exited then f
    else (f.putRegs (regs.filter fun x => p.regs.contains x.1)).putPreds (preds.filter fun x => p.preds.contains x.1)

/-! ### Operations (R221, R224) -/

/-- Bytes of an access. -/
def MemReq.size (r : MemReq) : Nat := match r.kind with | .writeBack _ => 128 | _ => r.ty.bits / 8
/-- The words that a write touches: n bytes, or those that a mask names (R287: partial writes count, bytes not written do not). -/
def MemReq.hits (r : MemReq) (pa : Nat) : Nat → Bool :=
  match r.kind with
  | .writeBack mask => fun w => (List.range 8).any fun i => decide (pa ≤ w + i) && mask.testBit (w + i - pa)
  | _ => touches pa r.size

/-- Two byte ranges of targets overlap. -/
def Target.overlaps (t : Target) (n : Nat) (u : Target) (m : Nat) : Bool :=
  match t, u with
  | .dev a, .dev b => decide (a < b + m) && decide (b < a + n)
  | .host a, .host b => decide (a < b + m) && decide (b < a + n)
  | .peer c a, .peer d b => c == d && decide (a < b + m) && decide (b < a + n)
  | _, _ => false

def MemReq.overlaps (r q : MemReq) : Bool := r.target.overlaps r.size q.target q.size

/-- A store, an atomic, a write-back or a join decrement: it writes at its home. -/
def MemKind.writes : MemKind → Bool | .load => false | _ => true
/-- Its destination registers are written when it returns. -/
def MemKind.returns : MemKind → Bool | .load | .atom _ => true | _ => false

/-- A write at a target makes hoist entries over its bytes invalid, in every fibre of the hearth (Table 12.6); an `ldh` still in flight
there records none when it returns. -/
def State.unhoist (s : State) (hearth : Nat) (t : Target) (n : Nat) : State :=
  let cs := (s.cohorts.filter (·.hearth == hearth)).map (·.uid)
  { s with
    fibres := s.fibres.map fun f =>
      if cs.contains f.cohort then { f with hoist := f.hoist.filter fun h => !h.target.overlaps h.size t n } else f
    ops := s.ops.map fun o =>
      if o.hearth = hearth ∧ o.req.target.overlaps o.req.size t n then { o with req := { o.req with hoist := false } } else o }

/-- Accesses that are translated after they are sent: join decrements and write-backs. -/
def MemKind.late : MemKind → Bool | .joinDec | .writeBack _ => true | _ => false

/-- Send an access: its counter rises and it joins the operations in flight (R163, R221). -/
def State.sendMem (s : State) (uid name : Nat) (r : MemReq) : State :=
  match s.fibre? uid with
  | none => s
  | some f =>
    let h := s.hearthOf f
    let op : MemOp := { id := name, uid := uid, hearth := h, pc := f.head, rep := f.rep, req := r, ready := !r.kind.late,
                        performed := false, value := 0, gwct := 0, expiry := 0, poison := false }
    let s := { s with ops := s.ops ++ [op] }
    let s := match r.kind with
      | .load | .atom _ => s.updFibre uid Fibre.bumpLd
      | .store => s.updFibre uid Fibre.bumpSt
      | _ => s
    if r.kind.writes && !r.kind.late then s.unhoist h r.target r.size else s

/-- Earlier operations of the same fibre that overlap this one and are not yet done. -/
def State.olderOverlap (s : State) (op : MemOp) (undone : MemOp → Bool) : Bool :=
  (s.ops.takeWhile (·.id != op.id)).any fun q => q.uid == op.uid && undone q && q.req.overlaps op.req

/-! ### The L1 (R200, R201, R211) -/

/-- The place of a fibre's last access to a 64-byte line at the L2. -/
def Fibre.lastAt (f : Fibre) (line : Nat) : Nat := ((f.lastL2.find? (·.1 == line)).map (·.2)).getD 0
def Fibre.setLast (f : Fibre) (line stamp : Nat) : Fibre :=
  { f with lastL2 := (line, stamp) :: f.lastL2.filter fun x => x.1 != line }

/-- The next place in the order of L2 accesses. -/
def State.stamp (s : State) : State × Nat :=
  ({ s with run := { s.run with nextStamp := s.run.nextStamp + 1 } }, s.run.nextStamp + 1)

/-- A live copy of a line in a hearth's L1. -/
def State.l1Live (s : State) (hearth line : Nat) : Option L1Line :=
  (s.hearth hearth).l1.find? fun l => l.line == line && decide (s.ltimeAt (dieOfHearth hearth) < l.expiry)

/-- The lease length of a launch in ns (Table 3.3). -/
def LaunchSlot.leaseNs (l : LaunchSlot) : Nat := if l.record.lease = 0 then 512 else 64 * 2 ^ (l.record.lease - 1)

/-- Fill a line of a hearth's L1 from the L2 with a lease; 8 ways of 256 sets, the set of a line by the low bits of its number (DESIGN
CHOICE, log 99), the victim free (R200, log 3). -/
def State.l1Fill (s : State) (hearth : Nat) (node : Option Nat) (lease line : Nat) : State × L1Line :=
  let die := dieOfHearth hearth
  let (s, e) := s.grantLease die false (line / 4) lease
  let (s, n) := s.stamp
  let new : L1Line := { line := line, bytes := s.targetBytes node (.dev (line * 64)) 64, expiry := e, stamp := n }
  let s := s.updHearth hearth fun h =>
    let rest := h.l1.filter fun l => l.line != line
    let same := rest.filter fun l => l.line % 256 == line % 256
    let rest := if same.length < 8 then rest
      else match same[Config.choice s.run.tick 1 line % 8]? with
        | some v => rest.erase v
        | none => rest
    { h with l1 := new :: rest }
  (s, new)

/-- A load's target answers it (R434), or a copy in its hearth's L1 that it may read does. -/
def State.answers (s : State) (f : Fibre) (t : Target) : Bool :=
  t.linked s || match t with | .dev pa => (s.l1Live (s.hearthOf f) (pa / 64)).any fun c => decide (f.lastAt (pa / 64) ≤ c.stamp) | _ => false

/-- What a load reads (R201, R206, R235): its value, poison, and the expiry of the copy it read, 0 for none. `evict` drops the L1
copy first, which is silent (R200). -/
def State.loadValue (s : State) (f : Fibre) (r : MemReq) (evict : Bool) : State × Nat × Bool × Nat :=
  let h := s.hearthOf f
  let slot := s.slotOf f
  match r.target with
  | .dev pa =>
    let line := pa / 64
    let s := if evict then s.updHearth h fun x => { x with l1 := x.l1.filter fun l => l.line != line } else s
    match (s.l1Live h line).filter fun c => decide (f.lastAt line ≤ c.stamp) with
    | some c => (s, leNat ((c.bytes.drop (pa % 64)).take r.size), false, c.expiry)
    | none =>
      if s.poisonedFor slot.node r.target r.size then (s.l2Load (dieOfHearth h) false (pa / 256), s.targetNat slot.node r.target r.size, true, 0)
      else
        let (s, c) := s.l1Fill h slot.node slot.leaseNs line
        let s := s.updFibre f.uid fun g => g.setLast line c.stamp
        (s, leNat ((c.bytes.drop (pa % 64)).take r.size), false, c.expiry)
  | .host ha => (s.l2Load (dieOfHearth h) true (ha / 256), s.targetNat none r.target r.size, s.poisoned r.target r.size, 0)
  | .peer _ _ => (s, s.targetNat none r.target r.size, s.poisoned r.target r.size, 0)

/-- Record a hoist entry at a time: it replaces that of its register, and the oldest where 8 others are valid (Table 12.6). -/
def Fibre.record (f : Fibre) (now : Nat) (h : HoistEntry) : Fibre :=
  let rest := f.hoist.filter fun x => x.reg != h.reg && decide (now < x.expiry)
  { f with hoist := (if rest.length < 8 then rest else rest.drop 1) ++ [h] }

/-- The hoist entry that a `chkh` finds valid (R236). -/
def State.hoistEntry (s : State) (f : Fibre) (reg : Nat) (a : GAddr) (size : Nat) : Option HoistEntry :=
  f.hoist.find? fun h => h.reg == reg && h.addr == a && h.size == size && decide (s.ltimeAt (dieOfHearth (s.hearthOf f)) < h.expiry)
def State.hoistValid (s : State) (f : Fibre) (reg : Nat) (a : GAddr) (size : Nat) : Bool := (s.hoistEntry f reg a size).isSome

/-! ### Atomics (R239) -/

/-- Signed or unsigned comparison of raw values. -/
def rawLess (t : Ty) (x y : Nat) : Bool := decide (t.num x < t.num y)

/-- RoundNE(old + b) of `.fadd`: one rounding, subnormals kept, the canonical NaN. For the default type, which is legal on the word (R86) but
no row of Table 13.3, what is written is free (DESIGN CHOICE, log 98). -/
def atomFaddVal (t : Ty) (x y : Nat) : Nat :=
  if t.isF then (t.fmt.finish .rne false (fAdd .rne (t.fmt.decode x) (t.fmt.decode y))).1
  else (Config.faddDefault (BitVec.ofNat 32 x) (BitVec.ofNat 32 y)).toNat

/-- The new value of Table 13.3, or none for a `.cas` that does not write. -/
def atomVal (op : AtomOp) (t : Ty) (old b e : Nat) : Option Nat :=
  match op with
  | .add => some ((old + b) % 2 ^ t.bits)
  | .min => some (if rawLess t b old then b else old)
  | .max => some (if rawLess t old b then b else old)
  | .and => some (old &&& b)
  | .or => some (old ||| b)
  | .xor => some (old ^^^ b)
  | .xch => some b
  | .cas => if old = e then some b else none
  | .incw => some (if b ≤ old then 0 else old + 1)
  | .decw => some (if old = 0 ∨ b < old then b else old - 1)
  | .fadd => some (atomFaddVal t old b)

/-! ### Writes at the home (R212, R213, R218, R221) -/

/-- The serving slice takes the lines that a write touches; the answer is the GWCT. Host lines likewise; peers answer 0. -/
def State.takeLines (s : State) (die : Nat) (t : Target) : State × Nat :=
  match t with
  | .dev pa => s.l2Store die false (pa / 256) (pa / 64 % 4)
  | .host ha => s.l2Store die true (ha / 256) (ha / 64 % 4)
  | .peer _ _ => (s, 0)

/-- The largest horizon of a host line over the dies (R206). -/
def State.hostHorizon (s : State) (line : Nat) : Nat := [0, 1, 2, 3].foldl (fun m d => max m (s.horizon d true line)) 0

/-- The host's home may take a line for itself: every die that holds it has its clock at the line's horizon + 8 ns (R206). -/
def State.hostLineFree (s : State) (line : Nat) : Bool :=
  s.l2.all fun x => !(x.host && x.line == line) || decide (x.horizon + 8 ≤ s.ltimeAt x.die)

/-- The host takes a line that dies may hold: it leaves all of them; the answer is the GWCT (R206, R212, R220). -/
def State.hostTakes (s : State) (line : Nat) : State × Nat :=
  let g := s.hostHorizon line
  ([0, 1, 2, 3].foldl (fun s d => s.evictL2 d true line) s, g)

/-- Where an access is performed and what it takes: an atomic on host memory at the host, everything else at the serving slice. -/
def MemReq.takes (r : MemReq) (s : State) (die : Nat) : State × Nat :=
  match r.kind, r.target with
  | .atom _, .host ha => s.hostTakes (ha / 256)
  | _, t => s.takeLines die t

/-- An atomic on host memory waits for the leased copies of its line (R206); every access to it for the Xandex link. -/
def State.homeReady (s : State) (r : MemReq) : Bool :=
  r.target.linked s && match r.kind, r.target with
  | .atom _, .host ha => s.hostLineFree (ha / 256)
  | _, _ => true

/-- The bytes that a write-back writes, as runs: byte i of 128 where the mask is set. -/
def maskedBytes (mask data : Nat) : List (Nat × Byte) :=
  (List.range 128).filterMap fun i => if mask.testBit i then some (i, BitVec.ofNat 8 (data / 2 ^ (8 * i))) else none

def Target.plus (t : Target) (i : Nat) : Target :=
  match t with | .dev a => .dev (a + i) | .host a => .host (a + i) | .peer c a => .peer c (a + i)

/-- A write-back of a poisoned line poisons the granules that it writes; one that writes all of a granule clears its poison (R413). A node's
goes to its staged lines. -/
def State.writeBackPoison (s : State) (node : Option Nat) (t : Target) (mask : Nat) (bad : Bool) : State :=
  let hit (g : Nat) : List Bool :=
    (List.range 64).map fun j => decide (t.off ≤ g * 64 + j) && mask.testBit (g * 64 + j - t.off)
  let gs (p : List Bool → Bool) : List Nat := ((granulesOf t.off 128).filter fun g => p (hit g)).map fun g => t.granule + g - t.off / 64
  if bad then s.taintFor node t (gs (·.contains true)) else s.cleanseFor node t (gs fun l => !l.contains false)

/-- Perform a store, an atomic, a write-back or a join decrement at its home, served by a die's slice, as one event (R220, R221): the
state, and whether it wrote. One whose flit was not delivered carries poison (R357). Unit copies and watches are the event's own concern. -/
def State.performHome (s : State) (op : MemOp) (node : Option Nat) (die : Nat) : State × Bool :=
  let r := op.req
  let (s, g) := r.takes s die
  let (s, n) := s.stamp
  let s := match r.target with
    | .dev pa => s.updFibre op.uid fun f => f.setLast (pa / 64) n
    | _ => s
  let old := s.targetNat node r.target r.size
  let bad := s.poisonedFor node r.target r.size || op.poison
  let (s, wrote) := match r.kind with
    | .store =>
      let s := s.writeBytes node die r.target (leBytes r.size r.data)
      (if op.poison then s.taintFor node r.target (r.target.granules r.size) else s, true)
    | .atom a =>
      match atomVal a r.ty old r.data r.expect with
      | some v => if bad then (s, false) else (s.writeBytes node die r.target (leBytes r.size v), true)
      | none => (s, false)
    | .joinDec => if bad then (s, false) else (s.writeBytes node die r.target (leBytes 8 ((old + 2 ^ 64 - r.data) % 2 ^ 64)), true)
    | .writeBack mask =>
      (((maskedBytes mask r.data).foldl (fun (s : State) (x : Nat × Byte) => s.writeBytes node die (r.target.plus x.1) [x.2]) s).writeBackPoison
        node r.target mask op.poison, true)
    | .load => (s, false)
  (s.updOp op.id fun o => { o with performed := true, value := old, gwct := g, poison := bad && op.req.kind.returns }, wrote)

/-! ### Dirty mapped lines (R205, R245) and the steps of a release (R214) -/

/-- The 128 bytes of a stash line as a number. -/
def Cohort.lineData (c : Cohort) (n : Nat) : Nat := leNat (Memory.bytes c.stash (n * 128) 128)

/-- The write-back of one dirty line, as a request; `dst` keeps the number of the line. -/
def writeBackReq (c : Cohort) (l : StashLine) : Option MemReq :=
  match l.mapped, l.target with
  | some a, some t =>
    if l.dirty = 0 then none
    else some { kind := .writeBack l.dirty, addr := a, target := t, ty := .b128, dst := l.n, data := c.lineData l.n, expect := 0, acq := none,
                hoist := false }
  | _, _ => none

/-- Send the write-backs of the dirty lines of a cohort that a test picks, and clear their masks: the snapshot of R245. -/
def State.writeBacks (s : State) (uid cohort : Nat) (p : Nat → Bool) : State :=
  match s.cohort? cohort with
  | none => s
  | some c =>
    let rs := (c.lines.filter fun l => p l.n).filterMap fun l => (writeBackReq c l).map fun r => (r, l.poison)
    let base := s.run.nextOp
    let s := (rs.zipIdx).foldl (fun s (r, i) => (s.sendMem uid (base + i) r.1).updOp (base + i) fun o => { o with poison := r.2 }) s
    let s := { s with run := { s.run with nextOp := base + rs.length } }
    s.updCohort cohort fun c => { c with lines := c.lines.map fun l => if p l.n then { l with dirty := 0 } else l }

/-- Operations of a fibre that its release waits for: stores, atomics and write-backs not yet acknowledged. -/
def State.unacked (s : State) (uid : Nat) : Bool :=
  s.ops.any fun o => o.uid == uid && (match o.req.kind with | .store | .writeBack _ | .joinDec => true | .atom _ => true | .load => false)

/-- The write-backs in flight of a cohort's lines, in whichever fibre's name (R205, R214 step 2). -/
def State.cohortFlights (s : State) (cohort : Nat) : List MemOp :=
  s.ops.filter fun o => ((s.fibre? o.uid).map (·.cohort)) == some cohort && (match o.req.kind with | .writeBack _ => true | _ => false)

/-- The bytes of a stash line whose write-back is not yet performed: memory does not hold them, so that no refill may replace them. -/
def State.lineFlight (s : State) (cohort n : Nat) (a : GAddr) : Nat :=
  (s.cohortFlights cohort).foldl (fun (m : Nat) o =>
    match o.req.kind with
    | .writeBack k => if !o.performed && o.req.dst = n && o.req.addr = a then m ||| k else m
    | _ => m) 0

/-- A write-back of the fibre is outstanding (R245). -/
def State.flushing (s : State) (uid : Nat) : Bool :=
  s.ops.any fun o => o.uid == uid && (match o.req.kind with | .writeBack _ => true | _ => false)

/-- Step 2 of a release begins once step 1 is done (Table 12.4). -/
def State.releaseStep2 (s : State) (uid : Nat) : State :=
  match s.fibre? uid with
  | none => s
  | some f =>
    match f.order with
    | none => s
    | some sc =>
      if f.flushed || decide (sc.rank < Scope.hth.rank) || s.unacked uid then s
      else (s.updFibre uid fun f => { f with flushed := true }).writeBacks uid f.cohort fun _ => true

/-- The release's wait is over: steps 1 to 3 of Table 12.4. Step 2 takes in the write-backs of the cohort's lines that another fibre's
`sflush`, `sumap` or release has sent. -/
def State.releaseDone (s : State) (f : Fibre) (sc : Scope) : Bool :=
  let now := s.ltimeAt (dieOfHearth (s.hearthOf f))
  if sc = .fib then true
  else !s.unacked f.uid && decide (f.arch.gwct + 8 ≤ now)
    && (decide (sc.rank < Scope.hth.rank)
      || (f.flushed && (s.cohortFlights f.cohort).isEmpty && decide ((s.cohortOf f).flushed + 8 ≤ now)))

/-- Before a release is performed, the fibre's outstanding loads have their values: they precede it (R222, R224). -/
def State.fixLoads (s : State) (uid : Nat) : State :=
  match s.fibre? uid with
  | none => s
  | some f =>
    (s.ops.filter fun o => o.uid == uid && o.req.kind == .load && !o.performed).foldl (fun s o =>
      let (s, v, bad, e) := s.loadValue f o.req false
      s.updOp o.id fun o => { o with performed := true, value := v, expiry := e, poison := bad || o.poison }) s

end Sys2Proof.Machine
end

