-- ==== Sys2Proof/Machine/StashPort.lean ====
section
/-! DEFINITION. The stash port: lines, loads and stores, mapping, full and empty, and the fill of a mapped line (R204, R205, R241
to R248). -/

namespace Sys2Proof.Machine

/-! ### Lines -/

/-- A region line as it stands at allocation: empty (R46). -/
def StashLine.region (n : Nat) : StashLine :=
  { n := n, full := false, mapped := none, target := none, dirty := 0, expiry := 0, poison := false }

def Cohort.line (c : Cohort) (n : Nat) : StashLine := (c.lines.find? (·.n == n)).getD (StashLine.region n)
def Cohort.setLine (c : Cohort) (l : StashLine) : Cohort := { c with lines := l :: c.lines.filter fun x => x.n != l.n }
def Cohort.updLine (c : Cohort) (n : Nat) (g : StashLine → StashLine) : Cohort := c.setLine (g (c.line n))

/-- A mapped line is filled while it is full and its lease is live (R205, R211). -/
def StashLine.filled (l : StashLine) (now : Nat) : Bool := l.mapped.isSome && l.full && decide (now < l.expiry)
/-- How `tfe` and a load see the line: an unfilled mapped line reads as empty (R246). -/
def StashLine.reads (l : StashLine) (now : Nat) : Bool := if l.mapped.isSome then l.filled now else l.full

/-- %ltime as a cohort's holder reads it. -/
def State.cohortTime (s : State) (c : Cohort) : Nat := s.ltimeAt (dieOfHearth c.hearth)

/-- The line that a stash access touches (R242). -/
def StashOp.firstLine : StashOp → Nat
  | .lds o _ _ | .sts o _ _ => o / 128
  | .smap f _ _ | .sumap f _ | .sflush f _ | .sfe f _ _ _ | .tfe f _ _ _ => f
/-- The lines it acts on. -/
def StashOp.count : StashOp → Nat
  | .lds .. | .sts .. => 1
  | .smap _ n _ | .sumap _ n | .sflush _ n | .sfe _ n _ _ | .tfe _ n _ _ => n
def StashOp.covers (op : StashOp) (n : Nat) : Bool := decide (op.firstLine ≤ n) && decide (n < op.firstLine + op.count)

/-! ### Waking (R246, R205) -/

/-- Fibres of a cohort stalled on a line become ready. -/
def State.wakeLine (s : State) (cohort n : Nat) : State :=
  { s with fibres := s.fibres.map fun f =>
      if f.cohort = cohort then
        { f with waits := f.waits.filter fun w => match w with
            | .emptyLine o _ => o / 128 != n
            | .mapFill l => l != n
            | _ => true }
      else f }

/-- Words stalled on lines whose mapping changes look at their line again (R242). -/
def State.wakeLines (s : State) (cohort first count : Nat) : State := (List.range count).foldl (fun s i => s.wakeLine cohort (first + i)) s

/-- Bytes written into the stash by an engine or a store. -/
def Cohort.putStash (c : Cohort) (o : Nat) (bs : List Byte) : Cohort := { c with stash := Memory.putBytes c.stash o bs }

/-- A line becomes full (R246, R309). -/
def State.fillLine (s : State) (cohort n : Nat) : State :=
  (s.updCohort cohort fun c => c.updLine n fun l => { l with full := true }).wakeLine cohort n

/-- The dirty bits of n bytes at o within their line. -/
def dirtyBits (o n : Nat) : Nat := (2 ^ n - 1) * 2 ^ (o % 128)

/-! ### The words (R242, R244 to R246) -/

/-- What performing a stash word answers: done, the fibre stalls on an empty region line or an unfilled mapped line, or the word raises. -/
inductive StashOut where
  | done (s : State)
  | stall (w : Wait)
  | raise (c : Cause) (tval : DWord)

/-- The lines of a range that a test picks: the first one's number. -/
def firstLine (first count : Nat) (p : Nat → Bool) : Option Nat := ((List.range count).map (first + ·)).find? p

/-- Perform a stash word of fibre uid at the stash port. What its word has checked at issue is checked again there, where words between may
have changed its lines: a mapped line for `smap` and `sfe`, poison for `lds` (R241, R243, R414; DESIGN CHOICE, log 103). -/
def State.stashOp (s : State) (uid name : Nat) (op : StashOp) : StashOut :=
  match s.fibre? uid with
  | none => .done s
  | some f =>
    let c := s.cohortOf f
    let now := s.cohortTime c
    match op with
    | .lds o ty _ =>
      if f.exited then .done s else
      let l := c.line (o / 128)
      if l.mapped.isSome && !l.filled now then .stall (.mapFill (o / 128))
      else if l.mapped.isNone && !l.full then .stall (.emptyLine o s.ltime)
      else if l.poison then .raise (mkCause 10 2) (BitVec.ofNat 64 o)
      else
        let v := leNat (Memory.bytes c.stash o (ty.bits / 8))
        let dst := match op with | .lds _ _ d => d | _ => 0
        .done (s.updFibre uid fun f => f.land name ((ty.words v).zipIdx.map fun (w, i) => (dst + i, w)) [])
    | .sts o ty data =>
      let l := c.line (o / 128)
      if l.mapped.isSome && !l.filled now then .stall (.mapFill (o / 128))
      else
        let n := ty.bits / 8
        .done (s.updCohort f.cohort fun c =>
          let c := c.putStash o (leBytes n data)
          if l.mapped.isSome then c.updLine (o / 128) fun l => { l with dirty := l.dirty ||| dirtyBits o n } else c)
    | .smap first count g =>
      match firstLine first count fun n => (c.line n).mapped.isSome with
      | some n => .raise (mkCause 7 3) (BitVec.ofNat 64 n)
      | none => .done ((s.updCohort f.cohort fun c => (List.range count).foldl (fun c i =>
        c.setLine { n := first + i, full := false, mapped := some ⟨g.space, g.off + BitVec.ofNat 64 (128 * i)⟩, target := none,
                    dirty := 0, expiry := 0, poison := false }) c).wakeLines f.cohort first count)
    | .sflush first count =>
      .done (s.writeBacks uid f.cohort fun n => decide (first ≤ n) && decide (n < first + count))
    | .sumap first count =>
      let s := s.writeBacks uid f.cohort fun n => decide (first ≤ n) && decide (n < first + count)
      .done ((s.updCohort f.cohort fun c => { c with lines := c.lines.map fun (l : StashLine) =>
        if first ≤ l.n ∧ l.n < first + count ∧ l.mapped.isSome then StashLine.region l.n else l }).wakeLines f.cohort first count)
    | .sfe first count empty w =>
      if (firstLine first count fun n => (c.line n).mapped.isSome).isSome then .raise (mkCause 7 2) (w.setWidth 64)
      else .done ((List.range count).foldl (fun s i =>
        if empty then s.updCohort f.cohort fun c => c.updLine (first + i) fun l => { l with full := false }
        else s.fillLine f.cohort (first + i)) s)
    | .tfe first count empty p =>
      if f.exited then .done s else
      let v := (List.range count).all fun i => (c.line (first + i)).reads now != empty
      .done (s.updFibre uid fun f => f.land name [] [(p.toNat, v)])

/-! ### The fill of a mapped line (R205, R211) -/

/-- Fill line n of a cohort from a target: only its clean bytes change, those whose write-back is still to be performed apart; a lease is
taken and the line is full. Poison of a byte that stands, and poison that the read meets, stays with the line (R413, R414). -/
def State.fillMapped (s : State) (cohort n : Nat) (t : Target) : State :=
  match s.cohort? cohort with
  | none => s
  | some c =>
    let l := c.line n
    let slot := s.slot c.slot
    let die := dieOfHearth c.hearth
    let (s, e) := match t with
      | .dev pa => s.grantLease die false (pa / 256) slot.leaseNs
      | .host ha => s.grantLease die true (ha / 256) slot.leaseNs
      | .peer _ _ => (s, 0)
    let bs := s.targetBytes slot.node t 128
    let stands := l.dirty ||| ((l.mapped.map fun a => s.lineFlight cohort n a).getD 0)
    let bad := s.poisonedFor slot.node t 128 || (l.poison && stands != 0)
    let c' := bs.zipIdx.foldl (fun (c : Cohort) (x : Byte × Nat) =>
      if stands.testBit x.2 then c else { c with stash := Memory.put c.stash (n * 128 + x.2) x.1 }) c
    let s := s.updCohort cohort fun _ => c'.setLine { l with full := true, target := some t, expiry := e, poison := bad }
    s.wakeLine cohort n

/-- A mapped line's lease ends (R205): it returns to unfilled, keeping its dirty bytes. -/
def StashLine.expire (l : StashLine) : StashLine := { l with full := false }

end Sys2Proof.Machine
end

