-- ==== Sys2Proof/Machine/Barriers.lean ====
section
/-! DEFINITION. Cohort barriers and device barriers (R165 to R171). -/

namespace Sys2Proof.Machine

/-! ### Cohort barriers (Table 9.6) -/

/-- A barrier at allocation: phase 0, no arrivals, no pending bytes (R46). -/
def Barrier.fresh (n : Nat) : Barrier := { n := n, pend := 0, flt := false, lflt := false, arrived := [], phase := 0 }
def Cohort.bar (c : Cohort) (n : Nat) : Barrier := (c.bars.find? (·.n == n)).getD (Barrier.fresh n)
def Cohort.updBar (c : Cohort) (n : Nat) (g : Barrier → Barrier) : Cohort :=
  { c with bars := g (c.bar n) :: c.bars.filter fun b => b.n != n }

/-- Phase completion (Table 9.6). -/
def Barrier.complete (b : Barrier) : Barrier :=
  { b with arrived := [], lflt := b.flt, flt := false, phase := (b.phase + 1) % 256 }

/-- A phase completes when ARR = LIVE and PEND = 0, with some fibre live. -/
def State.barWhole (s : State) (cohort : Nat) (b : Barrier) : Bool :=
  b.pend == 0 && b.arrived.length == (s.liveOf cohort).length && !b.arrived.isEmpty

/-- Complete the phase of barrier n if it is whole, waking its waiters (R167). -/
def State.barCheck (s : State) (cohort n : Nat) : State :=
  match s.cohort? cohort with
  | none => s
  | some c =>
    if s.barWhole cohort (c.bar n) then
      let s := s.updCohort cohort fun c => c.updBar n Barrier.complete
      { s with fibres := s.fibres.map fun f =>
          if f.cohort = cohort then { f with waits := f.waits.filter fun w => w != .bar n } else f }
    else s

/-- Every barrier of a cohort, after a fibre has left it. -/
def State.barCheckAll (s : State) (cohort : Nat) : State :=
  match s.cohort? cohort with
  | none => s
  | some c => (c.bars.map (·.n)).foldl (fun s n => s.barCheck cohort n) s

/-- Arrival: sets the fibre's bit. -/
def State.barArrive (s : State) (f : Fibre) (n : Nat) : State :=
  (s.updCohort f.cohort fun c => c.updBar n fun b =>
    if b.arrived.contains f.place then b else { b with arrived := b.arrived ++ [f.place] }).barCheck f.cohort n

/-- Wait: if the fibre's bit is set, it is blocked until the phase completes. -/
def State.barWait (s : State) (f : Fibre) (n : Nat) : State :=
  if ((s.cohortOf f).bar n).arrived.contains f.place then s.updFibre f.uid fun f => { f with waits := f.waits ++ [.bar n] } else s

/-- Expect adds bytes to PEND. -/
def State.barExpect (s : State) (f : Fibre) (n v : Nat) : State :=
  (s.updCohort f.cohort fun c => c.updBar n fun b => { b with pend := b.pend + v }).barCheck f.cohort n

/-- An engine completion subtracts the bytes delivered; below −2^31, FLT is set and PEND is 0. -/
def Barrier.deliver (b : Barrier) (bytes : Nat) : Barrier :=
  let p := b.pend - bytes
  if p < -(2 ^ 31) then { b with flt := true, pend := 0 } else { b with pend := p }
def State.barDeliver (s : State) (cohort n bytes : Nat) : State :=
  (s.updCohort cohort fun c => c.updBar n fun b => b.deliver bytes).barCheck cohort n

/-- An engine command that names the barrier halts: FLT, and the bytes that it owed. Table 9.6 bounds PEND on its completion row alone; the
counter holds 32 bits (Table 0.1), so that the bound holds here too (DESIGN CHOICE, log 98). -/
def State.barHalt (s : State) (cohort n owed : Nat) : State :=
  (s.updCohort cohort fun c => c.updBar n fun b => { b.deliver owed with flt := true }).barCheck cohort n

/-- The status word of Table 9.5. -/
def State.barStatus (s : State) (c : Cohort) (n : Nat) : DWord :=
  let b := c.bar n
  BitVec.ofInt 32 b.pend ++ BitVec.ofBool b.flt ++ BitVec.ofBool b.lflt ++ BitVec.ofNat 11 b.arrived.length
    ++ BitVec.ofNat 11 (s.liveOf c.uid).length ++ BitVec.ofNat 8 b.phase

/-! ### Device barriers (R170, R171) -/

def DevBar.is (b : DevBar) (slot n : Nat) : Bool := b.slot == slot && b.n == n
def State.devBar? (s : State) (slot n : Nat) : Option DevBar := s.devBars.find? (·.is slot n)
def State.updDevBar (s : State) (slot n : Nat) (g : DevBar → DevBar) : State :=
  { s with devBars := s.devBars.map fun b => if b.is slot n then g b else b }

/-- Allocate the entry at the first use. -/
def State.devBarAlloc (s : State) (slot n : Nat) : State :=
  if (s.devBar? slot n).isSome then s
  else { s with devBars := s.devBars ++ [{ slot := slot, n := n, phase := 0, arrived := [], waiting := [], wakes := [] }] }

/-- The live fibres of a launch, those of crews gathered from its kindling among them: R170 says 'every live fibre started by the launch'
(DESIGN CHOICE, log 98). -/
def State.launchLive (s : State) (slot : Nat) : List Fibre :=
  s.fibres.filter fun f => !f.exited && (s.cohortOf f).slot == slot

/-- The windows of R171: the hearths that hold waiters, ranked by ascending ID modulo 192 from (P × 7) mod 192, sixteen to a window,
window k admitted at t0 + 100 ns × k. -/
def wakeWindows (t0 phase : Nat) (waiters : List (Nat × Nat)) : List (Nat × List Nat) :=
  let order := (List.range 192).map fun i => (phase * 7 + i) % 192
  let hs := order.filter fun h => waiters.any fun w => w.2 % 192 == h
  (List.range ((hs.length + 15) / 16)).map fun k =>
    (t0 + 100 * k, (waiters.filter fun w => ((hs.drop (16 * k)).take 16).contains (w.2 % 192)).map (·.1))

/-- Complete the phase of a device barrier if it is whole: its waiters wake by windows. -/
def State.devBarCheck (s : State) (slot n : Nat) : State :=
  match s.devBar? slot n with
  | none => s
  | some b =>
    if !b.arrived.isEmpty && b.arrived.length == (s.launchLive slot).length then
      let ws := b.waiting.filterMap fun u => (s.fibre? u).map fun f => (u, s.hearthOf f)
      s.updDevBar slot n fun b =>
        { b with arrived := [], waiting := [], phase := (b.phase + 1) % 2 ^ 32, wakes := b.wakes ++ wakeWindows s.ltime b.phase ws }
    else s

def State.devBarCheckAll (s : State) (slot : Nat) : State :=
  ((s.devBars.filter (·.slot == slot)).map (·.n)).foldl (fun s n => s.devBarCheck slot n) s

def State.devArrive (s : State) (f : Fibre) (n : Nat) : State :=
  let slot := (s.cohortOf f).slot
  (s.updDevBar slot n fun b => if b.arrived.contains f.uid then b else { b with arrived := b.arrived ++ [f.uid] }).devBarCheck slot n

def State.devWait (s : State) (f : Fibre) (n : Nat) : State :=
  let slot := (s.cohortOf f).slot
  if ((s.devBar? slot n).map (·.arrived.contains f.uid)).getD false then
    (s.updDevBar slot n fun b => { b with waiting := b.waiting ++ [f.uid] }).updFibre f.uid fun f =>
      { f with waits := f.waits ++ [.devBar n] }
  else s

/-- The window whose time has come wakes its fibres. -/
def State.devWake (s : State) (slot n : Nat) : State :=
  match s.devBar? slot n with
  | none => s
  | some b =>
    match b.wakes.find? fun w => decide (w.1 ≤ s.ltime) with
    | none => s
    | some w =>
      let s := s.updDevBar slot n fun b => { b with wakes := b.wakes.erase w }
      { s with fibres := s.fibres.map fun f =>
          if w.2.contains f.uid then { f with waits := f.waits.erase (.devBar n) } else f }

end Sys2Proof.Machine
end

