-- ==== Sys2Proof/Machine/Ops.lean ====
section
/-! DEFINITION. The operations that every family shares: a fibre's exit, taking a cause and returning from its handler (R38, R76,
R159, R278, R382, R387, R418), over the operations of the files that this one imports. -/

namespace Sys2Proof.Machine

/-! ### Leaving (R76, R159, R278) -/

/-- A fibre leaves its crew's sets: mask bits, arrival bits, open presentations (R76, R159, Table 9.6). -/
def State.leave (s : State) (f : Fibre) : State :=
  let s := s.updCohort f.cohort fun c =>
    { c with
      bars := c.bars.map fun b => { b with arrived := b.arrived.filter (· != f.place) }
      crews := c.crews.map fun w => if w.number = f.crew then
          { w with masks := w.masks.map fun m => m &&& ~~~ (BitVec.ofNat 32 (2 ^ f.vlane)),
                   rdvs := w.rdvs.map fun r => { r with members := r.members.filter (·.uid != f.uid) } }
        else w }
  { s with
    devBars := s.devBars.map fun b => { b with arrived := b.arrived.filter (· != f.uid), waiting := b.waiting.filter (· != f.uid) } }

/-- Fibres that are saved, or that leave the state, leave the sequencers of their fences (R216, R230, R391; DESIGN CHOICE, log 103). -/
def State.unsequence (s : State) (gone : Nat → Bool) : State :=
  { s with sequencers := s.sequencers.map fun q =>
      { q with arrived := q.arrived.filter (!gone ·), accepted := q.accepted.filter (!gone ·) } }

/-- The join decrement of an exiting fibre, as the effects of its exit (R275, R278): a release at `.dev`, then the atomic. -/
def Fibre.joinFx (f : Fibre) : List Fx :=
  if f.join.off = 0 then []
  else [.release .dev, .mem { kind := .joinDec, addr := f.join, target := .dev 0, ty := .s64, dst := 0, data := f.rangeLen, expect := 0,
                              acq := none, hoist := false }]

/-- A fibre exits (R159): it leaves every set and offers no key; outstanding operations complete as issued, and what its last group has
still to do keeps its order behind the release and the acquire that hold it back. -/
def State.exitFibre (s : State) (uid : Nat) : State :=
  match s.fibre? uid with
  | none => s
  | some f =>
    let s := s.leave f
    let s' := { s with run := { s.run with nextOp := s.run.nextOp + f.joinFx.length } }
    s'.updFibre uid fun f =>
      { f with
        exited := true, waits := [], hoist := [], demoted := false,
        deferred := f.deferred ++ (f.joinFx.zipIdx.map fun (x, i) => (s.run.nextOp + i, x)) }

/-! ### Leaving (R159): what a fibre's exit may complete -/

/-- The fibre exits, once, and every barrier that is whole without it completes. -/
def State.exitAll (s : State) (uid : Nat) : State :=
  match s.fibre? uid with
  | none => s
  | some f =>
    if f.exited then s else
    let slot := (s.cohortOf f).slot
    (((s.exitFibre uid).barCheckAll f.cohort)).devBarCheckAll slot

/-! ### Taking a cause and returning (R38, R382, R387, R418) -/

/-- The launch's handler entry, unless it has none. -/
def LaunchSlot.handlerPc (l : LaunchSlot) : Option Word := if l.record.handler = 0xFFFFFFFF then none else some l.record.handler

/-- A wait for Garley or for the removal of translations stands until its reply (R386). -/
def Wait.served : Wait → Bool | .svc .. | .tlbi .. => true | _ => false

/-- The trap entry of R382 in a fibre: the saved registers, handler mode, the handler's PC; what the fibre stood blocked by ends, and
nothing else changes. -/
def Fibre.enter (f : Fibre) (h : Word) (c : Cause) (tval : DWord) (pc : Word) : Fibre :=
  { f with arch := { f.arch with cause := c, epc := pc, tval := tval, handler := true, pc := h }, waits := f.waits.filter Wait.served }

/-- R382 in fibre uid at head PC `pc`: in handler mode, or with no handler, the fibre ends with a fault record. -/
def State.takeCause (s : State) (uid : Nat) (c : Cause) (tval : DWord) (pc : Word) : State :=
  match s.fibre? uid with
  | none => s
  | some f =>
    let cont := c.toNat / 32 == 10
    if f.arch.handler then
      ((s.writeRecord (s.ctxOf f) (s.faultRecord f true false cont c tval pc)).1).exitAll uid
    else match (s.slotOf f).handlerPc with
      | none => ((s.writeRecord (s.ctxOf f) (s.faultRecord f false true cont c tval pc)).1).exitAll uid
      | some h => s.updFibre uid fun f => f.enter h c tval pc

/-- Raise a cause in a fibre: a class 10 cause takes its containment action first (Table 23.5). A node that aborts writes one record (R412);
one whose staged lines commit is uncontained already (R410). -/
def State.raise (s : State) (uid : Nat) (c : Cause) (tval : DWord) (pc : Word) : State :=
  match s.fibre? uid with
  | none => s
  | some f =>
    if c.toNat / 32 = 10 then
      let l := s.slotOf f
      if l.aborting.isSome then s
      else if l.node.isSome && !l.leaving && decide (l.retries < 2) then
        let s := (s.writeRecord l.ctx (s.faultRecord f false false true c tval pc)).1
        { s.updSlot l.n fun l => { l with aborting := some c } with run := { s.run with urgent := s.run.urgent ++ [.containedNodeAbort l.n c] } }
      else match s.context? l.ctx with
        | none => s.takeCause uid c tval pc
        | some ctx =>
          if ctx.recovery.rps ≠ 0 then { s with run := { s.run with escalations := s.run.escalations ++ [ctx.id] } }
          else s.takeCause uid c tval pc
    else s.takeCause uid c tval pc

/-- `tret` (R387): the PC from %epc, handler mode left, everything else as it stands. -/
def Fibre.return (f : Fibre) : Fibre := { f with arch := { f.arch with pc := f.arch.epc, handler := false } }

end Sys2Proof.Machine
end

