-- ==== Sys2Proof/Machine/Translate.lean ====
section
/-! DEFINITION. The page walk, the translation caches and Garley's frames (R378 to R381, R422). -/

namespace Sys2Proof.Machine

/-! ### Table entries (Table 21.4) -/

/-- Bits hi..lo of a table entry. -/
def entryBits (e : Nat) (lo n : Nat) : Nat := e / 2 ^ lo % 2 ^ n
def entryV (e : Nat) : Bool := e.testBit 0
def entryLeaf (e : Nat) : Bool := e.testBit 1
def entryPa (e : Nat) : Nat := entryBits e 12 40 * 4096
def entrySrv (e : Nat) : Nat := entryBits e 61 2
def entrySize (e : Nat) : Nat := entryBits e 56 4
/-- The reserved fields [55:52] and [11:7] hold 0. -/
def entryClean (e : Nat) : Bool := entryBits e 52 4 == 0 && entryBits e 7 5 == 0

/-- The page size of a SIZE code; 0 for the reserved ones. -/
def pageSize (c : Nat) : Nat :=
  match c with | 0 => 2 ^ 12 | 1 => 2 ^ 16 | 2 => 2 ^ 21 | 3 => 2 ^ 25 | 4 => 2 ^ 30 | 5 => 2 ^ 34 | _ => 0
/-- The level at which a SIZE code may stand; 5 for the reserved ones. -/
def pageLevel (c : Nat) : Nat := if c ≤ 2 then 0 else if c ≤ 5 then 1 else 5

/-- The index of an offset at a level (R378). -/
def walkIndex (space off lvl : Nat) : Nat :=
  match lvl with
  | 4 => space
  | 3 => off / 2 ^ 51 % 2 ^ 13
  | 2 => off / 2 ^ 38 % 2 ^ 13
  | 1 => off / 2 ^ 25 % 2 ^ 13
  | _ => off / 2 ^ 12 % 2 ^ 13

/-- The top of device memory (R422). -/
def memTop : Nat := 0x9000000000

/-- What a walk finds: a usable leaf and where it stands, an entry that asks for a service, one that is not valid and asks for none, a cause, or
a table that can't be read until its stacks serve again. -/
inductive WalkOut where
  | leaf (e : TlbEntry) (at' : Nat)
  | service (lvl srv size at' : Nat)
  | absent (lvl : Nat) (c : Cause)
  | fault (c : Cause)
  | held
  deriving DecidableEq, Repr, Inhabited

/-- A class 4 cause: 8 × kind + level (R377). Kind 4 stands for the stash-side accesses that write, the write-backs: their kind is 3. -/
def fault4 (kind lvl : Nat) : Cause := mkCause 4 (8 * min kind 3 + lvl)

/-- The checks on a leaf at a level, in the order of R378; a page past the top of memory is refused as a reserved field is (R422). `sys`: the access may reach system pages. -/
def leafCheck (ctx space off kind lvl e at' : Nat) (sys : Bool) : WalkOut :=
  let sz := pageSize (entrySize e)
  let pa := entryPa e / max 1 sz * sz
  if memTop < pa + sz || memTop ≤ entryPa e then .fault (fault4 kind 6)
  else if 2 ≤ lvl || pageLevel (entrySize e) != lvl then .fault (fault4 kind 5)
  else if e.testBit 60 && !sys then .fault (mkCause 5 5)
  else if (kind = 0 || kind = 3) && !e.testBit 2 then .fault (mkCause 5 2)
  else if (kind = 1 || kind = 4) && !e.testBit 3 then .fault (mkCause 5 3)
  else if kind = 2 && !e.testBit 4 then .fault (mkCause 5 4)
  else .leaf { ctx := ctx, va := space * 2 ^ 64 + off / sz * sz, size := sz, pa := pa, rd := e.testBit 2, wr := e.testBit 3,
               ex := e.testBit 4, sys := e.testBit 60, dirty := e.testBit 6 || kind == 1 || kind == 4, emb := e.testBit 63 } at'

/-- What one table entry says at a level: an answer, or the next table. -/
def entryOut (m : Memory) (ctx space off kind lvl t : Nat) (sys : Bool) : WalkOut ⊕ Nat :=
  let at' := t + 8 * walkIndex space off lvl
  let e := m.readLE at' 8
  if !entryV e then
    .inl (if entrySrv e = 1 ∨ entrySrv e = 2 then .service lvl (entrySrv e) (entrySize e) at'
      else if entrySrv e = 3 then .absent lvl (fault4 kind 6) else .absent lvl (fault4 kind lvl))
  else if !entryClean e then .inl (.fault (fault4 kind 6))
  else if entryLeaf e then .inl (leafCheck ctx space off kind lvl e at' sys)
  else if lvl = 0 then .inl (.fault (fault4 kind 5))
  else if entryPa e % 2 ^ 16 ≠ 0 then .inl (.fault (fault4 kind 6))
  else .inr (entryPa e)

/-- The walk from a table at a level: `cache` answers a next table already cached (R379), `up` whether an entry can be read. -/
def walkFrom (m : Memory) (up : Nat → Bool) (cache : Nat → Option Nat) (ctx space off kind : Nat) (sys : Bool) : Nat → Nat → WalkOut
  | 0, t =>
    if !up (t + 8 * walkIndex space off 0) then .held
    else match entryOut m ctx space off kind 0 t sys with | .inl o => o | .inr _ => .fault (fault4 kind 5)
  | n + 1, t =>
    match cache (n + 1) with
    | some t' => walkFrom m up cache ctx space off kind sys n t'
    | none =>
      if !up (t + 8 * walkIndex space off (n + 1)) then .held
      else match entryOut m ctx space off kind (n + 1) t sys with
        | .inl o => o
        | .inr t' => walkFrom m up cache ctx space off kind sys n t'

/-- The address prefix that a table entry of a level translates. -/
def walkPrefix (space off lvl : Nat) : Nat := (space * 2 ^ 64 + off) / 2 ^ (12 + 13 * lvl)

/-- The walk of R378 for a context, from its root, reading at the L2. A cached table entry may serve or not (R379). -/
def State.walk (s : State) (die ctx : Nat) (a : GAddr) (kind : Nat) (sys : Bool) : WalkOut :=
  match s.context? ctx with
  | none => .fault (fault4 kind 4)
  | some c =>
    let wc := (s.die die).walkCache
    let cache (lvl : Nat) : Option Nat :=
      (wc.find? fun x => x.1 == ctx && x.2.1 == lvl && x.2.2.1 == walkPrefix a.space.toNat a.off.toNat lvl).bind fun x =>
        if Config.choice s.run.tick 21 lvl % 2 = 0 then some x.2.2.2 else none
    walkFrom s.mem (fun a => Target.linked (.dev a) s) (if wc = [] then fun _ => none else cache) ctx a.space.toNat a.off.toNat kind sys 4 c.root

/-- Set A, and D for a write, by an atomic OR at the entry's home (R378). -/
def State.setAD (s : State) (at' kind : Nat) : State :=
  { s with mem := s.mem.writeLE at' 8 (s.mem.readLE at' 8 ||| (if kind = 1 ∨ kind = 4 then 0x60 else 0x20)) }.noteWrite none (touches at' 8)

/-- Keep a translation in a TLB whose set holds a limit of entries; which entry leaves a full set is open (log 3). -/
def keepTlb (limit tick : Nat) (set : TlbEntry → Nat) (l : List TlbEntry) (e : TlbEntry) : List TlbEntry :=
  let rest := l.filter fun x => !(x.ctx == e.ctx && x.va == e.va && x.size == e.size)
  let same := rest.filter fun x => set x == set e
  e :: (if same.length < limit then rest
    else match same[Config.choice tick 22 (limit + e.va) % limit]? with
      | some v => rest.erase v
      | none => rest)
/-- The set of a die's TLB, 2,048 sets of 8 ways, by the low bits of the page's number (DESIGN CHOICE, log 99). -/
def TlbEntry.dieSet (e : TlbEntry) : Nat := e.va / max 1 e.size % 2048
/-- A hearth's TLB of 128 entries is fully associative. -/
def State.tlbInsert (s : State) (hearth : Nat) (e : TlbEntry) : State :=
  (s.updHearth hearth fun h => { h with tlb := keepTlb 128 s.run.tick (fun _ => 0) h.tlb e }).updDie (dieOfHearth hearth) fun d =>
    { d with tlb := keepTlb 8 s.run.tick TlbEntry.dieSet d.tlb e }

/-- Remember a table entry of levels 4 to 1 in the die's walk cache of 1,024 entries. -/
def State.walkCacheInsert (s : State) (die ctx : Nat) (a : GAddr) (root : Nat) : State :=
  let step (acc : List (Nat × Nat × Nat × Nat) × Option Nat) (lvl : Nat) : List (Nat × Nat × Nat × Nat) × Option Nat :=
    match acc.2 with
    | none => acc
    | some t =>
      let e := s.mem.readLE (t + 8 * walkIndex a.space.toNat a.off.toNat lvl) 8
      if entryV e && !entryLeaf e then
        ((ctx, lvl, walkPrefix a.space.toNat a.off.toNat lvl, entryPa e) :: acc.1, some (entryPa e))
      else (acc.1, none)
  let new := ([4, 3, 2, 1].foldl step ([], some root)).1
  s.updDie die fun d => { d with walkCache := (new ++ d.walkCache.filter fun x => !new.contains x).take 1024 }

/-- Drop what a predicate on entries picks, from the hearths and dies that a scope covers (R379, R386). -/
def State.tlbDrop (s : State) (hearthIn dieIn : Nat → Bool) (p : TlbEntry → Bool) (q : Nat × Nat × Nat × Nat → Bool) : State :=
  { s with
    hearths := s.hearths.map fun h => if hearthIn h.id then { h with tlb := h.tlb.filter fun e => !p e } else h
    dies := s.dies.map fun d => if dieIn d.n then { d with tlb := d.tlb.filter (fun e => !p e), walkCache := d.walkCache.filter (fun x => !q x) } else d }

/-- Drop every cached translation of a page (R386). -/
def State.tlbDropPage (s : State) (hearthIn dieIn : Nat → Bool) (ctx : Nat) (a : GAddr) : State :=
  s.tlbDrop hearthIn dieIn (fun e => e.covers ctx (vaOf a))
    (fun x => x.1 == ctx && x.2.2.1 == walkPrefix a.space.toNat a.off.toNat x.2.1)

/-! ### Walks asked for (R379) -/

/-- The page of a walk: its leaf may be of any size, so the 4 KiB page that holds the address. -/
def Walk.same (w : Walk) (die ctx : Nat) (a : GAddr) : Bool :=
  w.die == die && w.ctx == ctx && w.space == a.space && w.off / 4096 == a.off.toNat / 4096
/-- A walk has one of the 64 walkers of its die: the others wait, in the order in which they were asked for (R379). -/
def State.walking (s : State) (w : Walk) : Bool := (((s.walks.filter (·.die == w.die)).take 64).any (·.id == w.id))

/-- Ask for a translation: the request joins a walk in flight for the page, or starts one. Answers the walk's name. -/
def State.askWalk (s : State) (hearth ctx kind : Nat) (a : GAddr) (r : Requester) : State × Nat :=
  let die := dieOfHearth hearth
  match s.walks.find? (·.same die ctx a) with
  | some w =>
    ({ s with walks := s.walks.map fun x =>
        if x.id = w.id then { x with reqs := if x.reqs.contains (kind, r) then x.reqs else x.reqs ++ [(kind, r)] } else x },
     w.id)
  | none =>
    let id := s.run.nextOp
    ({ s with walks := s.walks ++ [{ id := id, die := die, ctx := ctx, space := a.space, off := a.off.toNat, reqs := [(kind, r)] }],
              run := { s.run with nextOp := id + 1 } }, id)

/-- A fibre's group does not issue: the fibre waits for a walk (R379, R381). -/
def State.missWait (s : State) (f : Fibre) (kind : Nat) (a : GAddr) : State :=
  let (s, id) := s.askWalk (s.hearthOf f) (s.ctxOf f) kind a (.fibre f.uid a.off)
  s.updFibre f.uid fun f => { f with waits := f.waits ++ [.walk id] }

/-! ### Code (R81, R100) -/

/-- Code bytes at a physical address: as written, or as they stood at the launch's start; which is open, once for all the bytes of one
place (R100, log 3). -/
def State.codeBytesOf (s : State) (l : LaunchSlot) (place pa n : Nat) : List Byte :=
  if Config.choice s.run.tick 23 place % 2 = 0 then s.targetBytes l.node (.dev pa) n else Memory.bytes l.code pa n

def State.codeBytes (s : State) (l : LaunchSlot) (pa n : Nat) : List Byte := s.codeBytesOf l pa pa n

/-- The %tval of a fetch that fails in translation: the PC for a page without EX (Table 21.2), else the address. -/
def fetchTval (pc : Word) (a : GAddr) (c : Cause) : DWord := if c = mkCause 5 4 then pc.setWidth 64 else a.off

/-- The byte address of the packet that a fibre's PC names (R81, R377). -/
def State.packetAddr (s : State) (f : Fibre) : GAddr := ⟨0, BitVec.ofNat 64 ((s.slotOf f).record.codeBase + 12 * (f.arch.pc.toNat / 3))⟩

/-- What a read in the code space answers: the physical address, a cause with its %tval, or a walk to wait for. -/
inductive CodeAt where
  | found (pa : Nat)
  | fault (c : Cause) (tval : DWord)
  | miss
  deriving DecidableEq, Repr, Inhabited

/-- Where n bytes at an address of the code space stand, for a fibre whose group's head is at `pc` (R81, R157). -/
def State.codeAt (s : State) (f : Fibre) (pc : Word) (addr n : Nat) : CodeAt :=
  let a : GAddr := ⟨0, BitVec.ofNat 64 addr⟩
  if 2 ^ 64 < addr + n then .fault (mkCause 3 2) (pc.setWidth 64)
  else match s.translate (s.hearthOf f) (s.ctxOf f) 2 a a.off with
    | .ok (.dev pa) => if s.poisoned (.dev pa) n then .fault (mkCause 10 1) (pc.setWidth 64) else .found pa
    | .ok _ => .miss
    | .fault c _ => .fault c (fetchTval pc a c)
    | .miss => .miss

/-! ### Garley's frames (R381, R372) -/

/-- Runs of device memory that Garley holds for contexts: start, length, context (0 for the device itself). -/
def State.frameFree (s : State) (start len : Nat) : Bool :=
  decide (start + len ≤ memTop) && s.pkg.frames.all fun f => decide (start + len ≤ f.1) || decide (f.1 + f.2.1 ≤ start)

/-- The lowest aligned run of free frames, looked for from 0 and at the ends of the runs held. -/
def State.lowestFrames (s : State) (len align : Nat) : Option Nat :=
  let up (x : Nat) := (x + align - 1) / max 1 align * align
  let cands := (0 :: s.pkg.frames.map fun f => f.1 + f.2.1).map up
  (cands.filter fun c => s.frameFree c len).foldl (fun best c => match best with
    | none => some c
    | some b => if c < b then some c else some b) none

/-- An aligned run of free frames, if there is one: which of them is open (log 16). -/
def State.findFrames (s : State) (len align : Nat) : Option Nat :=
  match s.lowestFrames len align with
  | none => none
  | some low =>
    let named := Config.choice s.run.tick 26 s.pkg.frames.length * align
    some (if s.frameFree named len then named else low)

/-- Take a run of frames for a context, zeroed. -/
def State.takeFrames (s : State) (ctx len align : Nat) : Option (State × Nat) :=
  match s.findFrames len align with
  | none => none
  | some start =>
    some ({ s with mem := s.mem.filter (fun c => decide (c.1 < start) || decide (start + len ≤ c.1)),
                   poison := s.poison.filter (fun g => decide (g * 64 < start) || decide (start + len ≤ g * 64)),
                   pkg := { s.pkg with frames := s.pkg.frames ++ [(start, len, ctx)] } }, start)

/-- Service 1 at an entry (R381): a zeroed page of the entry's SIZE within the quota, the leaf with RD and WR set. None: it
fails. -/
def State.garleyPage (s : State) (ctx at' : Nat) : Option State :=
  match s.context? ctx with
  | none => none
  | some c =>
    let e := s.mem.readLE at' 8
    let sz := pageSize (entrySize e)
    let pages := sz / 4096
    if sz = 0 ∨ c.pageQuota < c.pagesUsed + pages then none
    else match s.takeFrames ctx sz sz with
      | none => none
      | some (s, pa) =>
        let leaf := entrySize e * 2 ^ 56 + (if e.testBit 63 then 2 ^ 63 else 0) + pa + 0xF
        some (({ s with mem := s.mem.writeLE at' 8 leaf }.noteWrite none (touches at' 8)).updContext ctx fun c => { c with pagesUsed := c.pagesUsed + pages })

end Sys2Proof.Machine
end

