-- ==== Sys2Proof/Machine/Kindling.lean ====
section
/-! DEFINITION. The kindling interface: records and where they stand, continuations and their join watches,
watchpoints and their evaluation (R263 to R293). -/

namespace Sys2Proof.Machine

/-! ### Watched lines (R285, R287, R291) -/

/-- The die that holds a watched line, else the asker's (R287). -/
def State.holdingDie (s : State) (pa die : Nat) : Nat :=
  match s.dies.find? fun d => d.watches.any fun w => w.pa / 256 == pa / 256 with
  | some d => d.n
  | none => ((s.joinWatches.find? fun w => w.pa / 256 == pa / 256).map (·.die)).getD die

/-- The die whose slice serves an agent of a node, or of none: for its staged lines the die that stages them (R409), else the holding die
of a watched line (R287), else the agent's own. -/
def State.servingDie (s : State) (die : Nat) (node : Option Nat) (t : Target) : Nat :=
  match t with
  | .dev pa =>
    match node.bind fun n => (s.slot n).staged.find? (·.line == pa / 256) with
    | some l => l.die
    | none => s.holdingDie pa die
  | _ => die

/-! ### Accesses of a unit that is no fibre -/

/-- What a unit's translation answers: a target with the accessed state, a service to wait for, a failure, or a table to wait for (R434). -/
inductive UnitXlate where
  | ok (s : State) (t : Target)
  | serve (lvl srv size at' : Nat)
  | fault
  | hold
  deriving Inhabited

/-- Translate an address for a unit by a walk of its own (R378). Units are named by where they are: 0 to 3 the engines and the kindling
interface of a compute die, 4 and 5 the collective engines of the I/O dies, 6 the front end, 7 Garley. Only a compute die has a walk cache,
and only 4, 5 and 7 reach system pages (Table 21.4, log 100). -/
def State.unitXlate (s : State) (unit ctx kind : Nat) (a : GAddr) : UnitXlate :=
  match s.spaceFault ctx a.space with
  | some _ => .fault
  | none =>
    if spaceKind a.space = 0 then
      match s.walk unit ctx a kind (unit == 4 || unit == 5 || unit == 7) with
      | .leaf e at' => .ok (s.setAD at' kind) (.dev (e.pa + vaOf a % e.size))
      | .service l v z w => .serve l v z w
      | .absent _ _ | .fault _ => .fault
      | .held => .hold
    else match s.translate 0 ctx kind a 0 with
      | .ok t => .ok s t
      | _ => .fault
/-- The compute die whose L2 a unit's reads and writes go through: that of its side for a unit of an I/O die. -/
def unitDie (unit : Nat) : Nat := if unit < 4 then unit else if unit = 5 then 2 else 0

/-- Bytes at a physical address with the writes over them that their homes hold (R221, R400). -/
def State.withHeld (s : State) (pa : Nat) (bs : List Byte) : List Byte :=
  bs.zipIdx.map fun (b, i) => s.heldWrites.foldl (fun b h => if h.pa ≤ pa + i then h.bytes.getD (pa + i - h.pa) b else b) b

/-- Read n bytes in this device's memory for a unit; none where the translation fails. -/
def State.unitRead (s : State) (unit ctx off n : Nat) : Option (List Byte) :=
  match s.unitXlate unit ctx 0 ⟨0, BitVec.ofNat 64 off⟩ with
  | .ok s t =>
    if s.poisoned t n then none
    else some (match t with | .dev pa => s.withHeld pa (s.targetBytes none t n) | _ => s.targetBytes none t n)
  | _ => none

/-- A write of the kindling interface, or of Garley, is performed at its home: the watches and join watches on it are evaluated (R287). -/
def State.homeWrite (s : State) (die pa : Nat) (bs : List Byte) : State :=
  (s.writeBytes none die (.dev pa) bs).noteWrite none (touches pa bs.length)
/-- The held writes whose unit is copied are performed, in the order in which they arrived (R400). -/
def State.releaseHeld (s : State) : State :=
  let free := s.heldWrites.filter fun h => !s.copying h.pa h.bytes.length
  free.foldl (fun s h => s.homeWrite 0 h.pa h.bytes) { s with heldWrites := s.heldWrites.filter fun h => !free.contains h }

/-- Write bytes in this device's memory for a unit, on behalf of a launch; the copy of an ember unit holds it (R400). -/
def State.unitWrite (s : State) (unit slot ctx off : Nat) (bs : List Byte) : Option State :=
  match s.unitXlate unit ctx 1 ⟨0, BitVec.ofNat 64 off⟩ with
  | .ok s (.dev pa) =>
    some (if s.copying pa bs.length then { s with heldWrites := s.heldWrites ++ [⟨slot, pa, bs⟩] } else s.homeWrite (unitDie unit) pa bs)
  | .ok s t => some (s.writeBytes none (unitDie unit) t bs)
  | _ => none

/-! ### Window size classes (R34) -/

/-- The window size class of a register count. -/
def windowClass (n : Nat) : Nat := if n ≤ 16 then 0 else if n ≤ 32 then 1 else if n ≤ 64 then 2 else if n ≤ 128 then 3 else 4
/-- Registers of a window size class. -/
def classRegs (c : Nat) : Nat := 16 * 2 ^ c

/-! ### Records (Tables 15.3 and 15.4) -/

/-- The header word. -/
def KRecord.header (r : KRecord) : Nat :=
  r.kind * 2 ^ 60 + r.cls * 2 ^ 57 + r.place * 2 ^ 55 + r.npay * 2 ^ 51 + r.depth * 2 ^ 43 + r.origin * 2 ^ 35 + r.grain
/-- The 64 bytes of a record. -/
def KRecord.bytes (r : KRecord) : List Byte :=
  leBytes 8 r.header ++ leBytes 8 r.join.off.toNat ++ leBytes 4 r.entry.toNat ++ leBytes 2 r.join.space.toNat ++ leBytes 1 r.slot
    ++ leBytes 1 r.gen
    ++ (match r.kind with | 1 => leBytes 4 r.lo ++ leBytes 4 r.hi | 2 => leBytes 8 r.image | _ => leBytes 8 0)
    ++ ((List.range 8).flatMap fun i => leBytes 4 (if i < r.npay then (r.payload.getD i 0).toNat else 0))

/-- A record read back from a spill area, with what the bookkeeping keeps (R267, R293). -/
def KRecord.ofBytes (old : KRecord) (bs : List Byte) : KRecord :=
  let n (lo k : Nat) : Nat := leNat ((bs.drop lo).take k)
  let h := n 0 8
  { old with kind := h / 2 ^ 60, cls := h / 2 ^ 57 % 8, place := h / 2 ^ 55 % 4, npay := h / 2 ^ 51 % 16, depth := h / 2 ^ 43 % 256,
             origin := h / 2 ^ 35 % 256, grain := h % 2 ^ 32, join := ⟨BitVec.ofNat 16 (n 0x14 2), BitVec.ofNat 64 (n 8 8)⟩,
             entry := BitVec.ofNat 32 (n 0x10 4), slot := n 0x16 1, gen := n 0x17 1, lo := n 0x18 4, hi := n 0x1C 4,
             image := n 0x18 8, payload := (List.range 8).map fun i => BitVec.ofNat 32 (n (0x20 + 4 * i) 4) }

/-- The check of R293 on bytes read back: reserved field, KIND and CLASS, launch slot (the entry PC is checked apart). -/
def recordSound (slot gen : Nat) (bs : List Byte) : Bool :=
  let h := leNat (bs.take 8)
  h / 2 ^ 32 % 8 == 0 && decide (h / 2 ^ 60 ≤ 3) && decide (h / 2 ^ 57 % 8 ≤ 4) && leNat ((bs.drop 0x16).take 1) == slot
    && leNat ((bs.drop 0x17).take 1) == gen

/-! ### The store and the spill area (R276, R277) -/

/-- Blocks of a launch's spill area. -/
def LaunchSlot.blocks (l : LaunchSlot) : Nat := if l.record.spillBase = 0 then 0 else l.record.spillSize / 64
def LaunchSlot.blockUsed (l : LaunchSlot) (b : Nat) : Bool := l.spill.any fun r => decide (r.1 ≤ b) && decide (b < r.1 + r.2)
def LaunchSlot.freeBlocks (l : LaunchSlot) : Nat := l.blocks - (l.spill.map (·.2)).sum

/-- The first run of n free blocks: first fit, looked for at 0 and at the ends of the runs held. -/
def LaunchSlot.firstFit (l : LaunchSlot) (n : Nat) : Option Nat :=
  let fits (b : Nat) : Bool :=
    decide (b + n ≤ l.blocks) && l.spill.all fun r => decide (b + n ≤ r.1) || decide (r.1 + r.2 ≤ b)
  ((0 :: l.spill.map fun r => r.1 + r.2).filter fits).foldl (fun best b => match best with
    | none => some b
    | some c => some (min b c)) none

/-- Records that a die's store holds. -/
def storeSize : Nat := 32768

/-- A new record enters the store, or the spill area when the store is full; none: no room. -/
def State.addRecord (s : State) (die : Nat) (r : KRecord) : Option State :=
  let r := { r with since := s.ltime, order := s.run.nextStamp, spill := none }
  let s := { s with run := { s.run with nextStamp := s.run.nextStamp + 1 } }
  if (s.die die).store.length < storeSize then some (s.updDie die fun d => { d with store := d.store ++ [r] })
  else
    let l := s.slot r.slot
    match l.firstFit 1 with
    | none => none
    | some b =>
      match s.unitWrite die l.n l.ctx (l.record.spillBase + 64 * b) r.bytes with
      | none => none
      | some s => some (s.updSlot r.slot fun l =>
          { l with spill := l.spill ++ [(b, 1)], spillRecs := l.spillRecs ++ [{ r with spill := some b }] })

/-- Free records of the die's store and free blocks of the launch's area, saturated (R277). -/
def State.kcap (s : State) (f : Fibre) : Word :=
  let l := s.slotOf f
  BitVec.ofNat 32 (min (2 ^ 32 - 1) ((storeSize - (s.die (dieOfHearth (s.hearthOf f))).store.length) + l.freeBlocks))

/-- Room for a record in the die's store or the launch's area (R276). -/
def State.room (s : State) (die : Nat) (l : LaunchSlot) : Bool :=
  decide ((s.die die).store.length < storeSize) || (l.firstFit 1).isSome

/-- Write the status of a `spawn` (R265): false for depth or want of room, else the record is made. -/
def State.spawnStatus (s : State) (f : Fibre) (r : KRecord) : State × Bool :=
  if (s.slotOf f).record.depth < r.depth then (s, false)
  else match s.addRecord (dieOfHearth (s.hearthOf f)) r with
    | none => (s, false)
    | some s => (s, true)

/-- A kindling error record (Table 20.7, source 0x09), for a launch: the queue, level and TAG are those of its LAUNCH packet. -/
def State.kindlingRecord (s : State) (l : LaunchSlot) (reason addr : Nat) (first : List Byte) : State :=
  let g := ((s.context? l.ctx).map (·.guilt)).getD 0
  let p := (s.queue l.queue).pkts.find? (·.id == l.pkt)
  let tag := (p.map fun p => leNat ((p.bytes.drop 4).take 4)).getD 0
  (s.writeRecord l.ctx (leBytes 1 0x09 ++ leBytes 1 reason ++ leBytes 1 l.queue ++ leBytes 1 ((p.map (·.level)).getD 0) ++ leBytes 4 0
    ++ leBytes 8 addr ++ leBytes 4 tag ++ leBytes 4 g ++ leBytes 8 s.ltime ++ first.take 32)).1

/-! ### Continuations (R280, R281) -/

/-- The blocks that an image takes. -/
def imageBlocks (alloc : Nat) : Nat := ceilDiv (64 + 4 * alloc) 64

/-- The image of Table 15.5 of a fibre at its `jwait`, watching a counter; `next` is the next image on the same line. -/
def imageBytes (f : Fibre) (pc : Word) (slot gen : Nat) (counter next : Nat) : List Byte :=
  let a := f.arch
  leBytes 4 pc.toNat ++ leBytes 1 a.pword.toNat ++ leBytes 1 a.wbase ++ leBytes 1 a.depth ++ leBytes 1 (a.regs.length / 8)
    ++ leBytes 8 a.gwct ++ leBytes 8 f.join.off.toNat ++ leBytes 2 f.join.space.toNat ++ leBytes 1 slot ++ leBytes 1 gen
    ++ leBytes 1 (a.fflags.toNat + 32 * a.frm.toNat) ++ leBytes 3 0
    ++ ((List.range 4).flatMap fun i => leBytes 2 (a.spaces.getD i 0).toNat)
    ++ leBytes 8 counter ++ leBytes 8 next ++ leBytes 8 f.rangeLen ++ (a.regs.flatMap fun w => leBytes 4 w.toNat)

/-- Write an image run into a launch's spill area. -/
def State.writeImage (s : State) (die : Nat) (l : LaunchSlot) (b : Nat) (bs : List Byte) : Option State :=
  (List.range (ceilDiv bs.length 64)).foldl (fun (o : Option State) i => o.bind fun s =>
    s.unitWrite die l.n l.ctx (l.record.spillBase + 64 * (b + i)) ((bs.drop (64 * i)).take 64)) (some s)

/-- The watch chain of a line (R281): the images of one launch that watch it, newest first. An image names the next by its offset in the spill
area that both stand in, so images of different launches are in chains of their own (log 17). -/
def JoinWatch.chainOf (slot pa : Nat) (w : JoinWatch) : Bool := w.slot == slot && w.pa / 256 == pa / 256
/-- The offset that the end of a chain holds. -/
def noImage : Nat := 2 ^ 64 - 1

/-- The fibre becomes a continuation (R281): image, join watch at the line's holding slice, and it leaves its crew without a decrement. The entry PC
that its record will hold is the PC of the `jwait` (DESIGN CHOICE, log 103). None: the image does not fit. -/
def State.becomeContinuation (s : State) (f : Fibre) (a : GAddr) (t : Target) (pc : Word) : Option State :=
  let l := s.slotOf f
  let n := imageBlocks f.arch.regs.length
  let own := dieOfHearth (s.hearthOf f)
  match l.firstFit n, t with
  | some b, .dev pa =>
    let next := ((s.joinWatches.find? (JoinWatch.chainOf l.n pa)).map (·.image)).getD noImage
    match s.writeImage own l b (imageBytes f pc l.n l.gen a.off.toNat next) with
    | none => none
    | some s =>
      let s := s.updSlot l.n fun l => { l with spill := l.spill ++ [(b, n)] }
      let s := { s with joinWatches :=
        { pa := pa, slot := l.n, die := s.servingDie own l.node t, image := 64 * b, cls := windowClass f.arch.regs.length,
          depth := f.arch.depth, origin := s.hearthOf f, entry := pc } :: s.joinWatches }
      let s := s.updFibre f.uid fun f => { f with join := ⟨0, 0⟩ }
      some (s.exitAll f.uid)
  | _, _ => none

/-- The continuation record of a join watch (R281): it is never refused. With the store full its bytes take the image's first block, and
what stood there is kept with the interface's bookkeeping until the record leaves it (R276, log 17). -/
def State.continuationRecord (s : State) (w : JoinWatch) : State :=
  let l := s.slot w.slot
  let die := dieOfHearth w.origin
  let r : KRecord := { kind := 2, cls := w.cls, place := 2, npay := 0, depth := w.depth, origin := w.origin, grain := 0, join := ⟨0, 0⟩,
                       entry := w.entry, slot := w.slot, gen := l.gen, lo := 0, hi := 0, image := w.image, payload := [],
                       regs := classRegs w.cls, since := s.ltime, order := s.run.nextStamp, spill := none, head := [] }
  let s := { s with run := { s.run with nextStamp := s.run.nextStamp + 1 } }
  if (s.die die).store.length < storeSize then s.updDie die fun d => { d with store := d.store ++ [r] }
  else
    let off := l.record.spillBase + w.image
    let head := (s.unitRead die l.ctx off 64).getD []
    ((s.unitWrite die l.n l.ctx off r.bytes).getD s).updSlot w.slot fun l =>
      { l with spillRecs := l.spillRecs ++ [{ r with spill := some (w.image / 64), head := head }] }

/-- The images left in the chains of a line name their new successors (Table 15.5, offset 0x30). -/
def State.relink (s : State) : List JoinWatch → State
  | [] => s
  | w :: rest =>
    let l := s.slot w.slot
    let next := ((rest.find? (JoinWatch.chainOf w.slot w.pa)).map (·.image)).getD noImage
    State.relink ((s.unitWrite (dieOfHearth w.origin) l.n l.ctx (l.record.spillBase + w.image + 0x30) (leBytes 8 next)).getD s) rest

/-- The join watches that have fired give their records, and the images left in the chains of their lines name their new successors (R281), while the
stacks serve (R434). -/
def State.fireJoins (s : State) : State :=
  let fired := s.run.fired
  if fired = [] ∨ !s.emberUp then s
  else
    let s := ({ s with run := { s.run with fired := [] } }.relink (s.joinWatches.filter fun w => fired.any fun v => JoinWatch.chainOf w.slot w.pa v))
    fired.foldl (fun s w => s.continuationRecord w) s
/-- Those too that the writes of these fire. -/
def State.fireAll : Nat → State → State
  | 0, s => s
  | n + 1, s => if s.run.fired = [] then s else State.fireAll n s.fireJoins

/-- A write is followed at once by the evaluation of what watches its words, and by the records of the join watches that fire (R281, R287). -/
def State.evalWatches (s : State) (node : Option Nat) (hit : Nat → Bool) : State := (s.noteWrite node hit).fireJoins

/-! ### Watchpoints (R285 to R291) -/

/-- The generation of an entry. -/
def Die.gen (d : Die) (i : Nat) : Nat := ((d.gens.find? (·.1 == i)).map (·.2)).getD 0
/-- An entry is freed: its generation rises by 1 (R286). -/
def Die.freeWatch (d : Die) (i : Nat) : Die :=
  { d with watches := d.watches.filter fun w => w.index != i,
           gens := (i, (d.gen i + 1) % 2 ^ 18) :: d.gens.filter fun g => g.1 != i }

/-- A handle (Table 15.7). -/
def watchHandle (die gen index : Nat) : Word := BitVec.ofNat 32 (die * 2 ^ 30 + gen % 2 ^ 18 * 2 ^ 12 + index)

/-- The L2 slice of a physical address (R202). -/
def sliceOf (pa : Nat) : Nat := (pa / 2 ^ 8 % 32) ^^^ (pa / 2 ^ 13 % 32) ^^^ (pa / 2 ^ 18 % 32)

/-- A free entry of the die's table for an address: 128 in each slice (R285). -/
def Die.freeIndex (d : Die) (pa : Nat) : Option Nat :=
  ((List.range 128).map fun i => sliceOf pa * 128 + i).find? fun i => !d.watches.any fun w => w.index == i

/-- The pending firing of an entry makes its record, as soon as there is room (R288). -/
def State.fireWatch (s : State) (die index : Nat) : State :=
  match (s.die die).watches.find? fun w => w.index == index && w.state == .pending with
  | none => s
  | some w =>
    match s.addRecord (dieOfHearth w.record.origin) w.record with
    | none => s
    | some s => s.updDie die fun d =>
        if w.persist then { d with watches := d.watches.map fun x => if x = w then { x with state := .holding } else x }
        else d.freeWatch index

/-- Register a watch (R285): false for depth or a full table, else its handle; if the condition holds, it fires in this event, and its record enters in
its place among those of the decision (R268). -/
def State.watchRegister (s : State) (f : Fibre) (t : Target) (value mask : DWord) (ctl : Word) (r : KRecord) : State × Option Word :=
  match t with
  | .dev pa =>
    let n := s.holdingDie pa (dieOfHearth (s.hearthOf f))
    let d := s.die n
    match d.freeIndex pa with
    | none => (s, none)
    | some i =>
      if (s.slotOf f).record.depth < r.depth || !s.room (dieOfHearth (s.hearthOf f)) (s.slotOf f) then (s, none)
      else
        let e : WatchEntry := { index := i, gen := d.gen i, state := .armed, ctx := s.ctxOf f, pa := pa, value := value, mask := mask,
                                persist := ctl.getLsbD 2, threshold := ctl.getLsbD 0, record := r }
        let (s, _) := s.l2Store n false (pa / 256) (pa / 64 % 4)
        let e := e.onWrite (BitVec.ofNat 64 (s.mem.readLE pa 8))
        ((s.updDie n fun d => { d with watches := d.watches ++ [e] }).fireWatch n i, some (watchHandle n (d.gen i) i))
  | _ => (s, none)

/-- Free a watch by its handle (R290): the status. -/
def State.watchFree (s : State) (ctx : Nat) (handle : Word) : State × Bool :=
  let die := handle.toNat / 2 ^ 30
  let gen := handle.toNat / 2 ^ 12 % 2 ^ 18
  let index := handle.toNat % 2 ^ 12
  match (s.die die).watches.find? fun w => w.index == index && w.gen == gen && w.ctx == ctx with
  | some w =>
    if w.state = .armed ∨ w.state = .holding then (s.updDie die fun d => d.freeWatch index, true) else (s, false)
  | none => (s, false)

end Sys2Proof.Machine
end

