-- ==== Sys2Proof/Machine/Tiles.lean ====
section
/-! DEFINITION. Tile registers and accumulators: their fields, elements and planes, and what each tile command computes (R95, R96,
R122 to R129, R298, R299, R302 to R307, R329 to R336). -/

namespace Sys2Proof.Machine

/-! ### tcfg (Table 5.5) -/

def tcfgEw (c : Word) : Nat := c.toNat / 2 ^ 29
def tcfgRows (c : Word) : Nat := c.toNat / 2 ^ 23 % 64 + 1
def tcfgCols (c : Word) : Nat := c.toNat / 2 ^ 15 % 256 + 1
def tcfgSlot (c : Word) : Nat := c.toNat / 2 ^ 12 % 8
def tcfgSp (c : Word) : Bool := c.getLsbD 11
def tcfgBv (c : Word) : Bool := c.getLsbD 10
/-- A COLS field below 15 leaves the tile unconfigured (R95). -/
def tcfgSet (c : Word) : Bool := decide (16 ≤ tcfgCols c)
/-- Element width by EW; the reserved codes count as 0 (R328). -/
def ewBits (e : Nat) : Nat := match e with | 0 => 4 | 1 => 6 | 2 => 8 | 3 => 16 | 4 => 32 | 5 => 64 | _ => 0
def tcfgW (c : Word) : Nat := ewBits (tcfgEw c)
/-- E and S of R328. -/
def tcfgE (c : Word) : Nat := tcfgRows c * tcfgCols c * tcfgW c / 8
def tcfgS (c : Word) : Nat := if tcfgSp c then tcfgRows c * tcfgCols c / 16 else 0
def withBv (c : Word) (v : Bool) : Word := if v then c ||| 0x400#32 else c &&& ~~~ 0x400#32

/-! ### Format-slot descriptors (Tables 7.8 and 7.9) -/

def descKind (d : Word) : Option Ty := if d = 0 then none else Ty.ofCode (d.extractLsb' 27 5)
def descScale (d : Word) : Nat := (d.extractLsb' 25 2).toNat
def descNan (d : Word) : Bool := d.getLsbD 24
/-- A descriptor that a launch record may hold (R126). -/
def descOk (d : Word) : Bool :=
  d == 0 || (d.extractLsb' 0 24 == 0 && match Ty.ofCode (d.extractLsb' 27 5) with
    | some .f32 | some .f64 | some .h16 | some .bf16 => descScale d == 0 && !descNan d
    | some .e4m3 | some .e5m2 => decide (descScale d ≤ 1)
    | some .e3m2 | some .e2m3 | some .e2m1 => decide (descScale d ≤ 1) && !descNan d
    | some .nl4 => descScale d == 2 && !descNan d
    | _ => false)

/-! ### Storage -/

def Tile.fresh (n : Nat) : Tile :=
  { n := n, tcfg := 0, elems := [], scales := [], bitmap := [], fault := false, poison := false }
def Cohort.tile (c : Cohort) (n : Nat) : Tile := (c.tiles.find? (·.n == n)).getD (Tile.fresh n)
def Cohort.setTile (c : Cohort) (t : Tile) : Cohort := { c with tiles := t :: c.tiles.filter fun x => x.n != t.n }
def Accum.fresh (n : Nat) : Accum := { n := n, elems := [], valid := true, poison := false }
def Cohort.acc (c : Cohort) (n : Nat) : Accum := (c.accs.find? (·.n == n)).getD (Accum.fresh n)
def Cohort.setAcc (c : Cohort) (a : Accum) : Cohort := { c with accs := a :: c.accs.filter fun x => x.n != a.n }
def Accum.get (a : Accum) (i : Nat) : Word := ((a.elems.find? (·.1 == i)).map (·.2)).getD 0
/-- An accumulator whose 4,096 elements are given by a function. -/
def accOf (g : Nat → Word) : List (Nat × Word) :=
  ((List.range 4096).map fun i => (i, g i)).filter fun x => x.2 != 0

/-- The code at an element position (R124, R298). -/
def Tile.code (t : Tile) (w p : Nat) : Nat := Memory.readLE t.elems (p * w / 8) (w / 8 + 2) / 2 ^ (p * w % 8) % 2 ^ w
def Tile.scale (t : Tile) (r b : Nat) : Nat := (Memory.get t.scales (tcfgCols t.tcfg / 16 * r + b)).toNat
/-- A bitmap bit; every bit reads 1 where BV = 0. -/
def Tile.bit (t : Tile) (p : Nat) : Bool := !tcfgBv t.tcfg || (Memory.get t.bitmap (p / 8)).getLsbD (p % 8)

/-- The bytes of codes packed in element order (R124). -/
def packBytes (w : Nat) (codes : List Nat) : List Byte :=
  leBytes (codes.length * w / 8) ((codes.zipIdx.map fun (c, i) => (c % 2 ^ w) * 2 ^ (w * i)).sum)

/-- Byte n of a plane is replaced by a run. -/
def putRun (m : List (Nat × Byte)) (a : Nat) (bs : List Byte) : List (Nat × Byte) := Memory.putBytes m a bs

/-! ### Consistency (R303, R329) -/

/-- The kind of a tile under a slot, where the tile is configured, the slot has a kind, and the widths agree. -/
def tileKind (t : Tile) (d : Word) : Option Ty :=
  match descKind d with
  | some k => if tcfgSet t.tcfg && k.bits == tcfgW t.tcfg then some k else none
  | none => none

/-- A consistent operand of `tmma` (R303); the 32-bit width is refused. -/
def operandKind (t : Tile) (d : Word) : Option Ty :=
  match tileKind t d with
  | some .f32 => none
  | some k => if (descScale d != 0) == tcfgSp t.tcfg then some k else none
  | none => none

/-! ### The tile product (R128, R129) -/

/-- The fields of a `tmma` block (Table 17.1). -/
structure MmaBlock where
  a : Nat
  b : Nat
  c : Nat
  acc : Bool
  spa : Bool
  spb : Bool
  m : Nat
  n : Nat
  k : Nat
  sa : Nat
  sb : Nat
  deriving DecidableEq, Repr, Inhabited

def blockByte (bs : List Byte) (i : Nat) : Nat := (bs.getD i 0).toNat
/-- The reserved bits of the block hold 0, and the fields' own limits (R302). -/
def blockFieldsOk (bs : List Byte) : Bool :=
  decide (blockByte bs 0 < 16) && decide (blockByte bs 1 < 16) && decide (blockByte bs 2 < 8) && decide (blockByte bs 3 < 8)
    && decide (blockByte bs 8 < 8) && decide (blockByte bs 9 < 8) && (bs.drop 10).all (· == 0)
def MmaBlock.ofBytes (bs : List Byte) : MmaBlock :=
  { a := blockByte bs 0 % 16, b := blockByte bs 1 % 16, c := blockByte bs 2 % 8, acc := (bs.getD 3 0).getLsbD 0,
    spa := (bs.getD 3 0).getLsbD 1, spb := (bs.getD 3 0).getLsbD 2, m := blockByte bs 4, n := blockByte bs 5,
    k := blockByte bs 6 + 256 * blockByte bs 7, sa := blockByte bs 8 % 8, sb := blockByte bs 9 % 8 }

/-- The K limit of a kind (Table 17.2). -/
def kLimit (t : Ty) : Nat := match t.bits with | 4 => 256 | 6 | 8 => 128 | 16 => 64 | _ => 16

/-- The block is well formed for its tiles and slots (R302, R303, R335). -/
def mmaOk (c : Cohort) (formats : List Word) (bs : List Byte) : Bool :=
  let q := MmaBlock.ofBytes bs
  let ta := c.tile q.a
  let tb := c.tile q.b
  blockFieldsOk bs && decide (q.a < c.decl.tiles) && decide (q.b < c.decl.tiles) && decide (q.c < c.decl.accs)
    && match operandKind ta (formats.getD q.sa 0), operandKind tb (formats.getD q.sb 0) with
      | some ka, some kb =>
        ((ka == .f64) == (kb == .f64)) && (ka != .f64 || (q.c % 2 == 0 && decide (q.c + 1 < c.decl.accs)))
          && decide (1 ≤ q.m) && decide (q.m ≤ tcfgRows ta.tcfg) && decide (1 ≤ q.n) && decide (q.n ≤ tcfgRows tb.tcfg)
          && q.k % 16 == 0 && decide (16 ≤ q.k) && decide (q.k ≤ min (kLimit ka) (kLimit kb))
          && decide (q.k ≤ tcfgCols ta.tcfg) && decide (q.k ≤ tcfgCols tb.tcfg) && decide (q.m ≤ 64) && decide (q.n ≤ 64)
      | _, _ => false

/-- An operand as the product reads it: kind, codes, scales, bits. -/
structure MmaOperand where
  tile : Tile
  kind : Ty
  scaled : Bool
  bits : Bool
  deriving DecidableEq, Repr

def MmaOperand.code (o : MmaOperand) (r k : Nat) : Nat := o.tile.code o.kind.bits (r * tcfgCols o.tile.tcfg + k)
def MmaOperand.bit (o : MmaOperand) (r k : Nat) : Bool := !o.bits || o.tile.bit (r * tcfgCols o.tile.tcfg + k)
def MmaOperand.scale (o : MmaOperand) (r b : Nat) : Nat := if o.scaled then o.tile.scale r b else 0
def MmaOperand.val (o : MmaOperand) (r k : Nat) : FVal := narrowVal o.kind (o.scale r (k / 16)) (o.code r k)
/-- The scale exponent of a block, 0 with no scale. -/
def MmaOperand.exp (o : MmaOperand) (r b : Nat) : Int := if o.scaled then scaleExp o.kind (o.scale r b) else 0
def MmaOperand.nanScale (o : MmaOperand) (r b : Nat) : Bool := o.scaled && o.scale r b == 255

/-- One block of 16 of R128 into an accumulator element: its bits and flags. -/
def mmaBlockStep (x y : MmaOperand) (i j : Nat) (acc : Nat × FFlags) (blk : Nat) : Nat × FFlags :=
  let ks := ((List.range 16).map fun q => 16 * blk + q).filter fun k => x.bit i k && y.bit j k
  let dot := fDot .rne (.fin false 0 0) (ks.map fun k => (x.val i k, y.val j k))
  let s : FRes :=
    if ks != [] && (x.nanScale i blk || y.nanScale j blk) then .nan (match dot with | .nan fl => fl | _ => 0) else dot
  let t : Nat × FFlags := match s with
    | .num neg m e st =>
      if m = 0 then (0, 0) else fmtF32.finish .rne false (.num neg m (e + x.exp i blk + y.exp j blk) st)
    | r => fmtF32.finish .rne false r
  let a := fmtF32.finish .rne false (fAdd .rne (fmtF32.decode acc.1) (fmtF32.decode t.1))
  (a.1, acc.2 ||| t.2 ||| a.2)

/-- C[i][j] of R129. -/
def mmaElem64 (x y : MmaOperand) (k i j old : Nat) : Nat × FFlags :=
  ((List.range k).filter fun q => x.bit i q && y.bit j q).foldl (fun acc q =>
    let r := fmtF64.finish .rne false (fFma .rne (x.val i q) (y.val j q) (fmtF64.decode acc.1))
    (r.1, acc.2 ||| r.2)) (old, 0)

/-- A product on binary64 operands, which is a single block (R306). -/
def mmaDouble (formats : List Word) (q : MmaBlock) : Bool := descKind (formats.getD q.sa 0) == some .f64
/-- The blocks of k of a product. -/
def mmaBlocks (formats : List Word) (bs : List Byte) : Nat :=
  let q := MmaBlock.ofBytes bs
  if mmaDouble formats q then 1 else q.k / 16

/-- Block `blk` of a product on a cohort's accumulators, every element of it (R128, R129, R305, R306): the first block takes the old values
where ACC = 1, the later ones go on from what the block before left. -/
def Cohort.mmaBlock (c : Cohort) (formats : List Word) (bs : List Byte) (blk : Nat) : Cohort :=
  let q := MmaBlock.ofBytes bs
  let ta := c.tile q.a
  let tb := c.tile q.b
  let da := formats.getD q.sa 0
  let db := formats.getD q.sb 0
  match operandKind ta da, operandKind tb db with
  | some ka, some kb =>
    let x : MmaOperand := ⟨ta, ka, descScale da != 0, q.spa⟩
    let y : MmaOperand := ⟨tb, kb, descScale db != 0, q.spb⟩
    let lo := c.acc q.c
    let hi := c.acc (q.c + 1)
    let dbl := ka == .f64
    let old (e : Nat) : Nat := if !q.acc && blk == 0 then 0 else if dbl then (lo.get e).toNat + 2 ^ 32 * (hi.get e).toNat else (lo.get e).toNat
    let res := (List.range (q.m * q.n)).map fun p =>
      let i := p / q.n
      let j := p % q.n
      let r := if dbl then mmaElem64 x y q.k i j (old (64 * i + j)) else mmaBlockStep x y i j (old (64 * i + j), 0) blk
      (64 * i + j, r)
    let flags := res.foldl (fun (f : FFlags) e => f ||| e.2.2) 0
    let get (e : Nat) (dflt : Nat) : Nat := ((res.find? (·.1 == e)).map (·.2.1)).getD dflt
    let c := c.setAcc { lo with elems := accOf fun e => BitVec.ofNat 32 (get e (lo.get e).toNat) }
    let c := if dbl then
        c.setAcc { hi with elems := accOf fun e => BitVec.ofNat 32 (get e ((hi.get e).toNat * 2 ^ 32) / 2 ^ 32) }
      else c
    { c with tileStatus := c.tileStatus ||| flags.zeroExtend 8 }
  | _, _ => c

/-- The valid flags of a product that completes (R307). -/
def Cohort.mmaValid (c : Cohort) (formats : List Word) (bs : List Byte) : Cohort :=
  let q := MmaBlock.ofBytes bs
  let bad := (c.tile q.a).fault || (c.tile q.b).fault
  let mark (c : Cohort) (n : Nat) : Cohort := c.setAcc { c.acc n with valid := if bad then false else if !q.acc then true else (c.acc n).valid }
  if mmaDouble formats q then mark (mark c q.c) (q.c + 1) else mark c q.c

/-! ### The other tile commands (R330 to R334) -/

/-- The value check of `mtc` at issue (R330). -/
def mtcOk (formats : List Word) (v : Word) : Bool :=
  !tcfgSet v || (v.extractLsb' 0 10 == 0 && decide (tcfgEw v ≤ 5) && tcfgCols v % 16 == 0
    && decide (tcfgRows v * tcfgCols v * tcfgW v ≤ 65536)
    && (let d := formats.getD (tcfgSlot v) 0
        match descKind d with
        | none => d == 0
        | some k => k.bits == tcfgW v && ((descScale d != 0) == tcfgSp v)))

/-- `tzero` of a tile (R331). -/
def Tile.zero (t : Tile) : Tile :=
  { t with tcfg := withBv t.tcfg false, elems := [], scales := [], bitmap := [], fault := false, poison := false }

/-- A code's value is nonzero, by the code alone (R333). -/
def codeNonzero (k : Ty) (scale code : Nat) : Bool := !(narrowVal k scale code).isZero

/-- `tbmp` (R333). -/
def Tile.bmp (t : Tile) (k : Ty) : Tile :=
  let n := tcfgRows t.tcfg * tcfgCols t.tcfg
  let cols := tcfgCols t.tcfg
  let bits := (List.range n).map fun p => (codeNonzero k (t.scale (p / cols) (p % cols / 16)) (t.code k.bits p)).toNat
  { t with bitmap := putRun t.bitmap 0 (leBytes (n / 8) ((bits.zipIdx.map fun (b, i) => b * 2 ^ i).sum)), tcfg := withBv t.tcfg true }

/-- Fields of the `tcvt` control word (Table 18.3). -/
def ctlSrc (v : Word) : Bool := v.getLsbD 8
def ctlNsel (v : Word) : Nat := (v.extractLsb' 4 3).toNat
def ctlRnd (v : Word) : Option Rnd := Rnd.ofCode (v.extractLsb' 0 3)
/-- The check of `tcvt` at issue (R334). -/
def tcvtOk (v : Word) (a : Nat) : Bool :=
  v.extractLsb' 9 23 == 0 && !v.getLsbD 7 && !v.getLsbD 3 && (ctlRnd v).isSome && decide (ctlNsel v ≤ 4)
    && !(ctlSrc v && decide (7 < a))

/-- The value of a source element: accumulator, or code times its scale; a NaN scale gives NaN (R334). -/
def tileElemVal (t : Tile) (k : Ty) (scaled : Bool) (r q : Nat) : FVal :=
  let sc := if scaled then t.scale r (q / 16) else 0
  if scaled && sc == 255 then .nan false
  else match narrowVal k sc (t.code k.bits (r * tcfgCols t.tcfg + q)) with
    | .fin s m e => .fin s m (e + (if scaled then scaleExp k sc else 0))
    | v => v

/-- Convert an element without a scale (R110, R113, R120). -/
def cvtElem (k : Ty) (mode : Rnd) (rand : Nat) (nan : Bool) (v : FVal) : Nat × FFlags :=
  if k.isNarrow then cvtToNarrow k.fmt mode rand nan v
  else k.fmt.finish mode false (match v with | .nan s => .nan (flagIf s fNV) | .inf s => .inf s 0 | .fin s m e => .num s m e false)

/-- `tcvt` into tile d from source values (R334): the tile and the flags. -/
def Tile.convert (d : Tile) (desc : Word) (k : Ty) (mode : Rnd) (nsel q : Nat) (x : Nat → Nat → FVal) (fault : Bool) : Tile × FFlags :=
  let rows := tcfgRows d.tcfg
  let cols := tcfgCols d.tcfg
  let nan := descNan desc
  let d' := { d with tcfg := withBv d.tcfg false, fault := fault, poison := false }
  if descScale desc ≠ 0 then
    let blocks := (List.range (rows * (cols / 16))).map fun n =>
      let r := n / (cols / 16)
      let b := n % (cols / 16)
      let xs := (List.range 16).map fun i => x r (16 * b + i)
      let rand := randOf q (16 * n)
      if k = .nl4 then cvtBlockNl4 nsel mode rand xs else cvtBlockE8m0 k.fmt mode rand nan xs
    ({ d' with elems := putRun d.elems 0 (packBytes k.bits (blocks.flatMap (·.1))),
               scales := putRun d.scales 0 (blocks.map fun z => BitVec.ofNat 8 z.2.1) },
     blocks.foldl (fun f z => f ||| z.2.2) 0)
  else
    let es := (List.range (rows * cols)).map fun p => cvtElem k mode (randOf q p) nan (x (p / cols) (p % cols))
    ({ d' with elems := putRun d.elems 0 (packBytes k.bits (es.map (·.1))) }, orFlags es)

/-- The image of a tile: elements, then the scale plane where SP = 1 (R332). -/
def Tile.image (t : Tile) : List Byte :=
  Memory.bytes t.elems 0 (tcfgE t.tcfg) ++ Memory.bytes t.scales 0 (tcfgS t.tcfg)
/-- A tile takes byte i of its image. -/
def Tile.putImage (t : Tile) (i : Nat) (b : Byte) : Tile :=
  if i < tcfgE t.tcfg then { t with elems := Memory.put t.elems i b } else { t with scales := Memory.put t.scales (i - tcfgE t.tcfg) b }
/-- The image of an accumulator. -/
def Accum.image (a : Accum) : List Byte := (List.range 4096).flatMap fun i => leBytes 4 (a.get i).toNat

/-- The bytes of Table 18.2 that a tile counts. -/
def tileBytes (t : Tile) : Nat := tcfgE t.tcfg + tcfgS t.tcfg

end Sys2Proof.Machine
end

