-- ==== Sys2Proof/Machine/Engines.lean ====
section
/-! DEFINITION. The engines: their accesses, queues, range locks, halts and completions, the layout records and what a flue
delivers, the tile commands and the collective (R300 to R323, R327 to R347, R438). -/

namespace Sys2Proof.Machine

/-! ### Services (R381) -/

/-- The lowest fault number not in use. -/
def State.freeFault (s : State) : Nat :=
  ((List.range (s.services.length + 1)).find? fun n => s.services.all fun v => v.fault != n).getD 0

/-- A host fault record (Table 21.7). -/
def hostFaultRecord (kind fault size now : Nat) (a : GAddr) : List Byte :=
  leBytes 1 0x0B ++ leBytes 1 (min kind 3) ++ leBytes 2 fault ++ leBytes 2 a.space.toNat ++ leBytes 1 size ++ leBytes 1 0
    ++ leBytes 8 a.off.toNat ++ leBytes 8 now

/-- A page whose fault is serviced. -/
def Service.same (v : Service) (ctx : Nat) (a : GAddr) : Bool := v.ctx == ctx && v.space == a.space && v.off / 4096 == a.off.toNat / 4096

/-- Ask for service 1 or 2 of a page, or join one in progress, whatever the kinds of the accesses (R379); false: the service fails at once. -/
def State.startService (s : State) (ctx kind : Nat) (a : GAddr) (lvl srv size : Nat) (reqs : List (Nat × Requester)) : State × Bool :=
  if s.services.any (·.same ctx a) then
    ({ s with services := s.services.map fun v =>
        if v.same ctx a then { v with reqs := v.reqs ++ reqs.filter fun r => !v.reqs.contains r } else v }, true)
  else
    let n := s.freeFault
    let add (s : State) : State :=
      { s with services := s.services ++
          [{ fault := n, ctx := ctx, space := a.space, off := a.off.toNat, kind := kind, level := lvl, srv := srv, reqs := reqs }] }
    if srv = 1 then (add s, true)
    else if ((s.context? ctx).map (·.confidential)).getD true then (s, false)
    else
      let (s, ok) := s.writeRecord ctx (hostFaultRecord kind n size s.ltime a)
      if ok then (add s, true) else (s, false)

/-! ### Accesses of an engine (R320, R400) -/

def gplus (a : GAddr) (i : Nat) : GAddr := ⟨a.space, a.off + BitVec.ofNat 64 i⟩

/-- The parts of a byte range that lie in one 4 KiB page each: place in the range, length. -/
def pieces (off n : Nat) : List (Nat × Nat) :=
  let k := 4096 - off % 4096
  if n ≤ k then [(0, n)]
  else (0, k) :: (List.range ((n - k + 4095) / 4096)).map fun i => (k + 4096 * i, min 4096 (n - k - 4096 * i))

/-- What an engine's access answers: done, with bytes and the GWCT; a service to wait for; a fault; poison; or a write that a copy
holds. -/
inductive EngAcc where
  | ok (s : State) (bs : List Byte) (g : Nat)
  | serve (a : GAddr) (lvl srv size : Nat)
  | fault (a : GAddr)
  | poison (a : GAddr)
  | hold
  deriving Inhabited

/-- The place of the first poisoned byte of a range. -/
def State.firstPoison (s : State) (node : Option Nat) (t : Target) (n : Nat) : Nat :=
  ((List.range n).find? fun i => s.poisonedFor node (t.plus i) 1).getD 0

/-- Read within one page for a unit, at the L2. -/
def State.engRead1 (s : State) (ctx unit : Nat) (node : Option Nat) (kind : Nat) (a : GAddr) (n : Nat) : EngAcc :=
  match s.unitXlate unit ctx kind a with
  | .fault => .fault a
  | .hold => .hold
  | .serve l v z _ => .serve a l v z
  | .ok s t =>
    if !t.linked s then .hold
    else if s.poisonedFor node t n then .poison (gplus a (s.firstPoison node t n))
    else
      let s := match t with
        | .dev pa => s.l2Load (s.servingDie (unitDie unit) node t) false (pa / 256)
        | .host ha => s.l2Load (unitDie unit) true (ha / 256)
        | .peer _ _ => s
      .ok s (s.targetBytes node t n) 0

def State.engRead (s : State) (ctx unit : Nat) (node : Option Nat) (kind : Nat) (a : GAddr) (n : Nat) : EngAcc :=
  (pieces a.off.toNat n).foldl (fun (r : EngAcc) p => match r with
    | .ok s bs g => match s.engRead1 ctx unit node kind (gplus a p.1) p.2 with
      | .ok s' bs' _ => .ok s' (bs ++ bs') g
      | r => r
    | r => r) (.ok s [] 0)

/-- Perform a write of an agent of a die at a target: its lines taken, the bytes, the watches on them (R212, R287, R409). Answers the GWCT. -/
def State.performWrite (s : State) (die : Nat) (node : Option Nat) (t : Target) (bs : List Byte) : State × Nat :=
  let n := (t.off % 64 + bs.length + 63) / 64
  let (s, g) := (List.range n).foldl (fun (p : State × Nat) i =>
    let u := t.plus (64 * i)
    let (s, g) := p.1.takeLines (p.1.servingDie die node u) u
    (s, max p.2 g)) (s, 0)
  let s := s.writeBytes node (s.servingDie die node t) t bs
  (match t with | .dev pa => s.evalWatches node (touches pa bs.length) | _ => s, g)

/-- Write within one page for a unit: translated for writing, held by a copy, performed at its home, hoist entries over it invalid (R320). -/
def State.engWrite1 (s : State) (ctx unit hearth : Nat) (node : Option Nat) (a : GAddr) (bs : List Byte) : EngAcc :=
  match s.unitXlate unit ctx 1 a with
  | .fault => .fault a
  | .hold => .hold
  | .serve l v z _ => .serve a l v z
  | .ok s t =>
    let held := match t with | .dev pa => node.isNone && s.copying pa bs.length | _ => false
    if held || !t.linked s then .hold
    else
      let (s, g) := s.performWrite (unitDie unit) node t bs
      .ok (s.unhoist hearth t bs.length) [] g

def State.engWrite (s : State) (ctx unit hearth : Nat) (node : Option Nat) (a : GAddr) (bs : List Byte) : EngAcc :=
  (pieces a.off.toNat bs.length).foldl (fun (r : EngAcc) p => match r with
    | .ok s _ g => match s.engWrite1 ctx unit hearth node (gplus a p.1) ((bs.drop p.1).take p.2) with
      | .ok s' _ g' => .ok s' [] (max g g')
      | r => r
    | r => r) (.ok s [] 0)

/-! ### Queues (R300, R308, R327) -/

def EngOp.isFlue : EngOp → Bool
  | .cpyStash .. | .cpyTile .. | .cpyl .. | .cpylSt .. | .cpylGg .. | .cpym .. => true
  | _ => false
/-- A `tgat`, whose command its crew's rendezvous makes (R338). -/
def EngOp.isGat : EngOp → Bool | .tgat .. => true | _ => false
def EngOp.isColl : EngOp → Bool | .coll .. => true | _ => false
def EngOp.isTile (o : EngOp) : Bool := !o.isFlue && !o.isColl
/-- Class 22 counts in cp, classes 20 and 21 in tl (R163). -/
def EngOp.inCp (o : EngOp) : Bool := !o.isTile
def EngOp.isRead : EngOp → Bool
  | .mfc _ | .tacc .. | .tstatTile | .tstatBarrier _ => true
  | _ => false
def EngOp.isStat : EngOp → Bool | .tstatTile | .tstatBarrier _ => true | _ => false
/-- The unit that makes a command's accesses: the compute die's, or the collective engine of the side. -/
def EngineCmd.unit (c : EngineCmd) : Nat := if c.op.isColl then 4 + c.hearth / 96 else dieOfHearth c.hearth

def Fibre.bumpCp (f : Fibre) : Fibre := { f with cp := f.cp + 1 }
def Fibre.dropCp (f : Fibre) : Fibre := { f with cp := f.cp - 1 }
def Fibre.bumpTl (f : Fibre) : Fibre := { f with tl := f.tl + 1 }
def Fibre.dropTl (f : Fibre) : Fibre := { f with tl := f.tl - 1 }

def State.cmdCohort (s : State) (c : EngineCmd) : Cohort := (s.cohort? c.cohort).getD default
def State.cmdSlot (s : State) (c : EngineCmd) : LaunchSlot := s.slot (s.cmdCohort c).slot
def State.cmdFormats (s : State) (c : EngineCmd) : List Word := (s.cmdSlot c).record.formats

/-- A command stands in its queue; one of a suspended cohort is in the save area until its restore (R347). -/
def State.inQueue (s : State) (c : EngineCmd) : Bool := c.run != .finished && (s.cmdCohort c).run != .suspended
/-- The commands of a hearth's tile queue, and of one of its flues, in issue order. -/
def State.tileCmds (s : State) (hearth : Nat) : List EngineCmd := s.cmds.filter fun c => c.hearth == hearth && c.op.isTile && s.inQueue c
def State.flueCmds (s : State) (hearth flue : Nat) : List EngineCmd :=
  s.cmds.filter fun c => c.hearth == hearth && c.op.isFlue && c.flue == flue && s.inQueue c

/-- Open `tgat` rendezvous of a hearth, each of which holds a place. -/
def State.openGathers (s : State) (hearth : Nat) : Nat :=
  (s.cohorts.filter (·.hearth == hearth)).foldl (fun n c => n + (c.crews.filter fun w => w.rdvs.any (·.tag == 256)).length) 0

/-- Whether the queue of a command has a place left, `more` being taken already by its group. -/
def State.queueRoom (s : State) (hearth : Nat) (op : EngOp) (flue more : Nat) : Bool :=
  if op.isColl then true
  else if op.isFlue then decide ((s.flueCmds hearth flue).length + more < 8)
  else decide ((s.tileCmds hearth).length + s.openGathers hearth + more < 64)

/-! ### Layout records (Tables 17.4 and 17.5) -/

structure LayoutRec where
  base : GAddr
  ctx : Nat
  ctl : Nat
  strides : List Int
  extents : List Nat
  rsv : Nat
  deriving DecidableEq, Repr

def LayoutRec.ofBytes (bs : List Byte) : LayoutRec :=
  let n (lo k : Nat) : Nat := leNat ((bs.drop lo).take k)
  { base := ⟨BitVec.ofNat 16 (n 8 2), BitVec.ofNat 64 (n 0 8)⟩, ctx := n 0xA 2, ctl := n 0xC 4,
    strides := 0 :: (List.range 4).map (fun i => sext 64 (n (0x10 + 8 * i) 8)), extents := (List.range 5).map (fun d => n (0x30 + 3 * d) 3),
    rsv := n 0x3F 1 }

def LayoutRec.rank (l : LayoutRec) : Nat := l.ctl / 2 ^ 29
def LayoutRec.kind (l : LayoutRec) : Option Ty := Ty.ofCode (BitVec.ofNat 5 (l.ctl / 2 ^ 24))
def LayoutRec.width (l : LayoutRec) : Nat := match l.kind with | some t => t.bits | none => 0
def LayoutRec.box (l : LayoutRec) (d : Nat) : Nat := l.ctl / 2 ^ (4 * d + 4) % 16
def LayoutRec.swz (l : LayoutRec) : Nat := l.ctl / 4 % 4
def LayoutRec.pad (l : LayoutRec) : Nat := l.ctl % 4
def LayoutRec.stride (l : LayoutRec) (d : Nat) : Int := l.strides.getD d 0
def LayoutRec.extent (l : LayoutRec) (d : Nat) : Nat := l.extents.getD d 0
/-- Elements of the box. -/
def LayoutRec.elems (l : LayoutRec) : Nat := 2 ^ (((List.range 5).map l.box).sum)
/-- Bytes of the box, padding included. -/
def LayoutRec.bytes (l : LayoutRec) : Nat := l.elems * l.width / 8

/-- Kinds that have a NaN, which padding 1 needs. -/
def kindNan (t : Ty) : Bool := t.isBin || t == .e4m3 || t == .e5m2

/-- The record's own fields (Table 17.5): the place of the first that is ill-formed. -/
def LayoutRec.badField (l : LayoutRec) : Option Nat :=
  let dims := (List.range 5)
  let high := dims.filter fun d => decide (l.rank ≤ d)
  if l.rank = 0 ∨ 5 < l.rank then some 0x0C
  else if l.kind.isNone || dims.any (fun d => decide (8 < l.box d)) || high.any (fun d => l.box d != 0) then some 0x0C
  else if 1 < l.pad ∨ (l.pad = 1 ∧ !((l.kind.map kindNan).getD false)) then some 0x0C
  else if l.width = 4 ∧ l.box 0 < 1 ∨ l.width = 6 ∧ l.box 0 < 2 then some 0x0C
  else match high.find? fun d => d != 0 && l.stride d != 0 with
    | some d => some (0x10 + 8 * (d - 1))
    | none => (dims.find? fun d => (l.extent d == 0) == decide (d < l.rank)).map fun d => 0x30 + 3 * d

/-- Width in bytes of the field at a place of the record. -/
def layoutFieldSize (off : Nat) : Nat := if off = 0x0C then 4 else if off < 0x30 then 8 else if off = 0x3F then 1 else 3

/-- The part of the box in range in dimension d: the first and the last coordinate (R313). -/
def LayoutRec.span (l : LayoutRec) (cs : List Int) (d : Nat) : Int × Int :=
  if d < l.rank then (max 0 (cs.getD d 0), min (l.extent d : Int) (cs.getD d 0 + 2 ^ l.box d) - 1) else (0, 0)
def LayoutRec.empty (l : LayoutRec) (cs : List Int) : Bool := (List.range 5).any fun d => decide ((l.span cs d).2 < (l.span cs d).1)

/-- The least and one past the greatest byte offset of the in-range part, exactly (R314). -/
def LayoutRec.reach (l : LayoutRec) (cs : List Int) : Int × Int :=
  let b : Int := l.base.off.toNat
  let part (pick : Int → Int → Int) : Int :=
    ((List.range 5).map fun d => if d = 0 then 0 else pick (l.stride d * (l.span cs d).1) (l.stride d * (l.span cs d).2)).sum
  (b + (l.span cs 0).1 * l.width / 8 + part min, b + -((-((l.span cs 0).2 + 1) * l.width) / 8) + part max)

/-- The 64 bytes of the layout record of a context (R312), in memory that Garley reserves. -/
def State.layoutBytes (s : State) (ctx : Nat) (h : Word) : List Byte :=
  s.mem.bytes (((s.context? ctx).map (·.layoutAddr)).getD 0 + 64 * (h.toNat % 2 ^ 16)) 64
def State.layoutRec (s : State) (ctx : Nat) (h : Word) : LayoutRec := LayoutRec.ofBytes (s.layoutBytes ctx h)
/-- The record of a `cpy`: as it was read whole at the command's start (R314), before that as it stands. -/
def State.cmdLayout (s : State) (c : EngineCmd) (h : Word) : LayoutRec :=
  match c.block with
  | some bs => LayoutRec.ofBytes bs
  | none => s.layoutRec (s.cmdSlot c).ctx h

def coordInts (coords : List Word) : List Int := coords.map BitVec.toInt

/-! ### Range locks (R318) -/

/-- The bytes of one row of a `tgat` (R339). -/
def gatBytes (tc : Word) : Nat := tcfgCols tc * tcfgW tc / 8 + (if tcfgSp tc then tcfgCols tc / 16 else 0)

/-- The tcfg of a tile as the commands that stand before another will have left it (R300): the last `mtc` of the cohort's among them, else the
tile's. -/
def tcfgAhead (before : List EngineCmd) (c : Cohort) (t : Nat) : Word :=
  (before.foldl (fun (w : Option Word) d => match d.op with | .mtc u v => if d.cohort = c.uid ∧ u = t then some v else w | _ => w) none).getD
    (c.tile t).tcfg

/-- The entry of a member of a `tgat`, if its row is filled. -/
def gatLock (tc : Word) (id ctx y : Nat) (a : GAddr) : List RangeLock :=
  if tcfgRows tc ≤ y then [] else [⟨id, ctx, a.space, a.off.toNat, a.off.toNat + gatBytes tc, false⟩]

/-- The global ranges of a command, as entries: `tc` the tcfg of a `tgat`'s tile, `lay` the record of a `cpy`. -/
def EngOp.locks (ctx : Nat) (tc : Word) (lay : LayoutRec) (id : Nat) : EngOp → List RangeLock
  | .tgat _ _ rows => rows.flatMap fun r => gatLock tc id ctx r.y r.addr
  | .cpyl _ src n | .cpym _ src n => if n = 0 then [] else [⟨id, ctx, src.space, src.off.toNat, src.off.toNat + n, false⟩]
  | .cpylSt _ dst n => if n = 0 then [] else [⟨id, ctx, dst.space, dst.off.toNat, dst.off.toNat + n, true⟩]
  | .cpylGg src dst n =>
    if n = 0 then []
    else [⟨id, ctx, src.space, src.off.toNat, src.off.toNat + n, false⟩, ⟨id, ctx, dst.space, dst.off.toNat, dst.off.toNat + n, true⟩]
  | .coll src dst n ctl =>
    let sz := n * (if ctl.toNat / 4 % 4 = 1 then 2 else 4)
    if n = 0 then []
    else [⟨id, ctx, src.space, src.off.toNat, src.off.toNat + sz, false⟩, ⟨id, ctx, dst.space, dst.off.toNat, dst.off.toNat + sz, true⟩]
  | .cpyStash _ _ cs | .cpyTile _ _ cs =>
    if lay.badField.isSome || lay.ctx != ctx || lay.empty (coordInts cs) then []
    else let r := lay.reach (coordInts cs); [⟨id, ctx, lay.base.space, r.1.toNat, r.2.toNat, false⟩]
  | _ => []

/-- The handle of a `cpy`. -/
def EngOp.handle : EngOp → Word | .cpyStash _ h _ | .cpyTile _ h _ => h | _ => 0
/-- The tile of a `tgat`. -/
def EngOp.gatTile : EngOp → Nat | .tgat t _ _ => t | _ => 0

/-- The ranges that a command of a cohort would take at its issue (R318). -/
def State.locksOf (s : State) (co : Cohort) (id : Nat) (op : EngOp) : List RangeLock :=
  let ctx := (s.slot co.slot).ctx
  op.locks ctx (tcfgAhead s.cmds co op.gatTile) (s.layoutRec ctx op.handle) id
/-- The ranges of a command that has issued, a `tgat`'s by the tcfg that the commands before it leave (R300). -/
def State.ranges (s : State) (c : EngineCmd) : List RangeLock :=
  let co := s.cmdCohort c
  c.op.locks (s.cmdSlot c).ctx (tcfgAhead (s.cmds.takeWhile (·.id != c.id)) co c.op.gatTile) (s.cmdLayout c c.op.handle) c.id

/-- Entries the hearth's table has left. -/
def State.locksFree (s : State) (hearth more need : Nat) : Bool := decide ((s.hearth hearth).locks.length + more + need ≤ 64)

def RangeLock.meets (l m : RangeLock) : Bool := l.ctx == m.ctx && l.space == m.space && decide (l.lo < m.hi) && decide (m.lo < l.hi)

/-- An earlier command of the hearth has not completed that overlaps this one's ranges, one of them writing (R308, R321). -/
def State.rangeHeld (s : State) (c : EngineCmd) : Bool :=
  (s.ranges c).any fun l => (s.cmds.takeWhile (·.id != c.id)).any fun d =>
    d.hearth == c.hearth && s.inQueue d && (s.ranges d).any fun m => l.meets m && (l.writes || m.writes)

def State.dropLocks (s : State) (hearth cmd : Nat) : State :=
  s.updHearth hearth fun h => { h with locks := h.locks.filter fun l => l.cmd != cmd }
/-- The entries of a cohort's open presentations of a `tgat`, as the commands issued so far will have left its tile. -/
def State.openLocks (s : State) (co : Cohort) : List RangeLock :=
  co.crews.flatMap fun w => w.rdvs.flatMap fun r => r.members.flatMap fun p => match p.kind with
    | .tgat t _ r0 => gatLock (tcfgAhead s.cmds co t) p.name (s.slot co.slot).ctx (r0.toNat + p.vlane) p.addr
    | _ => []
/-- What owns range-lock entries for a cohort: its commands and its presentations of a `tgat` (R318). -/
def State.lockOwners (s : State) (co : Cohort) : List Nat :=
  (s.cmds.filter (·.cohort == co.uid)).map (·.id) ++ co.crews.flatMap fun w => w.rdvs.flatMap fun r => r.members.map (·.name)
/-- An `mtc` that enters the queue before a presented `tgat` makes its command changes which rows that command fills and how long they are:
their entries follow, be the table full or not (R318, R339; DESIGN CHOICE, log 103). -/
def State.resizeLocks (s : State) (co : Cohort) : State :=
  let names := co.crews.flatMap fun w => w.rdvs.flatMap fun r => if r.tag = 256 then r.members.map (·.name) else []
  if names = [] then s
  else s.updHearth co.hearth fun h => { h with locks := (h.locks.filter fun l => !names.contains l.cmd) ++ s.openLocks co }
/-- The entries of the ranges that a command reads are removed with its last read (R318). -/
def State.dropReadLocks (s : State) (hearth cmd : Nat) : State :=
  s.updHearth hearth fun h => { h with locks := h.locks.filter fun l => l.cmd != cmd || l.writes }

/-! ### Bytes counted (Table 18.2) -/

def T (c : Cohort) (t : Nat) : Nat := tileBytes (c.tile t)
/-- The 64 bytes of a parameter block as they stand in the stash. -/
def Cohort.block (c : Cohort) (o : Nat) : List Byte := Memory.bytes c.stash o 64
/-- The kind of the element type code of `coll`. -/
def collTy (ctl : Word) : Ty := match ctl.toNat / 4 % 4 with | 0 => .f32 | 1 => .bf16 | 2 => .s32 | _ => .n32

/-- The count of a command of a cohort: `block` the parameter block of a `tmma`, `lay` the layout record of a `cpy`. -/
def EngOp.count (c : Cohort) (formats : List Word) (block : List Byte) (lay : LayoutRec) : EngOp → Nat
  | .tzeroTile t => if tcfgSet (c.tile t).tcfg then T c t else 0
  | .tzeroAcc _ | .tldAcc .. | .tstAcc .. => 16384
  | .tldTile t _ | .tstTile t _ | .tcvt t _ _ _ => T c t
  | .tmma _ =>
    let b := block
    let k (i : Nat) : Option Ty := descKind (formats.getD (blockByte b i % 8) 0)
    blockByte b 4 * blockByte b 5 * (if k 8 = some .f64 ∧ k 9 = some .f64 then 8 else 4)
  | .tbmp t => tcfgRows (c.tile t).tcfg * tcfgCols (c.tile t).tcfg / 8
  | .tgat t _ rows => (rows.filter fun r => decide (r.y < tcfgRows (c.tile t).tcfg)).length * (T c t / tcfgRows (c.tile t).tcfg)
  | .cpyStash .. | .cpyTile .. => lay.bytes
  | .cpyl _ _ n | .cpylSt _ _ n | .cpylGg _ _ n | .cpym _ _ n => n
  | .coll _ _ n ctl => n * ((collTy ctl).bits / 8)
  | _ => 0

/-! ### Completion and halting (R163, R167, R310, R317, R328, R342) -/

/-- The bytes that a completing command counts: by the block or the record that it read at its start (R302, R314). -/
def State.countDone (s : State) (c : EngineCmd) : Nat :=
  c.op.count (s.cmdCohort c) (s.cmdFormats c) (c.block.getD []) (s.cmdLayout c c.op.handle)
/-- The bytes that a halting command counts: its fields as they stand, the parameter block of a `tmma` as it stands in the stash (R328). -/
def State.countHalt (s : State) (c : EngineCmd) : Nat :=
  let o := match c.op with | .tmma o => o | _ => 0
  c.op.count (s.cmdCohort c) (s.cmdFormats c) ((s.cmdCohort c).block o) (s.cmdLayout c c.op.handle)

/-- Cohorts of one element of a level's domain: cohorts to an element (R50 to R53). -/
def LaunchRec.cohortsPer (r : LaunchRec) (dom : Nat) : Nat :=
  ((r.levels.filter fun l => decide (2 ≤ l.2.1) && decide (l.2.1 < dom)).map (·.1)).foldl (· * ·) 1

/-- The cohorts that receive a `cpym`: those of the launch in the issuer's element of the quad-domain level; a gathered
cohort lies in no element, and its own `cpym` reaches it alone (R342, log 94). -/
def State.receivers (s : State) (c : EngineCmd) : List Cohort :=
  let me := s.cmdCohort c
  let per := max 1 ((s.slot me.slot).record.cohortsPer 4)
  s.cohorts.filter fun x => x.slot == me.slot && x.crews != [] && !c.skip.contains x.uid
    && (x.uid == me.uid || (!me.gathered && !x.gathered && x.number / per == me.number / per))

/-- The cohorts whose barrier a command names. -/
def State.barCohorts (s : State) (c : EngineCmd) : List Nat :=
  match c.op with | .cpym .. => (s.receivers c).map (·.uid) | _ => [c.cohort]

/-- A member leaves a `tgat`: it no longer stands at the word (R323). -/
def Fibre.leaveGather (f : Fibre) (c : EngineCmd) : Fibre :=
  let rows := match c.op with | .tgat _ _ rows => rows | _ => []
  { f with waits := f.waits.erase (.engineRead c.id),
           arch := { f.arch with pc := ((rows.find? (·.uid == f.uid)).map (·.next)).getD f.arch.pc } }

/-- The command leaves: its counter falls, its locks go, its waiting fibres go on. -/
def State.endCmd (s : State) (c : EngineCmd) : State :=
  let s := { s with cmds := s.cmds.filter fun d => d.id != c.id }.dropLocks c.hearth c.id
  match c.op with
  | .tgat .. =>
    let s := { s with fibres := s.fibres.map fun (f : Fibre) => if f.waits.contains (.engineRead c.id) then (f.leaveGather c).dropTl else f }
    s.updCrew c.cohort c.crew fun w => { w with tgprog := 0 }
  | op => s.updFibre c.uid fun f => if op.inCp then f.dropCp else f.dropTl

/-- The command completes: its barrier takes the bytes as a release of all it delivered (R168, R320). -/
def State.finishCmd (s : State) (c : EngineCmd) (bytes : Nat) : State :=
  let s := s.endCmd c
  match c.bar with
  | some n => (s.barCohorts c).foldl (fun s u => s.barDeliver u n bytes) s
  | none => s

/-- An engine error record (Table 17.6). -/
def State.engineRecord (s : State) (c : EngineCmd) (reason : Nat) (detail : List Byte) : State :=
  let l := s.cmdSlot c
  let handle := match c.op with | .cpyStash _ h _ | .cpyTile _ h _ => h.toNat % 2 ^ 16 | _ => 0
  let unit := if c.op.isFlue then c.flue else if c.op.isColl then Config.choice s.run.tick 18 c.id % 256 else 4
  let bar := match c.bar with | some n => 128 + n | none => 0
  (s.writeRecord l.ctx (leBytes 1 unit ++ leBytes 1 reason ++ leBytes 1 c.hearth ++ leBytes 1 bar ++ leBytes 4 c.pc.toNat
    ++ leBytes 8 (s.cmdCohort c).number ++ leBytes 2 handle ++ leBytes 2 (c.crew * 256 + c.vlane) ++ leBytes 4 c.bytes
    ++ leBytes 8 (s.ltimeAt (dieOfHearth c.hearth)) ++ detail)).1

/-- A read is performed: its value, or its cause, waits for its group, and tl falls (R163, R327). -/
def State.readDone (s : State) (c : EngineCmd) (v : DWord) (cause : Option Cause) : State :=
  (s.updCmd c.id fun c => { c with run := .finished, value := v, cause := cause }).updFibre c.uid Fibre.dropTl

/-- The destination of a command that halts: FAULT on a tile that a flue or a tile command was to write, the valid flag of the
accumulator that a `tmma` names, of the pair for binary64, once it has read its block (R307, R317). -/
def Cohort.spoil (c : Cohort) (formats : List Word) (op : EngOp) (block : List Byte) : Cohort :=
  let q := MmaBlock.ofBytes block
  let fault (t : Nat) : Cohort := if t < c.decl.tiles then c.setTile { c.tile t with fault := true } else c
  let unset (c : Cohort) (n : Nat) : Cohort := if n < c.decl.accs then c.setAcc { c.acc n with valid := false } else c
  match op with
  | .cpyTile t _ _ | .tldTile t _ | .tbmp t | .tcvt t _ _ _ | .tgat t _ _ => fault t
  | .tmma _ => if block == [] then c else if mmaDouble formats q then unset (unset c (blockByte block 2)) (blockByte block 2 + 1) else unset c (blockByte block 2)
  | _ => c

/-- A command halts (R317). A read that halts has no stated value: a free one. -/
def State.haltCmd (s : State) (c : EngineCmd) (reason : Nat) (detail : List Byte) : State :=
  let owed := s.countHalt c - c.bytes
  let s := s.engineRecord c reason detail
  let s := s.updCohort c.cohort fun co =>
    let co := co.spoil (s.cmdFormats c) c.op (c.block.getD [])
    if c.op.isTile then { co with tileStatus := co.tileStatus ||| 0x80 } else co
  let s := if c.op.isRead then s.readDone c (BitVec.ofNat 64 (Config.choice s.run.tick 19 c.id)) none else s.endCmd c
  match c.bar with
  | some n => (s.barCohorts c).foldl (fun s u => s.barHalt u n owed) s
  | none => s

/-! ### Details of a halt (R438) -/

def fieldDetail (field : List Byte) (place : Nat) : List Byte :=
  field.take 24 ++ List.replicate (24 - field.length) 0 ++ leBytes 8 place
def addrDetail (a : GAddr) : List Byte := leBytes 8 a.off.toNat ++ leBytes 2 a.space.toNat
def stashDetail (o : Nat) : List Byte := leBytes 8 o
/-- Reason 0x08 of a `tmma`. -/
def mmaDetail (c : Cohort) (formats : List Word) (b : List Byte) : List Byte :=
  let tc (i : Nat) : List Byte := leBytes 4 (c.tile (blockByte b i % 16)).tcfg.toNat
  let ds (i : Nat) : List Byte := leBytes 4 (formats.getD (blockByte b i % 8) 0).toNat
  b.take 16 ++ tc 0 ++ tc 1 ++ ds 8 ++ ds 9
/-- Reason 0x08 of another command. -/
def tileDetail (c : Cohort) (formats : List Word) (acc : Bool) (n : Nat) (ctl : Word) : List Byte :=
  let tc := (c.tile n).tcfg
  (if acc then leBytes 8 0 else leBytes 4 tc.toNat ++ leBytes 4 (formats.getD (tcfgSlot tc) 0).toNat) ++ leBytes 4 n ++ leBytes 4 ctl.toNat

/-- A command whose access answers no bytes: it halts, or is suspended for a service, or its write is held. -/
def State.engStop (s : State) (c : EngineCmd) (kind : Nat) (r : EngAcc) : State :=
  match r with
  | .fault a => s.haltCmd c 0x07 (addrDetail a)
  | .poison a => s.haltCmd c 0x09 (addrDetail a)
  | .serve a lvl srv size =>
    match s.startService (s.cmdSlot c).ctx kind a lvl srv size [(kind, .engine c.id a.off)] with
    | (s, true) => s.updCmd c.id fun c => { c with run := .suspended }
    | (s, false) => s.haltCmd c 0x07 (addrDetail a)
  | _ => s

/-! ### A stash line as an engine reads it (R301, R332) -/

/-- The command waits on a line from now. -/
def State.engWait (s : State) (c : EngineCmd) : State :=
  s.updCmd c.id fun c => { c with since := some (c.since.getD s.ltime) }
def State.engReady (s : State) (c : EngineCmd) (n : Nat) : Bool :=
  let co := s.cmdCohort c
  (co.line n).reads (s.cohortTime co)

/-- The stash line that a command reads next: `tld`, the block of `tmma`, `cpyl.st`. -/
def EngineCmd.nextLine (c : EngineCmd) : Option Nat :=
  match c.op with
  | .tldTile _ o | .tldAcc _ o | .cpylSt o _ _ => some (o / 128 + c.done)
  | .tmma o => if c.block.isNone then some (o / 128) else none
  | _ => none

/-- The first line of a stash range that is beyond the declaration, or mapped where that halts. -/
def Cohort.badLine (c : Cohort) (o n : Nat) (mapped : Bool) : Option Nat :=
  let last := (o + n + 127) / 128
  if c.decl.lines < last then some (max (o / 128) c.decl.lines)
  else if mapped then ((List.range (last - o / 128)).map (· + o / 128)).find? fun i => (c.line i).mapped.isSome
  else none

/-! ### Flues (R308 to R316, R340 to R342) -/

/-- The tiles and accumulators that a command reads and writes (R300): tile or accumulator, its number, written. -/
def EngineCmd.uses (formats : List Word) (c : EngineCmd) : List (Bool × Nat × Bool) :=
  match c.op with
  | .mtc t _ | .tzeroTile t | .tldTile t _ | .tbmp t | .tgat t _ _ | .cpyTile t _ _ => [(true, t, true)]
  | .mfc t | .tstTile t _ => [(true, t, false)]
  | .tzeroAcc n | .tldAcc n _ => [(false, n, true)]
  | .tstAcc n _ | .tacc n _ => [(false, n, false)]
  | .tcvt t a ctl _ => [(true, t, true), (!ctlSrc ctl, a, false)]
  | .tmma _ =>
    match c.block with
    | none => (List.range 16).map (fun i => (true, i, true)) ++ (List.range 8).map fun i => (false, i, true)
    | some b =>
      let q := MmaBlock.ofBytes b
      let dbl := mmaDouble formats q
      [(true, q.a, false), (true, q.b, false), (false, q.c, true)] ++ (if dbl then [(false, q.c + 1, true)] else [])
  | _ => []

def State.usesMeet (s : State) (c d : EngineCmd) : Bool :=
  c.cohort == d.cohort && (c.uses (s.cmdFormats c)).any fun x => (d.uses (s.cmdFormats d)).any fun y =>
    x.1 == y.1 && x.2.1 == y.2.1 && (x.2.2 || y.2.2)

/-- The checks of a `cpy` before it reads anything (R313 to R316, R340): the reason and its detail. -/
def State.cpyCheck (s : State) (c : EngineCmd) (tile : Option Nat) (o : Nat) (h : Word) (cs : List Word) : Option (Nat × List Byte) :=
  let co := s.cmdCohort c
  let ctx := (s.cmdSlot c).ctx
  let l := s.layoutRec ctx h
  let raw := s.layoutBytes ctx h
  let field (off : Nat) : List Byte := fieldDetail ((raw.drop off).take (layoutFieldSize off)) off
  let ics := coordInts cs
  if h.toNat / 2 ^ 16 ≠ 0 then some (0x00, fieldDetail (leBytes 4 h.toNat) (2 ^ 63))
  else if l.ctx ≠ ctx then some (0x01, leBytes 2 l.ctx ++ leBytes 2 ctx)
  else if l.rsv ≠ 0 then some (0x00, field 0x3F)
  else match l.badField with
    | some off => some (0x02, field off)
    | none =>
      let c0 := ics.getD 0 0
      if l.width = 4 ∧ c0 % 2 ≠ 0 ∨ l.width = 6 ∧ c0 % 4 ≠ 0 then
        some (0x04, fieldDetail (leBytes 4 (cs.getD 0 0).toNat) (2 ^ 63 + 1))
      else
        let dest : Option (Nat × List Byte) := match tile with
          | none => (co.badLine o l.bytes true).map fun n => (0x05, stashDetail (128 * n))
          | some t =>
            let tc := (co.tile t).tcfg
            if !tcfgSet tc then some (0x08, tileDetail co (s.cmdFormats c) false t 0)
            else if l.swz ≠ 0 ∨ 2 ^ l.box 0 ≠ tcfgCols tc ∨ l.elems / 2 ^ l.box 0 ≠ tcfgRows tc ∨ tcfgW tc ≠ l.width then some (0x05, field 0x0C)
            else none
        match dest with
        | some d => some d
        | none =>
          if l.empty ics then none
          else
            let r := l.reach ics
            if r.1 < 0 then some (0x03, addrDetail ⟨l.base.space, BitVec.ofInt 64 r.1⟩)
            else if (2 ^ 64 : Int) < r.2 then some (0x03, addrDetail ⟨l.base.space, BitVec.ofInt 64 (r.2 - 1)⟩)
            else none

/-- The checks of the other flue commands at their start (R341, R342). -/
def State.flueCheck (s : State) (c : EngineCmd) : Option (Nat × List Byte) :=
  let co := s.cmdCohort c
  let past (a : GAddr) (n : Nat) : Option (Nat × List Byte) := if 2 ^ 64 < a.off.toNat + n then some (0x03, addrDetail a) else none
  let lines (o n : Nat) (mapped : Bool) : Option (Nat × List Byte) := (co.badLine o n mapped).map fun i => (0x05, stashDetail (128 * i))
  match c.op with
  | .cpyStash o h cs => s.cpyCheck c none o h cs
  | .cpyTile t h cs => s.cpyCheck c (some t) 0 h cs
  | .cpyl o src n => if n = 0 then none else (past src n).or (lines o n true)
  | .cpym o src n => if n = 0 then none else (past src n).or (lines o n false)
  | .cpylSt o dst n => if n = 0 then none else (past dst n).or (lines o n false)
  | .cpylGg src dst n =>
    if n = 0 then none
    else (past src n).or ((past dst n).or
      (if src.space = dst.space ∧ src.off.toNat < dst.off.toNat + n ∧ dst.off.toNat < src.off.toNat + n then
        some (0x05, fieldDetail (leBytes 8 dst.off.toNat) (2 ^ 63 + 2)) else none))
  | _ => none

/-- Whether the first command of a flue may start (R308, R346). -/
def State.flueMayStart (s : State) (c : EngineCmd) : Bool :=
  c.run == .queued && (s.cmdCohort c).run == .running && !(s.cmdCohort c).held && !s.rangeHeld c
    && (match c.op with
      | .cpyTile .. => (s.cmds.takeWhile (·.id != c.id)).all fun d => d.hearth != c.hearth || !d.op.isTile || !s.inQueue d || !s.usesMeet c d
      | _ => true)

/-- Receivers of a `cpym` whose range holds a mapped line take nothing: their barrier halts, one record is written (R342). -/
def State.cpymStart (s : State) (c : EngineCmd) (o n : Nat) : State :=
  let bad := (s.receivers c).filter fun x => n != 0 && (x.badLine o n true).isSome
  if bad = [] then s
  else
    let s := s.engineRecord c 0x05 (stashDetail (128 * ((bad.filterMap fun x => x.badLine o n true).headD 0)))
    let s := match c.bar with
      | some b => bad.foldl (fun (s : State) (x : Cohort) => s.barHalt x.uid b n) s
      | none => s
    s.updCmd c.id fun c => { c with skip := bad.map Cohort.uid }

/-- A command that was stopped after its start: it resumes where it stood, its checks made and its block read (R306, R311). -/
def EngineCmd.begun (c : EngineCmd) : Bool := c.done != 0 || c.block.isSome || c.skip != []

/-- Start the next command of a flue. -/
def State.flueStart (s : State) (hearth flue : Nat) : State :=
  match s.flueCmds hearth flue with
  | c :: _ =>
    if !s.flueMayStart c then s
    else if c.begun then s.updCmd c.id fun c => { c with run := .running }
    else match s.flueCheck c with
      | some (r, d) => s.haltCmd c r d
      | none =>
        let s := match c.op with | .cpym o _ n => s.cpymStart c o n | _ => s
        let lay := match c.op with | .cpyStash _ h _ | .cpyTile _ h _ => some (s.layoutBytes (s.cmdSlot c).ctx h) | _ => none
        s.updCmd c.id fun c => { c with run := .running, block := lay }
  | [] => s

/-- Deliveries that a flue command makes: lines of 128 bytes, or one for a tile. -/
def State.flueLines (s : State) (c : EngineCmd) : Nat :=
  match c.op with
  | .cpyl _ _ n | .cpylSt _ _ n | .cpylGg _ _ n | .cpym _ _ n => (n + 127) / 128
  | .cpyStash _ h _ => ((s.cmdLayout c h).bytes + 127) / 128
  | .cpyTile .. => 1
  | _ => 0

/-- Deliver bytes to a line of a cohort in one event: set full, the flue's pointer raised by 128 (R309, R310). -/
def State.deliverLine (s : State) (cohort flue o : Nat) (bs : List (Nat × Byte)) : State :=
  let s := s.updCohort cohort fun c =>
    let c := bs.foldl (fun (c : Cohort) (x : Nat × Byte) => c.putStash x.1 [x.2]) c
    let c := if bs.length = 128 then c.updLine (o / 128) fun l => { l with poison := false } else c
    { c with wptr := c.wptr.zipIdx.map fun (p, i) => if i = flue then p + 128 else p }
  s.fillLine cohort (o / 128)

/-- The element at a place of the box (R313): its coordinates in the order of R315, in range or not, its bit address. -/
def LayoutRec.elemAt (l : LayoutRec) (cs : List Int) (e : Nat) : Option (Int × Nat) :=
  let shift (d : Nat) : Nat := ((List.range d).map l.box).sum
  let x (d : Nat) : Int := if d < l.rank then cs.getD d 0 + (e / 2 ^ shift d % 2 ^ l.box d : Nat) else 0
  let inside := (List.range 5).all fun d => decide (l.rank ≤ d) || (decide (0 ≤ x d) && decide (x d < l.extent d))
  if inside then
    let bits : Int := x 0 * l.width
    some ((l.base.off.toNat : Int) + bits / 8 + ((List.range 5).map fun d => if d = 0 then 0 else x d * l.stride d).sum, (bits % 8).toNat)
  else none

/-- The code that padding takes. -/
def LayoutRec.padCode (l : LayoutRec) : Nat :=
  if l.pad = 1 then (match l.kind with | some k => k.fmt.nanCode | none => 0) else 0

/-- Codes of elements first … first + n − 1 of the box, read one by one at the L2. -/
def State.boxCodes (s : State) (c : EngineCmd) (l : LayoutRec) (cs : List Int) (first n : Nat) : EngAcc × List Nat :=
  let slot := s.cmdSlot c
  (List.range n).foldl (fun (r : EngAcc × List Nat) i => match r.1 with
    | .ok s _ _ =>
      match l.elemAt cs (first + i) with
      | none => (.ok s [] 0, r.2 ++ [l.padCode])
      | some (a, sh) =>
        match s.engRead slot.ctx c.unit slot.node 0 ⟨l.base.space, BitVec.ofInt 64 a⟩ ((sh + l.width + 7) / 8) with
        | .ok s bs _ => (.ok s [] 0, r.2 ++ [leNat bs / 2 ^ sh % 2 ^ l.width])
        | o => (o, r.2)
    | _ => r) (.ok s [] 0, [])

/-- Where the dense byte at o goes under a swizzle (R316). -/
def swizzle (swz o : Nat) : Nat :=
  let q := o % 128
  o / 128 * 128 + (q / 16 ^^^ (o / 128 % 2 ^ swz)) * 16 + q % 16

/-- Count a delivery; its launch completes after its stores do (R56). -/
def State.progress (s : State) (c : EngineCmd) (bytes g : Nat) : State :=
  (s.raiseSlot (s.cmdCohort c).slot g).updCmd c.id fun c => { c with done := c.done + 1, bytes := c.bytes + bytes, gwct := max c.gwct g, since := none }
/-- Count a delivery of a flue; the last one ends its reads (R318). -/
def State.delivered (s : State) (c : EngineCmd) (bytes g : Nat) : State :=
  let s := s.progress c bytes g
  if s.flueLines c ≤ c.done + 1 then s.dropReadLocks c.hearth c.id else s

/-- The next delivery of a running flue command. -/
def State.flueDeliver (s : State) (c : EngineCmd) : State :=
  let slot := s.cmdSlot c
  let u := c.unit
  let k := c.done
  let len (n : Nat) : Nat := min 128 (n - 128 * k)
  let placed (o : Nat) (bs : List Byte) : List (Nat × Byte) := bs.zipIdx.map fun (b, i) => (o + 128 * k + i, b)
  match c.op with
  | .cpyl o src n =>
    match s.engRead slot.ctx u slot.node 0 (gplus src (128 * k)) (len n) with
    | .ok s bs _ => (s.deliverLine c.cohort c.flue (o + 128 * k) (placed o bs)).delivered c bs.length 0
    | r => s.engStop c 0 r
  | .cpym o src n =>
    match s.engRead slot.ctx u slot.node 0 (gplus src (128 * k)) (len n) with
    | .ok s bs _ =>
      ((s.receivers c).foldl (fun s x => s.deliverLine x.uid c.flue (o + 128 * k) (placed o bs)) s).delivered c bs.length 0
    | r => s.engStop c 0 r
  | .cpylSt o dst n =>
    if !s.engReady c (o / 128 + k) then s.engWait c
    else if ((s.cmdCohort c).line (o / 128 + k)).poison then s.haltCmd c 0x09 (stashDetail (o + 128 * k))
    else
      let bs := Memory.bytes (s.cmdCohort c).stash (o + 128 * k) (len n)
      match s.engWrite slot.ctx u c.hearth slot.node (gplus dst (128 * k)) bs with
      | .ok s _ g => s.delivered c bs.length g
      | r => s.engStop c 1 r
  | .cpylGg src dst n =>
    match s.engRead slot.ctx u slot.node 0 (gplus src (128 * k)) (len n) with
    | .ok s bs _ =>
      match s.engWrite slot.ctx u c.hearth slot.node (gplus dst (128 * k)) bs with
      | .ok s _ g => s.delivered c bs.length g
      | r => s.engStop c 1 r
    | r => s.engStop c 0 r
  | .cpyStash o h cs =>
    let l := s.cmdLayout c h
    let n := len l.bytes
    let first := 1024 * k / l.width
    let last := (1024 * k + 8 * n + l.width - 1) / l.width
    match s.boxCodes c l (coordInts cs) first (last - first) with
    | (.ok s _ _, codes) =>
      let v := leNat (packBytes l.width (codes ++ [0, 0, 0])) / 2 ^ (1024 * k - l.width * first)
      let bs := (leBytes n v).zipIdx.map fun (b, i) => (swizzle l.swz (o + 128 * k + i), b)
      (s.deliverLine c.cohort c.flue (o + 128 * k) bs).delivered c n 0
    | (r, _) => s.engStop c 0 r
  | .cpyTile t h cs =>
    let l := s.cmdLayout c h
    match s.boxCodes c l (coordInts cs) 0 l.elems with
    | (.ok s _ _, codes) =>
      let s := s.updCohort c.cohort fun co =>
        co.setTile { co.tile t with elems := putRun (co.tile t).elems 0 (packBytes l.width codes), fault := false, poison := false }
      s.delivered c l.bytes 0
    | (r, _) => s.engStop c 0 r
  | _ => s

/-- Whether the running command of a flue has made all its deliveries and its writes are globally complete (R320). -/
def State.flueDone (s : State) (c : EngineCmd) : Bool :=
  c.run == .running && decide (s.flueLines c ≤ c.done) && (c.gwct == 0 || decide (c.gwct + 8 ≤ s.ltimeAt (dieOfHearth c.hearth)))

/-! ### The tile engine (R300 to R307, R322, R329 to R339) -/

/-- The checks of a tile command when it starts: the reason and its detail. -/
def State.tileCheck (s : State) (c : EngineCmd) : Option (Nat × List Byte) :=
  let co := s.cmdCohort c
  let fm := s.cmdFormats c
  let bad (t : Nat) : Option (Nat × List Byte) := some (0x08, tileDetail co fm false t 0)
  let need (t : Nat) : Option (Nat × List Byte) := if tcfgSet (co.tile t).tcfg then none else bad t
  let lines (o n : Nat) (mapped : Bool) : Option (Nat × List Byte) := (co.badLine o n mapped).map fun i => (0x05, stashDetail (128 * i))
  let kinded (t : Nat) : Bool := (tileKind (co.tile t) (fm.getD (tcfgSlot (co.tile t).tcfg) 0)).isSome
  match c.op with
  | .tldTile t o => (need t).or (lines o (T co t) false)
  | .tldAcc _ o => lines o 16384 false
  | .tstTile t o => (need t).or (if (co.tile t).fault then bad t else lines o (T co t) true)
  | .tstAcc n o => if !(co.acc n).valid then some (0x08, tileDetail co fm true n 0) else lines o 16384 true
  | .tbmp t => if kinded t then none else bad t
  | .tcvt t a ctl _ =>
    let d (acc : Bool) (n : Nat) : Option (Nat × List Byte) := some (0x08, tileDetail co fm acc n ctl)
    let tc := (co.tile t).tcfg
    if !kinded t then d false t
    else if ctlRnd ctl = some .rs ∧ 8 < tcfgW tc then d false t
    else if ctlSrc ctl then (if !(co.acc a).valid then d true a else if 64 < tcfgCols tc then d false t else none)
    else if !kinded a then d false a
    else if tcfgRows (co.tile a).tcfg ≠ tcfgRows tc ∨ tcfgCols (co.tile a).tcfg ≠ tcfgCols tc then d false a
    else none
  | .tgat t _ _ => need t
  | .tmma _ =>
    match c.block with
    | some b => if mmaOk co fm b then none else some (0x08, mmaDetail co fm b)
    | none => none
  | _ => none

/-- A tile register or accumulator that a command reads holds poison (R414): the accumulator of a `tmma` only where it accumulates. -/
def State.tilePoison (s : State) (c : EngineCmd) : Bool :=
  let co := s.cmdCohort c
  match c.op with
  | .tstTile t _ | .tbmp t => (co.tile t).poison
  | .tstAcc n _ | .tacc n _ => (co.acc n).poison
  | .tcvt _ a ctl _ => if ctlSrc ctl then (co.acc a).poison else (co.tile a).poison
  | .tmma _ =>
    (c.uses (s.cmdFormats c)).any fun x =>
      if x.1 then (co.tile x.2.1).poison else ((c.block.getD []).getD 3 0).getLsbD 0 && (co.acc x.2.1).poison
  | _ => false

/-- A tile command may start (R300, R301, R308, R337): its cohort runs, no earlier command of the hearth conflicts with it, an earlier flue
command has not still to write a tile that it names, an earlier `tstat` of its cohort has been performed, and, for a read, no earlier command
of its cohort runs. -/
def State.tileMayStart (s : State) (c : EngineCmd) : Bool :=
  let before := s.cmds.takeWhile fun d => d.id != c.id
  c.run == .queued && (s.cmdCohort c).run == .running && !(s.cmdCohort c).held
    && before.all (fun d => d.hearth != c.hearth || !d.op.isTile || !s.inQueue d
        || (!s.usesMeet c d && !((c.op.isRead || d.op.isStat) && d.cohort == c.cohort)))
    && before.all (fun d => match d.op with | .cpyTile .. => d.hearth != c.hearth || !s.usesMeet c d | _ => true)
    && (match c.op with
      | .tgat _ _ rows => !s.rangeHeld c && rows.all fun r => ((s.fibre? r.uid).map (·.order.isNone)).getD true
      | _ => true)

/-- A `tmma` whose block is still to be read (R300). -/
def EngineCmd.unread (c : EngineCmd) : Bool := (match c.op with | .tmma _ => true | _ => false) && c.block.isNone

/-- A command starts: its checks, then it runs. -/
def State.tileGo (s : State) (c : EngineCmd) : State :=
  if c.done ≠ 0 then s.updCmd c.id fun c => { c with run := .running, since := none }
  else match s.tileCheck c with
  | some (r, d) => s.haltCmd c r d
  | none =>
    if s.tilePoison c then s.haltCmd c 0x09 (freeBytes s.run.tick 28 (64 * c.id) 10)
    else s.updCmd c.id fun c => { c with run := .running, since := none }

/-- The first of these commands starts, if it may: `tmma` reads its block once its line is full (R302). Until its block is read, it holds
the later commands of its own cohort only, which are passed over (R300). -/
def State.tileNext (s : State) (held : List Nat) : List EngineCmd → State
  | [] => s
  | c :: rest =>
    if held.contains c.cohort then State.tileNext s held rest
    else if !s.tileMayStart c then (if c.unread then State.tileNext s (c.cohort :: held) rest else s)
    else match c.op with
      | .tmma o =>
        if c.block.isSome then s.tileGo c
        else if !s.engReady c (o / 128) then State.tileNext (s.engWait c) (c.cohort :: held) rest
        else
          let b := (s.cmdCohort c).block o
          let s := s.updCmd c.id fun c => { c with block := some b }
          if ((s.cmdCohort c).line (o / 128)).poison then s.haltCmd c 0x09 (stashDetail o) else s.tileGo { c with block := some b }
      | _ => s.tileGo c

/-- The tile engine is suspended until a service of one of its commands has ended (R317). -/
def State.tileSuspended (s : State) (hearth : Nat) : Bool := (s.tileCmds hearth).any (·.run == .suspended)

/-- Start the next tile command (R300). -/
def State.tileStart (s : State) (hearth : Nat) : State :=
  if s.tileSuspended hearth then s else s.tileNext [] ((s.tileCmds hearth).filter fun c => c.run == .held || c.run == .queued)

/-- Bytes of an image that lie in its line k: from, to. -/
def imagePart (o n k : Nat) : Nat × Nat := (max o ((o / 128 + k) * 128), min (o + n) ((o / 128 + k + 1) * 128))
def imageLines (o n : Nat) : Nat := (o + n + 127) / 128 - o / 128

/-- One line of a `tld` (R332): read in the event that finds it full; the last one completes the command. -/
def State.tldLine (s : State) (c : EngineCmd) (o n : Nat) (put : Cohort → Nat → Byte → Cohort) (done : Cohort → Cohort) : State :=
  let line := o / 128 + c.done
  if !s.engReady c line then s.engWait c
  else if ((s.cmdCohort c).line line).poison then s.haltCmd c 0x09 (stashDetail (128 * line))
  else
    let (lo, hi) := imagePart o n c.done
    let s := s.updCohort c.cohort fun co =>
      ((List.range (hi - lo)).foldl (fun (co : Cohort) i => put co (lo + i - o) (Memory.get co.stash (lo + i))) co)
    let s := s.progress c (hi - lo) 0
    if c.done + 1 = imageLines o n then (s.updCohort c.cohort done).finishCmd c n else s

/-- One line of a `tst` (R332): written and set full in one event. -/
def State.tstLine (s : State) (c : EngineCmd) (o n : Nat) (img : List Byte) : State :=
  let (lo, hi) := imagePart o n c.done
  let s := s.updCohort c.cohort fun co => (co.putStash lo ((img.drop (lo - o)).take (hi - lo)))
  let s := s.fillLine c.cohort (o / 128 + c.done)
  let s := s.progress c (hi - lo) 0
  if c.done + 1 = imageLines o n then s.finishCmd c n else s

/-- Rows of a `tgat` not yet filled (R322). -/
def GatRow.done (prog : DWord) (r : GatRow) : Bool := prog.getLsbD r.y
/-- A member's row is read into the tile in one event with its progress bit. -/
def Cohort.gatRow (co : Cohort) (t y : Nat) (bs : List Byte) : Cohort :=
  let tl := co.tile t
  let e := tcfgCols tl.tcfg * tcfgW tl.tcfg / 8
  co.setTile { tl with elems := putRun tl.elems (y * e) (bs.take e),
                       scales := if tcfgSp tl.tcfg then putRun tl.scales (y * (tcfgCols tl.tcfg / 16)) (bs.drop e) else tl.scales }

/-! ### A cause that reaches a fibre after its group has taken effect -/

/-- A result's registers are no longer awaited. -/
def Fibre.dropPend (f : Fibre) (name : Nat) : Fibre := { f with pend := f.pend.filter fun p => p.src != .op name }

/-- The reads of a fibre are discarded, with the group that waits for them: it executes again (R327). What a `tstat` among them has cleared
stands again (R337; DESIGN CHOICE, log 103). -/
def State.dropReads (s : State) (uid : Nat) : State :=
  let mine (c : EngineCmd) : Bool := c.uid == uid && c.op.isRead
  let n := (s.cmds.filter fun c => mine c && c.run != .finished).length
  let stats := s.cmds.filter fun c => mine c && c.op == .tstatTile && c.run == .finished
  let s := stats.foldl (fun (s : State) c => s.updCohort c.cohort fun co => { co with tileStatus := co.tileStatus ||| c.value.setWidth 8 }) s
  { s with cmds := s.cmds.filter fun c => !mine c }.updFibre uid fun f =>
    if f.held.isSome then { f with tl := f.tl - n, held := none, deferred := f.deferred.takeWhile fun x => x.2 == Fx.engineGo } else f

/-- The fibre leaves whatever it stands blocked by: presentations, reads, walks, device barriers (R38, R74, R171, R327). -/
def State.unblock (s : State) (uid : Nat) : State :=
  match s.fibre? uid with
  | none => s
  | some f =>
    let mine := (((s.cohortOf f).crew? f.crew).map fun w =>
      (w.rdvs.flatMap fun r => (r.members.filter (·.uid == uid)).map fun p => (r.tag, p.name))).getD []
    let s := s.updCrew f.cohort f.crew fun w =>
      { w with rdvs := (w.rdvs.map fun r => { r with members := r.members.filter (·.uid != uid) }).filter (·.members != []) }
    let s := mine.foldl (fun (s : State) (x : Nat × Nat) =>
      let s := s.updFibre uid fun f => f.dropPend x.2
      if x.1 = 256 then (s.dropLocks (s.hearthOf f) x.2).updFibre uid Fibre.dropTl else s) s
    let s := (s.dropReads uid).updFibre uid fun f => { f with sent := 0 }
    { s with
      walks := (s.walks.map fun (w : Walk) => { w with reqs := w.reqs.filter fun r => match r.2 with | .fibre u _ | .fetch u => u != uid | _ => true }).filter (·.reqs != [])
      devBars := s.devBars.map fun (b : DevBar) =>
        { b with waiting := b.waiting.filter (· != uid), wakes := b.wakes.map fun w => (w.1, w.2.filter (· != uid)) } }

/-- Raise a cause in a fibre that may stand blocked. -/
def State.raiseLate (s : State) (uid : Nat) (c : Cause) (tval : DWord) (pc : Word) : State := (s.unblock uid).raise uid c tval pc

/-- A member that owns a faulting row raises its cause at its word and leaves the instruction for now (R323). -/
def State.gatRaise (s : State) (r : GatRow) (cause : Cause) : State :=
  (s.updFibre r.uid Fibre.dropTl).raiseLate r.uid cause r.addr.off r.pc

/-- Progress of a `tgat`: one row of a present member, the choice of row free; when none is left it completes (R322, R339). -/
def State.gatStep (s : State) (c : EngineCmd) (t : Nat) (rows : List GatRow) : State :=
  let prog := (((s.cmdCohort c).crew? c.crew).map (·.tgprog)).getD 0
  let live (r : GatRow) : Bool := ((s.fibre? r.uid).map (!·.exited)).getD false
  let tc := ((s.cmdCohort c).tile t).tcfg
  let open' := rows.filter fun r => decide (r.y < tcfgRows tc) && !r.done prog && live r
  let ready := open'.filter fun r => ((s.fibre? r.uid).map (·.waits.contains (.engineRead c.id))).getD false
  match ready[Config.choice s.run.tick 20 c.id % max 1 ready.length]? with
  | some r =>
    let slot := s.cmdSlot c
    match s.engRead slot.ctx c.unit slot.node 3 r.addr (gatBytes tc) with
    | .ok s bs _ =>
      let s := if open'.length = 1 then s.dropReadLocks c.hearth c.id else s
      let s := s.updCohort c.cohort fun co => co.gatRow t r.y bs
      let s := s.updCrew c.cohort c.crew fun w => { w with tgprog := w.tgprog ||| BitVec.ofNat 64 (2 ^ r.y) }
      s.updCmd c.id fun c => { c with bytes := c.bytes + bs.length }
    | .fault a =>
      match s.walk (dieOfHearth c.hearth) slot.ctx a 3 false with
      | .absent _ k | .fault k => s.gatRaise { r with addr := a } k
      | _ => match s.translate c.hearth slot.ctx 3 a a.off with
        | .fault k _ => s.gatRaise { r with addr := a } k
        | _ => s.gatRaise { r with addr := a } (mkCause 3 9)
    | .poison a => s.gatRaise { r with addr := a } (mkCause 10 0)
    | .serve a lvl srv size =>
      match s.startService slot.ctx 3 a lvl srv size [(3, .engine c.id a.off)] with
      | (s, true) => s.updCmd c.id fun c => { c with run := .suspended }
      | (s, false) => s.gatRaise { r with addr := a } (fault4 3 7)
    | .hold => s
  | none =>
    if open' = [] then
      let full := (List.range (tcfgRows tc)).all fun y => prog.getLsbD y
      let s := s.updCohort c.cohort fun co =>
        let tl := co.tile t
        co.setTile { tl with tcfg := withBv tl.tcfg false, fault := if full then false else tl.fault, poison := if full then false else tl.poison }
      s.finishCmd c (c.bytes)
    else s

/-- The source of a `tcvt`. -/
def tcvtSource (co : Cohort) (fm : List Word) (a : Nat) (ctl : Word) : (Nat → Nat → FVal) × Bool :=
  if ctlSrc ctl then (fun r q => fmtF32.decode ((co.acc a).get (64 * r + q)).toNat, false)
  else
    let t := co.tile a
    let d := fm.getD (tcfgSlot t.tcfg) 0
    match tileKind t d with
    | some k => (tileElemVal t k (tcfgSp t.tcfg), t.fault)
    | none => (fun _ _ => .fin false 0 0, t.fault)

/-- Progress or completion of a running tile command (R304, R306, R328, R330 to R337): a `tmma` goes on by one block of k. The reserved bits
of tcfg are not written (R12). -/
def State.tileStep (s : State) (c : EngineCmd) : State :=
  let co := s.cmdCohort c
  let fm := s.cmdFormats c
  let n := s.countDone c
  match c.op with
  | .mtc t v => (s.updCohort c.cohort fun co => co.setTile { co.tile t with tcfg := v &&& 0xFFFFFC00#32, fault := false }).finishCmd c 0
  | .mfc t => s.readDone c ((co.tile t).tcfg.zeroExtend 64) none
  | .tacc a i => s.readDone c (((co.acc a).get i).zeroExtend 64) (if (co.acc a).valid then none else some (mkCause 6 0))
  | .tstatTile => (s.updCohort c.cohort fun co => { co with tileStatus := 0 }).readDone c (co.tileStatus.zeroExtend 64) none
  | .tstatBarrier b => s.readDone c (s.barStatus co b) none
  | .tzeroTile t => (s.updCohort c.cohort fun co => co.setTile (co.tile t).zero).finishCmd c n
  | .tzeroAcc a => (s.updCohort c.cohort fun co => co.setAcc (Accum.fresh a)).finishCmd c n
  | .tldTile t o =>
    s.tldLine c o (T co t) (fun co i b => co.setTile ((co.tile t).putImage i b))
      (fun co => co.setTile { co.tile t with tcfg := withBv (co.tile t).tcfg false, fault := false, poison := false })
  | .tldAcc a o =>
    s.tldLine c o 16384
      (fun co i b =>
        let old := ((co.acc a).get (i / 4)).toNat
        let w := BitVec.ofNat 32 (old - old / 2 ^ (8 * (i % 4)) % 256 * 2 ^ (8 * (i % 4)) + b.toNat * 2 ^ (8 * (i % 4)))
        co.setAcc { co.acc a with elems := (i / 4, w) :: (co.acc a).elems.filter fun x => x.1 != i / 4 })
      (fun co => co.setAcc { co.acc a with valid := true, poison := false })
  | .tstTile t o => s.tstLine c o (T co t) (co.tile t).image
  | .tstAcc a o => s.tstLine c o 16384 (co.acc a).image
  | .tmma _ =>
    let b := c.block.getD []
    let s := s.updCohort c.cohort fun co => co.mmaBlock fm b c.done
    if mmaBlocks fm b ≤ c.done + 1 then (s.updCohort c.cohort fun co => co.mmaValid fm b).finishCmd c n else s.progress c 0 0
  | .tbmp t =>
    (s.updCohort c.cohort fun co => match tileKind (co.tile t) (fm.getD (tcfgSlot (co.tile t).tcfg) 0) with
      | some k => co.setTile ((co.tile t).bmp k)
      | none => co).finishCmd c n
  | .tcvt t a ctl q =>
    let d := fm.getD (tcfgSlot (co.tile t).tcfg) 0
    match tileKind (co.tile t) d, ctlRnd ctl with
    | some k, some mode =>
      let (x, fault) := tcvtSource co fm a ctl
      let (t', fl) := (co.tile t).convert d k mode (ctlNsel ctl) q.toNat x fault
      (s.updCohort c.cohort fun co => { co.setTile t' with tileStatus := co.tileStatus ||| fl.zeroExtend 8 }).finishCmd c n
    | _, _ => s.haltCmd c 0x08 (tileDetail co fm false t ctl)
  | .tgat t _ rows => s.gatStep c t rows
  | _ => s

/-! ### The collective (R344, R345) -/

/-- One combination of R345 on raw values. -/
def collCombine (ctl : Word) (x y : Nat) : Nat :=
  let t := collTy ctl
  match ctl.toNat % 4, t.isBin with
  | 0, true => (t.fmt.finish .rne false (fAdd .rne (t.fmt.decode x) (t.fmt.decode y))).1
  | 0, false => (x + y) % 2 ^ t.bits
  | op, true => (t.fmt.finish .rne false (fMinMax (op == 2) (t.fmt.decode x) (t.fmt.decode y))).1
  | op, false =>
    let less := decide (t.num x < t.num y)
    if (op == 1) == less then x else y

/-- One level of the tree of R79 over the ranks: a missing partner passes through. -/
def treeLevel (g : Nat → Nat → Nat) : List (Option Nat) → List (Option Nat)
  | some x :: some y :: t => some (g x y) :: treeLevel g t
  | some x :: none :: t => some x :: treeLevel g t
  | none :: y :: t => y :: treeLevel g t
  | [x] => [x]
  | [] => []
/-- The tree over 2^n leaves. -/
def treeReduce (g : Nat → Nat → Nat) : Nat → List (Option Nat) → Option Nat
  | 0, l => l.headD none
  | n + 1, l => treeReduce g n (treeLevel g l)

/-- Levels of the tree over P ranks: it spans the smallest power of two at or above P (R345). -/
def treeDepth (peers : Nat) : Nat := if peers ≤ 1 then 0 else Nat.log2 (peers - 1) + 1

/-- The contributions of the ranks, this device's own at its rank. -/
def ranksOf (rank peers : Nat) (mine : Nat) (others : List Nat) : List (Option Nat) :=
  let all := others.take rank ++ mine :: others.drop rank
  (List.range (2 ^ treeDepth peers)).map fun i => if i < peers then all[i]? else none

/-- What stops a collective before a byte is written (R345): a partial overlap of this rank's ranges, or a rank whose count or control word
differs. Each rank's contribution is its control word and its elements, the other ranks' in rank order. -/
def collBad (n : Nat) (src dst : GAddr) (ctl : Word) (others : List (List Word)) : Option (List Byte) :=
  let sz := (collTy ctl).bits / 8
  let overlap := src != dst && decide (src.off.toNat < dst.off.toNat + n * sz) && decide (dst.off.toNat < src.off.toNat + n * sz)
  if overlap then some (fieldDetail (leBytes 8 dst.off.toNat) (2 ^ 63 + 2))
  else if others.any (fun o => decide (o.length ≠ n + 1)) then some (fieldDetail (leBytes 4 n) (2 ^ 63 + 4))
  else if others.any (fun o => o.headD 0 != ctl) then some (fieldDetail (leBytes 4 ctl.toNat) (2 ^ 63 + 5))
  else none

/-- The elements of the result (R345). -/
def collVals (rank peers n : Nat) (ctl : Word) (mine : List Byte) (others : List (List Word)) : List Nat :=
  let sz := (collTy ctl).bits / 8
  (List.range n).map fun i =>
    (treeReduce (collCombine ctl) (treeDepth peers) (ranksOf rank peers (leNat ((mine.drop (sz * i)).take sz))
      (others.map fun o => (o.getD (i + 1) 0).toNat % 2 ^ (8 * sz)))).getD 0

/-- The collective reads its source, which ends its read entry, and writes its destination. -/
def State.collCopy (s : State) (c : EngineCmd) (others : List (List Word)) : State :=
  match c.op with
  | .coll src dst n ctl =>
    let slot := s.cmdSlot c
    let sz := (collTy ctl).bits / 8
    match s.engRead slot.ctx c.unit slot.node 0 src (n * sz) with
    | .ok s bs _ =>
      let vals := collVals slot.record.rank slot.record.peers n ctl bs others
      match s.engWrite slot.ctx c.unit c.hearth slot.node dst (vals.flatMap fun v => leBytes sz v) with
      | .ok s _ g => (s.progress c (n * sz) g).dropReadLocks c.hearth c.id
      | r => s.engStop c 1 r
    | r => s.engStop c 0 r
  | _ => s

/-- The collective goes on for this rank (R345, R347), once every other rank has issued its own; one of a cohort that the damper holds does
not start (R429). It is not stopped with its cohort: while that is suspended its bytes still move, and its end is applied to what was saved
once that is restored. -/
def State.collDo (s : State) (c : EngineCmd) (others : List (List Word)) : State :=
  match c.op with
  | .coll src dst n ctl =>
    let away := (s.cmdCohort c).run == .suspended
    if c.done = 0 then
      if s.rangeHeld c || (s.cmdCohort c).held then s
      else match collBad n src dst ctl others with
        | some d => if away then s else s.haltCmd c 0x05 d
        | none =>
          if others.length + 1 ≠ (s.cmdSlot c).record.peers then s
          else if n = 0 then (if away then s.updCmd c.id fun c => { c with done := 1 } else s.finishCmd c 0)
          else s.collCopy c others
    else if !away && decide (c.gwct + 8 ≤ s.ltimeAt (dieOfHearth c.hearth)) then s.finishCmd c (n * ((collTy ctl).bits / 8))
    else s
  | _ => s

end Sys2Proof.Machine
end

