-- ==== Sys2Proof/Machine/Groups.lean ====
section
/-! DEFINITION. Rendezvous of a crew: presenting, completion, failure, deadlock, and the results of the group words (R71 to R79,
R250 to R258, R322, R338). -/

namespace Sys2Proof.Machine

/-! ### Sets (R71, R72, R75) -/

/-- The first vlane of a presentation's sub-group. -/
def Presentation.base (p : Presentation) : Nat := p.vlane / p.width * p.width
/-- A vlane lies in the sub-group. -/
def Presentation.spans (p : Presentation) (v : Nat) : Bool := decide (p.base ≤ v) && decide (v < p.base + p.width)
/-- A vlane belongs to the rendezvous set: all of the sub-group, or those in the presented mask (Table 4.3). -/
def Presentation.awaits (p : Presentation) (v : Nat) : Bool :=
  p.spans v && (match p.set with | .reg _ => p.mask.getLsbD v | _ => true)
def Presentation.overlaps (p q : Presentation) : Bool := p.spans q.base || q.spans p.base
/-- What members must agree on (R75). The mask jn of a `jmsk`, which R75 does not name, is part of its kind: members that name two masks fail
(DESIGN CHOICE, log 98). -/
def Presentation.agrees (p q : Presentation) : Bool := p.kind == q.kind && p.set == q.set && p.mask == q.mask && p.width == q.width

/-- The %tval of a group cause: the tag. `tgat` has no tag, and the spec states no value for it: a free value. -/
def State.rdvTval (s : State) (tag : Nat) : DWord := BitVec.ofNat 64 (if tag = 256 then Config.choice s.run.tick 24 0 else tag)

/-! ### Presenting (R74, R75, R322) -/

/-- Join the open rendezvous of a tag that overlap the presentation's sub-group, or open one. -/
def joinRdv (now tag : Nat) (p : Presentation) (rs : List Rdv) : List Rdv :=
  let hit (r : Rdv) : Bool := r.tag == tag && r.members.any (·.overlaps p)
  let old := rs.filter hit
  let members := old.flatMap (·.members)
  { tag := tag, since := old.foldl (fun n r => min n r.since) now, members := members ++ [p],
    failed := old.any (·.failed) || members.any fun q => !q.agrees p } :: rs.filter fun r => !hit r

/-- The running `tgat` of a crew (R323). -/
def State.crewGather (s : State) (f : Fibre) : Option EngineCmd :=
  s.cmds.find? fun c => c.cohort == f.cohort && c.crew == f.crew && (match c.op with | .tgat .. => true | _ => false)

/-- A member that presents again names the tile, the LIT word and the V(B) of the `tgat` that its crew executes (R338). -/
def EngineCmd.sameGather (c : EngineCmd) (p : Presentation) : Bool :=
  match c.op, p.kind with
  | .tgat t r0 _, .tgat u lit b => t == u && r0 == b.toNat && c.bar == (if lit.bv then some lit.bar.toNat else none)
  | _, _ => false

/-- A `tgat` that its crew executes takes a member back, its row and the row's entry anew (R318, R323). -/
def State.rejoin (s : State) (f : Fibre) (c : EngineCmd) (p : Presentation) : State :=
  let op := match c.op with
    | .tgat t r0 rows => EngOp.tgat t r0 (rows.map fun r => if r.uid = f.uid then { r with addr := p.addr, pc := p.pc, next := f.arch.pc } else r)
    | o => o
  let c' : EngineCmd := { c with op := op }
  ((s.dropLocks c.hearth c.id).updHearth c.hearth fun h => { h with locks := h.locks ++ s.ranges c' }).updCmd c.id (fun _ => c')
    |>.updFibre f.uid fun f => { f.bumpTl with waits := f.waits ++ [.engineRead c.id], arch := { f.arch with pc := p.pc } }

/-- A member that presents again something else fails the rendezvous: every member that stands at the word raises 8.00, itself included, and
the command is over (R338; DESIGN CHOICE, log 103). -/
def State.gatherFails (s : State) (f : Fibre) (c : EngineCmd) (p : Presentation) : State :=
  let rows := match c.op with | .tgat _ _ rows => rows | _ => []
  let here := rows.filter fun r => ((s.fibre? r.uid).map (·.waits.contains (.engineRead c.id))).getD false
  let s := { s with cmds := s.cmds.filter fun d => d.id != c.id }.dropLocks c.hearth c.id
  let s := s.updCrew c.cohort c.crew fun w => { w with tgprog := 0 }
  let s := here.foldl (fun (s : State) r => (s.updFibre r.uid Fibre.dropTl).raiseLate r.uid (mkCause 8 0) (s.rdvTval 256) r.pc) s
  s.raiseLate f.uid (mkCause 8 0) (s.rdvTval 256) p.pc

/-- A member presents. A member of a `tgat` stands at its word, its PC unchanged, until the instruction completes (R323); one of a `tgat` that
its crew is still executing joins it again. -/
def State.present (s : State) (uid tag : Nat) (p : Presentation) : State :=
  match s.fibre? uid with
  | none => s
  | some f =>
    if tag = 256 then
      match s.crewGather f with
      | some c => if c.sameGather p then s.rejoin f c p else s.gatherFails f c p
      | none =>
        let s := (s.updCrew f.cohort f.crew fun w => { w with rdvs := joinRdv s.ltime tag { p with next := f.arch.pc } w.rdvs }).updFibre uid fun f =>
          { f.bumpTl with waits := f.waits ++ [.group tag], arch := { f.arch with pc := p.pc } }
        s.resizeLocks (s.cohortOf f)
    else
      (s.updCrew f.cohort f.crew fun w => { w with rdvs := joinRdv s.ltime tag p w.rdvs }).updFibre uid fun f =>
        { f with waits := f.waits ++ [.group tag] }

/-! ### Results (R78, R79, R251 to R256) -/

/-- The contributors among the members, by the masks as they stand (Table 4.3). -/
def contributors (masks : List Word) (ms : List Presentation) : List Presentation :=
  ms.filter fun p => match p.set with | .mask j => (masks.getD j.toNat 0).getLsbD p.vlane | _ => true

def laneMask (ps : List Presentation) : Word := ps.foldl (fun m p => m ||| BitVec.ofNat 32 (2 ^ p.vlane)) 0

/-- The source vlane of a shuffle, if its index is in range (R78). -/
def shflSource (mode : BitVec 2) (v b w i : Nat) : Option Nat :=
  match mode.toNat with
  | 0 => if i < w then some (b + i) else none
  | 1 => if b + i ≤ v then some (v - i) else none
  | 2 => if v + i < b + w then some (v + i) else none
  | _ => if i < w then some (b + ((v - b) ^^^ i)) else none

/-- Combine two operands of `redu` and `scan` (R255): raw values with flags. -/
def grpCombine (o : RegIx) (rnd : Rnd) (den : Den) (x y : Nat × FFlags) : Nat × FFlags :=
  let t := grpTy (o.extractLsb' 0 3)
  let fl := x.2 ||| y.2
  let fv (z : Nat) : FVal := t.fmt.daz den.dazOn (t.fmt.decode z)
  match (o.extractLsb' 3 3).toNat with
  | 0 =>
    if t.isF then let r := t.fmt.finish rnd den.ftzOn (fAdd rnd (fv x.1) (fv y.1)); (r.1, fl ||| r.2)
    else ((x.1 + y.1) % 2 ^ t.bits, fl)
  | 1 =>
    if t.isF then
      let r := t.fmt.finish rnd den.ftzOn (fMinMax false (fv x.1) (fv y.1)); (r.1, fl ||| r.2 ||| fMinMaxNv (fv x.1) (fv y.1))
    else (if rawLess t y.1 x.1 then y.1 else x.1, fl)
  | 2 =>
    if t.isF then
      let r := t.fmt.finish rnd den.ftzOn (fMinMax true (fv x.1) (fv y.1)); (r.1, fl ||| r.2 ||| fMinMaxNv (fv x.1) (fv y.1))
    else (if rawLess t x.1 y.1 then y.1 else x.1, fl)
  | 3 => (x.1 &&& y.1, fl)
  | 4 => (x.1 ||| y.1, fl)
  | 5 => (x.1 ^^^ y.1, fl)
  | _ => (modPow t.bits (t.sat (t.num x.1 + t.num y.1)), fl)

/-- The tree of R79 on values with flags. -/
def pairLevel {α : Type} (g : α → α → α) : List (Option α) → List (Option α)
  | some x :: some y :: t => some (g x y) :: pairLevel g t
  | some x :: none :: t => some x :: pairLevel g t
  | none :: y :: t => y :: pairLevel g t
  | [x] => [x]
  | [] => []
def pairTree {α : Type} (g : α → α → α) : Nat → List (Option α) → Option α
  | 0, l => l.headD none
  | n + 1, l => pairTree g n (pairLevel g l)

/-- Operand of a vlane among contributors. -/
def operandAt (cs : List Presentation) (v : Nat) : Option (Nat × FFlags) := (cs.find? (·.vlane == v)).map fun p => (p.opnd, 0)

/-- What a member receives: words of its destination, its predicates, flags. -/
def Presentation.result (p : Presentation) (cs : List Presentation) : List Word × List (Nat × Bool) × FFlags :=
  let lanes := (List.range p.width).map fun k => p.base + k
  match p.kind with
  | .shfl mode w64 =>
    let src := (shflSource mode p.vlane p.base p.width p.idx.toNat).bind fun v => cs.find? (·.vlane == v)
    let v := (src.map (·.opnd)).getD p.opnd
    ((if w64 then Ty.b64 else Ty.b32).words v, [(p.pdst.toNat, src.isSome)], 0)
  | .bcst w64 idx =>
    let src := (shflSource 0 p.vlane p.base p.width idx.toNat).bind fun v => cs.find? (·.vlane == v)
    let v := (src.map (·.opnd)).getD p.opnd
    ((if w64 then Ty.b64 else Ty.b32).words v, [(p.pdst.toNat, src.isSome)], 0)
  | .vote mode =>
    let r := match mode.toNat with
      | 0 => cs.any (·.pred)
      | 1 => cs.all (·.pred)
      | _ => cs.all (·.pred) || cs.all fun q => !q.pred
    ([], [(p.pdst.toNat, r)], 0)
  | .redu o rnd den =>
    let t := grpTy (o.extractLsb' 0 3)
    let r := (pairTree (grpCombine o rnd den) (Nat.log2 p.width) (lanes.map (operandAt cs))).getD (0, 0)
    (t.words r.1, [], r.2)
  | .scan o rnd den =>
    let t := grpTy (o.extractLsb' 0 3)
    let r := ((lanes.filter fun v => decide (v ≤ p.vlane)).filterMap (operandAt cs)).foldl
      (fun (a : Option (Nat × FFlags)) x => match a with | none => some x | some a => some (grpCombine o rnd den a x)) none
    (t.words (r.getD (0, 0)).1, [], (r.getD (0, 0)).2)
  | .mtch t =>
    ([laneMask (cs.filter fun q => q.opnd % 2 ^ (grpTy t).bits == p.opnd % 2 ^ (grpTy t).bits)], [], 0)
  | .elect => ([], [(p.pdst.toNat, cs.any (·.uid == p.uid) && cs.all fun q => decide (p.vlane ≤ q.vlane))], 0)
  | .rdv => ([laneMask cs], [], 0)
  | .jmsk _ _ | .tgat .. => ([], [], 0)

/-! ### Completion (R74, R75, R258) -/

/-- Every live fibre of the waiting set has presented. -/
def State.rdvWhole (s : State) (cohort crew : Nat) (r : Rdv) : Bool :=
  r.members != [] && (s.crewLive cohort crew).all fun f => !r.members.any (·.awaits f.vlane) || r.members.any (·.uid == f.uid)

def Rdv.isJmsk (r : Rdv) : Bool := match r.members.head? with | some p => (match p.kind with | .jmsk .. => true | _ => false) | none => false

/-- A `jmsk` writes its mask for the vlanes of its sub-group (R258). -/
def State.jmskWrite (s : State) (cohort crew : Nat) (r : Rdv) : State :=
  match r.members.head? with
  | some p =>
    match p.kind with
    | .jmsk j v =>
      let live := (s.crewLive cohort crew).foldl (fun (m : Word) f => m ||| BitVec.ofNat 32 (2 ^ f.vlane)) 0
      let span : Word := BitVec.ofNat 32 ((2 ^ p.width - 1) * 2 ^ p.base)
      s.updCrew cohort crew fun w =>
        { w with masks := w.masks.zipIdx.map fun (m, i) => if i = j.toNat then (m &&& ~~~ span) ||| (v &&& live &&& span) else m }
    | _ => s
  | none => s

/-- What a fibre still has to present, or to wait for, of a group that raises is dropped: it comes when the group issues again. -/
def Fibre.unpresent (f : Fibre) : Fibre :=
  let again (x : Nat × Fx) : Bool := match x.2 with | .present .. | .barWait .. => true | _ => false
  let f' := (f.deferred.filter again).foldl (fun (f : Fibre) x => f.dropPend x.1) f
  { f' with deferred := f.deferred.filter fun x => !again x }

/-- A member's rendezvous is over with a cause: no result, the wait ends, the cause is taken at its group (R38). A presentation that stood
behind it in that group is made when the group issues again. -/
def State.rdvRaise (s : State) (tag detail : Nat) (p : Presentation) : State :=
  let hearth := ((s.fibre? p.uid).map s.hearthOf).getD 0
  let s := if tag = 256 then s.dropLocks hearth p.name else s
  let tv := s.rdvTval tag
  (s.updFibre p.uid fun f =>
    let f := (f.dropPend p.name).unpresent
    { (if tag = 256 then f.dropTl else f) with waits := f.waits.filter fun w => w != .group tag }).raiseLate p.uid (mkCause 8 detail) tv p.pc

/-- The command that a `tgat` rendezvous makes (R338, R339): it first executes, with %tgprog 0 (R322). Which rows are filled follows from the
tcfg when it starts (R300). -/
def State.gatherCmd (s : State) (cohort crew : Nat) (r : Rdv) : State :=
  match r.members.head? with
  | some p =>
    match p.kind, s.cohort? cohort with
    | .tgat t lit r0, some co =>
      let id := s.run.nextOp
      let rows := r.members.map fun m => (⟨r0.toNat + m.vlane, m.addr, m.uid, m.pc, m.next⟩ : GatRow)
      let c : EngineCmd := { id := id, uid := p.uid, cohort := cohort, hearth := co.hearth, pc := p.pc, word := p.pc, crew := crew,
                             vlane := p.vlane, op := .tgat t r0.toNat rows, bar := if lit.bv then some lit.bar.toNat else none, flue := 0,
                             run := .queued, done := 0, bytes := 0, gwct := 0, block := none, skip := [], value := 0, cause := none, since := none }
      let names := r.members.map (·.name)
      let s := { s with cmds := s.cmds ++ [c], run := { s.run with nextOp := id + 1 } }.updCrew cohort crew fun w => { w with tgprog := 0 }
      let s := s.updHearth co.hearth fun h => { h with locks := h.locks.map fun l => if names.contains l.cmd then { l with cmd := id } else l }
      { s with fibres := s.fibres.map fun f =>
          if r.members.any (·.uid == f.uid) then { f with waits := (f.waits.filter fun w => w != .group 256) ++ [.engineRead id] } else f }
    | _, _ => s
  | none => s

/-- One whole rendezvous completes. -/
def State.rdvComplete (s : State) (cohort crew : Nat) (r : Rdv) : State :=
  let s := s.updCrew cohort crew fun w => { w with rdvs := w.rdvs.filter fun q => q != r }
  if r.failed then r.members.foldl (fun s p => s.rdvRaise r.tag 0 p) s
  else if r.tag = 256 then s.gatherCmd cohort crew r
  else
    let masks := (((s.cohort? cohort).bind (·.crew? crew)).map (·.masks)).getD []
    let cs := contributors masks r.members
    r.members.foldl (fun s p =>
      let (ws, ps, fl) := p.result cs
      s.updFibre p.uid fun f =>
        let f := (f.land p.name (ws.zipIdx.map fun (w, i) => (p.dst + i, w)) ps).orFlags fl
        { f with waits := f.waits.filter fun w => w != .group r.tag }) s

/-- The rendezvous of a crew that are whole: `jmsk` writes its mask first (R74). Two `jmsk` rendezvous that write one mask in one decision
write it in the order of the crew's list (DESIGN CHOICE, log 98). -/
def State.crewComplete (s : State) (cohort crew : Nat) : State :=
  match (s.cohort? cohort).bind (·.crew? crew) with
  | none => s
  | some w =>
    let whole := w.rdvs.filter fun r => s.rdvWhole cohort crew r
    let (js, rest) := (whole.filter fun r => r.isJmsk && !r.failed, whole.filter fun r => !(r.isJmsk && !r.failed))
    let s := js.foldl (fun s r => s.jmskWrite cohort crew r) s
    let s := (js ++ rest).foldl (fun s r => s.rdvComplete cohort crew r) s
    s.updCrew cohort crew fun w => { w with rdvs := w.rdvs.filter fun r => r.members != [] }

/-- A fibre is blocked in a presentation. -/
def Fibre.presented (f : Fibre) : Option Nat := f.waits.findSome? fun w => match w with | .group t => some t | _ => none

/-- A cohort runs: one that is stopped or suspended raises no cause of time or of deadlock; its fibres come back blocked as they were saved
(R77, R355; DESIGN CHOICE, log 103). -/
def State.runs (s : State) (cohort : Nat) : Bool := ((s.cohort? cohort).map (·.run == .running)).getD false

/-- Deadlock of a crew (R77): every live fibre blocked in a presentation. -/
def State.crewDeadlock (s : State) (cohort crew : Nat) : State :=
  match (s.cohort? cohort).bind (·.crew? crew) with
  | none => s
  | some w =>
    let live := s.crewLive cohort crew
    if live = [] ∨ live.any (fun f => f.presented.isNone || f.order.isSome) ∨ !s.runs cohort then s
    else
      let ps := w.rdvs.flatMap fun r => r.members.map fun p => (r.tag, p)
      let s := s.updCrew cohort crew fun w => { w with rdvs := [] }
      ps.foldl (fun s x => s.rdvRaise x.1 3 x.2) s

/-- The watchdog of a rendezvous expires (R77): it is discarded and its presenters raise 8.02. -/
def State.rdvExpire (s : State) (cohort crew : Nat) (r : Rdv) : State :=
  let s := s.updCrew cohort crew fun w => { w with rdvs := w.rdvs.filter fun q => q != r }
  r.members.foldl (fun s p => s.rdvRaise r.tag 2 p) s

/-! ### Cohort deadlocks (R169, R248) -/

/-- The cohort barriers that a fibre waits on. -/
def Fibre.barWaiting (f : Fibre) : List Nat := f.waits.filterMap fun w => match w with | .bar n => some n | _ => none
/-- A fibre is blocked in `.coh` waits, and in nothing else. -/
def Fibre.inBars (f : Fibre) : Bool := f.waits != [] && (f.waits.all fun w => match w with | .bar _ => true | _ => false) && f.order.isNone
/-- The stash offset whose empty line a fibre is blocked on. -/
def Fibre.stalled (f : Fibre) : Option Nat := f.waits.findSome? fun w => match w with | .emptyLine o _ => some o | _ => none

/-- Every live fibre of a running cohort waits at cohort barriers alone, none in a `.dev` wait, and no engine command names one of them: cause
6.23 (R169). A fibre that waits on several names the first (DESIGN CHOICE, log 98). -/
def State.barDeadlock (s : State) (cohort : Nat) : State :=
  let live := s.liveOf cohort
  let ns := live.flatMap Fibre.barWaiting
  let named := s.cmds.any fun c => (s.barCohorts c).contains cohort && (match c.bar with | some n => ns.contains n | none => false)
  if live = [] ∨ live.any (!·.inBars) ∨ named ∨ !s.runs cohort then s
  else live.foldl (fun s f => s.raiseLate f.uid (mkCause 6 23) (BitVec.ofNat 64 (f.barWaiting.headD 0)) f.head) s

/-- The stash word that a fibre is stalled by is over without effect; what the fibre has still to present is dropped. -/
def Fibre.unstall (f : Fibre) (by' : Wait → Bool) : Fibre :=
  let f := { f with waits := f.waits.filter (!by' ·) }
  match f.deferred with
  | x :: rest => ({ f.dropPend x.1 with deferred := rest }).unpresent
  | [] => f

/-- A fibre's blocking stash word raises: its result never lands, what followed it goes on (R248, R38). -/
def State.stallRaise (s : State) (f : Fibre) (detail : Nat) : State :=
  let o := (f.stalled).getD 0
  (s.updFibre f.uid fun g => (g.unstall fun w => match w with | .emptyLine .. => true | _ => false).backUp).raiseLate f.uid (mkCause 7 detail)
    (BitVec.ofNat 64 o) f.head

/-- Every live fibre of a cohort is blocked on an empty line, with no stall timeout and no flue or tile command: cause 7.04 (R248). -/
def State.stallDeadlock (s : State) (cohort : Nat) : State :=
  let live := s.liveOf cohort
  let timeout := ((s.cohort? cohort).map fun c => (s.slot c.slot).record.stall).getD 0
  let busy := s.cmds.any fun c => c.cohort == cohort && !c.op.isColl
  if live = [] ∨ timeout ≠ 0 ∨ busy ∨ live.any (fun f => f.stalled.isNone || f.order.isSome) ∨ !s.runs cohort then s
  else live.foldl (fun s f => s.stallRaise f 4) s

end Sys2Proof.Machine
end

