-- ==== Sys2Proof/Machine/Recover.lean ====
section
/-! DEFINITION. The recovery layer: ember units, releases at `.rcv`, points and their seals, discarding and replay; contained nodes;
stopping launches and resetting dies (R284, R391 to R412, R434). -/

namespace Sys2Proof.Machine

/-! ### Ember units (R393, R394) -/

/-- The indexes of a table's entries whose bytes are listed in memory; every other entry is 0. -/
def tableIndexes (m : Memory) (t n : Nat) : List Nat :=
  ((m.filter fun c => decide (t ≤ c.1) && decide (c.1 < t + 8 * n)).map fun c => (c.1 - t) / 8).eraseDups

/-- A leaf of a context's tables: where it stands and at which level, the first address that it maps, its entry. -/
structure LeafAt where
  at' : Nat
  lvl : Nat
  va : Nat
  e : Nat
  deriving DecidableEq, Repr
/-- The page of a leaf: size and start. -/
def LeafAt.size (l : LeafAt) : Nat := pageSize (entrySize l.e)
def LeafAt.base (l : LeafAt) : Nat := entryPa l.e / l.size * l.size

/-- The leaves under a table of a level that maps from an address on, in ascending virtual address. -/
def leavesUnder (m : Memory) (lvl : Nat) : Nat → Nat → List LeafAt :=
  let entry (down : Nat → Nat → List LeafAt) (lvl t va i : Nat) : List LeafAt :=
    let e := m.readLE (t + 8 * i) 8
    let va := va + i * 2 ^ (12 + 13 * lvl)
    if !entryV e || !entryClean e then []
    else if entryLeaf e then (if pageLevel (entrySize e) = lvl then [⟨t + 8 * i, lvl, va, e⟩] else [])
    else down (entryPa e) va
  match lvl with
  | 0 => fun t va => (tableIndexes m t (2 ^ 13)).flatMap fun i => entry (fun _ _ => []) 0 t va i
  | n + 1 => fun t va =>
    (tableIndexes m t (if n = 3 then 2 ^ 16 else 2 ^ 13)).flatMap fun i => entry (leavesUnder m n) (n + 1) t va i

/-- The 4 KiB units of the leaves with EMB = 1 of a context's tables: virtual and physical addresses, ascending. -/
def emberWalk (m : Memory) (root : Nat) : List (Nat × Nat) :=
  ((leavesUnder m 4 root 0).filter (·.e.testBit 63)).flatMap fun l =>
    (List.range (2 ^ (13 * l.lvl))).map fun j =>
      let v := l.va + 4096 * j
      (v, l.base + v % l.size)

/-- The open slot of a unit (R394). -/
def EmberUnit.openSlot (u : EmberUnit) : Nat := match u.named with | none => 0 | some n => 1 - n
def EmberUnit.image (u : EmberUnit) (mirror slot : Nat) : List (Nat × Byte) :=
  ((u.images.find? (·.1 == (mirror, slot))).map (·.2)).getD []
def EmberUnit.setImage (u : EmberUnit) (mirror slot : Nat) (m : List (Nat × Byte)) : EmberUnit :=
  { u with images := ((mirror, slot), m) :: u.images.filter fun x => x.1 != (mirror, slot) }
/-- Write granules of a mask into the open slot of both mirrors from a source of bytes. -/
def EmberUnit.copyIn (u : EmberUnit) (mask : Nat) (src : Nat → Byte) : EmberUnit :=
  let put (m : List (Nat × Byte)) : List (Nat × Byte) :=
    (List.range 4096).foldl (fun m i => if mask.testBit (i / 64) then Memory.put m i (src i) else m) m
  (u.setImage 0 u.openSlot (put (u.image 0 u.openSlot))).setImage 1 u.openSlot (put (u.image 1 u.openSlot))

def allGranules : Nat := 2 ^ 64 - 1

def State.updRecovery (s : State) (ctx : Nat) (g : Recovery → Recovery) : State :=
  s.updContext ctx fun c => { c with recovery := g c.recovery }

/-- The units as the context's tables now give them, in ascending virtual address: a new unit starts with every granule dirty (R395), and so
does one whose frame has changed. A unit that the tables no longer map keeps its images while a point names them (R394), and takes no part. One
that a sealing point has still to copy stands as it stood at the close until it is copied (R400). -/
def State.refreshUnits (s : State) (ctx : Nat) : State :=
  match s.context? ctx with
  | none => s
  | some c =>
    let now := emberWalk s.mem c.root
    s.updRecovery ctx fun r =>
      let copied (u : EmberUnit) : Bool := u.mapped && r.points.any fun p => p.state == .sealing && p.pending.contains u.pa
      let unit (p : Nat × Nat) : EmberUnit :=
        match r.units.find? fun u => u.va == p.1 with
        | some u =>
          if copied u then u
          else if u.pa = p.2 then { u with mapped := true } else { u with mapped := true, pa := p.2, dirty := allGranules, durable := 0 }
        | none => { va := p.1, pa := p.2, mapped := true, named := none, dirty := allGranules, durable := 0, images := [] }
      let named (u : EmberUnit) : Bool := r.points.any fun p => (p.state == .sealing || p.state == .sealed) && p.pages.any fun x => x.1 == u.va
      let gone := r.units.filter fun u => (now.all fun p => p.1 != u.va) && named u
      { r with units := now.map unit ++ gone.map fun u => if copied u then u else { u with mapped := false, dirty := allGranules, durable := 0 } }

/-- A recovery record (Table 23.7). -/
def State.recoveryRecord (s : State) (ctx reason addr : Nat) : State :=
  (s.writeRecord ctx (leBytes 1 0x0D ++ leBytes 1 reason ++ leBytes 6 0 ++ leBytes 8 addr ++ leBytes 8 s.ltime)).1

def Recovery.sealing (r : Recovery) : Option Point := r.points.find? (·.state == .sealing)
def Recovery.unit? (r : Recovery) (pa : Nat) : Option EmberUnit := r.units.find? fun u => u.mapped && u.pa == pa
def Recovery.updUnit (r : Recovery) (pa : Nat) (g : EmberUnit → EmberUnit) : Recovery :=
  { r with units := r.units.map fun u => if u.mapped ∧ u.pa = pa then g u else u }
def Recovery.updPoint (r : Recovery) (n : Nat) (g : Point → Point) : Recovery :=
  { r with points := r.points.map fun p => if p.n = n then g p else p }

/-! ### Checks of a seal (R401, R405) -/

/-- A reflected CRC: one bit. -/
def crcBit (poly c : Nat) : Nat := if c % 2 = 1 then (c / 2) ^^^ poly else c / 2
def crcByte (poly c : Nat) (b : Byte) : Nat := (List.range 8).foldl (fun c _ => crcBit poly c) (c ^^^ b.toNat)
/-- The CRC of bytes with initial value and final XOR all ones. -/
def crc (width poly : Nat) (bs : List Byte) : Nat := (bs.foldl (crcByte poly) (2 ^ width - 1)) ^^^ (2 ^ width - 1)
/-- CRC-64 of ECMA-182, its polynomial reflected. -/
def crc64 (bs : List Byte) : Nat := crc 64 0xC96C5795D7870F42 bs
/-- CRC-32C, its polynomial reflected. -/
def crc32c (bs : List Byte) : Nat := crc 32 0x82F63B78 bs

/-- The page list of a point (Table 23.2). -/
def pageListBytes (r : Recovery) (mirror : Nat) (p : Point) : List Byte :=
  p.pages.flatMap fun x =>
    let img := match r.units.find? (·.va == x.1) with
      | some u => Memory.bytes (u.image mirror x.2) 0 4096
      | none => []
    leBytes 8 (x.1 % 2 ^ 64) ++ leBytes 2 (x.1 / 2 ^ 64) ++ leBytes 1 x.2 ++ leBytes 1 0 ++ leBytes 4 (crc32c img)

/-- The seal block of a point (Table 23.1). -/
def sealBytes (ctx : Nat) (p : Point) (pages : List Byte) (off : Nat) : List Byte :=
  let pad (n : Nat) (l : List Byte) : List Byte := l ++ List.replicate (n - l.length) 0
  pad 4096 (leBytes 8 p.n ++ leBytes 2 ctx ++ leBytes 1 p.queues.length ++ leBytes 1 p.timelines.length ++ leBytes 4 p.replay
    ++ leBytes 8 p.pages.length ++ leBytes 8 off ++ leBytes 8 (crc64 pages) ++ leBytes 8 p.ltime ++ leBytes 16 0
    ++ pad 1024 (p.queues.flatMap fun q => leBytes 1 q.1 ++ leBytes 7 0 ++ leBytes 8 q.2)
    ++ pad 1024 (p.timelines.flatMap fun t => leBytes 8 t.1 ++ leBytes 8 t.2))

/-- The seal of a point is valid in a mirror (R405). -/
def sealValid (ctx : Nat) (r : Recovery) (readable : Bool) (mirror : Nat) (p : Point) : Bool :=
  readable && match r.seals.find? fun x => x.mirror == mirror && x.slot == p.n % 2 with
    | none => false
    | some x =>
      let off := x.slot
      x.copies == [sealBytes ctx p x.pages off, sealBytes ctx p x.pages off] && x.pages == pageListBytes r mirror p

/-! ### Contained nodes (R409 to R412) -/

/-- One staged line of a node is written to its home, as one event (R411): at the holding die of a watched line (R287). Granules that the node
wrote whole lose their poison, and those that it wrote poisoned data into take it (R413); the watches on the bytes are evaluated. -/
def State.commitLine (s : State) (slot : Nat) (l : StagedLine) : State :=
  let s := s.updSlot slot fun x => { x with staged := x.staged.filter fun y => y.line != l.line }
  let die := s.holdingDie (l.line * 256) l.die
  let (s, g) := ((List.range 4).filter fun i => l.bytes.any fun x => x.1 / 64 % 4 == i).foldl (fun (p : State × Nat) i =>
    let (s, g) := p.1.l2Store die false l.line i
    (s, max p.2 g)) (s, 0)
  let s := l.bytes.foldl (fun (s : State) (x : Nat × Byte) => s.writeBytes none die (.dev x.1) [x.2]) s
  let whole := ((List.range 4).map (· + 4 * l.line)).filter l.covers
  let s := ((s.cleanse whole).taint l.poison).evalWatches none fun w => l.bytes.any fun x => touches x.1 1 w
  s.raiseSlot slot g

/-- The next staged line that no copy holds is committed (R400, R411). -/
def State.commitNext (s : State) (slot : Nat) : State :=
  match (s.slot slot).staged.find? fun l => !s.copying (l.line * 256) 256 with
  | some l => s.commitLine slot l
  | none => s

/-- What would demote a node must wait: staged lines of it are still to commit, or their writes to complete (R410, R214). -/
def State.mustCommit (s : State) (slot : Nat) : Bool :=
  let l := s.slot slot
  l.node.isSome && (l.staged != [] || (l.gwct != 0 && decide (s.ltime < l.gwct + 8)))
/-- A word waits to demote the node: its staged lines commit meanwhile. -/
def State.leaveNode (s : State) (slot : Nat) : State :=
  if (s.slot slot).node.isSome then s.updSlot slot fun l => { l with leaving := true } else s
/-- The node, its staged lines committed, is demoted: it is uncontained from then on (R410). -/
def State.demote (s : State) (slot : Nat) : State :=
  if (s.slot slot).node.isSome then s.updSlot slot fun l => { l with demoted := true, leaving := false } else s

/-- A write of a node would stage a line past the limit of a die, which counts the lines of every node (R409), or a new one while the lines of a node
about to be demoted commit: it is performed after them (R410). -/
def State.stagingFull (s : State) (l : LaunchSlot) (die pa : Nat) : Bool :=
  l.node.isSome && !l.staged.any (·.line == pa / 256) && (l.leaving || decide (65536 ≤ ((s.slots.flatMap (·.staged)).filter (·.die == die)).length))

/-! ### Releases at `.rcv` (R396, R397) -/

/-- Step 1 beyond `.sys`: with no point sealing, the granules that the fibre stored to go to the open slots of both mirrors. -/
def State.rcvStart (s : State) (uid : Nat) : State :=
  match s.fibre? uid with
  | none => s
  | some f =>
    let ctx := s.ctxOf f
    let s := s.refreshUnits ctx
    match s.context? ctx with
    | none => s
    | some c =>
      if c.recovery.sealing.isSome then s
      else
        let s := s.updFibre uid fun f => { f with durable := true }
        (f.stored.filter fun g => (c.recovery.unit? (g * 64 / 4096 * 4096)).isSome).foldl (fun s g =>
          let pa := g * 64 / 4096 * 4096
          let s := s.updRecovery ctx fun r => r.updUnit pa fun u => u.copyIn (2 ^ (g % 64)) fun i => s.mem.get (pa + i)
          { s with granules := s.granules ++ [{ uid := uid, unit := pa, granule := g % 64, stale := false }] }) s

/-- Advance a release: the durability of `.rcv`, then step 2 (Table 12.4). -/
def State.releaseAdvance (s : State) (uid : Nat) : State :=
  match s.fibre? uid with
  | none => s
  | some f =>
    if f.order = some .rcv then
      if !f.durable then (if s.unacked uid then s else s.rcvStart uid)
      else if s.granules.any (·.uid == uid) then s
      else s.releaseStep2 uid
    else s.releaseStep2 uid

/-- Every step of the release is done, and what the fibre's loads read answers them. -/
def State.releaseReady (s : State) (f : Fibre) (sc : Scope) : Bool :=
  s.releaseDone f sc && (s.ops.all fun o => o.uid != f.uid || o.req.kind != .load || o.performed || s.answers f o.req.target) && (sc != .rcv || (f.durable && !s.granules.any (·.uid == f.uid)))
    && !(decide (Scope.nod.rank ≤ sc.rank) && s.mustCommit (s.cohortOf f).slot)

/-- The release is performed: the fibre's loads have their values, and a release at `.nod` or wider has demoted its node, whose lines are
committed (R214, R410). -/
def State.endRelease (s : State) (f : Fibre) (sc : Scope) : State :=
  let s := if Scope.nod.rank ≤ sc.rank then s.demote (s.cohortOf f).slot else s
  (s.fixLoads f.uid).updFibre f.uid fun f => { f with order := none, flushed := false, durable := false }

/-- Both mirror writes of a granule are acknowledged (R396). -/
def State.granuleDone (s : State) (g : GranuleWrite) : State :=
  let s := { s with granules := s.granules.erase g }
  if g.stale then s
  else { s with contexts := s.contexts.map fun (c : Context) =>
    { c with recovery := c.recovery.updUnit g.unit (fun u => { u with durable := u.durable ||| 2 ^ g.granule }) } }

/-! ### Points (R398 to R404, R407) -/

/-- The frontier count of a queue: leading packets of the ring that have completed (R399). -/
def State.frontierQueues (s : State) (ctx : Nat) : List (Nat × Nat) :=
  ((s.queues.filter fun q => q.state != .unbound && q.ctx == ctx).map fun q => (q.n, q.completed))

/-- The value of a timeline of a context. -/
def State.timeline (s : State) (ctx addr : Nat) : Nat := ((s.unitRead 6 ctx addr 8).map leNat).getD 0

/-- Seal a point whose units are all copied (R401): the page list and the four seal copies, then it is sealed. -/
def State.sealPoint (s : State) (ctx : Nat) : State :=
  match (s.context? ctx).bind fun c => c.recovery.sealing with
  | none => s
  | some p =>
    if p.pending ≠ [] then s
    else s.updRecovery ctx fun r =>
      let mk (m : Nat) : Seal :=
        let pages := pageListBytes r m p
        let b := sealBytes ctx p pages (p.n % 2)
        { mirror := m, slot := p.n % 2, copies := [b, b], pages := pages }
      let r := { r with seals := [mk 0, mk 1] ++ r.seals.filter fun (x : Seal) => x.slot != p.n % 2 }
      { r.updPoint p.n (fun p => { p with state := .sealed }) with
        rps := p.n
        units := r.units.map fun (u : EmberUnit) => match p.pages.find? fun (x : Nat × Nat) => x.1 == u.va with
          | some x => { u with named := some x.2 }
          | none => u }

/-- The next write of a seal (R401): the page lists, then copies A and B of mirror 0, then of mirror 1; with the fourth the point is
sealed. -/
def State.sealStep (s : State) (ctx : Nat) : State :=
  match s.context? ctx with
  | none => s
  | some c =>
    match c.recovery.sealing with
    | none => s
    | some p =>
      if p.pending ≠ [] ∨ c.replaying.isSome ∨ !s.emberUp then s
      else
        let r := c.recovery
        let k := p.n % 2
        let pages (m : Nat) : List Byte := pageListBytes r m p
        let block (m : Nat) : List Byte := sealBytes ctx p (pages m) k
        let now (m : Nat) : Seal := (r.seals.find? fun x => x.mirror == m && x.slot == k).getD { mirror := m, slot := k, copies := [[], []], pages := [] }
        let put (x : Seal) : State := s.updRecovery ctx fun r => { r with seals := x :: r.seals.filter fun y => !(y.mirror == x.mirror && y.slot == k) }
        if (now 0).pages ≠ pages 0 ∨ (now 1).pages ≠ pages 1 then
          s.updRecovery ctx fun r =>
            { r with seals := [{ now 0 with pages := pages 0 }, { now 1 with pages := pages 1 }] ++ r.seals.filter fun y => y.slot != k }
        else if (now 0).copies.headD [] ≠ block 0 then put { now 0 with copies := [block 0, (now 0).copies.getD 1 []] }
        else if (now 0).copies.getD 1 [] ≠ block 0 then put { now 0 with copies := [block 0, block 0] }
        else if (now 1).copies.headD [] ≠ block 1 then put { now 1 with copies := [block 1, (now 1).copies.getD 1 []] }
        else s.sealPoint ctx

/-- Close the open point of a context, no other sealing (R398): one event. A granule that is still on its way to the open slot is one that the copy
takes (R396, R402; DEDUCED, log 104). -/
def State.closePoint (s : State) (ctx : Nat) : State :=
  let s := s.refreshUnits ctx
  match s.context? ctx with
  | none => s
  | some c =>
    let r := c.recovery
    let us := (r.units.filter (·.mapped)).take r.quota
    let s := match (r.units.filter (·.mapped)).drop r.quota with
      | u :: _ => s.recoveryRecord ctx 0x01 (u.va % 2 ^ 64)
      | [] => s
    let touched := us.filter (·.dirty != 0)
    let p : Point :=
      { n := r.rpo, state := .sealing, queues := s.frontierQueues ctx, timelines := r.signals.map (fun a => (a, s.timeline ctx a)),
        replay := r.replay, ltime := s.ltime, pages := us.map (fun u => (u.va, if u.dirty = 0 then u.named.getD 0 else u.openSlot)),
        copy := touched.map (fun u => (u.pa, u.dirty &&& (allGranules - u.durable))),
        durableAt := touched.map (fun u => (u.pa, u.dirty &&& u.durable)), pending := touched.map (·.pa) }
    let s := s.updRecovery ctx fun r =>
      { r with
        rpo := r.rpo + 1
        points := r.points.filter (fun q => q.n != p.n) ++ [p]
        units := r.units.map fun u =>
          if u.mapped && us.any (·.pa == u.pa) then
            let still := allGranules - (u.dirty ||| u.durable)
            let u' := if u.dirty = 0 then u else match u.named with
              | some n =>
                let src := u.image 0 n
                u.copyIn (still &&& allGranules) fun i => Memory.get src i
              | none => u
            { u' with dirty := 0, durable := 0 }
          else u }
    let s := { s with granules := s.granules.map fun (g : GranuleWrite) => if us.any (·.pa == g.unit) then { g with stale := true } else g }
    if us = [] then s.sealPoint ctx else s

/-- An engine has copied a unit of the sealing point: the lowest pending one of its side (R400). -/
def State.copyUnit (s : State) (ctx pa : Nat) : State :=
  match (s.context? ctx).bind fun c => if c.replaying.isSome || !s.emberUp then none else c.recovery.sealing with
  | none => s
  | some p =>
    if p.pending.contains pa && p.pending.all fun q => sideOf q != sideOf pa || decide (pa ≤ q) then
      let mask := ((p.copy.find? (·.1 == pa)).map (·.2)).getD 0
      (s.updRecovery ctx fun r =>
        (r.updUnit pa fun u => u.copyIn mask fun i => s.mem.get (pa + i)).updPoint p.n fun p => { p with pending := p.pending.filter (· != pa) }).releaseHeld
    else s

/-- Discard the sealing point (R407). -/
def State.discardPoint (s : State) (ctx : Nat) : State :=
  match (s.context? ctx).bind fun c => c.recovery.sealing with
  | none => s
  | some p =>
    State.releaseHeld <| s.updRecovery ctx fun r =>
      let at' (l : List (Nat × Nat)) (pa : Nat) : Nat := ((l.find? (·.1 == pa)).map (·.2)).getD 0
      { r.updPoint p.n (fun p => { p with state := .discarded, pending := [] }) with
        units := r.units.map fun u =>
          { u with dirty := u.dirty ||| at' p.copy u.pa ||| at' p.durableAt u.pa
                   durable := u.durable ||| (at' p.durableAt u.pa &&& (allGranules - u.dirty)) } }

/-- `rpqry` (R404): the state of point n as Table 23.3 gives. -/
def Recovery.query (r : Recovery) (n : Nat) : Word :=
  let n := if n = 0 then r.rpo - 1 else n
  let sealed := (r.points.filter (·.state == .sealed)).map (·.n)
  if r.rpo < n ∨ n = 0 then 6
  else if n = r.rpo then 0
  else if n + 16 < r.rpo then 4
  else match r.points.find? (·.n == n) with
    | none => 4
    | some p =>
      match p.state with
      | .sealing => BitVec.ofNat 32 (min 65535 p.pending.length * 65536 + 1)
      | .sealed => if (sealed.filter fun m => decide (n < m)).length ≤ 1 then 2 else 4
      | .torn => 3
      | .retired => 4
      | .discarded => 5

/-! ### Ending a launch (R284, R391, R412) -/

/-- Everything a launch holds leaves the device without effect: fibres, cohorts, commands, accesses, records, continuations,
watchpoints, barrier entries. -/
def State.clearLaunch (s : State) (slot : Nat) : State :=
  let cs := (s.cohorts.filter (·.slot == slot)).map (·.uid)
  let fs := (s.fibres.filter fun f => cs.contains f.cohort).map (·.uid)
  let es := (s.cohorts.filter (·.slot == slot)).flatMap s.lockOwners
  let gone (r : Requester) : Bool :=
    match r with
    | .fibre u _ | .fetch u => fs.contains u
    | .engine c _ => es.contains c
    | .fill c _ _ => cs.contains c
    | .sent o => s.ops.any fun op => op.id == o && fs.contains op.uid
    | .front _ _ | .peer => false
  { s with
    fibres := s.fibres.filter fun f => !fs.contains f.uid
    cohorts := s.cohorts.filter fun c => c.slot != slot
    units := (s.units.map fun u => { u with crews := u.crews.filter fun x => !cs.contains x.1 }).filter fun u => u.crews != []
    hearths := s.hearths.map fun h => { h with locks := h.locks.filter fun l => !es.contains l.cmd }
    cmds := s.cmds.filter fun c => !cs.contains c.cohort
    ops := s.ops.filter fun o => !fs.contains o.uid
    walks := (s.walks.map fun w => { w with reqs := w.reqs.filter fun r => !gone r.2 }).filter fun w => w.reqs != []
    services := (s.services.map fun v => { v with reqs := v.reqs.filter fun r => !gone r.2 }).filter fun v => v.reqs != []
    granules := s.granules.filter fun g => !fs.contains g.uid
    heldWrites := s.heldWrites.filter fun h => h.slot != slot
    devBars := s.devBars.filter fun b => b.slot != slot
    sequencers := (s.unsequence fs.contains).sequencers
    joinWatches := s.joinWatches.filter fun w => w.slot != slot
    gathers := s.gathers.filter fun g => g.slot != slot
    dies := s.dies.map fun d =>
      let d := { d with store := d.store.filter fun r => r.slot != slot }
      (d.watches.filter fun w => w.record.slot == slot).foldl (fun d w => d.freeWatch w.index) d
    run := { s.run with fired := s.run.fired.filter fun w => w.slot != slot
                        issuing := s.run.issuing.filter fun u => !fs.contains u
                        group := match s.run.group with | some g => if fs.contains g.uid then none else some g | none => none } }

/-- The slot frees. -/
def State.freeSlot (s : State) (slot : Nat) : State :=
  s.updSlot slot fun l => { l with busy := false, staged := [], leaving := false, gwct := 0, spill := [], spillRecs := [], aborting := none }

/-- A contained node aborts and its packet starts again (R412). -/
def State.abortNode (s : State) (slot : Nat) : State :=
  (s.clearLaunch slot).updSlot slot fun l =>
    { l with staged := [], leaving := false, gwct := 0, spill := [], spillRecs := [], next := 0, retries := l.retries + 1, gen := (l.gen + 1) % 256, colls := 0,
             aborting := none }

/-! ### Dies (R419, R434) -/

def hearthsOfDie (n : Nat) : List Nat := (List.range 48).map (· + 48 * n)

/-- Links train: the Xandex link comes up, and so does each link of the torus that trains, which is open (R423, R433). -/
def State.train (s : State) (p : Nat → Bool) : State :=
  { s with pkg := { s.pkg with
      links := s.pkg.links.map fun (l : Link) =>
        if p l.n then
          { l with up := l.n == 12 || (decide (l.n < 2 * s.pkg.dims.length) && Config.choice s.run.tick 8 l.n % 2 == 0), failures := 0, again := false }
        else l } }

/-- Its map is applied: every entry takes its spare, as far as there are any (R419, R420). -/
def Die.repaired (d : Die) : Die := { d with applied := d.repair.length }
/-- Frames that Garley keeps out of use since they lie in a faulty row: held for context 65,536. -/
def badFrame (u : RepairUnit) : List (Nat × Nat × Nat) :=
  match u with | .hbmRow stack row => (Config.hbmRowFrames stack row).map fun f => (f * 4096, 4096, 65536) | _ => []

/-- The records of suspended contexts that stand in a store: their pre-emption leaves them in place (R292; DEDUCED, log 104). -/
def State.keptRecords (s : State) (d : Die) : List KRecord :=
  d.store.filter fun r => ((s.context? (s.slot r.slot).ctx).map (·.suspended)).getD false

/-- A die resets and takes its repairs: a compute die loses its caches, translations and kindling store, its hearths start at the
default front clock (R430), every performed write standing in
memory (R392, R418, DEDUCED, log 21); an I/O die's mirror cannot be read, and its links carry nothing, until it has trained again (R1, R406,
R434). -/
def State.dieReset (s : State) (n : Nat) : State :=
  let d := (s.die n).repaired
  if n < 4 then
    let s := { s with
      l2 := s.l2.filter fun l => l.die != n
      setHorizons := s.setHorizons.filter fun x => x.1 / 2 ^ 14 != n
      hearths := s.hearths.map fun (h : Hearth) =>
        if dieOfHearth h.id = n then
          let out := d.faulty.contains (.hearth h.id)
          { Hearth.fresh s h.id with clocks := h.clocks, locks := h.locks, interval := h.interval, fenced := out, suspect := h.suspect && (out || !h.fenced) }
        else h }
    s.updDie n fun d => { d.repaired with store := s.keptRecords d, tlb := [], walkCache := [], clock := 0, resetting := true }
  else
    { s.updDie n fun d => { d.repaired with resetting := true } with
      pkg := { s.pkg with
        frames := s.pkg.frames.filter fun f => !(d.repairs.flatMap badFrame).contains f
        mirrors := s.pkg.mirrors.zipIdx.map fun (m, i) => if i = n - 4 then false else m
        links := s.pkg.links.map fun (l : Link) => if linkDie l.n = n then { l with up := false } else l } }

/-! ### Replay (R391, R405, R406, R418) -/

/-- A context stands suspended: its cohorts do not run (what has ended performs its last decrements, R56) and its queues stand Suspended, unless Halted or Barred (Table 20.5). -/
def State.suspendContext (s : State) (ctx : Nat) : State :=
  { s.updContext ctx fun c => { c with suspended := true, stopping := false } with
    cohorts := s.cohorts.map fun (c : Cohort) => if (s.slot c.slot).ctx = ctx ∧ c.crews ≠ [] then { c with run := .suspended } else c
    queues := s.queues.map fun q =>
      if q.ctx = ctx ∧ (q.state = .idle ∨ q.state = .running ∨ q.state = .waiting) then { q with state := .suspended } else q }

/-- The units of a point are written back to memory from the first valid mirror (R406). -/
def State.restoreUnits (s : State) (r : Recovery) (mirror : Nat) (p : Point) : State :=
  p.pages.foldl (fun (s : State) x => match r.units.find? fun u => u.mapped && u.va == x.1 with
    | some u =>
      let img := Memory.bytes (u.image mirror x.2) 0 4096
      let back : State := { s with
        mem := s.mem.putBytes u.pa img
        poison := s.poison.filter fun g => g * 64 / 4096 * 4096 != u.pa
        hearths := s.hearths.map fun h => { h with l1 := h.l1.filter fun l => l.line * 64 / 4096 * 4096 != u.pa } }
      back.noteWrite none (touches u.pa 4096)
    | none => s) s

/-- A mirror is rebuilt from the other for a point (R406). -/
def Recovery.rebuild (r : Recovery) (m m' : Nat) (p : Point) : Recovery :=
  { r with
    units := r.units.map fun u => match p.pages.find? (·.1 == u.va) with
      | some x => u.setImage m' x.2 (u.image m x.2)
      | none => u
    seals := (r.seals.filter fun x => x.mirror == m && x.slot == p.n % 2).map (fun x => { x with mirror := m' })
      ++ r.seals.filter fun x => !(x.mirror == m' && x.slot == p.n % 2) }

/-- The dies whose reset a replay waits for (R418). -/
def State.awaitedDies (s : State) : List Nat :=
  s.contexts.flatMap fun c => if c.destroyed then [] else (c.replaying.map (·.1)).getD []

/-- What a replay restores once its dies have left their reset; `keep` is the queue that goes on with the packet after its RECOVER (R391,
R406). -/
def State.replayRestore (s : State) (ctx : Nat) (keep : Option Nat) : State :=
  let s := (s.updContext ctx fun c =>
    { c with replaying := none, recovery := { c.recovery with points := c.recovery.points.map fun p => { p with pending := [] } } }).refreshUnits ctx
  match s.context? ctx with
  | none => s
  | some c =>
    let r := c.recovery
    let live := (r.points.filter fun p => p.state == .sealing || p.state == .sealed).reverse
    let ok (p : Point) : Bool := [0, 1].any fun m => sealValid ctx r (s.pkg.mirrors.getD m true) m p
    let halt (s : State) : State :=
      { s with queues := s.queues.map fun q => if q.ctx = ctx ∧ q.state ≠ .barred ∧ q.state ≠ .unbound then { q with state := .halted, pkts := [] } else q }
    let torn (s : State) (p : Point) : State :=
      s.updRecovery ctx fun r => { r.updPoint p.n (fun p => { p with state := .torn, pending := [] }) with rpt := r.rpt + 1 }
    let restore (s : State) (p : Point) : State :=
      let valid := [0, 1].filter fun m => sealValid ctx r (s.pkg.mirrors.getD m true) m p
      let m := valid.headD 0
      let s := if valid.length = 1 then
          (s.updRecovery ctx fun r => r.rebuild m (1 - m) p).recoveryRecord ctx 0x03 (1 - m)
        else s
      let s := s.restoreUnits r m p
      let s := p.timelines.foldl (fun (s : State) x => (s.unitWrite 7 256 ctx x.1 (leBytes 8 x.2)).getD s) s
      let s := s.updRecovery ctx fun r =>
        { r.updPoint p.n (fun p => { p with state := .sealed, pending := [] }) with
          rps := p.n, rpo := p.n + 1, replay := r.replay + 1
          points := (r.updPoint p.n (fun p => { p with state := .sealed, pending := [] })).points.filter fun q => decide (q.n ≤ p.n)
          units := r.units.map fun u => { u with dirty := 0, durable := 0,
                                                 named := ((p.pages.find? (·.1 == u.va)).map (·.2)).or u.named } }
      { s with queues := s.queues.map fun q =>
          if q.ctx = ctx ∧ q.state ≠ .unbound ∧ some q.n ≠ keep then
            let n := ((p.queues.find? (·.1 == q.n)).map (·.2)).getD 0
            { q with read := n, completed := n, pkts := [],
                     state := if q.state = .barred then .barred else if q.state = .halted then .idle else if n = q.tail then .idle else .running }
          else q }
    match live with
    | [] => halt (s.recoveryRecord ctx 0x05 r.rps)
    | p :: rest =>
      if ok p then restore s p
      else
        let s := (torn s p).recoveryRecord ctx 0x04 p.n
        match rest with
        | [] => halt (s.recoveryRecord ctx 0x05 p.n)
        | q :: _ => if ok q then restore s q else halt ((torn s q).recoveryRecord ctx 0x05 q.n)

/-- The steps of bring-up done, by the STAGE field (Table 24.5); 255 where one has failed. -/
def State.bootStage (s : State) : Nat := (s.pkg.stage >>> 24).toNat
/-- The links have been trained, by step 4 of bring-up (R433). -/
def State.linksTrained (s : State) : Bool := s.bootStage == 4 || s.bootStage == 5

/-- A die leaves its reset, an I/O die with its links trained, once bring-up has trained them; a replay that waited for it last restores its context (R391, R418). -/
def State.dieReady (s : State) (n : Nat) : State :=
  let s := s.updDie n fun d => { d with resetting := false }
  let s := if 4 ≤ n then
      { s with pkg := { s.pkg with mirrors := s.pkg.mirrors.zipIdx.map fun (m, i) => if i = n - 4 then true else m } }.train fun l =>
        linkDie l == n && s.linksTrained
    else s
  s.contexts.foldl (fun (s : State) (c : Context) => match c.replaying with
    | some (dies, keep) =>
      if c.destroyed || !dies.contains n then s
      else if dies = [n] then s.replayRestore c.id keep
      else s.updContext c.id fun c => { c with replaying := some (dies.filter (· != n), keep) }
    | none => s) s

end Sys2Proof.Machine
end

