-- ==== Sys2Proof/Machine/Rep.lean ====
section
/-! DEFINITION. The words of an issue group: their class and their place, the checks made on a whole group, and the fields that `rep`
steps (R82, R83, R89 to R91, R104, R105, R152, R192). -/

namespace Sys2Proof

/-! ### The fields of a word under `rep` (R89, R152, R192) -/

/-- The lane-register operand that field D names. -/
def Instr.fieldD (i : Instr) : Option Opnd := i.dsts.head?

/-- The lane-register operand that field A names. -/
def Instr.fieldA (i : Instr) : Option Opnd :=
  match i with
  | .mov .. | .tcvt .. | .tacc .. => none
  | .ffma .. | .ffmaF64 .. => i.srcs[1]?
  | _ => i.srcs[0]?

/-- The lane-register operand that field B names. -/
def Instr.fieldB (i : Instr) : Option Opnd :=
  match i with
  | .mov .. | .tcvt .. | .tacc .. => i.srcs[0]?
  | .fsh .. | .bfx .. | .bprm .. | .mad .. | .madh .. | .idp4 .. | .ffma .. | .ffmaF64 .. => i.srcs[2]?
  | .bfi .. | .plog .. => i.srcs[3]?
  | .fcvt .. => none
  | _ => i.srcs[1]?

/-- The step of a field: 1 for a register, 2 for a pair, also one that heads a block of two pairs, 4 for a quad, which are the
alignments of R92; a block or run steps by 1, its first register (R89, R192). -/
def Opnd.step (o : Opnd) : Nat := if 4 < o.n then 1 else o.al

/-- A stepped field fits in every repetition (R91). -/
def Opnd.repOk (o : Opnd) (n : Nat) : Bool :=
  decide (o.r.toNat + (n - 1) * o.step ≤ 63) && decide (o.r.toNat + (n - 1) * o.step + o.n ≤ 64)

/-- Field k in repetition i. -/
def stepField (o : Option Opnd) (on : Bool) (i : Int) (k : RegIx) : RegIx :=
  match o with
  | some o => if on then k + BitVec.ofInt 6 (i * o.step) else k
  | none => k

/-- The instruction that a word of the group is in repetition i of a `rep` with step mask m. -/
def stepInstr (w : Word) (lit : Option LitRaw) (m : BitVec 3) (i : Int) (x : Instr) : Instr :=
  let r := Raw.ofWord w
  match decodeRaw { r with d := stepField (x.fieldD) (m.getLsbD 0) i r.d, a := stepField (x.fieldA) (m.getLsbD 1) i r.a,
                           b := stepField (x.fieldB) (m.getLsbD 2) i r.b } lit with
  | .ok y => y
  | .error _ => x

/-- Classes that `rep` repeats (R89). -/
def repClass (k : Nat) : Bool := decide (k ≤ 14) || k == 20 || k == 22

/-- A repeated word passes the checks of R91 for a count and a mask. -/
def repWordOk (n : Nat) (m : BitVec 3) (x : Instr) : Bool :=
  let field (on : Bool) (o : Option Opnd) : Bool := !on || match o with | some o => o.repOk n | none => false
  field (m.getLsbD 0) (x.fieldD) && field (m.getLsbD 1) x.fieldA && field (m.getLsbD 2) x.fieldB

/-- Where a word without a written third register reads it from: under `rep` the unstepped field D, since the LIT fields stay the same
in every repetition (R86, R152, R192). `pin` is that field. -/
def Mods.x {α : Type} (m : Mods α) (xreg : RegIx → α → RegIx) (isImm : α → Bool) (pin : Option RegIx) (d : RegIx) : RegIx :=
  match m.lit with
  | some l => if isImm l.body then pin.getD d else xreg d l.body
  | none => pin.getD d
def Mods.xi (m : Mods LitInt) (pin : Option RegIx) (d : RegIx) : RegIx := m.x LitInt.xreg LitInt.isImm pin d
def Mods.xf (m : Mods LitFlt) (pin : Option RegIx) (d : RegIx) : RegIx := m.x LitFlt.xreg LitFlt.isImm pin d

/-- The third register that a word reads, as it stands under `rep`: its place among the sources, and its field. -/
def Instr.third (i : Instr) (pin : Option RegIx) : Option (Nat × RegIx) :=
  match i with
  | .fsh m d _ _ | .bfx m d _ _ | .bfi m d _ _ | .bprm m d _ _ | .plog m d _ _ | .mad m d _ _ | .madh m d _ _ | .idp4 m d _ _ =>
    some (1, m.xi pin d)
  | .ffma m d _ _ | .ffmaF64 m d _ _ => some (0, m.xf pin d)
  | .fdot2 m d _ _ | .fdot4 m d _ _ => some (2, m.xf pin d)
  | _ => none

/-- The lane registers that a word reads, the third one under `rep` as it stands there. -/
def Instr.reads (i : Instr) (pin : Option RegIx) : List Opnd :=
  match i.third pin with
  | some (k, x) => i.srcs.zipIdx.map fun (o, j) => if j = k then { o with r := x } else o
  | none => i.srcs

end Sys2Proof

namespace Sys2Proof.Machine

/-! ### Words -/

/-- The census class of a word (R80). -/
def wordClass (w : Word) : Nat := (w.extractLsb' 26 5).toNat
def wordChains (w : Word) : Bool := w.getLsbD 31
def wordGuard (w : Word) : GuardBits := w.extractLsb' 0 4

/-- The words of a group from its head, in the rest of its packet (R82). -/
def groupFrom : List Word → List Word
  | [] => []
  | w :: ws => if wordChains w then w :: groupFrom ws else [w]

/-- The key: the classes of the words, LIT and PFX words left out; a group of such words alone has the class of its head (R65, R105). -/
def keyOf (ws : List Word) : List Nat :=
  match (ws.map wordClass).filter fun k => decide (k < 30) with
  | [] => (ws.head?.map wordClass).toList
  | ks => ks

/-- The words of a fibre's next group, from its fetched packet (R81). -/
def Fibre.groupWords (f : Fibre) : List Word :=
  match f.ibuf with
  | none => []
  | some p => if p.number = f.arch.pc.toNat / 3 then groupFrom (p.words.drop (f.arch.pc.toNat % 3)) else []

/-! ### The checks of a whole group (R83, R104, R105) -/

/-- Why a group raises: detail of class 0, and the word in %tval. -/
abbrev GroupFault := Nat × Word

def rejectOf (w : Word) (lit : Option Word) : Reject → GroupFault
  | .word k => (k.toNat, w)
  | .lit k => (k.toNat, lit.getD w)

/-- `call` needs a slide (R155, R86); `tret` is alone in its group (R387), `jwait` too (R279). -/
def aloneOk (i : Instr) (count : Nat) : Option Nat :=
  match i with
  | .call m _ => if (m.body .dflt).slide = 0 then some 17 else none
  | .tret _ => if count ≠ 1 then some 24 else none
  | .jwait _ _ => if count ≠ 1 then some 19 else none
  | _ => none

/-- The checks of one word after the LIT and PFX rules: its decoding and its own rules. -/
def wordFault (w : Word) (next : Option Word) (count : Nat) : Option GroupFault :=
  match decode w next with
  | .error e => some (rejectOf w next e)
  | .ok i =>
    match aloneOk i count with
    | some k => some (k, match i with | .call .. => (if (litOf w next).isSome then next.getD w else w) | _ => w)
    | none => none

/-- The words of a group after its head's own checks; `afterLit`: the word before is a LIT word, checked with the word it modifies. -/
def tailFault (count : Nat) (slot : Nat) (afterLit : Bool) : List Word → Option GroupFault
  | [] => none
  | w :: ws =>
    let k := wordClass w
    match (if k = 31 then (if afterLit then some (31, w) else none) else if k = 30 then some (30, w) else wordFault w ws.head? count) with
    | some e => some e
    | none => if slot = 2 ∧ wordChains w then some (k, w) else tailFault count (slot + 1) (k == 31) ws

/-- The operation that a word of the group names, for the step bits of R91, be the word itself rejected or not: fields that must hold 0 or
a small number are passed over. None: its operation is unassigned. -/
def namedBy (w : Word) (next : Option Word) : Option Instr :=
  let r := Raw.ofWord w
  ([r.d, r.d &&& 7, 0].flatMap fun d => [r.a, 0].flatMap fun a => [r.b, 0].map fun b => { r with d := d, a := a, b := b }).findSome? fun r =>
    decodeBare r (litOf w next)

/-- The checks of R91 on the head of a `rep` group at its first repetition. -/
def repFault (n : Nat) (m : BitVec 3) (w : Word) (rest : List Word) : Option GroupFault :=
  let body := rest.filter fun x => wordClass x != 31
  if body = [] ∨ body.any (fun x => !repClass (wordClass x)) then some (30, w)
  else
    let ok := rest.zipIdx.all fun (x, j) => wordClass x == 31 || match namedBy x rest[j + 1]? with
      | some i => repWordOk n m i
      | none => m == 0
    if ok then none else some (30, w)

/-- A LIT word that stands directly after `rep`, which takes none, in whichever repetition (R88). -/
def repLit (rest : List Word) : Option GroupFault :=
  match rest.head? with
  | some l => if wordClass l = 31 then some (30, l) else none
  | none => none

/-- The checks of a whole group, its head at a slot of its packet; `first`: no repetition of it has run (R91). -/
def groupFault (slot : Nat) (first : Bool) (ws : List Word) : Option GroupFault :=
  match ws with
  | [] => none
  | w :: rest =>
    let k := wordClass w
    if k = 31 then some (31, w)
    else if k = 30 then
      match decode w none with
      | .ok (.rep _ n m) =>
        match (if first then repFault (n.toNat + 1) m w rest else none) with
        | some e => some e
        | none =>
          match repLit rest with
          | some e => some e
          | none => if slot = 2 then some (30, w) else tailFault ws.length (slot + 1) false rest
      | _ => some (30, w)
    else tailFault ws.length slot false ws

end Sys2Proof.Machine
end

