-- ==== Sys2Proof/Machine/Issue.lean ====
section
/-! DEFINITION. Issuing a word: the open group, its effects in order when the group takes effect, the effects that a release, an
acquire or a stall holds back, and what a cause discards (R38, R57, R61, R82 to R85, R90, R153, R214 to R216, R437). -/

namespace Sys2Proof.Machine

/-! ### What an effect writes (R84, R437) -/

def PairRegs (dst n : Nat) : List Nat := (List.range n).map (dst + ·)

/-- Registers that the result of a rendezvous writes. -/
def RdvKind.regs : RdvKind → Nat
  | .shfl _ w | .bcst w _ => if w then 2 else 1
  | .redu o _ _ | .scan o _ _ => (grpTy (o.extractLsb' 0 3)).regs
  | .mtch _ | .rdv => 1
  | _ => 0
def RdvKind.pred : RdvKind → Bool | .shfl .. | .bcst .. | .vote _ | .elect => true | _ => false

/-- The hearth's front cycle and the grate of a fibre's decision. -/
def State.turnOf (s : State) (f : Fibre) : Nat × Nat :=
  ((s.hearth (s.hearthOf f)).cycle, (((s.cohortOf f).crew? f.crew).map (·.grate)).getD 0)

/-- The registers and the predicates that an effect writes. -/
def Fx.writes : Fx → List Nat × List Nat
  | .res _ rs ps _ => (rs.map (·.1), ps.map (·.1))
  | .sreg n _ => ([], if n = 25 then List.range 7 else [])
  | .call _ link _ _ => ([link], [])
  | .mem r => (if r.kind.returns then PairRegs r.dst r.ty.regs else [], [])
  | .stash (.lds _ ty dst) => (PairRegs dst ty.regs, [])
  | .stash (.tfe _ _ _ p) => ([], [p.toNat])
  | .present _ p => (PairRegs p.dst p.kind.regs, if p.kind.pred then [p.pdst.toNat] else [])
  | .spawn p _ | .spawnNone p | .unwatch p _ => ([], [p.toNat])
  | .watch p h .. => ([h], [p.toNat])
  | .rpqry dst _ => ([dst], [])
  | .rdtm dst => (PairRegs dst 2, [])
  | .svc _ dst _ => (PairRegs dst 2, [])
  | .read _ _ dst n => (PairRegs dst n, [])
  | _ => ([], [])

/-- Whether what it writes is still to land after its group has taken effect, and under which name. -/
def Fx.pendBy (name : Nat) : Fx → Option PendBy
  | .res .. => some .lane
  | .sreg .. | .call .. => none
  | _ => some (.op name)

/-- The landings that a group leaves open: for each, what no later effect of the group writes (R84, R437). -/
def pendsOf : List (Nat × Fx) → List Pend
  | [] => []
  | (n, x) :: rest =>
    let later := rest.map fun y => y.2.writes
    let regs := x.writes.1.filter fun r => later.all fun w => !w.1.contains r
    let preds := x.writes.2.filter fun p => decide (p < 7) && later.all fun w => !w.2.contains p
    match x.pendBy n with
    | some src => if regs = [] ∧ preds = [] then pendsOf rest else { regs := regs, preds := preds, src := src } :: pendsOf rest
    | none => pendsOf rest

/-- The effects from `release` on keep program order behind releases, acquires and stalls; `exit` comes after them, at once (R76). -/
def Fx.ordered : Fx → Bool
  | .res .. | .sreg .. | .jump _ | .call .. | .ret .. | .tret | .yield | .sleep _ | .rep _ | .unhoist _ | .jarr _ | .devBar _ | .exit => false
  | _ => true
def Fx.isExpect : Fx → Bool | .barExpect .. => true | _ => false
def Fx.isExit : Fx → Bool | .exit => true | _ => false
def Fx.isCall : Fx → Bool | .call .. => true | _ => false
def Fx.isStash : Fx → Bool | .stash _ => true | _ => false
def Fx.isRelease : Fx → Bool | .release _ => true | _ => false
def Fx.isRead : Fx → Bool | .read .. => true | _ => false
def Fx.isEngine : Fx → Bool | .engine .. | .engineGo => true | _ => false
def Fx.isSequence : Fx → Bool | .sequence _ => true | _ => false
def Fx.isPresent : Fx → Bool | .present .. => true | _ => false
/-- A record enters its gather queue, or a watchpoint fires at once (R268). -/
def Fx.spawns : Fx → Bool | .spawn .. | .watch .. => true | _ => false
/-- The effects of the words that a pending acquire holds back (R215, R386). -/
def Fx.acqHeld : Fx → Bool
  | .mem _ | .stash _ | .pref _ | .engine .. | .engineGo | .read .. | .spawn .. | .spawnNone _ | .watch .. | .unwatch .. | .jwait .. | .rpmark
  | .rpqry .. | .rdtm _ | .svc .. | .tlbi .. => true
  | _ => false
/-- The effects that demote a contained node, releases apart (R410). -/
def Fx.demotes : Fx → Bool
  | .mem r => r.kind.writes && (match r.target with | .dev _ => false | _ => true)
  | .watch .. | .rpmark => true
  | .engine (.coll ..) .. => true
  | .engine (.cpylSt _ d _) .. | .engine (.cpylGg _ d _) .. => spaceKind d.space != 0
  | _ => false
/-- Placing the words that block (R153): void where the group exits. -/
def Fx.blocks : Fx → Bool | .barWait .. | .sleep _ => true | _ => false

/-! ### Effects on the fibre itself -/

/-- A write to a special register of the fibre (Table 5.6); bit 7 of %pword reads 1. -/
def Fibre.setSreg (f : Fibre) (n : Nat) (v : DWord) : Fibre :=
  let a := f.arch
  match n with
  | 25 => { f with arch := { a with pword := v.setWidth 8 ||| 0x80 } }
  | 26 => { f with arch := { a with repc := (v.setWidth 7).toNat } }
  | 27 => { f with arch := { a with fflags := v.setWidth 5 } }
  | 28 => { f with arch := { a with frm := v.setWidth 2 } }
  | 32 => { f with arch := { a with cause := v.setWidth 9 } }
  | 33 => { f with arch := { a with epc := v.setWidth 32 } }
  | 34 => { f with arch := { a with tval := v } }
  | 40 => { f with arch := { a with spaces := a.spaces.set 0 (v.setWidth 16) } }
  | 41 => { f with arch := { a with spaces := a.spaces.set 1 (v.setWidth 16) } }
  | 42 => { f with arch := { a with spaces := a.spaces.set 2 (v.setWidth 16) } }
  | 43 => { f with arch := { a with spaces := a.spaces.set 3 (v.setWidth 16) } }
  | _ => f

/-- The fibre moves its window (R155, R156): the hoist entries become invalid. -/
def Fibre.slide (f : Fibre) (wbase : Nat) (pc : Word) : Fibre :=
  { f with arch := { f.arch with wbase := wbase, pc := pc }, hoist := [] }

/-- One effect on the fibre itself; `void`: the group exits, which voids its other control effects (R153). -/
def Fibre.apply (void : Bool) (f : Fibre) (x : Fx) : Fibre :=
  match x with
  | .res _ rs ps fl => ((f.putRegs rs).putPreds ps).orFlags fl
  | .sreg n v => f.setSreg n v
  | .jump t => if void then f else { f with arch := { f.arch with pc := t } }
  | .call wb link v t => if void then f else (f.putReg link v).slide wb t
  | .ret wb t => if void then f else f.slide wb t
  | .tret => f.return
  | .yield => { f with demoted := true }
  | .sleep u => { f with waits := f.waits ++ [.sleep u] }
  | .unhoist r => { f with hoist := f.hoist.filter fun h => h.reg != r }
  | _ => f

/-- What the effects on a fibre's crew do: a mask bit, %tgprog (R73, R322); and the entry of a device barrier at its first use (R170). -/
def State.applyCrew (f : Fibre) (s : State) (x : Fx) : State :=
  match x with
  | .jarr j => s.updCrew f.cohort f.crew fun w =>
      { w with masks := w.masks.zipIdx.map fun (m, i) => if i = j.toNat then m ||| BitVec.ofNat 32 (2 ^ f.vlane) else m }
  | .sreg 35 v => s.updCrew f.cohort f.crew fun w => { w with tgprog := v }
  | .devBar n => s.devBarAlloc (s.cohortOf f).slot n
  | _ => s

/-! ### Effects in program order -/

/-- An effect is done; or it cannot be yet, and is tried again; or it has raised a cause. -/
inductive FxOut where
  | go (s : State)
  | again (s : State)
  | raised (s : State)

/-- The 64-byte line that holds an address (R237). -/
def lineAt (a : GAddr) : GAddr := ⟨a.space, a.off &&& ~~~ 63#64⟩

/-- An acquire of the fibre becomes pending on some of its operations (R215), or on the sequencer of a `fence.sc` at a scope (R216). -/
def Fibre.acquire (f : Fibre) (sc : Scope) (ops : List Nat) (seq : Option Scope) : Fibre :=
  { f with acq := some (match f.acq with
      | none => { scope := sc, ops := ops, seq := seq }
      | some a => { scope := a.scope.widen sc, ops := a.ops ++ ops.filter fun o => !a.ops.contains o, seq := a.seq.or seq }) }
/-- A `fence.sc` of the fibre awaits its sequencer. -/
def Fibre.sequencing (f : Fibre) : Option Scope := f.acq.bind (·.seq)

/-- Loads and atomics of a fibre that have not returned. -/
def State.unreturned (s : State) (uid : Nat) : List Nat := (s.ops.filter fun o => o.uid == uid && o.req.kind.returns).map (·.id)

/-- The engine command that an issue makes (R318, R326, R327). -/
def State.makeCmd (s : State) (f : Fibre) (name : Nat) (op : EngOp) (bar : Option Nat) (flue : Nat) (word : Word) : State :=
  let co := s.cohortOf f
  let c : EngineCmd := { id := name, uid := f.uid, cohort := f.cohort, hearth := co.hearth, pc := f.head, word := word, crew := f.crew,
                         vlane := f.vlane, op := op, bar := bar, flue := flue, run := .held, done := 0, bytes := 0, gwct := 0,
                         block := none, skip := [], value := 0, cause := none, since := none }
  let locks := s.locksOf co name op
  let s := s.updHearth co.hearth fun h => { h with locks := h.locks ++ locks }
  let s := { s with cmds := s.cmds ++ [c] }
  (match op with | .mtc .. => s.resizeLocks co | _ => s).updFibre f.uid fun f =>
    let f := if op.inCp then f.bumpCp else f.bumpTl
    if f.held.isSome && !op.isRead then { f with sent := f.sent + 1 } else f

/-- `jwait` reads its counter at the slice that serves it, which takes the line as an atomic does (R220, R279): it goes on, raises 11.03,
becomes a continuation, or waits in place. A read again of one that waits in place never makes a continuation (R282). -/
def State.jwaitRead (s : State) (f : Fibre) (a : GAddr) (t : Target) (again : Bool) : State :=
  let s := if again then s.updFibre f.uid fun g => { g with waits := g.waits.filter fun w => match w with | .jwait _ _ => false | _ => true } else s
  let s := (s.takeLines (s.servingDie (dieOfHearth (s.hearthOf f)) (s.slotOf f).node t) t).1
  let c : DWord := BitVec.ofNat 64 (s.targetNat (s.slotOf f).node t 8)
  let wait (s : State) : State := s.updFibre f.uid fun g => { g with waits := g.waits ++ [.jwait a s.ltime] }
  if s.poisonedFor (s.slotOf f).node t 8 then s.raise f.uid (mkCause 10 0) a.off f.head
  else if c = 0 then s
  else if c.toInt < 0 then s.raise f.uid (mkCause 11 3) c f.head
  else if again then wait s
  else match s.becomeContinuation f a t f.head with
    | some s => s
    | none => wait s

/-- Prior stores to ember granules that a `.rcv` release makes durable (R396). -/
def Fibre.noteStore (f : Fibre) (t : Target) (n : Nat) : Fibre :=
  match t with
  | .dev pa => { f with stored := f.stored ++ (granulesOf pa n).filter fun g => !f.stored.contains g }
  | _ => f

/-- A dropped join decrement (R278): its record carries the join address; what stands from 0x20 is open, since no record is there. -/
def State.dropJoin (s : State) (op : MemOp) : State :=
  match s.fibre? op.uid with
  | none => s.dropOp op.id
  | some f => ((s.kindlingRecord (s.slotOf f) 0x20 op.req.addr.off.toNat (freeBytes s.run.tick 25 (64 * op.id) 32)).dropOp op.id).releaseAdvance op.uid

/-- An operation sent knows its target. A write that leaves this device's memory waits until a contained node is demoted (R410). -/
def State.aim (s : State) (op : MemOp) (t : Target) (n : Nat) : State :=
  let slot := ((s.fibre? op.uid).map fun f => (s.cohortOf f).slot).getD 0
  let away := match t with | .dev _ => false | _ => true
  if away && s.mustCommit slot then s.leaveNode slot
  else ((if away then s.demote slot else s).updOp op.id fun o => { o with ready := true, req := { o.req with target := t } }).unhoist op.hearth t n

/-- The translation of a join decrement: cached, a walk to wait for, or a fault that drops it (R278, Table 21.5). -/
def State.joinTranslate (s : State) (id : Nat) : State :=
  match s.op? id with
  | none => s
  | some op =>
    match s.fibre? op.uid with
    | none => s.dropOp id
    | some f =>
      match s.spaceFault (s.ctxOf f) op.req.addr.space with
      | some _ => s.dropJoin op
      | none => match s.translate op.hearth (s.ctxOf f) 1 op.req.addr op.req.addr.off with
        | .ok t => s.aim op t 8
        | .fault _ _ => s.dropJoin op
        | .miss => (s.askWalk op.hearth (s.ctxOf f) 1 op.req.addr (.sent id)).1

/-- Begin a release, or let it end at once where its steps are done (R214): before it is performed, the fibre's loads have their values. -/
def State.beginRelease (s : State) (uid : Nat) (sc : Scope) : State :=
  let s := (s.updFibre uid fun f => { f with order := some sc, flushed := false, durable := false }).releaseAdvance uid
  match s.fibre? uid with
  | none => s
  | some f =>
    let s := if Scope.nod.rank ≤ sc.rank then s.leaveNode (s.cohortOf f).slot else s
    if s.releaseReady f sc then s.endRelease f sc else s

/-- The sequencer of a fence's scope instance (R216): the hearth's barrier unit, L2 slice 0 of the die, the side's I/O die, I/O die 0. -/
def sequencerKey (sc : Scope) (hearth : Nat) : Nat :=
  if sc.rank ≤ Scope.hth.rank then hearth
  else if sc.rank ≤ Scope.die.rank then 192 + dieOfHearth hearth
  else if sc = .sid then 196 + hearth / 96
  else 198
def State.sequencer (s : State) (k : Nat) : Sequencer := (s.sequencers.find? (·.key == k)).getD { key := k, arrived := [], accepted := [], count := 0 }
def State.setSequencer (s : State) (q : Sequencer) : State := { s with sequencers := q :: s.sequencers.filter (·.key != q.key) }

/-- A `fence.sc` whose release and acquire steps are done arrives at its sequencer (R216). -/
def State.arriveFence (s : State) (uid : Nat) : State :=
  match s.fibre? uid with
  | none => s
  | some f =>
    match f.sequencing with
    | some sc =>
      let q := s.sequencer (sequencerKey sc (s.hearthOf f))
      if (f.acq.all (·.ops.isEmpty)) && !q.arrived.contains uid && !q.accepted.contains uid then
        s.setSequencer { q with arrived := q.arrived ++ [uid] }
      else s
    | none => s

/-- A record of another fibre of the hearth, of an earlier decision or an earlier fibre of the same one, is still to enter: names rise
in the order in which groups take effect (R268). The fibres of a suspended cohort have left the hearth. A record for the spill area waits for the stacks (R434). -/
def State.spawnHeld (s : State) (f : Fibre) (name : Nat) : Bool :=
  let h := s.hearthOf f
  (!s.emberUp && decide (storeSize ≤ (s.die (dieOfHearth h)).store.length)) || s.fibres.any fun g => g.uid != f.uid && s.hearthOf g == h && (s.cohortOf g).run != .suspended
    && g.deferred.any fun x => x.2.spawns && decide (x.1 < name)

/-- An earlier `rpmark` of the same decision has not closed its point (R403). -/
def State.markHeld (s : State) (f : Fibre) (name : Nat) : Bool :=
  s.fibres.any fun g => g.uid != f.uid && s.hearthOf g == s.hearthOf f && g.turn == f.turn
    && g.deferred.any fun x => x.2 == .rpmark && decide (x.1 < name)

/-- The fibre's hearth locks a range that n bytes at an address meet: any range for a write, one that is written for a load (R234). Commands of
earlier words of the access's own group have made no entry yet (DESIGN CHOICE, log 103). -/
def State.lockMeets (s : State) (f : Fibre) (a : GAddr) (n : Nat) (writes : Bool) : Bool :=
  (s.hearth (s.hearthOf f)).locks.any fun l =>
    (writes || l.writes) && l.meets ⟨0, s.ctxOf f, a.space, a.off.toNat, a.off.toNat + n, writes⟩

/-- One effect of fibre uid in program order. -/
def State.doFx (s : State) (uid name : Nat) (x : Fx) : FxOut :=
  match s.fibre? uid with
  | none => .go s
  | some f =>
    match x with
    | .release sc =>
      if sc = .fib then .go s else .go (s.beginRelease uid sc)
    | .acquireLoads sc =>
      let ops := s.unreturned uid
      if sc = .fib ∨ ops = [] then .go s else .go (s.updFibre uid fun f => f.acquire sc ops none)
    | .sequence sc => .go ((s.updFibre uid fun f => f.acquire sc [] (some sc)).arriveFence uid)
    | .mem r =>
      let s := if x.demotes then s.demote (s.cohortOf f).slot else s
      let s := s.sendMem uid name r
      let s := if r.kind = .joinDec then s.joinTranslate name else s
      let s := match r.kind with | .store => s.updFibre uid fun f => f.noteStore r.target r.size | _ => s
      match r.acq with
      | some sc => if sc = .fib then .go s else .go (s.updFibre uid fun f => f.acquire sc [name] none)
      | none => .go s
    | .stash op =>
      match s.stashOp uid name op with
      | .done s => .go s
      | .stall w => .again (s.updFibre uid fun f => { f with waits := f.waits ++ [w] })
      | .raise c tv => .raised ((s.updFibre uid fun f => (f.dropPend name).backUp).raiseLate uid c tv f.head)
    | .pref a =>
      match s.spaceFault (s.ctxOf f) a.space with
      | some _ => .go s
      | none =>
        let a := lineAt a
        if spaceKind a.space = 1 ∨ s.lockMeets f a 64 false then .go s
        else match s.unitXlate (dieOfHearth (s.hearthOf f)) (s.ctxOf f) 0 a with
          | .ok s (.dev pa) =>
            let h := s.hearthOf f
            if !(Target.dev pa).linked s ∨ s.poisonedFor (s.slotOf f).node (.dev pa) 64 ∨ (s.l1Live h (pa / 64)).isSome then .go s
            else .go (s.l1Fill h (s.slotOf f).node (s.slotOf f).leaseNs (pa / 64)).1
          | .ok s (.host ha) => if !(Target.host ha).linked s ∨ s.poisoned (.host ha) 64 then .go s else .go (s.l2Load (dieOfHearth (s.hearthOf f)) true (ha / 256))
          | _ => .go s
    | .barArrive n sc => .go (if f.exited then s else if sc = .dev then s.devArrive f n else s.barArrive f n)
    | .barWait n sc => .go (if f.exited then s else if sc = .dev then s.devWait f n else s.barWait f n)
    | .barExpect n v =>
      if f.exited then .go s
      else if (2 ^ 31 : Int) ≤ ((s.cohortOf f).bar n).pend + v.toNat then .raised (s.raiseLate uid (mkCause 6 20) (v.setWidth 64) f.head)
      else .go (s.barExpect f n v.toNat)
    | .spawn p r =>
      if s.spawnHeld f name then .again s
      else
        let (s, ok) := s.spawnStatus f r
        .go (s.updFibre uid fun f => f.land name [] [(p.toNat, ok)])
    | .spawnNone p => .go (s.updFibre uid fun f => f.land name [] [(p.toNat, true)])
    | .watch p h _ t v m ctl r =>
      if s.spawnHeld f name then .again s else
      let s := s.demote (s.cohortOf f).slot
      let (s, hd) := s.watchRegister f t v m ctl r
      .go (s.updFibre uid fun f => f.land name ((hd.map fun w => (h, w)).toList) [(p.toNat, hd.isSome)])
    | .unwatch p h =>
      let (s, ok) := s.watchFree (s.ctxOf f) h
      .go (s.updFibre uid fun f => f.land name [] [(p.toNat, ok)])
    | .jwait a t => if t.linked s then .go (s.jwaitRead f a t false) else .again s
    | .engine op bar flue word => .go ((if x.demotes then s.demote (s.cohortOf f).slot else s).makeCmd f name op bar flue word)
    | .read op word _ _ => .go (s.makeCmd f name op none 0 word)
    | .engineGo => .go { s with cmds := s.cmds.map fun c => if c.uid = uid ∧ c.run = .held then { c with run := .queued } else c }
    | .present tag p => .go (if f.exited then s else s.present uid tag { p with name := name })
    | .rpmark =>
      let s := s.demote (s.cohortOf f).slot
      if s.markHeld f name then .again s
      else match (s.context? (s.ctxOf f)).bind fun c => c.recovery.sealing with
        | some _ => .again s
        | none => .go (s.closePoint (s.ctxOf f))
    | .rpqry dst n =>
      let v := ((s.context? (s.ctxOf f)).map fun c => c.recovery.query n.toNat).getD 6
      .go (s.updFibre uid fun f => f.land name [(dst, v)] [])
    | .rdtm dst =>
      if f.ld = 0 ∧ f.st = 0 then
        let t : DWord := BitVec.ofNat 64 (s.ltimeAt (dieOfHearth (s.hearthOf f)))
        .go (s.updFibre uid fun f => f.land name [(dst, t.setWidth 32), (dst + 1, (t >>> 32).setWidth 32)] [])
      else .again s
    | .svc n dst a => .go (s.updFibre uid fun f => { f with waits := f.waits ++ [.svc name n dst a] })
    | .raise c tv => .raised ((s.updFibre uid Fibre.backUp).raiseLate uid c tv f.head)
    | .tlbi sc a => .go (s.updFibre uid fun f => { f with waits := f.waits ++ [.tlbi sc a] })
    | _ => .go s

/-- Waits whose end is an acquire (R168, R257, R386): a barrier's, a service's, an `rdv`'s. -/
def State.acquiring (s : State) (f : Fibre) : Bool :=
  f.acq.isSome || f.waits.any fun w => match w with
    | .bar _ | .devBar _ | .svc .. | .tlbi .. => true
    | .group _ => (((s.cohortOf f).crew? f.crew).map (·.rdvs)).getD [] |>.any fun r => r.members.any fun p => p.uid == f.uid && p.kind == .rdv
    | _ => false

/-- The next effect of a fibre is held back: everything by a release, what R215 names by an acquire, a presentation by an open one, what
demotes a contained node by its staged lines (R74, R214, R215, R224, R410). -/
def State.gated (s : State) (uid : Nat) (x : Fx) : Bool :=
  match s.fibre? uid with
  | none => false
  | some f => f.order.isSome || (x.demotes && s.mustCommit (s.cohortOf f).slot) || (x.acqHeld && s.acquiring f)
      || (x.isPresent && f.waits.any fun w => match w with | .group _ => true | _ => false) || (x.isSequence && f.sequencing.isSome)

/-- Behind a stash word that stands stalled, later stash words wait for the port, and a release for the word, with all that stands behind it; the
other effects of the group are made as it issues (R38, R214, R243; DESIGN CHOICE, log 103). -/
def Fx.behind (stalled : List (Nat × Fx)) (x : Fx) : Bool :=
  stalled != [] && (x.isStash || x.isRelease || x.isEngine || stalled.any fun y => y.2.isRelease)

/-- The effects of fibre uid in order, up to one that is held back; `stalled`: those passed over, behind a stash word that stands stalled. -/
def State.runFrom (uid : Nat) (stalled : List (Nat × Fx)) : List (Nat × Fx) → State → State
  | [], s => if stalled = [] then s else s.updFibre uid fun f => { f with deferred := stalled ++ f.deferred }
  | (n, x) :: rest, s =>
    if x.behind stalled then State.runFrom uid (stalled ++ [(n, x)]) rest s
    else if s.gated uid x then
      (if x.demotes then s.leaveNode (((s.fibre? uid).map fun f => (s.cohortOf f).slot).getD 0) else s).updFibre uid fun f =>
        { f with deferred := stalled ++ (n, x) :: rest ++ f.deferred }
    else match s.doFx uid n x with
      | .go s => State.runFrom uid stalled rest s
      | .again s =>
        if x.isStash then State.runFrom uid [(n, x)] rest s
        else s.updFibre uid fun f => { f with deferred := stalled ++ (n, x) :: rest ++ f.deferred }
      | .raised s => s.updFibre uid fun f => { f with deferred := stalled ++ rest ++ f.deferred }.unpresent
def State.runOrdered (uid : Nat) (l : List (Nat × Fx)) (s : State) : State := State.runFrom uid [] l s

/-- Waits under which the effects held back may go on: no stall, no walk, no service of a fault. -/
def Wait.lets : Wait → Bool
  | .emptyLine .. | .mapFill _ | .walk _ | .parked _ => false
  | _ => true

/-- The effects that a fibre holds back may go on now; they do while its cohort is stopped, until it is saved (R352). -/
def State.mayResume (s : State) (f : Fibre) : Bool :=
  f.waits.all Wait.lets && ((s.cohort? f.cohort).map (·.run != .suspended)).getD true
    && match f.deferred with
      | [] => false
      | (n, x) :: _ => !s.gated f.uid x && match x with
        | .rpmark => ((s.context? (s.ctxOf f)).map (·.recovery.sealing.isNone)).getD true && !s.markHeld f n
        | .rdtm _ => f.ld == 0 && f.st == 0
        | .spawn .. | .watch .. => !s.spawnHeld f n
        | .jwait _ t => t.linked s
        | _ => true

/-- The fibre whose held effects go on next: the one whose group took effect first. -/
def State.nextResume (s : State) : Option Fibre :=
  (s.fibres.filter s.mayResume).foldl (fun (m : Option Fibre) f => match m with
    | none => some f
    | some g => if (f.deferred.head?.map (·.1)).getD 0 < (g.deferred.head?.map (·.1)).getD 0 then some f else some g) none

/-- They go on. -/
def State.resume (s : State) (f : Fibre) : State :=
  State.runOrdered f.uid f.deferred (s.updFibre f.uid fun g => { g with deferred := [] })

/-! ### A group takes effect (R84, R90, R153) -/

/-- The fibre's place after the group: its next PC, and what of a repetition remains. -/
def Fibre.advance (f : Fibre) (og : OpenGroup) : Fibre :=
  let next := og.head + BitVec.ofNat 32 og.words
  match og.repeating with
  | none => { f with arch := { f.arch with pc := next }, head := og.head, rep := none }
  | some (n, r) =>
    { f with arch := { f.arch with pc := if r ≤ 1 then next else og.head, repc := r - 1, repStart := n }, head := og.head, rep := some (n, r) }

/-- The fibre's turn in its decision is over. -/
def State.endTurn (s : State) : State := { s with run := { s.run with group := none, issuing := s.run.issuing.tail } }

/-- The fibre's turn is over, and its group has issued in the decision. -/
def State.issuedTurn (s : State) (uid : Nat) : State :=
  { s.endTurn with run := { s.endTurn.run with decision := s.run.decision.map fun (d : Decision) => { d with issued := d.issued ++ [uid] } } }

/-- The engine commands of a group that are issued already are not issued again (R327). -/
def dropSent : Nat → List Fx → List Fx
  | 0, l => l
  | _, [] => []
  | n + 1, .engine _ _ _ _ :: .release _ :: .engineGo :: l => dropSent n l
  | n + 1, x :: l => x :: dropSent (n + 1) l

/-- The iterative pipes of a lane: its divider, its DP pipe and its SFU pipe, by class (R151, R191). -/
def pipeClass (k : Nat) : Bool := k == 3 || k == 8 || k == 9

/-- The pipes that the effects of a group occupy. -/
def pipesOf (fx : List Fx) : List Nat :=
  (fx.filterMap fun x => match x with | .res k _ _ _ => if pipeClass k then some k else none | _ => none).eraseDups

/-- The grate on whose lanes a fibre runs. -/
def State.grateOf (s : State) (f : Fibre) : Nat := (((s.cohortOf f).crew? f.crew).map (·.grate)).getD 0

/-- The fibre's lane is occupied in these pipes until their intervals end (R151, R191). -/
def State.occupy (s : State) (f : Fibre) (ks : List Nat) : State :=
  if ks = [] then s
  else s.updHearth (s.hearthOf f) fun h => { h with pipes := ks.map (fun k => (s.grateOf f, f.plane, k)) ++ h.pipes }

/-! ### What a group expects of its barriers (R167, R170) -/

/-- The device barriers other than n that the words so far of a group are the first to use. -/
def State.newBars (s : State) (slot : Nat) (fx : List Fx) (n : Nat) : List Nat :=
  ((fx.filterMap fun x => match x with | .devBar k => if (s.devBar? slot k).isNone then some k else none | _ => none).eraseDups).filter (· != n)

/-- The bytes that earlier words of the group add to the PEND of barrier n. -/
def expected (n : Nat) (fx : List Fx) : Nat := (fx.map fun x => match x with | .barExpect k v => if k = n then v.toNat else 0 | _ => 0).sum

/-- The cause of an effect on a barrier, behind those that stand before it in its group: 6.22 where the device's table is full, 6.20 where
PEND would pass 2^31 − 1. -/
def State.barCause (s : State) (f : Fibre) (pre : List Fx) (x : Fx) : Option (Cause × DWord) :=
  let co := s.cohortOf f
  match x with
  | .devBar n =>
    if (s.devBar? co.slot n).isNone ∧ 64 ≤ s.devBars.length + (s.newBars co.slot pre n).length then some (mkCause 6 22, BitVec.ofNat 64 n) else none
  | .barExpect n v =>
    if (2 ^ 31 : Int) ≤ (co.bar n).pend + expected n pre + v.toNat then some (mkCause 6 20, v.setWidth 64) else none
  | _ => none
/-- The first such cause of a whole group. -/
def State.barCauses (s : State) (f : Fibre) (fx : List Fx) : Option (Cause × DWord) :=
  (List.range fx.length).findSome? fun k => (fx[k]?).bind fun x => s.barCause f (fx.take k) x

/-- An earlier word of the group arrives at the barrier that an effect adds to: the addition keeps its place behind it (R167). -/
def behindArrival (named : List (Nat × Fx)) (x : Nat × Fx) : Bool :=
  match x.2 with
  | .barExpect n _ => named.any fun y => decide (y.1 < x.1) && match y.2 with | .barArrive k sc => k == n && sc != .dev | _ => false
  | _ => false

/-- The group takes effect: the effects on the fibre itself in word order, a `call`'s link last (R153); the bytes that it expects at barriers,
those behind an arrival of its own apart; then the effects in program order; `exit` last, which voids what would block and waits for
nothing (R76). The fibre loses its age at each issue, under `rep` after each repetition (R65, R68; DESIGN CHOICE, log 98). -/
def State.takeEffect (s : State) (f : Fibre) (og : OpenGroup) : State :=
  let base := s.run.nextOp
  let void := og.fx.any Fx.isExit
  let fx := (dropSent f.sent og.fx).filter fun x => !(void && x.blocks)
  let named := ((fx.filter fun x => !x.isCall) ++ fx.filter Fx.isCall).zipIdx.map fun (x, i) => (base + i, x)
  let f' := (named.map (·.2)).foldl (Fibre.apply void)
    { f.advance og with pend := f.pend ++ pendsOf named, since := none, sent := 0, held := none, turn := if f.held.isSome then f.turn else s.turnOf f }
  let s := s.setFibre f'
  let s := { s with run := { s.run with nextOp := base + named.length } }
  let s := (fx.foldl (State.applyCrew f) s).occupy f (pipesOf fx)
  let soon (x : Nat × Fx) : Bool := x.2.isExpect && !behindArrival named x
  let s := (named.filter soon).foldl (fun (s : State) x => match x.2 with | .barExpect n v => s.barExpect f n v.toNat | _ => s) s
  let s := State.runOrdered f.uid (named.filter fun x => x.2.ordered && !soon x) s
  if void then s.exitAll f.uid else s

/-- The commands that the reads of a group need to have sent: its engine commands up to its last read, each with its release (R320). -/
def readPrefix (fx : List Fx) : List Fx :=
  let cmds := fx.filter fun x => match x with | .engine .. | .read .. => true | _ => false
  ((cmds.reverse.dropWhile fun x => !x.isRead).reverse).flatMap fun x => [x, .release .coh, .engineGo]

/-- A group with reads of the tile engine has issued: the fibre stands in counter wait until they are performed, and only then does the group
take effect, or a cause that a read raises is taken (R327, log 51). -/
def State.holdGroup (s : State) (f : Fibre) (og : OpenGroup) : State :=
  let fx := readPrefix (dropSent f.sent og.fx)
  let base := s.run.nextOp
  let f' := { f with held := some og, head := og.head, rep := og.repeating, since := none, turn := s.turnOf f }
  State.runOrdered f.uid (fx.zipIdx.map fun (x, i) => (base + i, x))
    { s.setFibre f' with run := { s.run with nextOp := base + fx.length } }

/-- The group that the fibre has gathered issues. -/
def State.commit (s : State) (f : Fibre) (og : OpenGroup) : State :=
  let s := s.issuedTurn f.uid
  if og.fx.any Fx.isRead then s.holdGroup f og else s.takeEffect f og

/-- A word of the group raises: the group's writes are discarded, the cause is taken at the head (R38, R91, R153). -/
def State.raiseGroup (s : State) (f : Fibre) (og : OpenGroup) (c : Cause) (tval : DWord) : State :=
  ((s.dropReads f.uid).updFibre f.uid fun f =>
    { f with since := none, sent := 0, head := og.head, rep := og.repeating }.backUp).raise f.uid c tval og.head
def State.groupRaise (s : State) (f : Fibre) (og : OpenGroup) (c : Cause) (tval : DWord) : State :=
  (s.issuedTurn f.uid).raiseGroup f og c tval

/-! ### The reads of a group are performed (R327, R336, R337) -/

/-- The reads of a fibre's group are all performed. -/
def State.readsDone (s : State) (f : Fibre) : Bool :=
  match f.held with
  | none => false
  | some og =>
    let mine := s.cmds.filter fun c => c.uid == f.uid && c.op.isRead
    f.deferred.isEmpty && f.order.isNone && mine.all (·.run == .finished) && mine.length == (og.fx.filter Fx.isRead).length
      && ((s.cohort? f.cohort).map (·.run == .running)).getD true

/-- A read takes its answer: the registers that it writes. -/
def Fx.answered (cmds : List EngineCmd) (x : Fx) : Fx :=
  match x with
  | .read _ word dst n =>
    match cmds.find? (·.word == word) with
    | some c => .res 20 ((regWords n c.value.toNat).zipIdx.map fun (w, i) => (dst + i, w)) [] 0
    | none => x
  | _ => x

/-- The group takes effect with the answers, or the first cause among them is taken; then one that its barriers have come to meanwhile
(R170, R172). -/
def State.takeReads (s : State) (f : Fibre) : State :=
  match f.held with
  | none => s
  | some og =>
    let mine := s.cmds.filter fun c => c.uid == f.uid && c.op.isRead
    match mine.findSome? fun c => c.cause.map fun k => (k, c.op) with
    | some (k, op) => s.raiseGroup f og k (BitVec.ofNat 64 (match op with | .tacc n _ => n | .mfc t => t | _ => 0))
    | none =>
      match s.barCauses f og.fx with
      | some (k, tv) => s.raiseGroup f og k tv
      | none => { s with cmds := s.cmds.filter fun c => !(c.uid == f.uid && c.op.isRead) }.takeEffect f
          { og with fx := og.fx.map (Fx.answered mine) }

/-- The group does not issue after all: the fibre waits as the state already says. -/
def State.withdraw (s : State) : State := s.endTurn

/-- A word of the group raises once its release is performed (R386): until then the fibre stands at the group's head, whose writes are
discarded. -/
def State.raiseAfter (s : State) (f : Fibre) (og : OpenGroup) (sc : Scope) (c : Cause) (tval : DWord) : State :=
  let n := s.run.nextOp
  let s := ((s.issuedTurn f.uid).dropReads f.uid).updFibre f.uid fun f => { f with since := none, sent := 0, head := og.head, rep := og.repeating }
  State.runOrdered f.uid [(n, .release sc), (n + 1, .raise c tval)] { s with run := { s.run with nextOp := n + 2 } }

/-! ### Words (R57, R85) -/

/-- What a word answers: its effects, a cause, a cause after a release, or that its group cannot issue yet. -/
inductive WordOut where
  | ok (fx : List Fx)
  | raise (c : Cause) (tval : DWord)
  | raiseAfter (sc : Scope) (c : Cause) (tval : DWord)
  | wait (s : State)

def OpenGroup.fresh (f : Fibre) : OpenGroup := { uid := f.uid, head := f.arch.pc, words := 0, fx := [], repeating := none, pin := none }
/-- The open group of a fibre; a new one if none is open. -/
def State.openGroup (s : State) (f : Fibre) : OpenGroup :=
  match s.run.group with
  | some g => if g.uid = f.uid then g else .fresh f
  | none => .fresh f

/-- The count of a `rep` word and the repetitions left, as the fibre now stands at it (R89, R91). -/
def Fibre.repetition (f : Fibre) (m : Plain) (n : RegIx) : Nat × Nat :=
  let count := if f.guard m.g then n.toNat + 1 else 1
  if f.arch.repc = 0 then (count, count) else (f.arch.repStart, f.arch.repc)
/-- The same for the fibre's next group, if `rep` leads it. -/
def Fibre.repAhead (f : Fibre) : Option (Nat × Nat) :=
  match f.groupWords.head?.map fun w => decode w none with
  | some (.ok (.rep m n _)) => some (f.repetition m n)
  | _ => none

/-- The fibre that issues. -/
def State.issuer (s : State) : Option Fibre := s.run.issuing.head?.bind s.fibre?

/-- A later word of the group is a BRANCH word whose guard reads true (R153). -/
def Fibre.voided (f : Fibre) (og : OpenGroup) (words : Nat) : Bool :=
  match f.ibuf with
  | none => false
  | some p =>
    p.number == og.head.toNat / 3 && ((groupFrom (p.words.drop (og.head.toNat % 3))).drop (og.words + words)).any fun w =>
      wordClass w == 17 && f.guard (wordGuard w)

/-- The first register of a list of operands beyond the allocation (R57). -/
def Fibre.beyond (f : Fibre) (os : List Opnd) : Option Nat :=
  (os.flatMap fun o => (List.range o.n).map fun j => f.abs o.r + j).find? fun r => decide (f.arch.regs.length ≤ r)

/-- A source register that holds an uncorrectable error (Table 23.4). -/
def Fibre.spoiled (f : Fibre) (os : List Opnd) : Option Nat :=
  (os.flatMap fun o => (List.range o.n).map fun j => f.abs o.r + j).find? fun r => f.badRegs.contains r

/-- The checks on the registers of a word: those it writes and those it reads (R57, destinations before sources, and Table 23.4). -/
def Fibre.regFault (f : Fibre) (ds rs : List Opnd) : Option (Cause × DWord) :=
  match f.beyond (ds ++ rs) with
  | some r => some (mkCause 1 0, BitVec.ofNat 64 r)
  | none => (f.spoiled rs).map fun r => (mkCause 10 3, BitVec.ofNat 64 r)

/-- The registers that are checked before a word's own meaning. A word that names an entry has the entry checked before its register block, so that of
its registers only the one that holds the entry comes first (R265). -/
def firstRegs (i : Instr) (pin : Option RegIx) : List Opnd × List Opnd :=
  match i with
  | .spawn .. | .spawnr .. | .watch .. => ([], (i.reads pin).drop 1)
  | i => (i.dsts, i.reads pin)

/-- The checks on the registers of a word, then its own meaning. -/
def wordOut (i : Instr) (body : Fibre → OpenGroup → WordOut) (f : Fibre) (og : OpenGroup) : WordOut :=
  match f.regFault (firstRegs i og.pin).1 (firstRegs i og.pin).2 with
  | some (c, tv) => .raise c tv
  | none => body f og

/-- Issue a word of the issuing fibre: nothing if its guard reads false or it is a void branch; else what its body says. The last
word of the group makes the group take effect. -/
def State.issueWord (s : State) (i : Instr) (g : GuardBits) (chains : Bool) (words : Nat) (branch : Bool)
    (body : Fibre → OpenGroup → WordOut) : Host.Outcome State Fault Refusal :=
  match s.issuer with
  | none => .fault .noFibre
  | some f =>
    let og := s.openGroup f
    let out := if !f.guard g || (branch && f.voided og words) then .ok [] else wordOut i body f og
    match out with
    | .ok fx =>
      let og := { og with words := og.words + words, fx := og.fx ++ fx, pin := none }
      if chains then .next { s with run := { s.run with group := some og } } else .next (s.commit f og)
    | .raise c tv => .next (s.groupRaise f og c tv)
    | .raiseAfter sc c tv => .next (s.raiseAfter f og sc c tv)
    | .wait s' => .next s'.withdraw

/-- A word with a LIT word or without. -/
def State.word {α : Type} (s : State) (i : Instr) (m : Mods α) (body : Fibre → OpenGroup → WordOut) : Host.Outcome State Fault Refusal :=
  s.issueWord i m.g m.chains m.words false body
/-- A word that takes no LIT word. -/
def State.plain (s : State) (i : Instr) (m : Plain) (body : Fibre → OpenGroup → WordOut) : Host.Outcome State Fault Refusal :=
  s.issueWord i m.g m.c 1 false body

end Sys2Proof.Machine
end

