-- ==== Sys2Proof/Machine/Census.lean ====
section
/-! DEFINITION. The census: the words of a fibre's next group as they will issue, when a fibre is ready, its key and its age, and the
choice of unit and key in a decision (R40, R61, R63 to R69, R90, R164, R215, R300, R308, R318, R352, R437). -/

namespace Sys2Proof

/-! ### The LIT fields of engine words (R325) -/

/-- The stash offset 8 × soff of a LIT word. -/
def LitEng.off (l : LitEng) : Nat := 8 * l.soff.toNat
/-- The barrier that the word names, its flue and its stash offset. -/
def Mods.barrier (m : Mods LitEng) : Option Nat := let l := m.body .dflt; if l.bv then some l.bar.toNat else none
def Mods.flue (m : Mods LitEng) : Nat := (m.body .dflt).flue.toNat
def Mods.soffset (m : Mods LitEng) : Nat := (m.body .dflt).off

/-- The flue that a word names. -/
def Instr.flueOf (i : Instr) : Nat :=
  match i with
  | .cpyStash m _ | .cpyTile m _ _ | .cpyl m _ _ _ | .cpylSt m _ _ _ | .cpylGg m _ _ _ | .cpym m _ _ _ => m.flue
  | _ => 0

end Sys2Proof

namespace Sys2Proof.Machine

/-! ### The words of the next group -/

/-- Count of a `rep` and what remains before the next repetition (R90). -/
def Fibre.repState (f : Fibre) (w : Word) : Nat × Nat :=
  if f.arch.repc = 0 then
    let n := if f.guard (wordGuard w) then (Raw.ofWord w).d.toNat + 1 else 1
    (n, n)
  else (f.arch.repStart, f.arch.repc)

/-- The instruction at place k of a group, its fields stepped under `rep`, with the unstepped field D. -/
def instrAt (ws : List Word) (rep : Option (Nat × Nat)) (k : Nat) : Option (Instr × Option RegIx) :=
  match ws[k]? with
  | none => none
  | some w =>
    match decode w ws[k + 1]? with
    | .error _ => none
    | .ok x =>
      match rep with
      | none => some (x, none)
      | some (n, r) =>
        some (stepInstr w (litOf w ws[k + 1]?) ((Raw.ofWord (ws.headD 0)).a.extractLsb' 0 3) ((n : Int) - r) x, some (Raw.ofWord w).d)

/-- A word of a group with what its guard reads and its unstepped field D. -/
structure GroupWord where
  instr : Instr
  pin : Option RegIx
  cls : Nat
  op : Nat
  guarded : Bool
  deriving DecidableEq, Repr

/-- The instruction words of a fibre's next group, `rep` itself apart. -/
def Fibre.groupInstrs (f : Fibre) : List GroupWord :=
  let ws := f.groupWords
  let isRep := (ws.head?.map wordClass) == some 30
  let rep := if isRep then some (f.repState (ws.headD 0)) else none
  ws.zipIdx.filterMap fun (w, k) =>
    if 30 ≤ wordClass w then none
    else (instrAt ws rep k).map fun x => ⟨x.1, x.2, wordClass w, (Raw.ofWord w).o.toNat, f.guard (wordGuard w)⟩

/-! ### Engine words: the command that a word issues (Table 18.1) -/

/-- The stash offset of `tld` and `tst` (R326). -/
def Fibre.tileOff (f : Fibre) (a : RegIx) (m : Mods LitEng) : Nat := ((f.V a).toNat + (m.body .dflt).off) % 2 ^ 32
/-- The coordinates of a `cpy` block. -/
def Fibre.coords (f : Fibre) (a : RegIx) : List Word := (f.run a 6).drop 1

/-- The command of an engine word, its operands read; `tgat` makes its command when its rendezvous completes. -/
def Fibre.engOp (f : Fibre) (i : Instr) : Option EngOp :=
  match i with
  | .mtc _ t a => some (.mtc t.toNat (f.V a))
  | .mfc _ _ t => some (.mfc t.toNat)
  | .tzeroTile _ t => some (.tzeroTile t.toNat)
  | .tzeroAcc _ n => some (.tzeroAcc n.toNat)
  | .tldTile m t a => some (.tldTile t.toNat (f.tileOff a m))
  | .tldAcc m n a => some (.tldAcc n.toNat (f.tileOff a m))
  | .tstTile m t a => some (.tstTile t.toNat (f.tileOff a m))
  | .tstAcc m n a => some (.tstAcc n.toNat (f.tileOff a m))
  | .tmma m => some (.tmma m.soffset)
  | .tbmp _ t => some (.tbmp t.toNat)
  | .tcvt _ t s b => some (.tcvt t.toNat s.toNat (f.V b) (f.V (b + 1)))
  | .tacc _ _ n b => some (.tacc n.toNat (f.V b).toNat)
  | .tstatTile _ _ => some .tstatTile
  | .tstatBarrier _ _ n => some (.tstatBarrier n.toNat)
  | .cpyStash m a => some (.cpyStash m.soffset (f.V a) (f.coords a))
  | .cpyTile _ t a => some (.cpyTile t.toNat (f.V a) (f.coords a))
  | .cpyl m sp a b => some (.cpyl m.soffset (f.addr sp a 0) (f.V b).toNat)
  | .cpylSt m sp a b => some (.cpylSt m.soffset (f.addr sp a 0) (f.V b).toNat)
  | .cpylGg _ sp a b => some (.cpylGg (f.addr sp a 0) (f.addr 0 (a + 2) 0) (f.V b).toNat)
  | .cpym m sp a b => some (.cpym m.soffset (f.addr sp a 0) (f.V b).toNat)
  | .coll _ a => some (.coll (f.addr 0 a 0) (f.addr 0 (a + 2) 0) (f.V (a + 4)).toNat (f.V (a + 5)))
  | _ => none

/-- What a member's `tgat` asks room for: a place of the queue, and its own row's entry. -/
def Fibre.gathers (f : Fibre) (t : BitVec 4) (a b : RegIx) : EngOp :=
  .tgat t.toNat (f.V b).toNat [⟨(f.V b).toNat + f.vlane, f.addr 0 a 0, f.uid, 0, 0⟩]
/-- What an engine word asks room for. -/
def Fibre.roomOp (f : Fibre) (i : Instr) : Option EngOp := match i with | .tgat _ t a b => some (f.gathers t a b) | i => f.engOp i

/-- A command finds its place in its queue and its entries in the range-lock table, behind the commands of its own group. A `tgat` that other
members of the crew have presented holds its place already, and one that the crew executes its entries too (R74, R318, R323). -/
def State.engRoom (s : State) (f : Fibre) (op : EngOp) (flue : Nat) (before : List (EngOp × Nat)) : Bool :=
  let h := s.hearthOf f
  let opened := op.isGat && (((s.cohortOf f).crew? f.crew).map fun w => w.rdvs.any (·.tag == 256)).getD false
  let running := op.isGat && (s.crewGather f).isSome
  let same (x : EngOp × Nat) : Bool := (x.1.isTile && op.isTile) || (x.1.isFlue && op.isFlue && x.2 == flue)
  let need (o : EngOp) : Nat := (s.locksOf (s.cohortOf f) 0 o).length
  running || ((opened || s.queueRoom h op flue (before.filter same).length)
    && (need op == 0 || s.locksFree h (before.map fun x => need x.1).sum (need op)))

/-! ### Ready fibres (R61, Table 3.8) -/

/-- The counters that a word raises (Table 9.4): ld, st, cp, tl. A `chkh` that keeps its value raises none; behind another word of its
group, which may make its entry invalid, it counts as one that loads. -/
def State.counts (s : State) (f : Fibre) (first : Bool) (w : GroupWord) : Nat × Nat × Nat × Nat :=
  if !w.guarded then (0, 0, 0, 0)
  else match w.instr with
    | .chkh m d a =>
      let l := m.body .dflt
      if first && s.hoistValid f (f.abs d) (f.addr l.space a l.off.toInt) (l.ty.bits / 8) then (0, 0, 0, 0) else (1, 0, 0, 0)
    | .ld .. | .ldh .. | .atomAdd .. | .atomMin .. | .atomMax .. | .atomAnd .. | .atomOr .. | .atomXor .. | .atomXch ..
    | .atomCas .. | .atomIncw .. | .atomDecw .. | .atomFadd .. => (1, 0, 0, 0)
    | .st .. => (0, 1, 0, 0)
    | .tgat .. => (0, 0, 0, 1)
    | i => match f.engOp i with
      | some op => if op.inCp then (0, 0, 1, 0) else (0, 0, 0, 1)
      | none => (0, 0, 0, 0)

/-- A word's own counter wait: `waitc`'s limits (R164), `jwait`'s counters (R279). -/
def Fibre.countersOk (f : Fibre) (w : GroupWord) : Bool :=
  !w.guarded || match w.instr with
    | .waitc m =>
      let l := m.body .dflt
      decide (f.ld ≤ l.ld.toNat) && decide (f.st ≤ l.st.toNat) && decide (f.cp ≤ l.cp.toNat) && decide (f.tl ≤ l.tl.toNat)
    | .jwait _ _ => f.ld == 0 && f.st == 0 && f.cp == 0 && f.tl == 0
    | _ => true

/-- A pending acquire holds the words that reach memory, the stash, tiles, copies, spawns and recovery (R215, R386). -/
def GroupWord.acqHeld (w : GroupWord) : Bool :=
  (decide (10 ≤ w.cls) && decide (w.cls ≤ 13)) || (decide (19 ≤ w.cls) && decide (w.cls ≤ 23))
    || (w.cls == 24 && (w.op == 2 || w.op == 3 || w.op == 5))

/-- Nothing that the word reads or writes is still to be written (R61, R437). -/
def Fibre.operandsOk (f : Fibre) (w : GroupWord) : Bool :=
  let regs := ((w.instr.dsts ++ w.instr.reads w.pin).flatMap fun o => (List.range o.n).map fun j => f.abs o.r + j)
    ++ (match w.instr with
      | .call m _ => [f.arch.wbase + 8 * (m.body .dflt).slide.toNat - 1]
      | .ret _ => [f.arch.wbase - 1]
      | .spawnr _ _ a _ | .watch _ _ a _ | .spawn _ _ a _ => [f.abs a, f.abs (a + 1)]
      | _ => [])
  let preds := (w.instr.predDsts ++ w.instr.predSrcs).map (·.toNat) ++ (match w.instr with | .movs _ _ n | .movw _ n _ => (if n = 25 then List.range 7 else []) | _ => [])
  f.pend.all fun p => regs.all (fun r => !p.regs.contains r) && preds.all fun q => !p.preds.contains q

/-- The guard predicates of a group are there. A group that fails its checks has no guards and no sources to wait for (R105, log 98). -/
def Fibre.guardsOk (f : Fibre) : Bool :=
  (f.groupWords.filter fun w => wordClass w != 31).all fun w =>
    let q := ((wordGuard w).extractLsb' 0 3).toNat
    f.pend.all fun p => !p.preds.contains q

/-- A wait that is over: a `sleep` whose time has come (R162). -/
def State.waitOver (s : State) (f : Fibre) (w : Wait) : Bool :=
  match w with
  | .sleep t => decide (t ≤ s.ltimeAt (dieOfHearth (s.hearthOf f)))
  | _ => false

/-- The engine words of a group find room, in word order (R300, R308, R318); those that a read has issued already apart. -/
def State.groupRoom (s : State) (f : Fibre) (l : List GroupWord) : Bool :=
  let all := (l.filter (·.guarded)).filterMap fun w => (f.roomOp w.instr).map fun op => (op, w.instr.flueOf)
  let ops := (all.foldl (fun (a : Nat × List (EngOp × Nat)) x => if a.1 ≠ 0 && !x.1.isRead && !x.1.isGat then (a.1 - 1, a.2) else (a.1, a.2 ++ [x])) (f.sent, [])).2
  (List.range ops.length).all fun k => match ops[k]? with
    | some x => s.engRoom f x.1 x.2 (ops.take k)
    | none => true

/-- The iterative pipes of the fibre's lane that its group needs are free (R151, R191). -/
def State.pipesFree (s : State) (f : Fibre) (l : List GroupWord) : Bool :=
  l.all fun w => !pipeClass w.cls || !(s.hearth (s.hearthOf f)).pipes.contains (s.grateOf f, f.plane, w.cls)

/-- A load of the group overlaps a store of its fibre that is not yet acknowledged (R201): operand wait. -/
def State.ownStore (s : State) (f : Fibre) (w : GroupWord) : Bool :=
  let meets (l : LitMem) (a : RegIx) : Bool :=
    let v := vaOf (f.addr l.space a l.off.toInt)
    s.ops.any fun o => o.uid == f.uid && o.req.kind == .store && decide (vaOf o.req.addr < v + l.ty.bits / 8)
      && decide (v < vaOf o.req.addr + o.req.size)
  w.guarded && match w.instr with
    | .ld m _ a | .ldh m _ a => meets (m.body .dflt) a
    | .chkh m d a =>
      let l := m.body .dflt
      !s.hoistValid f (f.abs d) (f.addr l.space a l.off.toInt) (l.ty.bits / 8) && meets l a
    | _ => false

/-- A fibre is ready: it offers the key of its next group. -/
def State.ready (s : State) (f : Fibre) : Bool :=
  let co := s.cohortOf f
  let die := s.die (dieOfHearth co.hearth)
  !f.exited && co.run == .running && !co.held && !die.hot && !die.resetting && !(s.hearth co.hearth).retention && f.order.isNone && f.deferred.isEmpty && f.held.isNone
    && f.waits.all (s.waitOver f) && !s.flushing f.uid && !f.groupWords.isEmpty
    && match groupFault (f.arch.pc.toNat % 3) (f.arch.repc == 0) f.groupWords with
      | some _ => true
      | none =>
        let l := f.groupInstrs
        let t := l.zipIdx.foldl (fun (t : Nat × Nat × Nat × Nat) (w : GroupWord × Nat) =>
          let c := s.counts f (w.2 == 0) w.1; (t.1 + c.1, t.2.1 + c.2.1, t.2.2.1 + c.2.2.1, t.2.2.2 + c.2.2.2)) (0, 0, 0, 0)
        f.guardsOk && l.all f.operandsOk && (l.all fun w => !s.ownStore f w) && l.all f.countersOk && (f.acq.isNone || l.all fun w => !w.acqHeld)
          && (t.1 == 0 || decide (f.ld + t.1 ≤ 63)) && (t.2.1 == 0 || decide (f.st + t.2.1 ≤ 63))
          && (t.2.2.1 == 0 || decide (f.cp + t.2.2.1 ≤ 63)) && (t.2.2.2 == 0 || decide (f.tl + t.2.2.2 - f.sent ≤ 63))
          && s.groupRoom f l && s.pipesFree f l

/-- After an event, fibres that have become ready take their age, the front cycle of their hearth as it stands, and those that are not lose it
(R68; DESIGN CHOICE, log 98). -/
def State.stampReady (s : State) : State :=
  { s with fibres := s.fibres.map fun f =>
      if s.ready f then (if f.since.isSome then f else { f with since := some (s.hearth (s.hearthOf f)).cycle })
      else { f with since := none } }

/-! ### Units and keys (R63, R67 to R69) -/

/-- Fibres before others of equal age: crew, then vlane (R68). Fibres of two cohorts of one unit that agree in both go by the age of the
cohort (DESIGN CHOICE, log 98). -/
def fibreBefore (f g : Fibre) : Bool :=
  decide (f.crew < g.crew) || (f.crew == g.crew && (decide (f.vlane < g.vlane) || (f.vlane == g.vlane && decide (f.cohort < g.cohort))))

/-- Insert a fibre into a list in the order of crews and vlanes. -/
def insertFibre (f : Fibre) : List Fibre → List Fibre
  | [] => [f]
  | g :: l => if fibreBefore f g then f :: g :: l else g :: insertFibre f l
def sortFibres (l : List Fibre) : List Fibre := l.foldr insertFibre []

def State.unitFibres (s : State) (u : IssueUnit) : List Fibre :=
  sortFibres (s.fibres.filter fun f => u.crews.contains (f.cohort, f.crew) && !f.exited)
def State.unitReady (s : State) (u : IssueUnit) : List Fibre := (s.unitFibres u).filter s.ready

/-- The starve limit that a unit follows: the least among the launches of its crews, so that no fibre waits beyond its own launch's bound
(R62, R68, log 50). -/
def State.starveLimit (s : State) (u : IssueUnit) : Nat :=
  match u.crews.filterMap fun c => (s.cohort? c.1).map fun co => (s.slot co.slot).record.starve with
  | [] => 8
  | f :: fs => fs.foldl min f

def IssueUnit.count (u : IssueUnit) (k : List Nat) : Nat := ((u.starve.find? (·.1 == k)).map (·.2)).getD 0

/-- The first fibre by age, then by crew and vlane. -/
def oldest : List Fibre → Option Fibre
  | [] => none
  | f :: l => match oldest l with
    | none => some f
    | some g => if (f.since.getD 0) ≤ (g.since.getD 0) then some f else some g

/-- The better of two keys by a score, ties to the key whose oldest holder is oldest (R68). -/
def betterKey (holders : List Nat → List Fibre) (score : List Nat → Nat) (a b : List Nat) : List Nat :=
  if score a < score b then b
  else if score b < score a then a
  else match oldest (holders a), oldest (holders b) with
    | some f, some g =>
      if f.since.getD 0 < g.since.getD 0 then a
      else if g.since.getD 0 < f.since.getD 0 then b
      else if fibreBefore f g then a else b
    | _, _ => a

/-- The key that a decision chooses among the ready fibres considered, none if there are none. Where every key present is demoted, the
choice is by plurality among all of them (DESIGN CHOICE, log 98). -/
def IssueUnit.choose (u : IssueUnit) (limit : Nat) (cand : List Fibre) (demoted : List (List Nat)) : Option (List Nat) :=
  let keys := (cand.map fun f => keyOf f.groupWords).eraseDups
  let holders (k : List Nat) : List Fibre := cand.filter fun f => keyOf f.groupWords == k
  let forced := keys.filter fun k => decide (limit < u.count k)
  let free := keys.filter fun k => !demoted.contains k
  let pick (l : List (List Nat)) (score : List Nat → Nat) : Option (List Nat) :=
    match l with
    | [] => none
    | k :: t => some (t.foldl (betterKey holders score) k)
  if forced ≠ [] then pick forced u.count
  else pick (if free = [] then keys else free) fun k => (holders k).length

/-- Starve counts after a decision: 0 for the chosen key and for keys not present at it, one more for the others (R67). A key that stops
being present between two decisions and is present again at the next keeps its count (DESIGN CHOICE, log 98). -/
def IssueUnit.passed (u : IssueUnit) (present : List (List Nat)) (chosen : List Nat) : IssueUnit :=
  { u with starve := (present.filter (· != chosen)).map fun k => (k, u.count k + 1) }

/-- A decision of a unit: the chosen fibres issue, in ascending crew and vlane; demotions end with it (R66, R69). `past`: the fibres that
issued in the first decision of a lane clock, which the second passes over (R64). A demotion by a fibre whose next group is not yet
fetched names no key and ends with the decision all the same (DESIGN CHOICE, log 98). What a paired unit has issued issues again in its next slot, as the
shadow (R416). -/
def State.census (s : State) (u : IssueUnit) (past : List Nat) : State :=
  let all := s.unitReady u
  let cand := all.filter fun f => !past.contains f.uid
  let members := (s.unitFibres u).map (·.uid)
  let demoted := ((s.unitFibres u).filter (·.demoted)).map fun f => keyOf f.groupWords
  match u.choose (s.starveLimit u) cand demoted with
  | none => s
  | some k =>
    let chosen := cand.filter fun f => keyOf f.groupWords == k
    { s with
      units := s.units.map fun v => if v = u then { v.passed ((all.map fun f => keyOf f.groupWords).eraseDups) k with shadow := u.paired } else v
      fibres := s.fibres.map fun f =>
        if members.contains f.uid then { f with demoted := false } else f
      run := { s.run with issuing := chosen.map (·.uid), decision := some ⟨u.hearth, u.grate, u.slot, []⟩ } }

/-- The unit that round robin serves: the first slot at or after the pointer that holds a ready unit, or one whose shadow issue is due (R63, R416). -/
def State.nextUnit (s : State) (hearth grate : Nat) : Option IssueUnit :=
  let p := (s.hearth hearth).pointers.getD grate 0
  (List.range 16).findSome? fun i =>
    s.units.find? fun u => u.hearth == hearth && u.grate == grate && u.slot == (p + i) % 16 && (u.shadow || !(s.unitReady u).isEmpty)

def Hearth.clock (h : Hearth) (grate : Nat) : GrateClock := (h.clocks.find? (·.grate == grate)).getD ⟨grate, 0, [], []⟩
def Hearth.setClock (h : Hearth) (c : GrateClock) : Hearth := { h with clocks := c :: h.clocks.filter fun d => d.grate != c.grate }

/-- A decision slot of a unit: a shadow issue that is due takes the slot whole, and writes nothing (R416); else a decision. -/
def State.decide' (s : State) (u : IssueUnit) (past : List Nat) : State :=
  if u.shadow then { s with units := s.units.map fun v => if v = u then { v with shadow := false } else v } else s.census u past

/-- Serve a unit: the pointer moves past its slot, and the grate keeps what the slot served. -/
def State.serve (s : State) (u : IssueUnit) : State :=
  (s.updHearth u.hearth fun h => { h with pointers := h.pointers.set u.grate ((u.slot + 1) % 16) }.setClock ⟨u.grate, h.cycle, u.crews, []⟩).decide' u []

/-- Lane-clock time, lease time and the front cycles of a hearth go on to its next slot of a grate (log 3): within one front cycle the
grates are served in ascending order (R243), so that a grate not above the last one served stands in a later cycle. -/
def State.elapse (s : State) (hearth grate : Nat) : State :=
  let again := decide (grate < (s.hearth hearth).served)
  let n := Config.elapsedCycles s.run.tick
  let s : State := { s with ltime := s.ltime + Config.elapsedNs s.run.tick, dies := s.dies.map fun (d : Die) => { d with clock := d.clock + n } }
  s.updHearth hearth fun h => { h with cycle := h.cycle + Config.choice s.run.tick 30 hearth + again.toNat, served := grate + 1 }

/-- One decision slot of a grate (R63, R64). At 3.4 GHz a lane clock has two front cycles: the unit chosen in the first, merged or not since,
receives the second decision too. -/
def State.slotOfGrate (s : State) (hearth grate : Nat) : State :=
  let h := s.hearth hearth
  let c := h.clock grate
  if h.front = 1 ∧ h.cycle % 2 = 1 ∧ c.cycle + 1 = h.cycle ∧ c.crews ≠ [] then
    match s.units.find? fun u => u.hearth == hearth && u.grate == grate && u.crews.any c.crews.contains with
    | some u => s.decide' u c.issued
    | none => s
  else match s.nextUnit hearth grate with
    | some u => s.serve u
    | none => s

end Sys2Proof.Machine
end

