-- ==== Sys2Proof/Machine/Control.lean ====
section
/-! DEFINITION. The meanings of the control words: classes BRANCH and FLOW, and the prefix `rep` (R89 to R91, R153 to R172). -/

namespace Sys2Proof.Machine

/-! ### BRANCH (R153 to R158) -/

/-- The PC of the word now issuing. -/
def OpenGroup.here (og : OpenGroup) : Word := og.head + BitVec.ofNat 32 og.words
/-- The PC of the group that follows: head plus group length (R82). -/
def Fibre.nextPc (f : Fibre) (og : OpenGroup) : Nat := og.head.toNat + f.groupWords.length

/-- The target of an 18-bit offset from a word's own PC (R154). -/
def branchTarget (pc : Word) (off : BitVec 18) : Int := pc.toNat + off.toInt
/-- A transfer to a target, or cause 9.04 outside the PCs. -/
def toTarget (t : Int) (k : Word → WordOut) : WordOut :=
  if t < 0 ∨ 2 ^ 32 ≤ t then .raise (mkCause 9 4) (BitVec.ofInt 64 t) else k (BitVec.ofInt 32 t)

def execBr (m : Plain) (off : BitVec 18) (s : State) : Host.Outcome State Fault Refusal :=
  s.issueWord (.br m off) m.g m.c 1 true fun _ og => toTarget (branchTarget og.here off) fun t => .ok [.jump t]

/-- `call` (R155): the link in the last register that the slide hides. -/
def execCall (m : Mods LitCall) (off : BitVec 18) (s : State) : Host.Outcome State Fault Refusal :=
  s.issueWord (.call m off) m.g m.chains m.words true fun f og =>
    let k := (m.body .dflt).slide
    let wb := f.arch.wbase + 8 * k.toNat
    let ret := f.nextPc og
    if f.arch.regs.length < wb + 8 then .raise (mkCause 1 5) (BitVec.ofNat 64 wb)
    else if 2 ^ 27 ≤ ret then .raise (mkCause 9 2) (BitVec.ofNat 64 ret)
    else toTarget (branchTarget og.here off) fun t => .ok [.call wb (wb - 1) (k ++ BitVec.ofNat 27 ret) t]

/-- `ret` (R156): the link from the register below the window. -/
def execRet (m : Plain) (s : State) : Host.Outcome State Fault Refusal :=
  s.issueWord (.ret m) m.g m.c 1 true fun f _ =>
    let wb := f.arch.wbase
    let l : Word := f.arch.regs.getD (wb - 1) 0
    let k := (l.extractLsb' 27 5).toNat
    if wb = 0 then .raise (mkCause 9 3) 0
    else if f.badRegs.contains (wb - 1) then .raise (mkCause 10 3) (BitVec.ofNat 64 (wb - 1))
    else if k = 0 ∨ wb < 8 * k then .raise (mkCause 9 3) (l.setWidth 64)
    else .ok [.ret (wb - 8 * k) ((l.extractLsb' 0 27).setWidth 32)]

/-- Read n bytes of the code space for a word, or answer why its group cannot go on (R157). -/
def State.readCode (s : State) (f : Fibre) (og : OpenGroup) (addr n : Nat) (k : Nat → WordOut) : WordOut :=
  match s.codeAt f og.head addr n with
  | .found pa => k (leNat (s.codeBytes (s.slotOf f) pa n))
  | .fault c tv => .raise c tv
  | .miss => .wait (s.missWait f 2 ⟨0, BitVec.ofNat 64 addr⟩)

/-- `jt` (R157, R158): through the directory entry of the table and the table. -/
def execJt (m : Plain) (t a : RegIx) (s : State) : Host.Outcome State Fault Refusal :=
  s.issueWord (.jt m t a) m.g m.c 1 true fun f og =>
    let base := (s.slotOf f).record.codeBase
    s.readCode f og (base - 512 + 8 * t.toNat) 8 fun e =>
      let count := e % 2 ^ 13
      let off := e / 2 ^ 32
      let i := (f.V a).toNat
      if e / 2 ^ 13 % 2 ^ 19 ≠ 0 ∨ 4096 < count ∨ off % 4 ≠ 0 then .raise (mkCause 9 5) (t.setWidth 64)
      else if count = 0 then .raise (mkCause 9 0) (t.setWidth 64)
      else if count ≤ i then .raise (mkCause 9 1) (BitVec.ofNat 64 i)
      else s.readCode f og (base + off + 4 * i) 4 fun pc => .ok [.jump (BitVec.ofNat 32 pc)]

/-! ### FLOW (R159 to R164) -/

def execExit (m : Plain) (s : State) : Host.Outcome State Fault Refusal := s.plain (.exit m) m fun _ _ => .ok [.exit]
def execYield (m : Plain) (s : State) : Host.Outcome State Fault Refusal := s.plain (.yield m) m fun _ _ => .ok [.yield]
/-- `trap n` (R161): cause 9.(16 + n), %tval the PC of the group that follows. -/
def execTrap (m : Plain) (n : BitVec 4) (s : State) : Host.Outcome State Fault Refusal :=
  s.plain (.trap m n) m fun f og => .raise (mkCause 9 (16 + n.toNat)) (BitVec.ofNat 64 (f.nextPc og))
/-- `waitc` (R164): its limits hold when it issues, and it does nothing. -/
def execWaitc (m : Mods LitWaitc) (s : State) : Host.Outcome State Fault Refusal := s.word (.waitc m) m fun _ _ => .ok []
def execNop (m : Plain) (s : State) : Host.Outcome State Fault Refusal := s.plain (.nop m) m fun _ _ => .ok []
/-- `sleep` (R162): until %ltime reaches its value at issue plus ns. -/
def execSleep (m : Mods LitSleep) (s : State) : Host.Outcome State Fault Refusal :=
  s.word (.sleep m) m fun f _ =>
    let ns := (m.body .dflt).ns.toNat
    if ns = 0 then .ok [] else .ok [.sleep (s.ltimeAt (dieOfHearth (s.hearthOf f)) + ns)]

/-! ### Barriers (R165 to R171) -/

/-- The checks of a `bar` word on barrier n at a scope (R57, R170), then its effects; a device barrier's entry is allocated at the first
use, and the entries that earlier words of the group allocate count. -/
def State.barWord (s : State) (f : Fibre) (og : OpenGroup) (n : BitVec 5) (sc : Scope) (fx : List Fx) : WordOut :=
  let co := s.cohortOf f
  let tv : DWord := n.setWidth 64
  if co.decl.bars ≤ n.toNat then .raise (mkCause 1 1) tv
  else if sc = .dev then
    if !(s.slot co.slot).resident then .raise (mkCause 6 21) tv
    else match s.barCause f og.fx (.devBar n.toNat) with
      | some (c, tv) => .raise c tv
      | none => .ok (.devBar n.toNat :: fx)
  else .ok fx

/-- Arrive, as a release at the scope, then wait (R166, R168). -/
def execBar (m : Mods LitBar) (n : BitVec 5) (s : State) : Host.Outcome State Fault Refusal :=
  s.word (.bar m n) m fun f og =>
    let sc := (m.body .dflt).scope
    s.barWord f og n sc [.release sc, .barArrive n.toNat sc, .barWait n.toNat sc]
def execBarArrive (m : Mods LitBar) (n : BitVec 5) (s : State) : Host.Outcome State Fault Refusal :=
  s.word (.barArrive m n) m fun f og =>
    let sc := (m.body .dflt).scope
    s.barWord f og n sc [.release sc, .barArrive n.toNat sc]
def execBarWait (m : Mods LitBar) (n : BitVec 5) (s : State) : Host.Outcome State Fault Refusal :=
  s.word (.barWait m n) m fun f og =>
    let sc := (m.body .dflt).scope
    s.barWord f og n sc [.barWait n.toNat sc]
/-- `bar.expect` (R167): bytes join PEND, up to 2^31 − 1. -/
def execBarExpect (m : Mods LitBar) (n : BitVec 5) (a : RegIx) (s : State) : Host.Outcome State Fault Refusal :=
  s.word (.barExpect m n a) m fun f og =>
    let x : Fx := .barExpect n.toNat (f.V a)
    match (if n.toNat < (s.cohortOf f).decl.bars then s.barCause f og.fx x else none) with
    | some (c, tv) => .raise c tv
    | none => s.barWord f og n .coh [x]

/-! ### The prefix (R89 to R91) -/

/-- `rep` (R90): it opens the repetition, or goes on with the one that %repc holds. A guard that reads false makes it repeat once. It
takes effect with the words that follow it in its group. -/
def execRep (m : Plain) (n : RegIx) (_m2 : BitVec 3) (s : State) : Host.Outcome State Fault Refusal :=
  match s.issuer with
  | none => .fault .noFibre
  | some f =>
    let og := s.openGroup f
    .next { s with run := { s.run with group := some { og with words := og.words + 1, repeating := some (f.repetition m n) } } }

end Sys2Proof.Machine
end

