-- ==== Sys2Proof/Machine/CrossLane.lean ====
section
/-! DEFINITION. The meanings of the cross-lane and group words: classes XLANE and GROUP (R71 to R79, R250 to R258). Each presents what its
rendezvous needs; results are written when the rendezvous completes. -/

namespace Sys2Proof.Machine

/-- A word presents to the rendezvous of its tag (R71, R75); a register mask without the caller's own bit raises 8.01. -/
def presentOut (f : Fibre) (og : OpenGroup) (set : PSet) (tag : BitVec 8) (width : Width) (before : List Fx)
    (p : Presentation) : WordOut :=
  let mask : Word := match set with | .reg r => f.V r | _ => 0
  let own := match set with | .reg _ => mask.getLsbD f.vlane | _ => true
  if own then
    .ok (before ++ [.present tag.toNat { p with uid := f.uid, vlane := f.vlane, set := set, mask := mask, width := width.lanes, pc := og.head }])
  else .raise (mkCause 8 1) (mask.setWidth 64)

/-- A presentation with nothing in it but its kind. -/
def Presentation.of (kind : RdvKind) : Presentation :=
  { uid := 0, name := 0, vlane := 0, kind := kind, set := .all, mask := 0, width := 32, opnd := 0, pred := false, idx := 0, dst := 0,
    pdst := 7, addr := ⟨0, 0⟩, pc := 0, next := 0 }

/-! ### XLANE (R250, R251) -/

/-- A word of class 15, by its kind for a common index. -/
def State.xlWord (s : State) (i : Instr) (m : Mods LitXl) (d a b : RegIx) (kind : LitXl → Word → RdvKind) :
    Host.Outcome State Fault Refusal :=
  s.word i m fun f og =>
    let l := m.body .dflt
    presentOut f og l.set l.tag l.width []
      { Presentation.of (kind l (f.V b)) with
          opnd := f.raw a (if l.w64 then .b64 else .b32), idx := f.V b, dst := f.abs d, pdst := l.pdst }

def execShfl (m : Mods LitXl) (d a b : RegIx) (s : State) : Host.Outcome State Fault Refusal :=
  s.xlWord (.shfl m d a b) m d a b fun l _ => .shfl l.mode l.w64
def execBcst (m : Mods LitXl) (d a b : RegIx) (s : State) : Host.Outcome State Fault Refusal :=
  s.xlWord (.bcst m d a b) m d a b fun l i => .bcst l.w64 i

/-! ### GROUP (R252 to R258) -/

/-- A word of class 16. -/
def State.grpWord (s : State) (i : Instr) (m : Mods LitGrp) (before : List Fx) (p : LitGrp → Fibre → Presentation) :
    Host.Outcome State Fault Refusal :=
  s.word i m fun f og =>
    let l := m.body .dflt
    presentOut f og l.set l.tag l.width before (p l f)

def execVote (m : Mods LitGrp) (p q mode : BitVec 3) (s : State) : Host.Outcome State Fault Refusal :=
  s.grpWord (.vote m p q mode) m [] fun _ f => { Presentation.of (.vote mode) with pred := f.P q, pdst := p }
def execRedu (m : Mods LitGrp) (d a o : RegIx) (s : State) : Host.Outcome State Fault Refusal :=
  s.grpWord (.redu m d a o) m [] fun l f =>
    { Presentation.of (.redu o l.rnd l.den) with opnd := f.raw a (grpTy (o.extractLsb' 0 3)), dst := f.abs d }
def execScan (m : Mods LitGrp) (d a o : RegIx) (s : State) : Host.Outcome State Fault Refusal :=
  s.grpWord (.scan m d a o) m [] fun l f =>
    { Presentation.of (.scan o l.rnd l.den) with opnd := f.raw a (grpTy (o.extractLsb' 0 3)), dst := f.abs d }
def execMtch (m : Mods LitGrp) (d a : RegIx) (t : BitVec 3) (s : State) : Host.Outcome State Fault Refusal :=
  s.grpWord (.mtch m d a t) m [] fun _ f => { Presentation.of (.mtch t) with opnd := f.raw a (grpTy t), dst := f.abs d }
def execElect (m : Mods LitGrp) (p : BitVec 3) (s : State) : Host.Outcome State Fault Refusal :=
  s.grpWord (.elect m p) m [] fun _ _ => { Presentation.of .elect with pdst := p }
/-- `rdv` (R257): its presentation is a release at `.crw`. -/
def execRdv (m : Mods LitGrp) (d : RegIx) (s : State) : Host.Outcome State Fault Refusal :=
  s.grpWord (.rdv m d) m [.release .crw] fun _ f => { Presentation.of .rdv with dst := f.abs d }
/-- `jarr` (R258): the caller's bit, with no rendezvous. -/
def execJarr (m : Plain) (j : BitVec 2) (s : State) : Host.Outcome State Fault Refusal := s.plain (.jarr m j) m fun _ _ => .ok [.jarr j]
def execJmsk (m : Mods LitGrp) (j : BitVec 2) (a : RegIx) (s : State) : Host.Outcome State Fault Refusal :=
  s.grpWord (.jmsk m j a) m [] fun _ f => Presentation.of (.jmsk j (f.V a))

end Sys2Proof.Machine
end

