-- ==== Sys2Proof/Machine/Units.lean ====
section
/-! DEFINITION. Issue units and placement: what a cohort needs, where it fits beside the residents, its fibres at the start, the
placement of a grid, regrouping, and the end of a cohort (R39, R42 to R47, R50 to R54, R58 to R60, R283, R427, R428). -/

namespace Sys2Proof.Machine

/-! ### What a cohort needs (R54, R428) -/

/-- Crews on each grate, registers per lane of each crew, the declared resources, the damper charges. -/
structure Need where
  grates : List Nat
  regs : Nat
  lines : Nat
  tiles : Nat
  accs : Nat
  bars : Nat
  energy : Nat
  current : Nat
  deriving DecidableEq, Repr

/-- The charges of crews without declared figures (R428): nJ and mA. -/
def undeclared (crews : Nat) (tiles : Bool) : Nat × Nat :=
  (4600 * crews + if tiles then 30000 else 0, 700 * crews + if tiles then 4500 else 0)

/-- Charges of a launched cohort: the declared figures where they are not 0 (R49). -/
def LaunchRec.charge (r : LaunchRec) (crews : Nat) : Nat × Nat :=
  let u := undeclared crews (r.decl.tiles != 0)
  (if r.energy = 0 then u.1 else r.energy, if r.current = 0 then u.2 else r.current)

/-- The extents of the grid's levels on this device, innermost first, with their domains: a peer level counts one element (R51). -/
def LaunchRec.here (r : LaunchRec) : List (Nat × Nat) := r.levels.map fun l => (if l.2.1 = 8 then 1 else l.1, l.2.1)
def product (l : List Nat) : Nat := l.foldl (· * ·) 1
/-- Fibres of a cohort (R53). -/
def LaunchRec.cohortSize (r : LaunchRec) : Nat :=
  if r.levels.any (·.2.1 == 2) then product ((r.levels.filter fun l => decide (l.2.1 < 2)).map (·.1)) else product (r.here.map (·.1))
/-- Cohorts of the launch on this device. -/
def LaunchRec.cohorts (r : LaunchRec) : Nat :=
  if r.levels.any (·.2.1 == 2) then product ((r.here.filter fun l => decide (2 ≤ l.2)).map (·.1)) else 1
/-- The extent of the crew-domain level, if there is one. -/
def LaunchRec.crewLevel (r : LaunchRec) : Option Nat := (r.levels.find? (·.2.1 == 1)).map (·.1)
/-- Crews of a cohort. -/
def LaunchRec.crews (r : LaunchRec) : Nat := r.crewLevel.getD (ceilDiv r.cohortSize 32)
/-- Fibre f of a cohort: its crew and vlane (R53). -/
def LaunchRec.seat (r : LaunchRec) (f : Nat) : Nat × Nat :=
  if r.crewLevel.isSome then
    let e := max 1 ((r.levels.head?.map (·.1)).getD 1)
    (f / e, f % e)
  else (f / 32, f % 32)

def LaunchRec.need (r : LaunchRec) : Need :=
  let k := r.crews
  { grates := (List.range 4).map fun g => ((List.range k).filter fun c => c % 4 == g).length
    regs := r.decl.regs, lines := r.decl.lines, tiles := r.decl.tiles, accs := r.decl.accs, bars := r.decl.bars
    energy := (r.charge k).1, current := (r.charge k).2 }

/-- n cohorts of the same need. -/
def Need.times (x : Need) (n : Nat) : Need :=
  { grates := x.grates.map (· * n), regs := x.regs, lines := x.lines * n, tiles := x.tiles * n, accs := x.accs * n, bars := x.bars * n,
    energy := x.energy * n, current := x.current * n }

/-! ### Fitting (R54, R283, R428) -/

/-- Cohorts resident on a hearth. -/
def State.resident (s : State) (hearth : Nat) : List Cohort :=
  s.cohorts.filter fun c => c.hearth == hearth && c.run != .suspended && c.crews != []

/-- Register-slot size of a unit: that of its crews. -/
def State.unitRegs (s : State) (u : IssueUnit) : Nat :=
  match u.crews.head? with
  | some x => (((s.cohort? x.1).bind (·.crew? x.2)).map (·.slotSize)).getD 0
  | none => 0
def State.grateUnits (s : State) (hearth grate : Nat) : List IssueUnit := s.units.filter fun u => u.hearth == hearth && u.grate == grate

/-- The launches that hold continuations. -/
def State.continued (s : State) : List Nat :=
  (s.joinWatches.map (·.slot) ++ (s.dies.flatMap fun d => (d.store.filter (·.kind == 2)).map (·.slot))
    ++ (s.slots.filter fun l => l.busy && l.spillRecs.any (·.kind == 2)).map (·.n)).eraseDups

/-- Whether a hearth takes cohorts at all: in service, its die up and not about to reset, no clock change awaited, not in retention. -/
def State.inService (s : State) (hearth : Nat) : Bool :=
  let h := s.hearth hearth
  decide (hearth < 192) && !h.fenced && h.frontReq.isNone && !h.retention && !(s.die (dieOfHearth hearth)).resetting
    && !s.awaitedDies.contains (dieOfHearth hearth)

/-- The need fits on a hearth beside its residents; launched cohorts leave the reserve of R283 whole. Crew slots and registers are counted by
issue units: a merge frees those of the unit that is absorbed (DESIGN CHOICE, log 98). -/
def State.fits (s : State) (hearth : Nat) (x : Need) (launched : Bool) : Bool :=
  let cs := s.resident hearth
  let keep := s.continued
  let hold := launched && !keep.isEmpty
  let slots (g : Nat) : Nat := (s.grateUnits hearth g).length + x.grates.getD g 0
  let regs (g : Nat) : Nat := ((s.grateUnits hearth g).map s.unitRegs).sum + x.grates.getD g 0 * x.regs
  let lines := if hold then (keep.map fun n => (s.slot n).record.decl.lines).foldl max 0 else 0
  let spare : Nat × Nat := if hold then undeclared 1 false else (0, 0)
  let b := (s.hearth hearth).budget
  s.inService hearth
    && (List.range 4).all (fun g => decide (slots g ≤ 16) && decide (regs g ≤ 1024))
    && (!hold || (List.range 4).any fun g => decide (slots g + 1 ≤ 16) && decide (regs g + 256 ≤ 1024))
    && decide ((cs.map fun c => c.decl.lines).sum + x.lines + lines ≤ 3072)
    && decide ((cs.map fun c => c.decl.tiles).sum + x.tiles ≤ 16)
    && decide ((cs.map fun c => c.decl.accs).sum + x.accs ≤ 8)
    && decide ((cs.map fun c => c.decl.bars).sum + x.bars ≤ 256)
    && decide ((cs.map (·.energy)).sum + x.energy + spare.1 ≤ b.1)
    && decide ((cs.map (·.current)).sum + x.current + spare.2 ≤ b.2)

/-- The crew slot and the registers of R283's reserve are still free on some grate of the hearth, while there are continuations. -/
def State.reserved (s : State) (hearth : Nat) : Bool :=
  s.continued.isEmpty || (List.range 4).any fun g =>
    decide ((s.grateUnits hearth g).length + 1 ≤ 16) && decide (((s.grateUnits hearth g).map s.unitRegs).sum + 256 ≤ 1024)

/-! ### Placing a grid (R52, R53) -/

/-- The unit of a domain or scope that a hearth lies in: 3 hearth, 4 quad, 5 die, 6 side, above: the device. -/
def unitOf (dom h : Nat) : Nat := match dom with | 3 => h | 4 => h / 4 | 5 => h / 48 | 6 => h / 96 | _ => 0
/-- The parts of a list of hearths that lie in one unit of a domain each. -/
def partsOf (dom : Nat) (hs : List Nat) : List (List Nat) :=
  ((hs.map (unitOf dom)).eraseDups).map fun u => hs.filter fun h => unitOf dom h == u

/-- Place what stands inside one element: `lv` gives the levels inside it, outermost first, as (extent, domain). A cohort takes the first
hearth where it fits beside those planned; an element the first unit of its domain that holds it whole, on hearths that hold no other element of
its level, where that is hearth or wider (R51). Answers the plan, a hearth for each cohort in ascending order. -/
def placeIn (ok : Nat → Nat → Bool) : List (Nat × Nat) → List Nat → List Nat → Option (List Nat)
  | [], hs, plan => (hs.find? fun h => ok h (plan.count h)).map fun h => plan ++ [h]
  | (e, dom) :: lv, hs, plan =>
    ((List.range e).foldl (fun (o : Option (List Nat × List Nat)) _ => o.bind fun x =>
      if dom ≤ 2 then (placeIn ok lv hs x.2).map fun plan => (x.1, plan)
      else (partsOf dom x.1).findSome? fun part => (placeIn ok lv part x.2).map fun plan =>
        (x.1.filter fun h => !(plan.drop x.2.length).contains h, plan)) (some (hs, plan))).map (·.2)

/-- The hearths in the order in which they are tried, which is free: from some hearth on. -/
def State.hearthOrder (s : State) : List Nat := (List.range 192).map fun i => (i + Config.choice s.run.tick 10 0) % 192

/-- The levels of cohorts and above, outermost first. -/
def LaunchRec.above (r : LaunchRec) : List (Nat × Nat) := (r.here.filter fun l => decide (2 ≤ l.2)).reverse

/-- The scope of the outermost level. -/
def LaunchRec.outerScope (r : LaunchRec) : Nat := ((r.levels.getLast?).map (·.2.2)).getD 0

/-- Where the whole grid fits one unit of the kind that its outermost scope names: fibre to device. -/
def State.placeWhole (s : State) (r : LaunchRec) : Option (List Nat) :=
  let ok (h n : Nat) : Bool := s.fits h (r.need.times (n + 1)) true
  let sc := r.outerScope
  if sc = 0 then (if r.cohorts * r.cohortSize = 1 then placeIn ok [] s.hearthOrder [] else none)
  else if sc = 1 then (if r.cohorts = 1 && r.crews == 1 then placeIn ok [] s.hearthOrder [] else none)
  else if sc = 2 then (if r.cohorts = 1 then placeIn ok [] s.hearthOrder [] else none)
  else if sc ≤ 7 then (partsOf sc s.hearthOrder).findSome? fun part => placeIn ok r.above part []
  else none

/-- Elements of the outermost level that this device places one by one, and what one of them holds (R52). -/
def LaunchRec.outer (r : LaunchRec) : Nat × List (Nat × Nat) :=
  match r.above with
  | [] => (1, [])
  | (e, dom) :: lv => (e, (1, dom) :: lv)
/-- Where the next element of the outermost level fits; `used`: the hearths of its other elements, which it does not share where the level is hearth
or wider (R51). -/
def State.placeNext (s : State) (r : LaunchRec) (used : List Nat) : Option (List Nat) :=
  let used := if (r.above.head?.map (·.2)).getD 0 ≤ 2 then [] else used
  placeIn (fun h n => s.fits h (r.need.times (n + 1)) true) r.outer.2 (s.hearthOrder.filter fun h => !used.contains h) []

/-- The device as it would stand with no cohort on it and nothing that passes by itself, a clock change awaited, retention, a die's reset,
for the checks of R52 and R55. -/
def State.vacant (s : State) : State :=
  { s with cohorts := [], units := [], joinWatches := [],
           dies := s.dies.map (fun (d : Die) => { d with store := [], resetting := false }),
           contexts := s.contexts.map (fun (c : Context) => { c with replaying := none }),
           hearths := s.hearths.map (fun (h : Hearth) => { h with frontReq := none, retention := false }),
           slots := s.slots.map (fun (l : LaunchSlot) => { l with spillRecs := [] }) }

/-- The whole grid fits one unit of the kind that its scope names, on the vacant device: it is then held resident at once (R52). -/
def State.fitsWhole (s : State) (r : LaunchRec) : Bool := (s.vacant.placeWhole r).isSome
/-- What is decided at LAUNCH is decided again for launches of which nothing is placed, where hearths have left service since. -/
def State.refit (s : State) : State :=
  { s with slots := s.slots.map fun (l : LaunchSlot) => if l.busy ∧ l.next = 0 then { l with resident := s.fitsWhole l.record } else l }

/-! ### The fibres of a cohort (R39, R42, R50, R53) -/

/-- The level indexes of fibre number n of the grid, level by level; unused levels read 0. -/
def levelIx : List Nat → Nat → List Word
  | [], _ => []
  | e :: es, n => BitVec.ofNat 32 (n % max 1 e) :: levelIx es (n / max 1 e)

def padTo (n : Nat) (x : Word) (l : List Word) : List Word := l ++ List.replicate (n - l.length) x

/-- A fibre as it stands before anything of its own is set: the values that every start shares (R39, R266). -/
def Fibre.blank (uid cohort crew vlane regs : Nat) (pc : Word) : Fibre :=
  { uid := uid, cohort := cohort, crew := crew, vlane := vlane, plane := vlane,
    arch := { pc := pc, pword := 0x80, wbase := 0, regs := List.replicate regs 0, spaces := [0, 0, 0, 0], repc := 0, repStart := 0,
              depth := 0, fflags := 0, frm := 0, gwct := 0, cause := 0, epc := 0, tval := 0, handler := false,
              levels := List.replicate 8 0, extents := List.replicate 8 1 },
    ld := 0, st := 0, cp := 0, tl := 0, join := ⟨0, 0⟩, rangeLen := 1, hoist := [], pend := [], waits := [], order := none,
    flushed := false, durable := false, acq := none, deferred := [], lastL2 := [], ibuf := none, head := pc, rep := none, stored := [],
    held := none, sent := 0, turn := (0, 0), since := none, demoted := false, exited := false, badRegs := [] }

/-- The k-th fibre of a launched cohort whose number over the grid is `number`. -/
def LaunchRec.fibre (r : LaunchRec) (uid cohort number k : Nat) : Fibre :=
  let seat := r.seat k
  let f := Fibre.blank uid cohort seat.1 seat.2 r.decl.regs r.entry
  let exts := r.levels.map (·.1)
  { f with arch := { f.arch with
      regs := (f.arch.regs.set 0 (r.arg.setWidth 32)).set 1 ((r.arg >>> 32).setWidth 32)
      levels := padTo 8 0 (levelIx exts (number * r.cohortSize + k)), extents := padTo 8 1 (exts.map (BitVec.ofNat 32)) } }

/-- A crew at its formation (R43, R44). -/
def Crew.fresh (n grate unit slotSize : Nat) : Crew :=
  { number := n, grate := grate, unit := unit, masks := [0, 0, 0, 0], slotSize := slotSize, rdvs := [], tgprog := 0 }

/-- The lowest free slot of a grate. -/
def State.freeUnit (s : State) (hearth grate : Nat) : Nat :=
  ((List.range 16).find? fun i => !(s.grateUnits hearth grate).any (·.slot == i)).getD 16

/-- Give a crew of a cohort a unit of its own on a grate. -/
def State.seatCrew (s : State) (hearth cohort crew grate : Nat) (paired : Bool) : State :=
  let i := s.freeUnit hearth grate
  let s := s.updCrew cohort crew fun w => { w with grate := grate, unit := i }
  { s with units := s.units ++ [{ hearth := hearth, grate := grate, slot := i, crews := [(cohort, crew)], starve := [], paired := paired, shadow := false }] }

/-- Admit one launched cohort to a hearth (R46): its resources cleared, all its crews at once, its fibres at their start. -/
def State.admitCohort (s : State) (slot number hearth : Nat) : State :=
  let r := (s.slot slot).record
  let uid := s.run.nextUid
  let co : Cohort :=
    { uid := uid, slot := slot, number := number, hearth := hearth, gathered := false, decl := r.decl,
      crews := (List.range r.crews).map (fun c => Crew.fresh c (c % 4) 0 r.decl.regs), stash := [],
      lines := (List.range r.decl.lines).map StashLine.region, bars := (List.range r.decl.bars).map Barrier.fresh,
      tiles := (List.range r.decl.tiles).map Tile.fresh, accs := (List.range r.decl.accs).map Accum.fresh, tileStatus := 0,
      wptr := [0, 0, 0, 0], flushed := 0, energy := (r.charge r.crews).1, current := (r.charge r.crews).2, metered := 0, held := false, run := .running }
  let s := { s with
    cohorts := s.cohorts ++ [co]
    fibres := s.fibres ++ (List.range r.cohortSize).map (fun k => r.fibre (uid + 1 + k) uid number k)
    run := { s.run with nextUid := uid + 1 + r.cohortSize } }
  (List.range r.crews).foldl (fun s c => s.seatCrew hearth uid c (c % 4) r.paired) s

/-- Admit the next cohorts of a launch by a plan, in ascending order. -/
def State.admitPlan (s : State) (slot : Nat) (plan : List Nat) : State :=
  plan.foldl (fun (s : State) h =>
    let l := s.slot slot
    let first := if l.record.levels.any (·.2.1 == 8) then l.record.rank * l.total else 0
    (s.admitCohort slot (first + l.next) h).updSlot slot fun l => { l with next := l.next + 1 }) s

/-- The placement that a launch waits for: the whole grid at once where it is to be resident, else its next outermost element (R52). -/
def State.nextPlan (s : State) (slot : Nat) : Option (List Nat) :=
  let l := s.slot slot
  if l.next = 0 && l.resident then s.placeWhole l.record else s.placeNext l.record ((s.cohorts.filter fun c => c.slot == slot && c.crews != [] && !c.gathered).map (·.hearth))

/-! ### Regrouping (R58 to R60) -/

def State.unitLive (s : State) (u : IssueUnit) : List Fibre := s.fibres.filter fun f => u.crews.contains (f.cohort, f.crew) && !f.exited
def State.unitSlot (s : State) (u : IssueUnit) : LaunchSlot :=
  match u.crews.head? with
  | some x => ((s.cohort? x.1).map fun c => s.slot c.slot).getD default
  | none => default

/-- Two units may merge (R58); the fibres of the second can move when none has a result in flight, a read of the tile engine included (R59, R327). -/
def State.mayMerge (s : State) (u v : IssueUnit) : Bool :=
  let a := s.unitSlot u
  let b := s.unitSlot v
  u.hearth == v.hearth && u.grate == v.grate && u.slot != v.slot && !u.paired && !v.paired
    && decide ((s.unitLive u).length ≤ 16) && decide ((s.unitLive v).length ≤ 16) && s.unitRegs u == s.unitRegs v && a.ctx == b.ctx
    && ((!a.record.conf && !b.record.conf) || a.n == b.n) && (s.unitLive v).all fun f => f.pend.isEmpty && f.held.isNone

/-- Fibres of the second unit take the lanes that the first leaves free, in order. -/
def State.moveTo (s : State) (u : IssueUnit) (fs : List Fibre) : State :=
  let free := (List.range 32).filter fun p => !(s.unitLive u).any (·.plane == p)
  (fs.zipIdx).foldl (fun (s : State) (x : Fibre × Nat) => s.updFibre x.1.uid fun f => { f with plane := free.getD x.2 0 }) s

/-- The starve counts of a merged unit: of each key the larger of the two counts, so that no fibre waits beyond R62's bound (DESIGN CHOICE,
log 98). -/
def IssueUnit.bothStarve (u v : IssueUnit) : List (List Nat × Nat) :=
  ((u.starve ++ v.starve).map (·.1)).eraseDups.map fun k => (k, max (u.count k) (v.count k))

def State.merge (s : State) (u v : IssueUnit) : State :=
  let s := s.moveTo u (s.unitLive v)
  let s := v.crews.foldl (fun (s : State) x => s.updCrew x.1 x.2 fun w => { w with unit := u.slot }) s
  { s with units := (s.units.filter (· != v)).map fun w => if w = u then { w with crews := w.crews ++ v.crews, starve := u.bothStarve v } else w }

/-- Between decisions the hardware may merge two units of a grate: whether it does is free. -/
def State.regroup (s : State) (hearth grate : Nat) : State :=
  let us := s.grateUnits hearth grate
  let pairs := us.flatMap fun u => (us.filter fun v => s.mayMerge u v).map fun v => (u, v)
  match pairs[Config.choice s.run.tick 11 0]? with
  | some (u, v) => s.merge u v
  | none => s

/-! ### The end of a cohort (R47) -/

/-- A cohort's last fibre has exited and every command is done, those included that a fibre's release or acquire still holds back; stash
words that its fibres have still to do come before its lines are freed. -/
def State.cohortOver (s : State) (c : Cohort) : Bool :=
  c.crews != [] && (s.liveOf c.uid).isEmpty && !s.cmds.any (·.cohort == c.uid)
    && !(s.fibres.any fun f => f.cohort == c.uid && (s.flushing f.uid || f.deferred.any fun x => x.2.isEngine || x.2.isStash))

/-- Its dirty mapped lines are written back; then its resources are freed. What is left of it names the launch of the decrements that
its fibres have still to send. -/
def State.endCohort (s : State) (c : Cohort) : State :=
  if !s.cohortOver c then s
  else if c.lines.any (·.dirty != 0) then
    match s.fibres.find? (·.cohort == c.uid) with
    | some f => s.writeBacks f.uid c.uid fun _ => true
    | none => s.updCohort c.uid fun c => { c with lines := [] }
  else
    let s := { s with units := (s.units.map fun (u : IssueUnit) => { u with crews := u.crews.filter fun x => x.1 != c.uid }).filter fun u => u.crews != [] }
    s.updCohort c.uid fun c =>
      { c with crews := [], decl := default, stash := [], lines := [], bars := [], tiles := [], accs := [], energy := 0, current := 0 }

/-- An ended cohort whose fibres have nothing left to do leaves the state. -/
def State.drained (s : State) (c : Cohort) : Bool :=
  c.crews == [] && s.fibres.all fun f => f.cohort != c.uid || (f.deferred.isEmpty && f.order.isNone && f.acq.isNone && !s.ops.any (·.uid == f.uid))
def State.drain (s : State) : State :=
  let gone := (s.cohorts.filter s.drained).map (·.uid)
  if gone = [] then s
  else { s with cohorts := s.cohorts.filter fun c => !gone.contains c.uid, fibres := s.fibres.filter fun f => !gone.contains f.cohort }.unsequence fun u =>
    s.fibres.any fun f => f.uid == u && gone.contains f.cohort

/-- What follows from what has just happened: join watches that have fired make their records, whole rendezvous complete, deadlocks raise, cohorts
end (R47, R74, R77, R169, R248, R281). -/
def State.settle (s : State) : State :=
  let s := State.fireAll (s.joinWatches.length + 1) s
  let s := s.cohorts.foldl (fun s c => c.crews.foldl (fun s w => s.crewComplete c.uid w.number) s) s
  let s := s.cohorts.foldl (fun s c => c.crews.foldl (fun s w => s.crewDeadlock c.uid w.number) s) s
  let s := s.cohorts.foldl (fun s c => (s.barDeadlock c.uid).stallDeadlock c.uid) s
  (s.cohorts.foldl State.endCohort s).drain

/-- The metered energy of cohorts: how much a cohort uses is free; one that reaches its charge is held (R429). -/
def State.meterCohorts (s : State) (cs : List Nat) : State :=
  { s with cohorts := s.cohorts.map fun c =>
      if cs.contains c.uid then
        let m := c.metered + Config.choice s.run.tick 12 c.uid
        { c with metered := m, held := c.held || decide (c.energy ≤ m) }
      else c }
/-- Of a decision's cohorts. -/
def State.meter (s : State) (members : List Nat) : State := s.meterCohorts ((s.fibres.filter fun f => members.contains f.uid).map (·.cohort))
/-- Of the cohorts whose tile and flue commands run on a hearth, whether their fibres issue or not. -/
def State.meterEngines (s : State) (hearth : Nat) : State :=
  s.meterCohorts ((s.cmds.filter fun c => c.hearth == hearth && c.run == .running && !c.op.isColl).map (·.cohort))

end Sys2Proof.Machine
end

