-- ==== Sys2Proof/Machine/Save.lean ====
section
/-! DEFINITION. Pre-emption: which contexts are stopped for a launch, the save image, suspending and restoring (R226, R230, R292, R306,
R311, R347, R351 to R355, R370, R383, R384). A suspended cohort stands in the state as its image does, and the image is written to the
context's save area. -/

namespace Sys2Proof.Machine

/-! ### The image (Tables 19.4 and 21.8 to 21.10) -/

def padBytes (n : Nat) (l : List Byte) : List Byte := l ++ List.replicate (n - l.length) 0
def roundUp' (n x : Nat) : Nat := ceilDiv x n * n

/-- The resource word of Table 3.5. -/
def Declared.word (d : Declared) : Nat := d.regs / 8 + d.bars * 2 ^ 6 + d.lines * 2 ^ 12 + d.tiles * 2 ^ 24 + d.accs * 2 ^ 29

/-- The stash offset at which a fibre stalls on the fill of a mapped line. -/
def Fibre.fillOffset (f : Fibre) (line : Nat) : Nat :=
  match f.deferred with
  | (_, .stash (.lds o _ _)) :: _ | (_, .stash (.sts o _ _)) :: _ => o
  | _ => 128 * line

/-- Table 21.10: the wait kind and its value. A fibre parked in a wait is parked; one that stands at a `tgat` whose rows are filled has
presented it, and is parked while the command awaits a service (R323). The number of a barrier stands above its phase, of 8 bits in a cohort
and of 32 in the device (Table 9.5, R170; DESIGN CHOICE, log 101). -/
def State.waitCode (s : State) (f : Fibre) : Nat × Nat :=
  if f.waits.any (fun w => match w with | .parked _ => true | .engineRead id => (s.cmd? id).any (·.run == .suspended) | _ => false) then (6, 0)
  else match f.waits.head? with
  | some (.bar n) => (1, n * 256 + ((s.cohortOf f).bar n).phase)
  | some (.devBar n) => (1, n * 2 ^ 32 + ((s.devBar? (s.cohortOf f).slot n).map (·.phase)).getD 0)
  | some (.group _) => (2, 0)
  | some (.emptyLine o _) => (3, o)
  | some (.sleep t) => (4, t)
  | some (.mapFill n) => (3, f.fillOffset n)
  | some (.engineRead _) => (2, 0)
  | some (.jwait a _) => (5, a.off.toNat)
  | _ => (0, 0)

/-- The release that a fibre has still to perform: its own, or the first that stands behind a stall or an acquire (R230). -/
def Fibre.releaseLeft (f : Fibre) : Option Scope :=
  f.order.or (f.deferred.findSome? fun x => match x.2 with | .release sc => if sc = .fib then none else some sc | _ => none)

/-- The acquire of an effect that is still to be made. -/
def Fx.acquires : Fx → Option Scope
  | .acquireLoads sc | .sequence sc | .barWait _ sc => if sc = .fib then none else some sc
  | .mem r => r.acq.bind fun sc => if sc = .fib then none else some sc
  | .jwait .. => some .dev
  | .present _ p => if p.kind = .rdv then some .crw else none
  | _ => none
/-- The acquire with which a wait ends (R168, R257, R279). -/
def State.waitAcquires (s : State) (f : Fibre) (w : Wait) : Option Scope :=
  match w with
  | .bar _ => some .coh
  | .devBar _ | .jwait .. => some .dev
  | .group tag =>
    if ((((s.cohortOf f).crew? f.crew).map (·.rdvs)).getD []).any fun r => r.tag == tag && r.members.any fun p => p.uid == f.uid && p.kind == .rdv
    then some .crw else none
  | _ => none

/-- The acquire that a fibre has still to perform: one pending, one with which a wait of it ends, or one of an effect still to be made (R230). -/
def State.acquireLeft (s : State) (f : Fibre) : Option Scope :=
  ((f.acq.map (·.scope)).or (f.waits.findSome? (s.waitAcquires f))).or (f.deferred.findSome? fun x => x.2.acquires)

/-- A fibre record (Table 21.10). -/
def State.fibreImage (s : State) (f : Fibre) : List Byte :=
  let a := f.arch
  let w := s.waitCode f
  let acq := s.acquireLeft f
  let ord := f.releaseLeft.isSome.toNat + 2 * acq.isSome.toNat + 4 * ((f.releaseLeft.or acq).map Scope.rank).getD 0
  leBytes 4 a.pc.toNat ++ leBytes 1 a.pword.toNat ++ leBytes 1 a.wbase ++ leBytes 1 a.depth ++ leBytes 1 (a.regs.length / 8)
    ++ leBytes 1 f.ld ++ leBytes 1 f.st ++ leBytes 1 f.cp ++ leBytes 1 f.tl ++ leBytes 1 a.repc ++ leBytes 1 a.repStart
    ++ leBytes 1 (a.fflags.toNat + 32 * a.frm.toNat) ++ leBytes 1 (w.1 + if a.handler then 8 else 0) ++ leBytes 1 ord ++ leBytes 1 0
    ++ leBytes 2 a.cause.toNat ++ leBytes 4 a.epc.toNat ++ leBytes 8 a.gwct ++ leBytes 8 w.2 ++ leBytes 8 a.tval.toNat
    ++ (a.spaces.flatMap fun x => leBytes 2 x.toNat) ++ leBytes 8 0 ++ (a.regs.flatMap fun x => leBytes 4 x.toNat)

/-- An open rendezvous of a crew record: K, O and the operation code of its word. -/
def RdvKind.codes : RdvKind → Nat × Nat × Nat
  | .shfl m _ => (15, 0, m.toNat)
  | .bcst _ _ => (15, 1, 0)
  | .vote m => (16, 0, m.toNat)
  | .redu o _ _ => (16, 1, o.toNat)
  | .scan o _ _ => (16, 2, o.toNat)
  | .mtch t => (16, 3, t.toNat)
  | .elect => (16, 4, 0)
  | .rdv => (16, 5, 0)
  | .jmsk j _ => (16, 7, j.toNat)
  | .tgat _ _ _ => (21, 0, 0)

def widthCode (w : Nat) : Nat := match w with | 2 => 1 | 4 => 2 | 8 => 3 | 16 => 4 | _ => 0

def Rdv.image (r : Rdv) : List Byte :=
  match r.members.head? with
  | some p =>
    let k := p.kind.codes
    leBytes 1 r.tag ++ leBytes 1 k.1 ++ leBytes 1 k.2.1 ++ leBytes 1 k.2.2 ++ leBytes 1 p.set.code.toNat ++ leBytes 1 (widthCode p.width)
      ++ leBytes 2 0 ++ leBytes 4 (laneMask r.members).toNat ++ leBytes 4 p.mask.toNat
  | none => leBytes 16 0

/-- A crew record (Table 21.9). -/
def State.crewImage (s : State) (co : Cohort) (w : Crew) : List Byte :=
  let live := s.crewLive co.uid w.number
  ((List.range 32).flatMap fun v => leBytes 1 (((live.find? (·.vlane == v)).map (·.plane)).getD 0xFF))
    ++ (w.masks.flatMap fun m => leBytes 4 m.toNat)
    ++ leBytes 4 (live.foldl (fun (m : Word) f => m ||| BitVec.ofNat 32 (2 ^ f.vlane)) 0).toNat
    ++ leBytes 1 w.rdvs.length ++ leBytes 1 w.grate ++ leBytes 2 0 ++ leBytes 8 w.tgprog.toNat ++ w.rdvs.flatMap Rdv.image

/-- The fibres of a crew in ascending vlane. -/
def State.crewFibres (s : State) (cohort crew : Nat) : List Fibre :=
  (List.range 32).filterMap fun v => (s.crewLive cohort crew).find? (·.vlane == v)

/-- The blocks of k that a stopped `tmma` has done into an accumulator (R306). -/
def State.blocksDone (s : State) (co : Cohort) (n : Nat) : Nat :=
  ((s.cmds.filter fun c => c.cohort == co.uid && match c.op with
    | .tmma _ => (c.block.map fun b => (MmaBlock.ofBytes b).c == n).getD false
    | _ => false).map (·.done)).foldl max 0

/-- The 64 bytes of an engine command (Table 21.8): the command itself in 48 bytes that the spec does not lay out, then its flue, 4 for another
engine, and its lines or blocks done (R311; DESIGN CHOICE, log 101). -/
def State.cmdImage (s : State) (c : EngineCmd) : List Byte :=
  freeBytes s.run.tick 16 (64 * c.id) 48 ++ leBytes 8 (if c.op.isFlue then c.flue else 4) ++ leBytes 8 c.done

/-- A cohort's part of the image (Table 21.8): its record, the declared parts, its crews, its fibres. -/
def State.cohortImage (s : State) (co : Cohort) : List Byte :=
  let mapped := co.lines.filter (·.mapped.isSome)
  let cmds := s.cmds.filter (·.cohort == co.uid)
  let lines := List.range co.decl.lines
  let full := (lines.filter fun i => (co.line i).full).foldl (fun m i => m ||| 2 ^ i) 0
  let k := co.crews.length
  leBytes 8 co.decl.word ++ leBytes 8 co.tileStatus.toNat ++ (co.wptr.flatMap fun w => leBytes 8 w) ++ leBytes 8 co.number
    ++ leBytes 1 co.hearth ++ leBytes 1 k ++ leBytes 2 mapped.length ++ leBytes 2 cmds.length ++ leBytes 2 0
    ++ Memory.bytes co.stash 0 (128 * co.decl.lines) ++ leBytes (16 * ceilDiv co.decl.lines 128) full
    ++ (mapped.flatMap fun l => leBytes 2 l.n ++ leBytes 2 ((l.mapped.map (·.space.toNat)).getD 0) ++ leBytes 4 0
        ++ leBytes 8 ((l.mapped.map (·.off.toNat)).getD 0))
    ++ ((List.range co.decl.bars).flatMap fun n =>
        let arr := (co.bar n).arrived.foldl (fun m i => m ||| 2 ^ i) 0
        leBytes 8 (s.barStatus co n).toNat ++ leBytes (roundUp' 8 (4 * k)) arr)
    ++ ((List.range co.decl.tiles).flatMap fun n =>
        let t := co.tile n
        padBytes 64 (leBytes 4 t.tcfg.toNat ++ leBytes 1 t.fault.toNat) ++ Memory.bytes t.elems 0 8192 ++ Memory.bytes t.scales 0 1024
          ++ Memory.bytes t.bitmap 0 2048)
    ++ ((List.range co.decl.accs).flatMap fun n => padBytes 64 (leBytes 1 (co.acc n).valid.toNat ++ leBytes 1 (s.blocksDone co n)) ++ (co.acc n).image)
    ++ (cmds.flatMap s.cmdImage)
    ++ (co.crews.flatMap fun w => s.crewImage co w)
    ++ (co.crews.flatMap fun w => (s.crewFibres co.uid w.number).flatMap s.fibreImage)

/-- The cohorts of a context in ascending %cohort. -/
def insertCohort (c : Cohort) : List Cohort → List Cohort
  | [] => [c]
  | d :: l => if c.number < d.number then c :: d :: l else d :: insertCohort c l
def State.ctxCohorts (s : State) (ctx : Nat) : List Cohort :=
  (s.cohorts.filter fun c => (s.slot c.slot).ctx == ctx && c.crews != []).foldl (fun l c => insertCohort c l) []

/-- The queue states of Table 21.8. A barred queue, for which the table has no code, stands halted (DESIGN CHOICE, log 101); a queue of a context
that is saved is not yet Suspended. -/
def QueueState.code : QueueState → Nat
  | .unbound | .idle => 0 | .running => 1 | .waiting => 2 | .halted | .suspended | .barred => 3

/-- The whole image of a context. -/
def State.contextImage (s : State) (ctx : Nat) : List Byte :=
  let qs := s.queues.filter fun q => q.state != .unbound && q.ctx == ctx
  let cs := s.ctxCohorts ctx
  let body := (qs.flatMap fun q => leBytes 1 q.n ++ leBytes 1 q.state.code ++ leBytes 6 0 ++ leBytes 8 q.read) ++ cs.flatMap s.cohortImage
  let replay := ((s.context? ctx).map (·.recovery.replay)).getD 0
  leBytes 2 ctx ++ leBytes 1 1 ++ leBytes 1 qs.length ++ leBytes 4 cs.length ++ leBytes 8 (64 + body.length) ++ leBytes 8 s.ltime
    ++ leBytes 8 replay ++ leBytes 32 0 ++ body

/-! ### Which contexts are stopped (R351, R370) -/

def LaunchSlot.waiting (l : LaunchSlot) : Bool := l.busy && decide (l.next < l.total)
/-- A launch runs on the device: some cohort of it has been placed. -/
def LaunchSlot.started (l : LaunchSlot) : Bool := l.busy && decide (0 < l.next)
def State.modeOf (s : State) (l : LaunchSlot) : Nat := s.policy.modes.getD l.prio 0
def State.live (s : State) (ctx : Nat) : Bool := ((s.context? ctx).map fun c => !c.suspended && !c.stopping).getD false

/-- Launches that a context runs. -/
def State.running (s : State) (ctx : Nat) : List LaunchSlot := s.slots.filter fun l => l.started && l.ctx == ctx

/-- A context whose image fits its save area (R383). -/
def State.savable (s : State) (c : Context) : Bool := decide ((s.contextImage c.id).length ≤ c.saveBytes)

/-- The context that mode 1 suspends next for a launch: only lower priorities, lowest first, most recently started first, one at a time. -/
def State.victim (s : State) (l : LaunchSlot) : Option Nat :=
  let cs := if s.contexts.any (fun c => !c.destroyed && c.stopping) then [] else s.contexts.filter fun c => !c.destroyed && !c.suspended && !c.stopping && c.id != l.ctx && s.savable c
    && (s.running c.id != []) && (s.running c.id).all fun r => decide (r.prio < l.prio)
  let key (c : Context) : Nat × Nat := (((s.running c.id).map (·.prio)).foldl max 0, ((s.running c.id).map (·.order)).foldl max 0)
  (cs.foldl (fun (best : Option Context) c => match best with
    | none => some c
    | some b => if (key c).1 < (key b).1 ∨ ((key c).1 = (key b).1 ∧ (key b).2 < (key c).2) then some c else some b) none).map (·.id)

/-- The mode under which a context is to be stopped now, if it is. -/
def State.stopMode (s : State) (ctx : Nat) : Option Nat :=
  s.slots.findSome? fun l =>
    if !l.waiting || l.ctx == ctx || !s.live l.ctx then none
    else if s.modeOf l = 2 then
      (if (s.running ctx).any (fun r => decide (r.prio < l.prio)) && ((s.context? ctx).map s.savable).getD false then some 2 else none)
    else if s.modeOf l = 1 then (if (s.nextPlan l.n).isNone && s.victim l == some ctx then some 1 else none)
    else none

/-- An exclusive launch waits for a context that cannot be suspended: what the context has running goes on (R351). Its own context, which it
cannot suspend, is one (DESIGN CHOICE, log 103). -/
def State.outlasts (s : State) (l m : LaunchSlot) : Bool :=
  s.modeOf m == 2 && l.n != m.n && l.started && (l.ctx == m.ctx || !((s.context? l.ctx).map s.savable).getD false)

/-- A launch may be placed: its context runs, no launch of higher priority waits, and an exclusive one finds no lower launch running. -/
def State.mayPlace (s : State) (l : LaunchSlot) : Bool :=
  l.waiting && s.live l.ctx && !(s.slots.any fun m => m.waiting && s.live m.ctx && decide (l.prio < m.prio) && !s.outlasts l m)
    && (s.modeOf l != 2 || s.slots.all fun m => !m.started || decide (l.prio ≤ m.prio) || m.n == l.n
        || ((s.context? m.ctx).map (·.suspended)).getD true)

/-! ### Stopping and suspending (R352, R353) -/

/-- The stop order to a hearth: cohorts of the context on it stop, their dirty mapped lines are written back, and their waiting reads of the
tile engine are discarded, to execute again (R327). -/
def State.stopHearth (s : State) (ctx hearth mode : Nat) : State :=
  let cs := s.cohorts.filter fun c => c.hearth == hearth && (s.slot c.slot).ctx == ctx && c.run == .running && c.crews != []
  let s := cs.foldl (fun (s : State) (c : Cohort) =>
    match s.fibres.find? (·.cohort == c.uid) with
    | some f => s.writeBacks f.uid c.uid fun _ => true
    | none => s) s
  let us := cs.map (·.uid)
  let s := (s.fibres.filter fun f => us.contains f.cohort).foldl (fun (s : State) f => s.dropReads f.uid) s
  { s with cohorts := s.cohorts.map fun (c : Cohort) => if us.contains c.uid then { c with run := .stopping } else c }.updContext ctx fun c =>
    { c with stopping := true, mode := mode }

/-- A fibre has stopped (R352): what writes its registers has written. Its loads have returned and no service is awaited; stores and atomics
already sent are not awaited, and effects that stand behind a release, an acquire or a stall are saved with it (R230). -/
def State.fibreStopped (s : State) (f : Fibre) : Bool :=
  !(s.ops.any fun o => o.uid == f.uid && o.req.kind == .load) && f.pend.all (fun p => p.src != .lane) && !s.flushing f.uid
    && !s.run.issuing.contains f.uid && f.waits.all (fun w => match w with | .svc .. | .tlbi .. => false | _ => true)
    && f.deferred.head?.all fun x => x.2.writes == ([], []) || s.gated f.uid x.2 || !f.waits.all Wait.lets

def State.ctxStopped (s : State) (ctx : Nat) : Bool :=
  let cs := s.ctxCohorts ctx
  cs.all (fun c => c.run != .running) && s.fibres.all fun f => !(cs.any (·.uid == f.cohort)) || s.fibreStopped f

/-- A fibre as its image keeps it: hoist entries invalid, a walk asked again, a pending release from step 1, the counter of a `jwait` in place to
be read again (R226, R230, R384). -/
def Fibre.saved (f : Fibre) : Fibre :=
  let waits := f.waits.filterMap fun w => match w with | .walk _ => none | .jwait a _ => some (.jwait a 0) | w => some w
  { f with hoist := [], waits := waits, flushed := false, durable := false, lastL2 := [], ibuf := none, since := none, demoted := false }

/-- The entries of a command that goes back: those of its reads are gone once they are over. -/
def State.locksLeft (s : State) (c : EngineCmd) : List RangeLock :=
  let read := (c.op.isFlue && decide (s.flueLines c ≤ c.done)) || (c.op.isColl && c.done != 0)
  (s.ranges c).filter fun l => l.writes || !read
/-- The context is suspended: the image is written, its units leave their slots, its queues stand Suspended. -/
def State.suspendSaved (s : State) (ctx : Nat) : State :=
  match s.context? ctx with
  | none => s
  | some c =>
    let us := (s.ctxCohorts ctx).map (·.uid)
    let owners := (s.ctxCohorts ctx).flatMap s.lockOwners
    let s := { s with mem := s.mem.putBytes c.saveAddr (s.contextImage ctx) }.noteWrite none (touches c.saveAddr (s.contextImage ctx).length)
    let s := { s with
      cohorts := s.cohorts.map fun (c : Cohort) =>
        if us.contains c.uid then
          { c with run := .suspended, lines := c.lines.map fun (l : StashLine) => if l.mapped.isSome then { l with full := false, target := none } else l }
        else c
      fibres := s.fibres.map fun (f : Fibre) => if us.contains f.cohort then f.saved else f
      hearths := s.hearths.map fun (h : Hearth) => { h with locks := h.locks.filter fun k => !owners.contains k.cmd }
      units := (s.units.map fun (u : IssueUnit) => { u with crews := u.crews.filter fun x => !us.contains x.1 }).filter fun u => u.crews != [] }
    (s.suspendContext ctx).unsequence fun u => s.fibres.any fun f => f.uid == u && us.contains f.cohort

/-- Lines of a context's cohorts still hold bytes that memory does not: a stash word that was held back has stored to them since the stop order.
They are written back before the stop completes (R383). -/
def State.dirtyLeft (s : State) (ctx : Nat) : List Cohort := (s.ctxCohorts ctx).filter fun c => c.lines.any (·.dirty != 0)
def State.flushLeft (s : State) (ctx : Nat) : State :=
  (s.dirtyLeft ctx).foldl (fun (s : State) (c : Cohort) => match s.fibres.find? (·.cohort == c.uid) with
    | some f => s.writeBacks f.uid c.uid fun _ => true
    | none => s) s

/-- The stop of a context whose image has outgrown its save area is called off: its cohorts run on (R383; DESIGN CHOICE, log 103). -/
def State.callOff (s : State) (ctx : Nat) : State :=
  let us := (s.ctxCohorts ctx).map (·.uid)
  { s with cohorts := s.cohorts.map fun (c : Cohort) => if us.contains c.uid && c.run == CohortRun.stopping then { c with run := .running } else c }.updContext ctx
    fun c => { c with stopping := false, mode := 0 }

/-! ### Restoring (R355) -/

/-- What a saved cohort needs; a crew may move to another grate, so each needs room on its own. -/
def Cohort.needs (c : Cohort) : Need :=
  { grates := (List.range 4).map fun g => (c.crews.filter (·.grate == g)).length, regs := ((c.crews.head?).map (·.slotSize)).getD 0,
    lines := c.decl.lines, tiles := c.decl.tiles, accs := c.decl.accs, bars := c.decl.bars, energy := c.energy, current := c.current }

/-- Free crew slots of a grate, and its free registers per lane. -/
def State.freeSlots (s : State) (hearth grate : Nat) : Nat := 16 - (s.grateUnits hearth grate).length
def State.freeRegs (s : State) (hearth grate : Nat) : Nat := 1024 - ((s.grateUnits hearth grate).map s.unitRegs).sum

/-- The grate with the most free crew slots that also has the registers, the lowest number on a tie. -/
def State.bestGrate (s : State) (hearth regs : Nat) : Option Nat :=
  ([0, 1, 2, 3].filter fun g => decide (0 < s.freeSlots hearth g) && decide (regs ≤ s.freeRegs hearth g)).foldl
    (fun (best : Option Nat) g => match best with
      | none => some g
      | some b => if s.freeSlots hearth b < s.freeSlots hearth g then some g else some b) none

/-- Seat the crews of a cohort on a hearth, each on its saved grate where that has room, else the emptiest. None: one finds no room. -/
def State.seatAll (s : State) (hearth cohort : Nat) (paired : Bool) (ws : List Crew) : Option State :=
  ws.foldl (fun (o : Option State) w => o.bind fun s =>
    if 0 < s.freeSlots hearth w.grate ∧ w.slotSize ≤ s.freeRegs hearth w.grate then some (s.seatCrew hearth cohort w.number w.grate paired)
    else (s.bestGrate hearth w.slotSize).map fun g => s.seatCrew hearth cohort w.number g paired) (some s)

/-- A cohort is back on its hearth: its commands enter the queues again in their order, with their range locks; a collective that has come to its
end meanwhile is applied, pending releases begin again, pending fences arrive at their sequencers again, and L1 copies from before are not used (R230, R318, R347, R355). -/
def State.reload (s : State) (c : Cohort) (hearth : Nat) : State :=
  let mine := (s.cmds.filter (·.cohort == c.uid)).map fun (x : EngineCmd) =>
    { x with hearth := hearth, run := if x.run = .held ∨ x.op.isColl then x.run else .queued }
  let s := { s with
    cmds := (s.cmds.filter fun (x : EngineCmd) => x.cohort != c.uid) ++ mine
    fibres := s.fibres.map fun (f : Fibre) => if f.cohort = c.uid then { f with plane := f.vlane } else f }
  let locks := mine.flatMap s.locksLeft ++ s.openLocks c
  let s := s.updHearth hearth fun h => { h with locks := h.locks ++ locks, l1 := [] }
  let s := (mine.filter fun x => match x.op with | .coll _ _ n _ => n == 0 || x.done != 0 | _ => false).foldl (fun (s : State) x => s.collDo x []) s
  let s := (s.fibres.filter fun f => f.cohort == c.uid && f.order.isSome).foldl (fun (s : State) f => s.releaseAdvance f.uid) s
  (s.fibres.filter fun f => f.cohort == c.uid && f.sequencing.isSome).foldl (fun (s : State) f => s.arriveFence f.uid) s

/-- The cohort goes back to a hearth if it fits there: its crews find their slots, and the reserve of R283 is still whole beside them. One that
the damper held is held until the next interval of its hearth (R429). -/
def State.restoreAt (s : State) (c : Cohort) (hearth : Nat) : Option State :=
  if !s.fits hearth { c.needs with grates := [0, 0, 0, 0] } true then none
  else
    let s := s.updCohort c.uid fun c => { c with hearth := hearth, run := .running }
    ((s.seatAll hearth c.uid (s.slot c.slot).record.paired c.crews).filter fun s => s.reserved hearth).map fun s => s.reload c hearth

/-- One cohort goes back: the hearth it was saved from first, then the hearth of lowest ID where it fits. -/
def State.restoreCohort (s : State) (c : Cohort) : Option State :=
  (c.hearth :: List.range 192).findSome? fun h => s.restoreAt c h

def State.suspendedCohorts (s : State) (ctx : Nat) : List Cohort := (s.ctxCohorts ctx).filter (·.run == .suspended)

/-- Every suspended cohort of the context that fits goes back, in ascending %cohort. -/
def State.restoreAll (s : State) (ctx : Nat) : State :=
  (s.suspendedCohorts ctx).foldl (fun s c => (s.restoreCohort c).getD s) s

/-- A suspended context may be restored (R351, R355, R370, R418): no die resets or is about to, no exclusive launch is above one of its launches, under mode 2; under mode 1 no
launch above them waits, and all its cohorts fit. -/
def State.mayRestore (s : State) (c : Context) : Bool :=
  let mine := s.slots.filter fun l => l.started && l.ctx == c.id
  let top := (mine.map (·.prio)).foldl max 0
  !s.dies.any (·.resetting) && s.awaitedDies == []
    && !(s.slots.any fun l => l.busy && l.ctx != c.id && s.modeOf l == 2 && c.mode == 2 && mine.any (fun r => decide (r.prio < l.prio)))
    && (c.mode != 1 || (!(s.slots.any fun l => l.waiting && l.ctx != c.id && s.live l.ctx && decide (top < l.prio))
        && (s.restoreAll c.id).suspendedCohorts c.id == []))

/-- The context is restored: its cohorts go back, its queues read again, its gather windows start afresh (R292); the saved header says so. -/
def State.restoreContext (s : State) (ctx : Nat) : State :=
  match s.context? ctx with
  | none => s
  | some c =>
    if c.suspended then
      if !s.mayRestore c then s
      else
        let s := ({ s with mem := s.mem.put (c.saveAddr + 2) 2 }.updContext ctx fun c => { c with suspended := false, mode := 0, restored := s.ltime }).restoreAll ctx
        { s with
          queues := s.queues.map fun q =>
            if q.ctx = ctx ∧ q.state = .suspended then { q with state := if q.read = q.tail ∧ q.pkts = [] then .idle else .running } else q }
    else s.restoreAll ctx

/-! ### Replay (R391, R417, R418) -/

/-- The state of a resident cohort is discarded: cause 10.07 takes the action of Table 23.5. -/
def State.loseCohort (s : State) (c : Cohort) : State :=
  let l := s.slot c.slot
  let tv : DWord := BitVec.ofNat 64 c.hearth
  let s := { s with
    cmds := s.cmds.filter (·.cohort != c.uid)
    hearths := s.hearths.map fun (h : Hearth) => { h with locks := h.locks.filter fun (k : RangeLock) => !s.cmds.any fun d => d.id == k.cmd && d.cohort == c.uid } }
  let s := s.updCohort c.uid fun c => { c with lines := c.lines.map fun n => { n with dirty := 0 } }
  let fs := (s.liveOf c.uid)
  let sealed := match s.context? l.ctx with | some c => c.recovery.rps != 0 | none => false
  if (l.node.isSome && decide (l.retries < 2)) || sealed then
    match fs with
    | f :: _ => s.raise f.uid (mkCause 10 7) tv f.head
    | [] => s
  else fs.foldl (fun s f =>
    ((s.writeRecord l.ctx (s.faultRecord f f.arch.handler false true (mkCause 10 7) tv f.head)).1).exitAll f.uid) s

/-- Something of a context stands on a die: a cohort that is not suspended, or a record in its store. -/
def State.standsOn (s : State) (ctx die : Nat) : Bool :=
  (s.cohorts.any fun c => (s.slot c.slot).ctx == ctx && dieOfHearth c.hearth == die && c.run != .suspended && c.crews != [])
    || (s.die die).store.any fun r => (s.slot r.slot).ctx == ctx

/-- A die may reset: no cohort runs on it, and no context that is being saved has anything there. -/
def State.dieFree (s : State) (die : Nat) : Bool :=
  !(s.cohorts.any fun c => dieOfHearth c.hearth == die && c.run != .suspended && c.crews != [])
    && s.contexts.all fun c => c.destroyed || !c.stopping || !s.standsOn c.id die

/-- A context whose state cannot be saved from dies about to reset: its cohorts there are discarded, and it takes its own row of Table 23.5 (R418;
cause 10.07, DEDUCED, log 104). -/
def State.loseOn (s : State) (ctx : Nat) (dies : List Nat) : State :=
  ((s.ctxCohorts ctx).filter fun c => dies.contains (dieOfHearth c.hearth) && c.run != .suspended).foldl State.loseCohort (s.callOff ctx)
/-- Another context makes way for the reset of dies: it is stopped, to be saved and restored afterwards (R352 to R355, R418). -/
def State.makeWay (s : State) (dies : List Nat) (c : Context) : State :=
  if s.savable c then
    ((s.ctxCohorts c.id).map (·.hearth)).eraseDups.foldl (fun s h => s.stopHearth c.id h 0) (s.updContext c.id fun c => { c with stopping := true, mode := 0 })
  else s.loseOn c.id dies

/-- The replay of a context: its launches are abandoned, the other contexts on their dies stopped and saved, and the dies reset, each once it is
free; with those dies out of reset the point is restored, and until then the context's queues stand still (R391, R406, R418). -/
def State.replay (s : State) (ctx : Nat) (keep : Option Nat) : State :=
  match s.context? ctx with
  | none => s
  | some c =>
    if c.replaying.isSome then s
    else
      let mine := (s.slots.filter fun l => l.busy && l.ctx == ctx).map (·.n)
      let dies := ((s.cohorts.filter fun x => mine.contains x.slot && x.crews != [] && x.run != .suspended).map fun x =>
        dieOfHearth x.hearth).eraseDups
      let s := mine.foldl (fun s n => (s.clearLaunch n).freeSlot n) s
      let others := s.contexts.filter fun o => o.id != ctx && !o.destroyed && !o.suspended && dies.any (s.standsOn o.id)
      let s := others.foldl (fun s o => s.makeWay dies o) s
      let s := dies.foldl (fun s d => if s.dieFree d then s.dieReset d else s) s
      if dies = [] then s.replayRestore ctx keep else s.updContext ctx fun c => { c with replaying := some (dies, keep) }

end Sys2Proof.Machine
end

