-- ==== Sys2Proof/Machine/Integer.lean ====
section
/-! DEFINITION. The meanings of the integer words: classes IALU, IBIT, IMUL and IDIV (R132 to R151). Each is a value of Tables 8.2 to
8.5, written by `Wr` in the layout of the type. -/

namespace Sys2Proof.Machine

/-! ### The helpers of R133 -/

/-- `Rd(k)`: the number that the operand holds in its type. -/
def Fibre.rd (f : Fibre) (k : RegIx) (t : Ty) : Int := t.num (f.raw k t)
/-- `Bsrc`: the immediate, or `Rd(B)` (R134). -/
def Fibre.bsrc (f : Fibre) (l : LitInt) (b : RegIx) : Int :=
  match l with
  | .imm v => immVal v
  | .fields t _ _ _ => f.rd b t
/-- `Raw(Bsrc)`: the N bits of the second operand, unsigned. -/
def Fibre.braw (f : Fibre) (l : LitInt) (b : RegIx) : Nat := modPow l.ty.bits (f.bsrc l b)
/-- A count in B: V(B) unsigned, or the low 32 bits of the immediate (R139, R141). -/
def Fibre.bcount (f : Fibre) (l : LitInt) (b : RegIx) : Nat :=
  match l with
  | .imm v => modPow 32 (immVal v)
  | .fields .. => (f.V b).toNat

/-- A word of class `cls` whose result is the bits `val` in field D, in the layout of its type; `val` takes the fibre, the LIT body,
the type and the third register X. -/
def State.intWord (s : State) (i : Instr) (m : Mods LitInt) (cls : Nat) (d : RegIx)
    (val : Fibre → LitInt → Ty → RegIx → Nat) : Host.Outcome State Fault Refusal :=
  s.word i m fun f og =>
    let l := intBody m d
    .ok [.res cls (f.wr d (l.ty.words (val f l l.ty (m.xi og.pin d)))) [] 0]

/-- The same for a count, written to one register (R142). -/
def State.countWord (s : State) (i : Instr) (m : Mods LitInt) (cls : Nat) (d : RegIx) (val : Fibre → LitInt → RegIx → Nat) :
    Host.Outcome State Fault Refusal :=
  s.word i m fun f og => .ok [.res cls (f.wr d [BitVec.ofNat 32 (val f (intBody m d) (m.xi og.pin d))]) [] 0]

/-- A word of R136 on A and Bsrc. -/
def State.ialu (s : State) (i : Instr) (op : IaluOp) (m : Mods LitInt) (d a b : RegIx) : Host.Outcome State Fault Refusal :=
  s.intWord i m 0 d fun f l t _ => t.wr l.ovf (ialuVal op t (f.rd a t) (f.bsrc l b))

/-! ### IALU (R136 to R138) -/

def execAdd (m : Mods LitInt) (d a b : RegIx) (s : State) : Host.Outcome State Fault Refusal := s.ialu (.add m d a b) .add m d a b
def execSub (m : Mods LitInt) (d a b : RegIx) (s : State) : Host.Outcome State Fault Refusal := s.ialu (.sub m d a b) .sub m d a b

/-- Result and carry, written together (R137). -/
def State.carryWord (s : State) (i : Instr) (m : Mods LitInt) (d a b : RegIx) (val : Nat → Nat → Nat → Bool → Nat × Bool) :
    Host.Outcome State Fault Refusal :=
  s.word i m fun f _ =>
    let l := intBody m d
    let r := val l.ty.bits (f.raw a l.ty) (f.braw l b) (f.P l.sel)
    .ok [.res 0 (f.wr d (l.ty.words r.1)) [(l.sel.toNat, r.2)] 0]

def execAddc (m : Mods LitInt) (d a b : RegIx) (s : State) : Host.Outcome State Fault Refusal :=
  s.carryWord (.addc m d a b) m d a b addcVal
def execSubb (m : Mods LitInt) (d a b : RegIx) (s : State) : Host.Outcome State Fault Refusal :=
  s.carryWord (.subb m d a b) m d a b subbVal

def execNeg (m : Mods LitInt) (d a : RegIx) (s : State) : Host.Outcome State Fault Refusal := s.ialu (.neg m d a) .neg m d a a
def execAbs (m : Mods LitInt) (d a : RegIx) (s : State) : Host.Outcome State Fault Refusal := s.ialu (.abs m d a) .abs m d a a
def execMin (m : Mods LitInt) (d a b : RegIx) (s : State) : Host.Outcome State Fault Refusal := s.ialu (.min m d a b) .min m d a b
def execMax (m : Mods LitInt) (d a b : RegIx) (s : State) : Host.Outcome State Fault Refusal := s.ialu (.max m d a b) .max m d a b
def execAnd (m : Mods LitInt) (d a b : RegIx) (s : State) : Host.Outcome State Fault Refusal := s.ialu (.and m d a b) .and m d a b
def execOr (m : Mods LitInt) (d a b : RegIx) (s : State) : Host.Outcome State Fault Refusal := s.ialu (.or m d a b) .or m d a b
def execXor (m : Mods LitInt) (d a b : RegIx) (s : State) : Host.Outcome State Fault Refusal := s.ialu (.xor m d a b) .xor m d a b
def execAndn (m : Mods LitInt) (d a b : RegIx) (s : State) : Host.Outcome State Fault Refusal := s.ialu (.andn m d a b) .andn m d a b
def execOrn (m : Mods LitInt) (d a b : RegIx) (s : State) : Host.Outcome State Fault Refusal := s.ialu (.orn m d a b) .orn m d a b
def execSel (m : Mods LitInt) (d a b : RegIx) (s : State) : Host.Outcome State Fault Refusal :=
  s.intWord (.sel m d a b) m 0 d fun f l t _ => t.wr l.ovf (if f.P l.sel then f.rd a t else f.bsrc l b)
def execMov (m : Mods LitInt) (d b : RegIx) (s : State) : Host.Outcome State Fault Refusal := s.ialu (.mov m d b) .mov m d b b
def execCmp (m : Mods LitInt) (p : BitVec 3) (a b : RegIx) (s : State) : Host.Outcome State Fault Refusal :=
  s.word (.cmp m p a b) m fun f _ =>
    let l := intBody m (predField p)
    .ok [.res 0 [] [(p.toNat, cmpVal l.sel.toNat (f.rd a l.ty) (f.bsrc l b))] 0]

/-! ### IBIT (R139 to R145) -/

def execShl (m : Mods LitInt) (d a b : RegIx) (s : State) : Host.Outcome State Fault Refusal :=
  s.intWord (.shl m d a b) m 1 d fun f l t _ => t.wr l.ovf (shlVal t (f.rd a t) (f.bcount l b))
def execShr (m : Mods LitInt) (d a b : RegIx) (s : State) : Host.Outcome State Fault Refusal :=
  s.intWord (.shr m d a b) m 1 d fun f l t _ => t.wr l.ovf (shrVal (f.raw a t) (f.bcount l b))
def execSar (m : Mods LitInt) (d a b : RegIx) (s : State) : Host.Outcome State Fault Refusal :=
  s.intWord (.sar m d a b) m 1 d fun f l t _ => t.wr l.ovf (sarVal t.bits (f.raw a t) (f.bcount l b))
def execRotl (m : Mods LitInt) (d a b : RegIx) (s : State) : Host.Outcome State Fault Refusal :=
  s.intWord (.rotl m d a b) m 1 d fun f l t _ => t.wr l.ovf (rotlVal t.bits (f.raw a t) (f.bcount l b))
def execFsh (m : Mods LitInt) (d a b : RegIx) (s : State) : Host.Outcome State Fault Refusal :=
  s.intWord (.fsh m d a b) m 1 d fun f l t x => fshVal t.bits (f.raw a t) (f.raw x t) (f.bcount l b) (l.sel == 1)
def execBfx (m : Mods LitInt) (d a b : RegIx) (s : State) : Host.Outcome State Fault Refusal :=
  s.intWord (.bfx m d a b) m 1 d fun f l t x => t.wr l.ovf (bfxVal t (f.raw a t) (f.bcount l b) (f.V x).toNat)
def execBfi (m : Mods LitInt) (d a b : RegIx) (s : State) : Host.Outcome State Fault Refusal :=
  s.intWord (.bfi m d a b) m 1 d fun f l t x => bfiVal t l.ovf (f.rd a t) (f.raw d t) (f.bcount l b) (f.V x).toNat
def execPopc (m : Mods LitInt) (d a : RegIx) (s : State) : Host.Outcome State Fault Refusal :=
  s.countWord (.popc m d a) m 1 d fun f l _ => popCount l.ty.bits (f.raw a l.ty)
def execClz (m : Mods LitInt) (d a : RegIx) (s : State) : Host.Outcome State Fault Refusal :=
  s.countWord (.clz m d a) m 1 d fun f l _ => clzVal l.ty.bits (f.raw a l.ty)
def execCtz (m : Mods LitInt) (d a : RegIx) (s : State) : Host.Outcome State Fault Refusal :=
  s.countWord (.ctz m d a) m 1 d fun f l _ => ctzVal l.ty.bits (f.raw a l.ty)
def execBrev (m : Mods LitInt) (d a : RegIx) (s : State) : Host.Outcome State Fault Refusal :=
  s.intWord (.brev m d a) m 1 d fun f l t _ => t.wr l.ovf (brevVal t.bits (f.raw a t))
def execBprm (m : Mods LitInt) (d a b : RegIx) (s : State) : Host.Outcome State Fault Refusal :=
  s.countWord (.bprm m d a b) m 1 d fun f l x => bprmVal (f.bcount l b * 2 ^ 32 + (f.V a).toNat) (f.V x).toNat
def execPlog (m : Mods LitInt) (d a b : RegIx) (s : State) : Host.Outcome State Fault Refusal :=
  s.intWord (.plog m d a b) m 1 d fun f l t x => plogVal t.bits (f.raw a t) (f.braw l b) (f.raw d t) ((f.V x).toNat % 256)
/-- The pair of R145. -/
def execLea (m : Mods LitInt) (d a b : RegIx) (s : State) : Host.Outcome State Fault Refusal :=
  s.word (.lea m d a b) m fun f _ =>
    let l := intBody m d
    .ok [.res 1 (f.wr d (Ty.n64.words (leaVal (f.VP a).toNat (f.bsrc l b) l.sel.toNat))) [] 0]

/-! ### IMUL (R146 to R148) -/

def execMul (m : Mods LitInt) (d a b : RegIx) (s : State) : Host.Outcome State Fault Refusal :=
  s.intWord (.mul m d a b) m 2 d fun f l t _ => t.wr l.ovf (f.rd a t * f.bsrc l b)
def execMulh (m : Mods LitInt) (d a b : RegIx) (s : State) : Host.Outcome State Fault Refusal :=
  s.intWord (.mulh m d a b) m 2 d fun f l t _ => t.wr l.ovf (highVal t (f.rd a t * f.bsrc l b))
def execMad (m : Mods LitInt) (d a b : RegIx) (s : State) : Host.Outcome State Fault Refusal :=
  s.intWord (.mad m d a b) m 2 d fun f l t x => t.wr l.ovf (f.rd a t * f.bsrc l b + f.rd x t)
def execMadh (m : Mods LitInt) (d a b : RegIx) (s : State) : Host.Outcome State Fault Refusal :=
  s.intWord (.madh m d a b) m 2 d fun f l t x => t.wr l.ovf (highVal t (f.rd a t * f.bsrc l b + f.rd x t))
def execIdp4 (m : Mods LitInt) (d a b : RegIx) (s : State) : Host.Outcome State Fault Refusal :=
  s.intWord (.idp4 m d a b) m 2 d fun f l t x => t.wr l.ovf (idp4Val t (l.sel == 1) (f.raw a t) (f.braw l b) (f.rd x t))

/-! ### IDIV (R149, R150) -/

/-- `div` and `rem`: the value, or a cause of class 2 with the dividend. -/
def State.divWord (s : State) (i : Instr) (m : Mods LitInt) (d a b : RegIx) (val : Ty → Bool → Int → Int → Except Nat Int) :
    Host.Outcome State Fault Refusal :=
  s.word i m fun f _ =>
    let l := intBody m d
    match val l.ty (l.ovf == .trap) (f.rd a l.ty) (f.bsrc l b) with
    | .error k => .raise (mkCause 2 k) (BitVec.ofNat 64 (f.raw a l.ty))
    | .ok q => .ok [.res 3 (f.wr d (l.ty.words (l.ty.wr .wrap q))) [] 0]

def execDiv (m : Mods LitInt) (d a b : RegIx) (s : State) : Host.Outcome State Fault Refusal :=
  s.divWord (.div m d a b) m d a b divVal
def execRem (m : Mods LitInt) (d a b : RegIx) (s : State) : Host.Outcome State Fault Refusal :=
  s.divWord (.rem m d a b) m d a b remVal

end Sys2Proof.Machine
end

