-- ==== Sys2Proof/Machine/SfuArith.lean ====
section
/-! DEFINITION. The approximated functions of the SFU: their special operands, and the free result kept within the bound of Table 10.6
(R189, R190). -/

namespace Sys2Proof

/-- 2^k as a result. -/
def pow2Res (k : Int) : FRes := .num false 1 k false

/-- An integer value, if the number is one. -/
def asInt (s : Bool) (m : Nat) (e : Int) : Option Int :=
  if 0 ≤ e then some (sgn s m * 2 ^ (min e.toNat 4096))
  else if Nat.log2 m + 1 < (-e).toNat && m != 0 then none
  else if m % 2 ^ (-e).toNat = 0 then some (sgn s (m / 2 ^ (-e).toNat)) else none

/-- The operation codes of class 9. -/
def sfuFrsq : BitVec 4 := 1
def sfuFex2 : BitVec 4 := 4
def sfuFlg2 : BitVec 4 := 5
def sfuFsin : BitVec 4 := 6
def sfuFcos : BitVec 4 := 7
def sfuFtnh : BitVec 4 := 8

/-- The exact cases of Table 10.7; none where the word approximates. -/
def sfuExact (op : BitVec 4) (a : FVal) : Option FRes :=
  match a with
  | .nan s => some (.nan (flagIf s fNV))
  | .inf s =>
    match op.toNat with
    | 1 => some (if s then .nan fNV else .num false 0 0 false)
    | 4 => some (if s then .num false 0 0 false else .inf false 0)
    | 5 => some (if s then .nan fNV else .inf false 0)
    | 8 => some (.num s 1 0 false)
    | _ => some (.nan fNV)
  | .fin s m e =>
    match op.toNat with
    | 1 => if m = 0 then some (.inf s fDZ) else if s then some (.nan fNV) else none
    | 4 => match asInt s m e with | some k => some (pow2Res k) | none => none
    | 5 =>
      if m = 0 then some (.inf true fDZ) else if s then some (.nan fNV)
      else if m = 2 ^ Nat.log2 m then
        let k : Int := Nat.log2 m + e
        some (.num (decide (k < 0)) k.natAbs 0 false)
      else none
    | 7 => if m = 0 then some (.num false 1 0 false) else none
    | _ => if m = 0 then some (.num s 0 0 false) else none

/-! ### The exact value, to 640 bits

A fixed-point number x stands for x × 2^−640. Every sum below is cut where its terms fall under one unit, so each value is within 2^−600
of the exact one, far below the bounds that it is used for. -/

def fxBits : Nat := 640
def fxOne : Int := 2 ^ fxBits
/-- The product and the quotient of fixed-point numbers. -/
def fxMul (x y : Int) : Int := x * y / fxOne
def fxDiv (x y : Int) : Int := x * fxOne / y

/-- A power series: n terms from t on, each the last times x, divided by the next of `div`, the terms counted with weight `w`. -/
def fxSeries (x : Int) (div w : Nat → Int) : Nat → Nat → Int → Int → Int
  | 0, _, _, acc => acc
  | n + 1, k, t, acc => fxSeries x div w n (k + 1) (fxMul t x / div k) (acc + t / w k)

/-- Artanh of x, |x| at most 1/3: x + x³/3 + x⁵/5 + … -/
def fxArtanh (x : Int) : Int := fxSeries (fxMul x x) (fun _ => 1) (fun k => 2 * (k : Int) + 1) 210 0 x 0
/-- ln 2 = 2 artanh(1/3). -/
def fxLn2 : Int := 2 * fxArtanh (fxOne / 3)
/-- arctan(1/n). -/
def fxArctan (n : Int) : Int := fxSeries (-(fxOne / (n * n))) (fun _ => 1) (fun k => 2 * (k : Int) + 1) 145 0 (fxOne / n) 0
/-- π = 16 arctan(1/5) − 4 arctan(1/239). -/
def fxPi : Int := 16 * fxArctan 5 - 4 * fxArctan 239
/-- e^x − 1, x in 0 to 1. -/
def fxExpm1 (x : Int) : Int := fxSeries x (fun k => (k : Int) + 2) (fun _ => 1) 130 0 x 0
/-- sin x and cos x, x in 0 to 2π. -/
def fxSin (x : Int) : Int := fxSeries (-(fxMul x x)) (fun k => (2 * (k : Int) + 2) * (2 * k + 3)) (fun _ => 1) 100 0 x 0
def fxCos (x : Int) : Int := fxSeries (-(fxMul x x)) (fun k => (2 * (k : Int) + 1) * (2 * k + 2)) (fun _ => 1) 100 0 fxOne 0
/-- ln x, x in 1 to 2. -/
def fxLn (x : Int) : Int := 2 * fxArtanh (fxDiv (x - fxOne) (x + fxOne))

/-- The exact value of an approximated function at a finite operand (−1)^s × m × 2^e other than those of Table 10.7: (v, k) for v × 2^k. -/
def sfuValue (op : BitVec 4) (s : Bool) (m : Nat) (e : Int) : Int × Int :=
  let x : Int := sgn s m * 2 ^ (fxBits + e).toNat
  let P : Int := fxBits
  match op.toNat with
  | 1 => (isqrt (2 ^ (2 * P - e).toNat / m) 720 0, -P)
  | 4 => (fxOne + fxExpm1 (fxMul (x % fxOne) fxLn2), x / fxOne - P)
  | 5 => ((Nat.log2 m + e) * fxOne + fxDiv (fxLn (m * 2 ^ (fxBits - Nat.log2 m))) fxLn2, -P)
  | 6 => (fxSin (x % (2 * fxPi)), -P)
  | 7 => (fxCos (x % (2 * fxPi)), -P)
  | _ =>
    let y : Int := 2 * x.natAbs
    let n := (y / fxLn2).toNat
    let g := 2 ^ n * (fxOne + fxExpm1 (y - n * fxLn2)) - fxOne
    let t := if 128 * fxOne ≤ y then fxOne - 1 else fxDiv g (g + 2 * fxOne)
    (if s then -t else t, -P)

/-! ### The bound (Table 10.6) -/

/-- Units in the last place that the bound allows, and whether 2^−22 absolute is allowed. -/
def sfuUlps (op : BitVec 4) : Nat := if op = sfuFrsq then 1 else 2
def sfuAbs (op : BitVec 4) : Bool := op == sfuFlg2 || op == sfuFsin || op == sfuFcos

/-- A candidate (−1)^t × n × 2^g lies within the bound of the exact value v × 2^k. -/
def sfuNear (op : BitVec 4) (v k : Int) (t : Bool) (n : Nat) (g : Int) : Bool :=
  let u : Int := max (Nat.log2 v.natAbs + k - 23) fmtF32.qmin
  let low := min (min k g) (min u (-22))
  let at' (x y : Int) : Int := x * 2 ^ (y - low).toNat
  let bound := max (at' (sfuUlps op) u) (if sfuAbs op then at' 1 (-22) else 0)
  decide (((at' (sgn t n) g - at' v k).natAbs : Int) ≤ bound)

/-- The `.f32` function of a value (its `.f32` bits given): the free result where it lies within the bound, else the exact value rounded to
nearest; a value that rounds past the format or to zero follows R113. NX for every finite approximated result; UF, and the zero of `.ftz`,
where the exact value is tiny, whichever result within the bound is delivered (R113 does not say which of the two is judged: DESIGN CHOICE,
log 6). -/
def sfuF32 (op : BitVec 4) (ftz : Bool) (a : FVal) (bits : Nat) : Nat × FFlags :=
  match sfuExact op a, a with
  | some r, _ => fmtF32.finish .rne ftz r
  | none, .fin s m e =>
    let (v, k) := sfuValue op s m e
    let exact := fmtF32.finish .rne ftz (.num (decide (v < 0)) v.natAbs k true)
    let r := fmtF32.round .rne 0 (decide (v < 0)) v.natAbs k true
    if r.ovf || r.n == 0 || (r.tiny && ftz) then exact
    else match fmtF32.decode (Config.sfu op (BitVec.ofNat 32 bits)).toNat with
      | .fin t n g =>
        if sfuNear op v k t n g then ((fmtF32.finish .rne false (.num t n g false)).1, flagIf r.tiny fUF ||| fNX)
        else exact
      | .inf t => if sfuNear op v k t 1 128 then (fmtF32.signBit t + fmtF32.infCode, fOF ||| fNX) else exact
      | .nan _ => exact
  | none, _ => (fmtF32.nanCode, 0)

end Sys2Proof
end

