-- ==== Sys2Proof/Machine/Float.lean ====
section
/-! DEFINITION. The meanings of the floating-point words: classes FADD, FMUL, FCVT, FDOT, F64 and SFU (R173 to R192). -/

namespace Sys2Proof

/-- The exact result of an element, rounded by the word's LIT fields (R110, R113, R114). -/
def LitFlt.fin (l : LitFlt) (t : Ty) (r : FRes) : Nat × FFlags := t.fmt.finish l.rnd l.den.ftzOn r

end Sys2Proof

namespace Sys2Proof.Machine

/-! ### Operands and results (R173) -/


/-- The raw elements of the operand in field k. -/
def Fibre.elems (f : Fibre) (k : RegIx) (t : Ty) : List Nat := elemsOf t (rawOf (f.run k t.regs))
/-- `Src(k, e)` for each element e, `.daz` applied (R114). -/
def Fibre.fsrc (f : Fibre) (t : Ty) (den : Den) (k : RegIx) : List FVal := (f.elems k t).map fun x => t.fmt.daz den.dazOn (t.fmt.decode x)
/-- Operand B, or the immediate in each element. -/
def Fibre.fbsrc (f : Fibre) (t : Ty) (l : LitFlt) (b : RegIx) : List FVal :=
  match l with
  | .fimm v => List.replicate t.lanes (fimmVal v)
  | .fields .. => f.fsrc t l.den b

/-- The effect of element results on field D: the elements joined, their flags together. -/
def Fibre.fres (f : Fibre) (cls : Nat) (t : Ty) (d : RegIx) (rs : List (Nat × FFlags)) : Fx :=
  .res cls (f.wr d (regWords t.regs (joinElems t (rs.map (·.1))))) [] (Sys2Proof.orFlags rs)

/-- A word of element results; `val` takes the fibre, the LIT body, the type and the third register X. `dt`: the default type. -/
def State.fltWord (s : State) (i : Instr) (m : Mods LitFlt) (dt : Ty) (cls : Nat) (d : RegIx)
    (val : Fibre → LitFlt → Ty → RegIx → List (Nat × FFlags)) : Host.Outcome State Fault Refusal :=
  s.word i m fun f og =>
    let l := fltBody m dt .s32 d
    .ok [f.fres cls (l.ty dt) d (val f l (l.ty dt) (m.xf og.pin d))]

/-- A word of one operand. -/
def State.flt1 (s : State) (i : Instr) (m : Mods LitFlt) (cls : Nat) (d a : RegIx) (op : LitFlt → Ty → FVal → Nat × FFlags) :
    Host.Outcome State Fault Refusal :=
  s.fltWord i m .f32 cls d fun f l t _ => (f.fsrc t l.den a).map (op l t)

/-- A word of two operands. -/
def State.flt2 (s : State) (i : Instr) (m : Mods LitFlt) (dt : Ty) (cls : Nat) (d a b : RegIx)
    (op : LitFlt → Ty → FVal → FVal → Nat × FFlags) : Host.Outcome State Fault Refusal :=
  s.fltWord i m dt cls d fun f l t _ => List.zipWith (op l t) (f.fsrc t l.den a) (f.fbsrc t l b)

/-- `ffma`: three operands (R175). -/
def State.flt3 (s : State) (i : Instr) (m : Mods LitFlt) (dt : Ty) (cls : Nat) (d a b : RegIx) : Host.Outcome State Fault Refusal :=
  s.fltWord i m dt cls d fun f l t x =>
    List.zipWith (fun (p : FVal × FVal) z => l.fin t (fFma l.rnd p.1 p.2 z)) ((f.fsrc t l.den a).zip (f.fbsrc t l b)) (f.fsrc t l.den x)

/-- `fcmp`: element 0 decides one predicate (R178). -/
def State.fltCmp (s : State) (i : Instr) (m : Mods LitFlt) (dt : Ty) (cls : Nat) (p : BitVec 3) (a b : RegIx) :
    Host.Outcome State Fault Refusal :=
  s.word i m fun f _ =>
    let l := fltBody m dt .s32 (predField p)
    let t := l.ty dt
    let x := (f.fsrc t l.den a).headD (.nan false)
    let y := (f.fbsrc t l b).headD (.nan false)
    .ok [.res cls [] [(p.toNat, fCmp l.sel.toNat x y)] (flagIf (x.isSig || y.isSig) fNV)]

/-! ### The element operations (R175 to R177) -/

def elAdd (l : LitFlt) (t : Ty) (a b : FVal) : Nat × FFlags := l.fin t (fAdd l.rnd a b)
def elSub (l : LitFlt) (t : Ty) (a b : FVal) : Nat × FFlags := l.fin t (fAdd l.rnd a b.neg)
def elMul (l : LitFlt) (t : Ty) (a b : FVal) : Nat × FFlags := l.fin t (fMul a b)
def elDiv (l : LitFlt) (t : Ty) (a b : FVal) : Nat × FFlags := l.fin t (fDiv a b)
/-- `fmin` and `fmax`: a signalling NaN raises NV beside the flags of the flush. -/
def elMinMax (isMax : Bool) (l : LitFlt) (t : Ty) (a b : FVal) : Nat × FFlags :=
  let r := l.fin t (fMinMax isMax a b)
  (r.1, r.2 ||| fMinMaxNv a b)

/-! ### FADD and FMUL (R175 to R180) -/

def execFadd (m : Mods LitFlt) (d a b : RegIx) (s : State) : Host.Outcome State Fault Refusal :=
  s.flt2 (.fadd m d a b) m .f32 4 d a b elAdd
def execFsub (m : Mods LitFlt) (d a b : RegIx) (s : State) : Host.Outcome State Fault Refusal :=
  s.flt2 (.fsub m d a b) m .f32 4 d a b elSub
def execFmin (m : Mods LitFlt) (d a b : RegIx) (s : State) : Host.Outcome State Fault Refusal :=
  s.flt2 (.fmin m d a b) m .f32 4 d a b (elMinMax false)
def execFmax (m : Mods LitFlt) (d a b : RegIx) (s : State) : Host.Outcome State Fault Refusal :=
  s.flt2 (.fmax m d a b) m .f32 4 d a b (elMinMax true)
def execFcmp (m : Mods LitFlt) (p : BitVec 3) (a b : RegIx) (s : State) : Host.Outcome State Fault Refusal :=
  s.fltCmp (.fcmp m p a b) m .f32 4 p a b
/-- The class masks of R179, element 1's from bit 16. -/
def execFcls (m : Mods LitFlt) (d a : RegIx) (s : State) : Host.Outcome State Fault Refusal :=
  s.word (.fcls m d a) m fun f _ =>
    let t := (fltBody m .f32 .s32 d).ty .f32
    let v := ((f.elems a t).zipIdx.map fun (x, e) => 2 ^ fClass t.fmt x * 2 ^ (16 * e)).sum
    .ok [.res 4 (f.wr d [BitVec.ofNat 32 v]) [] 0]
def execFmul (m : Mods LitFlt) (d a b : RegIx) (s : State) : Host.Outcome State Fault Refusal :=
  s.flt2 (.fmul m d a b) m .f32 5 d a b elMul
def execFfma (m : Mods LitFlt) (d a b : RegIx) (s : State) : Host.Outcome State Fault Refusal :=
  s.flt3 (.ffma m d a b) m .f32 5 d a b
/-- `fscl`: both elements by the same n (R176). -/
def execFscl (m : Mods LitFlt) (d a b : RegIx) (s : State) : Host.Outcome State Fault Refusal :=
  s.fltWord (.fscl m d a b) m .f32 5 d fun f l t _ => (f.fsrc t l.den a).map fun x => l.fin t (fScale x (f.V b).toInt)

/-! ### F64 (R183) -/

def execFaddF64 (m : Mods LitFlt) (d a b : RegIx) (s : State) : Host.Outcome State Fault Refusal :=
  s.flt2 (.faddF64 m d a b) m .f64 8 d a b elAdd
def execFsubF64 (m : Mods LitFlt) (d a b : RegIx) (s : State) : Host.Outcome State Fault Refusal :=
  s.flt2 (.fsubF64 m d a b) m .f64 8 d a b elSub
def execFmulF64 (m : Mods LitFlt) (d a b : RegIx) (s : State) : Host.Outcome State Fault Refusal :=
  s.flt2 (.fmulF64 m d a b) m .f64 8 d a b elMul
def execFfmaF64 (m : Mods LitFlt) (d a b : RegIx) (s : State) : Host.Outcome State Fault Refusal :=
  s.flt3 (.ffmaF64 m d a b) m .f64 8 d a b
def execFminF64 (m : Mods LitFlt) (d a b : RegIx) (s : State) : Host.Outcome State Fault Refusal :=
  s.flt2 (.fminF64 m d a b) m .f64 8 d a b (elMinMax false)
def execFmaxF64 (m : Mods LitFlt) (d a b : RegIx) (s : State) : Host.Outcome State Fault Refusal :=
  s.flt2 (.fmaxF64 m d a b) m .f64 8 d a b (elMinMax true)
def execFcmpF64 (m : Mods LitFlt) (p : BitVec 3) (a b : RegIx) (s : State) : Host.Outcome State Fault Refusal :=
  s.fltCmp (.fcmpF64 m p a b) m .f64 8 p a b

/-! ### FCVT (R184 to R188) -/

/-- A scalar's value in a source type: an integer, a binary value with `.daz`, or a narrow code (R185). -/
def cvtSource (t : Ty) (den : Den) (x : Nat) : FVal :=
  if t.isI then (let v := t.num x; .fin (decide (v < 0)) v.natAbs 0)
  else if t.isNarrow then t.fmt.decode x
  else t.fmt.daz den.dazOn (t.fmt.decode x)

/-- A scalar conversion: the words of the destination and the flags (R185, R120, R121). -/
def cvtScalar (l : LitFlt) (t : Ty) (r : Nat) (v : FVal) : List Word × FFlags :=
  if t.isI then (let x := cvtToInt t l.rnd v; (t.words (modPow t.bits x.1), x.2))
  else if t.isNarrow then (let x := cvtToNarrow t.fmt l.rnd r l.nan v; (regWords 1 x.1, x.2))
  else (let x := l.fin t (fScale v 0); (regWords t.regs x.1, x.2))

/-- The 16 binary elements of a block operand (Table 10.5). -/
def Fibre.blockElems (f : Fibre) (t : Ty) (k : RegIx) : List Nat :=
  (f.run k (blockRun t)).flatMap fun w => elemsOf t w.toNat
/-- The registers of 16 binary elements. -/
def blockWords (t : Ty) (es : List Nat) : List Word := regWords (blockRun t) (packCodes t.bits es)
/-- The 16 codes and the scale byte of a block operand (Table 10.5). -/
def Fibre.blockCodes (f : Fibre) (t : Ty) (k : RegIx) : List Nat × Nat :=
  let ws := f.run k (blockRun t)
  (unpackCodes t.bits 16 (rawOf (ws.take (blockRun t - 1))), (ws.getLastD 0).toNat % 256)

/-- A block conversion to a narrow kind or to NL4 (R187). -/
def cvtToBlock (l : LitFlt) (t : Ty) (r : Nat) (xs : List FVal) : List Word × FFlags :=
  let (cs, sc, fl) := if t = .nl4 then cvtBlockNl4 l.sel.toNat l.rnd r xs else cvtBlockE8m0 t.fmt l.rnd r l.nan xs
  (regWords (blockRun t - 1) (packCodes t.bits cs) ++ [BitVec.ofNat 32 sc], fl)
/-- A block conversion from a narrow kind or from NL4: one rounding each; a NaN scale gives NaNs without a flag (R187). -/
def cvtFromBlock (l : LitFlt) (t st : Ty) (cs : List Nat × Nat) : List Word × FFlags :=
  let rs := cs.1.map fun c =>
    if cs.2 = 255 then (t.fmt.nanCode, 0) else l.fin t (fScale (narrowVal st cs.2 c) (scaleExp st cs.2))
  (blockWords t (rs.map (·.1)), Sys2Proof.orFlags rs)

def execFcvt (m : Mods LitFlt) (d a : RegIx) (s : State) : Host.Outcome State Fault Refusal :=
  s.word (.fcvt m d a) m fun f og =>
    let l := fltBody m .f32 .s32 d
    let t := l.ty .f32
    let st := l.stype .s32
    let r := (f.V (m.xf og.pin d)).toNat
    let out :=
      if cvtBlock st t l.sel.toNat then
        if t.isNarrow || t == .nl4 then cvtToBlock l t r ((f.blockElems st a).map fun x => st.fmt.daz l.den.dazOn (st.fmt.decode x))
        else cvtFromBlock l t st (f.blockCodes st a)
      else cvtScalar l t r (cvtSource st l.den (f.raw a st))
    .ok [.res 6 (f.wr d out.1) [] out.2]

def execFrnd (m : Mods LitFlt) (d a : RegIx) (s : State) : Host.Outcome State Fault Refusal :=
  s.flt1 (.frnd m d a) m 6 d a fun l t x =>
    let r := fRnd l.rnd (l.sel == 1) x
    let y := l.fin t r.1
    (y.1, y.2 ||| r.2)

/-! ### FDOT (R181, R182) -/

/-- The accumulator and the exact sum of products, rounded once. -/
def dotWord (f : Fibre) (l : LitFlt) (d x : RegIx) (ps : List (FVal × FVal)) : WordOut :=
  let c := (f.fsrc .f32 l.den x).headD (.nan false)
  .ok [f.fres 7 .f32 d [l.fin .f32 (fDot l.rnd c ps)]]

def execFdot2 (m : Mods LitFlt) (d a b : RegIx) (s : State) : Host.Outcome State Fault Refusal :=
  s.word (.fdot2 m d a b) m fun f og =>
    let l := fltBody m .f32 .bf16 d
    let st := l.stype .bf16
    dotWord f l d (m.xf og.pin d) ((f.fsrc st l.den a).zip (f.fsrc st l.den b))

/-- The 8-bit kind that `.mix` reads B in. -/
def otherKind (t : Ty) : Ty := if t = .e4m3 then .e5m2 else .e4m3
def execFdot4 (m : Mods LitFlt) (d a b : RegIx) (s : State) : Host.Outcome State Fault Refusal :=
  s.word (.fdot4 m d a b) m fun f og =>
    let l := fltBody m .f32 .e4m3 d
    let st := l.stype .e4m3
    let tb := if l.sel = 1 then otherKind st else st
    let codes (t : Ty) (k : RegIx) : List FVal := (unpackCodes 8 4 (f.V k).toNat).map t.fmt.decode
    dotWord f l d (m.xf og.pin d) ((codes st a).zip (codes tb b))

/-! ### SFU (R189, R190) -/

/-- An approximated function: the `.f32` function of the widened element, rounded to nearest even to the type. For `.h16` and `.bf16` the flags
are those of both steps, the `.f32` result's and the rounding's (R189 names neither: DESIGN CHOICE, log 6). -/
def sfuElem (op : BitVec 4) (l : LitFlt) (t : Ty) (x : FVal) : Nat × FFlags :=
  let bits := (fmtF32.finish .rne false (fScale x 0)).1
  if t = .f32 then sfuF32 op l.den.ftzOn x bits
  else
    let y := sfuF32 op false x bits
    let z := t.fmt.finish .rne l.den.ftzOn (fScale (fmtF32.decode y.1) 0)
    (z.1, z.2 ||| y.2)

/-- The number one. -/
def fOne : FVal := .fin false 1 0

def execFrcp (m : Mods LitFlt) (d a : RegIx) (s : State) : Host.Outcome State Fault Refusal :=
  s.flt1 (.frcp m d a) m 9 d a fun l t x => l.fin t (fDiv fOne x)
def execFrsq (m : Mods LitFlt) (d a : RegIx) (s : State) : Host.Outcome State Fault Refusal :=
  s.flt1 (.frsq m d a) m 9 d a (sfuElem sfuFrsq)
def execFsqrt (m : Mods LitFlt) (d a : RegIx) (s : State) : Host.Outcome State Fault Refusal :=
  s.flt1 (.fsqrt m d a) m 9 d a fun l t x => l.fin t (fSqrt x)
def execFdiv (m : Mods LitFlt) (d a b : RegIx) (s : State) : Host.Outcome State Fault Refusal :=
  s.flt2 (.fdiv m d a b) m .f32 9 d a b elDiv
def execFex2 (m : Mods LitFlt) (d a : RegIx) (s : State) : Host.Outcome State Fault Refusal :=
  s.flt1 (.fex2 m d a) m 9 d a (sfuElem sfuFex2)
def execFlg2 (m : Mods LitFlt) (d a : RegIx) (s : State) : Host.Outcome State Fault Refusal :=
  s.flt1 (.flg2 m d a) m 9 d a (sfuElem sfuFlg2)
def execFsin (m : Mods LitFlt) (d a : RegIx) (s : State) : Host.Outcome State Fault Refusal :=
  s.flt1 (.fsin m d a) m 9 d a (sfuElem sfuFsin)
def execFcos (m : Mods LitFlt) (d a : RegIx) (s : State) : Host.Outcome State Fault Refusal :=
  s.flt1 (.fcos m d a) m 9 d a (sfuElem sfuFcos)
def execFtnh (m : Mods LitFlt) (d a : RegIx) (s : State) : Host.Outcome State Fault Refusal :=
  s.flt1 (.ftnh m d a) m 9 d a (sfuElem sfuFtnh)

end Sys2Proof.Machine
end

