-- ==== Sys2Proof/Machine/Memory.lean ====
section
/-! DEFINITION. The meanings of the memory, stash and fence words: classes LDG, STG, ATOM, STASH and FENCE (R231 to R249). -/

namespace Sys2Proof.Machine

/-! ### The checks of a global access (Table 13.1) -/

/-- Steps 3 to 6 of Table 13.1 for n bytes at an address; `writes`: a store or an atomic. -/
def State.access (s : State) (f : Fibre) (a : GAddr) (n : Nat) (writes : Bool) (k : Target → WordOut) : WordOut :=
  match s.spaceFault (s.ctxOf f) a.space with
  | some c => .raise c (a.space.setWidth 64)
  | none =>
    if a.off.toNat % n ≠ 0 then .raise (mkCause 3 0) a.off
    else if s.lockMeets f a n writes then .raise (mkCause 7 1) a.off
    else match s.translate (s.hearthOf f) (s.ctxOf f) writes.toNat a a.off with
      | .ok t => k t
      | .fault c tv => .raise c tv
      | .miss => .wait (s.missWait f writes.toNat a)

/-- An ordering's scope, widened to the memory it touches (R208). -/
def Target.widen (t : Target) (sc : Scope) : Scope :=
  match t with
  | .dev _ => sc
  | .host _ => sc.widen .nod
  | .peer _ _ => sc.widen .per

/-- `Addr(s, A, Lit.off)` of a memory word (R231). -/
def Fibre.memAddr (f : Fibre) (l : LitMem) (a : RegIx) : GAddr := f.addr l.space a l.off.toInt

/-- The request of a word on field D and data operand B, with its acquire. -/
def Fibre.memReq (f : Fibre) (kind : MemKind) (l : LitMem) (d a : RegIx) (data expect : Nat) (hoist : Bool) (t : Target) : MemReq :=
  { kind := kind, addr := f.memAddr l a, target := t, ty := l.ty, dst := f.abs d, data := data, expect := expect,
    acq := if l.ord.hasAcq then some (t.widen l.scope) else none, hoist := hoist }

/-- A memory word's effects: its release, where it has one, then its access (R214, R238, R240). -/
def memFx (l : LitMem) (r : MemReq) : List Fx :=
  if l.ord.hasRel then [.release (r.target.widen l.scope), .mem r] else [.mem r]

/-- What a load or an atomic returns is poisoned as it issues (Table 13.1, step 7): no L1 copy from before the poison serves it. -/
def State.meetsPoison (s : State) (f : Fibre) (r : MemReq) : Bool :=
  s.poisonedFor (s.slotOf f).node r.target r.size && match r.kind, r.target with
    | .load, .dev pa => ((s.l1Live (s.hearthOf f) (pa / 64)).filter fun c => decide (f.lastAt (pa / 64) ≤ c.stamp)).isNone
    | _, _ => true

/-- A load or an atomic after steps 3 to 6: poison that it meets at issue raises at the word (R38, R232); poison that comes while it is in
flight is raised when it returns (log 35). -/
def State.returning (s : State) (f : Fibre) (l : LitMem) (r : MemReq) (pre : List Fx) : WordOut :=
  if s.meetsPoison f r then .raise (mkCause 10 0) r.addr.off else .ok (pre ++ memFx l r)

/-! ### LDG (R235 to R237) -/

def execLd (m : Mods LitMem) (d a : RegIx) (s : State) : Host.Outcome State Fault Refusal :=
  s.word (.ld m d a) m fun f _ =>
    let l := m.body .dflt
    s.access f (f.memAddr l a) (l.ty.bits / 8) false fun t => s.returning f l (f.memReq .load l d a 0 0 false t) []
def execLdh (m : Mods LitMem) (d a : RegIx) (s : State) : Host.Outcome State Fault Refusal :=
  s.word (.ldh m d a) m fun f _ =>
    let l := m.body .dflt
    s.access f (f.memAddr l a) (l.ty.bits / 8) false fun t => s.returning f l (f.memReq .load l d a 0 0 true t) []

/-- An earlier effect of the group makes a hoist entry invalid: a write of its registers, or a store or atomic over its bytes
(Table 12.6). -/
def HoistEntry.struck (h : HoistEntry) (x : Fx) : Bool :=
  (x.writes.1.any fun r => decide (h.reg ≤ r) && decide (r < h.reg + max 1 (h.size / 4)))
    || match x with | .mem r => r.kind.writes && r.target.overlaps r.size h.target h.size | _ => false

/-- A `chkh` keeps the value: a valid entry, which the words of its group before it leave valid (R236). -/
def State.hoistKept (s : State) (f : Fibre) (og : OpenGroup) (d : RegIx) (l : LitMem) (a : RegIx) : Bool :=
  match s.hoistEntry f (f.abs d) (f.memAddr l a) (l.ty.bits / 8) with
  | some h => og.fx.all fun x => !h.struck x
  | none => false

/-- `chkh` (R236): a valid entry keeps the value; else it loads. The entry leaves in both cases (Table 12.6). -/
def execChkh (m : Mods LitMem) (d a : RegIx) (s : State) : Host.Outcome State Fault Refusal :=
  s.word (.chkh m d a) m fun f og =>
    let l := m.body .dflt
    if s.hoistKept f og d l a then .ok [.unhoist (f.abs d)]
    else s.access f (f.memAddr l a) (l.ty.bits / 8) false fun t => s.returning f l (f.memReq .load l d a 0 0 false t) [.unhoist (f.abs d)]
/-- `pref` (R237): past the register checks it raises nothing. -/
def execPref (m : Mods LitMem) (a : RegIx) (s : State) : Host.Outcome State Fault Refusal :=
  s.word (.pref m a) m fun f _ => .ok [.pref (f.memAddr (m.body .dflt) a)]

/-! ### STG (R238) -/

def execSt (m : Mods LitMem) (a b : RegIx) (s : State) : Host.Outcome State Fault Refusal :=
  s.word (.st m a b) m fun f _ =>
    let l := m.body .dflt
    s.access f (f.memAddr l a) (l.ty.bits / 8) true fun t => .ok (memFx l (f.memReq .store l 0 a (f.raw b l.ty) 0 false t))

/-! ### ATOM (R239, R240) -/

/-- An atomic on operand B; D is read as the expected value. -/
def State.atomWord (s : State) (i : Instr) (op : AtomOp) (m : Mods LitMem) (d a b : RegIx) : Host.Outcome State Fault Refusal :=
  s.word i m fun f _ =>
    let l := m.body .dflt
    s.access f (f.memAddr l a) (l.ty.bits / 8) true fun t =>
      s.returning f l (f.memReq (.atom op) l d a (f.raw b l.ty) (f.raw d l.ty) false t) []

def execAtomAdd (m : Mods LitMem) (d a b : RegIx) (s : State) : Host.Outcome State Fault Refusal :=
  s.atomWord (.atomAdd m d a b) .add m d a b
def execAtomMin (m : Mods LitMem) (d a b : RegIx) (s : State) : Host.Outcome State Fault Refusal :=
  s.atomWord (.atomMin m d a b) .min m d a b
def execAtomMax (m : Mods LitMem) (d a b : RegIx) (s : State) : Host.Outcome State Fault Refusal :=
  s.atomWord (.atomMax m d a b) .max m d a b
def execAtomAnd (m : Mods LitMem) (d a b : RegIx) (s : State) : Host.Outcome State Fault Refusal :=
  s.atomWord (.atomAnd m d a b) .and m d a b
def execAtomOr (m : Mods LitMem) (d a b : RegIx) (s : State) : Host.Outcome State Fault Refusal :=
  s.atomWord (.atomOr m d a b) .or m d a b
def execAtomXor (m : Mods LitMem) (d a b : RegIx) (s : State) : Host.Outcome State Fault Refusal :=
  s.atomWord (.atomXor m d a b) .xor m d a b
def execAtomXch (m : Mods LitMem) (d a b : RegIx) (s : State) : Host.Outcome State Fault Refusal :=
  s.atomWord (.atomXch m d a b) .xch m d a b
def execAtomCas (m : Mods LitMem) (d a b : RegIx) (s : State) : Host.Outcome State Fault Refusal :=
  s.atomWord (.atomCas m d a b) .cas m d a b
def execAtomIncw (m : Mods LitMem) (d a b : RegIx) (s : State) : Host.Outcome State Fault Refusal :=
  s.atomWord (.atomIncw m d a b) .incw m d a b
def execAtomDecw (m : Mods LitMem) (d a b : RegIx) (s : State) : Host.Outcome State Fault Refusal :=
  s.atomWord (.atomDecw m d a b) .decw m d a b
def execAtomFadd (m : Mods LitMem) (d a b : RegIx) (s : State) : Host.Outcome State Fault Refusal :=
  s.atomWord (.atomFadd m d a b) .fadd m d a b

/-! ### STASH (R241 to R248) -/

/-- The byte offset of `lds` and `sts` (R241). -/
def Fibre.stashOff (f : Fibre) (l : LitStash) (a : RegIx) : Nat := ((f.V a).toNat + l.off.toNat) % 2 ^ 32

/-- The checks of `lds` and `sts` (R242); a mapped line that is not filled holds the word until its fill (R205). A fault of the fill is the
word's, at its group's head and in its repetition (R38, R91). -/
def State.stashAccess (s : State) (f : Fibre) (og : OpenGroup) (l : LitStash) (a : RegIx) (k : Nat → StashLine → WordOut) : WordOut :=
  let c := s.cohortOf f
  let o := f.stashOff l a
  let n := l.ty.bits / 8
  if 128 * c.decl.lines < o + n then .raise (mkCause 1 2) (BitVec.ofNat 64 o)
  else if o % n ≠ 0 then .raise (mkCause 3 1) (BitVec.ofNat 64 o)
  else
    let line := c.line (o / 128)
    if line.mapped.isSome && !line.filled (s.cohortTime c) then
      .wait (s.updFibre f.uid fun f => { f with waits := f.waits ++ [.mapFill (o / 128)], head := og.head, rep := og.repeating })
    else k o line

/-- The stash words of a group so far. -/
def stashOps (fx : List Fx) : List StashOp := fx.filterMap fun x => match x with | .stash op => some op | _ => none
/-- A line is mapped as the earlier words of its group leave it (R84, R243). -/
def Cohort.mappedAfter (c : Cohort) (fx : List Fx) (n : Nat) : Bool :=
  (stashOps fx).foldl (fun b op => match op with
    | .smap .. => b || op.covers n
    | .sumap .. => b && !op.covers n
    | _ => b) (c.line n).mapped.isSome

def execLds (m : Mods LitStash) (d a : RegIx) (s : State) : Host.Outcome State Fault Refusal :=
  s.word (.lds m d a) m fun f og =>
    let l := m.body .dflt
    s.stashAccess f og l a fun o line =>
      if line.poison then .raise (mkCause 10 2) (BitVec.ofNat 64 o) else .ok [.stash (.lds o l.ty (f.abs d))]
def execSts (m : Mods LitStash) (a b : RegIx) (s : State) : Host.Outcome State Fault Refusal :=
  s.word (.sts m a b) m fun f og =>
    let l := m.body .dflt
    s.stashAccess f og l a fun o _ => .ok [.stash (.sts o l.ty (f.raw b l.ty))]

/-- The checks of R241 on a line-range word (Table 13.5); `e`: the operation has an E bit. Passes the first line, the count and E. -/
def State.lineRange (s : State) (f : Fibre) (l : LitStash) (a : RegIx) (e : Bool) (k : Nat → Nat → Bool → WordOut) : WordOut :=
  let w := f.V a
  let tv : DWord := w.setWidth 64
  let count := w.toNat / 2 ^ 20
  let o := w.toNat % 2 ^ 19 + l.off.toNat
  if 3072 ≤ count then .raise (mkCause 7 2) tv
  else if w.getLsbD 19 && !e then .raise (mkCause 7 2) tv
  else if o % 128 ≠ 0 then .raise (mkCause 7 2) tv
  else if (s.cohortOf f).decl.lines < o / 128 + (count + 1) then .raise (mkCause 1 2) (BitVec.ofNat 64 o)
  else k (o / 128) (count + 1) (w.getLsbD 19)

/-- The bytes of a cohort's stash that engine commands not yet complete write: offset and length (R244). Those of earlier words of the group
are not issued yet and do not count (DESIGN CHOICE, log 103). -/
def State.engineDests (s : State) (cohort : Nat) : List (Nat × Nat) :=
  s.cmds.filterMap fun c =>
    let co := s.cmdCohort c
    match c.op with
    | .cpyStash o h _ => if c.cohort = cohort then some (o, (s.cmdLayout c h).bytes) else none
    | .cpyl o _ n => if c.cohort = cohort then some (o, n) else none
    | .cpym o _ n => if (s.receivers c).any (·.uid == cohort) then some (o, n) else none
    | .tstTile t o => if c.cohort = cohort then some (o, T co t) else none
    | .tstAcc _ o => if c.cohort = cohort then some (o, 16384) else none
    | _ => none

/-- `smap` (R244). -/
def execSmap (m : Mods LitStash) (a b : RegIx) (s : State) : Host.Outcome State Fault Refusal :=
  s.word (.smap m a b) m fun f og =>
    let l := m.body .dflt
    let c := s.cohortOf f
    s.lineRange f l a false fun first count _ =>
      let g := f.addr l.space b 0
      let dests := s.engineDests f.cohort
      let busy (n : Nat) : Bool := c.mappedAfter og.fx n || dests.any fun d => decide (d.1 < 128 * (n + 1)) && decide (128 * n < d.1 + d.2)
      if spaceKind g.space = 1 then .raise (mkCause 7 5) (g.space.setWidth 64)
      else match s.spaceFault (s.ctxOf f) g.space with
        | some k => .raise k (g.space.setWidth 64)
        | none =>
          if g.off.toNat % 128 ≠ 0 ∨ 2 ^ 64 < g.off.toNat + 128 * count then .raise (mkCause 7 2) ((f.V a).setWidth 64)
          else match firstLine first count busy with
            | some n => .raise (mkCause 7 3) (BitVec.ofNat 64 n)
            | none => .ok [.stash (.smap first count g)]

def execSumap (m : Mods LitStash) (a : RegIx) (s : State) : Host.Outcome State Fault Refusal :=
  s.word (.sumap m a) m fun f _ => s.lineRange f (m.body .dflt) a false fun first count _ => .ok [.stash (.sumap first count)]
def execSflush (m : Mods LitStash) (a : RegIx) (s : State) : Host.Outcome State Fault Refusal :=
  s.word (.sflush m a) m fun f _ => s.lineRange f (m.body .dflt) a false fun first count _ => .ok [.stash (.sflush first count)]
/-- `sfe` (R246): a mapped line in the range raises 7.02. -/
def execSfe (m : Mods LitStash) (a : RegIx) (s : State) : Host.Outcome State Fault Refusal :=
  s.word (.sfe m a) m fun f og =>
    s.lineRange f (m.body .dflt) a true fun first count e =>
      if (firstLine first count fun n => (s.cohortOf f).mappedAfter og.fx n).isSome then .raise (mkCause 7 2) ((f.V a).setWidth 64)
      else .ok [.stash (.sfe first count e (f.V a))]
def execTfe (m : Mods LitStash) (p : BitVec 3) (a : RegIx) (s : State) : Host.Outcome State Fault Refusal :=
  s.word (.tfe m p a) m fun f _ => s.lineRange f (m.body .dflt) a true fun first count e => .ok [.stash (.tfe first count e p)]

/-! ### FENCE (R249, R216) -/

/-- The steps of a fence, by its ordering. -/
def fenceFx (l : LitFence) : List Fx :=
  (if l.ord.hasRel then [.release l.scope] else []) ++ (if l.ord.hasAcq then [.acquireLoads l.scope] else [])
    ++ (if l.ord = .sc then [.sequence l.scope] else [])

def execFence (m : Mods LitFence) (s : State) : Host.Outcome State Fault Refusal :=
  s.word (.fence m) m fun _ _ => .ok (fenceFx (m.body .dflt))

end Sys2Proof.Machine
end

