-- ==== Sys2Proof/Machine/Spawn.lean ====
section
/-! DEFINITION. The meanings of the words of class SPAWN: children, ranges, joins and watchpoints (R263 to R290). -/

namespace Sys2Proof.Machine

/-! ### Checks (R264) -/

/-- An address that must lie in this device's memory: cause 3.08 for a reserved space ID, 3.`other` for a peer or a host range, 3.00 where
it is not a multiple of `align`. -/
def ownFault (a : GAddr) (align other : Nat) : Option (Cause × DWord) :=
  if spaceKind a.space = 3 ∨ (spaceKind a.space = 0 ∧ spaceNum a.space ≠ 0) then some (mkCause 3 8, a.space.setWidth 64)
  else if spaceKind a.space ≠ 0 then some (mkCause 3 other, a.off)
  else if a.off.toNat % align ≠ 0 then some (mkCause 3 0, a.off)
  else none

/-- The first fault of a list of addresses, then the rest. -/
def firstFault (l : List (Option (Cause × DWord))) (k : WordOut) : WordOut :=
  match l.findSome? id with
  | some (c, tv) => .raise c tv
  | none => k

/-- A join address: 0 in its low 64 bits means no join, which is not checked. -/
def joinFault (a : GAddr) : Option (Cause × DWord) := if a.off = 0 then none else ownFault a 8 10

/-- The scope of a placement. -/
def placeScope (p : BitVec 2) : Scope := match p.toNat with | 0 => .hth | 1 => .qd | 2 => .die | _ => .dev

/-- REGS of the entry whose PC is e among the bytes of the entry directory (Table 15.1). -/
def dirLookup (bs : List Byte) (e : Word) : Option Nat :=
  ((List.range 128).findSome? fun i =>
    let d := leNat ((bs.drop (8 * i)).take 8)
    if d / 2 ^ 32 = e.toNat ∧ d % 512 ≠ 0 then some (d % 512) else none)

/-- The entry of a class 19 word and its REGS, then the checks of the word's register block (R264); `extra`: the registers that the form fills before
the payload (R265, R273). -/
def State.entryOf (s : State) (f : Fibre) (og : OpenGroup) (i : Instr) (l : LitSpawn) (b : RegIx) (extra : Nat) (k : Word → Nat → WordOut) : WordOut :=
  let e := if l.ereg then f.V b else og.here + l.entry.signExtend 32
  let at' := (s.slotOf f).record.codeBase - 1536
  match s.codeAt f og.head at' 1024 with
  | .fault c tv => .raise c tv
  | .miss => .wait (s.missWait f 2 ⟨0, BitVec.ofNat 64 at'⟩)
  | .found pa =>
    match dirLookup (s.codeBytes (s.slotOf f) pa 1024) e with
    | none => .raise (mkCause 11 0) (e.setWidth 64)
    | some regs =>
      if regs < extra + l.npay.toNat then .raise (mkCause 11 1) (e.setWidth 64)
      else match f.regFault i.dsts (i.reads og.pin) with
        | some (c, tv) => .raise c tv
        | none => k e regs

/-- A record as a word makes it (Table 15.3). -/
def State.newRecord (s : State) (f : Fibre) (kind : Nat) (l : LitSpawn) (join : GAddr) (e : Word) (regs : Nat) (payload : List Word) : KRecord :=
  { kind := kind, cls := windowClass regs, place := l.place.toNat, npay := l.npay.toNat, depth := f.arch.depth + 1, origin := s.hearthOf f,
    grain := 0, join := if join.off = 0 then ⟨0, 0⟩ else join, entry := e, slot := (s.slotOf f).n, gen := (s.slotOf f).gen, lo := 0, hi := 0,
    image := 0, payload := payload, regs := regs, since := 0, order := 0, spill := none, head := [] }

/-! ### `spawn` and `spawnr` (R265, R273) -/

def execSpawn (m : Mods LitSpawn) (p : BitVec 3) (a b : RegIx) (s : State) : Host.Outcome State Fault Refusal :=
  s.word (.spawn m p a b) m fun f og =>
    let l := m.body .dflt
    s.entryOf f og (.spawn m p a b) l b 0 fun e regs =>
      let join := f.addr 0 a 0
      firstFault [joinFault join]
        (.ok [.release (placeScope l.place),
              .spawn p (s.newRecord f 0 l join e regs ((f.run a (2 + l.npay.toNat)).drop 2))])

/-- `spawnr` (R273): an empty range makes no record and writes a true status. -/
def execSpawnr (m : Mods LitSpawn) (p : BitVec 3) (a b : RegIx) (s : State) : Host.Outcome State Fault Refusal :=
  s.word (.spawnr m p a b) m fun f og =>
    let l := m.body .dflt
    let blk := f.run a (5 + l.npay.toNat)
    let lo := (blk.getD 2 0).toNat
    let hi := (blk.getD 3 0).toNat
    let g := (blk.getD 4 0).toNat
    s.entryOf f og (.spawnr m p a b) l b 2 fun e regs =>
      if g = 0 then .raise (mkCause 11 2) 0
      else
        let join := f.addr 0 a 0
        let r := { s.newRecord f 1 l join e regs (blk.drop 5) with grain := g, lo := lo, hi := hi }
        firstFault [joinFault join] (.ok [.release (placeScope l.place), if hi ≤ lo then .spawnNone p else .spawn p r])

/-! ### `jwait` (R279) -/

/-- An address of this device's memory, translated for reading. -/
def State.ownRead (s : State) (f : Fibre) (a : GAddr) (k : Target → WordOut) : WordOut :=
  match s.translate (s.hearthOf f) (s.ctxOf f) 0 a a.off with
  | .ok t => k t
  | .fault c tv => .raise c tv
  | .miss => .wait (s.missWait f 0 a)

def execJwait (m : Plain) (a : RegIx) (s : State) : Host.Outcome State Fault Refusal :=
  s.plain (.jwait m a) m fun f _ =>
    let g := f.addr 0 a 0
    firstFault [ownFault g 8 10] (s.ownRead f g fun t => .ok [.jwait g t])

/-! ### Watchpoints (R285, R290) and capacity (R277) -/

def execWatch (m : Mods LitSpawn) (p : BitVec 3) (a b : RegIx) (s : State) : Host.Outcome State Fault Refusal :=
  s.word (.watch m p a b) m fun f og =>
    let l := m.body .dflt
    let ctl := f.V (a + 8)
    s.entryOf f og (.watch m p a b) l b 0 fun e regs =>
      if 8 ≤ ctl.toNat ∨ ctl.getLsbD 1 then .raise (mkCause 11 2) (ctl.setWidth 64)
      else
        let join := f.addr 0 a 0
        let w := f.addr 0 (a + 2) 0
        firstFault [joinFault join, ownFault w 8 10]
          (s.ownRead f w fun t =>
            .ok [.release (placeScope l.place),
                 .watch p (f.abs (a + 8)) w t (f.VP (a + 4)) (f.VP (a + 6)) ctl
                   (s.newRecord f 3 l join e regs ((f.run a (9 + l.npay.toNat)).drop 9))])

def execUnwatch (m : Plain) (p : BitVec 3) (a : RegIx) (s : State) : Host.Outcome State Fault Refusal :=
  s.plain (.unwatch m p a) m fun f _ => .ok [.unwatch p (f.V a)]
/-- `kcap` (R277): the counts, read once at issue. -/
def execKcap (m : Plain) (d : RegIx) (s : State) : Host.Outcome State Fault Refusal :=
  s.plain (.kcap m d) m fun f _ => .ok [.res 19 (f.wr d [s.kcap f]) [] 0]

end Sys2Proof.Machine
end

