-- ==== Sys2Proof/Machine/Sys.lean ====
section
/-! DEFINITION. The meanings of the words of classes REC and SYS: recovery points, special registers, services, the return from a
trap and the removal of translations (R98, R99, R385 to R387, R403, R404). -/

namespace Sys2Proof.Machine

/-! ### Recovery (R403, R404) -/

/-- `rpmark` (R403): a release at `.rcv`, then the open point closes. -/
def execRpmark (m : Plain) (s : State) : Host.Outcome State Fault Refusal :=
  s.plain (.rpmark m) m fun _ _ => .ok [.release .rcv, .rpmark]
def execRpqry (m : Plain) (d a : RegIx) (s : State) : Host.Outcome State Fault Refusal :=
  s.plain (.rpqry m d a) m fun f _ => .ok [.rpqry (f.abs d) (f.VP a)]

/-! ### Special registers (Table 5.6) -/

/-- The recovery state of a fibre's context. -/
def State.recoveryOf (s : State) (f : Fibre) : Recovery := ((s.context? (s.ctxOf f)).map (·.recovery)).getD default

/-- The value of special register n, zero-extended. -/
def State.sreg (s : State) (f : Fibre) (n : Nat) : DWord :=
  let a := f.arch
  let co := s.cohortOf f
  let die := dieOfHearth co.hearth
  if 8 ≤ n ∧ n ≤ 15 then (a.levels.getD (n - 8) 0).setWidth 64
  else if 16 ≤ n ∧ n ≤ 23 then (a.extents.getD (n - 16) 0).setWidth 64
  else if 40 ≤ n ∧ n ≤ 43 then (a.spaces.getD (n - 40) 0).setWidth 64
  else match n with
    | 0 => BitVec.ofNat 64 f.vlane
    | 1 => BitVec.ofNat 64 f.plane
    | 2 => BitVec.ofNat 64 f.crew
    | 3 => BitVec.ofNat 64 co.number
    | 4 => BitVec.ofNat 64 co.hearth
    | 5 => BitVec.ofNat 64 (s.ctxOf f)
    | 6 => BitVec.ofNat 64 (s.slotOf f).prio
    | 7 => BitVec.ofNat 64 a.depth
    | 24 => BitVec.ofNat 64 a.wbase
    | 25 => a.pword.setWidth 64
    | 26 => BitVec.ofNat 64 a.repc
    | 27 => a.fflags.setWidth 64
    | 28 => a.frm.setWidth 64
    | 29 => BitVec.ofNat 64 (s.ltimeAt die)
    | 30 => BitVec.ofNat 64 a.gwct
    | 31 => BitVec.ofNat 64 (s.die die).clock
    | 32 => a.cause.setWidth 64
    | 33 => a.epc.setWidth 64
    | 34 => a.tval
    | 35 => ((co.crew? f.crew).map (·.tgprog)).getD 0
    | 36 => BitVec.ofNat 64 (s.recoveryOf f).replay
    | 37 => BitVec.ofNat 64 (s.recoveryOf f).rps
    | 38 => BitVec.ofNat 64 (s.recoveryOf f).rpo
    | 39 => BitVec.ofNat 64 (s.recoveryOf f).rpt
    | _ => 0

/-- Registers that special register n moves through. -/
def sregRegs (n : RegIx) : Nat := match sregInfo n.toNat with | some (w, _) => if 32 < w then 2 else 1 | none => 1

/-- `movs` (R385): the value at issue, zero-extended to its register or pair. -/
def execMovs (m : Plain) (d n : RegIx) (s : State) : Host.Outcome State Fault Refusal :=
  s.plain (.movs m d n) m fun f _ => .ok [.res 24 (f.wr d (regWords (sregRegs n) (s.sreg f n.toNat).toNat)) [] 0]
/-- `movw` (R98, R99, R385): an H register outside handler mode is cause 5.00. -/
def execMovw (m : Plain) (n a : RegIx) (s : State) : Host.Outcome State Fault Refusal :=
  s.plain (.movw m n a) m fun f _ =>
    if ((sregInfo n.toNat).map (·.2)) = some 2 ∧ !f.arch.handler then .raise (mkCause 5 0) (n.setWidth 64)
    else .ok [.sreg n.toNat (if sregRegs n = 2 then f.VP a else (f.V a).setWidth 64)]
def execRdtm (m : Plain) (d : RegIx) (s : State) : Host.Outcome State Fault Refusal :=
  s.plain (.rdtm m d) m fun f _ => .ok [.rdtm (f.abs d)]

/-! ### Services (R386) -/

/-- The causes that the part itself raises (Table 21.2): class and details. -/
def ownDetails (cls : Nat) : List (Nat × Nat) :=
  match cls with
  | 1 => [(0, 5)] | 2 => [(0, 1)] | 3 => [(0, 2), (8, 13)] | 5 => [(0, 5)] | 6 => [(0, 5), (20, 23)] | 7 => [(0, 5)] | 8 => [(0, 3)]
  | 9 => [(0, 6), (16, 31)] | 10 => [(0, 7)] | 11 => [(0, 5)] | _ => []
/-- A software cause: a detail of classes 1 to 3 and 5 to 11 that Table 21.2 does not list (R376). -/
def softwareCause (c : Cause) : Bool :=
  let k := c.toNat / 32
  ((decide (1 ≤ k) && decide (k ≤ 3)) || (decide (5 ≤ k) && decide (k ≤ 11)))
    && (ownDetails k).all fun r => decide (c.toNat % 32 < r.1) || decide (r.2 < c.toNat % 32)

def execSvcVersion (m : Mods LitSys) (s : State) : Host.Outcome State Fault Refusal :=
  s.word (.svcVersion m) m fun f _ => .ok [.release .dev, .svc 0 (f.abs 0) ⟨0, 0⟩]
/-- Service 1: the address is checked as an 8-byte load; poison that stands in the record's 32 bytes is the word's own cause (R38, R232). -/
def execSvcRecord (m : Mods LitSys) (s : State) : Host.Outcome State Fault Refusal :=
  s.word (.svcRecord m) m fun f _ =>
    let a := f.addr 0 0 0
    s.access f a 8 false fun t =>
      if s.poisoned t 32 then .raise (mkCause 10 0) a.off else .ok [.release .dev, .svc 1 (f.abs 0) a]
/-- Service 2 raises a software cause after its release; the numbers above it are unknown: 11.04. -/
def execSvcCause (m : Mods LitSys) (s : State) : Host.Outcome State Fault Refusal :=
  s.word (.svcCause m) m fun f _ =>
    let n := (m.body .dflt).imm
    if n ≠ 2 then .raise (mkCause 11 4) (n.setWidth 64)
    else
      let v := f.V 0
      if v.toNat < 512 ∧ softwareCause (v.setWidth 9) then .raiseAfter .dev (v.setWidth 9) (f.VP 2)
      else .raiseAfter .dev (mkCause 11 5) (v.setWidth 64)

/-! ### The return from a trap, and translations (R386, R387) -/

def execTret (m : Plain) (s : State) : Host.Outcome State Fault Refusal :=
  s.plain (.tret m) m fun f _ => if f.arch.handler then .ok [.tret] else .raise (mkCause 9 6) 0
/-- `tlbi`: the address needs no alignment. -/
def execTlbi (m : Mods LitSys) (a : RegIx) (s : State) : Host.Outcome State Fault Refusal :=
  s.word (.tlbi m a) m fun f _ =>
    let sc := (m.body .dflt).scope
    let g := f.addr 0 a 0
    match ownFault g 1 10 with
    | some (c, tv) => .raise c tv
    | none => .ok [.release sc, .tlbi sc g]

end Sys2Proof.Machine
end

