-- ==== Sys2Proof/Machine/Events.lean ====
section
/-! DEFINITION. The part's own steps for fibres and their accesses: decisions, results, loads, stores, releases, fences, leases, mapped
lines, timeouts, wake-ups, fetches and the replies of services (R64 to R68, R77, R81, R151, R162, R171, R191, R205, R211 to R216, R221,
R235, R248, R278, R282, R386, R437). An event whose condition does not hold changes nothing (log 2). -/

namespace Sys2Proof.Machine

/-! ### Decisions and results (R64 to R68, R151, R191, R437) -/

/-- Every fibre that resides on a hearth stands blocked, parked or sleeping. -/
def State.hearthIdle (s : State) (hearth : Nat) : Bool :=
  let us := (s.resident hearth).map (·.uid)
  us != [] && s.fibres.all fun f => !us.contains f.cohort || f.exited || (!f.waits.isEmpty && !s.ready f)

/-- The hearth's time without work ends when one of its fibres can go on (R417). -/
def State.noteIdle (s : State) (hearth : Nat) : State :=
  if s.hearthIdle hearth then s else s.updHearth hearth fun (h : Hearth) => { h with idleSince := none }

def execCensusDecision (hearth grate : Nat) (s : State) : Host.Outcome State Fault Refusal :=
  if 192 ≤ hearth ∨ 4 ≤ grate then .next s
  else .next (((((s.regroup hearth grate).elapse hearth grate).meterEngines hearth).noteIdle hearth).stampReady.slotOfGrate hearth grate)

/-- A result in its latency lands: which of the fibre's results is free. -/
def execResultWriteback (uid : Nat) (s : State) : Host.Outcome State Fault Refusal :=
  .next (s.updFibre uid fun f =>
    let ls := f.pend.filter (·.src == .lane)
    match ls[Config.choice s.run.tick 13 uid % max 1 ls.length]? with
    | some p => { f with pend := f.pend.erase p }
    | none => f)

def execPipeIntervalEnd (hearth grate lane : Nat) (cls : BitVec 5) (s : State) : Host.Outcome State Fault Refusal :=
  .next (if (s.hearth hearth).pipes.contains (grate, lane, cls.toNat) then
    s.updHearth hearth fun h => { h with pipes := h.pipes.erase (grate, lane, cls.toNat) }
  else s)

/-! ### Loads and atomics return (R200, R201, R215, R226, R235, R239, R414) -/

/-- An operation that an acquire waits for has returned. -/
def Fibre.returned (f : Fibre) (op : Nat) : Fibre :=
  match f.acq with
  | none => f
  | some a =>
    let ops := a.ops.filter (· != op)
    { f with acq := if ops = [] && a.seq.isNone then none else some { a with ops := ops } }

/-- The sequencer's acknowledgement performs the fence; what else the fibre's acquire waits for stands (R216). -/
def Fibre.sequenced (f : Fibre) : Fibre :=
  { f with acq := f.acq.bind fun a => if a.ops = [] then none else some { a with seq := none } }

/-- All registers of an operation's result still wait for it: no later word of its group writes one of them (R84, R236). -/
def Fibre.awaits (f : Fibre) (op : MemOp) : Bool :=
  (PairRegs op.req.dst op.req.ty.regs).all fun r => f.pend.any fun p => p.src == .op op.id && p.regs.contains r

/-- The fibre of an operation stands again in the repetition that made it (R91). -/
def State.backTo (s : State) (op : MemOp) : State := s.updFibre op.uid fun f => { f with rep := op.rep }.backUp

/-- The access is over: its registers are written, or it meets poison (log 35). -/
def State.returnOp (s : State) (op : MemOp) : State :=
  let r := op.req
  let s := ((s.raiseSlot (((s.fibre? op.uid).map fun f => (s.cohortOf f).slot).getD 0) op.gwct).dropOp op.id).updFibre op.uid fun f =>
    let f := (f.dropLd.raiseGwct op.gwct).returned op.id
    if op.poison then f.dropPend op.id
    else
      let whole := f.awaits op
      let f := f.land op.id ((r.ty.words op.value).zipIdx.map fun (w, i) => (r.dst + i, w)) []
      if r.hoist && whole && !f.exited && op.expiry != 0 then
        f.record (s.ltimeAt (dieOfHearth op.hearth)) { reg := r.dst, addr := r.addr, size := r.size, target := r.target, expiry := op.expiry }
      else f
  let s := (s.releaseAdvance op.uid).arriveFence op.uid
  if op.poison && !((s.fibre? op.uid).map (·.exited)).getD true then
    (s.backTo op).raiseLate op.uid (mkCause 10 0) r.addr.off op.pc
  else s

/-- A load's value is fixed, where nothing of the same fibre stands before it, and returns; an atomic returns once it is performed. -/
def execLoadReturn (op : Nat) (evict : Bool) (s : State) : Host.Outcome State Fault Refusal :=
  .next (match s.op? op with
    | none => s
    | some o =>
      match o.req.kind, s.fibre? o.uid with
      | .load, some f =>
        if o.performed then s.returnOp o
        else if s.olderOverlap o (fun _ => true) || !s.answers f o.req.target then s
        else
          let (s, v, bad, e) := s.loadValue f o.req (evict && o.req.target.linked s)
          s.returnOp { o with performed := true, value := v, poison := bad || o.poison, expiry := e }
      | .atom _, some _ => if o.performed then s.returnOp o else s
      | _, _ => s)

/-! ### Writes (R212, R221, R281, R287, R400, R409, R410) -/

/-- A write is held back by the copy of an ember unit. -/
def State.homeHeld (s : State) (r : MemReq) : Bool := match r.target with | .dev pa => s.copying pa r.size | _ => false

/-- A write-back that its page or host range does not take (R377, R378): its fibre, if it still runs, raises the cause. -/
def State.writeBackFails (s : State) (op : MemOp) (c : Cause) : State :=
  let s := (s.dropOp op.id).releaseAdvance op.uid
  if ((s.fibre? op.uid).map (·.exited)).getD true then s else (s.backTo op).raiseLate op.uid c op.req.addr.off op.pc

/-- The translation of a write-back (R378, log 93): cached, a walk to wait for, or a fault. -/
def State.writeBackTranslate (s : State) (id : Nat) : State :=
  match s.op? id with
  | none => s
  | some op =>
    match s.fibre? op.uid with
    | none => s
    | some f =>
      if op.ready then s
      else match s.translate op.hearth (s.ctxOf f) 4 op.req.addr op.req.addr.off with
        | .ok t => s.aim op t 128
        | .fault c _ => s.writeBackFails op c
        | .miss => (s.askWalk op.hearth (s.ctxOf f) 4 op.req.addr (.sent id)).1

/-- A write-back, or a join decrement that waits for its node to be demoted, looks for its translation first. -/
def State.writeBackReady (s : State) (id : Nat) : State :=
  match s.op? id with
  | some o => if o.ready then s else match o.req.kind with | .writeBack _ => s.writeBackTranslate id | .joinDec => s.joinTranslate id | _ => s
  | none => s

/-- The launch of an operation's fibre. -/
def State.opSlot (s : State) (o : MemOp) : Nat := ((s.fibre? o.uid).map fun f => (s.cohortOf f).slot).getD 0
/-- The die whose slice serves an operation. -/
def State.opDie (s : State) (o : MemOp) : Nat := s.servingDie (dieOfHearth o.hearth) (s.slot (s.opSlot o)).node o.req.target

/-- A write that would stage a line past the limit of its die demotes its node once the staged lines are committed (R409, R410); it is performed
then. -/
def State.homeRoom (s : State) (o : MemOp) : Bool :=
  match o.req.target with | .dev pa => !s.stagingFull (s.slot (s.opSlot o)) (s.opDie o) pa | _ => true

/-- A write is performed at its home, or on its node's staged lines, and the watches on its bytes are evaluated (R221, R287, R409). -/
def State.performOp (s : State) (o : MemOp) : State :=
  let node := (s.slot (s.opSlot o)).node
  match s.performHome o node (s.opDie o), o.req.target with
  | (s, true), .dev pa => s.evalWatches node (o.req.hits pa)
  | (s, _), _ => s

def execHomeWritePerformed (op : Nat) (s : State) : Host.Outcome State Fault Refusal :=
  .next (let s := s.writeBackReady op
    match s.op? op with
    | none => s
    | some o =>
      let held := (s.slot (s.opSlot o)).node.isNone && s.homeHeld o.req
      if !o.req.kind.writes || o.performed || !o.ready || held || !s.homeReady o.req || s.olderOverlap o (fun q => !q.performed) then s
      else if s.homeRoom o then s.performOp o
      else if s.mustCommit (s.opSlot o) then s.leaveNode (s.opSlot o)
      else
        let s := s.demote (s.opSlot o)
        if s.homeHeld o.req then s else s.performOp o)

/-- An acknowledged write-back leaves its GWCT with its cohort (R214 step 2). -/
def State.noteFlush (s : State) (o : MemOp) : State :=
  match o.req.kind, s.fibre? o.uid with
  | .writeBack _, some f => s.updCohort f.cohort fun c => { c with flushed := max c.flushed o.gwct }
  | _, _ => s

def execStoreAcknowledge (op : Nat) (s : State) : Host.Outcome State Fault Refusal :=
  .next (match s.op? op with
    | none => s
    | some o =>
      if !o.performed || !o.req.kind.writes || o.req.kind.returns then s
      else
        let slot := s.opSlot o
        let s := (s.dropOp o.id).updFibre o.uid fun f =>
          (if o.req.kind = .store then f.dropSt else f).raiseGwct o.gwct
        ((s.noteFlush o).raiseSlot slot o.gwct).releaseAdvance o.uid)

/-! ### Releases and sequenced fences (R214, R216, R396) -/

/-- The wait of a release is over; that of a suspended fibre begins again at its restore (R230). -/
def execReleaseWaitEnd (uid : Nat) (s : State) : Host.Outcome State Fault Refusal :=
  .next (let s := s.releaseAdvance uid
    match s.fibre? uid with
    | none => s
    | some f =>
      match f.order with
      | none => s
      | some sc =>
        if s.releaseReady f sc && (s.cohortOf f).run != .suspended then s.endRelease f sc else s)

/-- The sequencer accepts the oldest fence that has arrived, which fixes its place in the single order; the acknowledgement of one that it has
accepted returns, in any order, and performs the fence (R216). -/
def execFenceScSequenced (uid : Nat) (s : State) : Host.Outcome State Fault Refusal :=
  .next (match s.fibre? uid with
    | none => s
    | some f =>
      match f.sequencing with
      | none => s
      | some sc =>
        let q := s.sequencer (sequencerKey sc (s.hearthOf f))
        if q.accepted.contains uid then
          (s.setSequencer { q with accepted := q.accepted.filter (· != uid) }).updFibre uid Fibre.sequenced
        else if q.arrived.head? = some uid then
          s.setSequencer { q with arrived := q.arrived.tail, accepted := q.accepted ++ [uid], count := q.count + 1 }
        else s)

/-! ### Leases and mapped lines (R205, R211, R414) -/

def execLeaseExpiry (hearth : Nat) (cohort : Option Nat) (line : Nat) (s : State) : Host.Outcome State Fault Refusal :=
  .next (let now := s.ltimeAt (dieOfHearth hearth)
    match cohort with
    | none => s.updHearth hearth fun h => { h with l1 := h.l1.filter fun l => l.line != line || decide (now < l.expiry) }
    | some u =>
      match s.cohort? u with
      | some c =>
        let l := c.line line
        if c.hearth = hearth ∧ l.mapped.isSome ∧ l.full ∧ l.expiry ≤ now then s.updCohort u fun c => c.updLine line StashLine.expire else s
      | none => s)

/-- A fibre stands stalled on a mapped line, or a command waits for it. -/
def Fibre.fills (f : Fibre) (line : Nat) : Bool := f.waits.contains (.mapFill line)
def State.fillWanted (s : State) (c : Cohort) (line : Nat) : Bool :=
  (s.fibres.any fun f => f.cohort == c.uid && f.fills line)
    || s.cmds.any fun d => d.cohort == c.uid && d.since.isSome && d.nextLine == some line

/-- What waits on a mapped line cannot have it: its fibres raise a cause at their words, those that have exited apart, whose word is over; its
commands halt (R38, R159, R317, R414). -/
def State.fillFails (s : State) (c : Cohort) (line : Nat) (cause : Cause) (a : GAddr) (reason : Nat) (detail : List Byte) : State :=
  let fs := s.fibres.filter fun f => f.cohort == c.uid && f.fills line
  let s := fs.foldl (fun (s : State) (f : Fibre) =>
    let s := s.updFibre f.uid fun g => (g.unstall (· == Wait.mapFill line)).backUp
    if f.exited then s else s.raiseLate f.uid cause a.off f.head) s
  (s.cmds.filter fun d => d.cohort == c.uid && d.since.isSome && d.nextLine == some line).foldl (fun s d => s.haltCmd d reason detail) s

/-- A line can be filled now: its target answers, and a host line finds the way in its set that it holds for its lease (R206). -/
def State.fillsNow (s : State) (c : Cohort) (t : Target) : Bool :=
  t.linked s && match t with
    | .host ha => (s.l2? (dieOfHearth c.hearth) true (ha / 256)).isSome || s.hasWay (dieOfHearth c.hearth) (ha / 256)
    | _ => true
/-- The fill of a line once its address is translated. -/
def State.fillFrom (s : State) (c : Cohort) (line : Nat) (a : GAddr) (t : Target) : State :=
  let node := (s.slot c.slot).node
  if s.poisonedFor node t 128 then
    let b := gplus a (s.firstPoison node t 128)
    s.fillFails c line (mkCause 10 0) a 0x09 (addrDetail b)
  else if s.fillsNow c t then s.fillMapped c.uid line t
  else s

/-- Translate the address of a mapped line for its fill (kind 3), and fill it; a miss starts a walk (R205, R379). -/
def State.fillTry (s : State) (c : Cohort) (line : Nat) (a : GAddr) : State :=
  let ctx := (s.slot c.slot).ctx
  match s.translate c.hearth ctx 3 a a.off with
  | .ok t => s.fillFrom c line a t
  | .miss => (s.askWalk c.hearth ctx 3 a (.fill c.uid line a.off)).1
  | .fault k _ => s.fillFails c line k a 0x07 (addrDetail a)

def execMappedLineFill (cohort line : Nat) (s : State) : Host.Outcome State Fault Refusal :=
  .next (match s.cohort? cohort with
    | none => s
    | some c =>
      let l := c.line line
      match l.mapped with
      | some a => if c.run = .running ∧ !l.filled (s.cohortTime c) ∧ s.fillWanted c line then s.fillTry c line a else s
      | none => s)

/-! ### Timeouts (R77, R248) -/

def execStashStallTimeout (uid : Nat) (s : State) : Host.Outcome State Fault Refusal :=
  .next (match s.fibre? uid with
    | none => s
    | some f =>
      let t := (s.slotOf f).record.stall
      let since := f.waits.findSome? fun w => match w with | .emptyLine _ n => some n | _ => none
      match since with
      | some n => if t ≠ 0 ∧ n + t ≤ s.ltime ∧ s.runs f.cohort then s.stallRaise f 0 else s
      | none => s)

def execRendezvousWatchdogExpiry (cohort crew tag : Nat) (s : State) : Host.Outcome State Fault Refusal :=
  .next (match s.cohort? cohort with
    | none => s
    | some c =>
      let t := (s.slot c.slot).record.watchdog
      match ((c.crew? crew).map (·.rdvs)).getD [] |>.find? fun r => r.tag == tag && decide (r.since + 1000 * t ≤ s.ltime) with
      | some r => if t ≠ 0 ∧ s.runs cohort then s.rdvExpire cohort crew r else s
      | none => s)

/-! ### Wake-ups (R162, R171, R282) -/

def execSleepWake (uid : Nat) (s : State) : Host.Outcome State Fault Refusal :=
  .next (match s.fibre? uid with
    | none => s
    | some f => s.setFibre { f with waits := f.waits.filter fun w => match w with | .sleep _ => !s.waitOver f w | _ => true })

def execDevBarrierWakeWindow (slot n : Nat) (s : State) : Host.Outcome State Fault Refusal := .next (s.devWake slot n)

/-- The counter of a `jwait` that waits in place is read again at its slice, as an acquire, once a lease length has passed (R282). -/
def execJwaitReread (uid : Nat) (s : State) : Host.Outcome State Fault Refusal :=
  .next (match s.fibre? uid with
    | none => s
    | some f =>
      let walking := f.waits.any fun w => match w with | .walk _ | .parked _ => true | _ => false
      match f.waits.findSome? (fun w => match w with | .jwait a since => some (a, since) | _ => none) with
      | none => s
      | some (a, since) =>
        if walking || f.exited || decide (s.ltime < since + (s.slotOf f).leaseNs) || !f.deferred.isEmpty || (s.cohortOf f).run != .running then s
        else match s.translate (s.hearthOf f) (s.ctxOf f) 0 a a.off with
          | .ok t => if t.linked s then s.jwaitRead f a t true else s
          | .miss => s.missWait f 0 a
          | .fault c tv => (s.updFibre uid fun g => { g with waits := g.waits.erase (.jwait a since) }).raise uid c tv f.head)

/-! ### Fetch (R81, R100) -/

/-- The parts of a packet that lie in one page each: place in the packet, length. -/
def packetParts (addr : Nat) : List (Nat × Nat) :=
  let k := 4096 - addr % 4096
  if 12 ≤ k then [(0, 12)] else [(0, k), (k, 12 - k)]

/-- The bytes of a packet, or why they are not to be had. -/
inductive FetchOut where
  | bytes (bs : List Byte)
  | fault (c : Cause) (tval : DWord)
  | miss (a : GAddr)
  deriving DecidableEq, Repr, Inhabited

def State.fetchBytes (s : State) (f : Fibre) (addr : Nat) : FetchOut :=
  if 2 ^ 64 < addr + 12 then .fault (mkCause 3 2) (f.arch.pc.setWidth 64)
  else (packetParts addr).foldl (fun (r : FetchOut) p => match r with
    | .bytes bs =>
      match s.codeAt f f.arch.pc (addr + p.1) p.2 with
      | .found pa => .bytes (bs ++ s.codeBytesOf (s.slotOf f) addr pa p.2)
      | .fault c tv => .fault c (if c.toNat / 32 = 4 ∨ c = mkCause 5 5 then BitVec.ofNat 64 addr else tv)
      | .miss => .miss ⟨0, BitVec.ofNat 64 (addr + p.1)⟩
    | r => r) (.bytes [])

/-- Bytes as words. -/
def bytesWords (bs : List Byte) (n : Nat) : List Word := (List.range n).map fun i => BitVec.ofNat 32 (leNat ((bs.drop (4 * i)).take 4))

/-- The fibre waits for a walk of the code space. -/
def State.fetchWait (s : State) (f : Fibre) (a : GAddr) : State :=
  let (s, id) := s.askWalk (s.hearthOf f) (s.ctxOf f) 2 a (.fetch f.uid)
  s.updFibre f.uid fun f => { f with waits := f.waits ++ [.walk id] }

def execInstructionFetchComplete (uid : Nat) (s : State) : Host.Outcome State Fault Refusal :=
  .next (match s.fibre? uid with
    | none => s
    | some f =>
      let walking := f.waits.any fun w => match w with | .walk _ | .parked _ => true | _ => false
      let n := f.arch.pc.toNat / 3
      if f.exited || walking || (f.ibuf.map (·.number)) == some n || (s.cohortOf f).run != .running || s.run.issuing.contains uid then s
      else match s.fetchBytes f ((s.slotOf f).record.codeBase + 12 * n) with
        | .bytes bs => s.updFibre uid fun f => { f with ibuf := some { number := n, words := bytesWords bs 3 } }
        | .fault c tv => s.raiseLate uid c tv f.arch.pc
        | .miss a => s.fetchWait f a)

/-! ### Replies (R386) -/

/-- A service record (Table 21.12). -/
def State.serviceRecord (s : State) (f : Fibre) (bs : List Byte) : List Byte :=
  let h := s.hearthOf f
  leBytes 1 0x0C ++ leBytes 1 0 ++ leBytes 2 (f.crew * 256 + f.vlane) ++ leBytes 4 f.head.toNat ++ leBytes 8 (s.cohortOf f).number
    ++ leBytes 8 (s.ltimeAt (dieOfHearth h)) ++ leBytes 1 h ++ leBytes 7 0 ++ bs

/-- The reply lands in VP(0) and the fibre goes on. -/
def State.svcDone (s : State) (f : Fibre) (w : Wait) (name dst : Nat) (v : DWord) : State :=
  s.updFibre f.uid fun g => { g.land name [(dst, v.setWidth 32), (dst + 1, (v >>> 32).setWidth 32)] [] with waits := g.waits.erase w }

/-- The bytes that service 1 reads; those that it cannot read are open. -/
def State.svcBytes (s : State) (f : Fibre) (a : GAddr) : State × List Byte × Bool :=
  match s.engRead (s.ctxOf f) (dieOfHearth (s.hearthOf f)) (s.slotOf f).node 0 a 32 with
  | .ok s bs _ => (s, bs, false)
  | .poison _ => (s, [], true)
  | _ => (s, freeBytes s.run.tick 14 0 32, false)

def execSvcReply (uid : Nat) (s : State) : Host.Outcome State Fault Refusal :=
  .next (match s.fibre? uid with
    | none => s
    | some f =>
      match f.waits.find? fun w => match w with | .svc .. => true | _ => false with
      | some (.svc name n dst a) =>
        if n = 0 then s.svcDone f (.svc name n dst a) name dst Config.romVersion
        else
          let (s, bs, bad) := s.svcBytes f a
          if bad then
            (s.updFibre uid fun g => { g.dropPend name with waits := g.waits.erase (.svc name n dst a) }).raise uid (mkCause 10 0) a.off f.head
          else
            let (s, ok) := s.writeRecord (s.ctxOf f) (s.serviceRecord f bs)
            s.svcDone f (.svc name n dst a) name dst (if ok then 0 else 1)
      | _ => s)

def execTlbiComplete (uid : Nat) (s : State) : Host.Outcome State Fault Refusal :=
  .next (match s.fibre? uid with
    | none => s
    | some f =>
      match f.waits.find? fun w => match w with | .tlbi .. => true | _ => false with
      | some (.tlbi sc a) =>
        let h := s.hearthOf f
        let s := s.tlbDropPage
          (fun x => if sc = .hth then x == h else if sc = .die then dieOfHearth x == dieOfHearth h else true)
          (fun d => if sc = .hth then false else if sc = .die then d == dieOfHearth h else true) (s.ctxOf f) a
        s.updFibre uid fun g => { g with waits := g.waits.erase (.tlbi sc a) }
      | _ => s)

end Sys2Proof.Machine
end

