-- ==== Sys2Proof/Machine/Front.lean ====
section
/-! DEFINITION. The command front end: its accesses, queues and their states, tail lines, the order of packets, malformed and faulted
packets (R358 to R370, R375, R439). -/

namespace Sys2Proof.Machine

/-! ### Accesses (R213, R360, R381, R400) -/

/-- The agents outside whose stores await their acknowledgement: 0 the host, 1 the peers, a queue's head line, a packet. -/
def headAgent (queue : Nat) : Nat := 2 ^ 20 + queue
def pktAgent (id : Nat) : Nat := 2 ^ 32 + id
/-- A store of an agent waits for its slice's clock to reach the line horizon + 8 ns (R213). What is acknowledged by now is not kept. -/
def State.owe (s : State) (agent die horizon : Nat) : State :=
  { s with outside := { agent := agent, die := die, wait := horizon + 8 } :: s.outside.filter fun o => decide (s.ltimeAt o.die < o.wait) }
/-- Every store of the agents that a test picks is acknowledged. -/
def State.ackedOf (s : State) (p : Nat → Bool) : Bool := s.outside.all fun o => !p o.agent || decide (o.wait ≤ s.ltimeAt o.die)
def State.acked (s : State) (agent : Nat) : Bool := s.ackedOf (· == agent)
/-- Every store of the front end: what a release of it waits for. -/
def State.frontAcked (s : State) : Bool := s.ackedOf fun a => decide (2 ^ 20 ≤ a)
def State.forget (s : State) (agent : Nat) : State := { s with outside := s.outside.filter (·.agent != agent) }

/-- A store of an agent that has no %gwct, performed at the serving slice, with the die of that slice for its wait (R213). -/
def State.outsideStore (s : State) (agent : Nat) (t : Target) (bs : List Byte) : State :=
  let (s, g) := s.performWrite 0 none t bs
  s.owe agent (s.servingDie 0 none t) g

/-- Write within one page for the front end: translated, held by a copy, performed, watches evaluated. -/
def State.frontWrite1 (s : State) (ctx agent : Nat) (a : GAddr) (bs : List Byte) : EngAcc :=
  match s.unitXlate 6 ctx 1 a with
  | .fault => .fault a
  | .hold => .hold
  | .serve l v z _ => .serve a l v z
  | .ok s t =>
    let held := match t with | .dev pa => s.copying pa bs.length | _ => false
    if held || !t.linked s then .hold else .ok (s.outsideStore agent t bs) [] 0
def State.frontWrite (s : State) (ctx agent : Nat) (a : GAddr) (bs : List Byte) : EngAcc :=
  (pieces a.off.toNat bs.length).foldl (fun (r : EngAcc) p => match r with
    | .ok s _ _ => s.frontWrite1 ctx agent (gplus a p.1) ((bs.drop p.1).take p.2)
    | r => r) (.ok s [] 0)
/-- The front end reads at the L2. -/
def State.frontRead (s : State) (ctx : Nat) (a : GAddr) (n : Nat) : EngAcc := s.engRead ctx 6 none 0 a n
def ownAddr (off : Nat) : GAddr := ⟨0, BitVec.ofNat 64 off⟩

/-! ### Fields of a packet (Tables 20.1 and 20.3) -/

def Pkt.field (p : Pkt) (off n : Nat) : Nat := leNat ((p.bytes.drop off).take n)
def Pkt.op (p : Pkt) : Nat := p.field 0 1
def Pkt.sync (p : Pkt) : Bool := (p.field 1 1) % 2 == 1
def Pkt.tag (p : Pkt) : Nat := p.field 4 4

/-- The bytes that a row of Table 20.3 assigns: first and length. -/
def bodyFields : Nat → List (Nat × Nat)
  | 1 => [(8, 8)] | 2 => [(8, 8), (16, 4)] | 3 => [(8, 16)] | 4 => [(8, 17)] | 5 => [(8, 1)] | 6 => [(8, 2), (16, 8)]
  | 7 => [(8, 20), (32, 8)] | 8 => [(8, 1)] | 9 => [(8, 2)] | 10 => [(8, 9)] | _ => []
def privilegedOp (op : Nat) : Bool := op == 6 || op == 8 || op == 9

/-! ### Queues (R359, R367) -/

def State.bound (s : State) (ctx : Nat) : List Queue := s.queues.filter fun q => q.state != .unbound && q.ctx == ctx

/-- A queue that the front end serves, while its die, I/O die 0, runs (R1). -/
def State.served (s : State) (q : Queue) : Bool :=
  !(s.die 4).resetting && (q.state == .idle || q.state == .running || q.state == .waiting) && !q.destroying
    && match s.context? q.ctx with | some c => !c.barred && !c.suspended && c.replaying.isNone | none => false

def Queue.updPkt (q : Queue) (id : Nat) (g : Pkt → Pkt) : Queue := { q with pkts := q.pkts.map fun p => if p.id = id then g p else p }
def Queue.pkt? (q : Queue) (id : Nat) : Option Pkt := q.pkts.find? (·.id == id)
def Queue.children (q : Queue) (id : Nat) : List Pkt := q.pkts.filter (·.parent == some id)

/-- An INDIRECT that has started and has packets still to copy: the deepest. -/
def Queue.openBuffer (q : Queue) : Option Pkt :=
  (q.pkts.filter fun p => p.started && !p.done && !p.cut && p.op == 2 && decide ((q.children p.id).length < p.field 16 4)).getLast?
/-- A WAIT that has started holds every later packet. -/
def Queue.waitingOn (q : Queue) : Option Pkt := q.pkts.find? fun p => p.started && !p.done && p.op == 3

/-- The ancestors of a packet among the buffers. -/
def Queue.ancestors (q : Queue) : Nat → Pkt → List Nat
  | 0, _ => []
  | n + 1, p => match p.parent.bind q.pkt? with
    | some r => r.id :: q.ancestors n r
    | none => []
/-- Earlier packets that must complete first (Table 20.4): for SIGNAL and FENCE always, for the others where SYNC is set; a WAIT waits for
nothing. -/
def Queue.mustWait (q : Queue) (p : Pkt) : Bool :=
  p.op != 3 && (p.op == 4 || p.op == 5 || p.sync)
    && (q.pkts.takeWhile (·.id != p.id)).any fun r => !r.done && !(q.ancestors 4 p).contains r.id

/-- What starts next in a queue: a packet copied, or the next packet of an open buffer, not copied yet. -/
inductive NextUp where
  | pkt (p : Pkt)
  | buffer (b : Pkt)
  | none
  deriving DecidableEq, Repr, Inhabited

/-- The packets of an open buffer come before what follows their INDIRECT (R363). -/
def Queue.nextUp (q : Queue) : NextUp :=
  match q.pkts.find? fun p => !p.started && p.level != 0 with
  | some p => .pkt p
  | none => match q.openBuffer with
    | some b => .buffer b
    | none => match q.pkts.find? fun p => !p.started with
      | some p => .pkt p
      | none => .none

/-- The state that a served queue stands in (Table 20.5). -/
def State.queueState (s : State) (q : Queue) : QueueState :=
  let noSlot := !((List.range 256).any fun n => !(s.slot n).busy)
  if q.waitingOn.isSome then .waiting
  else match q.nextUp with
    | .pkt p => if q.mustWait p || (p.op == 1 && noSlot) then .waiting else .running
    | .buffer _ => .running
    | .none => if q.read != q.tail then .running else .idle

/-- The completed count: packets of the ring before the first that has not completed. -/
def Queue.completedCount (q : Queue) : Nat := ((q.pkts.find? fun p => p.level == 0 && !p.done).map (·.index)).getD q.read

/-- Packets of the ring that have completed leave, with those of their buffers. -/
def Queue.swept (q : Queue) : Queue :=
  let kept := q.pkts.filter fun p => p.level != 0 || !p.done
  let orphan (l : List Pkt) : List Pkt := l.filter fun p => match p.parent with | none => true | some i => l.any (·.id == i)
  { q with pkts := orphan (orphan (orphan (orphan kept))) }

/-! ### Malformed and faulted packets (R368, R439) -/

/-- A front-end record (Table 20.7). -/
def State.frontRecord (s : State) (n reason level addr tag : Nat) (first : List Byte) : State :=
  let ctx := (s.queue n).ctx
  let g := ((s.context? ctx).map (·.guilt)).getD 0
  (s.writeRecord ctx (leBytes 1 0x08 ++ leBytes 1 reason ++ leBytes 1 n ++ leBytes 1 level ++ leBytes 4 0 ++ leBytes 8 addr ++ leBytes 4 tag
    ++ leBytes 4 g ++ leBytes 8 s.ltime ++ first.take 32)).1

/-- The queue halts; a packet that had started and faulted stands unfinished. -/
def State.haltQueue (s : State) (n : Nat) (p : Option Nat) : State :=
  let q := s.queue n
  let q := match p with | some id => q.updPkt id fun p => { p with started := false, data := [] } | none => q
  s.setQueue (if q.state = .barred ∨ q.state = .unbound then q else { q with state := .halted })

/-- A queue to be destroyed is unbound once nothing of it runs and its head line is written (R359, R372). -/
def State.unbind (s : State) (n : Nat) : State :=
  let q := s.queue n
  if q.destroying && !q.headDue && q.pkts.all fun p => !p.started || p.done then s.setQueue (Queue.unbound n) else s

/-- An access that concerns no packet yet: what stands from 0x20 is open. -/
def State.queueFault (s : State) (n reason : Nat) (a : GAddr) : State :=
  (s.haltQueue n none).frontRecord n reason 0 a.off.toNat 0 (freeBytes s.run.tick 17 (64 * n) 32)

/-! ### The head line (R359, R361) -/

/-- The head line: consumed and completed counts, the rest 0 (R359). The write is a release: it waits until the front end's stores are acknowledged,
for a service of its page or for a copy that holds it, and is tried again; a page that fails for good halts the queue. -/
def State.writeHead (s : State) (n : Nat) : State :=
  let q := s.queue n
  let due (s : State) (d : Bool) : State := s.setQueue { s.queue n with headDue := d }
  if !s.frontAcked then due s true
  else match s.frontWrite q.ctx (headAgent n) q.headLine (leBytes 8 q.read ++ leBytes 8 q.completed ++ leBytes 48 0) with
    | .ok s _ _ => due s false
    | .serve a lvl srv size =>
      match s.startService q.ctx 1 a lvl srv size [(1, .front n none)] with
      | (s, true) => due s true
      | (s, false) => due (s.queueFault n 0x10 q.headLine) false
    | .hold => due s true
    | _ => due (s.queueFault n 0x10 q.headLine) false

/-- After a change of a queue: its state, its counts and its head line; a queue to be destroyed is unbound in the end. -/
def State.queueSettle (s : State) (n : Nat) : State :=
  let q := s.queue n
  if q.state = .unbound then s
  else
    let q' := q.swept
    let q' := { q' with completed := q'.completedCount }
    let q' := if s.served q' then { q' with state := s.queueState q' } else q'
    let s' := s.setQueue q'
    (if q'.completed ≠ q.completed ∨ q'.headDue then s'.writeHead n else s').unbind n

/-- Launch slots have become free, or a replay has dropped packets: the queues that wait, and those to be destroyed, are looked at again (R367,
R372). -/
def State.settleQueues (s : State) : State :=
  (s.queues.filter fun q => q.state == .waiting || q.destroying).foldl (fun (s : State) q => s.queueSettle q.n) s

/-! ### Completion of packets (Table 20.2) -/

/-- Buffers whose last packet has completed complete with it; one that is cut short, with the last packet that it started. -/
def Queue.closeBuffers : Nat → Queue → Queue
  | 0, q => q
  | n + 1, q =>
    match q.pkts.find? fun p => p.started && !p.done && p.op == 2 && (p.cut || (q.children p.id).length == p.field 16 4)
      && (q.children p.id).all (·.done) with
    | some p => Queue.closeBuffers n (q.updPkt p.id fun p => { p with done := true })
    | none => q

def State.finishPkt (s : State) (n id : Nat) : State :=
  let q := (s.queue n).updPkt id fun p => { p with started := true, done := true }
  (s.setQueue (q.closeBuffers 4)).queueSettle n
/-- The queue starts no packet that it has copied and not started, and reads no more of an open buffer (R367, R372). -/
def Queue.cutShort (q : Queue) : Queue :=
  Queue.closeBuffers 4 { q with pkts := (q.pkts.filter (·.started)).map fun p => if p.op = 2 ∧ !p.done then { p with cut := true } else p }
def State.startPkt (s : State) (n id : Nat) : State :=
  (s.setQueue ((s.queue n).updPkt id fun p => { p with started := true })).queueSettle n

/-! ### Guilt (R368, R439) -/

/-- Guilt rises by 1; past the limit the context is barred. -/
def State.addGuilt (s : State) (ctx : Nat) : State :=
  let s := s.updContext ctx fun c => { c with guilt := c.guilt + 1, barred := c.barred || decide (s.policy.guilt < c.guilt + 1) }
  if ((s.context? ctx).map (·.barred)).getD false then
    { s with queues := s.queues.map fun q => if q.ctx = ctx ∧ q.state ≠ .unbound then { q with state := .barred } else q }
  else s

def State.packetBad (s : State) (n : Nat) (p : Pkt) (reason : Nat) : State :=
  let ctx := (s.queue n).ctx
  let s := s.haltQueue n (some p.id)
  let s := (s.updContext ctx fun c => { c with guilt := c.guilt + 1 }).frontRecord n reason p.level p.addr p.tag p.bytes
  ((s.updContext ctx fun c => { c with guilt := c.guilt - 1 }).addGuilt ctx).unbind n

/-- A bad tail count concerns no packet (R439). -/
def State.tailBad (s : State) (n tail : Nat) : State :=
  let q := s.queue n
  let s := s.haltQueue n none
  let s := (s.updContext q.ctx fun c => { c with guilt := c.guilt + 1 }).frontRecord n 0x03 0 q.tailLine.off.toNat 0
    (leBytes 8 tail ++ leBytes 8 q.read ++ leBytes 16 0)
  (s.updContext q.ctx fun c => { c with guilt := c.guilt - 1 }).addGuilt q.ctx

/-- A packet whose access faults for good (0x10) or meets poison (0x11): no guilt. -/
def State.packetFault (s : State) (n : Nat) (p : Pkt) (reason : Nat) : State :=
  ((s.haltQueue n (some p.id)).frontRecord n reason p.level p.addr p.tag p.bytes).unbind n
/-- The access that a service which failed was for: of a packet, or of none. -/
def State.frontFails (s : State) (n : Nat) (pkt : Option Nat) (a : GAddr) : State :=
  let q := s.queue n
  if q.state = .unbound then s
  else match pkt.bind q.pkt? with
    | some p => s.packetFault n p 0x10
    | none =>
      let s := s.queueFault n 0x10 a
      if a.space = q.headLine.space ∧ a.off.toNat / 64 = q.headLine.off.toNat / 64 then s.setQueue { s.queue n with headDue := false } else s

/-- What is done when an access of the front end answers no bytes: the fault of its packet, if it has one, or a service for which the queue
waits. -/
def State.frontStop (s : State) (n kind : Nat) (pkt : Option Nat) (fault : Nat → State) (r : EngAcc) : State :=
  match r with
  | .fault _ => fault 0x10
  | .poison _ => fault 0x11
  | .serve a lvl srv size =>
    match s.startService (s.queue n).ctx kind a lvl srv size [(kind, .front n pkt)] with
    | (s, true) => s
    | (_, false) => fault 0x10
  | _ => s
/-- The same for a packet. -/
def State.pktStop (s : State) (n kind : Nat) (p : Pkt) (r : EngAcc) : State :=
  s.frontStop n kind (some p.id) (fun reason => s.packetFault n p reason) r

/-! ### Checks (R358, R362, R368, R375) -/

def spacesOf (p : Pkt) : BitVec 16 × BitVec 16 := (BitVec.ofNat 16 (p.field 0x18 2), BitVec.ofNat 16 (p.field 0x1A 2))

/-- Body values out of range (reason 0x08). -/
def State.valuesBad (s : State) (q : Queue) (p : Pkt) : Bool :=
  let reserved (sp : BitVec 16) : Bool := spaceKind sp == 3 || (spaceKind sp == 0 && spaceNum sp != 0)
  match p.op with
  | 2 => p.field 16 4 == 0 || decide (65536 < p.field 16 4)
  | 4 => decide (1 < p.field 0x18 1)
  | 5 => !(decide (7 ≤ p.field 8 1) && decide (p.field 8 1 ≤ 11))
  | 7 => reserved (spacesOf p).1 || reserved (spacesOf p).2
  | 8 => decide (2 < p.field 8 1)
  | 9 => decide (64 ≤ p.field 8 1) || (s.queue (p.field 8 1)).state == .unbound || (s.queue (p.field 8 1)).ctx != q.ctx || decide (3 < p.field 9 1)
  | 10 => decide (2 < p.field 16 1)
  | _ => false

/-- n bytes lie outside the context's device memory: past the end of the space, or on a page that its tables do not hold and that no service gives
(R368, log 74). -/
def State.outsideMem (s : State) (ctx off n : Nat) : Bool :=
  decide (2 ^ 64 < off + n) || (pieces off n).any fun p =>
    match s.walk 6 ctx (ownAddr (off + p.1)) 0 false with
    | .absent _ c | .fault c => c.toNat / 32 == 4 && decide (c.toNat % 8 ≤ 4)
    | _ => false

/-- A side of a COPY lies outside the space that the context was given; a peer is none that a confidential context may name (R375). -/
def State.sideBad (s : State) (ctx : Nat) (sp : BitVec 16) (off n : Nat) : Bool :=
  (s.spaceFault ctx sp).isSome || decide (2 ^ 64 < off + n)
    || (spaceKind sp == 0 && s.outsideMem ctx off n)
    || (spaceKind sp == 1 && ((s.context? ctx).map (·.confidential)).getD false)
    || (spaceKind sp == 2 && match (s.context? ctx).bind fun c => c.ranges.find? (·.k == spaceNum sp) with
      | some r => decide (r.length < off + n)
      | none => true)

/-- Addresses misaligned or outside the context's memory, and ranges (reason 0x06). -/
def State.addressesBad (s : State) (q : Queue) (p : Pkt) : Bool :=
  let a := p.field 8 8
  match p.op with
  | 1 => a % 256 != 0 || s.outsideMem q.ctx a 256
  | 2 => a % 64 != 0 || s.outsideMem q.ctx a (64 * p.field 16 4)
  | 3 | 4 => a % 8 != 0 || s.outsideMem q.ctx a 8
  | 6 => p.field 16 8 % 64 != 0 || s.outsideMem q.ctx (p.field 16 8) 64
  | 7 =>
    let (ss, ds) := spacesOf p
    let (so, d, n) := (p.field 8 8, p.field 16 8, p.field 32 8)
    s.sideBad q.ctx ss so n || s.sideBad q.ctx ds d n || (ss == ds && decide (so < d + n) && decide (d < so + n))
  | 10 => a % 64 != 0 || s.outsideMem q.ctx a 64
  | _ => false

/-- The first reason for which a packet is malformed, up to its addresses. -/
def State.malformed (s : State) (q : Queue) (p : Pkt) : Option Nat :=
  let op := p.op
  let given (i : Nat) : Bool := (bodyFields op).any fun f => decide (f.1 ≤ i) && decide (i < f.1 + f.2)
  if p.field 0 4 / 2 ^ 9 ≠ 0 then some 0x00
  else if 0x0A < op then some 0x01
  else if privilegedOp op && !q.privileged then some 0x02
  else if op = 2 ∧ p.level = 4 then some 0x04
  else if (List.range 56).any (fun i => !given (i + 8) && (p.bytes.getD (i + 8) 0) != 0) then some 0x00
  else if s.valuesBad q p then some 0x08
  else if s.addressesBad q p then some 0x06
  else none

/-! ### The next packet (R360, R361, R363, R364, R370) -/

/-- Put a packet behind all that have started. -/
def Queue.insertPkt (q : Queue) (p : Pkt) : Queue :=
  { q with pkts := q.pkts.takeWhile (·.started) ++ p :: q.pkts.dropWhile (·.started) }

/-- The packet that starts next; the next packet of an open buffer is copied first. None: there is none, or it cannot be read. -/
def State.nextPkt (s : State) (n : Nat) : State × Option Pkt :=
  let q := s.queue n
  if q.waitingOn.isSome then (s, none)
  else match q.nextUp with
    | .pkt p => (s, some p)
    | .none => (s, none)
    | .buffer b =>
      let j := (q.children b.id).length
      let a := b.field 8 8 + 64 * j
      match s.frontRead q.ctx (ownAddr a) 64 with
      | .ok s bs _ =>
        let p : Pkt := { id := s.run.nextOp, level := b.level + 1, index := j, parent := some b.id, addr := a, bytes := bs, started := false,
                         done := false, cut := false, data := [] }
        ({ s.setQueue (q.insertPkt p) with run := { s.run with nextOp := s.run.nextOp + 1 } }, some p)
      | r => (s.frontStop n 0 none (fun reason => s.queueFault n reason (ownAddr a)) r, none)

/-- An exclusive launch waits for the running launches of a context that cannot be suspended: it starts no further one (R351). -/
def State.exclusiveWaits (s : State) (ctx : Nat) : Bool :=
  s.slots.any fun m => m.waiting && s.live m.ctx && (s.running ctx).any fun l => s.outlasts l m && decide (l.prio < m.prio)

/-- A point of the queue's context is sealing. -/
def State.seals (s : State) (q : Queue) : Bool := ((s.context? q.ctx).bind fun c => c.recovery.points.find? (·.state == .sealing)).isSome
/-- A FENCE at `.rcv` waits for the seal of a point that is sealing, as a release does (R363, R396). -/
def State.fenceWaits (s : State) (q : Queue) (p : Pkt) : Bool := p.op == 5 && p.field 8 1 == 11 && s.seals q
/-- A packet waits for more than earlier packets: a LAUNCH for a launch slot (R366), a close for the point that is sealing (R398), a FENCE or SIGNAL
for the front end's stores or for a seal. -/
def State.blocked (s : State) (q : Queue) (p : Pkt) : Bool :=
  (p.op == 1 && (!((List.range 256).any fun n => !(s.slot n).busy) || s.exclusiveWaits q.ctx))
    || (p.op == 8 && p.field 8 1 == 0 && s.seals q) || ((p.op == 4 || p.op == 5) && !s.frontAcked) || s.fenceWaits q p
/-- An access of a queue, for a packet or for none, waits for a service of its page (R381). -/
def State.parkedAt (s : State) (q : Queue) (kind : Nat) (pkt : Option Nat) : Bool := s.services.any fun v => v.reqs.contains (kind, .front q.n pkt)
/-- A queue has a packet ready to start: not one whose own access, or whose read, waits for a service. -/
def State.queueReady (s : State) (q : Queue) : Bool :=
  s.served q && q.waitingOn.isNone
    && (match q.nextUp with
      | .pkt p => !q.mustWait p && !s.blocked q p && !s.parkedAt q 0 (some p.id) && !s.parkedAt q 1 (some p.id)
      | .buffer _ => !s.parkedAt q 0 none
      | .none => false)

/-- The queue that a priority's round robin served last; from reset, the one before queue 0 (log 8). -/
def State.lastTurn (s : State) (prio : Nat) : Nat := ((s.turns.find? (·.1 == prio)).map (·.2)).getD 63
/-- A queue starts a packet: the round robin of its priority goes on behind it. -/
def State.took (s : State) (n : Nat) : State :=
  let prio := (s.queue n).priority
  { s with turns := (prio, n) :: s.turns.filter (·.1 != prio) }
/-- Queue r goes before queue q where both are ready: the higher priority, then round robin (R370). -/
def State.ahead (s : State) (q r : Queue) : Bool :=
  let place (x : Queue) : Nat := (x.n + 127 - s.lastTurn q.priority) % 64
  decide (q.priority < r.priority) || (r.priority == q.priority && decide (place r < place q))

/-- A packet's opcode, with its action for a RECOVER: what the row of an event names. -/
def Pkt.kind (p : Pkt) : Nat := if p.op = 8 then 8 + 256 * p.field 8 1 else p.op

/-- A step of a packet of a kind: the next packet of the queue, once no queue that goes before it is ready; a malformed one halts its
queue; one that must wait, waits. -/
def State.packetStep (s : State) (n kind : Nat) (k : State → Queue → Pkt → State) : State :=
  let q := s.queue n
  if !s.served q || s.queues.any (fun r => s.ahead q r && s.queueReady r) then s
  else match s.nextPkt n with
    | (s, none) => s
    | (s, some p) =>
      match s.malformed (s.queue n) p with
      | some reason => s.packetBad n p reason
      | none => if p.kind = kind ∧ !(s.queue n).mustWait p then k (s.took n) (s.queue n) p else s.queueSettle n

/-- A head line that could not be written is tried first, and a queue to be destroyed looked at again. The tail line is read again, as an acquire; the next packet is copied out of the ring
(R360, R361). -/
def State.readTail (s : State) (n : Nat) : State :=
  let s := if !s.frontUp then s else if (s.queue n).destroying then s.queueSettle n else if (s.queue n).headDue then s.writeHead n else s
  let q := s.queue n
  if !s.served q then s
  else match s.frontRead q.ctx q.tailLine 8 with
    | .ok s bs _ =>
      let tail := leNat bs
      if tail < q.read ∨ q.read + 2 ^ q.k < tail then (s.setQueue { q with tail := tail }).tailBad n tail
      else if tail = q.read then (s.setQueue { q with tail := tail }).queueSettle n
      else
        let a : GAddr := gplus q.ring (64 * (q.read % 2 ^ q.k))
        match s.frontRead q.ctx a 64 with
        | .ok s bs _ =>
          let p : Pkt := { id := s.run.nextOp, level := 0, index := q.read, parent := none, addr := a.off.toNat, bytes := bs, started := false,
                           done := false, cut := false, data := [] }
          let q := { q with tail := tail, read := q.read + 1, pkts := q.pkts ++ [p] }
          let s := { s.setQueue q with run := { s.run with nextOp := s.run.nextOp + 1 } }
          (s.writeHead n).queueSettle n
        | r => s.frontStop n 0 none (fun reason => s.queueFault n reason a) r
    | r => s.frontStop n 0 none (fun reason => s.queueFault n reason q.tailLine) r

end Sys2Proof.Machine
end

