-- ==== Sys2Proof/Machine/EngineEvents.lean ====
section
/-! DEFINITION. The steps of the engines and of translation: commands starting, delivering and completing, the collective, stall timeouts,
walks and Garley's page service (R300 to R323, R345, R378 to R381). An event whose condition does not hold changes nothing (log 2). -/

namespace Sys2Proof.Machine

/-! ### Flues (R308 to R320) -/

def execFlueCommandStart (hearth flue : Nat) (s : State) : Host.Outcome State Fault Refusal := .next (s.flueStart hearth flue)

/-- The lines that the next global write of a command would stage, where it runs for a node (R409). -/
def State.stages (s : State) (c : EngineCmd) : Bool :=
  let l := s.cmdSlot c
  let dst : Option GAddr := match c.op with | .cpylSt _ d _ | .cpylGg _ d _ => some (gplus d (128 * c.done)) | _ => none
  match dst with
  | some a =>
    match s.unitXlate c.unit l.ctx 1 a with
    | .ok _ (.dev pa) =>
      let full (pa : Nat) : Bool := s.stagingFull l (s.servingDie (dieOfHearth c.hearth) l.node (.dev pa)) pa
      full pa || full (pa + 127)
    | _ => false
  | none => false

/-- A delivery of a flue: a write past the staging limit waits until the node is demoted (R410). -/
def State.flueStep (s : State) (c : EngineCmd) : State :=
  if s.stages c then
    let slot := (s.cmdCohort c).slot
    if s.mustCommit slot then s.leaveNode slot else (s.demote slot).flueDeliver c
  else s.flueDeliver c

/-- The cohort of a command is not stopped. -/
def State.cmdRuns (s : State) (c : EngineCmd) : Bool := c.run == .running && (s.cmdCohort c).run == .running

def execFlueLineDelivery (hearth flue : Nat) (s : State) : Host.Outcome State Fault Refusal :=
  .next (match s.flueCmds hearth flue with
    | c :: _ => if s.cmdRuns c && decide (c.done < s.flueLines c) then s.flueStep c else s
    | [] => s)

def execFlueCommandComplete (hearth flue : Nat) (s : State) : Host.Outcome State Fault Refusal :=
  .next (match s.flueCmds hearth flue with
    | c :: _ => if s.cmdRuns c && s.flueDone c then s.finishCmd c (s.countDone c) else s
    | [] => s)

/-! ### The tile engine and the collective (R300 to R307, R345) -/

def execTileCommandStart (hearth : Nat) (s : State) : Host.Outcome State Fault Refusal := .next (s.tileStart hearth)

/-- A running command makes progress: it completes, or goes on by a line, a row or a block; none does while the engine is suspended (R317). -/
def execTileCommandComplete (hearth cmd : Nat) (s : State) : Host.Outcome State Fault Refusal :=
  .next (match (s.tileCmds hearth).find? (·.id == cmd) with
    | some c => if s.cmdRuns c && !s.tileSuspended hearth then s.tileStep c else s
    | none => s)

/-- The collective is not stopped with its cohort (R347): its bytes move while the cohort is suspended. -/
def execCollComplete (cmd : Nat) (others : List (List Word)) (s : State) : Host.Outcome State Fault Refusal :=
  .next (match s.cmd? cmd with
    | some c => if c.op.isColl && (c.run == .queued || c.run == .running) then s.collDo c others else s
    | none => s)

/-- The cohort's stash stall timeout has passed for a command whose line is still not full (R301). -/
def State.stallOver (s : State) (c : EngineCmd) : Bool :=
  (s.cmdSlot c).record.stall != 0 && (s.cmdCohort c).run == .running
    && (match c.since with | some t => decide (t + (s.cmdSlot c).record.stall ≤ s.ltime) | none => false)
    && (match c.nextLine with | some n => !s.engReady c n | none => false)
def execEngineStashStallTimeout (hearth : Nat) (s : State) : Host.Outcome State Fault Refusal :=
  .next (match s.cmds.find? fun c => c.hearth == hearth && s.stallOver c with
    | some c => s.haltCmd c 0x06 (stashDetail (128 * (c.nextLine.getD 0)))
    | none => s)

/-! ### A walk's answer reaches its requesters (R278, R317, R323, R379, R381) -/

/-- A fibre whose group could not issue raises its cause at the group's head; a `jwait` in place, or a repetition begun, at its own. -/
def State.raiseWaiting (s : State) (uid : Nat) (c : Cause) (tval : DWord) : State :=
  match s.fibre? uid with
  | none => s
  | some f =>
    match f.waits.find? fun w => match w with | .jwait _ _ => true | _ => false with
    | some w => (s.updFibre uid fun g => { g with waits := g.waits.erase w }).raiseLate uid c tval f.head
    | none =>
      let s := match f.groupWords with
        | w :: _ =>
          if wordClass w = 30 then
            let (n, r) := f.repState w
            s.updFibre uid fun g => { g with arch := { g.arch with repc := r, repStart := n } }
          else s
        | [] => s
      s.raiseLate uid c tval f.arch.pc

/-- The fibre no longer waits on a walk or on a service. -/
def State.endWait (s : State) (uid : Nat) (w : Wait) : State := s.updFibre uid fun f => { f with waits := f.waits.filter (· != w) }

/-- A command that was suspended goes on. -/
def State.resumeCmd (s : State) (cmd : Nat) : State :=
  s.updCmd cmd fun c => if c.run = .suspended then { c with run := .running } else c

/-- A command's access fails for good: it halts; of a `tgat`, the members that own the rows of that page raise their cause. -/
def State.engFails (s : State) (cmd : Nat) (a : GAddr) (cause : Cause) : State :=
  match s.cmd? cmd with
  | none => s
  | some c =>
    match c.op with
    | .tgat t _ rows =>
      let s := s.resumeCmd cmd
      let n := gatBytes ((s.cmdCohort c).tile t).tcfg
      let hit (r : GatRow) : Bool := r.addr.space == a.space && decide (r.addr.off.toNat / 4096 ≤ a.off.toNat / 4096)
        && decide (a.off.toNat / 4096 * 4096 < r.addr.off.toNat + n)
      (rows.filter fun r => hit r && ((s.fibre? r.uid).map (·.waits.contains (.engineRead cmd))).getD false).foldl
        (fun s r => s.gatRaise r cause) s
    | _ => s.haltCmd c 0x07 (addrDetail a)

/-- A requester learns that its address has no translation: a cause, a halt, a dropped decrement (Table 21.5). A read of the code space takes
the PC for %tval where its page has no EX (Table 21.2). -/
def State.tellFault (s : State) (wait : Wait) (a : GAddr) (cause : Cause) (r : Nat × Requester) : State :=
  match r.2 with
  | .fibre u off =>
    let pc := ((s.fibre? u).map (·.arch.pc)).getD 0
    (s.endWait u wait).raiseWaiting u cause (if r.1 = 2 then fetchTval pc ⟨0, off⟩ cause else off)
  | .fetch u =>
    match s.fibre? u with
    | some f => (s.endWait u wait).raiseLate u cause (fetchTval f.arch.pc (s.packetAddr f) cause) f.arch.pc
    | none => s
  | .engine c off => s.engFails c ⟨a.space, off⟩ cause
  | .fill c line off =>
    match s.cohort? c with
    | some co => s.fillFails co line cause ⟨a.space, off⟩ 0x07 (addrDetail ⟨a.space, off⟩)
    | none => s
  | .sent o =>
    match s.op? o with
    | some op => if op.req.kind = .joinDec then s.dropJoin op else s.writeBackFails op cause
    | none => s
  | .front q p => s.frontFails q p a
  | .peer => s

/-- A requester goes on: its page is there. -/
def State.tellReady (s : State) (wait : Wait) (r : Nat × Requester) : State :=
  match r.2 with
  | .fibre u _ | .fetch u => s.endWait u wait
  | .engine c _ => s.resumeCmd c
  | .sent o => if (s.op? o).any (·.req.kind == .joinDec) then s.joinTranslate o else s.writeBackTranslate o
  | .fill _ _ _ | .front _ _ | .peer => s

def State.hearthOfReq (s : State) (r : Nat × Requester) : Option Nat :=
  match r.2 with
  | .fibre u _ | .fetch u => (s.fibre? u).map s.hearthOf
  | .fill c _ _ => (s.cohort? c).map (·.hearth)
  | .sent o => (s.op? o).map (·.hearth)
  | .engine _ _ | .front _ _ | .peer => none

def Walk.addr (w : Walk) : GAddr := ⟨w.space, BitVec.ofNat 64 w.off⟩

/-- Fibres that waited for a walk are parked on a fault (R381). -/
def State.park (s : State) (walk fault : Nat) (r : Nat × Requester) : State :=
  match r.2 with
  | .fibre u _ | .fetch u => s.updFibre u fun f => { f with waits := f.waits.map fun w => if w = .walk walk then .parked fault else w }
  | _ => s

/-- One request is served by a walk of its page, under its own kind: the translation is kept for it, a service is asked for, or it learns of
its fault (R378, R381). -/
def State.answerWalk (w : Walk) (s : State) (r : Nat × Requester) : State :=
  let a := w.addr
  match s.walk w.die w.ctx a r.1 false with
  | .leaf e at' =>
    let s := s.setAD at' r.1
    let s := (s.hearthOfReq r).toList.foldl (fun s h => s.tlbInsert h e) s
    let s := match s.context? w.ctx with | some c => s.walkCacheInsert w.die w.ctx a c.root | none => s
    s.tellReady (.walk w.id) r
  | .service lvl srv size _ =>
    match s.startService w.ctx r.1 a lvl srv size [r] with
    | (s, true) => s.park w.id (((s.services.find? (·.same w.ctx a)).map (·.fault)).getD 0) r
    | (s, false) => s.tellFault (.walk w.id) a (fault4 r.1 7) r
  | .absent _ c | .fault c => s.tellFault (.walk w.id) a c r
  | .held => s

/-- A table that the walk reads stands in stacks that do not serve (R434). -/
def State.walkHeld (s : State) (w : Walk) : Bool := w.reqs.any fun r => match s.walk w.die w.ctx w.addr r.1 false with | .held => true | _ => false
/-- A walk ends, which has a walker: it serves every request merged into it (R379). -/
def execTranslationWalkComplete (walk : Nat) (s : State) : Host.Outcome State Fault Refusal :=
  .next (match s.walks.find? (·.id == walk) with
    | none => s
    | some w => if s.walking w && !s.walkHeld w then w.reqs.foldl (State.answerWalk w) { s with walks := s.walks.filter (·.id != walk) } else s)

/-! ### Services (R381) -/

def Service.addr (v : Service) : GAddr := ⟨v.space, BitVec.ofNat 64 v.off⟩

/-- A service has ended well: its requesters execute again. -/
def State.serviceDone (s : State) (v : Service) : State :=
  v.reqs.foldl (fun s r => s.tellReady (.parked v.fault) r) { s with services := s.services.filter (·.fault != v.fault) }
/-- A service has failed: detail 4.(8k + 7). -/
def State.serviceFailed (s : State) (v : Service) : State :=
  v.reqs.foldl (fun s r => s.tellFault (.parked v.fault) v.addr (fault4 r.1 7) r) { s with services := s.services.filter (·.fault != v.fault) }

def execGarleyPageService (fault : Nat) (s : State) : Host.Outcome State Fault Refusal :=
  .next (match (if s.frontUp then s.services.find? fun v => v.fault == fault && v.srv == 1 else none) with
    | none => s
    | some v =>
      match s.walk 7 v.ctx v.addr v.kind false with
      | .service _ 1 _ at' =>
        match s.garleyPage v.ctx at' with
        | some s => s.serviceDone v
        | none => s.serviceFailed v
      | .held => s
      | _ => s.serviceDone v)

end Sys2Proof.Machine
end

