-- ==== Sys2Proof/Machine/Gather.lean ====
section
/-! DEFINITION. The gatherer: queues of records, halving, the crews that form, the records of firings, the migration of spilled records
(R266 to R277, R281, R288, R292, R293). An event whose condition does not hold changes nothing (log 2). -/

namespace Sys2Proof.Machine

/-! ### Queues (R268, R269, R271) -/

/-- The placement instance of a record: its origin's hearth, quad or die, or the device. -/
def placeUnit (place origin : Nat) : Nat := if place = 0 then origin else if place = 1 then origin / 4 else if place = 2 then origin / 48 else 0
/-- The hearths of a placement instance. -/
def placeHearths (place unit : Nat) : List Nat :=
  if place = 0 then [unit] else if place = 1 then (List.range 4).map (· + 4 * unit) else if place = 2 then hearthsOfDie unit else List.range 192

/-- The record waits in a queue: its launch, window class and placement instance. -/
def KRecord.waitsIn (r : KRecord) (slot cls place unit : Nat) : Bool :=
  r.slot == slot && r.cls == cls && r.place == place && placeUnit place r.origin == unit

/-- Insert a record behind those that entered before it (R268). -/
def insertRecord (r : KRecord) : List KRecord → List KRecord
  | [] => [r]
  | q :: l => if q.order ≤ r.order then q :: insertRecord r l else r :: q :: l

/-- The records of some dies, those in the stores and those in the spill areas, oldest first. -/
def State.recordsOf (s : State) (dies : List Nat) : List KRecord :=
  (((s.dies.filter fun d => dies.contains d.n).flatMap (·.store))
    ++ ((s.slots.filter (·.busy)).flatMap fun l => l.spillRecs.filter fun r => dies.contains (dieOfHearth r.origin))).foldl
      (fun l r => insertRecord r l) []

/-- What a gathered crew of a launch and class needs (R270, R428): one crew, the launch's stash lines. -/
def gatherNeed (l : LaunchSlot) (cls grate : Nat) : Need :=
  { grates := (List.range 4).map fun g => if g = grate then 1 else 0, regs := classRegs cls, lines := l.record.decl.lines, tiles := 0,
    accs := 0, bars := 0, energy := (undeclared 1 false).1, current := (undeclared 1 false).2 }
/-- A hearth can take it on some grate. -/
def State.gatherFits (s : State) (l : LaunchSlot) (cls hearth : Nat) : Bool :=
  (List.range 4).any fun g => s.fits hearth (gatherNeed l cls g) false

/-- A record that its die's gatherer could place now. -/
def State.placeable (s : State) (r : KRecord) : Bool :=
  let l := s.slot r.slot
  s.live l.ctx && (placeHearths r.place (placeUnit r.place r.origin)).any fun h => s.gatherFits l r.cls h

/-- The queue as a die's gatherer sees it: its own records, and those of other dies at placement device while it could place none of its
own (R271). -/
def State.gatherQueue (s : State) (die slot cls place unit : Nat) : List KRecord :=
  let mine := (s.recordsOf [die]).filter fun r => r.waitsIn slot cls place unit
  if place ≠ 3 then mine
  else if mine ≠ [] then mine
  else if (s.recordsOf [die]).any s.placeable then []
  else (s.recordsOf [0, 1, 2, 3]).filter fun r => r.waitsIn slot cls place unit

/-- 256 front cycles have passed at a hearth since a time: 10, 5 or 20 of 1/17 ns a cycle (R4, R269). -/
def State.windowOver (s : State) (hearth since : Nat) : Bool :=
  let front := (s.hearth hearth).front
  decide (256 * (if front = 1 then 5 else if front = 2 then 20 else 10) ≤ 17 * (s.ltime - since))
/-- The time from which a record's gather window counts: its entry, or the restore of its context after that (R292). -/
def State.windowStart (s : State) (r : KRecord) : Nat := max r.since (((s.context? (s.slot r.slot).ctx).map (·.restored)).getD 0)
/-- A queue may form a crew (R269, condition 1). -/
def State.gatherDue (s : State) (q : List KRecord) : Bool :=
  decide (32 ≤ q.length) || (match q with | r :: _ => s.windowOver r.origin (s.windowStart r) | [] => false)

/-- The first hearth of the instance with room, after the one that last received a crew from the queue. -/
def State.gatherHearth (s : State) (slot cls place unit : Nat) : Option Nat :=
  let last := (s.gathers.find? fun g => g.slot == slot && g.cls == cls && g.place == place && g.unit == unit).bind (·.lastHearth)
  let hs := placeHearths place unit
  let order := match last with | some h => hs.filter (fun x => decide (h < x)) ++ hs.filter (fun x => decide (x ≤ h)) | none => hs
  order.find? fun h => s.gatherFits (s.slot slot) cls h

/-! ### Records and images read back (R281, R293) -/

/-- A continuation record that stands in the first block of its image (R281). -/
def KRecord.hosted (r : KRecord) : Bool := r.kind == 2 && r.spill.isSome
/-- The run of blocks of an image is free. -/
def State.freeImage (s : State) (slot image : Nat) : State :=
  s.updSlot slot fun l => { l with spill := l.spill.filter fun x => x.1 != image / 64 }
/-- A record leaves the store or the area; the block of a spilled one is freed, an image's blocks at its start. -/
def State.dropRecord (s : State) (r : KRecord) : State :=
  match r.spill with
  | none => s.updDie (dieOfHearth r.origin) fun d => { d with store := d.store.erase r }
  | some b => s.updSlot r.slot fun l =>
      { l with spillRecs := l.spillRecs.erase r, spill := if r.hosted then l.spill else l.spill.erase (b, 1) }

/-- The record of a damaged block (R293). -/
def State.damaged (s : State) (l : LaunchSlot) (off : Nat) (bs : Option (List Byte)) : State :=
  s.kindlingRecord l 0x21 off (bs.getD (freeBytes s.run.tick 15 off 32))

/-- The bytes of a block of a launch's spill area, as the kindling interface of a record's die reads them. -/
def State.readBlock (s : State) (r : KRecord) (off : Nat) : Option (List Byte) :=
  let l := s.slot r.slot
  s.unitRead (dieOfHearth r.origin) l.ctx (l.record.spillBase + off) 64

/-- The entry directory of a record's launch, as the kindling interface of its die fetches it: as code (R100, R263). -/
def State.readDirectory (s : State) (r : KRecord) : Option (List Byte) :=
  let l := s.slot r.slot
  match s.unitXlate (dieOfHearth r.origin) l.ctx 2 ⟨0, BitVec.ofNat 64 (l.record.codeBase - 1536)⟩ with
  | .ok s (.dev pa) => if s.poisoned (.dev pa) 1024 then none else some (s.codeBytes l pa 1024)
  | _ => none

/-- The record as it is read back: a spilled one from its block, checked; none if it is discarded. A continuation's is not looked up in the directory:
it starts at its `jwait` (R281). One whose block or whose directory cannot be read or translated is discarded as damaged (DESIGN CHOICE, log 103). -/
def State.readRecord (s : State) (r : KRecord) : State × Option KRecord :=
  match r.spill with
  | none => (s, some r)
  | some b =>
    let l := s.slot r.slot
    match s.readBlock r (64 * b) with
    | none => (s.damaged l (64 * b) none, none)
    | some bs =>
      let r' := KRecord.ofBytes r bs
      match (if r'.kind = 2 then some (classRegs r.cls) else (s.readDirectory r).bind fun d => dirLookup d r'.entry) with
      | some regs =>
        if recordSound l.n l.gen bs then (s, some { r' with regs := min regs (classRegs r.cls) }) else (s.damaged l (64 * b) (some bs), none)
      | none => (s.damaged l (64 * b) (some bs), none)

/-- The image of a continuation (Table 15.5), as far as its allocation goes; the interface keeps the first block of one that hosts its
record. -/
def State.readImage (s : State) (r : KRecord) : Option (List Byte) :=
  (List.range (imageBlocks (classRegs r.cls))).foldl (fun (o : Option (List Byte)) i => o.bind fun bs =>
    if 64 ≤ bs.length ∧ imageBlocks (8 * ((bs.getD 7 0).toNat)) ≤ i then some bs
    else if i = 0 ∧ r.hosted then some r.head
    else (s.readBlock r (r.image + 64 * i)).map (bs ++ ·)) (some [])

/-- The check of R293 on an image: reserved fields, launch slot. -/
def imageSound (l : LaunchSlot) (bs : List Byte) : Bool :=
  let n (lo k : Nat) : Nat := leNat ((bs.drop lo).take k)
  n 0x1A 1 == l.n && n 0x1B 1 == l.gen && n 0x1C 1 < 128 && n 0x1D 3 == 0

/-! ### Halving (R274) -/

/-- Pieces of a range record. -/
def KRecord.pieces (r : KRecord) : Nat := if r.kind = 1 then ceilDiv (r.hi - r.lo) r.grain else 0
/-- The two halves of a range record. -/
def KRecord.halves (r : KRecord) : List KRecord :=
  let m := r.lo + r.grain * (r.pieces / 2)
  [{ r with hi := m }, { r with lo := m }]
/-- The first record equal to one, replaced by others in its place. -/
def replaceFirst (r : KRecord) (new : List KRecord) : List KRecord → List KRecord
  | [] => []
  | q :: l => if q = r then new ++ l else q :: replaceFirst r new l

/-- The largest range record that can be halved, the one nearer the head on a tie. -/
def largestRange (q : List KRecord) : Option KRecord :=
  (q.filter fun r => decide (2 ≤ r.pieces)).foldl (fun best r => match best with
    | none => some r
    | some b => if b.pieces < r.pieces then some r else some b) none

/-- A range record is halved: one of the store in its place there; of one in the spill area, which is read back, the first half goes to the store and
the second keeps the block (DESIGN CHOICE, log 103). -/
def State.halveOne (s : State) (r : KRecord) : State :=
  let die := dieOfHearth r.origin
  match r.spill with
  | none => s.updDie die fun d => { d with store := replaceFirst r r.halves d.store }
  | some b =>
    match s.readRecord r with
    | (s, none) => s.dropRecord r
    | (s, some x) =>
      let l := s.slot r.slot
      let keep (s : State) (y : KRecord) : State := s.updSlot r.slot fun l => { l with spillRecs := replaceFirst r [y] l.spillRecs }
      match (if 2 ≤ x.pieces then x.halves else []) with
      | [lo, hi] =>
        match s.unitWrite die l.n l.ctx (l.record.spillBase + 64 * b) hi.bytes with
        | some s => keep (s.updDie die fun d => { d with store := d.store ++ [{ lo with spill := none }] }) hi
        | none => s
      | _ => keep s x

/-- Halve the ranges of a queue until it holds 32 records or none can be halved. -/
def State.halve (look : State → List KRecord) : Nat → State → State
  | 0, s => s
  | n + 1, s =>
    let q := look s
    if 32 ≤ q.length then s
    else match largestRange q with
      | none => s
      | some r =>
        if storeSize ≤ (s.die (dieOfHearth r.origin)).store.length then s else State.halve look n (s.halveOne r)

/-- No plain record is pending in a queue of the same placement instance. -/
def State.noPlain (s : State) (place unit : Nat) : Bool :=
  (s.recordsOf [0, 1, 2, 3]).all fun r => r.kind != 0 || r.place != place || placeUnit place r.origin != unit

/-! ### The fibres of records (R266, R273, R275, R281) -/

/-- The fibre of a plain, range or firing record. -/
def KRecord.fibre (r : KRecord) (uid cohort vlane : Nat) : Fibre :=
  let f := Fibre.blank uid cohort 0 vlane r.regs r.entry
  let first : List Word := if r.kind = 1 then [BitVec.ofNat 32 r.lo, BitVec.ofNat 32 r.hi] else []
  let vals := first ++ r.payload.take r.npay
  { f with arch := { f.arch with regs := (vals ++ f.arch.regs.drop vals.length).take r.regs, depth := r.depth }
           join := r.join, rangeLen := if r.kind = 1 then r.hi - r.lo else 1 }

/-- The fibre of an image: its registers, window, predicates and spaces. -/
def imageFibre (uid cohort vlane limit : Nat) (bs : List Byte) : Fibre :=
  let n (lo k : Nat) : Nat := leNat ((bs.drop lo).take k)
  let alloc := min limit (8 * n 7 1)
  let f := Fibre.blank uid cohort 0 vlane alloc (BitVec.ofNat 32 (n 0 4))
  { f with
    arch := { f.arch with
      pword := BitVec.ofNat 8 (n 4 1) ||| 0x80, wbase := n 5 1, depth := n 6 1, gwct := n 8 8
      regs := (List.range alloc).map (fun k => BitVec.ofNat 32 (n (0x40 + 4 * k) 4))
      fflags := BitVec.ofNat 5 (n 0x1C 1), frm := BitVec.ofNat 2 (n 0x1C 1 / 32)
      spaces := (List.range 4).map (fun k => BitVec.ofNat 16 (n (0x20 + 2 * k) 2)) }
    join := ⟨BitVec.ofNat 16 (n 0x18 2), BitVec.ofNat 64 (n 0x10 8)⟩, rangeLen := n 0x38 8 }

/-- The fibre that a record starts as a vlane of a cohort; none if the record or its image is discarded. -/
def State.startRecord (s : State) (r : KRecord) (uid cohort vlane : Nat) : State × Option Fibre :=
  let (s, back) := s.readRecord r
  let s := s.dropRecord r
  match back with
  | none => (if r.hosted then s.freeImage r.slot r.image else s, none)
  | some r =>
    if r.kind = 2 then
      let l := s.slot r.slot
      match s.readImage r with
      | some bs =>
        if imageSound l bs then (s.freeImage r.slot r.image, some (imageFibre uid cohort vlane (classRegs r.cls) bs))
        else ((s.damaged l r.image (some bs)).freeImage r.slot r.image, none)
      | none => ((s.damaged l r.image none).freeImage r.slot r.image, none)
    else (s, some (r.fibre uid cohort vlane))

/-- The fibres of a crew: record i becomes vlane i, discarded ones left out. -/
def State.startAll (s : State) (cohort : Nat) : List KRecord → List Fibre → State × List Fibre
  | [], fs => (s, fs)
  | r :: rs, fs =>
    match s.startRecord r (cohort + 1 + fs.length) cohort fs.length with
    | (s, some f) => State.startAll s cohort rs (fs ++ [f])
    | (s, none) => State.startAll s cohort rs fs

/-! ### The crew (R269, R270) -/

/-- The units of a hearth that a gathered crew of n fibres may backfill: some of their fibres have exited, the register slots are of its
size, the context is its own, a confidential launch stays by itself, and no crew is of a paired launch (R58). -/
def State.backfillable (s : State) (l : LaunchSlot) (hearth size n : Nat) : List IssueUnit :=
  s.units.filter fun u => u.hearth == hearth && !u.paired && !l.record.paired && s.unitRegs u == size
    && s.fibres.any (fun f => u.crews.contains (f.cohort, f.crew) && f.exited) && decide ((s.unitLive u).length + n ≤ 32) && (s.unitSlot u).ctx == l.ctx
    && ((!(s.unitSlot u).record.conf && !l.record.conf) || (s.unitSlot u).n == l.n)

/-- A gathered crew joins a unit on its free lanes, as a crew of its own (R58). -/
def State.backfill (s : State) (cohort : Nat) (u : IssueUnit) (fs : List Fibre) : State :=
  let s := (s.moveTo u fs).updCrew cohort 0 fun w => { w with grate := u.grate, unit := u.slot }
  { s with units := s.units.map fun v => if v = u then { v with crews := v.crews ++ [(cohort, 0)] } else v }

/-- The hearth that last received a crew from a queue. -/
def State.noteGather (s : State) (slot cls place unit hearth : Nat) : State :=
  { s with gathers := { slot := slot, cls := cls, place := place, unit := unit, lastHearth := some hearth } :: s.gathers.filter fun g =>
      !(g.slot == slot && g.cls == cls && g.place == place && g.unit == unit) }

/-- A crew of the oldest records forms on a hearth: in a unit of its own on the grate with the most free crew slots, or beside others in a
unit that it backfills, which is free (log 41). -/
def State.formCrew (s : State) (slot cls place unit hearth : Nat) (rs : List KRecord) : State :=
  let uid := s.run.nextUid
  let (s, fs) := s.startAll uid rs []
  if fs = [] then s
  else
    let l := s.slot slot
    let co : Cohort :=
      { uid := uid, slot := slot, number := 0xFFFFFFFFFFFF, hearth := hearth, gathered := true,
        decl := { regs := classRegs cls, bars := 0, lines := l.record.decl.lines, tiles := 0, accs := 0 },
        crews := [Crew.fresh 0 0 0 (classRegs cls)], stash := [], lines := (List.range l.record.decl.lines).map StashLine.region, bars := [],
        tiles := [], accs := [], tileStatus := 0, wptr := [0, 0, 0, 0], flushed := 0, energy := (undeclared 1 false).1, current := (undeclared 1 false).2,
        metered := 0, held := false, run := .running }
    let s := { s with cohorts := s.cohorts ++ [co], fibres := s.fibres ++ fs, run := { s.run with nextUid := uid + 1 + fs.length } }.noteGather slot cls place unit hearth
    match Config.choice s.run.tick 27 0 with
    | 0 => s.seatCrew hearth uid 0 ((s.bestGrate hearth (classRegs cls)).getD 0) l.record.paired
    | k + 1 =>
      match (s.backfillable l hearth (classRegs cls) fs.length)[k]? with
      | some u => s.backfill uid u fs
      | none => s.seatCrew hearth uid 0 ((s.bestGrate hearth (classRegs cls)).getD 0) l.record.paired

/-- Where the queue forms its crew now, if both conditions of R269 hold, and the stacks serve the blocks that are read back (R434). -/
def State.gatherAt (s : State) (die launch cls place unit : Nat) : Option Nat :=
  let q := s.gatherQueue die launch cls place unit
  if q = [] ∨ !s.live (s.slot launch).ctx ∨ !s.gatherDue q ∨ (!s.emberUp && q.any fun r => r.spill.isSome || r.kind == 2) then none else s.gatherHearth launch cls place unit

def execGatherCrew (die launch cls place unit : Nat) (s : State) : Host.Outcome State Fault Refusal :=
  .next (match s.gatherAt die launch cls place unit with
    | none => s
    | some h =>
      let look (s : State) : List KRecord := s.gatherQueue die launch cls place unit
      let s := if s.noPlain place unit then s.halve look 32 else s
      s.formCrew launch cls place unit h ((look s).take 32))

/-- A queue that can form its crew, which it does at the first moment at which it can (R269). -/
def State.nextGather (s : State) : Option Instr :=
  let all := s.recordsOf [0, 1, 2, 3]
  ((all.map fun r => (r.slot, r.cls, r.place, placeUnit r.place r.origin)).eraseDups).findSome? fun k =>
    ([0, 1, 2, 3].find? fun d => (s.gatherAt d k.1 k.2.1 k.2.2.1 k.2.2.2).isSome).map fun d => .gatherCrew d k.1 k.2.1 k.2.2.1 k.2.2.2

/-- Records of the spill areas move into the store as its space frees, oldest first; a continuation's, and
its image is whole again (R276, R281, R293). -/
def execSpillRecordMigration (die : Nat) (s : State) : Host.Outcome State Fault Refusal :=
  .next (if decide (storeSize ≤ (s.die die).store.length) || !s.emberUp then s
    else match (s.recordsOf [die]).find? (·.spill.isSome) with
      | none => s
      | some r =>
        let (s, back) := s.readRecord r
        let s := s.dropRecord r
        match back with
        | some r' =>
          let l := s.slot r.slot
          let s := if r.hosted then (s.unitWrite die l.n l.ctx (l.record.spillBase + r.image) r.head).getD s else s
          s.updDie die fun d => { d with store := d.store ++ [{ r' with spill := none, head := [] }] }
        | none => if r.hosted then s.freeImage r.slot r.image else s)

/-- The record of a pending firing is made as soon as there is room (R288). -/
def execWatchFiringRecord (die index : Nat) (s : State) : Host.Outcome State Fault Refusal :=
  .next (match (s.die die).watches.find? fun w => w.index == index && w.state == .pending with
    | none => s
    | some w =>
      if s.live w.ctx then s.fireWatch die index else s)

end Sys2Proof.Machine
end

