-- ==== Sys2Proof/Machine/Packets.lean ====
section
/-! DEFINITION. The packets of the queues: launches and their completion, buffers, timelines, fences, layouts, copies, recovery actions,
priorities and queries (R48 to R56, R284, R291, R360 to R370, R398, R391, R407). An event whose condition does not hold changes nothing
(log 2). -/

namespace Sys2Proof.Machine

/-! ### Launch records (Tables 3.2 to 3.5, R48 to R55) -/

/-- Bits lo … lo + n − 1 of a number. -/
def bitsAt (x lo n : Nat) : Nat := x / 2 ^ lo % 2 ^ n

/-- A launch record as it is read. -/
def LaunchRec.ofBytes (bs : List Byte) : LaunchRec :=
  let n (lo k : Nat) : Nat := leNat ((bs.drop lo).take k)
  let c := n 0 8
  let r := n 0xA8 8
  { codeBase := n 8 8, entry := BitVec.ofNat 32 (n 0x10 4), handler := BitVec.ofNat 32 (n 0x14 4), arg := BitVec.ofNat 64 (n 0x18 8),
    depth := bitsAt c 40 8, lease := bitsAt c 36 4, paired := c.testBit 31, contained := c.testBit 30, conf := c.testBit 29,
    prio := bitsAt c 27 2, starve := if bitsAt c 20 7 = 0 then 8 else bitsAt c 20 7,
    levels := (List.range (bitsAt c 32 4)).map (fun i => let d := n (0x20 + 8 * i) 8; (d / 2 ^ 32, bitsAt d 28 4, bitsAt d 24 4)),
    formats := (List.range 8).map (fun i => BitVec.ofNat 32 (n (0x60 + 4 * i) 4)), spillBase := n 0x80 8, spillSize := n 0x88 8,
    stall := n 0x90 4, watchdog := n 0x94 4, energy := n 0x98 4, current := n 0x9C 4, rank := n 0xA0 2, peers := n 0xA2 2,
    decl := { regs := 8 * bitsAt r 0 6, bars := bitsAt r 6 6, lines := bitsAt r 12 12, tiles := bitsAt r 24 5, accs := bitsAt r 29 4 } }

/-- The fields of a record by themselves (R48, R126). -/
def recordFieldsOk (conf : Bool) (bs : List Byte) : Bool :=
  let n (lo k : Nat) : Nat := leNat ((bs.drop lo).take k)
  let c := n 0 8
  let r := LaunchRec.ofBytes bs
  let lv := bitsAt c 32 4
  bitsAt c 56 8 == 1 && bitsAt c 48 8 == 1 && r.depth != 0 && decide (r.lease ≤ 8) && decide (1 ≤ lv) && decide (lv ≤ 8)
    && (!r.conf || conf) && decide (r.starve ≤ 64) && bitsAt c 0 20 == 0
    && r.codeBase % 4096 == 0 && decide (4096 ≤ r.codeBase) && r.arg.toNat % 8 == 0
    && r.spillSize % 64 == 0 && (r.spillBase != 0 || r.spillSize == 0)
    && (List.range 8).all (fun i =>
      let d := n (0x20 + 8 * i) 8
      if i < lv then d % 2 ^ 24 == 0 && d / 2 ^ 32 != 0 && decide (bitsAt d 28 4 ≤ 8) && decide (bitsAt d 24 4 ≤ 11) else d == 0)
    && r.formats.all descOk && n 0xA4 4 == 0 && (bs.drop 0xB0).all (· == 0)
    && n 0xA8 8 / 2 ^ 33 == 0 && decide (8 ≤ r.decl.regs) && decide (r.decl.regs ≤ 256) && decide (r.decl.bars ≤ 32)
    && decide (r.decl.lines ≤ 3072) && decide (r.decl.tiles ≤ 16) && decide (r.decl.accs ≤ 8)

/-- Values of a list rise strictly. -/
def rising : List Nat → Bool
  | a :: b :: l => decide (a < b) && rising (b :: l)
  | _ => true

/-- The scope code of a domain (Table 3.6). -/
def domainScope (d : Nat) : Nat := if d = 8 then 9 else d

/-- The hierarchy (R50, R51, R53) and the scopes of the inner levels (R52). -/
def LaunchRec.levelsOk (r : LaunchRec) : Bool :=
  let doms := r.levels.map (·.2.1)
  decide (product (r.levels.map (·.1)) < 2 ^ 48) && doms.headD 9 == 0 && rising doms
    && (r.levels.all fun l => (l.2.1 != 0 && l.2.1 != 1) || decide (l.1 ≤ 32))
    && (if doms.contains 8 then (r.levels.getLast?.map (·.1)) == some r.peers && decide (r.rank < r.peers) else r.peers == 0)
    && (doms.contains 2 || r.levels.all fun l => decide (l.2.1 < 3) || l.2.1 == 8 || l.1 == 1)
    && decide (r.cohortSize ≤ 1024) && decide (r.crews ≤ 32)
    && (r.levels.zip (r.levels.drop 1)).all fun x => decide (domainScope x.2.2.1 ≤ x.1.2.2)
    && decide (ceilDiv r.crews 4 ≤ min 16 (1024 / max 1 r.decl.regs))

/-- The outermost level and the charges (R52, R54, R55, R428): the grid whole in one unit of its scope, or placed element by element under
a scope wide enough; a charge that no empty hearth's budget holds is rejected. -/
def State.placesOk (s : State) (r : LaunchRec) : Bool :=
  let v := s.vacant
  let outer : Nat := (r.levels.getLast?.map (·.2.1)).getD 0
  ((v.placeWhole r).isSome || ((v.placeNext r []).isSome && decide ((if outer = 8 then 9 else 7) ≤ r.outerScope)))
    && (decide (outer ≠ 8) || decide (9 ≤ r.outerScope))
    && (List.range 192).any fun h =>
      decide ((r.charge r.crews).1 ≤ (s.hearth h).budget.1) && decide ((r.charge r.crews).2 ≤ (s.hearth h).budget.2)

def State.launchOk (s : State) (conf : Bool) (bs : List Byte) : Bool :=
  let r := LaunchRec.ofBytes bs
  recordFieldsOk conf bs && r.levelsOk && s.placesOk r

/-- A launch takes the lowest free slot (R366). -/
def State.takeSlot (s : State) (q : Queue) (p : Pkt) (r : LaunchRec) (n : Nat) : State :=
  let old := s.slot n
  let l : LaunchSlot :=
    { n := n, gen := (old.gen + 1) % 256, busy := true, queue := q.n, pkt := p.id, ctx := q.ctx, prio := min r.prio q.priority,
      order := s.run.nextOrder, record := r, next := 0, total := r.cohorts, resident := s.fitsWhole r, spill := [],
      spillRecs := [], retries := 0, demoted := false, leaving := false, staged := [], gwct := 0, colls := 0, aborting := none, code := s.mem }
  { s.setSlot l with run := { s.run with nextOrder := s.run.nextOrder + 1 } }

def execLaunch (queue : Nat) (s : State) : Host.Outcome State Fault Refusal :=
  .next (s.packetStep queue 1 fun s q p =>
    if s.exclusiveWaits q.ctx then s.queueSettle queue
    else match s.frontRead q.ctx (ownAddr (p.field 8 8)) 256 with
    | .ok s bs _ =>
      let conf := ((s.context? q.ctx).map (·.confidential)).getD false
      if !s.launchOk conf bs then s.packetBad queue p 0x05
      else match (List.range 256).find? fun n => !(s.slot n).busy with
        | some n => (s.takeSlot q p (LaunchRec.ofBytes bs) n).startPkt queue p.id
        | none => s.queueSettle queue
    | r => s.pktStop queue 0 p r)

/-! ### The end of a launch (R56, R284, R411) -/

/-- Nothing of a launch is left: every cohort has been placed and has ended, no record and no continuation remains. -/
def State.launchOver (s : State) (l : LaunchSlot) : Bool :=
  l.busy && l.next == l.total && l.aborting.isNone && s.cohorts.all (fun c => c.slot != l.n)
    && s.dies.all (fun d => d.store.all fun r => r.slot != l.n) && l.spillRecs.isEmpty && s.joinWatches.all (fun w => w.slot != l.n)
    && s.run.fired.all (fun w => w.slot != l.n)
    && s.dies.all fun d => d.watches.all fun w => w.record.slot != l.n || w.state != .pending

/-- The launch completes: its watches and its slot are freed, its packet has completed; queues that wait for a slot go on. -/
def State.endLaunch (s : State) (slot : Nat) : State :=
  (((s.clearLaunch slot).freeSlot slot).finishPkt (s.slot slot).queue (s.slot slot).pkt).settleQueues

/-- The completion is a release of every write of the launch (R56): its step 3 is performed (R214). -/
def State.launchReleased (s : State) (l : LaunchSlot) : Bool := l.gwct == 0 || decide (l.gwct + 8 ≤ s.ltimeAt 4)

/-- The staged lines of a node that is over, or about to be demoted, commit one by one (R410, R411); a node that is over then completes. -/
def execContainedNodeCommit (slot : Nat) (s : State) : Host.Outcome State Fault Refusal :=
  .next (let l := s.slot slot
    if l.node.isNone || !(l.leaving || s.launchOver l) then s
    else if l.staged != [] then s.commitNext slot
    else if s.frontUp && s.launchOver l && s.launchReleased l then s.endLaunch slot else s)

def execLaunchComplete (slot : Nat) (s : State) : Host.Outcome State Fault Refusal :=
  .next (let l := s.slot slot
    if s.frontUp && s.launchOver l && l.node.isNone && s.launchReleased l then s.endLaunch slot else s)

/-- The next cohorts of a launch are placed where they fit. -/
def execCohortAdmit (slot : Nat) (s : State) : Host.Outcome State Fault Refusal :=
  .next (if s.frontUp && s.mayPlace (s.slot slot) then
    match s.nextPlan slot with
    | some plan => s.admitPlan slot plan
    | none => s
  else s)

/-! ### Rings, buffers and the plain packets -/

def execTailLineStore (queue : Nat) (s : State) : Host.Outcome State Fault Refusal := .next (s.readTail queue)
def execNopPacket (queue : Nat) (s : State) : Host.Outcome State Fault Refusal :=
  .next (s.packetStep queue 0 fun s _ p => s.finishPkt queue p.id)
def execIndirect (queue : Nat) (s : State) : Host.Outcome State Fault Refusal :=
  .next (s.packetStep queue 2 fun s _ p => s.startPkt queue p.id)
/-- Its release and its acquire are performed once every earlier packet has completed and the front end's stores are acknowledged; at `.rcv`, once no
point of its context is sealing (R396). -/
def execFencePacket (queue : Nat) (s : State) : Host.Outcome State Fault Refusal :=
  .next (s.packetStep queue 5 fun s q p => if s.frontAcked && !s.fenceWaits q p then s.finishPkt queue p.id else s)
def execPriority (queue : Nat) (s : State) : Host.Outcome State Fault Refusal :=
  .next (s.packetStep queue 9 fun s _ p =>
    let t := s.queue (p.field 8 1)
    (s.setQueue { t with priority := p.field 9 1 }).finishPkt queue p.id)

/-! ### Timelines (R291, R399) -/

def execWait (queue : Nat) (s : State) : Host.Outcome State Fault Refusal :=
  .next (s.packetStep queue 3 fun s _ p => s.startPkt queue p.id)
def execWaitThresholdReached (queue : Nat) (s : State) : Host.Outcome State Fault Refusal :=
  .next (let q := s.queue queue
    match (if s.frontUp then q.waitingOn else none) with
    | none => s
    | some p =>
      match s.frontRead q.ctx (ownAddr (p.field 8 8)) 8 with
      | .ok s bs _ => if timelineReached (BitVec.ofNat 64 (leNat bs)) (BitVec.ofNat 64 (p.field 16 8)) then s.finishPkt queue p.id else s
      | r => s.pktStop queue 0 p r)

/-- The signal list of a context: the first 64 addresses; the first one beyond it leaves a record (R399). -/
def State.noteSignal (s : State) (ctx addr : Nat) : State :=
  match s.context? ctx with
  | none => s
  | some c =>
    if c.recovery.signals.contains addr then s
    else if c.recovery.signals.length < 64 then s.updRecovery ctx fun r => { r with signals := r.signals ++ [addr] }
    else if c.recovery.signalFull then s
    else (s.updRecovery ctx fun r => { r with signalFull := true }).recoveryRecord ctx 0x02 addr

/-- A release at `.sys`, which waits for the front end's stores, then its own access: a write, or an addition to what stands there. -/
def execSignal (queue : Nat) (s : State) : Host.Outcome State Fault Refusal :=
  .next (s.packetStep queue 4 fun s q p =>
    let a := ownAddr (p.field 8 8)
    let put (s : State) (v : Nat) : State :=
      match s.frontWrite q.ctx (pktAgent p.id) a (leBytes 8 v) with
      | .ok s _ _ => (s.noteSignal q.ctx (p.field 8 8)).finishPkt queue p.id
      | r => s.pktStop queue 1 p r
    if !s.frontAcked then s
    else if p.field 0x18 1 = 0 then put s (p.field 16 8)
    else match s.frontRead q.ctx a 8 with
      | .ok s bs _ => put s ((leNat bs + p.field 16 8) % 2 ^ 64)
      | r => s.pktStop queue 0 p r)

/-! ### Layouts and copies (R363) -/

def execLayout (queue : Nat) (s : State) : Host.Outcome State Fault Refusal :=
  .next (s.packetStep queue 6 fun s q p =>
    match s.frontRead q.ctx (ownAddr (p.field 16 8)) 64 with
    | .ok s bs _ =>
      if leNat ((bs.drop 0xA).take 2) ≠ q.ctx then s.packetBad queue p 0x07
      else
        let pa := ((s.context? q.ctx).map (·.layoutAddr)).getD 0 + 64 * p.field 8 2
        (s.outsideStore (pktAgent p.id) (.dev pa) bs).finishPkt queue p.id
    | r => s.pktStop queue 0 p r)

/-- A COPY starts: its source is read. -/
def State.copyStart (s : State) (n : Nat) (q : Queue) (p : Pkt) : State :=
  if p.field 32 8 = 0 then s.finishPkt n p.id
  else match s.frontRead q.ctx ⟨(spacesOf p).1, BitVec.ofNat 64 (p.field 8 8)⟩ (p.field 32 8) with
    | .ok s bs _ => (s.setQueue ((s.queue n).updPkt p.id fun p => { p with data := bs })).startPkt n p.id
    | r => s.pktStop n 0 p r

/-- The next line of a COPY is written; after the last, it completes once every store is acknowledged (R213). -/
def State.copyNext (s : State) (n : Nat) (q : Queue) (p : Pkt) : State :=
  if p.data = [] then (if s.acked (pktAgent p.id) then (s.forget (pktAgent p.id)).finishPkt n p.id else s)
  else
    let off := p.field 16 8 + (p.field 32 8 - p.data.length)
    let k := 64 - off % 64
    match s.frontWrite q.ctx (pktAgent p.id) ⟨(spacesOf p).2, BitVec.ofNat 64 off⟩ (p.data.take k) with
    | .ok s _ _ => s.setQueue ((s.queue n).updPkt p.id fun p => { p with data := p.data.drop k })
    | r => s.pktStop n 1 p r

/-- Copies that run go on, or the next packet starts: which is free. -/
def execCopy (queue : Nat) (s : State) : Host.Outcome State Fault Refusal :=
  .next (let q := s.queue queue
    let busy := if s.frontUp then q.pkts.filter fun p => p.started && !p.done && p.op == 7 else []
    let c := Config.choice s.run.tick 4 queue
    match (if c % 2 = 0 then busy[c / 2 % max 1 busy.length]? else none) with
    | some p => s.copyNext queue q p
    | none => s.packetStep queue 7 fun s q p => s.copyStart queue q p)

/-! ### Recovery actions (R391, R398, R407) -/

/-- The close finds the packet itself complete: the frontier counts it, as R392 requires (DEDUCED, log 22). -/
def execRecoverClose (queue : Nat) (s : State) : Host.Outcome State Fault Refusal :=
  .next (s.packetStep queue 8 fun s q p =>
    if ((s.context? q.ctx).bind fun c => c.recovery.sealing).isSome then s
    else (s.finishPkt queue p.id).closePoint q.ctx)
def execRecoverDiscard (queue : Nat) (s : State) : Host.Outcome State Fault Refusal :=
  .next (s.packetStep queue (8 + 256 * 2) fun s q p => (s.discardPoint q.ctx).finishPkt queue p.id)
/-- The queue goes on with the packet after its RECOVER; a launch of it that the replay abandoned is over for it. -/
def execRecoverReplay (queue : Nat) (s : State) : Host.Outcome State Fault Refusal :=
  .next (s.packetStep queue (8 + 256) fun s q p =>
    let s := (s.finishPkt queue p.id).replay q.ctx (some queue)
    (((s.queue queue).pkts.filter fun r => r.started && !r.done && r.op == 1).foldl (fun s r => s.finishPkt queue r.id) s).settleQueues)

/-! ### Queries (Table 20.9) -/

/-- A coordinate as a NUM (R424). -/
def numOf : List Nat → List Nat → Nat
  | e :: es, c :: cs => c + 2 ^ dimWidth e * numOf es cs
  | _, _ => 0

/-- The state of a queue as QUERY reports it. -/
def queryState : QueueState → Nat
  | .unbound | .idle => 0 | .running => 1 | .waiting => 2 | .halted => 3 | .suspended => 4 | .barred => 5

def State.queryBytes (s : State) (q : Queue) (sel : Nat) : List Byte :=
  if sel = 0 then
    leBytes 1 q.n ++ leBytes 1 (queryState q.state) ++ leBytes 1 q.priority ++ leBytes 1 q.privileged.toNat ++ leBytes 1 q.k ++ leBytes 3 0
      ++ leBytes 8 q.read ++ leBytes 8 q.completed ++ leBytes 8 q.tail ++ leBytes 8 s.ltime
  else if sel = 1 then
    let c := (s.context? q.ctx).getD default
    let r := c.recovery
    leBytes 2 c.id ++ leBytes 1 (c.confidential.toNat + 2 * c.barred.toNat) ++ leBytes 1 (min 255 c.guilt) ++ leBytes 1 (s.bound c.id).length
      ++ leBytes 3 0 ++ leBytes 8 r.rps ++ leBytes 8 r.rpo ++ leBytes 4 r.rpt ++ leBytes 4 r.replay ++ leBytes 4 c.pagesUsed
      ++ leBytes 4 c.pageQuota ++ leBytes 4 (min r.units.length r.quota) ++ leBytes 4 r.quota ++ leBytes 8 (s.mem.readLE c.ringAddr 8) ++ leBytes 8 s.ltime
  else
    let fenced := (s.hearths.filter (·.fenced)).length
    let up := (s.pkg.links.filter fun l => l.up && decide (l.n < 12)).foldl (fun m l => m + 2 ^ l.n) 0
    leBytes 4 s.pkg.stage.toNat ++ leBytes 2 (192 - fenced) ++ leBytes 2 fenced ++ leBytes 4 s.pkg.powerMw ++ leBytes 2 s.pkg.limitW ++ leBytes 2 0
      ++ (s.pkg.temps.flatMap fun t => leBytes 1 t) ++ leBytes 2 0 ++ leBytes 8 Config.romVersion.toNat
      ++ leBytes 8 ((memTop - (s.pkg.frames.map (·.2.1)).sum) / 4096) ++ leBytes 2 (numOf s.pkg.dims s.pkg.coord)
      ++ leBytes 1 s.pkg.dims.length ++ leBytes 1 0 ++ leBytes 2 up ++ leBytes 2 0 ++ leBytes 8 s.ltime

/-- The values are read when the packet starts; the write is a release, which waits for the front end's stores. -/
def execQuery (queue : Nat) (s : State) : Host.Outcome State Fault Refusal :=
  .next (let q := s.queue queue
    match (if s.frontAcked && s.frontUp then q.pkts.find? fun p => p.started && !p.done && p.op == 10 else none) with
    | some p =>
      match s.frontWrite q.ctx (pktAgent p.id) (ownAddr (p.field 8 8)) p.data with
      | .ok s _ _ => s.finishPkt queue p.id
      | r => s.pktStop queue 1 p r
    | none => s.packetStep queue 10 fun s q p =>
      let bs := padBytes 64 (s.queryBytes q (p.field 16 1))
      (s.setQueue ((s.queue queue).updPkt p.id fun p => { p with data := bs })).startPkt queue p.id)

end Sys2Proof.Machine
end

