-- ==== Sys2Proof/Machine/Manage.lean ====
section
/-! DEFINITION. The management window: the handshake, sessions and their tags, and Garley's commands (R371 to R375, R381). An event whose
condition does not hold changes nothing (log 2). -/

namespace Sys2Proof.Machine

/-! ### The command and its result (Tables 20.11 and 20.12) -/

/-- The bytes of the buffer. -/
def Window.bytes (w : Window) (off n : Nat) : List Byte := Memory.bytes w.buffer off n
def Window.field (w : Window) (off n : Nat) : Nat := leNat (w.bytes off n)

def State.session? (s : State) (id : Nat) : Option Session := s.sessions.find? (·.id == id)

/-- The 16 bytes of a tag. -/
def macBytes (session : Nat) (result : Bool) (seq : Nat) (bs : List Byte) : List Byte := (padBytes 16 (Config.mac session result seq bs)).take 16

/-- Garley ends the command: header, result code, values, and the tag of a session that stands; then READY. -/
def State.answer (s : State) (code : Nat) (vals : List Byte) : State :=
  let w := s.window
  let sid := w.field 4 4
  let ses := if sid = 0 then none else s.session? sid
  let len := 16 + vals.length + (if ses.isSome then 16 else 0)
  let body := leBytes 1 (w.field 0 1) ++ leBytes 1 0 ++ leBytes 2 code ++ leBytes 4 len ++ w.bytes 8 8 ++ vals
  let bs := match ses with | some x => body ++ macBytes sid true x.responses body | none => body
  { s with
    window := { ready := true, result := BitVec.ofNat 16 code, buffer := Memory.putBytes w.buffer 0 (bs.take 4032), pending := none }
    sessions := s.sessions.map fun x => if ses.isSome && x.id == sid then { x with responses := x.responses + 1 } else x }

/-- Bytes of a command without its tag. -/
def commandSize : Nat → Nat
  | 1 => 0x28 | 2 => 0x10 | 3 => 0x40 | 4 => 0x11 | 5 => 0x20 | 6 => 0x28 | 7 => 0x1C | 8 => 0x18 | 9 => 0x12 | _ => 0x10

/-- What a command answers: a code alone, or the state that it leaves and its values. -/
inductive Answer where
  | no (code : Nat)
  | yes (s : State) (vals : List Byte)

/-- A command of a code, once it is there: first its tag, then its form, then its own conditions (R372, R373). `own`: whether it names a
context, which must then be its session's. -/
def State.command' (s : State) (code : Nat) (own : Bool) (reserved : Window → Bool) (k : State → Window → Option Context → Answer) : State :=
  let w := s.window
  match (if s.frontUp then w.pending else none) with
  | none => s
  | some len =>
    let sid := w.field 4 4
    let tagged := sid != 0
    let n := if tagged then len - 16 else len
    let ses := s.session? sid
    let tagOk := !tagged || (decide (16 ≤ len) && match ses with
      | some x => w.bytes n 16 == macBytes sid false x.requests (w.bytes 0 n)
      | none => false)
    let known := decide (1 ≤ w.field 0 1) && decide (w.field 0 1 ≤ 9)
    if known && w.field 0 1 != code then s
    else if !tagOk then s.answer 2 []
    else
      let s := if tagged then { s with sessions := s.sessions.map fun x => if x.id = sid then { x with requests := x.requests + 1 } else x } else s
      let ctx := w.field 2 2
      if !known || decide (n < commandSize code) || w.field 1 1 != 0 || reserved w || (!own && ctx != 0) then s.answer 3 []
      else
        let c := (s.context? ctx).filter fun c => c.owner == sid
        if own && c.isNone then s.answer 1 []
        else match k s w c with
          | .no r => s.answer r []
          | .yes s vals => s.answer 0 vals

/-- The session of the command has verified the measurements (R373, R375). -/
def State.verified (s : State) : Bool := ((s.session? (s.window.field 4 4)).map (·.verified)).getD false

/-! ### Contexts (R372, R375, R383, R393, R398) -/

/-- Frames in pieces, one run each, of a length and an alignment. -/
def State.reservePieces (s : State) (ctx : Nat) : List (Nat × Nat) → Option (State × List Nat)
  | [] => some (s, [])
  | (n, align) :: ns =>
    if n = 0 then (s.reservePieces ctx ns).map fun x => (x.1, 0 :: x.2)
    else match s.takeFrames ctx (ceilDiv n 4096 * 4096) align with
      | some (s, a) => (s.reservePieces ctx ns).map fun x => (x.1, a :: x.2)
      | none => none

/-- Frames for a new context; one run for all where there is one, else pieces (log 16). -/
def State.reserve (s : State) (ctx : Nat) (ns : List (Nat × Nat)) : Option (State × List Nat) :=
  let pages := ns.map fun n => ceilDiv n.1 4096 * 4096
  match s.takeFrames ctx pages.sum (2 ^ 19) with
  | some (s, a) => some (s, ns.zipIdx.map fun (n, i) => if n.1 = 0 then 0 else a + (pages.take i).sum)
  | none => s.reservePieces ctx ns

/-- Bytes of a mirror of an ember store (R393): two slots for each unit, two seal blocks, a page list; whole runs of 64 KiB, since those
alternate between the sides of the package (R421). -/
def mirrorBytes (quota : Nat) : Nat := ceilDiv (8192 * quota + 8192 + ceilDiv (16 * quota) 4096 * 4096) (2 ^ 16) * 2 ^ 16
/-- What a context takes, with alignments: the root table to 512 KiB (R378), the layout table, the ember store, mirror m in its runs of side
m, the error ring and the save area. -/
def contextPieces (quota e saveBytes : Nat) : List (Nat × Nat) :=
  [(2 ^ 19, 2 ^ 19), (2 ^ 22, 2 ^ 16), (2 * mirrorBytes quota, 2 ^ 17), (64 + 64 * 2 ^ e, 4096), (saveBytes, 4096)]

def Context.fresh (id owner : Nat) (conf : Bool) (pageQuota emberQuota e saveBytes : Nat) (at' : List Nat) : Context :=
  { id := id, owner := owner, confidential := conf, root := at'.getD 0 0, pageQuota := pageQuota, pagesUsed := 0, ringExp := e,
    ringAddr := at'.getD 3 0, saveAddr := at'.getD 4 0, saveBytes := saveBytes, layoutAddr := at'.getD 1 0, guilt := 0, barred := false,
    ranges := [],
    recovery := { rps := 0, rpo := 1, rpt := 0, replay := 0, quota := emberQuota, units := [], points := [], seals := [], signals := [],
                  signalFull := false },
    stopping := false, suspended := false, mode := 0, replaying := none, restored := 0, destroyed := false }

def execCreateContext (s : State) : Host.Outcome State Fault Refusal :=
  .next (s.command' 1 false
    (fun w => decide (1 < w.field 0x10 4) || w.field 0x1D 3 != 0 || decide (w.field 0x1C 1 < 4) || decide (12 < w.field 0x1C 1) || w.field 0x20 8 % 64 != 0)
    fun s w _ =>
      let conf := w.field 0x10 4 == 1
      let owner := w.field 4 4
      let (quota, e, save) := (w.field 0x18 4, w.field 0x1C 1, w.field 0x20 8)
      if conf ∧ owner = 0 then .no 1
      else match (List.range 4096).find? fun i => i != 0 && (s.context? i).isNone with
        | none => .no 4
        | some id =>
          match s.reserve id (contextPieces quota e save) with
          | none => .no 4
          | some (s, at') =>
            let c := Context.fresh id owner conf (w.field 0x14 4) quota e save at'
            .yes { s with contexts := (s.contexts.filter (·.id != id)) ++ [c] }
              (leBytes 2 id ++ leBytes 6 0 ++ leBytes 8 (if conf then 0 else c.root) ++ leBytes 8 c.ringAddr ++ leBytes 8 c.saveAddr))

/-- What the memory of an erased key reads as: ciphertext, whose bytes are open (R375). -/
def State.scramble (s : State) (ctx : Nat) : State :=
  { s with mem := (s.pkg.frames.filter (·.2.2 == ctx)).foldl (fun m f =>
      Memory.putBytes m f.1 ((List.range f.2.1).map fun i => BitVec.ofNat 8 (Config.choice s.run.tick 5 (f.1 + i)))) s.mem }

/-- Every trace of a context leaves: launches, queues, services, translations, its frames. -/
def State.destroyContext (s : State) (c : Context) : State :=
  let s := ((s.slots.filter fun l => l.busy && l.ctx == c.id).map (·.n)).foldl (fun s n => (s.clearLaunch n).freeSlot n) s
  let s := if c.confidential then s.scramble c.id else s
  let s := { s with
    queues := s.queues.map fun (q : Queue) => if q.ctx = c.id ∧ q.state ≠ QueueState.unbound then Queue.unbound q.n else q
    services := s.services.filter (·.ctx != c.id)
    walks := s.walks.filter (·.ctx != c.id)
    pkg := { s.pkg with frames := s.pkg.frames.filter (·.2.2 != c.id) }
    run := { s.run with escalations := s.run.escalations.filter (· != c.id) } }
  (s.tlbDrop (fun _ => true) (fun _ => true) (fun e => e.ctx == c.id) (fun x => x.1 == c.id)).updContext c.id fun c =>
    { c with destroyed := true, guilt := 0, barred := false }

def execDestroyContext (s : State) : Host.Outcome State Fault Refusal :=
  .next (s.command' 2 true (fun _ => false) fun s _ c => match c with
    | some c => .yes (s.destroyContext c) []
    | none => .no 1)

/-! ### Queues (R359, R367, R375) -/

/-- A ring or a tail line may lie in this device's memory, or, for a context that is not confidential, in a host range. -/
def State.lineSpace (s : State) (c : Context) (sp : BitVec 16) : Bool :=
  (s.spaceFault c.id sp).isNone && (spaceKind sp == 0 || (spaceKind sp == 2 && !c.confidential))

def execCreateQueue (s : State) : Host.Outcome State Fault Refusal :=
  .next (s.command' 3 true
    (fun w => w.field 0x1D 3 != 0 || w.field 0x2A 6 != 0 || w.field 0x3A 6 != 0 || decide (1 < w.field 0x1C 1) || decide (3 < w.field 0x1B 1)
      || decide (w.field 0x1A 1 < 4) || decide (16 < w.field 0x1A 1) || w.field 0x10 8 % 4096 != 0 || w.field 0x20 8 % 64 != 0
      || w.field 0x30 8 % 64 != 0)
    fun s w c => match c with
      | none => .no 1
      | some c =>
        let addr (off : Nat) : GAddr := ⟨BitVec.ofNat 16 (w.field (off + 8) 2), BitVec.ofNat 64 (w.field off 8)⟩
        let priv := w.field 0x1C 1 == 1
        if !s.lineSpace c (addr 0x10).space || !s.lineSpace c (addr 0x20).space || (s.spaceFault c.id (addr 0x30).space).isSome
            || spaceKind (addr 0x30).space == 1 then .no 3
        else if priv && !s.verified then .no 1
        else match (List.range 64).find? fun n => (s.queue n).state == .unbound with
          | none => .no 4
          | some n =>
            .yes (s.setQueue
              { Queue.unbound n with
                ctx := c.id, state := if c.barred then .barred else if c.suspended then .suspended else .idle, ring := addr 0x10,
                k := w.field 0x1A 1, priority := w.field 0x1B 1, privileged := priv, tailLine := addr 0x20, headLine := addr 0x30 }) (leBytes 1 n))

/-- The queue that a command names, of its context. -/
def State.namedQueue (s : State) (n : Nat) (c : Option Context) : Option Queue :=
  (c.map fun c => s.queue n |> fun q => (q, c)).bind fun x => if x.1.state != .unbound && x.1.ctx == x.2.id then some x.1 else none

def execDestroyQueue (s : State) : Host.Outcome State Fault Refusal :=
  .next (s.command' 4 true (fun w => decide (64 ≤ w.field 0x10 1)) fun s w c =>
    match s.namedQueue (w.field 0x10 1) c with
    | some q => .yes ((s.setQueue { q.cutShort with destroying := true }).queueSettle q.n) []
    | none => .no 1)

def execResumeQueue (s : State) : Host.Outcome State Fault Refusal :=
  .next (s.command' 5 true (fun w => decide (64 ≤ w.field 0x10 1) || w.field 0x11 7 != 0) fun s w c =>
    match s.namedQueue (w.field 0x10 1) c with
    | some q =>
      if q.state ≠ .halted then .no 1
      else
        let n := w.field 0x18 8
        .yes ((s.setQueue { q.cutShort with state := .idle, read := n, tail := n }).queueSettle q.n) []
    | none => .no 1)

/-! ### Host ranges and the policy (R358, R373) -/

def execSetHostRange (s : State) : Host.Outcome State Fault Refusal :=
  .next (s.command' 6 true
    (fun w => decide (7 < w.field 0x11 1) || w.field 0x12 6 != 0 || w.field 0x18 8 % 4096 != 0 || w.field 0x20 8 % 4096 != 0
      || decide (2 ^ 64 < w.field 0x18 8 + w.field 0x20 8))
    fun s w c => match c with
      | none => .no 1
      | some c =>
        let k := w.field 0x10 1
        let fl := w.field 0x11 1
        let r : HostRange := { k := k, writable := fl.testBit 1, shared := fl.testBit 2, base := w.field 0x18 8, length := w.field 0x20 8 }
        .yes (s.updContext c.id fun c => { c with ranges := (if fl.testBit 0 then [r] else []) ++ c.ranges.filter (·.k != k) }) [])

def execSetPolicy (s : State) : Host.Outcome State Fault Refusal :=
  .next (s.command' 7 false
    (fun w => w.field 0x10 1 == 0 || (List.range 4).any (fun i => decide (2 < w.field (0x11 + i) 1)) || decide (2 < w.field 0x15 1)
      || w.field 0x16 2 != 0)
    fun s w _ =>
      if w.field 4 4 = 0 ∨ !s.verified then .no 1
      else
        let front := w.field 0x15 1
        .yes { s with
          policy := { guilt := w.field 0x10 1, modes := (List.range 4).map fun i => w.field (0x11 + i) 1, front := front, retentionUs := w.field 0x18 4 }
          hearths := if front = s.policy.front then s.hearths
            else s.hearths.map fun h => { h with frontReq := if h.front = front then none else some front } } [])

/-! ### SPDM (R374) and the completion of a service (R381) -/

/-- The responder's message comes from outside the spec; so does the session that it may open. -/
def execSpdm (response : List Byte) (session : Option (Nat × Bool)) (s : State) : Host.Outcome State Fault Refusal :=
  .next (s.command' 8 false (fun w => w.field 0x14 4 != 0 || w.field 4 4 != 0 || decide ((w.pending.getD 0) < 0x18 + w.field 0x10 4)) fun s _ _ =>
    let r := response.take 4008
    let s := match session with
      | some (id, ok) =>
        if id = 0 then s
        else { s with sessions := { id := id, verified := ok, requests := 0, responses := 0 } :: s.sessions.filter (·.id != id) }
      | none => s
    .yes s (leBytes 4 r.length ++ leBytes 4 0 ++ r))

/-- The entry of a level is still not valid. -/
def WalkOut.unset (lvl : Nat) : WalkOut → Bool
  | .service l .. | .absent l _ => l == lvl
  | _ => false

def execFaultDone (s : State) : Host.Outcome State Fault Refusal :=
  .next (s.command' 9 true (fun _ => false) fun s w c =>
    match s.services.find? fun v => v.fault == w.field 0x10 2 && v.srv == 2 && some v.ctx == c.map (·.id) with
    | none => .no 1
    | some v =>
      let s := s.tlbDropPage (fun _ => true) (fun _ => true) v.ctx v.addr
      .yes (if ((s.walk 7 v.ctx v.addr v.kind true).unset v.level) then s.serviceFailed v else s.serviceDone v) [])

/-! ### Writes of the window (R372) -/

/-- A length written while READY starts the command; bytes of the buffer are taken while READY; all else is ignored. The
window is a region of I/O die 0. -/
def State.windowWrite (s : State) (off : Nat) (bs : List Byte) : State :=
  if !s.window.ready || (s.die 4).resetting then s
  else
    let buf := bs.zipIdx.foldl (fun m (b, i) =>
      if 0x40 ≤ off + i ∧ off + i < 0x1000 then Memory.put m (off + i - 0x40) b else m) s.window.buffer
    let len := leNat (bs.take 4)
    if off = 0 ∧ 4 ≤ bs.length ∧ 1 ≤ len ∧ len ≤ 4032 then { s with window := { s.window with ready := false, buffer := buf, pending := some len } }
    else { s with window := { s.window with buffer := buf } }

/-- What a read of the window returns, byte by byte (Table 20.10): the status word, the stage word, the buffer; LEN, which is write-only, and what is
reserved read 0 (R11, R432). -/
def State.windowRead (s : State) (off n : Nat) : List Byte :=
  let status := leBytes 4 (2 ^ 16 * s.window.result.toNat + s.window.ready.toNat)
  let stage := leBytes 4 s.pkg.stage.toNat
  (List.range n).map fun i =>
    let a := off + i
    if 0x08 ≤ a ∧ a < 0x0C then status.getD (a - 0x08) 0
    else if 0x10 ≤ a ∧ a < 0x14 then stage.getD (a - 0x10) 0
    else if 0x40 ≤ a ∧ a < 0x1000 then Memory.get s.window.buffer (a - 0x40)
    else 0

end Sys2Proof.Machine
end

