-- ==== Sys2Proof/Machine/Package.lean ====
section
/-! DEFINITION. The device around its fibres: registers written from outside, power, clocks, retention and temperature, pre-emption, the
recovery engines, errors and their containment, other agents' accesses, links, resets and bring-up (R206, R213, R229, R351 to R357, R396,
R400, R401, R412 to R420, R423 to R434). An event whose condition does not hold changes nothing (log 2). -/

namespace Sys2Proof.Machine

/-! ### Pre-emption (R351 to R355, R370) -/

/-- The mode under which a context is stopped now: one already stopping goes on. -/
def State.stopping (s : State) (ctx : Nat) : Option Nat :=
  match s.context? ctx with
  | none => none
  | some c => if c.suspended then none else if c.stopping then some c.mode else s.stopMode ctx

def execPreemptStopOrder (ctx hearth : Nat) (s : State) : Host.Outcome State Fault Refusal :=
  .next (match (if s.frontUp then s.stopping ctx else none) with | some m => s.stopHearth ctx hearth m | none => s)
def execContextSaveComplete (ctx : Nat) (s : State) : Host.Outcome State Fault Refusal :=
  .next (match s.context? ctx with
    | some c =>
      if !(c.stopping && s.ctxStopped ctx && s.frontUp) then s
      else if !(s.dirtyLeft ctx).isEmpty then s.flushLeft ctx
      else if s.savable c then s.suspendSaved ctx
      else if s.awaitedDies.any (s.standsOn ctx) then s.loseOn ctx s.awaitedDies
      else s.callOff ctx
    | none => s)
/-- A restored context's queues stand in the states that their packets give them (Table 20.5). -/
def execContextRestore (ctx : Nat) (s : State) : Host.Outcome State Fault Refusal :=
  .next (if !s.frontUp then s else (s.queues.filter fun q => q.ctx == ctx).foldl (fun (s : State) q => s.queueSettle q.n) (s.restoreContext ctx))

/-! ### Dampers, front clocks and temperature (R427 to R431) -/

/-- Damper intervals are of 10 µs each, from power-on (R427). -/
def damperNs : Nat := 10000
/-- A new interval, once the last is over: budgets, meters and, of the package, the measured power, which is open. -/
def execDamperInterval (hearth : Nat) (s : State) : Host.Outcome State Fault Refusal :=
  .next (if decide (192 ≤ hearth) || decide (s.ltime < (s.hearth hearth).interval + damperNs) then s
    else
      let h := s.hearth hearth
      { s.setHearth { h with budget := s.budgetOf hearth h.front, interval := s.ltime / damperNs * damperNs } with
        cohorts := s.cohorts.map fun (c : Cohort) => if c.hearth = hearth then { c with metered := 0, held := false } else c
        pkg := { s.pkg with powerMw := Config.choice s.run.tick 6 0 } })

/-- The change is made where the hearth holds no cohort that is not suspended. -/
def execFrontClockChange (hearth : Nat) (s : State) : Host.Outcome State Fault Refusal :=
  .next (let h := s.hearth hearth
    match h.frontReq with
    | some f => if s.resident hearth = [] then s.setHearth { h with front := f, frontReq := none } else s
    | none => s)

def setAt (l : List Nat) (i x : Nat) : List Nat := l.set i x

def execJunctionTemperatureChange (die celsius : Nat) (s : State) : Host.Outcome State Fault Refusal :=
  .next ({ s with pkg := { s.pkg with temps := setAt s.pkg.temps die celsius } }.updDie die fun d =>
    { d with hot := decide (105 ≤ celsius) || (d.hot && decide (100 ≤ celsius)) })
def execHbmStackTemperatureChange (stack celsius : Nat) (s : State) : Host.Outcome State Fault Refusal :=
  .next { s with pkg := { s.pkg with hbmTemps := setAt s.pkg.hbmTemps stack celsius } }

/-- The device as it powers down or starts again: nothing of it is left but the memories beside it, the settings of
the sideband, the temperatures and the repair maps, with what failed since a map is full. -/
def State.lost (s : State) (powered : Bool) (mem : Memory) : State :=
  { State.reset with
    run := { State.reset.run with tick := s.run.tick, agenda := s.run.agenda }
    mem := mem, hostMem := s.hostMem, peerMem := s.peerMem
    dies := State.reset.dies.map fun (d : Die) => { d with repair := (s.die d.n).repair, retired := (s.die d.n).retired, hot := (s.die d.n).hot }
    pkg := { State.reset.pkg with powered := powered, temps := s.pkg.temps, hbmTemps := s.pkg.hbmTemps, limitW := s.pkg.limitW,
                                  torusOff := s.pkg.torusOff } }

/-- 115 °C on a die: the package powers down and device memory is lost. -/
def execPackageTrip (die : Nat) (s : State) : Host.Outcome State Fault Refusal :=
  .next (if 115 ≤ s.pkg.temps.getD die 0 then s.lost false [] else s)

/-! ### Registers written from outside (R11, R372, R432) -/

def execPackagePowerLimitWrite (watts : Nat) (s : State) : Host.Outcome State Fault Refusal :=
  .next (if 1200 ≤ watts ∧ watts ≤ 2600 then { s with pkg := { s.pkg with limitW := watts } } else s)

/-- 0x5A resets the package. What device memory then holds where it held something is open. -/
def State.packageReset (s : State) (v : Byte) : State :=
  if v = 0x5A ∧ s.pkg.powered then
    s.lost true (s.mem.foldl (fun m c => Memory.put m c.1 (BitVec.ofNat 8 (Config.choice s.run.tick 7 c.1))) [])
  else s
def execPackageResetRequest (v : Byte) (s : State) : Host.Outcome State Fault Refusal := .next (s.packageReset v)

/-- The sideband registers that take writes (Table 24.4), each written whole. -/
def State.sidebandWrite (s : State) (off : Nat) (bs : List Byte) : State :=
  if off = 0x10 ∧ bs.length = 2 then
    (if 1200 ≤ leNat bs ∧ leNat bs ≤ 2600 then { s with pkg := { s.pkg with limitW := leNat bs } } else s)
  else if off = 0x12 ∧ bs.length = 2 then { s with pkg := { s.pkg with torusOff := BitVec.ofNat 16 (leNat bs) } }
  else if off = 0x14 ∧ bs.length = 1 then s.packageReset (bs.headD 0)
  else s

/-- What a read of a sideband register returns: each as a whole, lowest byte first; a write-only one 0 (R11). -/
def State.sidebandRead (s : State) (off : Nat) : Option (List Byte) :=
  match off with
  | 0x00 => some (leBytes 4 s.pkg.stage.toNat)
  | 0x04 => some (s.pkg.temps.flatMap fun t => leBytes 1 t)
  | 0x0C => some (leBytes 4 s.pkg.powerMw)
  | 0x10 => some (leBytes 2 s.pkg.limitW)
  | 0x12 => some (leBytes 2 s.pkg.torusOff.toNat)
  | 0x14 => some (leBytes 1 0)
  | _ => none

def execRegisterWrite (space : RegSpace) (off : Nat) (bytes : List Byte) (s : State) : Host.Outcome State Fault Refusal :=
  .next (match space with | .window => s.windowWrite off bytes | .sideband => s.sidebandWrite off bytes)

/-! ### Links, resets and bring-up (R357, R423, R425, R433, R434) -/

def State.updLink (s : State) (n : Nat) (g : Link → Link) : State :=
  { s with pkg := { s.pkg with links := s.pkg.links.map fun l => if l.n = n then g l else l } }
/-- Lanes of a link at full width. -/
def fullLanes (n : Nat) : Nat := if n = 12 then 32 else 16

/-- What uses a link when a flit of it is lost: a fibre's access, an engine command, a packet, or a queue's own lines. -/
inductive FlitUser where
  | op (id : Nat)
  | cmd (id : Nat)
  | pkt (queue id : Nat)
  | line (queue : Nat)
  deriving DecidableEq, Repr

/-- An address travels over a link: host memory over the Xandex link, a peer's over the link of its route (R425). -/
def State.carries (s : State) (link : Nat) (a : GAddr) : Bool :=
  match spaceKind a.space with
  | 1 => s.pkg.route (spaceNum a.space) a.off.toNat == some link
  | 2 => link == 12
  | _ => false
/-- The place that a flue command reads or writes next outside its hearth, and whether it writes it. -/
def State.cmdPlace (c : EngineCmd) : Option (GAddr × Bool) :=
  match c.op with
  | .cpyl _ src _ | .cpym _ src _ => some (gplus src (128 * c.done), false)
  | .cpylSt _ dst _ => some (gplus dst (128 * c.done), true)
  | .cpylGg src dst _ => some (if spaceKind src.space = 0 then (gplus dst (128 * c.done), true) else (gplus src (128 * c.done), false))
  | _ => none
/-- The sides of a COPY, at the line that it reached: the last one written, and its source. -/
def Pkt.sides (p : Pkt) : GAddr × GAddr :=
  (⟨(spacesOf p).1, BitVec.ofNat 64 (p.field 8 8)⟩, ⟨(spacesOf p).2, BitVec.ofNat 64 (p.field 16 8 + (p.field 32 8 - p.data.length) - 1)⟩)

/-- Whatever has a flit on a link; `conf`: of confidential contexts alone, whose flits have tags (R374). -/
def State.flitUsers (s : State) (link : Nat) (conf : Bool) : List FlitUser :=
  let of (ctx : Nat) : Bool := !conf || ((s.context? ctx).map (·.confidential)).getD false
  let carried (o : MemOp) : Bool := (!o.performed || o.req.kind.returns)
    && match o.req.target with | .dev _ => false | .host _ => link == 12 | .peer n a => s.pkg.route n a == some link
  let copies (q : Queue) (p : Pkt) : Bool := p.started && !p.done && p.op == 7 && of q.ctx && (s.carries link p.sides.1 || s.carries link p.sides.2)
  (s.ops.filter fun o => carried o && of (s.slot (s.opSlot o)).ctx).map (fun o => .op o.id)
    ++ (s.cmds.filter fun c => c.run == .running && of (s.cmdSlot c).ctx && ((State.cmdPlace c).map fun x => s.carries link x.1).getD false).map (fun c => .cmd c.id)
    ++ s.queues.flatMap fun q =>
        (q.pkts.filter (copies q)).map (fun p => .pkt q.n p.id)
          ++ (if s.served q && of q.ctx && (s.carries link q.ring || s.carries link q.tailLine) then [.line q.n] else [])

/-- What a flit that is lost carries is poison at its receiver: for a reader what it reads, for a writer what it writes (R357, R413). -/
def State.flitMeets (s : State) (u : FlitUser) : State :=
  let at' (ctx : Nat) (a : GAddr) : State := match s.translate 0 ctx 1 a 0 with | .ok t => s.taint (t.granules 1) | _ => s
  match u with
  | .op id => s.updOp id fun o => { o with poison := true }
  | .cmd id =>
    match (s.cmd? id).bind fun c => (State.cmdPlace c).map fun x => (c, x) with
    | some (c, a, writes) => if writes then at' (s.cmdSlot c).ctx a else s.haltCmd c 0x09 (addrDetail a)
    | none => s
  | .pkt n id =>
    match (s.queue n).pkt? id with
    | some p =>
      if spaceKind p.sides.1.space = 0 then at' (s.queue n).ctx p.sides.2 else s.packetFault n p 0x11
    | none => s
  | .line n => (s.queueFault n 0x11 (s.queue n).tailLine).unbind n

/-- A flit could not be delivered after a retraining, or its tag failed: whose it was is open (R357, R374, log 102). -/
def State.flitLost (s : State) (link : Nat) (conf : Bool) : State :=
  let l := s.flitUsers link conf
  match l[Config.choice s.run.tick 29 link % max 1 l.length]? with
  | some u => s.flitMeets u
  | none => s

/-- A flit whose CRC fails is sent again; eight failures in a row of one flit call for a retraining, and eight more after it lose the flit. Whether the
flit is the one that failed last is open: if not, that one has been delivered. One whose tag fails is lost at once. -/
def execFlitCrcFailure (failure : FlitFailure) (s : State) : Host.Outcome State Fault Refusal :=
  .next (match failure with
    | .tag link => if s.pkg.links.any fun l => l.n == link && l.up then s.flitLost link true else s
    | .crc link =>
      match s.pkg.links.find? (·.n == link) with
      | some l =>
        if !l.up then s
        else if Config.choice s.run.tick 32 link % 2 ≠ 0 then s.updLink link fun l => { l with failures := 1, again := false }
        else if l.again && decide (7 ≤ l.failures) then (s.updLink link fun l => { l with failures := 0, again := false }).flitLost link false
        else s.updLink link fun l => { l with failures := min 8 (l.failures + 1) }
      | none => s)
/-- A link of the torus, or the Xandex link (R423): the others stay idle. -/
def Package.inUse (p : Package) (n : Nat) : Bool := n == 12 || decide (n < 2 * p.dims.length)
/-- Retraining, which eight failures in a row call for: a spare lane takes a failed one's place; short of the full width, the link runs at half of
it. A link that is down stays so, and none trains before bring-up has trained the links (R423, R425, R433). -/
def execLinkRetrain (link goodLanes : Nat) (s : State) : Host.Outcome State Fault Refusal :=
  .next (s.updLink link fun l =>
    let full := fullLanes link
    let short := full - goodLanes
    let spare := min short l.spares
    if !l.up || !s.pkg.inUse link || !s.linksTrained || decide (l.failures < 8) then l
    else { l with up := decide (full / 2 ≤ goodLanes + spare), lanes := if full ≤ goodLanes + spare then full else full / 2,
                  spares := l.spares - spare, failures := 0, again := true })
def execPeerLinkDown (link : Nat) (s : State) : Host.Outcome State Fault Refusal :=
  .next (if link < 12 then s.updLink link fun l => { l with up := false } else s)

/-- A die may reset once no cohort runs on it. -/
def execDieReset (die : Nat) (s : State) : Host.Outcome State Fault Refusal :=
  .next (if decide (6 ≤ die) || (s.die die).resetting || !s.dieFree die then s else s.dieReset die)
def execDieResetComplete (die : Nat) (s : State) : Host.Outcome State Fault Refusal :=
  .next (if (s.die die).resetting then (s.dieReady die).refit else s)

/-- A topology that R423 allows. -/
def torusOk (t : List Nat × List Nat) : Bool :=
  decide (1 ≤ t.1.length) && decide (t.1.length ≤ 6) && t.1.all (fun e => decide (2 ≤ e) && decide (e ≤ 4096))
    && decide ((t.1.map dimWidth).sum ≤ 14) && t.2.length == t.1.length && (t.2.zip t.1).all fun x => decide (x.1 < x.2)

/-- What a step of Table 24.6, counted from 0, does: the repair map is applied; the links train and the topology is written (which peer links
train is open); the window opens. -/
def State.bootStep (s : State) (k : Nat) : State :=
  match k with
  | 0 =>
    let s := { s with dies := s.dies.map Die.repaired }
    { s with hearths := (List.range 192).map fun h =>
               { Hearth.fresh s h with fenced := (s.die (dieOfHearth h)).faulty.contains (.hearth h), interval := s.ltime / damperNs * damperNs }
             pkg := { s.pkg with frames := s.pkg.frames ++ s.dies.flatMap fun d => d.faulty.flatMap badFrame } }
  | 3 =>
    let t := Config.torus s.pkg.torusOff
    let t := if torusOk t then t else ([], [])
    { s with pkg := { s.pkg with dims := t.1, coord := t.2 } }.train fun _ => true
  | 4 => { s with window := { s.window with ready := true } }
  | _ => s

/-- The next step of bring-up passes, or fails and ends the sequence (R433). -/
def execBringUp (outcome : BringUp) (s : State) : Host.Outcome State Fault Refusal :=
  .next (let k := s.bootStage
    if !s.pkg.powered || decide (5 ≤ k) then s
    else match outcome with
      | .passes => { s.bootStep k with pkg := { (s.bootStep k).pkg with stage := BitVec.ofNat 32 ((k + 1) * 2 ^ 24) } }
      | .fails unit => { s with pkg := { s.pkg with stage := BitVec.ofNat 32 (0xFF * 2 ^ 24 + (k + 1) * 2 ^ 16 + unit % 16 * 2 ^ 12) } })

/-! ### The recovery engines (R396, R400, R401, R412) -/

def execRcvGranuleDurable (uid : Nat) (unit granule : Nat) (s : State) : Host.Outcome State Fault Refusal :=
  .next (match s.granules.find? fun g => g.uid == uid && g.unit == unit && g.granule == granule with
    | some g => (s.granuleDone g).releaseAdvance uid
    | none => s)
def execEmberUnitCopyComplete (ctx unit : Nat) (s : State) : Host.Outcome State Fault Refusal := .next (s.copyUnit ctx unit)
def execSealWrite (ctx : Nat) (s : State) : Host.Outcome State Fault Refusal := .next (s.sealStep ctx)
def execContainedNodeAbort (slot : Nat) (cause : BitVec 9) (s : State) : Host.Outcome State Fault Refusal :=
  .next (if (s.slot slot).aborting = some cause then (s.abortNode slot).refit else s)

/-! ### Errors (R413 to R417, R419, R420) -/

/-- Every context with cohorts on a fenced hearth is stopped, to be saved and restored on other hearths (R352, R416). -/
def State.moveOff (s : State) (hearth : Nat) : State :=
  let cs := ((s.resident hearth).map fun c => (s.slot c.slot).ctx).eraseDups
  cs.foldl (fun s c => s.stopHearth c hearth 0) s

/-- A hearth goes out of service and takes an entry of its die's map; the launches that have placed nothing yet are judged again (R419, R420, R52). -/
def State.fence (s : State) (hearth : Nat) : State :=
  ((s.updHearth hearth fun (h : Hearth) => { h with fenced := true, suspect := false }).updDie (dieOfHearth hearth) fun d => d.found (.hearth hearth)).refit

/-- The next group of a ready fibre raises a cause instead of issuing, as its first word that the check finds would; a group that is not well
formed raises its own (R104, R105). The check's cause is taken also where another word of the group would raise one of its own at issue
(DESIGN CHOICE, log 98). -/
def State.issueError (s : State) (uid : Nat) (detail : Nat) (tval : Fibre → Option DWord) (after : State → Nat → State) : State :=
  match s.fibre? uid with
  | none => s
  | some f =>
    if !s.ready f || (groupFault (f.arch.pc.toNat % 3) (f.arch.repc == 0) f.groupWords).isSome then s
    else match tval f with
      | some v => after (s.raiseGroup f { OpenGroup.fresh f with repeating := f.repAhead } (mkCause 10 detail) v) (s.hearthOf f)
      | none => s

/-- The words whose products are checked by residues: class 2, `fmul` and `ffma` (R148, R180). -/
def residueChecked (w : Word) : Bool :=
  let o := w.extractLsb' 22 4
  match wordClass w with
  | 2 => true
  | 5 => o == 0 || o == 1
  | 8 => o == 2 || o == 3
  | _ => false

/-- The word at a place of the next group forms its product: it names no register beyond the allocation, which raises 1.00, and reads none in
error, which raises 10.03 (R57, Table 23.4). -/
def Fibre.multiplies (f : Fibre) (k : Nat) : Bool :=
  match instrAt f.groupWords f.repAhead k with
  | some (i, pin) => (f.regFault i.dsts (i.reads pin)).isNone
  | none => false

/-- The first checked word of a class in the next group whose guard reads true and that forms a product. -/
def Fibre.residueWord (f : Fibre) (k : Nat) : Option DWord :=
  (f.groupWords.zipIdx.find? fun (w, j) => wordClass w == k && residueChecked w && f.guard (wordGuard w) && f.multiplies j).map
    fun (w, _) => w.setWidth 64

def execUncorrectableErrorDetected (site : ErrorSite) (s : State) : Host.Outcome State Fault Refusal :=
  .next (match site with
    | .granule pa => { s with poison := if s.poison.contains (pa / 64) then s.poison else pa / 64 :: s.poison }
    | .stashLine c n => s.updCohort c fun co => if n < co.decl.lines then co.updLine n fun l => { l with poison := true } else co
    | .tile c n => s.updCohort c fun co => if n < co.decl.tiles then co.setTile { co.tile n with poison := true } else co
    | .acc c n => s.updCohort c fun co => if n < co.decl.accs then co.setAcc { co.acc n with poison := true } else co
    | .reg u r => s.updFibre u fun f => if f.badRegs.contains r || decide (f.arch.regs.length ≤ r) then f else { f with badRegs := r :: f.badRegs }
    | .residue u k =>
      s.issueError u (if k = 2 then 4 else 5) (fun f => f.residueWord k.toNat)
        fun s n => s.updHearth n fun (h : Hearth) => { h with suspect := true }
    | .pair u =>
      s.issueError u 6 (fun f => if (s.slotOf f).record.paired then some (f.arch.pc.setWidth 64) else none) fun s h =>
        (s.fence h).moveOff h
    | .tileResidue h =>
      match (s.tileCmds h).find? fun c => c.run == .running && (match c.op with | .tmma _ => true | _ => false) with
      | some c => (s.haltCmd c 0x09 (freeBytes s.run.tick 28 (64 * c.id) 10)).updHearth h fun (h : Hearth) => { h with suspect := true }
      | none => s)

/-- The hearth enters retention once it has stood so for longer than the delay. -/
def execRetentionEntry (hearth : Nat) (s : State) : Host.Outcome State Fault Refusal :=
  .next (let h := s.hearth hearth
    if h.retention then s
    else if !s.hearthIdle hearth then s.setHearth { h with idleSince := none }
    else match h.idleSince with
      | none => s.setHearth { h with idleSince := some s.ltime }
      | some t => if t + 1000 * s.policy.retentionUs < s.ltime then s.setHearth { h with retention := true } else s)

def execRetentionExit (hearth : Nat) (parityError : Bool) (s : State) : Host.Outcome State Fault Refusal :=
  .next (let h := s.hearth hearth
    if !h.retention then s
    else
      let s := s.setHearth { h with retention := false, idleSince := none, suspect := h.suspect || parityError }
      if parityError then (s.resident hearth).foldl (fun s c => s.loseCohort c) s else s)

/-- Something stands on a run of physical memory by its address: an access in flight, a watched or mapped or staged line, a hoist entry, a granule
or a unit on its way to the ember store, a write that a copy holds. -/
def State.pinned (s : State) (pa n : Nat) : Bool :=
  let meets (a k : Nat) : Bool := decide (a < pa + n) && decide (pa < a + k)
  let on (t : Target) (k : Nat) : Bool := match t with | .dev a => meets a k | _ => false
  (s.ops.any fun o => on o.req.target o.req.size) || (s.joinWatches.any fun w => meets w.pa 8) || (s.dies.any fun d => d.watches.any fun w => meets w.pa 8)
    || (s.cohorts.any fun c => c.lines.any fun l => (l.target.map fun t => on t 128).getD false)
    || (s.fibres.any fun f => f.hoist.any fun h => on h.target h.size)
    || (s.slots.any fun l => l.staged.any fun x => meets (256 * x.line) 256)
    || (s.granules.any fun g => meets g.unit 4096) || (s.heldWrites.any fun h => meets h.pa h.bytes.length) || s.copying pa n

/-- Bytes of a run of memory stand at another. -/
def Memory.moved (m : Memory) (a b n : Nat) : Memory :=
  let kept := m.filter fun c => decide (c.1 < b) || decide (b + n ≤ c.1)
  (m.filter fun c => decide (a ≤ c.1) && decide (c.1 < a + n)).foldl (fun m c => Memory.put m (c.1 - a + b) c.2) kept
/-- Runs of frames without a part of memory. -/
def carve (pa n : Nat) (l : List (Nat × Nat × Nat)) : List (Nat × Nat × Nat) :=
  l.flatMap fun f =>
    if f.1 + f.2.1 ≤ pa ∨ pa + n ≤ f.1 then [f]
    else (if f.1 < pa then [(f.1, pa - f.1, f.2.2)] else []) ++ (if pa + n < f.1 + f.2.1 then [(pa + n, f.1 + f.2.1 - (pa + n), f.2.2)] else [])

/-- A leaf's entry with its page at another address. -/
def LeafAt.moveTo (l : LeafAt) (new : Nat) : Nat := l.e - entryPa l.e + (new + entryPa l.e % l.size)
/-- The leaves of every context. -/
def State.leaves (s : State) : List (Nat × LeafAt) :=
  (s.contexts.filter fun c => !c.destroyed).flatMap fun c => (leavesUnder s.mem 4 c.root 0).map fun l => (c.id, l)

/-- Garley moves the page that holds a frame, if leaves map it, to free frames, and rewrites their addresses (R419); one for which there are none
stays. -/
def State.moveFrame (s : State) (f : Nat) : State :=
  let pa := f * 4096
  match s.leaves.find? fun x => decide (x.2.base ≤ pa) && decide (pa < x.2.base + x.2.size) with
  | none => s
  | some (ctx, l) =>
    match s.findFrames l.size l.size with
    | none => s
    | some new =>
      let mine := s.leaves.filter fun x => x.2.base == l.base && x.2.size == l.size
      let s := { s with
        mem := mine.foldl (fun (m : Memory) (x : Nat × LeafAt) => m.writeLE x.2.at' 8 (x.2.moveTo new)) (s.mem.moved l.base new l.size)
        poison := (s.poison.filter fun g => decide (g < new / 64) || decide ((new + l.size) / 64 ≤ g))
          ++ (s.poison.filter fun g => decide (l.base / 64 ≤ g) && decide (g < (l.base + l.size) / 64)).map fun g => g - l.base / 64 + new / 64
        slots := s.slots.map fun (x : LaunchSlot) => { x with code := Memory.moved x.code l.base new l.size }
        pkg := { s.pkg with frames := carve l.base l.size s.pkg.frames ++ [(new, l.size, ctx)] } }.noteWrite none fun w => mine.any fun x => touches x.2.at' 8 w
      s.tlbDrop (fun _ => true) (fun _ => true) (fun e => decide (e.pa < l.base + l.size) && decide (l.base < e.pa + e.size)) (fun _ => false)

/-- A faulty row of a stack: its pages move, where nothing stands on them, and its frames are out of use until the row is repaired. -/
def State.dropRow (s : State) (u : RepairUnit) : State :=
  let hold (s : State) : State := { s with pkg := { s.pkg with frames := s.pkg.frames ++ (badFrame u).filter fun f => s.frameFree f.1 f.2.1 } }
  hold ((badFrame u).foldl (fun (s : State) f => s.moveFrame (f.1 / 4096)) (hold s))

/-- The die that keeps the map entry of a unit. -/
def repairDie : RepairUnit → Nat | .hearth h => dieOfHearth h | .l2Row d _ _ => d | .hbmRow stack _ => 4 + stack / 6
/-- A unit that can be tested now: a suspect hearth that is in service, holds no cohort and whose budget takes the test, whose power is open; a row
of an L2 that exists; one of a stack on whose pages nothing stands (R420; DESIGN CHOICE, log 103). -/
def State.testable (s : State) (u : RepairUnit) : Bool :=
  s.frontUp && match u with
  | .hearth h =>
    decide (h < 192) && (s.hearth h).suspect && !(s.hearth h).fenced && s.resident h == []
      && decide (Config.choice s.run.tick 31 0 ≤ (s.hearth h).budget.1) && decide (Config.choice s.run.tick 31 1 ≤ (s.hearth h).budget.2)
  | .l2Row d n _ => decide (d < 4) && decide (n < 32)
  | .hbmRow stack _ =>
    decide (stack < 12) && (badFrame u).all fun f => s.leaves.all fun x =>
      !(decide (x.2.base ≤ f.1) && decide (f.1 < x.2.base + x.2.size)) || !s.pinned x.2.base x.2.size

/-- Garley tests a unit; a confirmed finding goes into its die's repair map, and the unit is out of service until its repair (R419, R420). -/
def execInFieldTest (unit : RepairUnit) (confirmed : Bool) (s : State) : Host.Outcome State Fault Refusal :=
  .next (if !s.testable unit then s
    else match unit with
      | .hearth h => if confirmed then s.fence h else s.updHearth h fun (x : Hearth) => { x with suspect := false }
      | .l2Row .. => if confirmed then s.updDie (repairDie unit) fun d => d.found unit else s
      | .hbmRow .. => if confirmed then (s.updDie (repairDie unit) fun d => d.found unit).dropRow unit else s)

/-! ### Other agents (R206, R213, R218, R228, R229) -/

/-- The lines of a byte range. -/
def linesOf (pa n : Nat) : List Nat := ((granulesOf pa n).map (· / 4)).eraseDups
/-- The stacks of a byte range serve (R434). -/
def State.rangeUp (s : State) (pa n : Nat) : Bool := (linesOf pa n).all fun l => s.stackUp (256 * l)

/-- A store of an agent outside the device, performed at the serving slice unless a copy, or a stack that does not serve, holds it; poisoned data poisons what it writes
(R413). -/
def State.outsideWrite (s : State) (agent pa : Nat) (bs : List Byte) (poisoned : Bool) : Option State :=
  if s.copying pa bs.length || !s.rangeUp pa bs.length then none
  else
    let s := s.outsideStore agent (.dev pa) bs
    some (if poisoned then s.taint (granulesOf pa bs.length) else s)

/-- The host keeps the lines of its store in state M (R218): the dies' copies of them leave. A line that a die watches it does not keep (R287). -/
def State.hostKeeps (s : State) (pa n : Nat) : State :=
  (linesOf pa n).foldl (fun (s : State) line =>
    if s.watchedApart 6 line then s
    else
      let s := s.invalidate 6 false line
      { s with hostLines := (line, .M) :: s.hostLines }) s
/-- A load of the host: the holders of its lines share them, and the host keeps them in E or, shared, in S, or does not keep them (Table 12.5). -/
def State.hostLoads (s : State) (pa n : Nat) (keep : Bool) : State :=
  (linesOf pa n).foldl (fun (s : State) line =>
    if (s.hostHas line).isSome then s
    else
      let shared := (s.l2.any fun x => !x.host && x.line == line) || s.watchedApart 6 line
      let s := s.shareLine false line
      if keep then { s with hostLines := (line, if shared then .S else .E) :: s.hostLines } else s) s

/-- A store or a load of the host. A release of the host is performed once its earlier stores are acknowledged (R213, R228). -/
def execHostStoreToDevice (pa : Nat) (access : HostAccess) (s : State) : Host.Outcome State Fault Refusal :=
  .next (match access with
    | .store store =>
      if memTop < pa + store.bytes.length || !s.hostUp || (store.release && !s.acked 0) then s
      else match s.outsideWrite 0 pa store.bytes store.poisoned with
        | some s => if store.keep then s.hostKeeps pa store.bytes.length else s
        | none => s
    | .load n keep => if memTop < pa + n || !s.hostUp || !s.rangeUp pa n then s else s.hostLoads pa n keep)

/-- The host's home takes a host line from a die once its leases have ended; when no die holds it, the host may have written it: its bytes
are open. -/
def execHostInvalidate (die line : Nat) (s : State) : Host.Outcome State Fault Refusal :=
  .next (if !s.hostUp || ((s.l2? die true line).isSome && decide (s.ltimeAt die < s.horizon die true line + 8)) then s
    else
      let s := s.evictL2 die true line
      if s.l2.any fun x => x.host && x.line == line then s
      else
        let bs := (List.range 256).map fun i => BitVec.ofNat 8 (Config.choice s.run.tick 9 i)
        { s with hostMem := Memory.putBytes s.hostMem (line * 256) bs })

/-- The atomic of a code of Table 13.3. -/
def atomOfCode (o : BitVec 4) : Option AtomOp :=
  match o.toNat with
  | 0 => some .add | 1 => some .min | 2 => some .max | 3 => some .and | 4 => some .or | 5 => some .xor | 6 => some .xch | 7 => some .cas
  | 8 => some .incw | 9 => some .decw | 10 => some .fadd | _ => none

/-- An access of a peer at its physical address, within one page. -/
def State.peerPerform (s : State) (pa : Nat) (access : PeerAccess) : State :=
  match access with
  | .load _ => s.l2Load 0 false (pa / 256)
  | .store bs poisoned => (s.outsideWrite 1 pa bs poisoned).getD s
  | .atomic o ty b e =>
    let n := ty.bits / 8
    match atomOfCode o with
    | some op =>
      if s.copying pa n ∨ s.poisoned (.dev pa) n then s
      else match atomVal op ty (s.targetNat none (.dev pa) n) (b % 2 ^ ty.bits) (e % 2 ^ ty.bits) with
        | some v => (s.outsideWrite 1 pa (leBytes n v) false).getD s
        | none => s
    | none => s

/-- Bytes of an access, and whether it writes. -/
def peerSize : PeerAccess → Nat | .load n => n | .store bs _ => bs.length | .atomic _ ty _ _ => ty.bits / 8
def peerWrites : PeerAccess → Bool | .load _ => false | _ => true

/-- A peer's access is translated here, through the tables of its context (R378): one that faults is not performed, and the peer learns of it; a page
that waits for a service makes the peer try again (DESIGN CHOICE, log 85). -/
def execPeerAccess (req : PeerReq) (s : State) : Host.Outcome State Fault Refusal :=
  .next (let n := peerSize req.access
    let a : GAddr := ⟨0, req.off⟩
    if !s.peersUp || n == 0 || decide (4096 < req.off.toNat % 4096 + n) then s
    else if (match req.access with | .atomic .. => req.off.toNat % n != 0 | _ => false) then s
    else match s.unitXlate 0 req.ctx (peerWrites req.access).toNat a with
      | .ok s (.dev pa) => if s.stackUp pa then s.peerPerform pa req.access else s
      | .serve lvl srv size _ => (s.startService req.ctx (peerWrites req.access).toNat a lvl srv size [((peerWrites req.access).toNat, .peer)]).1
      | _ => s)

end Sys2Proof.Machine
end

