-- ==== Sys2Proof/Machine/TileWords.lean ====
section
/-! DEFINITION. The meanings of the engine words: classes TILE, TGATH and COPY (R324 to R348). A command is checked, then joins its queue when
its group takes effect; the group of a read takes effect once the read is performed. -/

namespace Sys2Proof.Machine

/-! ### Checks at issue (R326) -/

/-- The first cause of a list, then the rest. -/
def firstCause (l : List (Option (Cause × DWord))) (k : WordOut) : WordOut := firstFault l k

def Cohort.tileFault (c : Cohort) (t : BitVec 4) : Option (Cause × DWord) :=
  if c.decl.tiles ≤ t.toNat then some (mkCause 1 3, t.setWidth 64) else none
def Cohort.accFault (c : Cohort) (n : BitVec 3) : Option (Cause × DWord) :=
  if c.decl.accs ≤ n.toNat then some (mkCause 1 4, n.setWidth 64) else none
/-- The barrier that the LIT word names. -/
def Cohort.barFault (c : Cohort) (m : Mods LitEng) : Option (Cause × DWord) :=
  match m.barrier with
  | some n => if c.decl.bars ≤ n then some (mkCause 1 1, BitVec.ofNat 64 n) else none
  | none => none
/-- The stash offset: its alignment, then its bound, `more` bytes past it within the declared lines (R326). -/
def Cohort.offFault (c : Cohort) (o align more : Nat) : Option (Cause × DWord) :=
  if o % align ≠ 0 then some (mkCause 3 1, BitVec.ofNat 64 o)
  else if 128 * c.decl.lines < o + more then some (mkCause 1 2, BitVec.ofNat 64 o)
  else none
/-- A space register that the word names (R94). -/
def State.spaceCheck (s : State) (f : Fibre) (a : GAddr) : Option (Cause × DWord) :=
  (s.spaceFault (s.ctxOf f) a.space).map fun c => (c, a.space.setWidth 64)

/-! ### Issue (R300, R308, R318, R320, R327) -/

/-- The engine commands among effects: operation and flue. -/
def enginesOf (fx : List Fx) : List (EngOp × Nat) :=
  fx.filterMap fun x => match x with | .engine op _ flue _ => some (op, flue) | .read op .. => some (op, 0) | _ => none

/-- A command joins its queue with its group, as a release at cohort scope; it waits in issue where it finds no room. -/
def State.command (s : State) (f : Fibre) (og : OpenGroup) (m : Mods LitEng) (op : EngOp) : WordOut :=
  let before := enginesOf og.fx
  if before.length < f.sent ∨ s.engRoom f op m.flue (before.drop f.sent) then
    .ok [.engine op m.barrier m.flue og.here, .release .coh, .engineGo]
  else .wait s

/-- A read's word (R327): its command joins the queue with its group, which takes effect once the read is performed; the answer goes to n
registers. -/
def State.readWord (s : State) (f : Fibre) (og : OpenGroup) (op : EngOp) (d : RegIx) (n : Nat) : WordOut :=
  let before := enginesOf og.fx
  if s.engRoom f op 0 (before.drop f.sent) then .ok [.read op og.here (f.abs d) n] else .wait s

/-! ### TILE (R330 to R337) -/

def execMtc (m : Mods LitEng) (t : BitVec 4) (a : RegIx) (s : State) : Host.Outcome State Fault Refusal :=
  s.word (.mtc m t a) m fun f og =>
    let v := f.V a
    firstCause [(s.cohortOf f).tileFault t,
      if mtcOk (s.slotOf f).record.formats v then none else some (mkCause 6 1, v.setWidth 64)]
      (s.command f og m (.mtc t.toNat v))
def execMfc (m : Mods LitEng) (d : RegIx) (t : BitVec 4) (s : State) : Host.Outcome State Fault Refusal :=
  s.word (.mfc m d t) m fun f og =>
    firstCause [(s.cohortOf f).tileFault t] (s.readWord f og (.mfc t.toNat) d 1)
def execTzeroTile (m : Mods LitEng) (t : BitVec 4) (s : State) : Host.Outcome State Fault Refusal :=
  s.word (.tzeroTile m t) m fun f og =>
    firstCause [(s.cohortOf f).tileFault t, (s.cohortOf f).barFault m] (s.command f og m (.tzeroTile t.toNat))
def execTzeroAcc (m : Mods LitEng) (n : BitVec 3) (s : State) : Host.Outcome State Fault Refusal :=
  s.word (.tzeroAcc m n) m fun f og =>
    firstCause [(s.cohortOf f).accFault n, (s.cohortOf f).barFault m] (s.command f og m (.tzeroAcc n.toNat))
def execTldTile (m : Mods LitEng) (t : BitVec 4) (a : RegIx) (s : State) : Host.Outcome State Fault Refusal :=
  s.word (.tldTile m t a) m fun f og =>
    let c := s.cohortOf f
    let o := f.tileOff a m
    firstCause [c.tileFault t, c.barFault m, c.offFault o 8 1] (s.command f og m (.tldTile t.toNat o))
def execTldAcc (m : Mods LitEng) (n : BitVec 3) (a : RegIx) (s : State) : Host.Outcome State Fault Refusal :=
  s.word (.tldAcc m n a) m fun f og =>
    let c := s.cohortOf f
    let o := f.tileOff a m
    firstCause [c.accFault n, c.barFault m, c.offFault o 8 1] (s.command f og m (.tldAcc n.toNat o))
def execTstTile (m : Mods LitEng) (t : BitVec 4) (a : RegIx) (s : State) : Host.Outcome State Fault Refusal :=
  s.word (.tstTile m t a) m fun f og =>
    let c := s.cohortOf f
    let o := f.tileOff a m
    firstCause [c.tileFault t, c.barFault m, c.offFault o 8 1] (s.command f og m (.tstTile t.toNat o))
def execTstAcc (m : Mods LitEng) (n : BitVec 3) (a : RegIx) (s : State) : Host.Outcome State Fault Refusal :=
  s.word (.tstAcc m n a) m fun f og =>
    let c := s.cohortOf f
    let o := f.tileOff a m
    firstCause [c.accFault n, c.barFault m, c.offFault o 8 1] (s.command f og m (.tstAcc n.toNat o))
def execTmma (m : Mods LitEng) (s : State) : Host.Outcome State Fault Refusal :=
  s.word (.tmma m) m fun f og =>
    let c := s.cohortOf f
    firstCause [c.barFault m, c.offFault m.soffset 64 64] (s.command f og m (.tmma m.soffset))
def execTbmp (m : Mods LitEng) (t : BitVec 4) (s : State) : Host.Outcome State Fault Refusal :=
  s.word (.tbmp m t) m fun f og =>
    firstCause [(s.cohortOf f).tileFault t, (s.cohortOf f).barFault m] (s.command f og m (.tbmp t.toNat))

/-- The named source within the declaration (R57): an accumulator above 7 is none, and breaks R334's own check. -/
def Cohort.sourceFault (c : Cohort) (ctl : Word) (src : BitVec 4) : Option (Cause × DWord) :=
  if ctl.getLsbD 8 then (if 7 < src.toNat then none else c.accFault (src.setWidth 3)) else c.tileFault src

def execTcvt (m : Mods LitEng) (t src : BitVec 4) (b : RegIx) (s : State) : Host.Outcome State Fault Refusal :=
  s.word (.tcvt m t src b) m fun f og =>
    let c := s.cohortOf f
    let ctl := f.V b
    firstCause [c.tileFault t, c.sourceFault ctl src, c.barFault m, if tcvtOk ctl src.toNat then none else some (mkCause 6 2, ctl.setWidth 64)]
      (s.command f og m (.tcvt t.toNat src.toNat ctl (f.V (b + 1))))

/-- `tacc` (R336): an index past the accumulator, then a clear valid flag. -/
def execTacc (m : Mods LitEng) (d : RegIx) (n : BitVec 3) (b : RegIx) (s : State) : Host.Outcome State Fault Refusal :=
  s.word (.tacc m d n b) m fun f og =>
    let i := f.V b
    firstCause [(s.cohortOf f).accFault n, if 4096 ≤ i.toNat then some (mkCause 6 3, i.setWidth 64) else none]
      (s.readWord f og (.tacc n.toNat i.toNat) d 1)
def execTstatTile (m : Mods LitEng) (d : RegIx) (s : State) : Host.Outcome State Fault Refusal :=
  s.word (.tstatTile m d) m fun f og => s.readWord f og .tstatTile d 2
def execTstatBarrier (m : Mods LitEng) (d : RegIx) (n : BitVec 5) (s : State) : Host.Outcome State Fault Refusal :=
  s.word (.tstatBarrier m d n) m fun f og =>
    if (s.cohortOf f).decl.bars ≤ n.toNat then .raise (mkCause 1 1) (n.setWidth 64)
    else s.readWord f og (.tstatBarrier n.toNat) d 2

/-! ### TGATH (R338, R339) -/

/-- `tgat`: the member presents, with its row's address; the presentation holds a place of the queue and of the range-lock table. -/
def execTgat (m : Mods LitEng) (t : BitVec 4) (a b : RegIx) (s : State) : Host.Outcome State Fault Refusal :=
  s.word (.tgat m t a b) m fun f og =>
    let c := s.cohortOf f
    let g := f.addr 0 a 0
    let before := (enginesOf og.fx).drop f.sent
    firstCause [c.tileFault t, c.barFault m, if g.off.toNat % 8 ≠ 0 then some (mkCause 3 0, g.off) else none, s.spaceCheck f g]
      (if s.engRoom f (f.gathers t a b) 0 before then
        .ok [.present 256 { Presentation.of (.tgat t.toNat (m.body .dflt) (f.V b)) with
               uid := f.uid, vlane := f.vlane, addr := g, pc := og.head }, .release .coh]
       else .wait s)

/-! ### COPY (R340 to R344) -/

def execCpyStash (m : Mods LitEng) (a : RegIx) (s : State) : Host.Outcome State Fault Refusal :=
  s.word (.cpyStash m a) m fun f og =>
    let c := s.cohortOf f
    firstCause [c.barFault m, c.offFault m.soffset 128 1] (s.command f og m (.cpyStash m.soffset (f.V a) (f.coords a)))
def execCpyTile (m : Mods LitEng) (t : BitVec 4) (a : RegIx) (s : State) : Host.Outcome State Fault Refusal :=
  s.word (.cpyTile m t a) m fun f og =>
    firstCause [(s.cohortOf f).tileFault t, (s.cohortOf f).barFault m] (s.command f og m (.cpyTile t.toNat (f.V a) (f.coords a)))
def execCpyl (m : Mods LitEng) (sp : BitVec 2) (a b : RegIx) (s : State) : Host.Outcome State Fault Refusal :=
  s.word (.cpyl m sp a b) m fun f og =>
    let c := s.cohortOf f
    let g := f.addr sp a 0
    firstCause [c.barFault m, s.spaceCheck f g, c.offFault m.soffset 128 1] (s.command f og m (.cpyl m.soffset g (f.V b).toNat))
def execCpylSt (m : Mods LitEng) (sp : BitVec 2) (a b : RegIx) (s : State) : Host.Outcome State Fault Refusal :=
  s.word (.cpylSt m sp a b) m fun f og =>
    let c := s.cohortOf f
    let g := f.addr sp a 0
    firstCause [c.barFault m, s.spaceCheck f g, c.offFault m.soffset 128 1] (s.command f og m (.cpylSt m.soffset g (f.V b).toNat))
def execCpylGg (m : Mods LitEng) (sp : BitVec 2) (a b : RegIx) (s : State) : Host.Outcome State Fault Refusal :=
  s.word (.cpylGg m sp a b) m fun f og =>
    let g := f.addr sp a 0
    let h := f.addr 0 (a + 2) 0
    firstCause [(s.cohortOf f).barFault m, s.spaceCheck f g, s.spaceCheck f h] (s.command f og m (.cpylGg g h (f.V b).toNat))
/-- `cpym` (R342): a launch without a quad-domain level raises 6.04. -/
def execCpym (m : Mods LitEng) (sp : BitVec 2) (a b : RegIx) (s : State) : Host.Outcome State Fault Refusal :=
  s.word (.cpym m sp a b) m fun f og =>
    let c := s.cohortOf f
    let g := f.addr sp a 0
    firstCause [c.barFault m, if (s.slotOf f).record.levels.any (·.2.1 == 4) then none else some (mkCause 6 4, 0),
      s.spaceCheck f g, c.offFault m.soffset 128 1] (s.command f og m (.cpym m.soffset g (f.V b).toNat))
/-- `cwpt` (R343): the flue's write pointer as it stands. -/
def execCwpt (m : Mods LitEng) (d : RegIx) (s : State) : Host.Outcome State Fault Refusal :=
  s.word (.cwpt m d) m fun f _ => .ok [.res 22 (f.wr d (regWords 2 ((s.cohortOf f).wptr.getD m.flue 0))) [] 0]

/-- The control words that `coll` accepts (R344). -/
def collOk (r : LaunchRec) (ctl : Word) : Bool := ctl.extractLsb' 4 28 == 0 && ctl.extractLsb' 0 2 != 3 && r.levels.any (·.2.1 == 8)
def execColl (m : Mods LitEng) (a : RegIx) (s : State) : Host.Outcome State Fault Refusal :=
  s.word (.coll m a) m fun f og =>
    let ctl := f.V (a + 5)
    let src := f.addr 0 a 0
    let dst := f.addr 0 (a + 2) 0
    let sz := (collTy ctl).bits / 8
    firstCause [(s.cohortOf f).barFault m, if collOk (s.slotOf f).record ctl then none else some (mkCause 6 5, ctl.setWidth 64),
      ownFault src 1 11, ownFault src sz 11, ownFault dst sz 11]
      (s.command f og m (.coll src dst (f.V (a + 4)).toNat ctl))

end Sys2Proof.Machine
end

