-- ==== Sys2Proof/Machine/Dispatch.lean ====
section
/-! DEFINITION. The dispatcher: one arm for each row of the opcode table, each one call of its meaning. -/

namespace Sys2Proof.Machine

def exec (i : Instr) (s : State) : Host.Outcome State Fault Refusal :=
  match i with
  | .add m d a b => Sys2Proof.Machine.execAdd m d a b s
  | .sub m d a b => Sys2Proof.Machine.execSub m d a b s
  | .addc m d a b => Sys2Proof.Machine.execAddc m d a b s
  | .subb m d a b => Sys2Proof.Machine.execSubb m d a b s
  | .neg m d a => Sys2Proof.Machine.execNeg m d a s
  | .abs m d a => Sys2Proof.Machine.execAbs m d a s
  | .min m d a b => Sys2Proof.Machine.execMin m d a b s
  | .max m d a b => Sys2Proof.Machine.execMax m d a b s
  | .and m d a b => Sys2Proof.Machine.execAnd m d a b s
  | .or m d a b => Sys2Proof.Machine.execOr m d a b s
  | .xor m d a b => Sys2Proof.Machine.execXor m d a b s
  | .andn m d a b => Sys2Proof.Machine.execAndn m d a b s
  | .orn m d a b => Sys2Proof.Machine.execOrn m d a b s
  | .sel m d a b => Sys2Proof.Machine.execSel m d a b s
  | .mov m d b => Sys2Proof.Machine.execMov m d b s
  | .cmp m p a b => Sys2Proof.Machine.execCmp m p a b s
  | .shl m d a b => Sys2Proof.Machine.execShl m d a b s
  | .shr m d a b => Sys2Proof.Machine.execShr m d a b s
  | .sar m d a b => Sys2Proof.Machine.execSar m d a b s
  | .rotl m d a b => Sys2Proof.Machine.execRotl m d a b s
  | .fsh m d a b => Sys2Proof.Machine.execFsh m d a b s
  | .bfx m d a b => Sys2Proof.Machine.execBfx m d a b s
  | .bfi m d a b => Sys2Proof.Machine.execBfi m d a b s
  | .popc m d a => Sys2Proof.Machine.execPopc m d a s
  | .clz m d a => Sys2Proof.Machine.execClz m d a s
  | .ctz m d a => Sys2Proof.Machine.execCtz m d a s
  | .brev m d a => Sys2Proof.Machine.execBrev m d a s
  | .bprm m d a b => Sys2Proof.Machine.execBprm m d a b s
  | .plog m d a b => Sys2Proof.Machine.execPlog m d a b s
  | .lea m d a b => Sys2Proof.Machine.execLea m d a b s
  | .mul m d a b => Sys2Proof.Machine.execMul m d a b s
  | .mulh m d a b => Sys2Proof.Machine.execMulh m d a b s
  | .mad m d a b => Sys2Proof.Machine.execMad m d a b s
  | .madh m d a b => Sys2Proof.Machine.execMadh m d a b s
  | .idp4 m d a b => Sys2Proof.Machine.execIdp4 m d a b s
  | .div m d a b => Sys2Proof.Machine.execDiv m d a b s
  | .rem m d a b => Sys2Proof.Machine.execRem m d a b s
  | .fadd m d a b => Sys2Proof.Machine.execFadd m d a b s
  | .fsub m d a b => Sys2Proof.Machine.execFsub m d a b s
  | .fmin m d a b => Sys2Proof.Machine.execFmin m d a b s
  | .fmax m d a b => Sys2Proof.Machine.execFmax m d a b s
  | .fcmp m p a b => Sys2Proof.Machine.execFcmp m p a b s
  | .fcls m d a => Sys2Proof.Machine.execFcls m d a s
  | .fmul m d a b => Sys2Proof.Machine.execFmul m d a b s
  | .ffma m d a b => Sys2Proof.Machine.execFfma m d a b s
  | .fscl m d a b => Sys2Proof.Machine.execFscl m d a b s
  | .fcvt m d a => Sys2Proof.Machine.execFcvt m d a s
  | .frnd m d a => Sys2Proof.Machine.execFrnd m d a s
  | .fdot2 m d a b => Sys2Proof.Machine.execFdot2 m d a b s
  | .fdot4 m d a b => Sys2Proof.Machine.execFdot4 m d a b s
  | .faddF64 m d a b => Sys2Proof.Machine.execFaddF64 m d a b s
  | .fsubF64 m d a b => Sys2Proof.Machine.execFsubF64 m d a b s
  | .fmulF64 m d a b => Sys2Proof.Machine.execFmulF64 m d a b s
  | .ffmaF64 m d a b => Sys2Proof.Machine.execFfmaF64 m d a b s
  | .fminF64 m d a b => Sys2Proof.Machine.execFminF64 m d a b s
  | .fmaxF64 m d a b => Sys2Proof.Machine.execFmaxF64 m d a b s
  | .fcmpF64 m p a b => Sys2Proof.Machine.execFcmpF64 m p a b s
  | .frcp m d a => Sys2Proof.Machine.execFrcp m d a s
  | .frsq m d a => Sys2Proof.Machine.execFrsq m d a s
  | .fsqrt m d a => Sys2Proof.Machine.execFsqrt m d a s
  | .fdiv m d a b => Sys2Proof.Machine.execFdiv m d a b s
  | .fex2 m d a => Sys2Proof.Machine.execFex2 m d a s
  | .flg2 m d a => Sys2Proof.Machine.execFlg2 m d a s
  | .fsin m d a => Sys2Proof.Machine.execFsin m d a s
  | .fcos m d a => Sys2Proof.Machine.execFcos m d a s
  | .ftnh m d a => Sys2Proof.Machine.execFtnh m d a s
  | .ld m d a => Sys2Proof.Machine.execLd m d a s
  | .ldh m d a => Sys2Proof.Machine.execLdh m d a s
  | .chkh m d a => Sys2Proof.Machine.execChkh m d a s
  | .pref m a => Sys2Proof.Machine.execPref m a s
  | .st m a b => Sys2Proof.Machine.execSt m a b s
  | .atomAdd m d a b => Sys2Proof.Machine.execAtomAdd m d a b s
  | .atomMin m d a b => Sys2Proof.Machine.execAtomMin m d a b s
  | .atomMax m d a b => Sys2Proof.Machine.execAtomMax m d a b s
  | .atomAnd m d a b => Sys2Proof.Machine.execAtomAnd m d a b s
  | .atomOr m d a b => Sys2Proof.Machine.execAtomOr m d a b s
  | .atomXor m d a b => Sys2Proof.Machine.execAtomXor m d a b s
  | .atomXch m d a b => Sys2Proof.Machine.execAtomXch m d a b s
  | .atomCas m d a b => Sys2Proof.Machine.execAtomCas m d a b s
  | .atomIncw m d a b => Sys2Proof.Machine.execAtomIncw m d a b s
  | .atomDecw m d a b => Sys2Proof.Machine.execAtomDecw m d a b s
  | .atomFadd m d a b => Sys2Proof.Machine.execAtomFadd m d a b s
  | .lds m d a => Sys2Proof.Machine.execLds m d a s
  | .sts m a b => Sys2Proof.Machine.execSts m a b s
  | .smap m a b => Sys2Proof.Machine.execSmap m a b s
  | .sumap m a => Sys2Proof.Machine.execSumap m a s
  | .sflush m a => Sys2Proof.Machine.execSflush m a s
  | .sfe m a => Sys2Proof.Machine.execSfe m a s
  | .tfe m p a => Sys2Proof.Machine.execTfe m p a s
  | .fence m => Sys2Proof.Machine.execFence m s
  | .shfl m d a b => Sys2Proof.Machine.execShfl m d a b s
  | .bcst m d a b => Sys2Proof.Machine.execBcst m d a b s
  | .vote m p q mode => Sys2Proof.Machine.execVote m p q mode s
  | .redu m d a o => Sys2Proof.Machine.execRedu m d a o s
  | .scan m d a o => Sys2Proof.Machine.execScan m d a o s
  | .mtch m d a t => Sys2Proof.Machine.execMtch m d a t s
  | .elect m p => Sys2Proof.Machine.execElect m p s
  | .rdv m d => Sys2Proof.Machine.execRdv m d s
  | .jarr m j => Sys2Proof.Machine.execJarr m j s
  | .jmsk m j a => Sys2Proof.Machine.execJmsk m j a s
  | .br m off => Sys2Proof.Machine.execBr m off s
  | .call m off => Sys2Proof.Machine.execCall m off s
  | .ret m => Sys2Proof.Machine.execRet m s
  | .jt m t a => Sys2Proof.Machine.execJt m t a s
  | .exit m => Sys2Proof.Machine.execExit m s
  | .yield m => Sys2Proof.Machine.execYield m s
  | .trap m n => Sys2Proof.Machine.execTrap m n s
  | .waitc m => Sys2Proof.Machine.execWaitc m s
  | .bar m n => Sys2Proof.Machine.execBar m n s
  | .barArrive m n => Sys2Proof.Machine.execBarArrive m n s
  | .barWait m n => Sys2Proof.Machine.execBarWait m n s
  | .barExpect m n a => Sys2Proof.Machine.execBarExpect m n a s
  | .nop m => Sys2Proof.Machine.execNop m s
  | .sleep m => Sys2Proof.Machine.execSleep m s
  | .spawn m p a b => Sys2Proof.Machine.execSpawn m p a b s
  | .spawnr m p a b => Sys2Proof.Machine.execSpawnr m p a b s
  | .jwait m a => Sys2Proof.Machine.execJwait m a s
  | .watch m p a b => Sys2Proof.Machine.execWatch m p a b s
  | .unwatch m p a => Sys2Proof.Machine.execUnwatch m p a s
  | .kcap m d => Sys2Proof.Machine.execKcap m d s
  | .mtc m t a => Sys2Proof.Machine.execMtc m t a s
  | .mfc m d t => Sys2Proof.Machine.execMfc m d t s
  | .tzeroTile m t => Sys2Proof.Machine.execTzeroTile m t s
  | .tzeroAcc m n => Sys2Proof.Machine.execTzeroAcc m n s
  | .tldTile m t a => Sys2Proof.Machine.execTldTile m t a s
  | .tldAcc m n a => Sys2Proof.Machine.execTldAcc m n a s
  | .tstTile m t a => Sys2Proof.Machine.execTstTile m t a s
  | .tstAcc m n a => Sys2Proof.Machine.execTstAcc m n a s
  | .tmma m => Sys2Proof.Machine.execTmma m s
  | .tbmp m t => Sys2Proof.Machine.execTbmp m t s
  | .tcvt m t q b => Sys2Proof.Machine.execTcvt m t q b s
  | .tacc m d n b => Sys2Proof.Machine.execTacc m d n b s
  | .tstatTile m d => Sys2Proof.Machine.execTstatTile m d s
  | .tstatBarrier m d n => Sys2Proof.Machine.execTstatBarrier m d n s
  | .tgat m t a b => Sys2Proof.Machine.execTgat m t a b s
  | .cpyStash m a => Sys2Proof.Machine.execCpyStash m a s
  | .cpyTile m t a => Sys2Proof.Machine.execCpyTile m t a s
  | .cpyl m q a b => Sys2Proof.Machine.execCpyl m q a b s
  | .cpylSt m q a b => Sys2Proof.Machine.execCpylSt m q a b s
  | .cpylGg m q a b => Sys2Proof.Machine.execCpylGg m q a b s
  | .cpym m q a b => Sys2Proof.Machine.execCpym m q a b s
  | .cwpt m d => Sys2Proof.Machine.execCwpt m d s
  | .coll m a => Sys2Proof.Machine.execColl m a s
  | .rpmark m => Sys2Proof.Machine.execRpmark m s
  | .rpqry m d a => Sys2Proof.Machine.execRpqry m d a s
  | .movs m d n => Sys2Proof.Machine.execMovs m d n s
  | .movw m n a => Sys2Proof.Machine.execMovw m n a s
  | .rdtm m d => Sys2Proof.Machine.execRdtm m d s
  | .svcVersion m => Sys2Proof.Machine.execSvcVersion m s
  | .svcRecord m => Sys2Proof.Machine.execSvcRecord m s
  | .svcCause m => Sys2Proof.Machine.execSvcCause m s
  | .tret m => Sys2Proof.Machine.execTret m s
  | .tlbi m a => Sys2Proof.Machine.execTlbi m a s
  | .rep m n m2 => Sys2Proof.Machine.execRep m n m2 s
  | .censusDecision hearth grate => Sys2Proof.Machine.execCensusDecision hearth grate s
  | .resultWriteback uid => Sys2Proof.Machine.execResultWriteback uid s
  | .loadReturn op evict => Sys2Proof.Machine.execLoadReturn op evict s
  | .storeAcknowledge op => Sys2Proof.Machine.execStoreAcknowledge op s
  | .homeWritePerformed op => Sys2Proof.Machine.execHomeWritePerformed op s
  | .releaseWaitEnd uid => Sys2Proof.Machine.execReleaseWaitEnd uid s
  | .fenceScSequenced uid => Sys2Proof.Machine.execFenceScSequenced uid s
  | .leaseExpiry hearth cohort line => Sys2Proof.Machine.execLeaseExpiry hearth cohort line s
  | .mappedLineFill cohort line => Sys2Proof.Machine.execMappedLineFill cohort line s
  | .stashStallTimeout uid => Sys2Proof.Machine.execStashStallTimeout uid s
  | .rendezvousWatchdogExpiry cohort crew tag => Sys2Proof.Machine.execRendezvousWatchdogExpiry cohort crew tag s
  | .sleepWake uid => Sys2Proof.Machine.execSleepWake uid s
  | .devBarrierWakeWindow slot n => Sys2Proof.Machine.execDevBarrierWakeWindow slot n s
  | .gatherCrew die launch cls place unit => Sys2Proof.Machine.execGatherCrew die launch cls place unit s
  | .cohortAdmit slot => Sys2Proof.Machine.execCohortAdmit slot s
  | .spillRecordMigration die => Sys2Proof.Machine.execSpillRecordMigration die s
  | .watchFiringRecord die index => Sys2Proof.Machine.execWatchFiringRecord die index s
  | .jwaitReread uid => Sys2Proof.Machine.execJwaitReread uid s
  | .flueCommandStart hearth flue => Sys2Proof.Machine.execFlueCommandStart hearth flue s
  | .flueLineDelivery hearth flue => Sys2Proof.Machine.execFlueLineDelivery hearth flue s
  | .flueCommandComplete hearth flue => Sys2Proof.Machine.execFlueCommandComplete hearth flue s
  | .tileCommandStart hearth => Sys2Proof.Machine.execTileCommandStart hearth s
  | .tileCommandComplete hearth cmd => Sys2Proof.Machine.execTileCommandComplete hearth cmd s
  | .collComplete cmd others => Sys2Proof.Machine.execCollComplete cmd others s
  | .translationWalkComplete walk => Sys2Proof.Machine.execTranslationWalkComplete walk s
  | .garleyPageService fault => Sys2Proof.Machine.execGarleyPageService fault s
  | .launchComplete slot => Sys2Proof.Machine.execLaunchComplete slot s
  | .tailLineStore queue => Sys2Proof.Machine.execTailLineStore queue s
  | .nopPacket queue => Sys2Proof.Machine.execNopPacket queue s
  | .launch queue => Sys2Proof.Machine.execLaunch queue s
  | .indirect queue => Sys2Proof.Machine.execIndirect queue s
  | .wait queue => Sys2Proof.Machine.execWait queue s
  | .waitThresholdReached queue => Sys2Proof.Machine.execWaitThresholdReached queue s
  | .signal queue => Sys2Proof.Machine.execSignal queue s
  | .fencePacket queue => Sys2Proof.Machine.execFencePacket queue s
  | .layout queue => Sys2Proof.Machine.execLayout queue s
  | .copy queue => Sys2Proof.Machine.execCopy queue s
  | .recoverClose queue => Sys2Proof.Machine.execRecoverClose queue s
  | .recoverReplay queue => Sys2Proof.Machine.execRecoverReplay queue s
  | .recoverDiscard queue => Sys2Proof.Machine.execRecoverDiscard queue s
  | .priority queue => Sys2Proof.Machine.execPriority queue s
  | .query queue => Sys2Proof.Machine.execQuery queue s
  | .createContext => Sys2Proof.Machine.execCreateContext s
  | .destroyContext => Sys2Proof.Machine.execDestroyContext s
  | .createQueue => Sys2Proof.Machine.execCreateQueue s
  | .destroyQueue => Sys2Proof.Machine.execDestroyQueue s
  | .resumeQueue => Sys2Proof.Machine.execResumeQueue s
  | .setHostRange => Sys2Proof.Machine.execSetHostRange s
  | .setPolicy => Sys2Proof.Machine.execSetPolicy s
  | .spdm response session => Sys2Proof.Machine.execSpdm response session s
  | .faultDone => Sys2Proof.Machine.execFaultDone s
  | .registerWrite space off bytes => Sys2Proof.Machine.execRegisterWrite space off bytes s
  | .packagePowerLimitWrite watts => Sys2Proof.Machine.execPackagePowerLimitWrite watts s
  | .packageResetRequest v => Sys2Proof.Machine.execPackageResetRequest v s
  | .preemptStopOrder ctx hearth => Sys2Proof.Machine.execPreemptStopOrder ctx hearth s
  | .contextSaveComplete ctx => Sys2Proof.Machine.execContextSaveComplete ctx s
  | .contextRestore ctx => Sys2Proof.Machine.execContextRestore ctx s
  | .damperInterval hearth => Sys2Proof.Machine.execDamperInterval hearth s
  | .frontClockChange hearth => Sys2Proof.Machine.execFrontClockChange hearth s
  | .retentionEntry hearth => Sys2Proof.Machine.execRetentionEntry hearth s
  | .retentionExit hearth parityError => Sys2Proof.Machine.execRetentionExit hearth parityError s
  | .inFieldTest unit confirmed => Sys2Proof.Machine.execInFieldTest unit confirmed s
  | .rcvGranuleDurable uid unit granule => Sys2Proof.Machine.execRcvGranuleDurable uid unit granule s
  | .emberUnitCopyComplete ctx unit => Sys2Proof.Machine.execEmberUnitCopyComplete ctx unit s
  | .sealWrite ctx => Sys2Proof.Machine.execSealWrite ctx s
  | .containedNodeCommit slot => Sys2Proof.Machine.execContainedNodeCommit slot s
  | .containedNodeAbort slot cause => Sys2Proof.Machine.execContainedNodeAbort slot cause s
  | .uncorrectableErrorDetected site => Sys2Proof.Machine.execUncorrectableErrorDetected site s
  | .hostStoreToDevice pa access => Sys2Proof.Machine.execHostStoreToDevice pa access s
  | .hostInvalidate die line => Sys2Proof.Machine.execHostInvalidate die line s
  | .peerAccess req => Sys2Proof.Machine.execPeerAccess req s
  | .flitCrcFailure failure => Sys2Proof.Machine.execFlitCrcFailure failure s
  | .linkRetrain link goodLanes => Sys2Proof.Machine.execLinkRetrain link goodLanes s
  | .peerLinkDown link => Sys2Proof.Machine.execPeerLinkDown link s
  | .dieReset die => Sys2Proof.Machine.execDieReset die s
  | .bringUp outcome => Sys2Proof.Machine.execBringUp outcome s
  | .junctionTemperatureChange die celsius => Sys2Proof.Machine.execJunctionTemperatureChange die celsius s
  | .packageTrip die => Sys2Proof.Machine.execPackageTrip die s
  | .instructionFetchComplete uid => Sys2Proof.Machine.execInstructionFetchComplete uid s
  | .pipeIntervalEnd hearth grate lane cls => Sys2Proof.Machine.execPipeIntervalEnd hearth grate lane cls s
  | .engineStashStallTimeout hearth => Sys2Proof.Machine.execEngineStashStallTimeout hearth s
  | .svcReply uid => Sys2Proof.Machine.execSvcReply uid s
  | .tlbiComplete uid => Sys2Proof.Machine.execTlbiComplete uid s
  | .dieResetComplete die => Sys2Proof.Machine.execDieResetComplete die s
  | .hbmStackTemperatureChange stack celsius => Sys2Proof.Machine.execHbmStackTemperatureChange stack celsius s

end Sys2Proof.Machine
end

