-- ==== Sys2Proof/Machine/Turn.lean ====
section
/-! DEFINITION. What comes next in the device: a word of the fibre that issues, work that follows from what has happened, an event that
is due, or a free one (R38, R66, R68, R74, R82 to R84, R90, R105, log 2). -/

namespace Sys2Proof

/-- Whether a term names an event of the part: no word encodes it. -/
def Instr.isEvent (i : Instr) : Bool := i.enc.isNone

end Sys2Proof

namespace Sys2Proof.Machine

/-- What a step does. -/
inductive Turn where
  /-- a word of the issuing fibre -/
  | word (i : Instr) (s : State)
  /-- an event of the part -/
  | event (i : Instr) (s : State)
  /-- work that no row of the table names -/
  | done (s : State)

/-- After an event: what follows from it, then the ages of the fibres that are ready (R68). -/
def State.settled (s : State) : State := (if s.run.decision.isNone then s.settle else s).stampReady

/-- The decision is over: rendezvous complete at its end (R74), the damper meters its cohorts (R429). The fibres that are ready again take the
front cycle of the decision just ended as their age (DESIGN CHOICE, log 98). -/
def State.closeDecision (s : State) : State :=
  let s := match s.run.decision with
    | some d => s.updHearth d.hearth fun h => h.setClock { h.clock d.grate with issued := d.issued }
    | none => s
  let members := (s.run.decision.map (·.issued)).getD []
  (({ s with run := { s.run with decision := none, group := none } }.settle).meter members).stampReady

/-- The word at the place that the open group has reached; at a group's head its checks come first (R105). A field that a repetition has
stepped to a place its operand can't have is one more breach of R92. -/
def State.wordTurn (s : State) (f : Fibre) : Turn :=
  let og := s.openGroup f
  let ws := f.groupWords
  match (if og.words = 0 then groupFault (f.arch.pc.toNat % 3) (f.arch.repc == 0) ws else none) with
  | some (k, w) => .done (s.groupRaise f og (mkCause 0 k) (w.zeroExtend 64))
  | none =>
    match ws[og.words]? with
    | none => .done s.endTurn
    | some w =>
      if wordClass w = 30 then
        match decode w none with
        | .ok i => .word i s
        | .error _ => .done s.endTurn
      else match instrAt ws og.repeating og.words with
        | some (i, pin) =>
          if i.regsOk then .word i { s with run := { s.run with group := some { og with pin := pin } } }
          else .done (s.groupRaise f og (mkCause 0 (wordClass w)) (w.zeroExtend 64))
        | none => .done s.endTurn

/-- A free event (log 2): what `Config.nextEvent` gives, and a decision slot of some grate where it gives a word. -/
def State.freeTurn (s : State) : Turn :=
  let i := Config.nextEvent s.run.tick
  let n := Config.choice s.run.tick 3 0
  .event (if i.isEvent then i else .censusDecision (n % 192) (n / 192 % 4)) s

/-- The counter that the free values are applied to moves on (log 3). -/
def State.ticked (s : State) : State := { s with run := { s.run with tick := s.run.tick + 1 } }

/-- What comes next, from a state whose counter has moved on. -/
def State.turnFrom (s : State) : Turn :=
  match s.run.issuing with
  | uid :: _ =>
    match s.fibre? uid with
    | some f => if f.exited then .done s.endTurn else s.wordTurn f
    | none => .done s.endTurn
  | [] =>
    match s.run.escalations with
    | ctx :: rest => .done (({ s with run := { s.run with escalations := rest } }.replay ctx none).settled)
    | [] =>
      match s.run.urgent with
      | i :: rest => .event i { s with run := { s.run with urgent := rest } }
      | [] =>
        if s.run.decision.isSome then .done s.closeDecision
        else match s.fibres.find? s.readsDone with
          | some f => .done ((s.takeReads f).settled)
          | none => match s.nextResume with
          | some f => .done ((s.resume f).settled)
          | none => match s.nextGather with
          | some i => .event i s
          | none =>
            match s.run.agenda with
            | i :: rest => .event i { s with run := { s.run with agenda := rest } }
            | [] => s.freeTurn

/-- What a step does: its free values are its own. -/
def State.turn (s : State) : Turn := s.ticked.turnFrom

end Sys2Proof.Machine
end

