-- ==== Sys2Proof/Machine/Place.lean ====
section
/-! DEFINITION. Placing one instruction as the next group of an issuing fibre: the load of a program stands for the host's LAUNCH
(log 18). -/

namespace Sys2Proof.Machine

/-- The context, the launch and the cohort of one fibre of 256 registers, all resources declared, in which a placed word issues. -/
def placeRecord : LaunchRec :=
  { (default : LaunchRec) with codeBase := 4096, handler := 0xFFFFFFFF, depth := 255, starve := 8, levels := [(1, 0, 1)], rank := 0,
                               peers := 0, decl := { regs := 256, bars := 32, lines := 3072, tiles := 16, accs := 8 } }
def placeCohort (uid slot : Nat) : Cohort :=
  { uid := uid, slot := slot, number := 0, hearth := 0, gathered := false, decl := placeRecord.decl, crews := [Crew.fresh 0 0 0 256],
    stash := [], lines := [], bars := [], tiles := [], accs := [], tileStatus := 0, wptr := [0, 0, 0, 0], flushed := 0, energy := 4600, current := 700,
    metered := 0, held := false, run := .running }
def placeContext : Context :=
  { (default : Context) with id := 1, ringExp := 4, ringAddr := 0x200000, recovery := { (default : Recovery) with rpo := 1 } }
def placeSlot : LaunchSlot :=
  { (default : LaunchSlot) with n := 0, gen := 1, busy := true, queue := 0, ctx := 1, record := placeRecord, next := 1, total := 1 }

/-- The three words of a packet whose slot k holds the instruction. -/
def placePacket (pc : Word) (w : Nat) : Packet :=
  let ws := (List.range 3).map fun i => BitVec.ofNat 32 (w / 2 ^ (32 * i))
  { number := pc.toNat / 3, words := (List.replicate (pc.toNat % 3) 0 ++ ws).take 3 }

/-- A fibre that issues, with the words in its fetched packet at its PC; one is made where none issues. -/
def State.place (s : State) (w : Nat) : State :=
  match s.issuer with
  | some f =>
    { s.setFibre { f with exited := false, ibuf := some (placePacket f.arch.pc w), arch := { f.arch with repc := 0 } } with
      run := { s.run with group := none } }
  | none =>
    let uid := s.run.nextUid
    let f := { Fibre.blank (uid + 1) uid 0 0 256 0 with ibuf := some (placePacket 0 w) }
    { s with
      contexts := s.contexts ++ [placeContext]
      slots := placeSlot :: s.slots
      cohorts := s.cohorts ++ [placeCohort uid 0]
      units := s.units ++ [{ hearth := 0, grate := 0, slot := 0, crews := [(uid, 0)], starve := [], paired := false, shadow := false }]
      fibres := s.fibres ++ [f]
      run := { s.run with issuing := [uid + 1], group := none, decision := some ⟨0, 0, 0, []⟩, nextUid := uid + 2 } }

end Sys2Proof.Machine
end

