-- ==== Sys2Proof/Machine/Step.lean ====
section
/-! DEFINITION. One step of the device. -/

namespace Sys2Proof.Machine

/-- One step: the next word of the issuing fibre, an event, or the work that follows from one. -/
def step (s : State) : Host.Outcome State Fault Refusal :=
  match s.turn with
  | .word i t => exec i t
  | .event i t =>
    match exec i t with
    | .next u => .next u.settled
    | o => o
  | .done t => .next t

/-- The state with an instruction of `nbits` bits placed where the next step fetches (log 18). -/
def State.withFetchWord (s : State) (nbits w : Nat) : State := s.place (w % 2 ^ nbits)

end Sys2Proof.Machine
end

