-- ==== Sys2Proof/Safety.lean ====
section
/-! DEFINITION. What counts as a safe run, and the terms in which the statements speak: a word that issues, what it adds to its group,
what a group of results leaves, and the machine that stands but for one fibre. -/

namespace Sys2Proof.Machine

/-! ### Runs -/

/-- A step that goes on. -/
def State.goesOn (s : State) : Prop := ∃ t, step s = .next t

/-- A run of n steps that goes on throughout. -/
def State.runsSafely (s : State) : Nat → Prop
  | 0 => True
  | n + 1 => ∃ t, step s = .next t ∧ t.runsSafely n

/-- The three memories are in their canonical form. -/
def State.canonical (s : State) : Prop := s.mem.wf = true ∧ s.hostMem.wf = true ∧ s.peerMem.wf = true

/-! ### A word that issues (R38, R57, R82, R84, R85) -/

/-- Fibre f issues word i next: its guard reads true, and its lane registers lie in the allocation and hold no uncorrectable error. -/
structure State.Runs (s : State) (f : Fibre) (i : Instr) (g : GuardBits) : Prop where
  issuer : s.issuer = some f
  guard : f.guard g = true
  within : f.beyond (i.dsts ++ i.reads (s.openGroup f).pin) = none
  sound : f.spoiled (i.reads (s.openGroup f).pin) = none

/-- The open group with the effects of one more word. -/
def OpenGroup.add (og : OpenGroup) (words : Nat) (fx : List Fx) : OpenGroup := { og with words := og.words + words, fx := og.fx ++ fx, pin := none }

/-- The state once a word has added its effects to its group: the group stays open where the word chains, else it takes effect (R82, R84). -/
def State.adds (s : State) (f : Fibre) (chains : Bool) (words : Nat) (fx : List Fx) : State :=
  let og := (s.openGroup f).add words fx
  if chains then { s with run := { s.run with group := some og } } else s.commit f og

/-! ### What a word alone in its group leaves -/

/-- Fibre g is fibre f after a group of `words` words that wrote registers, predicates and flags, and nothing else but the PC; the marks of
its issue (its head PC, its turn in the decision), the landings still to come and its hoist entries aside. -/
structure Fibre.Result (f g : Fibre) (words : Nat) (rs : List (Nat × Word)) (ps : List (Nat × Bool)) (fl : BitVec 5) : Prop where
  arch : g.arch = { f.arch with pc := f.arch.pc + BitVec.ofNat 32 words, regs := g.arch.regs, pword := g.arch.pword,
                                fflags := f.arch.fflags ||| fl }
  count : g.arch.regs.length = f.arch.regs.length
  regs : ∀ r, r < f.arch.regs.length → g.arch.regs.getD r 0 = (rs.lookup r).getD (f.arch.regs.getD r 0)
  preds : ∀ n : BitVec 3, g.P n = if n = 7 then true else (ps.lookup n.toNat).getD (f.P n)
  rest : g = { f with arch := g.arch, pend := g.pend, hoist := g.hoist, head := f.arch.pc, rep := none, held := none, turn := g.turn, since := none,
                      sent := 0 }

/-- From s to t nothing changed but fibre u, the course of the decision, which counts u among those that have issued, and the pipes that a lane occupies: no byte of memory, no other
fibre, no cohort, no register of the device. -/
structure State.OnlyFibre (s t : State) (u : Nat) : Prop where
  rest : t = { s with run := t.run, fibres := t.fibres, hearths := t.hearths }
  others : ∀ v, v ≠ u → t.fibre? v = s.fibre? v
  hearths : ∀ h, { t.hearth h with pipes := [] } = { s.hearth h with pipes := [] }
  run : t.run = { s.run with
    group := none, issuing := s.run.issuing.tail, nextOp := t.run.nextOp
    decision := s.run.decision.map fun (d : Decision) => { d with issued := d.issued ++ [u] } }

/-- From s to t the fibre f took one group of results, and nothing else changed. -/
def State.Wrote (s t : State) (f : Fibre) (words : Nat) (rs : List (Nat × Word)) (ps : List (Nat × Bool)) (fl : BitVec 5) : Prop :=
  (∃ g, t.fibre? f.uid = some g ∧ f.Result g words rs ps fl) ∧ s.OnlyFibre t f.uid

/-- Word i completes with a result of class `cls`: it adds the result to its group, and alone in its group it leaves exactly that result. -/
def State.Gives (s : State) (f : Fibre) (i : Instr) (chains : Bool) (words cls : Nat) (rs : List (Nat × Word)) (ps : List (Nat × Bool))
    (fl : BitVec 5) : Prop :=
  exec i s = .next (s.adds f chains words [.res cls rs ps fl]) ∧
  (chains = false → s.run.group = none → s.Wrote (s.adds f chains words [.res cls rs ps fl]) f words rs ps fl)

/-! ### Words with other effects -/

/-- Word i completes with effects `fx` added to its group. -/
def State.Issues (s : State) (f : Fibre) (i : Instr) (chains : Bool) (words : Nat) (fx : List Fx) : Prop :=
  exec i s = .next (s.adds f chains words fx)

/-- Word i raises a cause: its group's writes are discarded and the cause is taken at the group's head (R38, R91). -/
def State.Traps (s : State) (f : Fibre) (i : Instr) (c : Cause) (tval : DWord) : Prop :=
  exec i s = .next (s.groupRaise f (s.openGroup f) c tval)

/-- Word i ends its group, whose effects are discarded, and begins a release at `sc`, after which it raises: at once where the release has nothing
to wait for; else the fibre stands at the group's head as it was, the raise among what it has still to do (R214, R386; log 54). -/
def State.TrapsReleased (s : State) (f : Fibre) (i : Instr) (sc : Scope) (c : Cause) (tval : DWord) : Prop :=
  exec i s = .next (s.raiseAfter f (s.openGroup f) sc c tval) ∧
  (∀ g, (s.raiseAfter f (s.openGroup f) sc c tval).fibre? f.uid = some g → g.order.isSome → g.arch = f.arch ∧ ∃ n, (n, Fx.raise c tval) ∈ g.deferred)

/-- Word i completes with one effect on its own fibre: alone in its group, it leaves the fibre's registers as `arch`, and no other fibre,
no memory and no register of the device changes. -/
def State.Leaves (s : State) (f : Fibre) (i : Instr) (chains : Bool) (words : Nat) (fx : List Fx) (arch : ArchState) : Prop :=
  s.Issues f i chains words fx ∧
  (chains = false → s.run.group = none →
    (∃ g, (s.adds f false words fx).fibre? f.uid = some g ∧ g.arch = arch) ∧ s.OnlyFibre (s.adds f false words fx) f.uid)

/-- An access of n bytes at a passes steps 3 to 6 of Table 13.1 and is performed at target t. -/
def State.Passes (s : State) (f : Fibre) (a : GAddr) (n : Nat) (writes : Bool) (t : Target) : Prop :=
  s.spaceFault (s.ctxOf f) a.space = none ∧ a.off.toNat % n = 0 ∧ s.lockMeets f a n writes = false ∧
  s.translate (s.hearthOf f) (s.ctxOf f) writes.toNat a a.off = .ok t

/-- Where word i with an access of n bytes at a raises, in the order of Table 13.1. -/
def State.AccessTraps (s : State) (f : Fibre) (i : Instr) (a : GAddr) (n : Nat) (writes : Bool) : Prop :=
  (∀ c, s.spaceFault (s.ctxOf f) a.space = some c → s.Traps f i c (a.space.setWidth 64)) ∧
  (s.spaceFault (s.ctxOf f) a.space = none →
    (a.off.toNat % n ≠ 0 → s.Traps f i (mkCause 3 0) a.off) ∧
    (a.off.toNat % n = 0 →
      (s.lockMeets f a n writes = true → s.Traps f i (mkCause 7 1) a.off) ∧
      (s.lockMeets f a n writes = false → ∀ c tv,
        s.translate (s.hearthOf f) (s.ctxOf f) writes.toNat a a.off = .fault c tv → s.Traps f i c tv)))

/-- The queue and the range-lock table of the fibre's hearth hold one more command of `op`, beside those of its own group (R300, R308, R318). -/
def State.HasRoom (s : State) (f : Fibre) (op : EngOp) (flue : Nat) : Prop :=
  (enginesOf (s.openGroup f).fx).length < f.sent ∨ s.engRoom f op flue ((enginesOf (s.openGroup f).fx).drop f.sent) = true

/-- The entry that a class 19 word names: its PC and the REGS of its directory entry (R265, Table 15.1). -/
def State.Entry (s : State) (f : Fibre) (l : LitSpawn) (b : RegIx) (e : Word) (regs : Nat) : Prop :=
  e = (if l.ereg then f.V b else (s.openGroup f).head + BitVec.ofNat 32 (s.openGroup f).words + l.entry.signExtend 32) ∧
  ∃ pa, s.codeAt f (s.openGroup f).head ((s.slotOf f).record.codeBase - 1536) 1024 = .found pa ∧
    dirLookup (s.codeBytes (s.slotOf f) pa 1024) e = some regs

/-- An address in this device's memory, a multiple of 8 (R264). -/
def OwnAligned (a : GAddr) : Prop := spaceKind a.space = 0 ∧ spaceNum a.space = 0 ∧ a.off.toNat % 8 = 0

/-- The next packet p of queue n starts now and is of a kind (its opcode; for RECOVER with its action): the queue is served, no ready queue
goes before it, by its priority or in its priority's round robin, the packet is well formed and need not wait; s1 is the state with the
packet taken from its buffer, if it comes from one, and the round robin behind the queue (R361 to R364, R370). -/
def State.PacketDue (s : State) (n kind : Nat) (s1 : State) (p : Pkt) : Prop :=
  s.served (s.queue n) = true ∧ (∀ r ∈ s.queues, s.ahead (s.queue n) r = true → s.queueReady r = false) ∧
  ∃ s0, s.nextPkt n = (s0, some p) ∧ s1 = s0.took n ∧ s0.malformed (s0.queue n) p = none ∧ p.kind = kind ∧ (s0.queue n).mustWait p = false

/-- The front end's die is up, and a command of a code stands in the window with a right tag, its own form and its context, if it names one; s1 counts the request of its
session (R372, R373). -/
def State.CommandDue (s : State) (code : Nat) (own : Bool) (s1 : State) (c : Option Context) : Prop :=
  let w := s.window
  let sid := w.field 4 4
  s.frontUp = true ∧ ∃ len, w.pending = some len ∧ w.field 0 1 = code ∧ w.field 1 1 = 0 ∧
    (let n := if sid = 0 then len else len - 16
     commandSize code ≤ n ∧
     ((sid = 0 ∧ s1 = s) ∨ (sid ≠ 0 ∧ 16 ≤ len ∧ ∃ x, s.session? sid = some x ∧ w.bytes n 16 = macBytes sid false x.requests (w.bytes 0 n) ∧
       s1 = { s with sessions := s.sessions.map fun x => if x.id = sid then { x with requests := x.requests + 1 } else x }))) ∧
    (own = false → w.field 2 2 = 0 ∧ c = none) ∧
    (own = true → c.isSome = true ∧ c = (s1.context? (w.field 2 2)).filter fun c => c.owner == sid)

end Sys2Proof.Machine

namespace Sys2Proof

/-! ### Numbers and their rounding, in the words of the statements (R110, R113, R175 to R190) -/

/-- The number that a finite value stands for. -/
def FVal.num : FVal → ℚ
  | .fin n m e => (sgn n m : ℚ) * (2 : ℚ) ^ e
  | _ => 0
def FVal.isFin : FVal → Bool | .fin .. => true | _ => false

/-- The significand m and the exponent e place |q|: exactly, or, with `st`, strictly between m and m + 1 times 2^e, in 61 bits or more. -/
def Places (q : ℚ) (m : Nat) (e : Int) (st : Bool) : Prop :=
  if st then 2 ^ 60 ≤ m ∧ (m : ℚ) * 2 ^ e < |q| ∧ |q| < (m + 1) * 2 ^ e else (m : ℚ) * 2 ^ e = |q|

/-- v is what a word leaves for an element whose exact result is the number q; `zneg` is the sign of an exact zero. -/
def LitFlt.Rounds (l : LitFlt) (t : Ty) (q : ℚ) (zneg : Bool) (v : Nat × FFlags) : Prop :=
  (q = 0 → v = (t.fmt.signBit zneg, 0)) ∧
  (q ≠ 0 → ∃ m e st, Places q m e st ∧ v = l.fin t (.num (decide (q < 0)) m e st))

/-- The canonical NaN, with NV where `bad`. -/
def Ty.quiet (t : Ty) (bad : Bool) : Nat × FFlags := (t.fmt.nanCode, if bad then fNV else 0)
/-- An infinity, with no flag. -/
def Ty.infinite (t : Ty) (neg : Bool) : Nat × FFlags := (t.fmt.signBit neg + t.fmt.infCode, 0)

/-- u + w, rounded once (R175). -/
def LitFlt.Sum (l : LitFlt) (t : Ty) (u w : FVal) (v : Nat × FFlags) : Prop :=
  (u.isNan ∨ w.isNan → v = t.quiet (u.isSig || w.isSig)) ∧
  (∀ a b, u = .inf a → w = .inf b → v = if a = b then t.infinite a else t.quiet true) ∧
  (∀ a, u = .inf a → w.isFin → v = t.infinite a) ∧
  (∀ a, w = .inf a → u.isFin → v = t.infinite a) ∧
  (u.isFin → w.isFin → l.Rounds t (u.num + w.num) (if u.isZero && w.isZero && u.sign == w.sign then u.sign else l.rnd == .rd) v)

/-- a × b, rounded once (R175). -/
def LitFlt.Product (l : LitFlt) (t : Ty) (a b : FVal) (v : Nat × FFlags) : Prop :=
  (a.isNan ∨ b.isNan → v = t.quiet (a.isSig || b.isSig)) ∧
  ((a.isInf ∧ b.isZero) ∨ (a.isZero ∧ b.isInf) → v = t.quiet true) ∧
  ((a.isInf ∧ !b.isNan ∧ !b.isZero) ∨ (b.isInf ∧ !a.isNan ∧ !a.isZero) → v = t.infinite (a.sign != b.sign)) ∧
  (a.isFin → b.isFin → l.Rounds t (a.num * b.num) (a.sign != b.sign) v)

/-- a × b + x, rounded once (R175). -/
def LitFlt.Fused (l : LitFlt) (t : Ty) (a b x : FVal) (v : Nat × FFlags) : Prop :=
  let undefd := (a.isInf && b.isZero) || (a.isZero && b.isInf)
  let p := a.sign != b.sign
  (a.isNan || b.isNan || undefd || x.isNan → v = t.quiet (a.isSig || b.isSig || undefd || x.isSig)) ∧
  (!a.isNan && !b.isNan && !undefd && (a.isInf || b.isInf) →
    (∀ c, x = .inf c → v = if p = c then t.infinite p else t.quiet true) ∧ (x.isFin → v = t.infinite p)) ∧
  (a.isFin → b.isFin → (∀ c, x = .inf c → v = t.infinite c) ∧
    (x.isFin → l.Rounds t (a.num * b.num + x.num) (if (a.isZero || b.isZero) && x.isZero && p == x.sign then p else l.rnd == .rd) v))

/-- a ÷ b, rounded once (R189, Table 10.7). -/
def LitFlt.Quotient (l : LitFlt) (t : Ty) (a b : FVal) (v : Nat × FFlags) : Prop :=
  (a.isNan ∨ b.isNan → v = t.quiet (a.isSig || b.isSig)) ∧
  ((a.isInf ∧ b.isInf) ∨ (a.isZero ∧ b.isZero) → v = t.quiet true) ∧
  (a.isInf → b.isFin → v = t.infinite (a.sign != b.sign)) ∧
  (a.isFin → b.isInf → v = (t.fmt.signBit (a.sign != b.sign), 0)) ∧
  (a.isFin → !a.isZero → b.isZero → v = ((t.infinite (a.sign != b.sign)).1, fDZ)) ∧
  (a.isFin → b.isFin → !b.isZero → l.Rounds t (a.num / b.num) (a.sign != b.sign) v)

/-- The order of R177: values, with −0 below +0. -/
def FVal.below (a b : FVal) : Prop :=
  match a, b with
  | .inf s, .inf u => s = true ∧ u = false
  | .inf s, .fin .. => s = true
  | .fin .., .inf u => u = false
  | .fin s m e, .fin u n g => FVal.num (.fin s m e) < FVal.num (.fin u n g) ∨ (m = 0 ∧ n = 0 ∧ s = true ∧ u = false)
  | _, _ => False
/-- The numeric order, in which −0 equals +0 (R178). -/
def FVal.less (a b : FVal) : Prop :=
  match a, b with
  | .inf s, .inf u => s = true ∧ u = false
  | .inf s, .fin .. => s = true
  | .fin .., .inf u => u = false
  | .fin s m e, .fin u n g => FVal.num (.fin s m e) < FVal.num (.fin u n g)
  | _, _ => False

/-- A value itself as a result: a NaN canonical, a number rounded (R176, R185). -/
def LitFlt.Itself (l : LitFlt) (t : Ty) (c : FVal) (v : Nat × FFlags) : Prop :=
  (c.isNan → v = t.quiet c.isSig) ∧ (∀ a, c = .inf a → v = t.infinite a) ∧ (c.isFin → l.Rounds t c.num c.sign v)

/-- `fmin` and `fmax` of an element (R177). -/
def LitFlt.Extreme (l : LitFlt) (t : Ty) (isMax : Bool) (a b : FVal) (v : Nat × FFlags) : Prop :=
  let nv : FFlags := if a.isSig || b.isSig then fNV else 0
  (a.isNan → b.isNan → v = (t.fmt.nanCode, nv)) ∧
  (¬(a.isNan ∧ b.isNan) → ∃ c w, (c = a ∨ c = b) ∧ c.isNan = false ∧
    (∀ x, x = a ∨ x = b → x.isNan = false → ¬(if isMax then c.below x else x.below c)) ∧ l.Itself t c w ∧ v = (w.1, w.2 ||| nv))

/-- The integer that q rounds to (R110 on the integers). -/
def Rnd.toInt (mode : Rnd) (q : ℚ) : Int :=
  match mode with
  | .rz => if q < 0 then ⌈q⌉ else ⌊q⌋
  | .ru => ⌈q⌉
  | .rd => ⌊q⌋
  | _ => if q - ⌊q⌋ < 1 / 2 then ⌊q⌋ else if 1 / 2 < q - ⌊q⌋ then ⌈q⌉ else if ⌊q⌋ % 2 = 0 then ⌊q⌋ else ⌈q⌉

/-! ### Narrow kinds and blocks, in the words of the statements (R110, R111, R118 to R123) -/

/-- The value times 2^e. -/
def FVal.times (c : FVal) (e : Int) : FVal := match c with | .fin s m g => .fin s m (g + e) | v => v

/-- v is what a source leaves in a narrow kind (R120): a NaN, an infinity, a number past the maximum, and else its rounding, whose magnitude
`round` chooses (R110; `RoundingChoosesByMode`). -/
def FFmt.Narrowed (f : FFmt) (mode : Rnd) (rand : Nat) (nan : Bool) (a : FVal) (v : Nat × FFlags) : Prop :=
  (a.isNan → v = if f.width = 8 then (f.nanCode, if a.isSig then fNV else 0) else (0, fNV)) ∧
  (∀ s, a = .inf s → v = if nan then (if f.hasInf then (f.signBit s + f.infCode, 0) else (f.nanCode, fNV)) else (f.signBit s + f.maxCode, fOF ||| fNX)) ∧
  (∀ s m e, a = .fin s m e →
    let r := f.round mode rand s m e false
    (m = 0 → v = (f.signBit s, 0)) ∧
    (r.ovf = true → v = (if nan then (if f.hasInf then f.signBit s + f.infCode else f.nanCode) else f.signBit s + f.maxCode, fOF ||| fNX)) ∧
    (m ≠ 0 → r.ovf = false → v = (f.signBit s + ((r.q - f.qmin).toNat * 2 ^ f.mb + r.n),
      (if r.tiny && r.inexact then fUF else 0) ||| (if r.inexact then fNX else 0))))

/-- The magnitudes of an NL4 type, and one point past them at twice the largest (R110, Table 7.7). -/
def nl4Point (ty i : Nat) : ℚ := (if i = 8 then 2 * (nl4Mags ty).1.getD 7 0 else (nl4Mags ty).1.getD i 0 : Nat) * (2 : ℚ) ^ (nl4Mags ty).2

/-- v is what the number q leaves in an NL4 type (R110, R111, R120): lo is the greatest point not above |q|. -/
def Nl4Rounded (ty : Nat) (mode : Rnd) (rand : Nat) (q : ℚ) (v : Nat × FFlags) : Prop :=
  let neg := decide (q < 0)
  let a := |q|
  (q = 0 → v = (0, 0)) ∧
  (q ≠ 0 → ∃ i j, i ≤ 8 ∧ nl4Point ty i ≤ a ∧ (i < 8 → a < nl4Point ty (i + 1)) ∧
    v = (if j = 8 then (nl4Code ty 7 neg, fOF ||| fNX) else (nl4Code ty j neg, if nl4Point ty j = a then 0 else fNX)) ∧
    (i = 8 → j = 8) ∧
    (i < 8 →
      let lo := nl4Point ty i
      let hi := nl4Point ty (i + 1)
      let up (b : Prop) : Prop := (b → j = i + 1) ∧ (¬b → j = i)
      (mode = .rz → j = i) ∧ (mode = .ru → up (neg = false ∧ lo < a)) ∧ (mode = .rd → up (neg = true ∧ lo < a)) ∧
      (mode = .rne → up (hi - a < a - lo ∨ (hi - a = a - lo ∧ i % 2 = 1))) ∧
      (mode = .rs → up ((rand : Int) < ⌊(a - lo) / (hi - lo) * 2 ^ 32⌋))))

/-- e is the block exponent of R122 under a largest magnitude: ceil(log2(amax / maxf)), or 0, clamped. -/
def BlockExp (xs : List FVal) (maxf : ℚ) (lo hi e : Int) : Prop :=
  ((∀ x ∈ xs, x.num = 0) → e = max lo (min hi 0)) ∧
  ((∃ x ∈ xs, x.num ≠ 0) → ∃ k : Int, (∀ x ∈ xs, |x.num| ≤ maxf * (2 : ℚ) ^ k) ∧ (∃ x ∈ xs, maxf * (2 : ℚ) ^ (k - 1) < |x.num|) ∧ e = max lo (min hi k))

/-- The elements of a block, each by its own rule, with the flags ORed. -/
def BlockOf (xs : List FVal) (codes : List Nat) (fl : FFlags) (rule : Nat → FVal → Nat × FFlags → Prop) : Prop :=
  ∃ vs : List (Nat × FFlags), vs.length = xs.length ∧ codes = vs.map (·.1) ∧ fl = orFlags vs ∧
    ∀ i x v, xs[i]? = some x → vs[i]? = some v → rule i x v

/-- A NaN block (R122). -/
def NanBlock (xs : List FVal) (codes : List Nat) (scale : Nat) (fl : FFlags) : Prop := codes = xs.map (fun _ => 0) ∧ scale = 255 ∧ fl = fNV

/-- A block of a narrow kind with its E8M0 scale byte (R122); element i takes the random bits r_i of R111. -/
def FFmt.BlockE8m0 (f : FFmt) (mode : Rnd) (r : Nat) (nan : Bool) (xs : List FVal) (codes : List Nat) (scale : Nat) (fl : FFlags) : Prop :=
  ((∃ x ∈ xs, x.isFin = false) → NanBlock xs codes scale fl) ∧
  ((∀ x ∈ xs, x.isFin = true) → ∃ e : Int, BlockExp xs (f.maxN * (2 : ℚ) ^ (f.emax - f.mb)) (-127) 127 e ∧ (scale : Int) = e + 127 ∧
    BlockOf xs codes fl fun i x v => f.Narrowed mode ((r + i * 0x9E3779B9) % 2 ^ 32) nan (x.times (-e)) v)

/-- A block of one NL4 type with its exponent (R122). -/
def Nl4Block (ty : Nat) (mode : Rnd) (r : Nat) (xs : List FVal) (codes : List Nat) (e : Int) (fl : FFlags) : Prop :=
  BlockExp xs (nl4Point ty 7) (-32) (if ty = 3 then 30 else 31) e ∧
  BlockOf xs codes fl fun i x v => Nl4Rounded ty mode ((r + i * 0x9E3779B9) % 2 ^ 32) (x.num * (2 : ℚ) ^ (-e)) v

/-- The exact sum of the squared errors of a block of one NL4 type (R123). -/
def nl4Err (ty : Nat) (xs : List FVal) (codes : List Nat) (e : Int) : ℚ :=
  ((xs.zip codes).map fun x => (x.1.num - (nl4Val ty x.2).num * (2 : ℚ) ^ e) ^ 2).sum

/-- A block under NL4 with its scale byte (R119, R122, R123): the selector's type, or for 4 the type of least error, the lowest on ties. -/
def BlockNl4 (sel : Nat) (mode : Rnd) (r : Nat) (xs : List FVal) (codes : List Nat) (scale : Nat) (fl : FFlags) : Prop :=
  ((∃ x ∈ xs, x.isFin = false) → NanBlock xs codes scale fl) ∧
  ((∀ x ∈ xs, x.isFin = true) → ∃ (ty : Nat) (e : Int), ty < 4 ∧ (sel < 4 → ty = sel) ∧ Nl4Block ty mode r xs codes e fl ∧
    (scale : Int) = 64 * ty + (e + 32) ∧
    (4 ≤ sel → ∀ t < 4, ∀ cs g fl', Nl4Block t mode r xs cs g fl' →
      nl4Err ty xs codes e ≤ nl4Err t xs cs g ∧ (t < ty → nl4Err ty xs codes e < nl4Err t xs cs g)))

/-- y is what an approximated function of the SFU leaves in `.f32` for a finite operand (−1)^s × m × 2^e that Table 10.7 does not list: NX always, UF
where its exact value is tiny, and a finite result within the bound of Table 10.6, but for an overflow or a flush. `sfuValue` gives the exact value
to 640 bits. -/
def SfuApprox (op : BitVec 4) (ftz : Bool) (s : Bool) (m : Nat) (e : Int) (y : Nat × FFlags) : Prop :=
  let x := sfuValue op s m e
  let q : ℚ := x.1 * (2 : ℚ) ^ x.2
  let r := fmtF32.round .rne 0 (decide (x.1 < 0)) x.1.natAbs x.2 true
  let u : Int := max (Nat.log2 x.1.natAbs + x.2 - 23) (-149)
  let bound : ℚ := max ((if op = 1 then 1 else 2 : ℚ) * (2 : ℚ) ^ u) (if op = 5 ∨ op = 6 ∨ op = 7 then (2 : ℚ) ^ (-22 : Int) else 0)
  y.2 ||| fNX = y.2 ∧ (r.tiny = true → y.2 ||| fUF = y.2) ∧
  (r.ovf = true → y = (fmtF32.signBit (decide (x.1 < 0)) + fmtF32.infCode, fOF ||| fNX)) ∧
  (r.ovf = false → r.tiny = true → ftz = true → y = (fmtF32.signBit (decide (x.1 < 0)), fUF ||| fNX)) ∧
  (r.ovf = false → ¬(r.tiny = true ∧ ftz = true) → (fmtF32.decode y.1).isFin = true → |(fmtF32.decode y.1).num - q| ≤ bound)

/-- Table 10.7: v is what an approximated function leaves for an operand that the table lists. -/
def LitFlt.SfuListed (l : LitFlt) (op : BitVec 4) (t : Ty) (c : FVal) (v : Nat × FFlags) : Prop :=
  let below := c.isFin = true ∧ c.isZero = false ∧ c.sign = true
  (c.isNan → v = t.quiet c.isSig) ∧
  (op = 1 → (c.isZero → v = ((t.infinite c.sign).1, fDZ)) ∧ (below → v = t.quiet true) ∧ (c = .inf true → v = t.quiet true) ∧ (c = .inf false → v = (0, 0))) ∧
  (op = 4 → (c = .inf true → v = (0, 0)) ∧ (c = .inf false → v = t.infinite false) ∧
    ∀ k : Int, c.isFin → c.num = k → l.Rounds t ((2 : ℚ) ^ k) false v) ∧
  (op = 5 → (c.isZero → v = ((t.infinite true).1, fDZ)) ∧ (below → v = t.quiet true) ∧ (c = .inf true → v = t.quiet true) ∧
    (c = .inf false → v = t.infinite false) ∧ ∀ k : Int, c.isFin → c.num = (2 : ℚ) ^ k → l.Rounds t (k : ℚ) false v) ∧
  (op = 6 ∨ op = 7 → ∀ n, c = .inf n → v = t.quiet true) ∧
  (op = 6 ∨ op = 8 → c.isZero → v = (t.fmt.signBit c.sign, 0)) ∧
  (op = 7 → c.isZero → l.Rounds t 1 false v) ∧
  (op = 8 → ∀ n, c = .inf n → l.Rounds t (if n then -1 else 1) n v)

/-- An operand that Table 10.7 lists for an approximated function. -/
def FVal.listed (op : BitVec 4) (c : FVal) : Prop :=
  c.isFin = false ∨ c.isZero = true ∨ ((op = 1 ∨ op = 5) ∧ c.sign = true) ∨ (op = 4 ∧ ∃ k : Int, c.num = k) ∨ (op = 5 ∧ ∃ k : Int, c.num = (2 : ℚ) ^ k)

/-- An approximated function of an element (R189, R190): a packed one takes the `.f32` function and rounds that to its type, with the flags of both. -/
def LitFlt.Sfu (l : LitFlt) (op : BitVec 4) (t : Ty) (c : FVal) (v : Nat × FFlags) : Prop :=
  l.SfuListed op t c v ∧
  (¬c.listed op → ∀ s m e, c = .fin s m e →
    (t = .f32 → SfuApprox op l.den.ftzOn s m e v) ∧
    (t ≠ .f32 → ∃ y z, SfuApprox op false s m e y ∧ l.Itself t (fmtF32.decode y.1) z ∧ v = (z.1, z.2 ||| y.2)) ∧
    (op = 1 → let x := sfuValue 1 s m e
      ((x.1 : ℚ) * (2 : ℚ) ^ x.2) ^ 2 * c.num ≤ 1 ∧ 1 < (((x.1 : ℚ) + 1) * (2 : ℚ) ^ x.2) ^ 2 * c.num))

/-- v is what a source leaves in a tile element of kind k that has no scale (R110, R113, R120). -/
def Ty.Element (k : Ty) (mode : Rnd) (rand : Nat) (nan : Bool) (a : FVal) (v : Nat × FFlags) : Prop :=
  (k.isNarrow = true → k.fmt.Narrowed mode rand nan a v) ∧
  (k.isNarrow = false → (a.isNan → v = k.quiet a.isSig) ∧ (∀ s, a = .inf s → v = k.infinite s) ∧
    (∀ s m e, a = .fin s m e → v = k.fmt.finish mode false (.num s m e false)))

end Sys2Proof

namespace Sys2Proof.Machine

/-- Word i completes with one result for each element of D, which `rule` describes by the element's number; their flags are ORed (R173). -/
def State.GivesElems (s : State) (f : Fibre) (i : Instr) (chains : Bool) (words cls : Nat) (t : Ty) (d : RegIx)
    (rule : Nat → Nat × FFlags → Prop) : Prop :=
  ∃ rs : List (Nat × FFlags), rs.length = t.lanes ∧ (∀ k v, rs[k]? = some v → rule k v) ∧
    s.Gives f i chains words cls (f.wr d (regWords t.regs (joinElems t (rs.map (·.1))))) [] (Sys2Proof.orFlags rs)

/-- Element k of operand A, of operand B or the immediate. -/
def Fibre.elA (f : Fibre) (l : LitFlt) (t : Ty) (a : RegIx) (k : Nat) : FVal := (f.fsrc t l.den a).getD k (.nan false)
def Fibre.elB (f : Fibre) (l : LitFlt) (t : Ty) (b : RegIx) (k : Nat) : FVal := (f.fbsrc t l b).getD k (.nan false)

/-! ### Engines, in the words of the statements (R163, R167, R309 to R316) -/

/-- Table 9.6: a barrier takes bytes, of a command that completes, or of one that halts, which sets FLT; `live` is LIVE. -/
def Barrier.Took (b : Barrier) (bytes : Nat) (halt : Bool) (live : Nat) (b' : Barrier) : Prop :=
  let low := decide (b.pend - (bytes : Int) < -(2 ^ 31))
  let pend : Int := if low then 0 else b.pend - bytes
  let flt := b.flt || halt || low
  (pend = 0 ∧ b.arrived ≠ [] ∧ b.arrived.length = live → b' = { b with arrived := [], pend := 0, lflt := flt, flt := false, phase := (b.phase + 1) % 256 }) ∧
  (¬(pend = 0 ∧ b.arrived ≠ [] ∧ b.arrived.length = live) → b' = { b with pend := pend, flt := flt })

/-- Barrier k of every cohort that a command reaches, in s, has taken its bytes in t. -/
def State.BarriersTook (s : State) (c : EngineCmd) (bytes : Nat) (halt : Bool) (t : State) : Prop :=
  ∀ k u e, c.bar = some k → (s.cohorts.map (·.uid)).Nodup → u ∈ s.barCohorts c → s.cohort? u = some e →
    ∃ e', t.cohort? u = some e' ∧ (e.bar k).Took bytes halt (s.liveOf u).length (e'.bar k)

/-- A line of a stash has taken bytes, byte a being `put a` where there is one: it is full and flue's pointer is higher by 128 (R309, R310). -/
def Cohort.LineTaken (e : Cohort) (flue line : Nat) (put : Nat → Option Byte) (e' : Cohort) : Prop :=
  (∀ a, Memory.get e'.stash a = (put a).getD (Memory.get e.stash a)) ∧ (e'.line line).full = true ∧
  e'.wptr.getD flue 0 = e.wptr.getD flue 0 + 128 ∧ ∀ k, k ≠ flue → e'.wptr.getD k 0 = e.wptr.getD k 0

/-- The bytes bs from address o on. -/
def bytesAt (o : Nat) (bs : List Byte) (a : Nat) : Option Byte := if o ≤ a then bs[a - o]? else none

/-- Byte i of codes of w bits packed in element order, the lowest bit first, after `skip` bits (R124, R315). -/
def packedByte (w skip : Nat) (codes : List Nat) (i : Nat) : Byte :=
  BitVec.ofNat 8 ((codes.zipIdx.map fun x => x.1 % 2 ^ w * 2 ^ (w * x.2)).sum / 2 ^ (skip + 8 * i))

/-- Command c, as it stood in s, has made one more delivery in t. -/
def State.Delivered (s : State) (c : EngineCmd) (bytes g : Nat) (t : State) : Prop :=
  ∀ d, s.cmd? c.id = some d → t.cmd? c.id = some { d with done := d.done + 1, bytes := d.bytes + bytes, gwct := max d.gwct g, since := none }

/-- Command c has left with its bytes: no command of its name stands, its counter is lower and its barrier has taken them (R163, R167). -/
def State.Left (s : State) (c : EngineCmd) (bytes : Nat) (t : State) : Prop :=
  (∀ d ∈ t.cmds, d.id ≠ c.id) ∧ s.BarriersTook c bytes false t ∧
  ∀ f, s.fibre? c.uid = some f → ∃ f', t.fibre? c.uid = some f' ∧ f'.tl = f.tl - 1 ∧ f'.arch = f.arch

/-- Byte i of the image of tile r, and of accumulator r (R332). -/
def Cohort.tileByte (e : Cohort) (r i : Nat) : Byte :=
  let x := e.tile r
  if i < tcfgE x.tcfg then Memory.get x.elems i else Memory.get x.scales (i - tcfgE x.tcfg)
def Cohort.accByte (e : Cohort) (r i : Nat) : Byte := ((e.acc r).get (i / 4) >>> (8 * (i % 4))).setWidth 8

/-- One event of a running command that moves an image of n bytes between the stash at o and `img`, line by line (R332): `move` says what it does to
the cohort, given the bytes lo to hi of the line; with its last line, after which `done` holds, the command leaves. -/
def State.ImageLine (s : State) (hearth : Nat) (c : EngineCmd) (o n : Nat) (move : Cohort → Nat → Nat → Cohort → Prop) (done : Cohort → Prop) : Prop :=
  let line := o / 128 + c.done
  let lines := (o + n + 127) / 128 - o / 128
  let lo := max o (line * 128)
  let hi := min (o + n) ((line + 1) * 128)
  ∀ co, s.cohort? c.cohort = some co → c.done < lines → ∃ t e, exec (.tileCommandComplete hearth c.id) s = .next t ∧ t.mem = s.mem ∧
    t.cohort? c.cohort = some e ∧ move co lo hi e ∧ (c.done + 1 < lines → s.Delivered c (hi - lo) 0 t) ∧ (c.done + 1 = lines → done e ∧ s.Left c n t)

/-- The source elements of a block from the first on. -/
def block16 (x : Nat → Nat → FVal) (r q : Nat) : List FVal := (List.range 16).map fun i => x r (q + i)

/-- Tile d takes source values x, converted under descriptor `desc` of kind k (R334): `d'` and the flags. -/
def Tile.Converted (d : Tile) (desc : Word) (k : Ty) (mode : Rnd) (nsel q : Nat) (x : Nat → Nat → FVal) (d' : Tile) (fl : FFlags) : Prop :=
  let rows := tcfgRows d.tcfg
  let cols := tcfgCols d.tcfg
  let rand (i : Nat) : Nat := (q + i * 0x9E3779B9) % 2 ^ 32
  (descScale desc = 0 → d'.scales = d.scales ∧ ∃ vs : List (Nat × FFlags), vs.length = rows * cols ∧ fl = orFlags vs ∧
    ∀ p v, vs[p]? = some v → k.Element mode (rand p) (descNan desc) (x (p / cols) (p % cols)) v ∧ d'.code k.bits p = v.1 % 2 ^ k.bits) ∧
  (descScale desc ≠ 0 → ∃ bs : List (List Nat × Nat × FFlags), bs.length = rows * (cols / 16) ∧ fl = bs.foldl (fun g b => g ||| b.2.2) 0 ∧
    ∀ n b, bs[n]? = some b →
      let r := n / (cols / 16)
      let m := n % (cols / 16)
      (k ≠ .nl4 → k.fmt.BlockE8m0 mode (rand (16 * n)) (descNan desc) (block16 x r (16 * m)) b.1 b.2.1 b.2.2) ∧
      (k = .nl4 → BlockNl4 nsel mode (rand (16 * n)) (block16 x r (16 * m)) b.1 b.2.1 b.2.2) ∧
      d'.scale r m = b.2.1 % 256 ∧ ∀ i < 16, d'.code k.bits (16 * n + i) = b.1.getD i 0 % 2 ^ k.bits)

/-! ### Rendezvous, in the words of the statements (R72, R78, R79, R251 to R256) -/

/-- z is what one step of `redu` and `scan` makes of x and y: raw values, each with the flags raised on the way (R255). -/
def GrpCombines (o : RegIx) (rnd : Rnd) (den : Den) (x y z : Nat × FFlags) : Prop :=
  let t := grpTy (o.extractLsb' 0 3)
  let op := (o.extractLsb' 3 3).toNat
  let fv (n : Nat) : FVal := t.fmt.daz den.dazOn (t.fmt.decode n)
  let sum : Int := t.num x.1 + t.num y.1
  (t.isF = true → ∀ l : LitFlt, l.rnd = rnd → l.den = den → ∃ v : Nat × FFlags, z = (v.1, x.2 ||| y.2 ||| v.2) ∧
    (op = 0 → l.Sum t (fv x.1) (fv y.1) v) ∧ (op = 1 → l.Extreme t false (fv x.1) (fv y.1) v) ∧ (op = 2 → l.Extreme t true (fv x.1) (fv y.1) v)) ∧
  (t.isF = false → z.2 = x.2 ||| y.2 ∧
    (op = 0 → z.1 = (x.1 + y.1) % 2 ^ t.bits) ∧
    (op = 1 → z.1 = if t.num y.1 < t.num x.1 then y.1 else x.1) ∧ (op = 2 → z.1 = if t.num x.1 < t.num y.1 then y.1 else x.1) ∧
    (op = 3 → z.1 = x.1 &&& y.1) ∧ (op = 4 → z.1 = x.1 ||| y.1) ∧ (op = 5 → z.1 = x.1 ^^^ y.1) ∧
    (op = 6 → z.1 = modPow t.bits (max t.minVal (min t.maxVal sum))))

/-- r is the root of the tree of R79 over the leaves of a sub-group of width w: an absent node passes its partner through. -/
def TreeOf {α : Type} (rule : α → α → α → Prop) (w : Nat) (leaf : Nat → Option α) (r : Option α) : Prop :=
  ∃ node : Nat → Nat → Option α, (∀ k < w, node 0 k = leaf k) ∧
    (∀ lvl < Nat.log2 w, ∀ k < w / 2 ^ (lvl + 1),
      (node lvl (2 * k) = none → node (lvl + 1) k = node lvl (2 * k + 1)) ∧
      (node lvl (2 * k + 1) = none → node (lvl + 1) k = node lvl (2 * k)) ∧
      (∀ x y, node lvl (2 * k) = some x → node lvl (2 * k + 1) = some y → ∃ z, rule x y z ∧ node (lvl + 1) k = some z)) ∧
    r = node (Nat.log2 w) 0

/-- r is the left fold of the first n leaves (R255). -/
def FoldOf {α : Type} (rule : α → α → α → Prop) (n : Nat) (leaf : Nat → Option α) (r : Option α) : Prop :=
  ∃ acc : Nat → Option α, acc 0 = none ∧ r = acc n ∧ ∀ k < n,
    (leaf k = none → acc (k + 1) = acc k) ∧ (acc k = none → acc (k + 1) = leaf k) ∧
    (∀ x y, acc k = some x → leaf k = some y → ∃ z, rule x y z ∧ acc (k + 1) = some z)

/-- A mask has bit v exactly for the vlanes v that `p` names. -/
def MaskOf (m : Word) (p : Nat → Prop) : Prop := ∀ v < 32, (m.getLsbD v = true ↔ p v)

/-- What member p of a rendezvous that completes receives, cs being its contributors: words for its destination, its predicate, flags. -/
def Presentation.Receives (p : Presentation) (cs : List Presentation) (ws : List Word) (ps : List (Nat × Bool)) (fl : FFlags) : Prop :=
  let b := p.vlane / p.width * p.width
  let at' (v : Nat) : Option Presentation := cs.find? (·.vlane == v)
  let takes (w64 : Bool) (src : Option Presentation) : Prop :=
    ws = (if w64 then Ty.b64 else Ty.b32).words ((src.map (·.opnd)).getD p.opnd) ∧ ps = [(p.pdst.toNat, src.isSome)] ∧ fl = 0
  let decides (q : Prop) : Prop := ws = [] ∧ fl = 0 ∧ ∃ r : Bool, ps = [(p.pdst.toNat, r)] ∧ (r = true ↔ q)
  let leaf (k : Nat) : Option (Nat × FFlags) := (at' (b + k)).map fun q => (q.opnd, 0)
  let gives (o : RegIx) (r : Option (Nat × FFlags)) : Prop := ws = (grpTy (o.extractLsb' 0 3)).words (r.getD (0, 0)).1 ∧ ps = [] ∧ fl = (r.getD (0, 0)).2
  (∀ mode w64, p.kind = .shfl mode w64 →
    let i := p.idx.toNat
    (mode = 0 → takes w64 (if i < p.width then at' (b + i) else none)) ∧
    (mode = 1 → takes w64 (if b + i ≤ p.vlane then at' (p.vlane - i) else none)) ∧
    (mode = 2 → takes w64 (if p.vlane + i < b + p.width then at' (p.vlane + i) else none)) ∧
    (mode = 3 → takes w64 (if i < p.width then at' (b + ((p.vlane - b) ^^^ i)) else none))) ∧
  (∀ w64 idx, p.kind = .bcst w64 idx → takes w64 (if idx.toNat < p.width then at' (b + idx.toNat) else none)) ∧
  (∀ mode : BitVec 3, p.kind = .vote mode →
    (mode = 0 → decides (∃ q ∈ cs, q.pred = true)) ∧ (mode = 1 → decides (∀ q ∈ cs, q.pred = true)) ∧
    (mode = 2 → decides ((∀ q ∈ cs, q.pred = true) ∨ ∀ q ∈ cs, q.pred = false))) ∧
  (∀ o rnd den, p.kind = .redu o rnd den → ∃ r, TreeOf (GrpCombines o rnd den) p.width leaf r ∧ gives o r) ∧
  (∀ o rnd den, p.kind = .scan o rnd den → ∃ r, FoldOf (GrpCombines o rnd den) (p.vlane - b + 1) leaf r ∧ gives o r) ∧
  (∀ t, p.kind = .mtch t → ps = [] ∧ fl = 0 ∧ ∃ m, ws = [m] ∧
    MaskOf m fun v => ∃ q ∈ cs, q.vlane = v ∧ q.opnd % 2 ^ (grpTy t).bits = p.opnd % 2 ^ (grpTy t).bits) ∧
  (p.kind = .elect → decides ((∃ q ∈ cs, q.uid = p.uid) ∧ ∀ q ∈ cs, p.vlane ≤ q.vlane)) ∧
  (p.kind = .rdv → ps = [] ∧ fl = 0 ∧ ∃ m, ws = [m] ∧ MaskOf m fun v => ∃ q ∈ cs, q.vlane = v) ∧
  (∀ j v, p.kind = .jmsk j v → ws = [] ∧ ps = [] ∧ fl = 0)

/-- Every live fibre of the rendezvous set of r has presented (R72, R74). -/
def State.Whole (s : State) (cohort crew : Nat) (r : Rdv) : Prop :=
  r.members ≠ [] ∧ ∀ f ∈ s.fibres, f.cohort = cohort → f.crew = crew → f.exited = false →
    (∃ p ∈ r.members, p.vlane / p.width * p.width ≤ f.vlane ∧ f.vlane < p.vlane / p.width * p.width + p.width ∧
      ∀ x, p.set = .reg x → p.mask.getLsbD f.vlane = true) → ∃ p ∈ r.members, p.uid = f.uid

end Sys2Proof.Machine
end

