-- ==== Sys2Proof/Certificates/Slice0/Obligations.lean ====
section
/-! DEFINITION. The statements for the provers. -/

open Sys2Proof Sys2Proof.Machine

/-! ### Integer words (R133 to R150) -/

/-- R136 with the helpers of R133: the words of class IALU that write t to field D. `x` is `Rd(A)`, `y` is `Bsrc`, the raw operands are
natural numbers of N bits; NOT is taken over N bits. -/
def Obligations.IaluWordsWriteTheirResult : Prop :=
  ∀ (s : State) (f : Fibre) (m : Mods LitInt) (d a b : RegIx),
    let l := m.body (.dflt d)
    let t := l.ty
    let x := f.rd a t
    let y := f.bsrc l b
    let ra := f.raw a t
    let rb := f.braw l b
    let gives (i : Instr) (v : Int) : Prop := s.Runs f i m.g → s.Gives f i m.chains m.words 0 (f.wr d (t.words (t.wr l.ovf v))) [] 0
    gives (.add m d a b) (x + y) ∧ gives (.sub m d a b) (x - y) ∧ gives (.neg m d a) (-x) ∧ gives (.abs m d a) (if x < 0 then -x else x) ∧
    gives (.min m d a b) (if x < y then x else y) ∧ gives (.max m d a b) (if x > y then x else y) ∧
    gives (.and m d a b) (ra &&& rb : Nat) ∧ gives (.or m d a b) (ra ||| rb : Nat) ∧ gives (.xor m d a b) (ra ^^^ rb : Nat) ∧
    gives (.andn m d a b) (ra &&& (2 ^ t.bits - 1 - rb) : Nat) ∧ gives (.orn m d a b) (ra ||| (2 ^ t.bits - 1 - rb) : Nat) ∧
    gives (.sel m d a b) (if f.P l.sel then x else y) ∧ gives (.mov m d b) y

/-- R137 and R138: `addc` and `subb` write the sum or difference and the carry or borrow, `cmp` one predicate. -/
def Obligations.CarryAndCompareWordsWriteTheirResult : Prop :=
  ∀ (s : State) (f : Fibre) (m : Mods LitInt) (d a b : RegIx) (p : BitVec 3),
    (let l := m.body (.dflt d)
     let N := l.ty.bits
     let ra := f.raw a l.ty
     let rb := f.braw l b
     let c := (f.P l.sel).toNat
     (s.Runs f (.addc m d a b) m.g →
       s.Gives f (.addc m d a b) m.chains m.words 0 (f.wr d (l.ty.words ((ra + rb + c) % 2 ^ N))) [(l.sel.toNat, decide (2 ^ N ≤ ra + rb + c))] 0) ∧
     (s.Runs f (.subb m d a b) m.g →
       s.Gives f (.subb m d a b) m.chains m.words 0 (f.wr d (l.ty.words (((ra : Int) - rb - c) % 2 ^ N).toNat))
         [(l.sel.toNat, decide (ra < rb + c))] 0)) ∧
    (let l := m.body (.dflt (predField p))
     let x := f.rd a l.ty
     let y := f.bsrc l b
     s.Runs f (.cmp m p a b) m.g → ∀ v : Bool,
       (l.sel = 0 ∧ v = decide (x = y)) ∨ (l.sel = 1 ∧ v = decide (x ≠ y)) ∨ (l.sel = 2 ∧ v = decide (x < y)) ∨
       (l.sel = 3 ∧ v = decide (x ≤ y)) ∨ (l.sel = 4 ∧ v = decide (x > y)) ∨ (l.sel = 5 ∧ v = decide (x ≥ y)) →
       s.Gives f (.cmp m p a b) m.chains m.words 0 [] [(p.toNat, v)] 0)

/-- R139 to R142: the shifts with the exact product, quotient and rotation, the funnel shift, the bit fields, and the counts; `c` is the
count of R139 and `w`, `o` the width and offset of R141. -/
def Obligations.ShiftFieldAndCountWordsWriteTheirResult : Prop :=
  ∀ (s : State) (f : Fibre) (m : Mods LitInt) (d a b : RegIx),
    let l := m.body (.dflt d)
    let t := l.ty
    let N := t.bits
    let ra := f.raw a t
    let c := f.bcount l b
    let x := m.xi (s.openGroup f).pin d
    let o := c % 64
    let w := (f.V x).toNat % 64
    let fld := ra / 2 ^ o % 2 ^ w
    let ins : Int := f.rd a t
    let clamped : Int := if l.ovf = .sat then
        (if w = 0 then 0 else if t.signed then max (-(2 ^ (w - 1))) (min (2 ^ (w - 1) - 1) ins) else max 0 (min (2 ^ w - 1) ins))
      else ins
    let mask := (2 ^ w - 1) * 2 ^ o % 2 ^ N
    let pair := ra * 2 ^ N + f.raw x t
    let gives (i : Instr) (ws : List Word) : Prop := s.Runs f i m.g → s.Gives f i m.chains m.words 1 (f.wr d ws) [] 0
    gives (.shl m d a b) (t.words (t.wr l.ovf (f.rd a t * 2 ^ c))) ∧
    gives (.shr m d a b) (t.words (t.wr l.ovf (ra / 2 ^ c : Nat))) ∧
    gives (.sar m d a b) (t.words (t.wr l.ovf (sext N ra / 2 ^ c))) ∧
    gives (.rotl m d a b) (t.words (t.wr l.ovf ((ra * 2 ^ (c % N) + ra / 2 ^ (N - c % N)) % 2 ^ N : Nat))) ∧
    (l.sel = 0 → gives (.fsh m d a b) (t.words (pair * 2 ^ (c % N) / 2 ^ N % 2 ^ N))) ∧
    (l.sel = 1 → gives (.fsh m d a b) (t.words (pair / 2 ^ (c % N) % 2 ^ N))) ∧
    gives (.bfx m d a b) (t.words (t.wr l.ovf (if t.signed ∧ 0 < w then sext w fld else fld))) ∧
    gives (.bfi m d a b) (t.words ((f.raw d t &&& (2 ^ N - 1 - mask)) ||| ((clamped * 2 ^ o % 2 ^ N).toNat &&& mask))) ∧
    gives (.popc m d a) [BitVec.ofNat 32 ((List.range N).countP ra.testBit)] ∧
    gives (.clz m d a) [BitVec.ofNat 32 (if ra = 0 then N else N - 1 - ra.log2)] ∧
    (∀ k, (ra = 0 ∧ k = N) ∨ (k < N ∧ ra.testBit k = true ∧ ∀ j, j < k → ra.testBit j = false) → gives (.ctz m d a) [BitVec.ofNat 32 k]) ∧
    (∀ v, v < 2 ^ N → (∀ i, i < N → v.testBit i = ra.testBit (N - 1 - i)) → gives (.brev m d a) (t.words (t.wr l.ovf v)))

/-- R143 to R145: byte permutation, the three-input truth table, and the scaled address; each result named by its bytes or bits. -/
def Obligations.PermuteTableAndAddressWordsWriteTheirResult : Prop :=
  ∀ (s : State) (f : Fibre) (m : Mods LitInt) (d a b : RegIx),
    let l := m.body (.dflt d)
    let t := l.ty
    let N := t.bits
    let x := m.xi (s.openGroup f).pin d
    let src := f.bcount l b * 2 ^ 32 + (f.V a).toNat
    let sel (k : Nat) := (f.V x).toNat / 2 ^ (4 * k) % 16
    let byte (k : Nat) := src / 2 ^ (8 * (sel k % 8)) % 256
    let gives (i : Instr) (ws : List Word) : Prop := s.Runs f i m.g → s.Gives f i m.chains m.words 1 (f.wr d ws) [] 0
    (∀ v : Nat, v < 2 ^ 32 → (∀ k, k < 4 → v / 2 ^ (8 * k) % 256 = if sel k < 8 then byte k else if 128 ≤ byte k then 255 else 0) →
      gives (.bprm m d a b) [BitVec.ofNat 32 v]) ∧
    (∀ v : Nat, v < 2 ^ N → (∀ i, i < N → v.testBit i = ((f.V x).toNat % 256).testBit
        (4 * ((f.raw a t).testBit i).toNat + 2 * ((f.braw l b).testBit i).toNat + ((f.raw d t).testBit i).toNat)) →
      gives (.plog m d a b) (t.words v)) ∧
    gives (.lea m d a b) (Ty.n64.words (((f.VP a).toNat + f.bsrc l b * 2 ^ l.sel.toNat) % 2 ^ 64).toNat)

/-- R146, R147: the products, exact before they are written. -/
def Obligations.MultiplyWordsWriteTheirResult : Prop :=
  ∀ (s : State) (f : Fibre) (m : Mods LitInt) (d a b : RegIx),
    let l := m.body (.dflt d)
    let t := l.ty
    let x := f.rd a t
    let y := f.bsrc l b
    let z := f.rd (m.xi (s.openGroup f).pin d) t
    let sb := if l.sel = 1 then !t.signed else t.signed
    let byte (signed : Bool) (v k : Nat) : Int := if signed then sext 8 (v / 2 ^ (8 * k) % 256) else (v / 2 ^ (8 * k) % 256 : Nat)
    let dot (k : Nat) : Int := byte t.signed (f.raw a t) k * byte sb (f.braw l b) k
    let gives (i : Instr) (v : Int) : Prop := s.Runs f i m.g → s.Gives f i m.chains m.words 2 (f.wr d (t.words (t.wr l.ovf v))) [] 0
    gives (.mul m d a b) (x * y) ∧ gives (.mulh m d a b) (x * y / 2 ^ t.bits) ∧ gives (.mad m d a b) (x * y + z) ∧
    gives (.madh m d a b) ((x * y + z) / 2 ^ t.bits) ∧ gives (.idp4 m d a b) (z + (dot 0 + dot 1 + dot 2 + dot 3))

/-- R149, R150: the quotient truncated toward zero and saturated, the remainder with the sign of the dividend; a zero divisor; and where
`.trap` raises 2.00 or 2.01 at the head of the group instead, with the dividend in %tval. -/
def Obligations.DivideWordsWriteOrTrap : Prop :=
  ∀ (s : State) (f : Fibre) (m : Mods LitInt) (d a b : RegIx),
    let l := m.body (.dflt d)
    let t := l.ty
    let x := f.rd a t
    let y := f.bsrc l b
    let q := if y = 0 then (if t.signed then t.sat (x * 2 ^ (t.bits - 1)) else 2 ^ t.bits - 1) else t.sat (Int.tdiv x y)
    let r := if y = 0 then x else Int.tmod x y
    let gives (i : Instr) (v : Int) : Prop := s.Gives f i m.chains m.words 3 (f.wr d (t.words (t.wr .wrap v))) [] 0
    let traps (i : Instr) (k : Nat) : Prop := exec i s = .next (s.groupRaise f (s.openGroup f) (mkCause 2 k) (BitVec.ofNat 64 (f.raw a t)))
    (s.Runs f (.div m d a b) m.g →
      (l.ovf = .trap → y = 0 → traps (.div m d a b) 0) ∧
      (l.ovf = .trap → y ≠ 0 → t.maxVal < Int.tdiv x y → traps (.div m d a b) 1) ∧
      (¬(l.ovf = .trap ∧ (y = 0 ∨ t.maxVal < Int.tdiv x y)) → gives (.div m d a b) q)) ∧
    (s.Runs f (.rem m d a b) m.g →
      (l.ovf = .trap → y = 0 → traps (.rem m d a b) 0) ∧
      (¬(l.ovf = .trap ∧ y = 0) → gives (.rem m d a b) r))

/-! ### Floating-point words (R173 to R190) -/

/-- R175 and R183: `fadd`, `fsub`, `fmul` and `ffma` in classes 5, 6 and 8, element by element; `ffma` takes X as its third operand. -/
def Obligations.SumsAndProductsRoundOnce : Prop :=
  ∀ (s : State) (f : Fibre) (m : Mods LitFlt) (d a b : RegIx),
    (let l := m.body (.dflt .f32 .s32 d)
     let t := l.ty .f32
     let x := m.xf (s.openGroup f).pin d
     let gives (i : Instr) (cls : Nat) (rule : Nat → Nat × FFlags → Prop) : Prop :=
       s.Runs f i m.g → s.GivesElems f i m.chains m.words cls t d rule
     gives (.fadd m d a b) 4 (fun k => l.Sum t (f.elA l t a k) (f.elB l t b k)) ∧
     gives (.fsub m d a b) 4 (fun k => l.Sum t (f.elA l t a k) (f.elB l t b k).neg) ∧
     gives (.fmul m d a b) 5 (fun k => l.Product t (f.elA l t a k) (f.elB l t b k)) ∧
     gives (.ffma m d a b) 5 (fun k => l.Fused t (f.elA l t a k) (f.elB l t b k) (f.elA l t x k))) ∧
    (let l := m.body (.dflt .f64 .s32 d)
     let t := l.ty .f64
     let x := m.xf (s.openGroup f).pin d
     let gives (i : Instr) (rule : Nat → Nat × FFlags → Prop) : Prop :=
       s.Runs f i m.g → s.GivesElems f i m.chains m.words 8 t d rule
     gives (.faddF64 m d a b) (fun k => l.Sum t (f.elA l t a k) (f.elB l t b k)) ∧
     gives (.fsubF64 m d a b) (fun k => l.Sum t (f.elA l t a k) (f.elB l t b k).neg) ∧
     gives (.fmulF64 m d a b) (fun k => l.Product t (f.elA l t a k) (f.elB l t b k)) ∧
     gives (.ffmaF64 m d a b) (fun k => l.Fused t (f.elA l t a k) (f.elB l t b k) (f.elA l t x k)))

/-- R176, R177 and R179: `fscl` scales by 2^n exactly before its rounding, `fmin` and `fmax` choose, `fcls` names the class of each raw
element. -/
def Obligations.ScaleExtremeAndClassWords : Prop :=
  ∀ (s : State) (f : Fibre) (m : Mods LitFlt) (d a b : RegIx),
    (let l := m.body (.dflt .f32 .s32 d)
     let t := l.ty .f32
     let scaled (c : FVal) (v : Nat × FFlags) : Prop :=
       (c.isNan → v = t.quiet c.isSig) ∧ (∀ n, c = .inf n → v = t.infinite n) ∧
       (c.isFin → l.Rounds t (c.num * (2 : ℚ) ^ (f.V b).toInt) c.sign v)
     let gives (i : Instr) (cls : Nat) (rule : Nat → Nat × FFlags → Prop) : Prop :=
       s.Runs f i m.g → s.GivesElems f i m.chains m.words cls t d rule
     gives (.fscl m d a b) 5 (fun k => scaled (f.elA l t a k)) ∧
     gives (.fmin m d a b) 4 (fun k => l.Extreme t false (f.elA l t a k) (f.elB l t b k)) ∧
     gives (.fmax m d a b) 4 (fun k => l.Extreme t true (f.elA l t a k) (f.elB l t b k)) ∧
     (s.Runs f (.fcls m d a) m.g → ∀ c : Nat → Nat,
       (∀ k, k < t.lanes → match t.fmt.decode ((f.elems a t).getD k 0) with
         | .nan q => c k = if q then 8 else 9
         | .inf n => c k = if n then 0 else 7
         | .fin n g _ => c k = if g = 0 then (if n then 3 else 4)
             else if ((f.elems a t).getD k 0) / 2 ^ t.fmt.mb % 2 ^ (t.fmt.width - 1 - t.fmt.mb) = 0 then (if n then 2 else 5)
             else (if n then 1 else 6)) →
       s.Gives f (.fcls m d a) m.chains m.words 4
         (f.wr d [BitVec.ofNat 32 (((List.range t.lanes).map fun k => 2 ^ c k * 2 ^ (16 * k)).sum)]) [] 0)) ∧
    (let l := m.body (.dflt .f64 .s32 d)
     let t := l.ty .f64
     let gives (i : Instr) (rule : Nat → Nat × FFlags → Prop) : Prop :=
       s.Runs f i m.g → s.GivesElems f i m.chains m.words 8 t d rule
     gives (.fminF64 m d a b) (fun k => l.Extreme t false (f.elA l t a k) (f.elB l t b k)) ∧
     gives (.fmaxF64 m d a b) (fun k => l.Extreme t true (f.elA l t a k) (f.elB l t b k)))

/-- R178 and R183: `fcmp` writes one predicate from element 0, quietly. -/
def Obligations.FloatCompareWritesOnePredicate : Prop :=
  ∀ (s : State) (f : Fibre) (m : Mods LitFlt) (p : BitVec 3) (a b : RegIx) (i : Instr) (t0 : Ty) (cls : Nat),
    (i = .fcmp m p a b ∧ t0 = .f32 ∧ cls = 4) ∨ (i = .fcmpF64 m p a b ∧ t0 = .f64 ∧ cls = 8) →
    let l := m.body (.dflt t0 .s32 (predField p))
    let t := l.ty t0
    let x := f.elA l t a 0
    let y := f.elB l t b 0
    let un := x.isNan || y.isNan
    s.Runs f i m.g → ∀ v : Bool,
      (un = true → v = (l.sel == 1 || l.sel == 6)) →
      (un = false → (l.sel = 0 → (v = true ↔ ¬x.less y ∧ ¬y.less x)) ∧ (l.sel = 1 → (v = true ↔ x.less y ∨ y.less x)) ∧
        (l.sel = 2 → (v = true ↔ x.less y)) ∧ (l.sel = 3 → (v = true ↔ ¬y.less x)) ∧ (l.sel = 4 → (v = true ↔ y.less x)) ∧
        (l.sel = 5 → (v = true ↔ ¬x.less y)) ∧ (l.sel = 6 → v = false) ∧ (l.sel = 7 → v = true)) →
      s.Gives f i m.chains m.words cls [] [(p.toNat, v)] (if x.isSig || y.isSig then fNV else 0)

/-- R185 and R188: the scalar conversions between integers and the binary types, and `frnd`; R120 to R123, R186 and R187: to narrow kinds, and in
blocks of 16 with the block exponent, the type under NL4 and the codes that the rules give, a block with a NaN or an infinity giving the NaN block. -/
def Obligations.ConversionWordsRoundOnce : Prop :=
  ∀ (s : State) (f : Fibre) (m : Mods LitFlt) (d a : RegIx),
    let l := m.body (.dflt .f32 .s32 d)
    let t := l.ty .f32
    let st := l.stype .s32
    let raw := f.raw a st
    let r := (f.V (m.xf (s.openGroup f).pin d)).toNat
    let src := st.fmt.daz l.den.dazOn (st.fmt.decode raw)
    let gives (ws : List Word) (fl : FFlags) : Prop := s.Gives f (.fcvt m d a) m.chains m.words 6 (f.wr d ws) [] fl
    (s.Runs f (.fcvt m d a) m.g →
      (cvtPair st t l.sel.toNat = true → cvtBlock st t l.sel.toNat = false →
        (st.isI → t.isBin → ∃ v, l.Rounds t (st.num raw : ℚ) false v ∧ gives (regWords t.regs v.1) v.2) ∧
        (st.isBin → t.isBin → ∃ v, l.Itself t src v ∧ gives (regWords t.regs v.1) v.2) ∧
        (st.isNarrow → t.isBin → ∃ v, l.Itself t (st.fmt.decode raw) v ∧ gives (regWords t.regs v.1) v.2) ∧
        (st.isBin → t.isI → l.rnd ≠ .rs →
          (src.isNan → gives (t.words 0) fNV) ∧
          (∀ n, src = .inf n → gives (t.words (modPow t.bits (if n then t.minVal else t.maxVal))) fNV) ∧
          (src.isFin → ∀ x, x = l.rnd.toInt src.num →
            (t.minVal ≤ x ∧ x ≤ t.maxVal → gives (t.words (modPow t.bits x)) (if (x : ℚ) = src.num then 0 else fNX)) ∧
            (x < t.minVal → gives (t.words (modPow t.bits t.minVal)) fNV) ∧
            (t.maxVal < x → gives (t.words (modPow t.bits t.maxVal)) fNV))) ∧
        (st.isBin → t.isNarrow → ∃ v, t.fmt.Narrowed l.rnd r l.nan src v ∧ gives (regWords 1 v.1) v.2)) ∧
      (cvtBlock st t l.sel.toNat = true →
        (t.isNarrow ∨ t = .nl4 →
          let xs := (f.blockElems st a).map fun x => st.fmt.daz l.den.dazOn (st.fmt.decode x)
          ∃ codes scale fl, (t ≠ .nl4 → t.fmt.BlockE8m0 l.rnd r l.nan xs codes scale fl) ∧
            (t = .nl4 → BlockNl4 l.sel.toNat l.rnd r xs codes scale fl) ∧
            gives (regWords (blockRun t - 1) (packCodes t.bits codes) ++ [BitVec.ofNat 32 scale]) fl) ∧
        (¬(t.isNarrow ∨ t = .nl4) →
          let cs := f.blockCodes st a
          ∃ vs : List (Nat × FFlags), vs.length = cs.1.length ∧ gives (blockWords t (vs.map (·.1))) (Sys2Proof.orFlags vs) ∧
            ∀ (i c : Nat) (v : Nat × FFlags), cs.1[i]? = some c → vs[i]? = some v →
              (cs.2 = 255 → v = (t.fmt.nanCode, 0)) ∧
              (cs.2 ≠ 255 → l.Itself t ((narrowVal st cs.2 c).times (scaleExp st cs.2)) v)))) ∧
    (s.Runs f (.frnd m d a) m.g → l.rnd ≠ .rs →
      s.GivesElems f (.frnd m d a) m.chains m.words 6 t d fun k v =>
        let c := f.elA l t a k
        (c.isNan → v = t.quiet c.isSig) ∧ (∀ n, c = .inf n → v = t.infinite n) ∧
        (c.isFin → ∃ w, l.Rounds t (l.rnd.toInt c.num : ℚ) c.sign w ∧
          v = (w.1, w.2 ||| if l.sel = 1 ∧ (l.rnd.toInt c.num : ℚ) ≠ c.num then fNX else 0)))

/-- R182: the exact sum of the products and the accumulator X, rounded once to `.f32`; the codes of `fdot4` are quiet when NaN. The sign of
an exact zero sum is not asked here (R182 does not state it). -/
def Obligations.DotWordsRoundTheExactSum : Prop :=
  ∀ (s : State) (f : Fibre) (m : Mods LitFlt) (d a b : RegIx) (i : Instr) (ps : List (FVal × FVal)) (l : LitFlt),
    (i = .fdot2 m d a b ∧ l = m.body (.dflt .f32 .bf16 d) ∧
      (let st := l.stype .bf16
       ps = [(f.elA l st a 0, f.elA l st b 0), (f.elA l st a 1, f.elA l st b 1)] ∧ st.lanes = 2)) ∨
    (i = .fdot4 m d a b ∧ l = m.body (.dflt .f32 .e4m3 d) ∧
      (let st := l.stype .e4m3
       let tb := if l.sel = 1 then (if st = .e4m3 then Ty.e5m2 else .e4m3) else st
       ps = (List.range 4).map fun k => (st.fmt.decode ((f.V a).toNat / 2 ^ (8 * k) % 256), tb.fmt.decode ((f.V b).toNat / 2 ^ (8 * k) % 256)))) →
    let c := f.elA l .f32 (m.xf (s.openGroup f).pin d) 0
    let nan := c.isNan || ps.any fun p => p.1.isNan || p.2.isNan
    let sig := c.isSig || ps.any fun p => p.1.isSig || p.2.isSig
    let undefd := ps.any fun p => (p.1.isInf && p.2.isZero) || (p.1.isZero && p.2.isInf)
    let inf (n : Bool) : Bool := c == .inf n || ps.any fun p => (p.1.isInf || p.2.isInf) && !p.1.isNan && !p.2.isNan && !p.1.isZero && !p.2.isZero &&
      (p.1.sign != p.2.sign) == n
    s.Runs f i m.g → ∃ v, s.Gives f i m.chains m.words 7 (f.wr d (regWords 1 v.1)) [] v.2 ∧
      (nan = true ∨ undefd = true → v = Ty.f32.quiet (sig || undefd || (inf true && inf false))) ∧
      (nan = false → undefd = false →
        (inf true = true → inf false = true → v = Ty.f32.quiet true) ∧
        (∀ n, inf n = true → inf (!n) = false → v = Ty.f32.infinite n)) ∧
      (c.isFin = true → (∀ p ∈ ps, p.1.isFin = true ∧ p.2.isFin = true) → ∃ z,
        l.Rounds .f32 (c.num + (ps.map fun p => p.1.num * p.2.num).sum) z v)

/-- R189, R190: `frcp`, `fdiv` and `fsqrt` are rounded once from the exact result. The approximated functions give the results of Table 10.7 for the
operands that it lists, and else a result within the bound of Table 10.6 of the exact value, which `sfuValue` gives to 640 bits (for `frsq` the root itself
bounds it), with NX, and UF where that value is tiny; a packed element takes the `.f32` function, then its rounding. Model's choices: the bits within the
bound are free; tininess is judged on the exact value; the flags of both steps of a packed element count (log 6). -/
def Obligations.SfuWordsWriteTheirResult : Prop :=
  ∀ (s : State) (f : Fibre) (m : Mods LitFlt) (d a b : RegIx),
    let l := m.body (.dflt .f32 .s32 d)
    let t := l.ty .f32
    let gives (i : Instr) (rule : Nat → Nat × FFlags → Prop) : Prop := s.Runs f i m.g → s.GivesElems f i m.chains m.words 9 t d rule
    gives (.frcp m d a) (fun k => l.Quotient t (.fin false 1 0) (f.elA l t a k)) ∧
    gives (.fdiv m d a b) (fun k => l.Quotient t (f.elA l t a k) (f.elB l t b k)) ∧
    gives (.fsqrt m d a) (fun k v =>
      let c := f.elA l t a k
      (c.isNan → v = t.quiet c.isSig) ∧ (∀ n, c = .inf n → v = if n then t.quiet true else t.infinite false) ∧
      (c.isFin → c.isZero → v = (t.fmt.signBit c.sign, 0)) ∧
      (c.isFin → !c.isZero → c.sign → v = t.quiet true) ∧
      (c.isFin → !c.isZero → !c.sign → ∃ m e st, v = l.fin t (.num false m e st) ∧
        (if st then 2 ^ 60 ≤ m ∧ ((m : ℚ) * 2 ^ e) ^ 2 < c.num ∧ c.num < (((m : ℚ) + 1) * 2 ^ e) ^ 2 else ((m : ℚ) * 2 ^ e) ^ 2 = c.num))) ∧
    gives (.frsq m d a) (fun k v => l.Sfu 1 t (f.elA l t a k) v) ∧
    gives (.fex2 m d a) (fun k v => l.Sfu 4 t (f.elA l t a k) v) ∧
    gives (.flg2 m d a) (fun k v => l.Sfu 5 t (f.elA l t a k) v) ∧
    gives (.fsin m d a) (fun k v => l.Sfu 6 t (f.elA l t a k) v) ∧
    gives (.fcos m d a) (fun k v => l.Sfu 7 t (f.elA l t a k) v) ∧
    gives (.ftnh m d a) (fun k v => l.Sfu 8 t (f.elA l t a k) v)

/-! ### Memory and stash words (R231 to R249) -/

/-- R94, R231 and R235 to R240: a memory word sends its access at `VP(A)` plus the offset, after its release where its ordering has one; a
load or an atomic that meets poison as it issues raises 10.00 (Table 13.1, step 7); `chkh` keeps the value of a valid entry, which the words of
its group before it leave valid, and else loads; `pref` asks for its line. -/
def Obligations.MemoryWordsSendTheirAccess : Prop :=
  ∀ (s : State) (f : Fibre) (m : Mods LitMem) (d a b : RegIx) (t : Target),
    let l := m.body .dflt
    let n := l.ty.bits / 8
    let ad : GAddr := ⟨f.arch.spaces.getD l.space.toNat 0, f.VP a + BitVec.ofInt 64 l.off.toInt⟩
    let sc := t.widen l.scope
    let req (kind : MemKind) (dst data expect : Nat) (hoist : Bool) : MemReq :=
      { kind := kind, addr := ad, target := t, ty := l.ty, dst := dst, data := data, expect := expect,
        acq := if l.ord.hasAcq then some sc else none, hoist := hoist }
    let fx (r : MemReq) : List Fx := if l.ord.hasRel then [.release sc, .mem r] else [.mem r]
    let sends (i : Instr) (writes : Bool) (r : MemReq) : Prop :=
      s.Runs f i m.g → s.Passes f ad n writes t →
        (r.kind = .store ∨ s.meetsPoison f r = false → s.Issues f i m.chains m.words (fx r)) ∧
        (r.kind ≠ .store → s.meetsPoison f r = true → s.Traps f i (mkCause 10 0) ad.off)
    (sends (.ld m d a) false (req .load (f.abs d) 0 0 false) ∧
     sends (.ldh m d a) false (req .load (f.abs d) 0 0 true) ∧
     (let kept : Prop := ∃ h, s.hoistEntry f (f.abs d) ad n = some h ∧ ∀ x ∈ (s.openGroup f).fx, h.struck x = false
      let r := req .load (f.abs d) 0 0 false
      s.Runs f (.chkh m d a) m.g →
       (kept → s.Issues f (.chkh m d a) m.chains m.words [.unhoist (f.abs d)]) ∧
       (¬kept → s.Passes f ad n false t →
         (s.meetsPoison f r = false → s.Issues f (.chkh m d a) m.chains m.words (.unhoist (f.abs d) :: fx r)) ∧
         (s.meetsPoison f r = true → s.Traps f (.chkh m d a) (mkCause 10 0) ad.off))) ∧
     (s.Runs f (.pref m a) m.g → s.Issues f (.pref m a) m.chains m.words [.pref ad]) ∧
     sends (.st m a b) true (req .store (f.abs 0) (f.raw b l.ty) 0 false) ∧
     sends (.atomAdd m d a b) true (req (.atom .add) (f.abs d) (f.raw b l.ty) (f.raw d l.ty) false) ∧
     sends (.atomMin m d a b) true (req (.atom .min) (f.abs d) (f.raw b l.ty) (f.raw d l.ty) false) ∧
     sends (.atomMax m d a b) true (req (.atom .max) (f.abs d) (f.raw b l.ty) (f.raw d l.ty) false) ∧
     sends (.atomAnd m d a b) true (req (.atom .and) (f.abs d) (f.raw b l.ty) (f.raw d l.ty) false) ∧
     sends (.atomOr m d a b) true (req (.atom .or) (f.abs d) (f.raw b l.ty) (f.raw d l.ty) false) ∧
     sends (.atomXor m d a b) true (req (.atom .xor) (f.abs d) (f.raw b l.ty) (f.raw d l.ty) false) ∧
     sends (.atomXch m d a b) true (req (.atom .xch) (f.abs d) (f.raw b l.ty) (f.raw d l.ty) false) ∧
     sends (.atomCas m d a b) true (req (.atom .cas) (f.abs d) (f.raw b l.ty) (f.raw d l.ty) false) ∧
     sends (.atomIncw m d a b) true (req (.atom .incw) (f.abs d) (f.raw b l.ty) (f.raw d l.ty) false) ∧
     sends (.atomDecw m d a b) true (req (.atom .decw) (f.abs d) (f.raw b l.ty) (f.raw d l.ty) false) ∧
     sends (.atomFadd m d a b) true (req (.atom .fadd) (f.abs d) (f.raw b l.ty) (f.raw d l.ty) false))

/-- R232 to R234: where a load, a store or an atomic raises, in the order of its checks: the space ID, the alignment to its own size, the
range locks, the translation; 7.01 carries the address. A `chkh` that reloads raises the same. -/
def Obligations.MemoryWordsTrapInOrder : Prop :=
  ∀ (s : State) (f : Fibre) (m : Mods LitMem) (d a b : RegIx),
    let l := m.body .dflt
    let n := l.ty.bits / 8
    let ad : GAddr := ⟨f.arch.spaces.getD l.space.toNat 0, f.VP a + BitVec.ofInt 64 l.off.toInt⟩
    (s.Runs f (.ld m d a) m.g → s.AccessTraps f (.ld m d a) ad n false) ∧
    (s.Runs f (.ldh m d a) m.g → s.AccessTraps f (.ldh m d a) ad n false) ∧
    (s.Runs f (.st m a b) m.g → s.AccessTraps f (.st m a b) ad n true) ∧
    (s.Runs f (.atomAdd m d a b) m.g → s.AccessTraps f (.atomAdd m d a b) ad n true) ∧
    (s.Runs f (.atomMin m d a b) m.g → s.AccessTraps f (.atomMin m d a b) ad n true) ∧
    (s.Runs f (.atomMax m d a b) m.g → s.AccessTraps f (.atomMax m d a b) ad n true) ∧
    (s.Runs f (.atomAnd m d a b) m.g → s.AccessTraps f (.atomAnd m d a b) ad n true) ∧
    (s.Runs f (.atomOr m d a b) m.g → s.AccessTraps f (.atomOr m d a b) ad n true) ∧
    (s.Runs f (.atomXor m d a b) m.g → s.AccessTraps f (.atomXor m d a b) ad n true) ∧
    (s.Runs f (.atomXch m d a b) m.g → s.AccessTraps f (.atomXch m d a b) ad n true) ∧
    (s.Runs f (.atomCas m d a b) m.g → s.AccessTraps f (.atomCas m d a b) ad n true) ∧
    (s.Runs f (.atomIncw m d a b) m.g → s.AccessTraps f (.atomIncw m d a b) ad n true) ∧
    (s.Runs f (.atomDecw m d a b) m.g → s.AccessTraps f (.atomDecw m d a b) ad n true) ∧
    (s.Runs f (.atomFadd m d a b) m.g → s.AccessTraps f (.atomFadd m d a b) ad n true) ∧
    (s.Runs f (.chkh m d a) m.g → s.hoistKept f (s.openGroup f) d l a = false → s.AccessTraps f (.chkh m d a) ad n false)

/-- What sending leaves (R163, R221, R226, R238): a relaxed access of device memory, alone in its group, with no release and no acquire pending, stands in
flight under the next name, its counter one higher; every byte of memory, every register of the fibre but its PC, and every other fibre's
registers are as they were. A store or an atomic makes exactly the hoist entries over its bytes invalid, in every fibre of its hearth, and an
`ldh` in flight over them is to record none. -/
def Obligations.RelaxedAccessStandsInFlight : Prop :=
  ∀ (s : State) (f : Fibre) (words : Nat) (r : MemReq) (pa : Nat),
    s.issuer = some f → s.run.group = none → r.target = .dev pa → r.acq = none → f.order = none → s.acquiring f = false →
    r.kind = .load ∨ r.kind = .store ∨ (∃ op, r.kind = .atom op) →
    ∃ t g, s.adds f false words [.mem r] = t ∧ t.fibre? f.uid = some g ∧
      g.arch = { f.arch with pc := f.arch.pc + BitVec.ofNat 32 words } ∧
      g.ld = f.ld + (if r.kind = .store then 0 else 1) ∧ g.st = f.st + (if r.kind = .store then 1 else 0) ∧
      (let unhoisted (o : MemOp) : MemOp := { o with req := { o.req with hoist := false } }
       let ops := s.ops ++ [{ id := s.run.nextOp, uid := f.uid, hearth := s.hearthOf f, pc := f.arch.pc, rep := none, req := r, ready := true,
                              performed := false, value := 0, gwct := 0, expiry := 0, poison := false }]
       t.ops.map unhoisted = ops.map unhoisted ∧ (r.kind = .load → t.ops = ops)) ∧
      (∀ o ∈ t.ops, r.kind ≠ .load → o.hearth = s.hearthOf f → o.req.target.overlaps o.req.size r.target r.size = true → o.req.hoist = false) ∧
      (∀ v h k, t.fibre? v = some h → s.fibre? v = some k → ∀ e, e ∈ h.hoist ↔ e ∈ k.hoist ∧
        ¬(r.kind ≠ .load ∧ (∃ c ∈ s.cohorts, c.uid = k.cohort ∧ c.hearth = s.hearthOf f) ∧ e.target.overlaps e.size r.target r.size = true)) ∧
      t = { s with run := t.run, ops := t.ops, fibres := t.fibres } ∧
      ∀ v, v ≠ f.uid → (t.fibre? v).map (fun h => { h with hoist := [] }) = (s.fibre? v).map fun h => { h with hoist := [] }

/-- R241 to R247 and R249: the stash words and `fence` pass their checks and add their effects; `smap` and `sfe` look at the lines as the earlier
words of their group map them. -/
def Obligations.StashAndFenceWordsIssue : Prop :=
  ∀ (s : State) (f : Fibre) (d a b : RegIx) (p : BitVec 3),
    let c := s.cohortOf f
    (∀ m : Mods LitStash,
      let l := m.body .dflt
      let o := ((f.V a).toNat + l.off.toNat) % 2 ^ 32
      let n := l.ty.bits / 8
      let line := c.line (o / 128)
      let w := f.V a
      let first := (w.toNat % 2 ^ 19 + l.off.toNat) / 128
      let count := w.toNat / 2 ^ 20 + 1
      let ranged (e : Bool) : Prop := w.toNat / 2 ^ 20 < 3072 ∧ (w.getLsbD 19 = true → e = true) ∧
        (w.toNat % 2 ^ 19 + l.off.toNat) % 128 = 0 ∧ first + count ≤ c.decl.lines
      let g : GAddr := ⟨f.arch.spaces.getD l.space.toNat 0, f.VP b⟩
      (o + n ≤ 128 * c.decl.lines → o % n = 0 → (line.mapped.isSome = true → line.filled (s.cohortTime c) = true) →
        (s.Runs f (.lds m d a) m.g → line.poison = false →
          s.Issues f (.lds m d a) m.chains m.words [.stash (.lds o l.ty (f.abs d))]) ∧
        (s.Runs f (.lds m d a) m.g → line.poison = true → s.Traps f (.lds m d a) (mkCause 10 2) (BitVec.ofNat 64 o)) ∧
        (s.Runs f (.sts m a b) m.g → s.Issues f (.sts m a b) m.chains m.words [.stash (.sts o l.ty (f.raw b l.ty))])) ∧
      (s.Runs f (.smap m a b) m.g → ranged false → spaceKind g.space ≠ 1 → s.spaceFault (s.ctxOf f) g.space = none →
        g.off.toNat % 128 = 0 → g.off.toNat + 128 * count ≤ 2 ^ 64 →
        (∀ k, first ≤ k → k < first + count → c.mappedAfter (s.openGroup f).fx k = false ∧
          ∀ x ∈ s.engineDests f.cohort, ¬(x.1 < 128 * (k + 1) ∧ 128 * k < x.1 + x.2)) →
        s.Issues f (.smap m a b) m.chains m.words [.stash (.smap first count g)]) ∧
      (s.Runs f (.sumap m a) m.g → ranged false → s.Issues f (.sumap m a) m.chains m.words [.stash (.sumap first count)]) ∧
      (s.Runs f (.sflush m a) m.g → ranged false → s.Issues f (.sflush m a) m.chains m.words [.stash (.sflush first count)]) ∧
      (s.Runs f (.sfe m a) m.g → ranged true → (∀ k, first ≤ k → k < first + count → c.mappedAfter (s.openGroup f).fx k = false) →
        s.Issues f (.sfe m a) m.chains m.words [.stash (.sfe first count (w.getLsbD 19) w)]) ∧
      (s.Runs f (.tfe m p a) m.g → ranged true →
        s.Issues f (.tfe m p a) m.chains m.words [.stash (.tfe first count (w.getLsbD 19) p)])) ∧
    (∀ m : Mods LitFence,
      let l := m.body .dflt
      s.Runs f (.fence m) m.g → s.Issues f (.fence m) m.chains m.words
        ((if l.ord.hasRel then [.release l.scope] else []) ++ (if l.ord.hasAcq then [.acquireLoads l.scope] else []) ++
          (if l.ord = .sc then [.sequence l.scope] else [])))

/-- R242: an `lds` of a full region line, alone in its group, writes its registers with the little-endian bytes of the stash; an `sts` to a
region line writes the bytes of its own range and no other byte of the cohort's stash. -/
def Obligations.StashAccessReadsAndWritesItsBytes : Prop :=
  ∀ (s : State) (f : Fibre) (c : Cohort) (o words : Nat) (ty : Ty) (dst data : Nat),
    s.issuer = some f → s.run.group = none → s.cohort? f.cohort = some c → (c.line (o / 128)).mapped = none → f.exited = false →
    f.order = none → s.acquiring f = false → (∀ p ∈ f.pend, p.src ≠ .op s.run.nextOp) →
    ((c.line (o / 128)).full = true → (c.line (o / 128)).poison = false → 0 < ty.bits →
      ∃ g, (s.adds f false words [.stash (.lds o ty dst)]).fibre? f.uid = some g ∧
        (∀ r, r < f.arch.regs.length → g.arch.regs.getD r 0 =
          (((ty.words (leNat (Memory.bytes c.stash o (ty.bits / 8)))).zipIdx.map fun x => (dst + x.2, x.1)).lookup r).getD (f.arch.regs.getD r 0)) ∧
        g.arch.pc = f.arch.pc + BitVec.ofNat 32 words ∧ (s.adds f false words [.stash (.lds o ty dst)]).cohorts = s.cohorts ∧
        (s.adds f false words [.stash (.lds o ty dst)]).mem = s.mem) ∧
    (∃ e, (s.adds f false words [.stash (.sts o ty data)]).cohort? f.cohort = some e ∧
      leNat (Memory.bytes e.stash o (ty.bits / 8)) = data % 2 ^ (8 * (ty.bits / 8)) ∧
      (∀ k, k < o ∨ o + ty.bits / 8 ≤ k → Memory.get e.stash k = Memory.get c.stash k) ∧
      e.lines = c.lines ∧ e.bars = c.bars ∧ (s.adds f false words [.stash (.sts o ty data)]).mem = s.mem)

/-! ### Cross-lane and group words (R71 to R79, R250 to R258) -/

/-- R71, R75 and R250 to R258: each word presents its operands to the rendezvous of its tag; a register mask without the caller's own bit
raises 8.01 with the mask; `rdv` is a release at `.crw` first, and `jarr` sets its bit in its crew's mask without a rendezvous (R73). R72, R74, R78, R79,
R251 to R258: the one open rendezvous of a crew completes once every live fibre of its set has presented: each member receives the result that the
contributors give it, taken by the masks as they stand, and goes on; `jmsk` writes its mask for the live vlanes of its sub-group; short of that nothing
changes. One whose members disagree raises 8.00 in each member instead (R75). -/
def Obligations.CrossLaneWordsPresent : Prop :=
  (∀ (s : State) (co : Cohort) (crew : Nat) (w : Crew) (r : Rdv), s.cohort? co.uid = some co → co.crew? crew = some w → w.rdvs = [r] → r.tag ≠ 256 →
    let t := s.crewComplete co.uid crew
    (¬s.Whole co.uid crew r → t.fibres = s.fibres ∧ (r.members ≠ [] → (s.cohorts.map (·.uid)).Nodup → (co.crews.map (·.number)).Nodup → t.cohorts = s.cohorts)) ∧
    (s.Whole co.uid crew r → r.failed = true → ∃ s0 : State, s0 = s.updCrew co.uid crew (fun w => { w with rdvs := w.rdvs.filter fun q => q != r }) ∧
      t = (r.members.foldl (fun s p => s.rdvRaise r.tag 0 p) s0).updCrew co.uid crew fun w => { w with rdvs := w.rdvs.filter fun r => r.members != [] }) ∧
    (s.Whole co.uid crew r → r.failed = false →
      let cs := r.members.filter fun p => match p.set with | .mask j => (w.masks.getD j.toNat 0).getLsbD p.vlane | _ => true
      (∃ c' w', t.cohort? co.uid = some c' ∧ c'.crew? crew = some w' ∧ w'.rdvs = [] ∧
        (∀ p rest j v, r.members = p :: rest → p.kind = .jmsk j v → j.toNat < w.masks.length → w'.masks.length = w.masks.length ∧
          (∀ k, k ≠ j.toNat → w'.masks.getD k 0 = w.masks.getD k 0) ∧
          ∀ n < 32, (w'.masks.getD j.toNat 0).getLsbD n =
            if p.vlane / p.width * p.width ≤ n ∧ n < p.vlane / p.width * p.width + p.width
            then v.getLsbD n && (s.fibres.any fun f => f.cohort == co.uid && f.crew == crew && !f.exited && f.vlane == n)
            else (w.masks.getD j.toNat 0).getLsbD n) ∧
        (∀ p rest, r.members = p :: rest → (∀ j v, p.kind ≠ .jmsk j v) → w'.masks = w.masks)) ∧
      ((r.members.map (·.uid)).Nodup → (∀ p rest j v, r.members = p :: rest → p.kind ≠ .jmsk j v) →
        ∀ p ∈ r.members, 0 < p.width → (∀ t l v, p.kind ≠ .tgat t l v) → ∀ f, s.fibre? p.uid = some f → ∃ ws ps fl, p.Receives cs ws ps fl ∧
          let g := (f.land p.name (ws.zipIdx.map fun x => (p.dst + x.2, x.1)) ps).orFlags fl
          t.fibre? p.uid = some { g with waits := g.waits.filter fun w => w != .group r.tag }) ∧
      (∀ u, u ∉ r.members.map (·.uid) → t.fibre? u = s.fibre? u))) ∧
  ∀ (s : State) (f : Fibre) (d a b o : RegIx) (p q mode ty : BitVec 3) (j : BitVec 2),
    let og := s.openGroup f
    let mask (set : Sys2Proof.PSet) : Word := match set with | .reg r => f.V r | _ => 0
    let named (set : Sys2Proof.PSet) : Prop := match set with | .reg r => (f.V r).getLsbD f.vlane = true | _ => True
    let base (kind : RdvKind) (set : Sys2Proof.PSet) (width : Width) : Presentation :=
      { uid := f.uid, name := 0, vlane := f.vlane, kind := kind, set := set, mask := mask set, width := width.lanes, opnd := 0, pred := false,
        idx := 0, dst := 0, pdst := 7, addr := ⟨0, 0⟩, pc := og.head, next := 0 }
    (∀ m : Mods LitXl,
      let l := m.body .dflt
      let opnd := f.raw a (if l.w64 then .b64 else .b32)
      let pres (i : Instr) (kind : RdvKind) : Prop := s.Runs f i m.g →
        (named l.set → s.Issues f i m.chains m.words
          [.present l.tag.toNat { base kind l.set l.width with opnd := opnd, idx := f.V b, dst := f.abs d, pdst := l.pdst }]) ∧
        (¬named l.set → s.Traps f i (mkCause 8 1) ((mask l.set).setWidth 64))
      pres (.shfl m d a b) (.shfl l.mode l.w64) ∧ pres (.bcst m d a b) (.bcst l.w64 (f.V b))) ∧
    (∀ m : Mods LitGrp,
      let l := m.body .dflt
      let pres (i : Instr) (before : List Fx) (x : Presentation) : Prop := s.Runs f i m.g →
        (named l.set → s.Issues f i m.chains m.words (before ++ [.present l.tag.toNat x])) ∧
        (¬named l.set → s.Traps f i (mkCause 8 1) ((mask l.set).setWidth 64))
      let k (kind : RdvKind) : Presentation := base kind l.set l.width
      pres (.vote m p q mode) [] { k (.vote mode) with pred := f.P q, pdst := p } ∧
      pres (.redu m d a o) [] { k (.redu o l.rnd l.den) with opnd := f.raw a (grpTy (o.extractLsb' 0 3)), dst := f.abs d } ∧
      pres (.scan m d a o) [] { k (.scan o l.rnd l.den) with opnd := f.raw a (grpTy (o.extractLsb' 0 3)), dst := f.abs d } ∧
      pres (.mtch m d a ty) [] { k (.mtch ty) with opnd := f.raw a (grpTy ty), dst := f.abs d } ∧
      pres (.elect m p) [] { k .elect with pdst := p } ∧
      pres (.rdv m d) [.release .crw] { k .rdv with dst := f.abs d } ∧
      pres (.jmsk m j a) [] (k (.jmsk j (f.V a)))) ∧
    (∀ m : Plain, s.Runs f (.jarr m j) m.g → s.Issues f (.jarr m j) m.c 1 [.jarr j]) ∧
    (∀ co w, f.vlane < 32 → s.cohort? f.cohort = some co → co.crew? f.crew = some w → j.toNat < w.masks.length →
      ∃ c' w', (State.applyCrew f s (.jarr j)).cohort? f.cohort = some c' ∧ c'.crew? f.crew = some w' ∧ w'.rdvs = w.rdvs ∧
        (State.applyCrew f s (.jarr j)).fibres = s.fibres ∧ ∀ k v, v < 32 →
          (w'.masks.getD k 0).getLsbD v = ((w.masks.getD k 0).getLsbD v || (decide (k = j.toNat) && decide (v = f.vlane))))

/-! ### Control words (R89 to R91, R153 to R172) -/

/-- R154 to R158: the targets, the link of `call` and its window, the link that `ret` takes, and the table of `jt`; alone in its group each
leaves exactly its PC, its window and, for `call`, the link register. The directory entry of R157 holds its count in bits [12:0] and its
offset in bits [63:32]. -/
def Obligations.BranchWordsTransfer : Prop :=
  ∀ (s : State) (f : Fibre) (off : BitVec 18),
    let og := s.openGroup f
    let here := og.head + BitVec.ofNat 32 og.words
    let target : Int := here.toNat + off.toInt
    let wb := f.arch.wbase
    (∀ m : Plain, s.Runs f (.br m off) m.g → f.voided og 1 = false → 0 ≤ target → target < 2 ^ 32 →
      s.Leaves f (.br m off) m.c 1 [.jump (BitVec.ofInt 32 target)] { f.arch with pc := BitVec.ofInt 32 target }) ∧
    (∀ m : Mods LitCall,
      let k := (m.body .dflt).slide
      let ret := f.nextPc og
      let link : Word := k ++ BitVec.ofNat 27 ret
      s.Runs f (.call m off) m.g → f.voided og m.words = false → wb + 8 * k.toNat + 8 ≤ f.arch.regs.length → ret < 2 ^ 27 →
      0 ≤ target → target < 2 ^ 32 →
      s.Leaves f (.call m off) m.chains m.words [.call (wb + 8 * k.toNat) (wb + 8 * k.toNat - 1) link (BitVec.ofInt 32 target)]
        { f.arch with pc := BitVec.ofInt 32 target, wbase := wb + 8 * k.toNat, regs := f.arch.regs.set (wb + 8 * k.toNat - 1) link }) ∧
    (∀ m : Plain,
      let l : Word := f.arch.regs.getD (wb - 1) 0
      let k := l.toNat / 2 ^ 27
      s.Runs f (.ret m) m.g → f.voided og 1 = false → 0 < wb → f.badRegs.contains (wb - 1) = false → 0 < k → 8 * k ≤ wb →
      s.Leaves f (.ret m) m.c 1 [.ret (wb - 8 * k) (BitVec.ofNat 32 (l.toNat % 2 ^ 27))]
        { f.arch with pc := BitVec.ofNat 32 (l.toNat % 2 ^ 27), wbase := wb - 8 * k }) ∧
    (∀ (m : Plain) (t a : RegIx) (pe pt : Nat),
      let base := (s.slotOf f).record.codeBase
      let e := leNat (s.codeBytes (s.slotOf f) pe 8)
      let i := (f.V a).toNat
      let pc := leNat (s.codeBytes (s.slotOf f) pt 4)
      s.Runs f (.jt m t a) m.g → f.voided og 1 = false → s.codeAt f og.head (base - 512 + 8 * t.toNat) 8 = .found pe →
      e / 2 ^ 13 % 2 ^ 19 = 0 → i < e % 2 ^ 13 → e % 2 ^ 13 ≤ 4096 → e / 2 ^ 32 % 4 = 0 →
      s.codeAt f og.head (base + e / 2 ^ 32 + 4 * i) 4 = .found pt →
      s.Leaves f (.jt m t a) m.c 1 [.jump (BitVec.ofNat 32 pc)] { f.arch with pc := BitVec.ofNat 32 pc })

/-- R154 to R156, R158: where a branch raises: 9.04 with the signed target, 1.05 with the new base, 9.02 with the return PC, 9.03 with 0 or
the link; a link register with an uncorrectable error raises 10.03. -/
def Obligations.BranchWordsTrap : Prop :=
  ∀ (s : State) (f : Fibre) (off : BitVec 18),
    let og := s.openGroup f
    let target : Int := (og.head + BitVec.ofNat 32 og.words).toNat + off.toInt
    let wb := f.arch.wbase
    (∀ m : Plain, s.Runs f (.br m off) m.g → f.voided og 1 = false → target < 0 ∨ 2 ^ 32 ≤ target →
      s.Traps f (.br m off) (mkCause 9 4) (BitVec.ofInt 64 target)) ∧
    (∀ m : Mods LitCall,
      let nb := wb + 8 * ((m.body .dflt).slide).toNat
      let ret := f.nextPc og
      s.Runs f (.call m off) m.g → f.voided og m.words = false →
        (f.arch.regs.length < nb + 8 → s.Traps f (.call m off) (mkCause 1 5) (BitVec.ofNat 64 nb)) ∧
        (nb + 8 ≤ f.arch.regs.length → 2 ^ 27 ≤ ret → s.Traps f (.call m off) (mkCause 9 2) (BitVec.ofNat 64 ret)) ∧
        (nb + 8 ≤ f.arch.regs.length → ret < 2 ^ 27 → target < 0 ∨ 2 ^ 32 ≤ target →
          s.Traps f (.call m off) (mkCause 9 4) (BitVec.ofInt 64 target))) ∧
    (∀ m : Plain,
      let l : Word := f.arch.regs.getD (wb - 1) 0
      s.Runs f (.ret m) m.g → f.voided og 1 = false →
        (wb = 0 → s.Traps f (.ret m) (mkCause 9 3) 0) ∧
        (0 < wb → f.badRegs.contains (wb - 1) = true → s.Traps f (.ret m) (mkCause 10 3) (BitVec.ofNat 64 (wb - 1))) ∧
        (0 < wb → f.badRegs.contains (wb - 1) = false → l.toNat / 2 ^ 27 = 0 ∨ wb < 8 * (l.toNat / 2 ^ 27) →
          s.Traps f (.ret m) (mkCause 9 3) (l.setWidth 64)))

/-- R159, R160, R162 and R164: `exit` ends its fibre; `yield`, `sleep`, `waitc` and `nop` leave its registers but the PC. -/
def Obligations.FlowWordsIssue : Prop :=
  ∀ (s : State) (f : Fibre),
    let next (words : Nat) : ArchState := { f.arch with pc := f.arch.pc + BitVec.ofNat 32 words }
    (∀ m : Plain, s.Runs f (.nop m) m.g → s.Leaves f (.nop m) m.c 1 [] (next 1)) ∧
    (∀ m : Mods LitWaitc, s.Runs f (.waitc m) m.g → s.Leaves f (.waitc m) m.chains m.words [] (next m.words)) ∧
    (∀ m : Plain, s.Runs f (.yield m) m.g → s.Leaves f (.yield m) m.c 1 [.yield] (next 1)) ∧
    (∀ m : Mods LitSleep, s.Runs f (.sleep m) m.g →
      let ns := ((m.body .dflt).ns).toNat
      (ns = 0 → s.Leaves f (.sleep m) m.chains m.words [] (next m.words)) ∧
      (0 < ns → s.Leaves f (.sleep m) m.chains m.words [.sleep (s.ltimeAt (dieOfHearth (s.hearthOf f)) + ns)] (next m.words) ∧
        (m.chains = false → s.run.group = none →
          ∃ g, (s.adds f false m.words [.sleep (s.ltimeAt (dieOfHearth (s.hearthOf f)) + ns)]).fibre? f.uid = some g ∧
            g.waits = f.waits ++ [.sleep (s.ltimeAt (dieOfHearth (s.hearthOf f)) + ns)]))) ∧
    (∀ m : Plain, s.Runs f (.exit m) m.g → s.Issues f (.exit m) m.c 1 [.exit] ∧
      (m.c = false → s.run.group = none → f.order = none → ∃ g, (s.adds f false 1 [.exit]).fibre? f.uid = some g ∧ g.exited = true ∧ g.waits = [] ∧ g.hoist = []))

/-- R161: `trap n` raises cause 9.(16 + n) at the head of its group, with the PC of the group that follows in %tval; a word of it with D[5:4]
other than 0 is refused as 0.18. -/
def Obligations.TrapWordRaisesItsCause : Prop :=
  (∀ (s : State) (f : Fibre) (m : Plain) (n : BitVec 4), s.Runs f (.trap m n) m.g →
    s.Traps f (.trap m n) (mkCause 9 (16 + n.toNat)) (BitVec.ofNat 64 ((s.openGroup f).head.toNat + f.groupWords.length))) ∧
  (∀ (c : Bool) (n : BitVec 4) (g : BitVec 4), let word (d : Nat) : Word := BitVec.ofNat 32 (c.toNat * 2 ^ 31 + 0x48800000 + d * 2 ^ 16 + g.toNat)
    decode (word n.toNat) none = .ok (.trap ⟨c, g⟩ n) ∧
    ∀ h, 1 ≤ h → h ≤ 3 → decode (word (16 * h + n.toNat)) none = .error (.word 18))

/-- R166 to R168, R170: the barrier words arrive as a release, wait, or add bytes to PEND; 1.01, 6.20, 6.21 and 6.22 where they apply, what the
words of the group before it add to PEND or to the device's table counted. -/
def Obligations.BarrierWordsIssueOrTrap : Prop :=
  ∀ (s : State) (f : Fibre) (m : Mods LitBar) (n : BitVec 5) (a : RegIx),
    let sc := (m.body .dflt).scope
    let c := s.cohortOf f
    let tv : DWord := n.setWidth 64
    let bar (i : Instr) (fx : List Fx) : Prop := s.Runs f i m.g →
      (c.decl.bars ≤ n.toNat → s.Traps f i (mkCause 1 1) tv) ∧
      (n.toNat < c.decl.bars →
        (sc ≠ .dev → s.Issues f i m.chains m.words fx) ∧
        (sc = .dev → (s.slot c.slot).resident = false → s.Traps f i (mkCause 6 21) tv) ∧
        (sc = .dev → (s.slot c.slot).resident = true → s.devBar? c.slot n.toNat = none →
          64 ≤ s.devBars.length + (s.newBars c.slot (s.openGroup f).fx n.toNat).length → s.Traps f i (mkCause 6 22) tv) ∧
        (let new := (s.newBars c.slot (s.openGroup f).fx n.toNat).length
         sc = .dev → (s.slot c.slot).resident = true → (s.devBar? c.slot n.toNat ≠ none ∨ s.devBars.length + new < 64) →
          s.Issues f i m.chains m.words (.devBar n.toNat :: fx)))
    bar (.bar m n) [.release sc, .barArrive n.toNat sc, .barWait n.toNat sc] ∧
    bar (.barArrive m n) [.release sc, .barArrive n.toNat sc] ∧
    bar (.barWait m n) [.barWait n.toNat sc] ∧
    (s.Runs f (.barExpect m n a) m.g →
      (c.decl.bars ≤ n.toNat → s.Traps f (.barExpect m n a) (mkCause 1 1) tv) ∧
      let more := (c.bar n.toNat).pend + expected n.toNat (s.openGroup f).fx + (f.V a).toNat
      (n.toNat < c.decl.bars → 2 ^ 31 - 1 < more →
        s.Traps f (.barExpect m n a) (mkCause 6 20) ((f.V a).setWidth 64)) ∧
      (n.toNat < c.decl.bars → more ≤ 2 ^ 31 - 1 →
        s.Issues f (.barExpect m n a) m.chains m.words [.barExpect n.toNat (f.V a)]))

/-- R167, Table 9.6, the rows of the words: an arrival that makes ARR = LIVE with PEND = 0 completes the phase (every bit clears, LFLT takes FLT, PHASE rises, and
no fibre of the cohort waits on it); one that does not, sets the bit and leaves phase and waiters; the expect adds its bytes. R168, R170, R171:
an entry of a device barrier begins at phase 0; an arrival that completes LIVE clears the bits, raises the 32-bit phase and orders the hearths that
hold waiters from (P × 7) mod 192, sixteen to a window of 100 ns; a wait with its bit set joins the waiters; a window whose time has come wakes
its fibres. LIVE counts the fibres of gathered crews too (the model's choice, log 98). -/
def Obligations.BarrierPhaseCompletesWhenWhole : Prop :=
  ∀ (s : State) (f : Fibre) (c : Cohort) (n v : Nat), s.cohort? f.cohort = some c →
    let b := c.bar n
    let arr := if f.place ∈ b.arrived then b.arrived else b.arrived ++ [f.place]
    let live := (s.fibres.filter fun g => g.cohort == f.cohort && !g.exited).length
    (b.pend = 0 → arr.length = live → ∃ e, (s.barArrive f n).cohort? f.cohort = some e ∧
      e.bar n = { b with arrived := [], lflt := b.flt, flt := false, phase := (b.phase + 1) % 256 } ∧
      ∀ u g, (s.barArrive f n).fibre? u = some g → g.cohort = f.cohort → Wait.bar n ∉ g.waits) ∧
    (b.pend ≠ 0 ∨ arr.length ≠ live → ∃ e, (s.barArrive f n).cohort? f.cohort = some e ∧
      e.bar n = { b with arrived := arr } ∧ (s.barArrive f n).fibres = s.fibres) ∧
    (b.pend + v ≠ 0 ∨ b.arrived.length ≠ live ∨ b.arrived = [] → ∃ e, (s.barExpect f n v).cohort? f.cohort = some e ∧
      e.bar n = { b with pend := b.pend + v } ∧ (s.barExpect f n v).fibres = s.fibres) ∧
    (∀ d, s.devBar? c.slot n = some d →
      let arr := if f.uid ∈ d.arrived then d.arrived else d.arrived ++ [f.uid]
      let live := (s.fibres.filter fun g => !g.exited && (s.cohortOf g).slot == c.slot).length
      let place (h : Nat) : Nat := (h + 192 - d.phase * 7 % 192) % 192
      let hearthOf (u : Nat) : Option Nat := (s.fibre? u).map fun g => s.hearthOf g % 192
      let rank (h : Nat) : Nat :=
        ((List.range 192).filter fun k => d.waiting.any (fun u => hearthOf u == some k) && decide (place k < place h)).length
      let t := s.devArrive f n
      (arr.length ≠ live → t.devBar? c.slot n = some { d with arrived := arr } ∧ t.fibres = s.fibres) ∧
      (arr.length = live → t.fibres = s.fibres ∧ ∃ ws,
        t.devBar? c.slot n = some { d with arrived := [], waiting := [], phase := (d.phase + 1) % 2 ^ 32, wakes := d.wakes ++ ws } ∧
        (∀ w ∈ ws, ∃ k, w.1 = s.ltime + 100 * k ∧ ∀ u, u ∈ w.2 ↔ u ∈ d.waiting ∧ ∃ h, hearthOf u = some h ∧ rank h / 16 = k) ∧
        ∀ u ∈ d.waiting, (s.fibre? u).isSome → ∃ w ∈ ws, u ∈ w.2) ∧
      (f.uid ∉ d.arrived → s.devWait f n = s) ∧
      (f.uid ∈ d.arrived → s.fibre? f.uid = some f →
        (s.devWait f n).devBar? c.slot n = some { d with waiting := d.waiting ++ [f.uid] } ∧
        (s.devWait f n).fibre? f.uid = some { f with waits := f.waits ++ [.devBar n] }) ∧
      ((∀ w ∈ d.wakes, s.ltime < w.1) → exec (.devBarrierWakeWindow c.slot n) s = .next s) ∧
      (∀ w, d.wakes.find? (fun w => decide (w.1 ≤ s.ltime)) = some w → ∃ t, exec (.devBarrierWakeWindow c.slot n) s = .next t ∧
        t.devBar? c.slot n = some { d with wakes := d.wakes.erase w } ∧
        ∀ u, t.fibre? u = (s.fibre? u).map fun g => if u ∈ w.2 then { g with waits := g.waits.erase (.devBar n) } else g)) ∧
    (s.devBar? c.slot n = none → (s.devBarAlloc c.slot n).devBar? c.slot n =
      some { slot := c.slot, n := n, phase := 0, arrived := [], waiting := [], wakes := [] })

/-- R90: `rep` opens a repetition of n + 1 times, of once where its guard reads false, or goes on with the one that %repc holds; its
registers are unchanged until its group takes effect. -/
def Obligations.RepOpensItsRepetition : Prop :=
  ∀ (s : State) (f : Fibre) (m : Plain) (n : RegIx) (m2 : BitVec 3), s.issuer = some f →
    let og := s.openGroup f
    let count := if f.guard m.g then n.toNat + 1 else 1
    exec (.rep m n m2) s = .next { s with run := { s.run with group := some { og with
      words := og.words + 1, repeating := some (if f.arch.repc = 0 then (count, count) else (f.arch.repStart, f.arch.repc)) } } }

/-! ### Spawning, joins and watchpoints (R263 to R290) -/

/-- R265, R273 and R285: past their checks `spawn`, `spawnr` and `watch` release at the placement's scope, then make the record that their
block describes; an empty range makes none and writes a true status. -/
def Obligations.SpawnWordsMakeTheirRecord : Prop :=
  ∀ (s : State) (f : Fibre) (m : Mods LitSpawn) (p : BitVec 3) (a b : RegIx) (e : Word) (regs : Nat),
    let l := m.body .dflt
    let n := l.npay.toNat
    let at' (k : RegIx) : GAddr := ⟨f.arch.spaces.getD 0 0, f.VP k⟩
    let rec' (kind : Nat) (payload : List Word) : KRecord :=
      { kind := kind, cls := windowClass regs, place := l.place.toNat, npay := n, depth := f.arch.depth + 1, origin := s.hearthOf f, grain := 0,
        join := if f.VP a = 0 then ⟨0, 0⟩ else at' a, entry := e, slot := (s.slotOf f).n, gen := (s.slotOf f).gen, lo := 0, hi := 0, image := 0,
        payload := payload, regs := regs, since := 0, order := 0, spill := none, head := [] }
    let joinOk : Prop := f.VP a = 0 ∨ OwnAligned (at' a)
    s.Entry f l b e regs → joinOk →
      (s.Runs f (.spawn m p a b) m.g → n ≤ regs →
        s.Issues f (.spawn m p a b) m.chains m.words
          [.release (placeScope l.place), .spawn p (rec' 0 ((f.run a (2 + n)).drop 2))]) ∧
      (s.Runs f (.spawnr m p a b) m.g → 2 + n ≤ regs →
        let blk := f.run a (5 + n)
        let lo := (blk.getD 2 0).toNat
        let hi := (blk.getD 3 0).toNat
        let g := (blk.getD 4 0).toNat
        0 < g → s.Issues f (.spawnr m p a b) m.chains m.words
          [.release (placeScope l.place), if hi ≤ lo then .spawnNone p else .spawn p { rec' 1 (blk.drop 5) with grain := g, lo := lo, hi := hi }]) ∧
      (∀ t, s.Runs f (.watch m p a b) m.g → n ≤ regs →
        let ctl := f.V (a + 8)
        ctl.toNat < 8 → ctl.getLsbD 1 = false → OwnAligned (at' (a + 2)) →
        s.translate (s.hearthOf f) (s.ctxOf f) 0 (at' (a + 2)) (at' (a + 2)).off = .ok t →
        s.Issues f (.watch m p a b) m.chains m.words
          [.release (placeScope l.place), .watch p (f.abs (a + 8)) (at' (a + 2)) t (f.VP (a + 4)) (f.VP (a + 6)) ctl
            (rec' 3 ((f.run a (9 + n)).drop 9))])

/-- R265 and R276: the status is false, and nothing else changes, past the depth limit or without room; else the record stands last in the
die's store, or in the launch's spill area when the store is full. -/
def Obligations.SpawnStatusSaysWhetherARecordWasMade : Prop :=
  ∀ (s : State) (f : Fibre) (r : KRecord),
    let die := dieOfHearth (s.hearthOf f)
    let l := s.slotOf f
    (l.record.depth < r.depth → s.spawnStatus f r = (s, false)) ∧
    (r.depth ≤ l.record.depth → (s.die die).store.length < 32768 →
      (s.spawnStatus f r).2 = true ∧ (s.spawnStatus f r).1 =
        { s with run := { s.run with nextStamp := s.run.nextStamp + 1 } }.updDie die fun d =>
          { d with store := d.store ++ [{ r with since := s.ltime, order := s.run.nextStamp, spill := none }] }) ∧
    (r.depth ≤ l.record.depth → 32768 ≤ (s.die die).store.length → (s.slot r.slot).firstFit 1 = none → s.spawnStatus f r = (s, false)) ∧
    (∀ b s1, r.depth ≤ l.record.depth → 32768 ≤ (s.die die).store.length → (s.slot r.slot).firstFit 1 = some b →
      let r' := { r with since := s.ltime, order := s.run.nextStamp, spill := none }
      let area := s.slot r.slot
      { s with run := { s.run with nextStamp := s.run.nextStamp + 1 } }.unitWrite die area.n area.ctx (area.record.spillBase + 64 * b) r'.bytes =
        some s1 →
      s.spawnStatus f r = (s1.updSlot r.slot fun l =>
        { l with spill := l.spill ++ [(b, 1)], spillRecs := l.spillRecs ++ [{ r' with spill := some b }] }, true)) ∧
    (∀ n, n ≠ die → ((s.spawnStatus f r).1.die n).store = (s.die n).store)

/-- R277, R279 and R290: `jwait` and `unwatch` add their effects; `kcap` writes the free records of the die's store and the free blocks of the
spill area, saturated, and does nothing else. -/
def Obligations.JoinWatchAndCapacityWords : Prop :=
  ∀ (s : State) (f : Fibre) (m : Plain) (p : BitVec 3) (d a : RegIx) (t : Target),
    let g : GAddr := ⟨f.arch.spaces.getD 0 0, f.VP a⟩
    (s.Runs f (.jwait m a) m.g → OwnAligned g → s.translate (s.hearthOf f) (s.ctxOf f) 0 g g.off = .ok t →
      s.Issues f (.jwait m a) m.c 1 [.jwait g t]) ∧
    (s.Runs f (.unwatch m p a) m.g → s.Issues f (.unwatch m p a) m.c 1 [.unwatch p (f.V a)]) ∧
    (s.Runs f (.kcap m d) m.g →
      let n := (32768 - (s.die (dieOfHearth (s.hearthOf f))).store.length) + (s.slotOf f).freeBlocks
      s.Gives f (.kcap m d) m.c 1 19 (f.wr d [BitVec.ofNat 32 (if n ≤ 2 ^ 32 - 1 then n else 2 ^ 32 - 1)]) [] 0)

/-! ### Engine words (R324 to R348) -/

/-- R326 and R330 to R336, R340 to R344: a command whose barrier, registers, offset, spaces and control word pass their checks, and for which
there is room, joins its queue with its group, as a release at `.coh` (R320). -/
def Obligations.EngineCommandsJoinTheirQueue : Prop :=
  ∀ (s : State) (f : Fibre) (m : Mods LitEng) (t src : BitVec 4) (n : BitVec 3) (sp : BitVec 2) (a b : RegIx),
    let l := m.body .dflt
    let c := s.cohortOf f
    let here := (s.openGroup f).head + BitVec.ofNat 32 (s.openGroup f).words
    let bar : Option Nat := if l.bv then some l.bar.toNat else none
    let barOk : Prop := l.bv = true → l.bar.toNat < c.decl.bars
    let tileOk (t : BitVec 4) : Prop := t.toNat < c.decl.tiles
    let accOk : Prop := n.toNat < c.decl.accs
    let offOk (o align more : Nat) : Prop := o % align = 0 ∧ o + more ≤ 128 * c.decl.lines
    let spaceOk (g : GAddr) : Prop := s.spaceFault (s.ctxOf f) g.space = none
    let o := ((f.V a).toNat + l.off) % 2 ^ 32
    let g : GAddr := ⟨f.arch.spaces.getD sp.toNat 0, f.VP a⟩
    let g0 (k : RegIx) : GAddr := ⟨f.arch.spaces.getD 0 0, f.VP k⟩
    let joins (i : Instr) (ok : Prop) (op : EngOp) : Prop := s.Runs f i m.g → barOk → ok → s.HasRoom f op l.flue.toNat →
      s.Issues f i m.chains m.words [.engine op bar l.flue.toNat here, .release .coh, .engineGo]
    joins (.mtc m t a) (tileOk t ∧ mtcOk (s.slotOf f).record.formats (f.V a) = true) (.mtc t.toNat (f.V a)) ∧
    joins (.tzeroTile m t) (tileOk t) (.tzeroTile t.toNat) ∧
    joins (.tzeroAcc m n) accOk (.tzeroAcc n.toNat) ∧
    joins (.tldTile m t a) (tileOk t ∧ offOk o 8 1) (.tldTile t.toNat o) ∧
    joins (.tldAcc m n a) (accOk ∧ offOk o 8 1) (.tldAcc n.toNat o) ∧
    joins (.tstTile m t a) (tileOk t ∧ offOk o 8 1) (.tstTile t.toNat o) ∧
    joins (.tstAcc m n a) (accOk ∧ offOk o 8 1) (.tstAcc n.toNat o) ∧
    joins (.tmma m) (offOk l.off 64 64) (.tmma l.off) ∧
    joins (.tbmp m t) (tileOk t) (.tbmp t.toNat) ∧
    joins (.tcvt m t src b)
      (tileOk t ∧ tcvtOk (f.V b) src.toNat = true ∧
        (if (f.V b).getLsbD 8 then (src.setWidth 3).toNat < c.decl.accs else src.toNat < c.decl.tiles))
      (.tcvt t.toNat src.toNat (f.V b) (f.V (b + 1))) ∧
    joins (.cpyStash m a) (offOk l.off 128 1) (.cpyStash l.off (f.V a) ((f.run a 6).drop 1)) ∧
    joins (.cpyTile m t a) (tileOk t) (.cpyTile t.toNat (f.V a) ((f.run a 6).drop 1)) ∧
    joins (.cpyl m sp a b) (spaceOk g ∧ offOk l.off 128 1) (.cpyl l.off g (f.V b).toNat) ∧
    joins (.cpylSt m sp a b) (spaceOk g ∧ offOk l.off 128 1) (.cpylSt l.off g (f.V b).toNat) ∧
    joins (.cpylGg m sp a b) (spaceOk g ∧ spaceOk (g0 (a + 2))) (.cpylGg g (g0 (a + 2)) (f.V b).toNat) ∧
    joins (.cpym m sp a b) ((s.slotOf f).record.levels.any (·.2.1 == 4) = true ∧ spaceOk g ∧ offOk l.off 128 1)
      (.cpym l.off g (f.V b).toNat) ∧
    joins (.coll m a)
      (collOk (s.slotOf f).record (f.V (a + 5)) = true ∧
        (let sz := (collTy (f.V (a + 5))).bits / 8
         ∀ k, k = a ∨ k = a + 2 → spaceKind (g0 k).space = 0 ∧ spaceNum (g0 k).space = 0 ∧ (g0 k).off.toNat % sz = 0))
      (.coll (g0 a) (g0 (a + 2)) (f.V (a + 4)).toNat (f.V (a + 5)))

/-- R326: where an engine command raises, checked in this order: 1.03 or 1.04 with the register, 1.01 with the barrier, then the causes of its
own operands; one of each kind is named here, with the operands before it sound. -/
def Obligations.EngineWordsTrapOnTheirOperands : Prop :=
  ∀ (s : State) (f : Fibre) (m : Mods LitEng) (t : BitVec 4) (n : BitVec 3) (a b : RegIx) (sp : BitVec 2),
    let l := m.body .dflt
    let c := s.cohortOf f
    let o := ((f.V a).toNat + l.off) % 2 ^ 32
    let barOk : Prop := l.bv = true → l.bar.toNat < c.decl.bars
    (∀ i, i = .mtc m t a ∨ i = .mfc m a t ∨ i = .tzeroTile m t ∨ i = .tldTile m t a ∨ i = .tstTile m t a ∨ i = .tbmp m t ∨ i = .cpyTile m t a →
      s.Runs f i m.g → c.decl.tiles ≤ t.toNat → s.Traps f i (mkCause 1 3) (t.setWidth 64)) ∧
    (∀ i, i = .tzeroAcc m n ∨ i = .tldAcc m n a ∨ i = .tstAcc m n a ∨ i = .tacc m a n b →
      s.Runs f i m.g → c.decl.accs ≤ n.toNat → s.Traps f i (mkCause 1 4) (n.setWidth 64)) ∧
    (∀ i, i = .tmma m ∨ i = .cpyStash m a ∨ i = .cpyl m sp a b ∨ i = .cpylSt m sp a b ∨ i = .cpylGg m sp a b ∨ i = .cpym m sp a b ∨ i = .coll m a →
      s.Runs f i m.g → l.bv = true → c.decl.bars ≤ l.bar.toNat → s.Traps f i (mkCause 1 1) (BitVec.ofNat 64 l.bar.toNat)) ∧
    (s.Runs f (.tldTile m t a) m.g → t.toNat < c.decl.tiles → barOk →
      (o % 8 ≠ 0 → s.Traps f (.tldTile m t a) (mkCause 3 1) (BitVec.ofNat 64 o)) ∧
      (o % 8 = 0 → 128 * c.decl.lines ≤ o → s.Traps f (.tldTile m t a) (mkCause 1 2) (BitVec.ofNat 64 o))) ∧
    (s.Runs f (.mtc m t a) m.g → t.toNat < c.decl.tiles → mtcOk (s.slotOf f).record.formats (f.V a) = false →
      s.Traps f (.mtc m t a) (mkCause 6 1) ((f.V a).setWidth 64))

/-- R320, R327: a read of the tile engine joins its queue with its group; unchained, the group is held and none of its registers is written,
its PC neither, until the read is performed; then the answer goes to its registers, and nothing else of the group is left to do, or the cause
that the read answered is taken at the group's head, with the accumulator in %tval for `tacc`. Model's choice: the whole group waits with its
read, and the first cause that a read answers discards it (log 51). -/
def Obligations.EngineReadsTakeTheirAnswer : Prop :=
  ∀ (s : State) (f : Fibre),
    (∀ (m : Mods LitEng) (d b : RegIx) (t : BitVec 4) (n : BitVec 3) (k : BitVec 5),
      let co := s.cohortOf f
      let og := s.openGroup f
      let here := og.head + BitVec.ofNat 32 og.words
      let reads (i : Instr) (op : EngOp) (regs : Nat) : Prop := s.Runs f i m.g → s.engRoom f op 0 ((enginesOf og.fx).drop f.sent) = true →
        s.Issues f i m.chains m.words [.read op here (f.abs d) regs]
      (t.toNat < co.decl.tiles → reads (.mfc m d t) (.mfc t.toNat) 1) ∧
      (n.toNat < co.decl.accs → (f.V b).toNat < 4096 → reads (.tacc m d n b) (.tacc n.toNat (f.V b).toNat) 1) ∧
      reads (.tstatTile m d) .tstatTile 2 ∧
      (k.toNat < co.decl.bars → reads (.tstatBarrier m d k) (.tstatBarrier k.toNat) 2)) ∧
    (∀ (words dst n : Nat) (op : EngOp) (word : Word), s.issuer = some f → s.run.group = none →
      ∃ g, (s.adds f false words [.read op word dst n]).fibre? f.uid = some g ∧ g.arch = f.arch ∧
        g.held = some ((OpenGroup.fresh f).add words [.read op word dst n])) ∧
    (∀ (og : OpenGroup) (op : EngOp) (word : Word) (dst n : Nat) (c : EngineCmd), f.held = some og → og.fx = [.read op word dst n] →
      (s.cmds.filter fun c => c.uid == f.uid && c.op.isRead) = [c] → c.word = word →
      (c.cause = none →
        s.takeReads f = { s with cmds := s.cmds.filter fun c => !(c.uid == f.uid && c.op.isRead) }.takeEffect f
          { og with fx := [.res 20 ((List.range n).map fun j => (dst + j, BitVec.ofNat 32 (c.value.toNat / 2 ^ (32 * j)))) [] 0] }) ∧
      (∀ x k j, c.cause = some x → c.op = .tacc k j → s.takeReads f = s.raiseGroup f og x (BitVec.ofNat 64 k)))

/-- R338, R339 and R343: `tgat`, with room for it in the queue and the range-lock table, presents its row's address to its crew's
rendezvous, then releases; `cwpt` writes the flue's write pointer. -/
def Obligations.GatherAndPointerWords : Prop :=
  ∀ (s : State) (f : Fibre) (m : Mods LitEng) (t : BitVec 4) (d a b : RegIx),
    let l := m.body .dflt
    let c := s.cohortOf f
    let g : GAddr := ⟨f.arch.spaces.getD 0 0, f.VP a⟩
    (s.Runs f (.tgat m t a b) m.g → t.toNat < c.decl.tiles → (l.bv = true → l.bar.toNat < c.decl.bars) → g.off.toNat % 8 = 0 →
      s.spaceFault (s.ctxOf f) g.space = none →
      s.engRoom f (f.gathers t a b) 0 ((enginesOf (s.openGroup f).fx).drop f.sent) = true →
      s.Issues f (.tgat m t a b) m.chains m.words
        [.present 256 { uid := f.uid, name := 0, vlane := f.vlane, kind := .tgat t.toNat l (f.V b), set := .all, mask := 0, width := 32, opnd := 0,
                        pred := false, idx := 0, dst := 0, pdst := 7, addr := g, pc := (s.openGroup f).head, next := 0 }, .release .coh]) ∧
    (s.Runs f (.cwpt m d) m.g →
      let v := c.wptr.getD l.flue.toNat 0
      s.Gives f (.cwpt m d) m.chains m.words 22 (f.wr d [BitVec.ofNat 32 v, BitVec.ofNat 32 (v / 2 ^ 32)]) [] 0)

/-! ### Recovery and system words (R98, R99, R385 to R387, R403, R404) -/

/-- R98, R99, R385 and Table 5.6: for each special register, the value that `movs` reads at issue, zero-extended, and the register or pair it
takes; what `movw` leaves in each register that it may write, %tgprog in the crew; and cause 5.00 for an H register outside handler mode. -/
def Obligations.SpecialRegisterWordsMoveTheirRegister : Prop :=
  ∀ (s : State) (f : Fibre) (m : Plain) (d a n : RegIx),
    (s.Runs f (.movs m d n) m.g → ∀ (k : Nat) (v : DWord),
      (n.toNat, k, v) ∈ [(0, 1, BitVec.ofNat 64 f.vlane), (1, 1, BitVec.ofNat 64 f.plane), (2, 1, BitVec.ofNat 64 f.crew),
        (7, 1, BitVec.ofNat 64 f.arch.depth), (24, 1, BitVec.ofNat 64 f.arch.wbase), (25, 1, f.arch.pword.setWidth 64),
        (27, 1, f.arch.fflags.setWidth 64), (28, 1, f.arch.frm.setWidth 64), (30, 2, BitVec.ofNat 64 f.arch.gwct),
        (32, 1, f.arch.cause.setWidth 64), (33, 1, f.arch.epc.setWidth 64), (34, 2, f.arch.tval),
        (6, 1, BitVec.ofNat 64 (s.slotOf f).prio), (26, 1, BitVec.ofNat 64 f.arch.repc),
        (31, 2, BitVec.ofNat 64 (s.die (dieOfHearth (s.hearthOf f))).clock),
        (36, 1, BitVec.ofNat 64 (s.recoveryOf f).replay), (37, 2, BitVec.ofNat 64 (s.recoveryOf f).rps),
        (38, 2, BitVec.ofNat 64 (s.recoveryOf f).rpo), (39, 1, BitVec.ofNat 64 (s.recoveryOf f).rpt),
        (3, 2, BitVec.ofNat 64 (s.cohortOf f).number), (4, 1, BitVec.ofNat 64 (s.hearthOf f)), (5, 1, BitVec.ofNat 64 (s.ctxOf f)),
        (29, 2, BitVec.ofNat 64 (s.ltimeAt (dieOfHearth (s.hearthOf f))))] →
      s.Gives f (.movs m d n) m.c 1 24 (f.wr d ((List.range k).map fun j => BitVec.ofNat 32 (v.toNat / 2 ^ (32 * j)))) [] 0) ∧
    (s.Runs f (.movs m d n) m.g → ∀ i,
      (i < 8 → n.toNat = 8 + i → s.Gives f (.movs m d n) m.c 1 24 (f.wr d [f.arch.levels.getD i 0]) [] 0) ∧
      (i < 8 → n.toNat = 16 + i → s.Gives f (.movs m d n) m.c 1 24 (f.wr d [f.arch.extents.getD i 0]) [] 0) ∧
      (i < 4 → n.toNat = 40 + i → s.Gives f (.movs m d n) m.c 1 24 (f.wr d [(f.arch.spaces.getD i 0).setWidth 32]) [] 0)) ∧
    (s.Runs f (.movs m d n) m.g → n = 35 → ∀ w, (s.cohortOf f).crew? f.crew = some w →
      s.Gives f (.movs m d n) m.c 1 24 (f.wr d [w.tgprog.setWidth 32, (w.tgprog >>> 32).setWidth 32]) [] 0) ∧
    (s.Runs f (.movs m d n) m.g → ∃ ws, (ws.length = 1 ∨ ws.length = 2) ∧ s.Gives f (.movs m d n) m.c 1 24 (f.wr d ws) [] 0) ∧
    (s.Runs f (.movw m n a) m.g →
      (n.toNat ∈ [26, 32, 33, 34, 35] → f.arch.handler = false → s.Traps f (.movw m n a) (mkCause 5 0) (n.setWidth 64)) ∧
      (n = 25 → s.Leaves f (.movw m n a) m.c 1 [.sreg 25 ((f.V a).setWidth 64)]
        { f.arch with pc := f.arch.pc + 1, pword := (f.V a).setWidth 8 ||| 0x80 }) ∧
      (n = 27 → s.Leaves f (.movw m n a) m.c 1 [.sreg 27 ((f.V a).setWidth 64)]
        { f.arch with pc := f.arch.pc + 1, fflags := (f.V a).setWidth 5 }) ∧
      (n = 33 → f.arch.handler = true → s.Leaves f (.movw m n a) m.c 1 [.sreg 33 ((f.V a).setWidth 64)]
        { f.arch with pc := f.arch.pc + 1, epc := f.V a }) ∧
      (n = 26 → f.arch.handler = true → s.Leaves f (.movw m n a) m.c 1 [.sreg 26 ((f.V a).setWidth 64)]
        { f.arch with pc := f.arch.pc + 1, repc := (f.V a).toNat % 128 }) ∧
      (n = 28 → s.Leaves f (.movw m n a) m.c 1 [.sreg 28 ((f.V a).setWidth 64)]
        { f.arch with pc := f.arch.pc + 1, frm := (f.V a).setWidth 2 }) ∧
      (n = 32 → f.arch.handler = true → s.Leaves f (.movw m n a) m.c 1 [.sreg 32 ((f.V a).setWidth 64)]
        { f.arch with pc := f.arch.pc + 1, cause := (f.V a).setWidth 9 }) ∧
      (n = 34 → f.arch.handler = true → s.Leaves f (.movw m n a) m.c 1 [.sreg 34 (f.VP a)]
        { f.arch with pc := f.arch.pc + 1, tval := f.VP a }) ∧
      (n = 35 → f.arch.handler = true → s.Issues f (.movw m n a) m.c 1 [.sreg 35 (f.VP a)] ∧
        ∀ co w, s.cohort? f.cohort = some co → co.crew? f.crew = some w → ∃ c' w',
          (State.applyCrew f s (.sreg 35 (f.VP a))).cohort? f.cohort = some c' ∧ c'.crew? f.crew = some w' ∧
          w'.tgprog = f.VP a ∧ w'.masks = w.masks ∧ w'.rdvs = w.rdvs ∧ (State.applyCrew f s (.sreg 35 (f.VP a))).fibres = s.fibres) ∧
      (∀ i < 4, n.toNat = 40 + i → s.Leaves f (.movw m n a) m.c 1 [.sreg n.toNat ((f.V a).setWidth 64)]
        { f.arch with pc := f.arch.pc + 1, spaces := f.arch.spaces.set i ((f.V a).setWidth 16) }) ∧
      (((sregInfo n.toNat).map (·.2) ≠ some 2 ∨ f.arch.handler = true) →
        ∃ v, s.Issues f (.movw m n a) m.c 1 [.sreg n.toNat v]))

/-- R386 and R387: the services and `tlbi` release, then wait for their reply; poison in the record of service 1 that stands as it issues is the
word's own cause (R38; a choice of the model's, log 35). Service 2 begins its release and, once the release is performed, raises the software
cause that V(0) names, else 11.05, at the head of its group, whose other effects are discarded (the order is the model's choice, log 54). A
number above 2 raises 11.04 at once, without a release (the model's choice, log 97). `tret` in handler mode takes its PC from %epc and leaves
handler mode, and raises 9.06 outside it. -/
def Obligations.ServicesTranslationsAndReturn : Prop :=
  ∀ (s : State) (f : Fibre) (a : RegIx),
    (∀ m : Mods LitSys,
      let l := m.body .dflt
      let v := f.V 0
      let g : GAddr := ⟨f.arch.spaces.getD 0 0, f.VP 0⟩
      let ga : GAddr := ⟨f.arch.spaces.getD 0 0, f.VP a⟩
      (s.Runs f (.svcVersion m) m.g → s.Issues f (.svcVersion m) m.chains m.words [.release .dev, .svc 0 (f.abs 0) ⟨0, 0⟩]) ∧
      (∀ t, s.Runs f (.svcRecord m) m.g → s.Passes f g 8 false t →
        (s.poisoned t 32 = false → s.Issues f (.svcRecord m) m.chains m.words [.release .dev, .svc 1 (f.abs 0) g]) ∧
        (s.poisoned t 32 = true → s.Traps f (.svcRecord m) (mkCause 10 0) g.off)) ∧
      (s.Runs f (.svcCause m) m.g →
        (l.imm ≠ 2 → s.Traps f (.svcCause m) (mkCause 11 4) (l.imm.setWidth 64)) ∧
        (l.imm = 2 → ∀ c : Cause, v.toNat < 512 → c = v.setWidth 9 → softwareCause c = true →
          s.TrapsReleased f (.svcCause m) .dev c (f.VP 2)) ∧
        (l.imm = 2 → ¬(v.toNat < 512 ∧ softwareCause (v.setWidth 9) = true) →
          s.TrapsReleased f (.svcCause m) .dev (mkCause 11 5) (v.setWidth 64))) ∧
      (s.Runs f (.tlbi m a) m.g →
        (spaceKind ga.space = 0 → spaceNum ga.space = 0 → s.Issues f (.tlbi m a) m.chains m.words [.release l.scope, .tlbi l.scope ga]) ∧
        (spaceKind ga.space = 3 ∨ (spaceKind ga.space = 0 ∧ spaceNum ga.space ≠ 0) →
          s.Traps f (.tlbi m a) (mkCause 3 8) (ga.space.setWidth 64)) ∧
        (spaceKind ga.space = 1 ∨ spaceKind ga.space = 2 → s.Traps f (.tlbi m a) (mkCause 3 10) ga.off))) ∧
    (∀ m : Plain, s.Runs f (.tret m) m.g →
      (f.arch.handler = true → s.Leaves f (.tret m) m.c 1 [.tret] { f.arch with pc := f.arch.epc, handler := false }) ∧
      (f.arch.handler = false → s.Traps f (.tret m) (mkCause 9 6) 0))

/-- R386, R403 and R404: `rpmark` releases at `.rcv`, then closes the open point; `rpqry` and `rdtm` add their effects, and `rdtm`, alone in
its group with no load and no store outstanding and no release or acquire pending, writes %ltime to its pair. -/
def Obligations.RecoveryAndTimeWords : Prop :=
  ∀ (s : State) (f : Fibre) (m : Plain) (d a : RegIx),
    (s.Runs f (.rpmark m) m.g → s.Issues f (.rpmark m) m.c 1 [.release .rcv, .rpmark]) ∧
    (s.Runs f (.rpqry m d a) m.g → s.Issues f (.rpqry m d a) m.c 1 [.rpqry (f.abs d) (f.VP a)]) ∧
    (s.Runs f (.rdtm m d) m.g → s.Issues f (.rdtm m d) m.c 1 [.rdtm (f.abs d)] ∧
      (m.c = false → s.run.group = none → f.ld = 0 → f.st = 0 → f.exited = false → f.order = none → s.acquiring f = false →
        (∀ p ∈ f.pend, p.src ≠ .op s.run.nextOp) →
        ∃ g, (s.adds f false 1 [.rdtm (f.abs d)]).fibre? f.uid = some g ∧
          ∀ r, r < f.arch.regs.length → g.arch.regs.getD r 0 =
            let t := s.ltimeAt (dieOfHearth (s.hearthOf f))
            if r = f.abs d then BitVec.ofNat 32 t else if r = f.abs d + 1 then BitVec.ofNat 32 (t / 2 ^ 32) else f.arch.regs.getD r 0))

/-! ### Groups, guards, steps, causes and reset -/

/-- R85: a word whose guard reads false issues and has no effect: it adds nothing to its group, and alone in its group it moves the PC past
itself and changes nothing else. The bits are those of the word's own encoding; `rep` has a rule of its own. -/
def Obligations.GuardedFalseWordHasNoEffect : Prop :=
  ∀ (s : State) (f : Fibre) (i : Instr) (e : Enc), i.enc = some e → (∀ m n k, i ≠ .rep m n k) → s.issuer = some f → f.guard e.raw.g = false →
    let chains := match e.lit with | some l => l.1 | none => e.raw.c
    let words := match e.lit with | some _ => 2 | none => 1
    exec i s = .next (s.adds f chains words []) ∧
    (chains = false → s.run.group = none → s.Wrote (s.adds f chains words []) f words [] [] 0)

/-- A step runs the decoded word (R38, R82, R105): with a fibre that issues, at the head of a group that passes its checks and opens no
repetition, `step` is `exec` of the instruction that the first word, with the word after it, decodes to; and at a later place of an open
group, of the word at that place. The counter of the free values moves on (the model's own, log 3). -/
def Obligations.StepRunsTheDecodedWord : Prop :=
  ∀ (s : State) (f : Fibre) (w : Word) (i : Instr), s.issuer = some f → f.exited = false →
    let og := s.openGroup f
    og.repeating = none → f.groupWords[og.words]? = some w → wordClass w ≠ 30 → decode w f.groupWords[og.words + 1]? = .ok i →
    (og.words = 0 → groupFault (f.arch.pc.toNat % 3) (f.arch.repc == 0) f.groupWords = none) →
    step s = exec i { s with run := { s.run with tick := s.run.tick + 1, group := some { og with pin := none } } }

/-- Table 5.1, R80: words written out from the encodings, one of several families, decode to the instructions that they stand for. -/
def Obligations.WrittenWordsDecode : Prop :=
  decode 0x00482077 none = .ok (.sub ⟨false, 7, none⟩ 8 8 7) ∧
  decode 0x443FFFD9 none = .ok (.br ⟨false, 9⟩ 0x3FFFD) ∧
  decode 0x61000007 none = .ok (.tret ⟨false, 7⟩) ∧
  decode 0x48850007 none = .ok (.trap ⟨false, 7⟩ 5) ∧
  decode 0x4940000F none = .ok (.nop ⟨false, 15⟩) ∧
  decode 0xFFFFFFFF none = .error (.word 31) ∧
  decode 0xB1D10877 (some 0x7C0C8000) = .ok (.atomCas ⟨true, 7, some ⟨false, ⟨.s32, .ar, .coh, 0, 0⟩⟩⟩ 17 2 7)

/-- R382: a cause taken in a fibre outside handler mode whose launch has a handler writes %cause, %epc, %tval and %handler and moves the PC to
the handler's entry; every other register, predicate, flag and space of it, every other fibre, every cohort and all of memory stay. In
handler mode, or with no handler, the fibre ends, and its record goes to its context's error ring. Model's choice: of what the fibre waited
for, a service stays and the rest (a presentation, an engine read, a wait of the group) is withdrawn (log 67). -/
def Obligations.CausesEnterTheHandlerOrEndTheFibre : Prop :=
  ∀ (s : State) (f : Fibre) (c : Cause) (tval : DWord) (pc h : Word), s.fibre? f.uid = some f → (s.slotOf f).record.handler = h →
    let t := s.takeCause f.uid c tval pc
    (f.arch.handler = false → h ≠ 0xFFFFFFFF →
      t.fibre? f.uid = some { f with
        arch := { f.arch with cause := c, epc := pc, tval := tval, handler := true, pc := h }
        waits := f.waits.filter Wait.served } ∧
      (∀ v, v ≠ f.uid → t.fibre? v = s.fibre? v) ∧ t = { s with fibres := t.fibres }) ∧
    (f.arch.handler = true ∨ h = 0xFFFFFFFF →
      (∀ g, t.fibre? f.uid = some g → g.exited = true ∧ g.arch = f.arch) ∧
      t.mem = (s.writeRecord (s.ctxOf f) (s.faultRecord f f.arch.handler (!f.arch.handler) (c.toNat / 32 == 10) c tval pc)).1.mem)

/-- R372, R422, R432 to R434: what power-on leaves, where the spec gives it: READY and RESULT 0, the stage word 0, the lease clock 0, no
context, no bound queue, no launch, no fibre, the package powered, its power limit 2600 W; and the three memories are in their canonical
form. Model's choice: the 4,032 bytes of the window's buffer begin at 0 (log 12). -/
def Obligations.ResetLeavesTheStatedState : Prop :=
  State.reset.canonical ∧ State.reset.window = ⟨false, 0, [], none⟩ ∧ State.reset.pkg.stage = 0 ∧ State.reset.pkg.powered = true ∧
  State.reset.pkg.limitW = 2600 ∧ State.reset.ltime = 0 ∧ State.reset.fibres = [] ∧ State.reset.cohorts = [] ∧
  (∀ n, State.reset.context? n = none) ∧ (∀ n, (State.reset.queue n).state = .unbound) ∧ (∀ n, (State.reset.slot n).busy = false) ∧
  (∀ n, ((State.reset.die n).store = [] ∧ (State.reset.die n).watches = [] ∧ (State.reset.die n).resetting = false))

/-- An invariant that every step keeps: the memories of the device, of the host and of the peers stay in their canonical form (addresses
strictly rising, no entry that an unlisted address reads as), so that memories that read alike are equal. The form is the model's own. -/
def Obligations.EveryStepKeepsTheMemoriesCanonical : Prop :=
  ∀ s t : State, s.canonical → step s = .next t → t.canonical

/-- R80, R86, R104, Tables 5.1, 5.3, 6.1 to 6.3 and 18.1: the words of every well-formed instruction that an encoding holds decode to that
instruction, with every operand at every value that the encoding admits. -/
def Obligations.EveryInstructionDecodesFromItsWords : Prop :=
  ∀ i : Instr, i.wf = true → i.enc.isSome = true → decodeWords (encode i) = .ok i

/-- R110, R113: rounding in the nine formats with an exponent field, under the modes other than `.rs`. The magnitude n × 2^q is |x| itself or
one of the two neighbours of |x| in the set, continued past the largest finite magnitude; the mode chooses as R110 says, a tie goes to the
even encoding; past the maximum the result overflows; tininess is that of the value rounded with an unbounded exponent range. -/
def Obligations.RoundingChoosesByMode : Prop :=
  ∀ (f : FFmt), f ∈ [fmtF64, fmtF32, fmtH16, fmtBf16, fmtE4m3, fmtE5m2, fmtE3m2, fmtE2m3, fmtE2m1] →
    ∀ (mode : Rnd) (rand m : Nat) (e : Int) (neg st ftz : Bool) (x : ℚ), mode ≠ .rs → m ≠ 0 → Places x m e st →
    let r := f.round mode rand neg m e st
    let a := |x|
    let v : ℚ := r.n * (2 : ℚ) ^ r.q
    let u : ℚ := (2 : ℚ) ^ r.q
    let top : ℚ := (2 : ℚ) ^ (f.emax - f.mb)
    let least : ℚ := (2 : ℚ) ^ f.emin
    let down : Prop := mode = .rz ∨ (mode = .ru ∧ neg = true) ∨ (mode = .rd ∧ neg = false)
    let up : Prop := (mode = .ru ∧ neg = false) ∨ (mode = .rd ∧ neg = true)
    (r.ovf = false →
      |v - a| < u ∧ (down → v ≤ a) ∧ (up → a ≤ v) ∧ (mode = .rne → |v - a| ≤ u / 2 ∧ (|v - a| = u / 2 → r.n % 2 = 0)) ∧
      (r.inexact = true ↔ v ≠ a) ∧ f.qmin ≤ r.q ∧ r.q ≤ f.emax - f.mb ∧ (r.q = f.qmin ∨ 2 ^ f.mb ≤ r.n) ∧ r.n ≤ 2 ^ (f.mb + 1)) ∧
    (down → (r.ovf = true ↔ (f.maxN + 1) * top ≤ a)) ∧ (up → (r.ovf = true ↔ f.maxN * top < a)) ∧
    (mode = .rne → (r.ovf = true ↔ (f.maxN + 1 / 2) * top < a ∨ (a = (f.maxN + 1 / 2) * top ∧ f.maxN % 2 = 1))) ∧
    (down → (r.tiny = true ↔ a < least)) ∧ (up → (r.tiny = true ↔ a ≤ least - least / 2 ^ (f.mb + 1))) ∧
    (mode = .rne → (r.tiny = true ↔ a < least - least / 2 ^ (f.mb + 2))) ∧
    f.finish mode ftz (.num neg m e st) =
      (if r.ovf then (f.signBit neg + (if mode = .rne ∨ up then f.maxCode + 1 else f.maxCode), fOF ||| fNX)
       else if r.tiny && ftz then (f.signBit neg, fUF ||| fNX)
       else (f.signBit neg + ((r.q - f.qmin).toNat * 2 ^ f.mb + r.n), (if r.tiny && r.inexact then fUF else 0) ||| (if r.inexact then fNX else 0)))

/-! ### The part's own events: fibres and their accesses (R64 to R68, R81, R191, R200 to R222, R281, R386, R437)

An event takes effect where its condition holds; each statement names the condition of its event and what the event then does. -/

/-- R84, R191, R437, R201, R212: a result in its latency lands; a pipe's interval ends; a load or an atomic that is performed returns, writes
the registers that are still its to write, lowers ld and raises %gwct; a load that reads at the L2, its stack not in self-refresh (R434), reads what stands in memory. -/
def Obligations.ResultsAndLoadsLand : Prop :=
  ∀ s : State,
    (∀ (uid : Nat) (f : Fibre), s.fibre? uid = some f → (∃ p ∈ f.pend, p.src = .lane) →
      ∃ p ∈ f.pend, p.src = .lane ∧ ∃ t, exec (.resultWriteback uid) s = .next t ∧ t.fibre? uid = some { f with pend := f.pend.erase p } ∧
        (∀ v, v ≠ uid → t.fibre? v = s.fibre? v) ∧ t = { s with fibres := t.fibres }) ∧
    (∀ (h g l : Nat) (cls : BitVec 5), (g, l, cls.toNat) ∈ (s.hearth h).pipes →
      exec (.pipeIntervalEnd h g l cls) s =
        .next (s.setHearth { s.hearth h with pipes := (s.hearth h).pipes.erase (g, l, cls.toNat) })) ∧
    (∀ (op : Nat) (evict : Bool) (o : MemOp) (f : Fibre), s.op? op = some o → s.fibre? o.uid = some f → f.exited = false →
      let lands (evict : Bool) (v : Nat) : Prop := ∃ t g, exec (.loadReturn op evict) s = .next t ∧ t.fibre? o.uid = some g ∧
        g.ld = f.ld - 1 ∧ g.arch.gwct = max f.arch.gwct o.gwct ∧ g.arch.pc = f.arch.pc ∧ t.mem = s.mem ∧
        ∀ r, r < f.arch.regs.length → g.arch.regs.getD r 0 =
          if o.req.dst ≤ r ∧ r < o.req.dst + o.req.ty.regs ∧ ∃ p, f.pend.find? (·.src == .op o.id) = some p ∧ r ∈ p.regs
          then (o.req.ty.words v).getD (r - o.req.dst) 0 else f.arch.regs.getD r 0
      ((o.req.kind = .load ∨ ∃ k, o.req.kind = .atom k) → o.performed = true → o.poison = false → lands evict o.value) ∧
      (∀ pa, o.req.kind = .load → o.performed = false → o.poison = false → s.olderOverlap o (fun _ => true) = false → o.req.target = .dev pa →
        s.stackUp pa = true → pa % 64 + o.req.size ≤ 64 → s.poisoned o.req.target o.req.size = false → (s.slotOf f).node = none →
        lands true (s.mem.readLE pa o.req.size)))

/-- R212, R221, R239: a store, an atomic, a write-back or a join decrement is performed at its home as one event: the bytes it writes stand
in memory, every other byte stays, and the value that it found is kept; then it is acknowledged, which lowers st and raises %gwct. One that
writes where continuations watch evaluates their join watches too: those whose counter is 0 or less leave (R281). The operations of a contained
node, whose writes are staged, are apart. -/
def Obligations.WritesArePerformedAtTheirHome : Prop :=
  ∀ (s : State) (op : Nat) (o : MemOp), s.op? op = some o →
    (∀ pa, o.req.target = .dev pa → o.req.kind.writes = true → o.performed = false → o.ready = true → s.stackUp pa = true →
      s.copying pa o.req.size = false → s.run.fired = [] →
      s.olderOverlap o (fun q => !q.performed) = false → s.poisoned (.dev pa) o.req.size = false → o.poison = false →
      (s.slot (s.opSlot o)).node = none → (o.req.kind = .joinDec → o.req.ty = .s64) →
      let n := o.req.size
      let old := s.mem.readLE pa n
      let new (i : Nat) : Option Byte := match o.req.kind with
        | .store => some (BitVec.ofNat 8 (o.req.data / 256 ^ i))
        | .atom k => (atomVal k o.req.ty old o.req.data o.req.expect).map fun v => BitVec.ofNat 8 (v / 256 ^ i)
        | .joinDec => some (BitVec.ofNat 8 ((old + 2 ^ 64 - o.req.data) % 2 ^ 64 / 256 ^ i))
        | .writeBack mask => if mask.testBit i then some (BitVec.ofNat 8 (o.req.data / 256 ^ i)) else none
        | .load => none
      ∃ t q, exec (.homeWritePerformed op) s = .next t ∧ t.op? op = some q ∧ q.performed = true ∧ q.value = old ∧ q.req = o.req ∧
        t.peerMem = s.peerMem ∧
        ((∀ w ∈ s.joinWatches, o.req.hits pa w.pa = false) → t.hostMem = s.hostMem ∧ t.joinWatches = s.joinWatches ∧
          ∀ a, t.mem.get a = if pa ≤ a ∧ a < pa + n then (new (a - pa)).getD (s.mem.get a) else s.mem.get a) ∧
        (o.req.kind = .joinDec → ∀ w ∈ s.joinWatches, w.pa = pa → (s.slot w.slot).node = none →
          ((BitVec.ofNat 64 (old + 2 ^ 64 - o.req.data) : DWord).toInt ≤ 0 → w ∉ t.joinWatches) ∧
          ((∀ v ∈ s.joinWatches, o.req.hits pa v.pa = true → v.pa = pa ∧ (s.slot v.slot).node = none) →
            0 < (BitVec.ofNat 64 (old + 2 ^ 64 - o.req.data) : DWord).toInt → w ∈ t.joinWatches))) ∧
    (∀ f, o.performed = true → o.req.kind.writes = true → o.req.kind.returns = false → s.fibre? o.uid = some f →
      ∃ t g, exec (.storeAcknowledge op) s = .next t ∧ t.fibre? o.uid = some g ∧ g.st = (if o.req.kind = .store then f.st - 1 else f.st) ∧
        g.arch = { f.arch with gwct := max f.arch.gwct o.gwct } ∧ t.mem = s.mem ∧ t.hostMem = s.hostMem ∧ t.peerMem = s.peerMem)

/-- R214, R216, R396, R400, R401: a release short of `.rcv` ends once every write of its fibre is acknowledged, its second step is done and
the lease clock has reached %gwct by the skew, and the fibre's loads then have their values; the sequencer of a scope instance accepts its
`fence.sc` words one by one in the order of their arrival, and an accepted one's acknowledgement performs the fence; a granule written to both
mirrors is durable unless a store has overtaken it; a copied unit stands in the open slots of both mirrors and is no longer pending, and the
writes that its copy held at their home follow; the last of the four seal writes seals the point, and its seal is valid in both mirrors.
Model's choice: a release does not end before every load of its fibre has its value (log 31). -/
def Obligations.ReleasesFencesCopiesAndSeals : Prop :=
  ∀ s : State,
    (∀ (uid : Nat) (f : Fibre) (sc : Scope), s.fibre? uid = some f → f.order = some sc → sc ≠ .rcv →
      let now := s.ltimeAt (dieOfHearth (s.hearthOf f))
      (s.cohortOf f).run ≠ .suspended → (∀ o ∈ s.ops, o.uid = f.uid → o.req.kind = .load → o.performed = false → o.req.target.linked s = true) →
      (Scope.nod.rank ≤ sc.rank → s.mustCommit (s.cohortOf f).slot = false) →
      (sc = .fib ∨ (s.unacked f.uid = false ∧ f.arch.gwct + 8 ≤ now ∧
        (sc.rank < Scope.hth.rank ∨ (f.flushed = true ∧ s.cohortFlights f.cohort = [] ∧ (s.cohortOf f).flushed + 8 ≤ now)))) →
      ∃ t g, exec (.releaseWaitEnd uid) s = .next t ∧ t.fibre? uid = some g ∧ g.order = none ∧ g.arch = f.arch ∧ t.mem = s.mem ∧
        ∀ q ∈ t.ops, q.uid = uid → q.req.kind = .load → q.performed = true) ∧
    (∀ (uid : Nat) (f : Fibre) (a : Acquire) (sc : Scope), s.fibre? uid = some f → f.acq = some a → a.seq = some sc →
      let k := sequencerKey sc (s.hearthOf f)
      let q := s.sequencer k
      (uid ∉ q.accepted → q.arrived.head? = some uid →
        ∃ t, exec (.fenceScSequenced uid) s = .next t ∧ t.sequencer k = ⟨k, q.arrived.tail, q.accepted ++ [uid], q.count + 1⟩ ∧
          (∀ j, j ≠ k → t.sequencer j = s.sequencer j) ∧ t = { s with sequencers := t.sequencers }) ∧
      (uid ∉ q.accepted → q.arrived.head? ≠ some uid → exec (.fenceScSequenced uid) s = .next s) ∧
      (uid ∈ q.accepted →
        ∃ t, exec (.fenceScSequenced uid) s = .next t ∧ t.fibre? uid = some { f with acq := if a.ops = [] then none else some { a with seq := none } } ∧
          t.sequencer k = ⟨k, q.arrived, q.accepted.filter (· != uid), q.count⟩ ∧ (∀ j, j ≠ k → t.sequencer j = s.sequencer j) ∧
          t = { s with fibres := t.fibres, sequencers := t.sequencers })) ∧
    (∀ (uid unit granule : Nat) (g : GranuleWrite),
      s.granules.find? (fun g => g.uid == uid && g.unit == unit && g.granule == granule) = some g →
      (∀ f, s.fibre? uid = some f → f.durable = true) →
      ∃ t, exec (.rcvGranuleDurable uid unit granule) s = .next t ∧ t.granules = s.granules.erase g ∧ t.mem = s.mem ∧
        t.contexts = if g.stale then s.contexts
          else s.contexts.map fun c => { c with recovery := c.recovery.updUnit unit fun u => { u with durable := u.durable ||| 2 ^ granule } }) ∧
    (∀ (ctx pa : Nat) (c : Context) (p : Point), s.context? ctx = some c → c.replaying = none → s.emberUp = true → c.recovery.sealing = some p →
      pa ∈ p.pending →
      (∀ q ∈ p.pending, sideOf q = sideOf pa → pa ≤ q) →
      let mask := ((p.copy.find? (·.1 == pa)).map (·.2)).getD 0
      ∃ t c', exec (.emberUnitCopyComplete ctx pa) s = .next t ∧ t.context? ctx = some c' ∧
        (∀ a, (∀ h ∈ s.heldWrites, a < h.pa ∨ h.pa + h.bytes.length ≤ a) → t.mem.get a = s.mem.get a) ∧
        (∀ q ∈ c'.recovery.points, q.n = p.n → pa ∉ q.pending) ∧
        (∀ u ∈ c.recovery.units, u.mapped = true → u.pa = pa → ∃ v ∈ c'.recovery.units, v.pa = pa ∧ v.openSlot = u.openSlot ∧ ∀ m i, m < 2 → i < 4096 →
          Memory.get (v.image m u.openSlot) i = if mask.testBit (i / 64) then s.mem.get (pa + i) else Memory.get (u.image m u.openSlot) i)) ∧
    (∀ (ctx : Nat) (c : Context) (p : Point) (x0 x1 : Seal), s.context? ctx = some c → c.replaying = none → s.emberUp = true →
      c.recovery.sealing = some p →
      p.pending = [] →
      (c.recovery.seals.find? fun x => x.mirror == 0 && x.slot == p.n % 2) = some x0 →
      (c.recovery.seals.find? fun x => x.mirror == 1 && x.slot == p.n % 2) = some x1 →
      let pages (m : Nat) := pageListBytes c.recovery m p
      let block (m : Nat) := sealBytes ctx p (pages m) (p.n % 2)
      x0.pages = pages 0 → x1.pages = pages 1 → x0.copies = [block 0, block 0] → x1.copies.headD [] = block 1 →
      ∃ t c', exec (.sealWrite ctx) s = .next t ∧ t.mem = s.mem ∧ t.context? ctx = some c' ∧ c'.recovery.rps = p.n ∧
        (∀ q ∈ c'.recovery.points, q.n = p.n → q.state = .sealed) ∧
        sealValid ctx c'.recovery true 0 p = true ∧ sealValid ctx c'.recovery true 1 p = true)

/-- R205, R211, R414: a lease ends at its expiry and the copy leaves, or the mapped line is unfilled again with its dirty bytes; a wanted
mapped line fills from memory but for its dirty bytes and those that its write-backs have still to write. R77, R248, R301, R317: a stall or a rendezvous that outlasts its launch's limit raises its cause
in the fibre, with the offset or the tag in %tval; a command that outlasts it, its line still not full, halts. -/
def Obligations.LeasesLinesAndTimeouts : Prop :=
  ∀ s : State,
    (∀ h line, ∃ t, exec (.leaseExpiry h none line) s = .next t ∧
      (∀ l, l ∈ (t.hearth h).l1 ↔ l ∈ (s.hearth h).l1 ∧ (l.line ≠ line ∨ s.ltimeAt (dieOfHearth h) < l.expiry)) ∧
      (∀ k, k ≠ h → t.hearth k = s.hearth k) ∧ t = { s with hearths := t.hearths }) ∧
    (∀ h u n c, s.cohort? u = some c → c.hearth = h → (c.line n).mapped.isSome = true → (c.line n).full = true →
      (c.line n).expiry ≤ s.ltimeAt (dieOfHearth h) →
      ∃ t, exec (.leaseExpiry h (some u) n) s = .next t ∧ t.cohort? u = some (c.setLine { c.line n with full := false }) ∧
        t = { s with cohorts := t.cohorts }) ∧
    (∀ u n c a pa, s.cohort? u = some c → c.run = .running → (c.line n).mapped = some a →
      (c.line n).filled (s.cohortTime c) = false → s.fillWanted c n = true → s.translate c.hearth (s.slot c.slot).ctx 3 a a.off = .ok (.dev pa) →
      s.stackUp pa = true → s.poisoned (.dev pa) 128 = false → (s.slot c.slot).node = none →
      ∃ t c', exec (.mappedLineFill u n) s = .next t ∧ t.mem = s.mem ∧ t.cohort? u = some c' ∧ (c'.line n).full = true ∧
        (c'.line n).dirty = (c.line n).dirty ∧ (c'.line n).expiry = s.ltimeAt (dieOfHearth c.hearth) + (s.slot c.slot).leaseNs ∧
        ∀ i, Memory.get c'.stash i = if 128 * n ≤ i ∧ i < 128 * n + 128 ∧ ((c.line n).dirty ||| s.lineFlight u n a).testBit (i - 128 * n) = false
          then s.mem.get (pa + (i - 128 * n)) else Memory.get c.stash i) ∧
    (∀ uid f o n h, s.fibre? uid = some f → (f.waits.findSome? fun w => match w with | .emptyLine _ n => some n | _ => none) = some n →
      s.runs f.cohort = true → f.exited = false → f.stalled = some o → (s.slotOf f).record.stall ≠ 0 → n + (s.slotOf f).record.stall ≤ s.ltime → f.arch.handler = false →
      (s.slotOf f).record.handler = h → h ≠ 0xFFFFFFFF →
      ∃ t g, exec (.stashStallTimeout uid) s = .next t ∧ t.fibre? uid = some g ∧
        g.arch = { f.backUp.arch with cause := mkCause 7 0, epc := f.head, tval := BitVec.ofNat 64 o, handler := true, pc := h }) ∧
    (∀ cohort crew tag c w r p f h, s.cohort? cohort = some c → c.run = .running → c.crew? crew = some w → (s.slot c.slot).record.watchdog ≠ 0 →
      (w.rdvs.find? fun r => r.tag == tag && decide (r.since + 1000 * (s.slot c.slot).record.watchdog ≤ s.ltime)) = some r → r.members = [p] →
      tag ≠ 256 → s.fibre? p.uid = some f → f.exited = false → f.arch.handler = false → (s.slotOf f).record.handler = h → h ≠ 0xFFFFFFFF →
      ∃ t g, exec (.rendezvousWatchdogExpiry cohort crew tag) s = .next t ∧ t.fibre? p.uid = some g ∧
        g.arch = { f.arch with cause := mkCause 8 2, epc := p.pc, tval := BitVec.ofNat 64 tag, handler := true, pc := h }) ∧
    (∀ hearth c, (s.cmds.find? fun c => c.hearth == hearth && s.stallOver c) = some c → c.op.isRead = false →
      ∃ t, exec (.engineStashStallTimeout hearth) s = .next t ∧ (∀ d ∈ t.cmds, d.id ≠ c.id) ∧
        t.mem = (s.engineRecord c 0x06 (stashDetail (128 * (c.nextLine.getD 0)))).mem)

/-- R81, R162, R171, R282, R386: a sleeper wakes at its time and a device barrier's window at its own; a `jwait` that waits in place reads its
counter again once a lease length has passed: 0 ends the wait, a negative value raises 11.03, else it waits on; a packet fetched stands ready in
its fibre; a service replies in its pair, and `tlbi` ends with the page dropped from every translation cache that its scope covers. -/
def Obligations.WakeUpsFetchesAndReplies : Prop :=
  ∀ s : State,
    (∀ uid f n, s.fibre? uid = some f → Wait.sleep n ∈ f.waits → n ≤ s.ltimeAt (dieOfHearth (s.hearthOf f)) →
      ∃ t g, exec (.sleepWake uid) s = .next t ∧ t.fibre? uid = some g ∧ Wait.sleep n ∉ g.waits ∧ g.arch = f.arch ∧
        (∀ v, v ≠ uid → t.fibre? v = s.fibre? v) ∧ t = { s with fibres := t.fibres }) ∧
    (∀ slot n b w, s.devBar? slot n = some b → (b.wakes.find? fun w => decide (w.1 ≤ s.ltime)) = some w →
      ∃ t, exec (.devBarrierWakeWindow slot n) s = .next t ∧ t.devBar? slot n = some { b with wakes := b.wakes.erase w } ∧
        (∀ u f, u ∈ w.2 → s.fibre? u = some f → t.fibre? u = some { f with waits := f.waits.erase (.devBar n) }) ∧
        (∀ u, u ∉ w.2 → t.fibre? u = s.fibre? u)) ∧
    (∀ uid f a since pa, s.fibre? uid = some f →
      (f.waits.findSome? fun w => match w with | .jwait a since => some (a, since) | _ => none) = some (a, since) →
      since + (s.slotOf f).leaseNs ≤ s.ltime → (f.waits.any fun w => match w with | .walk _ | .parked _ => true | _ => false) = false → f.exited = false → f.deferred = [] →
      (s.cohortOf f).run = .running → s.translate (s.hearthOf f) (s.ctxOf f) 0 a a.off = .ok (.dev pa) →
      s.stackUp pa = true → s.poisonedFor (s.slotOf f).node (.dev pa) 8 = false →
      let c : DWord := BitVec.ofNat 64 (s.targetNat (s.slotOf f).node (.dev pa) 8)
      let others := f.waits.filter fun w => match w with | .jwait _ _ => false | _ => true
      let leaves (p : Fibre → Prop) : Prop := ∃ t g, exec (.jwaitReread uid) s = .next t ∧ t.fibre? uid = some g ∧ t.mem = s.mem ∧ p g
      (c = 0 → leaves fun g => g = { f with waits := others }) ∧
      (∀ h, c.toInt < 0 → f.arch.handler = false → (s.slotOf f).record.handler = h → h ≠ 0xFFFFFFFF →
        leaves fun g => g.arch = { f.arch with cause := mkCause 11 3, epc := f.head, tval := c, handler := true, pc := h }) ∧
      (0 < c.toInt → leaves fun g => g = { f with waits := others ++ [.jwait a s.ltime] })) ∧
    (∀ uid f a since, s.fibre? uid = some f →
      (f.waits.findSome? fun w => match w with | .jwait a since => some (a, since) | _ => none) = some (a, since) →
      s.ltime < since + (s.slotOf f).leaseNs → exec (.jwaitReread uid) s = .next s) ∧
    (∀ uid f bs, s.fibre? uid = some f → f.exited = false →
      (f.waits.any fun w => match w with | .walk _ | .parked _ => true | _ => false) = false →
      (∀ p, f.ibuf = some p → p.number ≠ f.arch.pc.toNat / 3) → (s.cohortOf f).run = .running → uid ∉ s.run.issuing →
      s.fetchBytes f ((s.slotOf f).record.codeBase + 12 * (f.arch.pc.toNat / 3)) = .bytes bs →
      ∃ t, exec (.instructionFetchComplete uid) s = .next t ∧ t = { s with fibres := t.fibres } ∧
        t.fibre? uid = some { f with ibuf := some ⟨f.arch.pc.toNat / 3,
          (List.range 3).map fun i => BitVec.ofNat 32 (leNat ((bs.drop (4 * i)).take 4))⟩ }) ∧
    (∀ uid f name n dst a, s.fibre? uid = some f → f.exited = false →
      (f.waits.find? fun w => match w with | .svc .. => true | _ => false) = some (.svc name n dst a) →
      let replies (v : DWord) : Prop := ∃ t g, exec (.svcReply uid) s = .next t ∧ t.fibre? uid = some g ∧
        g.waits = f.waits.erase (.svc name n dst a) ∧ g.arch.pc = f.arch.pc ∧ ∀ r, r < f.arch.regs.length → g.arch.regs.getD r 0 =
          if (r = dst ∨ r = dst + 1) ∧ ∃ p, f.pend.find? (·.src == .op name) = some p ∧ r ∈ p.regs
          then (if r = dst then v.setWidth 32 else (v >>> 32).setWidth 32) else f.arch.regs.getD r 0
      (n = 0 → replies Config.romVersion) ∧
      (∀ s1 bs, n ≠ 0 → s.svcBytes f a = (s1, bs, false) →
        replies (if (s1.writeRecord (s1.ctxOf f) (s1.serviceRecord f bs)).2 then 0 else 1))) ∧
    (∀ uid f sc a, s.fibre? uid = some f → (f.waits.find? fun w => match w with | .tlbi .. => true | _ => false) = some (.tlbi sc a) →
      let h := s.hearthOf f
      ∃ t, exec (.tlbiComplete uid) s = .next t ∧ t.fibre? uid = some { f with waits := f.waits.erase (.tlbi sc a) } ∧ t.mem = s.mem ∧
        (∀ k, (sc = .hth → k = h) → (sc = .die → dieOfHearth k = dieOfHearth h) →
          ∀ e ∈ (t.hearth k).tlb, e.covers (s.ctxOf f) (vaOf a) = false) ∧
        (∀ d, sc ≠ .hth → (sc = .die → d = dieOfHearth h) → ∀ e ∈ (t.die d).tlb, e.covers (s.ctxOf f) (vaOf a) = false))

/-- R63 to R69: a decision serves the next ready unit of its grate and issues every ready fibre of one key: a starved key first, else, where no
fibre is demoted, the key that most ready fibres hold; with no ready unit only time passes. At 3.4 GHz the second decision of a lane clock
serves the unit of the first, merged or not since, and passes over the fibres that issued in the first. -/
def Obligations.CensusIssuesTheMostHeldKey : Prop :=
  ∀ (s : State) (hearth grate : Nat), hearth < 192 → grate < 4 →
    let s1 := ((s.regroup hearth grate).elapse hearth grate).noteIdle hearth
    let h := s1.hearth hearth
    let clock := h.clock grate
    let issues (s2 : State) (u : IssueUnit) (past : List Nat) : Prop :=
      let rs := (s2.unitReady u).filter fun f => !past.contains f.uid
      (rs = [] → exec (.censusDecision hearth grate) s = .next s2) ∧
      (rs ≠ [] → ∃ t k, exec (.censusDecision hearth grate) s = .next t ∧ t.mem = s.mem ∧ t.hearths = s2.hearths ∧
        t.run.decision = some ⟨u.hearth, u.grate, u.slot, []⟩ ∧ t.run.issuing = (rs.filter fun f => keyOf f.groupWords == k).map (·.uid) ∧
        t.run.issuing ≠ [] ∧
        (∀ f ∈ rs, s2.starveLimit u < u.count (keyOf f.groupWords) →
          s2.starveLimit u < u.count k ∧ u.count (keyOf f.groupWords) ≤ u.count k) ∧
        ((∀ f ∈ rs, u.count (keyOf f.groupWords) ≤ s2.starveLimit u) → (∀ f ∈ s2.unitFibres u, f.demoted = false) →
          ∀ j, (rs.filter fun f => keyOf f.groupWords == j).length ≤ (rs.filter fun f => keyOf f.groupWords == k).length))
    let second : Prop := h.front = 1 ∧ h.cycle % 2 = 1 ∧ clock.cycle + 1 = h.cycle ∧ clock.crews ≠ []
    (¬second →
      (s1.nextUnit hearth grate = none → exec (.censusDecision hearth grate) s = .next s1) ∧
      (∀ u, s1.nextUnit hearth grate = some u →
        issues (s1.updHearth u.hearth fun h =>
          { h with pointers := h.pointers.set u.grate ((u.slot + 1) % 16) }.setClock ⟨u.grate, h.cycle, u.crews, []⟩) u [])) ∧
    (second →
      let found := s1.units.find? fun u => u.hearth == hearth && u.grate == grate && u.crews.any clock.crews.contains
      (found = none → exec (.censusDecision hearth grate) s = .next s1) ∧ (∀ u, found = some u → issues s1 u clock.issued))

/-! ### Launches and kindling (R46, R56, R266 to R276, R288, R411, R412) -/

/-- R266, R269, R270, R276, R288: a due queue forms a crew of its oldest records on the first hearth with room: record i starts as vlane i at
its entry, with its payload, depth and join; a spilled record that reads back sound moves into its die's store, and the block of an image in which
a continuation's record stood takes its bytes again; the record of a pending firing is made,
and its watch holds or is freed. (Halving, which a plain record of the instance holds off, is apart: R274. A crew that backfills a unit
beside others takes other lanes: R58, log 41.) Model's choice: a continuation's record may stand in a block of its own image, whose bytes are
put back (log 17). -/
def Obligations.GatherersStartAndMoveRecords : Prop :=
  ∀ s : State,
    (∀ die launch cls place unit h, let q := s.gatherQueue die launch cls place unit
      let rs := q.take 32
      let uid := s.run.nextUid
      q ≠ [] → s.live (s.slot launch).ctx = true → s.gatherDue q = true → s.gatherHearth launch cls place unit = some h →
      s.noPlain place unit = false → s.emberUp = true → (∀ r ∈ rs, r.kind ≠ 2 ∧ r.spill = none) →
      ∃ t, exec (.gatherCrew die launch cls place unit) s = .next t ∧
        ((∀ u ∈ s.units, u.hearth = h → 32 < (s.unitLive u).length + rs.length) →
          t.fibres = s.fibres ++ rs.zipIdx.map (fun (r, i) => r.fibre (uid + 1 + i) uid i)) ∧
        (∀ r i, (r, i) ∈ rs.zipIdx → ∃ f ∈ t.fibres, f = { r.fibre (uid + 1 + i) uid i with plane := f.plane }) ∧
        (∃ c ∈ t.cohorts, c.uid = uid ∧ c.hearth = h ∧ c.slot = launch ∧ c.gathered = true ∧ c.decl.regs = classRegs cls) ∧
        (∀ d, (t.die d).store = rs.foldl (fun l r => if dieOfHearth r.origin = d then l.erase r else l) (s.die d).store) ∧ t.mem = s.mem) ∧
    (∀ (r : KRecord) (uid cohort vlane : Nat), r.kind ≠ 1 → r.npay ≤ r.payload.length → r.payload.length ≤ r.regs →
      let f := r.fibre uid cohort vlane
      f.arch.pc = r.entry ∧ f.arch.depth = r.depth ∧ f.join = r.join ∧ f.arch.regs.length = r.regs ∧
      ∀ k, k < r.npay → f.arch.regs.getD k 0 = r.payload.getD k 0) ∧
    (∀ die r r', (s.die die).store.length < 32768 → (∃ d ∈ s.dies, d.n = die) → s.emberUp = true →
      (s.recordsOf [die]).find? (·.spill.isSome) = some r → (s.readRecord r).2 = some r' →
      ∃ t, exec (.spillRecordMigration die) s = .next t ∧
        (t.die die).store = (s.die die).store ++ [{ r' with spill := none, head := [] }] ∧
        (r.kind ≠ 2 → t.mem = s.mem) ∧
        (r.kind = 2 → let l := s.slot r.slot
          ∀ s1, (s.dropRecord r).unitWrite die l.n l.ctx (l.record.spillBase + r.image) r.head = some s1 → t.mem = s1.mem)) ∧
    (∀ die index w, ((s.die die).watches.find? fun w => w.index == index && w.state == .pending) = some w → s.live w.ctx = true →
      (s.die (dieOfHearth w.record.origin)).store.length < 32768 → (∃ d ∈ s.dies, d.n = die) →
      (∃ d ∈ s.dies, d.n = dieOfHearth w.record.origin) →
      ∃ t, exec (.watchFiringRecord die index) s = .next t ∧
        { w.record with since := s.ltime, order := s.run.nextStamp, spill := none } ∈ (t.die (dieOfHearth w.record.origin)).store ∧
        (w.persist = true → { w with state := .holding } ∈ (t.die die).watches) ∧
        (w.persist = false → (∀ x ∈ (t.die die).watches, x.index ≠ index) ∧
          (t.die die).gen index = ((s.die die).gen index + 1) % 2 ^ 18) ∧ t.mem = s.mem)

/-- R46, R56, R366, R409 to R412: while the front end's die is up, a launch that may place cohorts admits those of its plan, each with all its
fibres; with nothing of it left and its writes complete it completes: its slot is free and nothing in the device belongs to it; a contained node's
staged lines go to memory before that, one event each, none that a copy holds; a node that aborts leaves memory as it was and starts again under
a new generation. Model's choices: a cohort's stash lines hold no written byte at its admission (log 7, R46 says that they are empty); the
CONT record is written when the abort is raised and the node starts again from the launch record that was read (log 48). -/
def Obligations.LaunchesAdmitCompleteAndAbort : Prop :=
  ∀ s : State,
    (∀ slot h, s.frontUp = true → s.mayPlace (s.slot slot) = true → s.nextPlan slot = some [h] →
      let l := s.slot slot
      let r := l.record
      let uid := s.run.nextUid
      let number := (if r.levels.any (·.2.1 == 8) then r.rank * l.total else 0) + l.next
      ∃ t, exec (.cohortAdmit slot) s = .next t ∧
        t.fibres = s.fibres ++ (List.range r.cohortSize).map (fun k => r.fibre (uid + 1 + k) uid number k) ∧
        (∃ c ∈ t.cohorts, c.uid = uid ∧ c.hearth = h ∧ c.slot = slot ∧ c.number = number ∧ c.decl = r.decl ∧ c.stash = []) ∧
        (t.slot slot).next = l.next + 1 ∧ t.mem = s.mem) ∧
    (∀ slot plan, s.frontUp = true → s.mayPlace (s.slot slot) = true → s.nextPlan slot = some plan →
      exec (.cohortAdmit slot) s = .next (s.admitPlan slot plan)) ∧
    (∀ slot, s.frontUp = true → s.launchOver (s.slot slot) = true → (s.slot slot).node = none →
      ((s.slot slot).gwct = 0 ∨ (s.slot slot).gwct + 8 ≤ s.ltimeAt 4) → exec (.launchComplete slot) s = .next (s.endLaunch slot)) ∧
    (∀ slot l, (s.slot slot).node.isSome = true → ((s.slot slot).leaving = true ∨ s.launchOver (s.slot slot) = true) →
      ((s.slot slot).staged.find? fun l => !s.copying (l.line * 256) 256) = some l →
      exec (.containedNodeCommit slot) s = .next (s.commitLine slot l)) ∧
    (∀ slot, s.frontUp = true → (s.slot slot).node.isSome = true → s.launchOver (s.slot slot) = true → (s.slot slot).staged = [] →
      ((s.slot slot).gwct = 0 ∨ (s.slot slot).gwct + 8 ≤ s.ltimeAt 4) → exec (.containedNodeCommit slot) s = .next (s.endLaunch slot)) ∧
    (∀ slot, s.endLaunch slot = (((s.clearLaunch slot).freeSlot slot).finishPkt (s.slot slot).queue (s.slot slot).pkt).settleQueues ∧
      let t := (s.clearLaunch slot).freeSlot slot
      (t.slot slot).busy = false ∧ t.mem = s.mem ∧ (∀ c ∈ t.cohorts, c.slot ≠ slot) ∧ (∀ d ∈ t.dies, ∀ r ∈ d.store, r.slot ≠ slot) ∧
      (∀ w ∈ t.joinWatches, w.slot ≠ slot) ∧ (∀ b ∈ t.devBars, b.slot ≠ slot) ∧
      ∀ f ∈ s.fibres, (∃ c ∈ s.cohorts, c.slot = slot ∧ c.uid = f.cohort) → ∀ g ∈ t.fibres, g.uid ≠ f.uid) ∧
    (∀ (slot : Nat) (l : StagedLine), s.run.fired = [] → (l.bytes.map (·.1)).Nodup → (∀ w ∈ s.joinWatches, ∀ x ∈ l.bytes, touches x.1 1 w.pa = false) →
      (∀ a, (s.commitLine slot l).mem.get a = ((l.bytes.find? (·.1 == a)).map (·.2)).getD (s.mem.get a)) ∧
      (∀ x ∈ ((s.commitLine slot l).slot slot).staged, x.line ≠ l.line)) ∧
    (∀ slot cause, (s.slot slot).aborting = some cause →
      let l := s.slot slot
      ∃ t, exec (.containedNodeAbort slot cause) s = .next t ∧ t.mem = s.mem ∧ t.hostMem = s.hostMem ∧ (t.slot slot).staged = [] ∧
        (t.slot slot).next = 0 ∧ (t.slot slot).retries = l.retries + 1 ∧ (t.slot slot).gen = (l.gen + 1) % 256 ∧
        (t.slot slot).aborting = none ∧ (t.slot slot).busy = l.busy ∧ ∀ c ∈ t.cohorts, c.slot ≠ slot)

/-! ### Engines and translation (R163, R300 to R345, R378 to R381) -/

/-- R163, R167, R308 to R316, R320, R340 to R342, Table 9.6: the first command of a flue starts once it may and its checks pass, a `cpy` with its
layout record as it reads then, a `cpym` without the receivers whose range holds a mapped line, or goes on where it was stopped. A running command
makes its deliveries in order, each as one event: `cpyl`, `cpym` (to every receiver) and `cpy` to the stash (the packed codes of its box, padding in
its place, at the places of the swizzle) bring a line its bytes, set it full and raise the flue's pointer by 128; `cpy` to a tile writes its element
plane; `cpyl.st` and `cpyl.gg` write global memory. With all delivered and every write globally complete the command leaves, its counter falls and its
barrier takes the bytes, in every receiver of a `cpym`; the barrier of a command that halts takes those that it owed, with FLT. Model's choices: each
delivery is an event of its own (log 44), a gathered cohort's `cpym` reaches it alone (log 94), PEND keeps its bound at a halt too (log 98). -/
def Obligations.FluesStartDeliverAndComplete : Prop :=
  ∀ (s : State) (hearth flue : Nat) (c : EngineCmd) (rest : List EngineCmd), s.flueCmds hearth flue = c :: rest →
    let slot := s.cmdSlot c
    let die := dieOfHearth c.hearth
    let len (n : Nat) : Nat := min 128 (n - 128 * c.done)
    let running := c.run = .running ∧ (s.cmdCohort c).run = .running
    (s.flueMayStart c = true → c.begun = false → s.flueCheck c = none →
      (∀ o a n, c.op = .cpym o a n → n ≠ 0 → ∀ x ∈ s.receivers c, x.badLine o n true = none) →
      let lay := match c.op with | .cpyStash _ h _ | .cpyTile _ h _ => some (s.layoutBytes slot.ctx h) | _ => none
      exec (.flueCommandStart hearth flue) s = .next (s.updCmd c.id fun c => { c with run := .running, block := lay })) ∧
    (∀ o a n, s.flueMayStart c = true → c.begun = false → s.flueCheck c = none → c.op = .cpym o a n → n ≠ 0 →
      let bad := (s.receivers c).filter fun x => (x.badLine o n true).isSome
      bad ≠ [] → ∃ t, exec (.flueCommandStart hearth flue) s = .next t ∧
        (∀ d, s.cmd? c.id = some d → t.cmd? c.id = some { d with run := .running, block := none, skip := bad.map (·.uid) }) ∧
        (∀ u, u ∉ bad.map (·.uid) → t.cohort? u = s.cohort? u) ∧
        (∀ k x, c.bar = some k → x ∈ bad → (s.cohorts.map (·.uid)).Nodup → ∃ x', t.cohort? x.uid = some x' ∧
          (x.bar k).Took n true (s.liveOf x.uid).length (x'.bar k))) ∧
    (s.flueMayStart c = true → c.begun = true →
      exec (.flueCommandStart hearth flue) s = .next (s.updCmd c.id fun c => { c with run := .running })) ∧
    (∀ r d, s.flueMayStart c = true → c.begun = false → s.flueCheck c = some (r, d) → exec (.flueCommandStart hearth flue) s = .next (s.haltCmd c r d)) ∧
    (∀ o src n s1 bs g co, running → c.op = .cpyl o src n → c.done < (n + 127) / 128 →
      s.engRead slot.ctx c.unit slot.node 0 (gplus src (128 * c.done)) (len n) = .ok s1 bs g → s1.cohort? c.cohort = some co → flue < co.wptr.length →
      ∃ t co', exec (.flueLineDelivery hearth flue) s = .next t ∧ t.mem = s1.mem ∧ t.cohort? c.cohort = some co' ∧
        (∀ i, Memory.get co'.stash i = if o + 128 * c.done ≤ i ∧ i < o + 128 * c.done + bs.length then bs.getD (i - (o + 128 * c.done)) 0
          else Memory.get co.stash i) ∧
        (co'.line ((o + 128 * c.done) / 128)).full = true ∧ co'.wptr.getD flue 0 = co.wptr.getD flue 0 + 128 ∧
        (∀ k, k ≠ flue → co'.wptr.getD k 0 = co.wptr.getD k 0) ∧
        ∀ d, s1.cmd? c.id = some d → t.cmd? c.id = some { d with done := d.done + 1, bytes := d.bytes + bs.length, gwct := max d.gwct 0, since := none }) ∧
    (∀ o dst n s1 bs g, running → c.op = .cpylSt o dst n → c.done < (n + 127) / 128 → s.engReady c (o / 128 + c.done) = true →
      ((s.cmdCohort c).line (o / 128 + c.done)).poison = false → slot.node = none →
      s.engWrite slot.ctx c.unit c.hearth slot.node (gplus dst (128 * c.done)) (Memory.bytes (s.cmdCohort c).stash (o + 128 * c.done) (len n)) =
        .ok s1 bs g → exec (.flueLineDelivery hearth flue) s = .next (s1.delivered c (len n) g)) ∧
    (∀ src dst n s1 bs g s2 bs2 g2, running → c.op = .cpylGg src dst n → c.done < (n + 127) / 128 → slot.node = none →
      s.engRead slot.ctx c.unit slot.node 0 (gplus src (128 * c.done)) (len n) = .ok s1 bs g →
      s1.engWrite slot.ctx c.unit c.hearth slot.node (gplus dst (128 * c.done)) bs = .ok s2 bs2 g2 →
      exec (.flueLineDelivery hearth flue) s = .next (s2.delivered c bs.length g2)) ∧
    (∀ o src n s1 bs g, running → c.op = .cpym o src n → c.done < (n + 127) / 128 →
      s.engRead slot.ctx c.unit slot.node 0 (gplus src (128 * c.done)) (len n) = .ok s1 bs g → (s1.cohorts.map (·.uid)).Nodup →
      ∃ t, exec (.flueLineDelivery hearth flue) s = .next t ∧ t.mem = s1.mem ∧ s1.Delivered c bs.length 0 t ∧
        (∀ u, u ∉ (s1.receivers c).map (·.uid) → t.cohort? u = s1.cohort? u) ∧
        (∀ x ∈ s1.receivers c, flue < x.wptr.length → ∃ x', t.cohort? x.uid = some x' ∧
          x.LineTaken flue ((o + 128 * c.done) / 128) (bytesAt (o + 128 * c.done) bs) x')) ∧
    (∀ o h cs, running → c.op = .cpyStash o h cs → c.done < s.flueLines c →
      let l := s.cmdLayout c h
      let n := len l.bytes
      let first := 1024 * c.done / l.width
      let last := (1024 * c.done + 8 * n + l.width - 1) / l.width
      let place (x : Nat) : Nat := x / 128 * 128 + ((x % 128 / 16) ^^^ (x / 128 % 2 ^ l.swz)) * 16 + x % 16
      ∀ s1 b g codes co, s.boxCodes c l (coordInts cs) first (last - first) = (.ok s1 b g, codes) → 4 ≤ l.width → s1.cohort? c.cohort = some co →
        flue < co.wptr.length → ∃ t co', exec (.flueLineDelivery hearth flue) s = .next t ∧ t.mem = s1.mem ∧ t.cohort? c.cohort = some co' ∧
          s1.Delivered c n 0 t ∧ co.LineTaken flue ((o + 128 * c.done) / 128) (fun a => ((List.range n).find? fun i => decide (place (o + 128 * c.done + i) = a)).map
            (packedByte l.width (1024 * c.done - l.width * first) codes)) co') ∧
    (∀ n h cs, running → c.op = .cpyTile n h cs → c.done = 0 →
      let l := s.cmdLayout c h
      ∀ s1 b g codes co, s.boxCodes c l (coordInts cs) 0 l.elems = (.ok s1 b g, codes) → s1.cohort? c.cohort = some co →
        ∃ t co', exec (.flueLineDelivery hearth flue) s = .next t ∧ t.mem = s1.mem ∧ t.cohort? c.cohort = some co' ∧ s1.Delivered c l.bytes 0 t ∧
          (co'.tile n).fault = false ∧ (co'.tile n).poison = false ∧ (co'.tile n).tcfg = (co.tile n).tcfg ∧ co'.stash = co.stash ∧
          (∀ k, k ≠ n → co'.tile k = co.tile k) ∧
          (∀ a, Memory.get (co'.tile n).elems a =
            if a < codes.length * l.width / 8 then packedByte l.width 0 codes a else Memory.get (co.tile n).elems a)) ∧
    (∀ (l : LayoutRec) (cs : List Int) (first n : Nat) s1 b g codes, s.boxCodes c l cs first n = (.ok s1 b g, codes) → codes.length = n ∧
      ∀ i < n,
        (l.elemAt cs (first + i) = none → codes[i]? = some l.padCode) ∧
        (∀ a sh, l.elemAt cs (first + i) = some (a, sh) → ∃ s2 b2 g2 s3 bs g3, (s.boxCodes c l cs first i).1 = .ok s2 b2 g2 ∧
          s2.engRead slot.ctx c.unit slot.node 0 ⟨l.base.space, BitVec.ofInt 64 a⟩ ((sh + l.width + 7) / 8) = .ok s3 bs g3 ∧
          codes[i]? = some (leNat bs / 2 ^ sh % 2 ^ l.width))) ∧
    (∀ o a n, (c.op = .cpyl o a n ∨ c.op = .cpylSt o a n ∨ c.op = .cpym o a n) → s.countDone c = n ∧ s.countHalt c = n) ∧
    (∀ a b n, c.op = .cpylGg a b n → s.countDone c = n ∧ s.countHalt c = n) ∧
    (∀ h, (∃ o cs, c.op = .cpyStash o h cs ∨ c.op = .cpyTile o h cs) → s.countDone c = (s.cmdLayout c h).bytes ∧ s.countHalt c = (s.cmdLayout c h).bytes) ∧
    (∀ r d, s.BarriersTook c (s.countHalt c - c.bytes) true (s.haltCmd c r d)) ∧
    (running → s.flueLines c ≤ c.done → (c.gwct = 0 ∨ c.gwct + 8 ≤ s.ltimeAt die) → ∀ f, s.fibre? c.uid = some f →
      ∃ t f', exec (.flueCommandComplete hearth flue) s = .next t ∧ (∀ d ∈ t.cmds, d.id ≠ c.id) ∧ t.mem = s.mem ∧
        t.fibre? c.uid = some f' ∧ f'.cp = f.cp - 1 ∧ f'.arch = f.arch ∧ (∀ l ∈ (t.hearth c.hearth).locks, l.cmd ≠ c.id) ∧
        (c.bar = none → t.cohorts = s.cohorts) ∧ s.BarriersTook c (s.countDone c) false t)

/-- R300, R302, R304, R306, R322, R323, R327 to R339, R345: the tile engine starts its next command once it may. A command that runs takes its
effect on its cohort and leaves, its counter lower: `mtc`, `tzero`, `tbmp` and `tcvt` in one event, `tld` and `tst` line by line, a `tgat` row by row of
the members that stand at it, a `tmma` block by block of k; `mfc`, `tacc` and `tstat` answer, `tstat` of the engine clearing its status. The collective
combines its ranks in the tree that their number gives, writes its destination, and completes once its writes are globally complete. Model's choices:
one progress event for each block of a `tmma`, each line and each row (log 44), the other ranks' data an input of the event (log 85), the row that a
`tgat` takes next free (log 3). -/
def Obligations.TileEngineAndCollectiveWork : Prop :=
  ∀ s : State,
    (∀ hearth c rest, s.tileSuspended hearth = false → ((s.tileCmds hearth).filter fun c => c.run == .held || c.run == .queued) = c :: rest →
      s.tileMayStart c = true → (∀ o, c.op ≠ .tmma o) → c.done = 0 →
      (s.tileCheck c = none → s.tilePoison c = false →
        exec (.tileCommandStart hearth) s = .next (s.updCmd c.id fun c => { c with run := .running, since := none })) ∧
      (∀ r d, s.tileCheck c = some (r, d) → exec (.tileCommandStart hearth) s = .next (s.haltCmd c r d))) ∧
    (∀ hearth c rest o, s.tileSuspended hearth = false → ((s.tileCmds hearth).filter fun c => c.run == .held || c.run == .queued) = c :: rest →
      s.tileMayStart c = true → c.op = .tmma o → c.block = none → s.engReady c (o / 128) = true →
      ((s.cmdCohort c).line (o / 128)).poison = false →
      let b := Memory.bytes (s.cmdCohort c).stash o 64
      exec (.tileCommandStart hearth) s =
        .next ((s.updCmd c.id fun c => { c with block := some b }).tileGo { c with block := some b })) ∧
    (∀ hearth cmd c, s.tileSuspended hearth = false → (s.tileCmds hearth).find? (·.id == cmd) = some c → c.run = .running →
      (s.cmdCohort c).run = .running →
      let co := s.cmdCohort c
      let fm := s.cmdFormats c
      let leaves (bytes : Nat) (co' : Cohort) : Prop := (∀ x ∈ s.cohorts, x.uid = c.cohort → x = co) → ∀ f, s.fibre? c.uid = some f →
        exec (.tileCommandComplete hearth cmd) s = .next ((s.updCohort c.cohort fun _ => co').finishCmd c bytes) ∧
        ∃ f', ((s.updCohort c.cohort fun _ => co').endCmd c).fibre? c.uid = some f' ∧ f'.tl = f.tl - 1 ∧ f'.arch = f.arch
      let answers (v : DWord) (k : Option Cause) : Prop := exec (.tileCommandComplete hearth cmd) s = .next (s.readDone c v k)
      (∀ t v, c.op = .mtc t v → leaves 0 (co.setTile { co.tile t with tcfg := v &&& 0xFFFFFC00#32, fault := false })) ∧
      (∀ t, c.op = .tzeroTile t → leaves (s.countDone c) (co.setTile (co.tile t).zero)) ∧
      (∀ n, c.op = .tzeroAcc n → leaves 16384 (co.setAcc (Accum.fresh n))) ∧
      (∀ o, c.op = .tmma o →
        let b := c.block.getD []
        (mmaBlocks fm b ≤ c.done + 1 → leaves (s.countDone c) ((co.mmaBlock fm b c.done).mmaValid fm b)) ∧
        (c.done + 1 < mmaBlocks fm b →
          exec (.tileCommandComplete hearth cmd) s = .next ((s.updCohort c.cohort fun co => co.mmaBlock fm b c.done).progress c 0 0))) ∧
      (∀ t, c.op = .mfc t → answers ((co.tile t).tcfg.setWidth 64) none) ∧
      (∀ n i, c.op = .tacc n i → answers (((co.acc n).get i).setWidth 64) (if (co.acc n).valid then none else some (mkCause 6 0))) ∧
      (∀ n, c.op = .tstatBarrier n → answers (s.barStatus co n) none) ∧
      (c.op = .tstatTile → exec (.tileCommandComplete hearth cmd) s =
        .next ((s.updCohort c.cohort fun co => { co with tileStatus := 0 }).readDone c (co.tileStatus.setWidth 64) none)) ∧
      (∀ r k, c.op = .tbmp r → tileKind (co.tile r) (fm.getD (tcfgSlot (co.tile r).tcfg) 0) = some k → tcfgCols (co.tile r).tcfg % 16 = 0 →
        let x := co.tile r
        let cols := tcfgCols x.tcfg
        ∃ bits, leaves (s.countDone c) (co.setTile { x with bitmap := bits, tcfg := x.tcfg ||| 0x400#32 }) ∧
          ∀ p < tcfgRows x.tcfg * cols,
            (Memory.get bits (p / 8)).getLsbD (p % 8) = !(narrowVal k (x.scale (p / cols) (p % cols / 16)) (x.code k.bits p)).isZero) ∧
      (∀ r a ctl q k mode, c.op = .tcvt r a ctl q → ctlRnd ctl = some mode → tcfgCols (co.tile r).tcfg % 16 = 0 →
        let x := co.tile r
        let d := fm.getD (tcfgSlot x.tcfg) 0
        let src := tcvtSource co fm a ctl
        descOk d = true → tileKind x d = some k → ∃ elems scales fl,
          let x' := { x with elems := elems, scales := scales, tcfg := x.tcfg &&& ~~~0x400#32, fault := src.2, poison := false }
          x.Converted d k mode (ctlNsel ctl) q.toNat src.1 x' fl ∧
          leaves (s.countDone c) { co.setTile x' with tileStatus := co.tileStatus ||| fl.setWidth 8 }) ∧
      (∀ r o, c.op = .tldTile r o → s.engReady c (o / 128 + c.done) = true → (co.line (o / 128 + c.done)).poison = false →
        s.ImageLine hearth c o (tileBytes (co.tile r))
          (fun e lo hi e' => e'.stash = e.stash ∧ (∀ k, k ≠ r → e'.tile k = e.tile k) ∧
            ∀ i < tileBytes (e.tile r), e'.tileByte r i = if lo ≤ o + i ∧ o + i < hi then Memory.get e.stash (o + i) else e.tileByte r i)
          (fun e' => (e'.tile r).tcfg = (co.tile r).tcfg &&& ~~~0x400#32 ∧ (e'.tile r).fault = false ∧ (e'.tile r).poison = false)) ∧
      (∀ r o, c.op = .tldAcc r o → s.engReady c (o / 128 + c.done) = true → (co.line (o / 128 + c.done)).poison = false →
        s.ImageLine hearth c o 16384
          (fun e lo hi e' => e'.stash = e.stash ∧ (∀ k, k ≠ r → e'.acc k = e.acc k) ∧
            ∀ i < 16384, e'.accByte r i = if lo ≤ o + i ∧ o + i < hi then Memory.get e.stash (o + i) else e.accByte r i)
          (fun e' => (e'.acc r).valid = true ∧ (e'.acc r).poison = false)) ∧
      (∀ r o, c.op = .tstTile r o → s.ImageLine hearth c o (tileBytes (co.tile r))
        (fun e lo hi e' => e'.tiles = e.tiles ∧ (e'.line (o / 128 + c.done)).full = true ∧
          ∀ a, Memory.get e'.stash a = if lo ≤ a ∧ a < hi then e.tileByte r (a - o) else Memory.get e.stash a) (fun _ => True)) ∧
      (∀ r o, c.op = .tstAcc r o → s.ImageLine hearth c o 16384
        (fun e lo hi e' => e'.accs = e.accs ∧ (e'.line (o / 128 + c.done)).full = true ∧
          ∀ a, Memory.get e'.stash a = if lo ≤ a ∧ a < hi then e.accByte r (a - o) else Memory.get e.stash a) (fun _ => True)) ∧
      (∀ n rd rows, c.op = .tgat n rd rows →
        let slot := s.cmdSlot c
        let x := co.tile n
        let tc := x.tcfg
        let row := tcfgCols tc * tcfgW tc / 8
        let per := tcfgCols tc / 16
        let prog := ((co.crew? c.crew).map (·.tgprog)).getD 0
        let live (r : GatRow) : Bool := ((s.fibre? r.uid).map (!·.exited)).getD false
        let open' := rows.filter fun r => decide (r.y < tcfgRows tc) && !prog.getLsbD r.y && live r
        let ready := open'.filter fun r => ((s.fibre? r.uid).map (·.waits.contains (.engineRead c.id))).getD false
        let full := (List.range (tcfgRows tc)).all fun y => prog.getLsbD y
        (open' = [] → (∀ x ∈ s.cohorts, x.uid = c.cohort → x = co) →
          exec (.tileCommandComplete hearth cmd) s = .next ((s.updCohort c.cohort fun _ => co.setTile { x with
            tcfg := tc &&& ~~~0x400#32, fault := !full && x.fault, poison := !full && x.poison }).finishCmd c c.bytes)) ∧
        (ready ≠ [] → ∃ r ∈ ready,
          (∀ a, s.engRead slot.ctx c.unit slot.node 3 r.addr (gatBytes tc) = .poison a →
            exec (.tileCommandComplete hearth cmd) s = .next (s.gatRaise { r with addr := a } (mkCause 10 0))) ∧
          (∀ s1 bs g e w, s.engRead slot.ctx c.unit slot.node 3 r.addr (gatBytes tc) = .ok s1 bs g → bs.length = gatBytes tc →
            s1.cohort? c.cohort = some e → e.crew? c.crew = some w → ∃ t e' w', exec (.tileCommandComplete hearth cmd) s = .next t ∧ t.mem = s1.mem ∧
              t.cohort? c.cohort = some e' ∧ e'.crew? c.crew = some w' ∧ w'.tgprog = w.tgprog ||| BitVec.ofNat 64 (2 ^ r.y) ∧
              (∀ k, k ≠ n → e'.tile k = e.tile k) ∧ e'.stash = e.stash ∧
              ((e.tile n).tcfg = tc → ∀ i,
                Memory.get (e'.tile n).elems i = (if r.y * row ≤ i ∧ i < (r.y + 1) * row then bs.getD (i - r.y * row) 0 else Memory.get (e.tile n).elems i) ∧
                Memory.get (e'.tile n).scales i = (if tcfgSp tc = true ∧ r.y * per ≤ i ∧ i < (r.y + 1) * per then bs.getD (row + (i - r.y * per)) 0
                  else Memory.get (e.tile n).scales i)))))) ∧
    (∀ cmd c src dst n ctl others, s.cmd? cmd = some c → c.op = .coll src dst n ctl → (c.run = .queued ∨ c.run = .running) →
      let slot := s.cmdSlot c
      let sz := (collTy ctl).bits / 8
      let here := (s.cmdCohort c).run ≠ .suspended
      let starts := c.done = 0 ∧ s.rangeHeld c = false ∧ (s.cmdCohort c).held = false
      (n = 0 → here → starts → collBad n src dst ctl others = none → others.length + 1 = slot.record.peers →
        exec (.collComplete cmd others) s = .next (s.finishCmd c 0)) ∧
      (∀ d, here → starts → collBad n src dst ctl others = some d → exec (.collComplete cmd others) s = .next (s.haltCmd c 0x05 d)) ∧
      (starts → collBad n src dst ctl others = none → others.length + 1 < slot.record.peers → exec (.collComplete cmd others) s = .next s) ∧
      (∀ depth, n ≠ 0 → starts → others.length + 1 = slot.record.peers → slot.record.peers ≤ 2 ^ depth → (∀ e < depth, 2 ^ e < slot.record.peers) → (∀ o ∈ others, o.length = n + 1 ∧ o.headD 0 = ctl) →
        (src = dst ∨ dst.off.toNat + n * sz ≤ src.off.toNat ∨ src.off.toNat + n * sz ≤ dst.off.toNat) →
        ∀ s1 bs g s2 bs2 g2, s.engRead slot.ctx c.unit slot.node 0 src (n * sz) = .ok s1 bs g →
          s1.engWrite slot.ctx c.unit c.hearth slot.node dst ((List.range n).flatMap fun i => leBytes sz
            ((treeReduce (collCombine ctl) depth (ranksOf slot.record.rank slot.record.peers (leNat ((bs.drop (sz * i)).take sz))
              (others.map fun o => (o.getD (i + 1) 0).toNat % 2 ^ (8 * sz)))).getD 0)) = .ok s2 bs2 g2 →
          exec (.collComplete cmd others) s = .next ((s2.progress c (n * sz) g2).dropReadLocks c.hearth c.id)) ∧
      (c.done ≠ 0 → here → c.gwct + 8 ≤ s.ltimeAt (dieOfHearth c.hearth) →
        exec (.collComplete cmd others) s = .next (s.finishCmd c (n * sz))))

/-- R378 to R381: a walk that finds its leaf sets A, and D for a write, at the entry, keeps the translation in the requester's hearth, and the
requester goes on; an entry that asks for service 1 parks the requester on a service; Garley's service places a zeroed page behind a valid
leaf that may be read and written, and the parked requester goes on. -/
def Obligations.WalksAndPageServicesAnswer : Prop :=
  ∀ s : State,
    (∀ walk w k u off f, s.walks.find? (·.id == walk) = some w → s.walking w = true → w.reqs = [(k, .fibre u off)] → s.fibre? u = some f →
      (∀ e at', s.walk w.die w.ctx w.addr k false = .leaf e at' →
        ∃ t g, exec (.translationWalkComplete walk) s = .next t ∧ (∀ x ∈ t.walks, x.id ≠ walk) ∧ e ∈ (t.hearth (s.hearthOf f)).tlb ∧
          t.fibre? u = some g ∧ Wait.walk walk ∉ g.waits ∧ g.arch = f.arch ∧
          t.mem.readLE at' 8 = (s.mem.readLE at' 8 ||| (if k = 1 ∨ k = 4 then 0x60 else 0x20)) ∧
          ∀ a, (a < at' ∨ at' + 8 ≤ a) → t.mem.get a = s.mem.get a) ∧
      (∀ lvl size at', s.walk w.die w.ctx w.addr k false = .service lvl 1 size at' →
        ∃ t g v, exec (.translationWalkComplete walk) s = .next t ∧ v ∈ t.services ∧ (k, Requester.fibre u off) ∈ v.reqs ∧ v.ctx = w.ctx ∧
          t.fibre? u = some g ∧ Wait.walk walk ∉ g.waits ∧ g.arch = f.arch ∧ t.mem = s.mem) ∧
      (∀ c, (s.walk w.die w.ctx w.addr k false = .fault c ∨ ∃ lvl, s.walk w.die w.ctx w.addr k false = .absent lvl c) →
        exec (.translationWalkComplete walk) s = .next ((({ s with walks := s.walks.filter (·.id != walk) }).endWait u (.walk walk)).raiseWaiting u c
          (if k = 2 then fetchTval f.arch.pc ⟨0, off⟩ c else off)))) ∧
    (∀ fault v lvl size at' s1, s.frontUp = true → (s.services.find? fun v => v.fault == fault && v.srv == 1) = some v →
      s.walk 7 v.ctx v.addr v.kind false = .service lvl 1 size at' → s.garleyPage v.ctx at' = some s1 →
      exec (.garleyPageService fault) s = .next (s1.serviceDone v) ∧
      ∃ pa sz, sz = pageSize (entrySize (s.mem.readLE at' 8)) ∧ (pa, sz, v.ctx) ∈ s1.pkg.frames ∧
        s1.mem.readLE at' 8 = entrySize (s.mem.readLE at' 8) * 2 ^ 56 + (if (s.mem.readLE at' 8).testBit 63 then 2 ^ 63 else 0) + pa + 0xF ∧
        ∀ a, pa ≤ a → a < pa + sz → (a < at' ∨ at' + 8 ≤ a) → s1.mem.get a = 0)

/-! ### Queues and packets (R48 to R56, R284, R291, R360 to R370, R391 to R407) -/

/-- R361 to R367, R291, R398, R407: a packet that is due starts and, where nothing of it is left to do, completes: a no-op, a fence once the front
end's stores are acknowledged; an INDIRECT and a WAIT start, and the WAIT completes when its timeline has reached its threshold; PRIORITY sets its queue's priority; RECOVER
closes the open point, replays, or discards the sealing one. A malformed packet halts its queue with its reason. While a queue that goes
before it is ready, by its priority or by round robin, a queue starts nothing (R370). Model's choices: a close counts its own packet as complete
(log 22), WAIT does not look at SYNC (log 73), a replay keeps the packets that log 89 names. -/
def Obligations.PacketsStartAndComplete : Prop :=
  ∀ (s s1 : State) (n : Nat) (p : Pkt),
    (s.PacketDue n 0 s1 p → exec (.nopPacket n) s = .next (s1.finishPkt n p.id)) ∧
    (s.PacketDue n 2 s1 p → exec (.indirect n) s = .next (s1.startPkt n p.id)) ∧
    (s.PacketDue n 3 s1 p → exec (.wait n) s = .next (s1.startPkt n p.id)) ∧
    (s.PacketDue n 5 s1 p →
      let sealing : Prop := ∃ c pt, s1.context? (s1.queue n).ctx = some c ∧ pt ∈ c.recovery.points ∧ pt.state = .sealing
      let waits : Prop := s1.frontAcked = false ∨ (p.field 8 1 = 11 ∧ sealing)
      (waits → exec (.fencePacket n) s = .next s1) ∧ (¬waits → exec (.fencePacket n) s = .next (s1.finishPkt n p.id))) ∧
    (s.PacketDue n 9 s1 p → exec (.priority n) s =
      .next ((s1.setQueue { s1.queue (p.field 8 1) with priority := p.field 9 1 }).finishPkt n p.id)) ∧
    (s.PacketDue n 8 s1 p → (∀ c, s1.context? (s1.queue n).ctx = some c → c.recovery.sealing = none) →
      exec (.recoverClose n) s = .next ((s1.finishPkt n p.id).closePoint (s1.queue n).ctx)) ∧
    (s.PacketDue n (8 + 256 * 2) s1 p → exec (.recoverDiscard n) s = .next ((s1.discardPoint (s1.queue n).ctx).finishPkt n p.id)) ∧
    (s.PacketDue n (8 + 256) s1 p →
      let t := (s1.finishPkt n p.id).replay (s1.queue n).ctx (some n)
      (∀ r ∈ (t.queue n).pkts, r.started = true → r.done = true ∨ r.op ≠ 1) → exec (.recoverReplay n) s = .next t.settleQueues) ∧
    (∀ q, s.frontUp = true → (s.queue n).waitingOn = some q → ∀ s2 bs g, s.frontRead (s.queue n).ctx (ownAddr (q.field 8 8)) 8 = .ok s2 bs g →
      (0 ≤ (BitVec.ofNat 64 (leNat bs) - BitVec.ofNat 64 (q.field 16 8) : DWord).toInt →
        exec (.waitThresholdReached n) s = .next (s2.finishPkt n q.id)) ∧
      ((BitVec.ofNat 64 (leNat bs) - BitVec.ofNat 64 (q.field 16 8) : DWord).toInt < 0 → exec (.waitThresholdReached n) s = .next s2)) ∧
    (∀ i reason, i ∈ [Instr.nopPacket n, .launch n, .indirect n, .wait n, .signal n, .fencePacket n, .layout n, .priority n, .query n,
        .recoverClose n, .recoverReplay n, .recoverDiscard n] →
      s.served (s.queue n) = true → (∀ r ∈ s.queues, s.ahead (s.queue n) r = true → s.queueReady r = false) →
      s.nextPkt n = (s1, some p) → s1.malformed (s1.queue n) p = some reason → exec i s = .next (s1.packetBad n p reason)) ∧
    (∀ i r, i ∈ [Instr.nopPacket n, .launch n, .indirect n, .wait n, .signal n, .fencePacket n, .layout n, .priority n, .query n,
        .recoverClose n, .recoverReplay n, .recoverDiscard n] →
      r ∈ s.queues → s.ahead (s.queue n) r = true → s.queueReady r = true → exec i s = .next s)

/-- R48 to R56, R284, R291, R360, R363, R366, Tables 20.1 to 20.3: the packets that read or write memory. A sound LAUNCH takes the lowest
free slot, an unsound one halts its queue; SIGNAL, once the front end's stores are acknowledged, writes its value or adds it; LAYOUT files a record of its own context;
QUERY reads its answer at its start and writes it as a release; COPY reads its source at its start, writes it line by line and completes once its
stores are acknowledged; a new tail count brings the next packet of the ring. Model's choices: COPY goes line by line, and whether it goes on or
the next packet starts is free (logs 2, 75); a launch's priority is fixed when it takes its slot (log 95). -/
def Obligations.PacketsReadAndWriteMemory : Prop :=
  ∀ (s s1 : State) (n : Nat) (p : Pkt),
    let q := s1.queue n
    let ctx := q.ctx
    let a := ownAddr (p.field 8 8)
    (s.PacketDue n 1 s1 p → s1.exclusiveWaits ctx = false → ∀ s2 bs g, s1.frontRead ctx a 256 = .ok s2 bs g →
      let conf := ((s2.context? ctx).map (·.confidential)).getD false
      (∀ m, s2.launchOk conf bs = true → (List.range 256).find? (fun m => !(s2.slot m).busy) = some m →
        exec (.launch n) s = .next ((s2.takeSlot q p (LaunchRec.ofBytes bs) m).startPkt n p.id) ∧
        (let l := (s2.takeSlot q p (LaunchRec.ofBytes bs) m).slot m
         l.busy = true ∧ l.gen = ((s2.slot m).gen + 1) % 256 ∧ l.ctx = ctx ∧ l.next = 0 ∧ l.prio = min (LaunchRec.ofBytes bs).prio q.priority)) ∧
      (s2.launchOk conf bs = false → exec (.launch n) s = .next (s2.packetBad n p 0x05))) ∧
    (s.PacketDue n 4 s1 p → s1.frontAcked = true →
      (∀ s2 bs g, p.field 0x18 1 = 0 → s1.frontWrite ctx (pktAgent p.id) a (leBytes 8 (p.field 16 8)) = .ok s2 bs g →
        exec (.signal n) s = .next ((s2.noteSignal ctx (p.field 8 8)).finishPkt n p.id)) ∧
      (∀ s2 bs g s3 bs3 g3, p.field 0x18 1 ≠ 0 → s1.frontRead ctx a 8 = .ok s2 bs g →
        s2.frontWrite ctx (pktAgent p.id) a (leBytes 8 ((leNat bs + p.field 16 8) % 2 ^ 64)) = .ok s3 bs3 g3 →
        exec (.signal n) s = .next ((s3.noteSignal ctx (p.field 8 8)).finishPkt n p.id))) ∧
    (s.PacketDue n 6 s1 p → ∀ s2 bs g, s1.frontRead ctx (ownAddr (p.field 16 8)) 64 = .ok s2 bs g →
      (leNat ((bs.drop 0xA).take 2) = ctx → exec (.layout n) s = .next
        ((s2.outsideStore (pktAgent p.id) (.dev (((s2.context? ctx).map Context.layoutAddr).getD 0 + 64 * p.field 8 2)) bs).finishPkt n p.id)) ∧
      (leNat ((bs.drop 0xA).take 2) ≠ ctx → exec (.layout n) s = .next (s2.packetBad n p 0x07))) ∧
    ((∀ r ∈ (s.queue n).pkts, r.op = 10 → r.started = true → r.done = true) → s.PacketDue n 10 s1 p →
      exec (.query n) s = .next ((s1.setQueue ((s1.queue n).updPkt p.id fun p =>
        { p with data := padBytes 64 (s1.queryBytes q (p.field 16 1)) })).startPkt n p.id)) ∧
    (∀ r s2 bs g, s.frontUp = true → ((s.queue n).pkts.find? fun p => p.started && !p.done && p.op == 10) = some r → s.frontAcked = true →
      s.frontWrite (s.queue n).ctx (pktAgent r.id) (ownAddr (r.field 8 8)) r.data = .ok s2 bs g → exec (.query n) s = .next (s2.finishPkt n r.id)) ∧
    ((∀ r ∈ (s.queue n).pkts, r.op = 7 → r.started = true → r.done = true) → s.PacketDue n 7 s1 p → p.field 32 8 ≠ 0 →
      ∀ s2 bs g, s1.frontRead ctx ⟨(spacesOf p).1, BitVec.ofNat 64 (p.field 8 8)⟩ (p.field 32 8) = .ok s2 bs g →
      exec (.copy n) s = .next ((s2.setQueue ((s2.queue n).updPkt p.id fun p => { p with data := bs })).startPkt n p.id)) ∧
    (∀ r s2 bs g, s.frontUp = true → (s.queue n).pkts = [r] → r.started = true → r.done = false → r.op = 7 → r.data ≠ [] →
      let off := r.field 16 8 + (r.field 32 8 - r.data.length)
      let k := 64 - off % 64
      s.frontWrite (s.queue n).ctx (pktAgent r.id) ⟨(spacesOf r).2, BitVec.ofNat 64 off⟩ (r.data.take k) = .ok s2 bs g →
      exec (.copy n) s = .next (if Config.choice s.run.tick 4 n % 2 = 0
        then s2.setQueue ((s2.queue n).updPkt r.id fun r => { r with data := r.data.drop k }) else s)) ∧
    (∀ r, s.frontUp = true → (s.queue n).pkts = [r] → r.started = true → r.done = false → r.op = 7 → r.data = [] → s.acked (pktAgent r.id) = true →
      exec (.copy n) s = .next (if Config.choice s.run.tick 4 n % 2 = 0 then (s.forget (pktAgent r.id)).finishPkt n r.id else s)) ∧
    (∀ s2 bs g s3 bs3 g3, s.served (s.queue n) = true → (s.queue n).headDue = false →
      s.frontRead (s.queue n).ctx (s.queue n).tailLine 8 = .ok s2 bs g →
      let q0 := s.queue n
      q0.read < leNat bs → leNat bs ≤ q0.read + 2 ^ q0.k →
      s2.frontRead q0.ctx (gplus q0.ring (64 * (q0.read % 2 ^ q0.k))) 64 = .ok s3 bs3 g3 →
      ∃ t pk, exec (.tailLineStore n) s = .next t ∧ pk.bytes = bs3 ∧ pk.index = q0.read ∧ pk.started = false ∧
        let q' := { q0 with tail := leNat bs, read := q0.read + 1, pkts := q0.pkts ++ [pk] }
        t = ({ s3.setQueue q' with run := { s3.run with nextOp := s3.run.nextOp + 1 } }.writeHead n).queueSettle n) ∧
    (∀ s2 bs g, s.served (s.queue n) = true → (s.queue n).headDue = false →
      s.frontRead (s.queue n).ctx (s.queue n).tailLine 8 = .ok s2 bs g → (leNat bs < (s.queue n).read ∨ (s.queue n).read + 2 ^ (s.queue n).k < leNat bs) →
      exec (.tailLineStore n) s = .next ((s2.setQueue { s.queue n with tail := leNat bs }).tailBad n (leNat bs)))

/-! ### The management window (R371 to R375, R381, R358, R359, R367) -/

/-- R358, R359, R367, R371 to R375, R381: a command that stands in the window, its tag right and its fields in range, takes its effect and is
answered with RESULT 0 and its values; DESTROY_CONTEXT leaves nothing of its context; FAULT_DONE fails the service where the entry that
faulted is still not valid. The fields are those of Table 20.13. Model's choices: RESUME_QUEUE drops the packets that have not started and takes the
new read count for its tail (log 76); what SPDM answers, the session that it opens and whether that is verified come with the event (log 19). -/
def Obligations.ManagementCommandsTakeEffect : Prop :=
  ∀ (s s1 : State) (c : Context), let w := s.window
    let fl := w.field 0x11 1
    let k := w.field 0x10 1
    (∀ id s2 at', s.CommandDue 1 false s1 none → w.field 0x10 4 ≤ 1 → 4 ≤ w.field 0x1C 1 → w.field 0x1C 1 ≤ 12 → w.field 0x1D 3 = 0 →
      w.field 0x20 8 % 64 = 0 → (w.field 0x10 4 = 1 → w.field 4 4 ≠ 0) →
      (List.range 4096).find? (fun i => i != 0 && (s1.context? i).isNone) = some id →
      s1.reserve id (contextPieces (w.field 0x18 4) (w.field 0x1C 1) (w.field 0x20 8)) = some (s2, at') →
      let n := Context.fresh id (w.field 4 4) (w.field 0x10 4 == 1) (w.field 0x14 4) (w.field 0x18 4) (w.field 0x1C 1) (w.field 0x20 8) at'
      exec .createContext s = .next ({ s2 with contexts := (s2.contexts.filter fun d : Context => d.id != id) ++ [n] }.answer 0
        (leBytes 2 id ++ leBytes 6 0 ++ leBytes 8 (if n.confidential then 0 else n.root) ++ leBytes 8 n.ringAddr ++ leBytes 8 n.saveAddr))) ∧
    (s.CommandDue 2 true s1 (some c) → exec .destroyContext s = .next ((s1.destroyContext c).answer 0 []) ∧
      (s1.destroyContext c).context? c.id = none ∧ (s1.destroyContext c).bound c.id = [] ∧
      (∀ f ∈ (s1.destroyContext c).pkg.frames, f.2.2 ≠ c.id)) ∧
    (∀ n, s.CommandDue 3 true s1 (some c) → w.field 0x1D 3 = 0 → w.field 0x2A 6 = 0 → w.field 0x3A 6 = 0 → w.field 0x1C 1 ≤ 1 →
      w.field 0x1B 1 ≤ 3 → 4 ≤ w.field 0x1A 1 → w.field 0x1A 1 ≤ 16 → w.field 0x10 8 % 4096 = 0 → w.field 0x20 8 % 64 = 0 →
      w.field 0x30 8 % 64 = 0 →
      let addr (off : Nat) : GAddr := ⟨BitVec.ofNat 16 (w.field (off + 8) 2), BitVec.ofNat 64 (w.field off 8)⟩
      s1.lineSpace c (addr 0x10).space = true → s1.lineSpace c (addr 0x20).space = true → s1.spaceFault c.id (addr 0x30).space = none →
      spaceKind (addr 0x30).space ≠ 1 → (w.field 0x1C 1 = 1 → s1.verified = true) →
      (List.range 64).find? (fun n => (s1.queue n).state == .unbound) = some n →
      exec .createQueue s = .next ((s1.setQueue
        { n := n, ctx := c.id, state := if c.barred then .barred else if c.suspended then .suspended else .idle, ring := addr 0x10,
          k := w.field 0x1A 1, priority := w.field 0x1B 1, privileged := w.field 0x1C 1 == 1, tailLine := addr 0x20, headLine := addr 0x30,
          tail := 0, read := 0, completed := 0, pkts := [], headDue := false, destroying := false }).answer 0 (leBytes 1 n))) ∧
    (s.CommandDue 4 true s1 (some c) → k < 64 → (s1.queue k).state ≠ .unbound → (s1.queue k).ctx = c.id →
      exec .destroyQueue s =
        .next (((s1.setQueue { (s1.queue k).cutShort with destroying := true }).queueSettle (s1.queue k).n).answer 0 [])) ∧
    (s.CommandDue 5 true s1 (some c) → k < 64 → w.field 0x11 7 = 0 → (s1.queue k).ctx = c.id →
      ((s1.queue k).state = .halted → exec .resumeQueue s = .next (((s1.setQueue
        { (s1.queue k).cutShort with state := .idle, read := w.field 0x18 8, tail := w.field 0x18 8 }).queueSettle
          (s1.queue k).n).answer 0 [])) ∧
      ((s1.queue k).state ≠ .halted → exec .resumeQueue s = .next (s1.answer 1 []))) ∧
    (s.CommandDue 6 true s1 (some c) → fl ≤ 7 → w.field 0x12 6 = 0 → w.field 0x18 8 % 4096 = 0 → w.field 0x20 8 % 4096 = 0 →
      w.field 0x18 8 + w.field 0x20 8 ≤ 2 ^ 64 →
      let set := if fl.testBit 0
        then [{ k := k, writable := fl.testBit 1, shared := fl.testBit 2, base := w.field 0x18 8, length := w.field 0x20 8 }] else []
      exec .setHostRange s =
        .next ((s1.updContext c.id fun c : Context => { c with ranges := set ++ c.ranges.filter (·.k != k) }).answer 0 [])) ∧
    (s.CommandDue 7 false s1 none → k ≠ 0 → (∀ i, i < 4 → w.field (0x11 + i) 1 ≤ 2) → w.field 0x15 1 ≤ 2 → w.field 0x16 2 = 0 →
      (w.field 4 4 ≠ 0 ∧ s1.verified = true →
        ∃ t : State, exec .setPolicy s = .next (t.answer 0 []) ∧ t.policy.guilt = k ∧
          t.policy.modes = ((List.range 4).map fun i => w.field (0x11 + i) 1) ∧ t.policy.front = w.field 0x15 1 ∧
          t.policy.retentionUs = w.field 0x18 4 ∧ t.mem = s1.mem ∧ t.contexts = s1.contexts ∧
          (w.field 0x15 1 = s1.policy.front → t.hearths = s1.hearths)) ∧
      (w.field 4 4 = 0 ∨ s1.verified = false → exec .setPolicy s = .next (s1.answer 1 []))) ∧
    (∀ response session len, s.CommandDue 8 false s1 none → w.pending = some len → w.field 0x14 4 = 0 → w.field 4 4 = 0 →
      0x18 + w.field 0x10 4 ≤ len →
      ∃ t : State, exec (.spdm response session) s = .next (t.answer 0
          (leBytes 4 (response.take 4008).length ++ leBytes 4 0 ++ response.take 4008)) ∧ t = { s1 with sessions := t.sessions } ∧
        (session = none → t.sessions = s1.sessions) ∧
        (∀ id ok, session = some (id, ok) → id ≠ 0 → t.session? id = some ⟨id, ok, 0, 0⟩)) ∧
    (∀ v, s.CommandDue 9 true s1 (some c) →
      s1.services.find? (fun v => v.fault == w.field 0x10 2 && v.srv == 2 && some v.ctx == some c.id) = some v →
      let s2 := s1.tlbDropPage (fun _ => true) (fun _ => true) v.ctx v.addr
      let out := s2.walk 7 v.ctx v.addr v.kind true
      let unset : Prop := (∃ srv size at', out = .service v.level srv size at') ∨ ∃ k, out = .absent v.level k
      (unset → exec .faultDone s = .next ((s2.serviceFailed v).answer 0 [])) ∧
      (¬unset → exec .faultDone s = .next ((s2.serviceDone v).answer 0 []))) ∧
    (let t := s1.answer 0 []
     t.window.ready = true ∧ t.window.result = 0 ∧ t.window.pending = none ∧ t.mem = s1.mem ∧ t.contexts = s1.contexts ∧ t.queues = s1.queues)

/-! ### The package, its links, pre-emption, power, temperature, errors and other agents (R206, R213, R229, R351 to R357, R413 to R434) -/

/-- R372, R427, R431 to R434, R357, R425: writes of the window and the sideband; a package reset and a trip leave the state after power-on, but
for the settings of the sideband; a link that eight failures in a row have reached retrains on its spares, runs at half its lanes, or is down, and
a flit lost after a retraining, or one whose tag fails, is poison where it was to arrive; a die that no running cohort holds
resets and takes its repairs; the five steps of bring-up pass one by one, the last opening the window, or one stops them with its FAIL code. Model's
choices: what a die's reset leaves of memory (log 21); that memory reads as zeros after a trip (logs 4 and 81, R431 says only that it is lost); whether
a failed flit is the one that failed before, and whose flit is lost (logs 102 and 103); which links train (log 3). -/
def Obligations.RegistersLinksAndResets : Prop :=
  ∀ s : State,
    (∀ bs : List Byte, s.window.ready = true → (s.die 4).resetting = false → bs.length = 4 → 1 ≤ leNat bs → leNat bs ≤ 4032 →
      exec (.registerWrite .window 0 bs) s = .next { s with window := { s.window with ready := false, pending := some (leNat bs) } }) ∧
    (∀ (off : Nat) (bs : List Byte), s.window.ready = true → (s.die 4).resetting = false → 0x40 ≤ off → off + bs.length ≤ 0x1000 →
      ∃ t : State, exec (.registerWrite .window off bs) s = .next t ∧ t = { s with window := { s.window with buffer := t.window.buffer } } ∧
        (∀ i, i < bs.length → Memory.get t.window.buffer (off - 0x40 + i) = bs.getD i 0) ∧
        (∀ a, a < off - 0x40 ∨ off - 0x40 + bs.length ≤ a → Memory.get t.window.buffer a = Memory.get s.window.buffer a)) ∧
    (∀ off bs, (s.window.ready = false ∨ (s.die 4).resetting = true) → exec (.registerWrite .window off bs) s = .next s) ∧
    (∀ w, (1200 ≤ w ∧ w ≤ 2600 → exec (.packagePowerLimitWrite w) s = .next { s with pkg := { s.pkg with limitW := w } }) ∧
      (w < 1200 ∨ 2600 < w → exec (.packagePowerLimitWrite w) s = .next s) ∧
      (w < 65536 → exec (.registerWrite .sideband 0x10 (leBytes 2 w)) s = exec (.packagePowerLimitWrite w) s)) ∧
    (∀ v : BitVec 16, exec (.registerWrite .sideband 0x12 (leBytes 2 v.toNat)) s = .next { s with pkg := { s.pkg with torusOff := v } }) ∧
    (s.pkg.powered = true → ∃ t : State, exec (.packageResetRequest 0x5A) s = .next t ∧ exec (.registerWrite .sideband 0x14 [0x5A]) s = .next t ∧
      t.fibres = [] ∧ t.cohorts = [] ∧ t.contexts = [] ∧ t.queues = [] ∧ t.slots = [] ∧ t.ltime = 0 ∧ t.window = State.reset.window ∧
      t.pkg.stage = 0 ∧ t.pkg.powered = true ∧ t.pkg.limitW = s.pkg.limitW ∧ t.hostMem = s.hostMem ∧ t.peerMem = s.peerMem) ∧
    (∀ d, 115 ≤ s.pkg.temps.getD d 0 → ∃ t : State, exec (.packageTrip d) s = .next t ∧ t.mem = [] ∧ t.fibres = [] ∧ t.contexts = [] ∧
      t.pkg.powered = false) ∧
    (∀ l : Link, s.pkg.links.find? (fun x => x.n == l.n) = some l →
      let gives (i : Instr) (l' : Link) : Prop := ∃ t : State, exec i s = .next t ∧ t.pkg.links.find? (fun x => x.n == l.n) = some l' ∧
        (∀ k, k ≠ l.n → t.pkg.links.find? (fun x => x.n == k) = s.pkg.links.find? fun x => x.n == k) ∧
        t = { s with pkg := { s.pkg with links := t.pkg.links } }
      let full := fullLanes l.n
      let same : Prop := Config.choice s.run.tick 32 l.n % 2 = 0
      (l.up = true → ¬same → gives (.flitCrcFailure (.crc l.n)) { l with failures := 1, again := false }) ∧
      (l.up = true → same → (l.again = false ∨ l.failures < 7) → gives (.flitCrcFailure (.crc l.n)) { l with failures := min 8 (l.failures + 1) }) ∧
      (l.up = true → same → l.again = true → 7 ≤ l.failures → ∃ s1 : State, s1.pkg.links.find? (fun x => x.n == l.n) = some { l with failures := 0, again := false } ∧
        s1 = { s with pkg := { s.pkg with links := s1.pkg.links } } ∧ exec (.flitCrcFailure (.crc l.n)) s = .next (s1.flitLost l.n false)) ∧
      (l.up = true → exec (.flitCrcFailure (.tag l.n)) s = .next (s.flitLost l.n true)) ∧
      (l.up = false → (s.pkg.links.map (·.n)).Nodup → exec (.flitCrcFailure (.crc l.n)) s = .next s ∧ exec (.flitCrcFailure (.tag l.n)) s = .next s) ∧
      (∀ good,
        let calls : Prop := l.up = true ∧ s.pkg.inUse l.n = true ∧ s.linksTrained = true ∧ 8 ≤ l.failures
        (calls → full - good ≤ l.spares → gives (.linkRetrain l.n good)
          { l with up := true, lanes := full, spares := l.spares - (full - good), failures := 0, again := true }) ∧
        (calls → l.spares < full - good → full / 2 ≤ good + l.spares → gives (.linkRetrain l.n good)
          { l with up := true, lanes := full / 2, spares := 0, failures := 0, again := true }) ∧
        (calls → good + l.spares < full / 2 → gives (.linkRetrain l.n good)
          { l with up := false, lanes := full / 2, spares := 0, failures := 0, again := true }) ∧
        (¬calls → gives (.linkRetrain l.n good) l)) ∧
      (l.n < 12 → gives (.peerLinkDown l.n) { l with up := false })) ∧
    (∀ (link : Nat) (conf : Bool), (s.flitUsers link conf = [] → s.flitLost link conf = s) ∧
      (s.flitUsers link conf ≠ [] → ∃ u ∈ s.flitUsers link conf, s.flitLost link conf = s.flitMeets u)) ∧
    (∀ id o, s.op? id = some o → (s.flitMeets (.op id)).op? id = some { o with poison := true }) ∧
    (∀ d, d < 6 → (s.die d).resetting = false → (∃ x ∈ s.dies, x.n = d) →
      (∀ c ∈ s.cohorts, dieOfHearth c.hearth = d → c.run = .suspended ∨ c.crews = []) →
      (∀ c ∈ s.contexts, c.destroyed = false → c.stopping = true → ∀ r ∈ (s.die d).store, (s.slot r.slot).ctx ≠ c.id) →
      ∃ t : State, exec (.dieReset d) s = .next t ∧ (t.die d).resetting = true ∧ t.mem = s.mem ∧ t.ltime = s.ltime ∧ t.fibres = s.fibres ∧
        (t.die d).repair = (s.die d).repair ∧ (t.die d).applied = (s.die d).repair.length ∧ (t.die d).retired = (s.die d).retired ∧
        (d < 4 → (∀ l ∈ t.l2, l.die ≠ d) ∧ (t.die d).tlb = [] ∧ (t.die d).walkCache = [] ∧ (t.die d).clock = 0 ∧
          (∀ r, r ∈ (t.die d).store ↔ r ∈ (s.die d).store ∧ ∃ c, s.context? (s.slot r.slot).ctx = some c ∧ c.suspended = true) ∧
          (∀ h, dieOfHearth h = d → (∃ x ∈ s.hearths, x.id = h) → (t.hearth h).front = s.policy.front ∧ (t.hearth h).l1 = [] ∧
            (t.hearth h).tlb = [] ∧ (t.hearth h).fenced = (t.die d).faulty.contains (.hearth h))) ∧
        (4 ≤ d → ∀ l ∈ t.pkg.links, linkDie l.n = d → l.up = false) ∧
        (∀ k, k ≠ d → t.die k = s.die k)) ∧
    (∀ d, (s.die d).resetting = true → (∀ c ∈ s.contexts, c.replaying = none) →
      ∃ t : State, exec (.dieResetComplete d) s = .next t ∧ t.die d = { s.die d with resetting := false } ∧ t.mem = s.mem ∧
        t.contexts = s.contexts ∧ (∀ k, k ≠ d → t.die k = s.die k) ∧ (d < 4 ∨ s.linksTrained = false → t.pkg.links = s.pkg.links)) ∧
    (∀ k, s.pkg.powered = true → k ≤ 4 → s.pkg.stage = BitVec.ofNat 32 (k * 2 ^ 24) →
      (∃ t : State, exec (.bringUp .passes) s = .next t ∧ t.pkg.stage = BitVec.ofNat 32 ((k + 1) * 2 ^ 24) ∧ t.mem = s.mem ∧
        t.window = { s.window with ready := s.window.ready || k == 4 } ∧
        (k = 0 → t.hearths = (List.range 192).map fun n =>
          { Hearth.fresh s n with fenced := (s.die (dieOfHearth n)).repaired.faulty.contains (.hearth n), interval := s.ltime / 10000 * 10000 }) ∧
        (k = 3 → (∀ l ∈ t.pkg.links, l.n = 12 → l.up = true) ∧
          (torusOk (Config.torus s.pkg.torusOff) = true → (t.pkg.dims, t.pkg.coord) = Config.torus s.pkg.torusOff) ∧
          ∀ l ∈ t.pkg.links, l.n ≠ 12 → 2 * t.pkg.dims.length ≤ l.n → l.up = false) ∧
        (k ≠ 3 → t.pkg.links = s.pkg.links ∧ t.pkg.dims = s.pkg.dims)) ∧
      (∀ u, exec (.bringUp (.fails u)) s =
        .next { s with pkg := { s.pkg with stage := BitVec.ofNat 32 (0xFF * 2 ^ 24 + (k + 1) * 2 ^ 16 + u % 16 * 2 ^ 12) } })) ∧
    (5 ≤ (s.pkg.stage >>> 24).toNat → ∀ o, exec (.bringUp o) s = .next s)

/-- R351 to R355, R417, R427, R429 to R431: a stop order stops every running cohort of its context on the hearth; with all stopped the image
is written and the context stands suspended; a restore puts its cohorts and queues back, the header of its image at 2 and its queues in the states
that their packets give them; an interval of 10 µs renews the hearth's budget and frees
its held cohorts; a clock change, retention and its end, and new temperatures take effect. Model's choices: a restore takes its cohorts from State, the
image being written beside them (log 61); a clock change leaves the hearth's budget to the next interval (log 82); what a parity error at the end of
retention loses (log 83); intervals lie on a grid of 10 µs from power-on (log 103). -/
def Obligations.PreemptionPowerAndTemperature : Prop :=
  ∀ s : State,
    (∀ (ctx hearth m : Nat) (c : Context), s.context? ctx = some c → c.suspended = false →
      ((c.stopping = true ∧ m = c.mode) ∨ (c.stopping = false ∧ s.stopMode ctx = some m)) → s.frontUp = true →
      ∃ t : State, exec (.preemptStopOrder ctx hearth) s = .next t ∧ t.mem = s.mem ∧ t.slots = s.slots ∧ t.queues = s.queues ∧
        (∀ x ∈ t.cohorts, x.hearth = hearth → (s.slot x.slot).ctx = ctx → x.crews ≠ [] → x.run ≠ .running) ∧
        (∀ x ∈ t.contexts, x.id = ctx → x.stopping = true ∧ x.mode = m)) ∧
    (∀ (ctx : Nat) (c : Context), s.context? ctx = some c → c.stopping = true → s.ctxStopped ctx = true → s.frontUp = true →
      (∀ x ∈ s.ctxCohorts ctx, ∀ l ∈ x.lines, l.dirty = 0) → s.savable c = true →
      ∃ t : State, exec (.contextSaveComplete ctx) s = .next t ∧ t.mem = s.mem.putBytes c.saveAddr (s.contextImage ctx) ∧
        (∀ x ∈ t.contexts, x.id = ctx → x.suspended = true ∧ x.stopping = false) ∧ t.slots = s.slots ∧
        (∀ x ∈ t.cohorts, (s.slot x.slot).ctx = ctx → x.crews ≠ [] → x.run = .suspended) ∧
        t.queues = s.queues.map fun q =>
          if q.ctx = ctx ∧ (q.state = .idle ∨ q.state = .running ∨ q.state = .waiting) then { q with state := .suspended } else q) ∧
    (∀ (ctx : Nat) (c : Context), s.context? ctx = some c → c.suspended = true → s.mayRestore c = true → s.frontUp = true →
      let r := s.restoreContext ctx
      exec (.contextRestore ctx) s = .next ((s.queues.filter fun q => q.ctx == ctx).foldl (fun (s : State) q => s.queueSettle q.n) r) ∧
      ((∀ f ∈ s.fibres, f.order = none ∧ f.sequencing = none) → r.mem = s.mem.put (c.saveAddr + 2) 2 ∧
        r.queues = s.queues.map fun q =>
          if q.ctx = ctx ∧ q.state = .suspended then { q with state := if q.read = q.tail ∧ q.pkts = [] then .idle else .running } else q) ∧
      (∃ c', r.context? ctx = some c' ∧ c'.suspended = false ∧ c'.mode = 0 ∧ c'.restored = s.ltime ∧ c'.root = c.root)) ∧
    (∀ (c : Cohort) (t : State), s.restoreAt c c.hearth = some t → s.restoreCohort c = some t ∧
      ∀ x ∈ t.cohorts, x.uid = c.uid → x.run = .running ∧ x.hearth = c.hearth) ∧
    (∀ n, s.ltime < (s.hearth n).interval + 10000 → exec (.damperInterval n) s = .next s) ∧
    (∀ n, n < 192 → (s.hearth n).interval + 10000 ≤ s.ltime → ∃ t : State, exec (.damperInterval n) s = .next t ∧
      t.hearth n = { s.hearth n with budget := s.budgetOf n (s.hearth n).front, interval := s.ltime / 10000 * 10000 } ∧
      (∀ c ∈ t.cohorts, c.hearth = n → c.metered = 0 ∧ c.held = false) ∧ t.fibres = s.fibres ∧ t.mem = s.mem) ∧
    (∀ n, s.pkg.limitW = 2600 → (∀ x ∈ s.pkg.temps, x ≤ 95) → (∀ x ∈ s.pkg.hbmTemps, x ≤ 95) →
      s.budgetOf n 0 = (75000, 12000) ∧ s.budgetOf n 1 = (71000, 12000) ∧ s.budgetOf n 2 = (77000, 12000)) ∧
    (let hearthBecomes (i : Instr) (n : Nat) (h : Hearth) : Prop := ∃ t : State, exec i s = .next t ∧ t.hearth n = h ∧
        (∀ k, k ≠ n → t.hearth k = s.hearth k) ∧ t = { s with hearths := t.hearths }
     (∀ n f, (s.hearth n).frontReq = some f → s.resident n = [] →
        hearthBecomes (.frontClockChange n) n { s.hearth n with front := f, frontReq := none }) ∧
     (∀ n since, (s.hearth n).retention = false → s.hearthIdle n = true → (s.hearth n).idleSince = some since →
        since + 1000 * s.policy.retentionUs < s.ltime → hearthBecomes (.retentionEntry n) n { s.hearth n with retention := true }) ∧
     (∀ n, (s.hearth n).retention = true →
        hearthBecomes (.retentionExit n false) n { s.hearth n with retention := false, idleSince := none } ∧
        (s.resident n = [] → hearthBecomes (.retentionExit n true) n { s.hearth n with retention := false, idleSince := none, suspect := true }) ∧
        (∀ c, s.resident n = [c] → exec (.retentionExit n true) s = .next
          ((s.setHearth { s.hearth n with retention := false, idleSince := none, suspect := true }).loseCohort c)))) ∧
    (∀ d celsius, (∃ x ∈ s.dies, x.n = d) → ∃ t : State, exec (.junctionTemperatureChange d celsius) s = .next t ∧
      t.pkg.temps = s.pkg.temps.set d celsius ∧ t.mem = s.mem ∧ (105 ≤ celsius → (t.die d).hot = true) ∧ (celsius < 100 → (t.die d).hot = false) ∧
      (100 ≤ celsius → celsius < 105 → (t.die d).hot = (s.die d).hot)) ∧
    (∀ k celsius, exec (.hbmStackTemperatureChange k celsius) s = .next { s with pkg := { s.pkg with hbmTemps := s.pkg.hbmTemps.set k celsius } })

/-- R206, R213, R229, R413 to R416, R419, R420, R148, R180: an uncorrectable error poisons the granule, line, tile, accumulator or register
that it is found in; a residue or a pair mismatch raises its cause in the fibre whose next group shows it and marks or fences the hearth; a
test of a suspect hearth fences it or clears it, and what a test confirms goes into the repair map of its die, an L2 row's ways no longer allocated, an
HBM4 row's frames out of use; a store of the host or of a peer over a link that works, and a peer's atomic, change the bytes
that they name and no other, poisoned data poisons their granules, and a release of the host waits for the acknowledgements of its stores; a peer's
access is translated here first; an invalidation of the host takes the line from the die once its leases are over. Model's choices: the free
detail bytes of a tile residue halt (log 45), mismatches as events that the next group shows (log 84), host memory untouched while another die holds
the line (log 86), a peer that waits for a service tries again (log 85), the power of a test and the sets and frames of a row (log 103). -/
def Obligations.ErrorsAndOtherAgents : Prop :=
  ∀ s : State,
    (∀ pa, ∃ t : State, exec (.uncorrectableErrorDetected (.granule pa)) s = .next t ∧ t = { s with poison := t.poison } ∧
      ∀ g, t.poison.contains g = (decide (g = pa / 64) || s.poison.contains g)) ∧
    (∀ u c n, s.cohort? u = some c →
      let cohortBecomes (site : ErrorSite) (c' : Cohort) : Prop := ∃ t : State, exec (.uncorrectableErrorDetected site) s = .next t ∧
        t.cohort? u = some c' ∧ (∀ v, v ≠ u → t.cohort? v = s.cohort? v) ∧ t = { s with cohorts := t.cohorts }
      (n < c.decl.lines → cohortBecomes (.stashLine u n) (c.setLine { c.line n with poison := true })) ∧
      (n < c.decl.tiles → cohortBecomes (.tile u n) (c.setTile { c.tile n with poison := true })) ∧
      (n < c.decl.accs → cohortBecomes (.acc u n) (c.setAcc { c.acc n with poison := true }))) ∧
    (∀ u f, s.fibre? u = some f →
      (∀ r, r < f.arch.regs.length → f.badRegs.contains r = false → ∃ t : State, exec (.uncorrectableErrorDetected (.reg u r)) s = .next t ∧
        t.fibre? u = some { f with badRegs := r :: f.badRegs } ∧ (∀ v, v ≠ u → t.fibre? v = s.fibre? v) ∧ t = { s with fibres := t.fibres }) ∧
      (s.ready f = true → groupFault (f.arch.pc.toNat % 3) (f.arch.repc == 0) f.groupWords = none →
        (∀ (k : BitVec 5) (w : DWord), f.residueWord k.toNat = some w → exec (.uncorrectableErrorDetected (.residue u k)) s =
          .next ((s.raiseGroup f { OpenGroup.fresh f with repeating := f.repAhead } (mkCause 10 (if k = 2 then 4 else 5)) w).updHearth (s.hearthOf f) fun h : Hearth => { h with suspect := true })) ∧
        ((s.slotOf f).record.paired = true → exec (.uncorrectableErrorDetected (.pair u)) s =
          .next (((s.raiseGroup f { OpenGroup.fresh f with repeating := f.repAhead } (mkCause 10 6) (f.arch.pc.setWidth 64)).fence
            (s.hearthOf f)).moveOff (s.hearthOf f))))) ∧
    (∀ n c, (s.tileCmds n).find? (fun c => c.run == .running && match c.op with | .tmma _ => true | _ => false) = some c →
      exec (.uncorrectableErrorDetected (.tileResidue n)) s =
        .next ((s.haltCmd c 0x09 (freeBytes s.run.tick 28 (64 * c.id) 10)).updHearth n fun h : Hearth => { h with suspect := true })) ∧
    (∀ n, s.frontUp = true → n < 192 → (s.hearth n).suspect = true → (s.hearth n).fenced = false → s.resident n = [] →
      Config.choice s.run.tick 31 0 ≤ (s.hearth n).budget.1 → Config.choice s.run.tick 31 1 ≤ (s.hearth n).budget.2 →
      (∃ t : State, exec (.inFieldTest (.hearth n) false) s = .next t ∧ t.hearth n = { s.hearth n with suspect := false } ∧
        t = { s with hearths := t.hearths }) ∧
      (∃ t : State, exec (.inFieldTest (.hearth n) true) s = .next t ∧ t.hearth n = { s.hearth n with fenced := true, suspect := false } ∧
        t.mem = s.mem ∧ ((∃ x ∈ s.dies, x.n = dieOfHearth n) → RepairUnit.hearth n ∉ (s.die (dieOfHearth n)).faulty →
          (s.die (dieOfHearth n)).repair.length < 64 → RepairUnit.hearth n ∈ (t.die (dieOfHearth n)).repair))) ∧
    (∀ d m row, s.frontUp = true → d < 4 → m < 32 → exec (.inFieldTest (.l2Row d m row) false) s = .next s ∧
      ∃ t : State, exec (.inFieldTest (.l2Row d m row) true) s = .next t ∧ t = { s with dies := t.dies } ∧
        ((∃ x ∈ s.dies, x.n = d) → RepairUnit.l2Row d m row ∉ (s.die d).faulty → (s.die d).applied ≤ (s.die d).repair.length →
          ((s.die d).repair.length < 64 → RepairUnit.l2Row d m row ∈ (t.die d).repair) ∧
          ∀ key, key / 2 ^ 14 = d → key / 512 % 32 = m → Config.l2RowSets row (key % 512) = true → t.waysOf key = s.waysOf key - 1)) ∧
    (∀ stack row, s.testable (.hbmRow stack row) = true → exec (.inFieldTest (.hbmRow stack row) false) s = .next s ∧
      ∃ t : State, exec (.inFieldTest (.hbmRow stack row) true) s = .next t ∧ (∀ f ∈ badFrame (.hbmRow stack row), t.frameFree f.1 f.2.1 = false) ∧
        ((∃ x ∈ s.dies, x.n = 4 + stack / 6) → RepairUnit.hbmRow stack row ∉ (s.die (4 + stack / 6)).faulty →
          (s.die (4 + stack / 6)).repair.length < 64 → RepairUnit.hbmRow stack row ∈ (t.die (4 + stack / 6)).repair)) ∧
    (let stores (s0 : State) (i : Instr) (pa : Nat) (bs : List Byte) (bad : Bool) : Prop := s0.run.fired = [] → s0.copying pa bs.length = false →
        s0.rangeUp pa bs.length = true → (∀ w ∈ s0.joinWatches, touches pa bs.length w.pa = false) →
        ∃ t : State, exec i s = .next t ∧ t.hostMem = s0.hostMem ∧ t.peerMem = s0.peerMem ∧ t.fibres = s0.fibres ∧
          (∀ a, t.mem.get a = if pa ≤ a ∧ a < pa + bs.length then bs.getD (a - pa) 0 else s0.mem.get a) ∧
          (bad = true → ∀ a, pa ≤ a → a < pa + bs.length → t.poison.contains (a / 64) = true)
     (∀ (pa : Nat) (st : HostStore), pa + st.bytes.length ≤ memTop → s.hostUp = true →
        (st.release = true → s.acked 0 = true) → stores s (.hostStoreToDevice pa (.store st)) pa st.bytes st.poisoned) ∧
     (∀ (pa : Nat) (st : HostStore), st.release = true → s.acked 0 = false → exec (.hostStoreToDevice pa (.store st)) s = .next s) ∧
     (∀ (r : PeerReq) (s1 : State) (pa : Nat), s.peersUp = true → 0 < peerSize r.access → r.off.toNat % 4096 + peerSize r.access ≤ 4096 →
        (∀ bs bad, r.access = .store bs bad → s.unitXlate 0 r.ctx 1 ⟨0, r.off⟩ = .ok s1 (.dev pa) → s1.stackUp pa = true →
          stores s1 (.peerAccess r) pa bs bad) ∧
        (∀ (o : BitVec 4) (op : AtomOp) (ty : Ty) (b e v : Nat), r.access = .atomic o ty b e → atomOfCode o = some op →
          r.off.toNat % (ty.bits / 8) = 0 → s.unitXlate 0 r.ctx 1 ⟨0, r.off⟩ = .ok s1 (.dev pa) → s1.stackUp pa = true →
          s1.poisoned (.dev pa) (ty.bits / 8) = false →
          atomVal op ty (s1.mem.readLE pa (ty.bits / 8)) (b % 2 ^ ty.bits) (e % 2 ^ ty.bits) = some v →
          stores s1 (.peerAccess r) pa (leBytes (ty.bits / 8) v) false) ∧
        (∀ n, r.access = .load n → s.unitXlate 0 r.ctx 0 ⟨0, r.off⟩ = .ok s1 (.dev pa) → s1.stackUp pa = true →
          ∃ t : State, exec (.peerAccess r) s = .next t ∧ t.mem = s1.mem ∧ t.fibres = s1.fibres))) ∧
    (∀ r : PeerReq, (∃ k, s.unitXlate 0 r.ctx k ⟨0, r.off⟩ = .fault ∧ k = (peerWrites r.access).toNat) → exec (.peerAccess r) s = .next s) ∧
    (∀ pa n keep, pa + n ≤ memTop → s.hostUp = true → s.rangeUp pa n = true → ∃ t : State, exec (.hostStoreToDevice pa (.load n keep)) s = .next t ∧
      t.mem = s.mem ∧ t.fibres = s.fibres ∧ (∀ line ∈ linesOf pa n, keep = true → (t.hostHas line).isSome = true) ∧
      ∀ x ∈ t.l2, x.host = false → x.line ∈ linesOf pa n → s.hostHas x.line = none → x.state ≠ .M ∧ x.state ≠ .E) ∧
    (∀ (d line : Nat), s.hostUp = true → (s.l2? d true line).isSome = true → s.horizon d true line + 8 ≤ s.ltimeAt d →
      ∃ t : State, exec (.hostInvalidate d line) s = .next t ∧ t.l2? d true line = none ∧ t.mem = s.mem ∧
        (∀ a, a / 256 ≠ line → t.hostMem.get a = s.hostMem.get a) ∧
        ((∃ x ∈ s.l2, x.host = true ∧ x.line = line ∧ x.die ≠ d) → t.hostMem = s.hostMem))
end

