-- ==== Sys2Proof/Laws/Encoding.lean ====
section
/-! SUPPORT. The fields of a word and the LIT payloads: reading what was written. -/

set_option linter.unusedSimpArgs false

namespace Sys2Proof

/-! ### Fields of a concatenation -/

/-- A field above the low part lies in the high part. -/
theorem extract_high {m n : Nat} (x : BitVec m) (y : BitVec n) (k l : Nat) (h : n ≤ k) :
    (x ++ y).extractLsb' k l = x.extractLsb' (k - n) l := by
  apply BitVec.eq_of_getLsbD_eq
  intro i hi
  simp only [BitVec.getLsbD_extractLsb', BitVec.getLsbD_append]
  rw [if_neg (by omega)]
  congr 2
  omega

/-- A field within the low part. -/
theorem extract_low {m n : Nat} (x : BitVec m) (y : BitVec n) (k l : Nat) (h : k + l ≤ n) :
    (x ++ y).extractLsb' k l = y.extractLsb' k l := by
  apply BitVec.eq_of_getLsbD_eq
  intro i hi
  simp only [BitVec.getLsbD_extractLsb', BitVec.getLsbD_append]
  rw [if_pos (by omega)]

theorem extract_self {n : Nat} (x : BitVec n) : x.extractLsb' 0 n = x := by
  apply BitVec.eq_of_getLsbD_eq
  intro i hi
  simp [hi]

theorem extract_zero (n k l : Nat) : (0 : BitVec n).extractLsb' k l = 0 := by
  apply BitVec.eq_of_getLsbD_eq
  intro i hi
  simp

theorem bit_high {m n : Nat} (x : BitVec m) (y : BitVec n) (k : Nat) (h : n ≤ k) : (x ++ y).getLsbD k = x.getLsbD (k - n) := by
  rw [BitVec.getLsbD_append, if_neg (by omega)]

theorem bit_low {m n : Nat} (x : BitVec m) (y : BitVec n) (k : Nat) (h : k < n) : (x ++ y).getLsbD k = y.getLsbD k := by
  rw [BitVec.getLsbD_append, if_pos h]

/-! ### Words -/

@[simp] theorem Raw.ofWord_toWord (r : Raw) : Raw.ofWord r.toWord = r := by
  obtain ⟨c, k, o, d, a, b, g⟩ := r
  simp (disch := decide) only [Raw.ofWord, Raw.toWord, bit_high, extract_high, extract_low, Nat.reduceSub, extract_self]
  simp

@[simp] theorem LitRaw.ofWord_toWord (l : LitRaw) : LitRaw.ofWord l.toWord = some l := by
  obtain ⟨c, p⟩ := l
  have h1 : (LitRaw.toWord (c, p)).extractLsb' 26 5 = 31 := by
    simp (disch := decide) only [LitRaw.toWord, extract_high, extract_low, Nat.reduceSub, extract_self]
  have h2 : (LitRaw.toWord (c, p)).getLsbD 31 = c := by
    simp (disch := decide) only [LitRaw.toWord, bit_high, Nat.reduceSub]
    simp
  have h3 : (LitRaw.toWord (c, p)).extractLsb' 0 26 = p := by
    simp (disch := decide) only [LitRaw.toWord, extract_low, extract_self]
  simp only [LitRaw.ofWord, h1, h2, h3, if_true]

/-! ### Codes -/

@[simp] theorem Ty.ofCode_code (t : Ty) : Ty.ofCode t.code = some t := by cases t <;> rfl
@[simp] theorem Rnd.ofCode_code (t : Rnd) : Rnd.ofCode t.code = some t := by cases t <;> rfl
@[simp] theorem Den.ofCode_code (t : Den) : Den.ofCode t.code = t := by cases t <;> rfl
@[simp] theorem Order.ofCode_code (t : Order) : Order.ofCode t.code = some t := by cases t <;> rfl
@[simp] theorem Scope.ofCode_code (t : Scope) : Scope.ofCode t.code = some t := by cases t <;> rfl
@[simp] theorem Width.ofCode_code (t : Width) : Width.ofCode t.code = some t := by cases t <;> rfl
@[simp] theorem Ovf.ofCode_code (t : Ovf) : Ovf.ofCode t.code = some t := by cases t <;> rfl
@[simp] theorem PSet.ofCode_code (t : PSet) : PSet.ofCode t.code = some t := by
  cases t with
  | all => rfl
  | mask j => revert j; decide
  | reg r => revert r; decide

/-! ### Payloads -/

@[simp] theorem LitInt.ofBits_toBits (l : LitInt) : LitInt.ofBits l.toBits = some l := by
  cases l with
  | imm v =>
    have h1 : (LitInt.imm v).toBits.getLsbD 25 = true := by
      simp (disch := decide) only [LitInt.toBits, bit_high, Nat.reduceSub]
      rfl
    have h2 : (LitInt.imm v).toBits.extractLsb' 0 25 = v := by simp (disch := decide) only [LitInt.toBits, extract_low, extract_self]
    simp only [LitInt.ofBits, h1, h2, if_true]
  | fields t v s x =>
    have h0 : (LitInt.fields t v s x).toBits.getLsbD 25 = false := by
      simp (disch := decide) only [LitInt.toBits, bit_high, Nat.reduceSub]
      rfl
    have h1 : (LitInt.fields t v s x).toBits.extractLsb' 20 5 = t.code := by
      simp (disch := decide) only [LitInt.toBits, extract_high, extract_low, Nat.reduceSub, extract_self]
    have h2 : (LitInt.fields t v s x).toBits.extractLsb' 18 2 = v.code := by
      simp (disch := decide) only [LitInt.toBits, extract_high, extract_low, Nat.reduceSub, extract_self]
    have h3 : (LitInt.fields t v s x).toBits.extractLsb' 15 3 = s := by
      simp (disch := decide) only [LitInt.toBits, extract_high, extract_low, Nat.reduceSub, extract_self]
    have h4 : (LitInt.fields t v s x).toBits.extractLsb' 9 6 = x := by
      simp (disch := decide) only [LitInt.toBits, extract_high, extract_low, Nat.reduceSub, extract_self]
    have h5 : (LitInt.fields t v s x).toBits.extractLsb' 0 9 = 0 := by
      simp (disch := decide) only [LitInt.toBits, extract_low, extract_self]
    simp [-BitVec.getLsbD_eq_getElem, LitInt.ofBits, h0, h1, h2, h3, h4, h5]

@[simp] theorem LitFlt.ofBits_toBits (l : LitFlt) : LitFlt.ofBits l.toBits = some l := by
  cases l with
  | fimm v =>
    have h1 : (LitFlt.fimm v).toBits.getLsbD 25 = true := by
      simp (disch := decide) only [LitFlt.toBits, bit_high, Nat.reduceSub]
      rfl
    have h2 : (LitFlt.fimm v).toBits.extractLsb' 0 25 = v := by simp (disch := decide) only [LitFlt.toBits, extract_low, extract_self]
    simp only [LitFlt.ofBits, h1, h2, if_true]
  | fields t st r dn nan s x =>
    have h0 : (LitFlt.fields t st r dn nan s x).toBits.getLsbD 25 = false := by
      simp (disch := decide) only [LitFlt.toBits, bit_high, Nat.reduceSub]
      rfl
    have h1 : (LitFlt.fields t st r dn nan s x).toBits.extractLsb' 20 5 = t.code := by
      simp (disch := decide) only [LitFlt.toBits, extract_high, extract_low, Nat.reduceSub, extract_self]
    have h2 : (LitFlt.fields t st r dn nan s x).toBits.extractLsb' 15 5 = st.code := by
      simp (disch := decide) only [LitFlt.toBits, extract_high, extract_low, Nat.reduceSub, extract_self]
    have h3 : (LitFlt.fields t st r dn nan s x).toBits.extractLsb' 12 3 = r.code := by
      simp (disch := decide) only [LitFlt.toBits, extract_high, extract_low, Nat.reduceSub, extract_self]
    have h4 : (LitFlt.fields t st r dn nan s x).toBits.extractLsb' 10 2 = dn.code := by
      simp (disch := decide) only [LitFlt.toBits, extract_high, extract_low, Nat.reduceSub, extract_self]
    have h5 : (LitFlt.fields t st r dn nan s x).toBits.getLsbD 9 = nan := by
      simp (disch := decide) only [LitFlt.toBits, bit_high, bit_low, Nat.reduceSub]
      simp
    have h6 : (LitFlt.fields t st r dn nan s x).toBits.extractLsb' 6 3 = s := by
      simp (disch := decide) only [LitFlt.toBits, extract_high, extract_low, Nat.reduceSub, extract_self]
    have h7 : (LitFlt.fields t st r dn nan s x).toBits.extractLsb' 0 6 = x := by
      simp (disch := decide) only [LitFlt.toBits, extract_low, extract_self]
    simp only [LitFlt.ofBits, h0, h1, h2, h3, h4, h5, h6, h7, Ty.ofCode_code, Rnd.ofCode_code, Den.ofCode_code]
    simp

@[simp] theorem LitMem.ofBits_toBits (l : LitMem) (h : l.ord ≠ .sc) : LitMem.ofBits l.toBits = some l := by
  obtain ⟨ty, ord, scope, space, off⟩ := l
  have h0 : (LitMem.mk ty ord scope space off).toBits.extractLsb' 21 5 = ty.code := by
    simp (disch := decide) only [LitMem.toBits, extract_high, extract_low, Nat.reduceSub, extract_self]
  have h1 : (LitMem.mk ty ord scope space off).toBits.extractLsb' 18 3 = ord.code := by
    simp (disch := decide) only [LitMem.toBits, extract_high, extract_low, Nat.reduceSub, extract_self]
  have h2 : (LitMem.mk ty ord scope space off).toBits.extractLsb' 14 4 = scope.code := by
    simp (disch := decide) only [LitMem.toBits, extract_high, extract_low, Nat.reduceSub, extract_self]
  have h3 : (LitMem.mk ty ord scope space off).toBits.extractLsb' 12 2 = space := by
    simp (disch := decide) only [LitMem.toBits, extract_high, extract_low, Nat.reduceSub, extract_self]
  have h4 : (LitMem.mk ty ord scope space off).toBits.extractLsb' 0 12 = off := by
    simp (disch := decide) only [LitMem.toBits, extract_high, extract_low, Nat.reduceSub, extract_self]
  simp [-BitVec.getLsbD_eq_getElem, LitMem.ofBits, show ord ≠ .sc from h, h0, h1, h2, h3, h4]

@[simp] theorem LitStash.ofBits_toBits (l : LitStash) : LitStash.ofBits l.toBits = some l := by
  obtain ⟨ty, space, off⟩ := l
  have h0 : (LitStash.mk ty space off).toBits.extractLsb' 21 5 = ty.code := by
    simp (disch := decide) only [LitStash.toBits, extract_high, extract_low, Nat.reduceSub, extract_self]
  have h1 : (LitStash.mk ty space off).toBits.extractLsb' 19 2 = space := by
    simp (disch := decide) only [LitStash.toBits, extract_high, extract_low, Nat.reduceSub, extract_self]
  have h2 : (LitStash.mk ty space off).toBits.extractLsb' 0 19 = off := by
    simp (disch := decide) only [LitStash.toBits, extract_high, extract_low, Nat.reduceSub, extract_self]
  simp [-BitVec.getLsbD_eq_getElem, LitStash.ofBits, h0, h1, h2]

@[simp] theorem LitFence.ofBits_toBits (l : LitFence) : LitFence.ofBits l.toBits = some l := by
  obtain ⟨ord, scope⟩ := l
  have h0 : (LitFence.mk ord scope).toBits.extractLsb' 23 3 = ord.code := by
    simp (disch := decide) only [LitFence.toBits, extract_high, extract_low, Nat.reduceSub, extract_self]
  have h1 : (LitFence.mk ord scope).toBits.extractLsb' 19 4 = scope.code := by
    simp (disch := decide) only [LitFence.toBits, extract_high, extract_low, Nat.reduceSub, extract_self]
  have h2 : (LitFence.mk ord scope).toBits.extractLsb' 0 19 = 0 := by
    simp (disch := decide) only [LitFence.toBits, extract_high, extract_low, Nat.reduceSub, extract_self]
  simp [-BitVec.getLsbD_eq_getElem, LitFence.ofBits, h0, h1, h2]

@[simp] theorem LitXl.ofBits_toBits (l : LitXl) : LitXl.ofBits l.toBits = some l := by
  obtain ⟨set, tag, width, mode, pdst, w64⟩ := l
  have h0 : (LitXl.mk set tag width mode pdst w64).toBits.extractLsb' 19 7 = set.code := by
    simp (disch := decide) only [LitXl.toBits, extract_high, extract_low, Nat.reduceSub, extract_self]
  have h1 : (LitXl.mk set tag width mode pdst w64).toBits.extractLsb' 11 8 = tag := by
    simp (disch := decide) only [LitXl.toBits, extract_high, extract_low, Nat.reduceSub, extract_self]
  have h2 : (LitXl.mk set tag width mode pdst w64).toBits.extractLsb' 8 3 = width.code := by
    simp (disch := decide) only [LitXl.toBits, extract_high, extract_low, Nat.reduceSub, extract_self]
  have h3 : (LitXl.mk set tag width mode pdst w64).toBits.extractLsb' 6 2 = mode := by
    simp (disch := decide) only [LitXl.toBits, extract_high, extract_low, Nat.reduceSub, extract_self]
  have h4 : (LitXl.mk set tag width mode pdst w64).toBits.extractLsb' 3 3 = pdst := by
    simp (disch := decide) only [LitXl.toBits, extract_high, extract_low, Nat.reduceSub, extract_self]
  have h5 : (LitXl.mk set tag width mode pdst w64).toBits.getLsbD 2 = w64 := by
    simp (disch := decide) only [LitXl.toBits, bit_high, bit_low, Nat.reduceSub]
    simp
  have h6 : (LitXl.mk set tag width mode pdst w64).toBits.extractLsb' 0 2 = 0 := by
    simp (disch := decide) only [LitXl.toBits, extract_high, extract_low, Nat.reduceSub, extract_self]
  simp [-BitVec.getLsbD_eq_getElem, LitXl.ofBits, h0, h1, h2, h3, h4, h5, h6]

@[simp] theorem LitGrp.ofBits_toBits (l : LitGrp) (h : l.rnd ≠ .rs) : LitGrp.ofBits l.toBits = some l := by
  obtain ⟨set, tag, width, rnd, den⟩ := l
  have h0 : (LitGrp.mk set tag width rnd den).toBits.extractLsb' 19 7 = set.code := by
    simp (disch := decide) only [LitGrp.toBits, extract_high, extract_low, Nat.reduceSub, extract_self]
  have h1 : (LitGrp.mk set tag width rnd den).toBits.extractLsb' 11 8 = tag := by
    simp (disch := decide) only [LitGrp.toBits, extract_high, extract_low, Nat.reduceSub, extract_self]
  have h2 : (LitGrp.mk set tag width rnd den).toBits.extractLsb' 8 3 = width.code := by
    simp (disch := decide) only [LitGrp.toBits, extract_high, extract_low, Nat.reduceSub, extract_self]
  have h3 : (LitGrp.mk set tag width rnd den).toBits.extractLsb' 5 3 = rnd.code := by
    simp (disch := decide) only [LitGrp.toBits, extract_high, extract_low, Nat.reduceSub, extract_self]
  have h4 : (LitGrp.mk set tag width rnd den).toBits.extractLsb' 3 2 = den.code := by
    simp (disch := decide) only [LitGrp.toBits, extract_high, extract_low, Nat.reduceSub, extract_self]
  have h5 : (LitGrp.mk set tag width rnd den).toBits.extractLsb' 0 3 = 0 := by
    simp (disch := decide) only [LitGrp.toBits, extract_high, extract_low, Nat.reduceSub, extract_self]
  simp [-BitVec.getLsbD_eq_getElem, LitGrp.ofBits, show rnd ≠ .rs from h, h0, h1, h2, h3, h4, h5]

@[simp] theorem LitCall.ofBits_toBits (l : LitCall) : LitCall.ofBits l.toBits = some l := by
  obtain ⟨slide⟩ := l
  have h0 : (LitCall.mk slide).toBits.extractLsb' 21 5 = slide := by
    simp (disch := decide) only [LitCall.toBits, extract_high, extract_low, Nat.reduceSub, extract_self]
  have h1 : (LitCall.mk slide).toBits.extractLsb' 0 21 = 0 := by
    simp (disch := decide) only [LitCall.toBits, extract_high, extract_low, Nat.reduceSub, extract_self]
  simp [-BitVec.getLsbD_eq_getElem, LitCall.ofBits, h0, h1]

@[simp] theorem LitWaitc.ofBits_toBits (l : LitWaitc) : LitWaitc.ofBits l.toBits = some l := by
  obtain ⟨ld, st, cp, tl⟩ := l
  have h0 : (LitWaitc.mk ld st cp tl).toBits.extractLsb' 24 2 = 0 := by
    simp (disch := decide) only [LitWaitc.toBits, extract_high, extract_low, Nat.reduceSub, extract_self]
  have h1 : (LitWaitc.mk ld st cp tl).toBits.extractLsb' 18 6 = ld := by
    simp (disch := decide) only [LitWaitc.toBits, extract_high, extract_low, Nat.reduceSub, extract_self]
  have h2 : (LitWaitc.mk ld st cp tl).toBits.extractLsb' 12 6 = st := by
    simp (disch := decide) only [LitWaitc.toBits, extract_high, extract_low, Nat.reduceSub, extract_self]
  have h3 : (LitWaitc.mk ld st cp tl).toBits.extractLsb' 6 6 = cp := by
    simp (disch := decide) only [LitWaitc.toBits, extract_high, extract_low, Nat.reduceSub, extract_self]
  have h4 : (LitWaitc.mk ld st cp tl).toBits.extractLsb' 0 6 = tl := by
    simp (disch := decide) only [LitWaitc.toBits, extract_high, extract_low, Nat.reduceSub, extract_self]
  simp [-BitVec.getLsbD_eq_getElem, LitWaitc.ofBits, h0, h1, h2, h3, h4]

@[simp] theorem LitBar.ofBits_toBits (bop : BitVec 3) (l : LitBar) : LitBar.ofBits (l.toBits bop) = some l := by
  obtain ⟨scope⟩ := l
  have h0 : (LitBar.toBits bop ⟨scope⟩).extractLsb' 22 4 = scope.code := by
    simp (disch := decide) only [LitBar.toBits, extract_high, extract_low, Nat.reduceSub, extract_self]
  have h1 : (LitBar.toBits bop ⟨scope⟩).extractLsb' 0 19 = 0 := by
    simp (disch := decide) only [LitBar.toBits, extract_low, extract_self]
  simp [LitBar.ofBits, h0, h1]

/-- The bop of a `bar` LIT word. -/
@[simp] theorem LitBar.bop_toBits (bop : BitVec 3) (l : LitBar) : (l.toBits bop).extractLsb' 19 3 = bop := by
  simp (disch := decide) only [LitBar.toBits, extract_high, extract_low, Nat.reduceSub, extract_self]

@[simp] theorem LitSleep.ofBits_toBits (l : LitSleep) : LitSleep.ofBits l.toBits = some l := rfl

@[simp] theorem LitSpawn.ofBits_toBits (l : LitSpawn) : LitSpawn.ofBits l.toBits = some l := by
  obtain ⟨place, npay, ereg, entry⟩ := l
  have h0 : (LitSpawn.mk place npay ereg entry).toBits.extractLsb' 24 2 = place := by
    simp (disch := decide) only [LitSpawn.toBits, extract_high, extract_low, Nat.reduceSub, extract_self]
  have h1 : (LitSpawn.mk place npay ereg entry).toBits.extractLsb' 20 4 = npay := by
    simp (disch := decide) only [LitSpawn.toBits, extract_high, extract_low, Nat.reduceSub, extract_self]
  have h2 : (LitSpawn.mk place npay ereg entry).toBits.getLsbD 19 = ereg := by
    simp (disch := decide) only [LitSpawn.toBits, bit_high, bit_low, Nat.reduceSub]
    simp
  have h3 : (LitSpawn.mk place npay ereg entry).toBits.extractLsb' 0 19 = entry := by
    simp (disch := decide) only [LitSpawn.toBits, extract_high, extract_low, Nat.reduceSub, extract_self]
  simp [-BitVec.getLsbD_eq_getElem, LitSpawn.ofBits, h0, h1, h2, h3]

@[simp] theorem LitEng.ofBits_toBits (l : LitEng) : LitEng.ofBits l.toBits = some l := by
  obtain ⟨bv, bar, flue, soff⟩ := l
  have h0 : (LitEng.mk bv bar flue soff).toBits.getLsbD 25 = bv := by
    simp (disch := decide) only [LitEng.toBits, bit_high, bit_low, Nat.reduceSub]
    simp
  have h1 : (LitEng.mk bv bar flue soff).toBits.extractLsb' 20 5 = bar := by
    simp (disch := decide) only [LitEng.toBits, extract_high, extract_low, Nat.reduceSub, extract_self]
  have h2 : (LitEng.mk bv bar flue soff).toBits.extractLsb' 18 2 = flue := by
    simp (disch := decide) only [LitEng.toBits, extract_high, extract_low, Nat.reduceSub, extract_self]
  have h3 : (LitEng.mk bv bar flue soff).toBits.extractLsb' 0 18 = soff := by
    simp (disch := decide) only [LitEng.toBits, extract_high, extract_low, Nat.reduceSub, extract_self]
  simp [-BitVec.getLsbD_eq_getElem, LitEng.ofBits, h0, h1, h2, h3]

@[simp] theorem LitSys.ofBits_toBits (l : LitSys) : LitSys.ofBits l.toBits = some l := by
  obtain ⟨scope, imm⟩ := l
  have h0 : (LitSys.mk scope imm).toBits.extractLsb' 22 4 = scope.code := by
    simp (disch := decide) only [LitSys.toBits, extract_high, extract_low, Nat.reduceSub, extract_self]
  have h1 : (LitSys.mk scope imm).toBits.extractLsb' 16 6 = 0 := by
    simp (disch := decide) only [LitSys.toBits, extract_high, extract_low, Nat.reduceSub, extract_self]
  have h2 : (LitSys.mk scope imm).toBits.extractLsb' 0 16 = imm := by
    simp (disch := decide) only [LitSys.toBits, extract_high, extract_low, Nat.reduceSub, extract_self]
  simp [-BitVec.getLsbD_eq_getElem, LitSys.ofBits, h0, h1, h2]

/-- The service number of an `svc` LIT word. -/
@[simp] theorem LitSys.imm_toBits (l : LitSys) : l.toBits.extractLsb' 0 16 = l.imm := by
  simp (disch := decide) only [LitSys.toBits, extract_low, extract_self]

/-! ### From fields back to the instruction -/

@[simp] theorem withLit_enc {α : Type} (m : Mods α) (r : Raw) (bits : α → BitVec 26) (p : BitVec 26 → Option α) (k : Mods α → Instr)
    (hc : r.c = m.c) (hg : r.g = m.g)
    (h : ∀ l, m.lit = some l → p (bits l.body) = some l.body) :
    withLit r (m.lit.map fun l => (l.chain, bits l.body)) p k = .ok (k m) := by
  obtain ⟨c, g, lit⟩ := m
  simp only at hc hg
  subst hc hg
  cases lit with
  | none => rfl
  | some l => simp [withLit, h l rfl]

theorem toP_predField (p : BitVec 3) : toP (predField p) = p := by revert p; decide
theorem fitsP_predField (p : BitVec 3) : fitsP (predField p) = true := by revert p; decide
theorem toT_setWidth (p : BitVec 4) : toT (p.setWidth 6) = p := by revert p; decide
theorem fitsT_setWidth (p : BitVec 4) : fitsT (p.setWidth 6) = true := by revert p; decide
theorem toB_setWidth (p : BitVec 5) : toB (p.setWidth 6) = p := by revert p; decide
theorem fitsB_setWidth (p : BitVec 5) : fitsB (p.setWidth 6) = true := by revert p; decide
theorem toJ_setWidth (p : BitVec 2) : toJ (p.setWidth 6) = p := by revert p; decide
theorem fitsJ_setWidth (p : BitVec 2) : fitsJ (p.setWidth 6) = true := by revert p; decide
theorem predField_high (p : BitVec 3) : (predField p).extractLsb' 3 3 = 0 := by revert p; decide

/-- The offset of a branch, cut into its fields and joined again. -/
theorem off18_enc (off : BitVec 18) : (off.extractLsb' 12 6) ++ (off.extractLsb' 6 6) ++ (off.extractLsb' 0 6) = off := by
  apply BitVec.eq_of_getLsbD_eq
  intro i hi
  simp only [BitVec.getLsbD_append, BitVec.getLsbD_extractLsb']
  by_cases h1 : i < 6
  · simp [h1]
  · by_cases h2 : i - 6 < 6
    · simp [h1, h2]
      congr 1; omega
    · simp [h1, h2]
      have : i - 6 - 6 < 6 := by omega
      simp [this]
      congr 1; omega

/-- The LIT word of an encoded instruction is the one that modifies it. -/
theorem litOf_enc (r : Raw) (l : Option LitRaw) (h : l.isSome → r.c = true) :
   litOf r.toWord (l.map LitRaw.toWord) = l := by
  have hc : r.toWord.getLsbD 31 = r.c := by
    simp (disch := decide) only [Raw.toWord, bit_high, Nat.reduceSub]
    simp
  cases l with
  | none => simp only [litOf, Option.map_none]; split <;> rfl
  | some l => simp only [litOf, hc, h rfl, Option.map_some, Option.bind_some, LitRaw.ofWord_toWord, if_true]

/-- What fields that decode to a well-formed instruction make of the words written from them. -/
theorem decode_enc (e : Enc) (i : Instr) (h : e.lit.isSome → e.raw.c = true) (hd : decodeRaw e.raw e.lit = .ok i) (hf : i.formOk = true) (hl : i.litOk = true) (hr : i.regsOk = true) :
    decodeWords e.words = .ok i := by
  have : decodeWords e.words = decode e.raw.toWord (e.lit.map LitRaw.toWord) := by
    unfold Enc.words
    cases e.lit <;> rfl
  rw [this]
  unfold decode
  simp only [Raw.ofWord_toWord, litOf_enc _ _ h, hd]
  simp [checkForm, hf, hl, hr]
theorem chain_enc {α : Type} (m : Mods α) (f : α → BitVec 26) (h : m.chainOk = true) : (m.lit.map fun l => (l.chain, f l.body)).isSome → m.c = true := by
  unfold Mods.chainOk at h
  cases hl : m.lit <;> simp_all
theorem memOrd_enc {m : Mods LitMem} {r : MemRule} (hr : r.ords.contains .sc = false) (h : m.allLit r.ok = true) : ∀ l, m.lit = some l → LitMem.ofBits l.body.toBits = some l.body := by
  intro l hl
  apply LitMem.ofBits_toBits
  intro hc
  simp only [Mods.allLit, hl, MemRule.ok, hc, hr] at h
  simp at h
theorem memOrdOr_enc {m : Mods LitMem} {r : MemRule} (hr : r.ords.contains .sc = false) (h : m.allLitOr .dflt r.ok = true) : ∀ l, m.lit = some l → LitMem.ofBits l.body.toBits = some l.body := by
  intro l hl
  apply LitMem.ofBits_toBits
  intro hc
  simp only [Mods.allLitOr, Mods.allLit, hl, MemRule.ok, hc, hr, Bool.or_eq_true, beq_iff_eq] at h
  rcases h with h | h
  · rw [h] at hc; cases hc
  · simp at h
theorem grpRnd_enc {m : Mods LitGrp} {b : Bool} (h : m.allLit (grpLitOk b) = true) : ∀ l, m.lit = some l → LitGrp.ofBits l.body.toBits = some l.body := by
  intro l hl
  apply LitGrp.ofBits_toBits
  intro hc
  simp [Mods.allLit, hl, grpLitOk, hc] at h


end Sys2Proof
end

