-- ==== Sys2Proof/Laws/Memory.lean ====
section
/-! SUPPORT. The laws of byte memory: a read after a write, everything else as before, and the canonical form. -/

namespace Sys2Proof.Machine

/-! ### One byte -/

theorem Memory.get_filter_other : ∀ (m : Memory) (a c : Nat), c ≠ a → Memory.get (m.filter fun x => x.1 != a) c = m.get c
  | [], _, _, _ => rfl
  | (k, v) :: t, a, c, hc => by
    have ih := Memory.get_filter_other t a c hc
    by_cases hk : k = a
    · subst hk
      simp [Memory.get, hc, ih]
    · simp only [List.filter_cons, bne_iff_ne, ne_eq, hk, not_false_eq_true, if_true, Memory.get, ih]

theorem Memory.get_filter_same : ∀ (m : Memory) (a : Nat), Memory.get (m.filter fun x => x.1 != a) a = 0
  | [], _ => rfl
  | (k, v) :: t, a => by
    have ih := Memory.get_filter_same t a
    by_cases hk : k = a
    · subst hk
      simp [ih]
    · simp only [List.filter_cons, bne_iff_ne, ne_eq, hk, not_false_eq_true, if_true, Memory.get, ih]
      rw [if_neg fun e => hk e.symm]

theorem Memory.get_place_other : ∀ (m : Memory) (a c : Nat) (b : Byte), c ≠ a → (Memory.place m a b).get c = m.get c
  | [], a, c, b, hc => by simp [Memory.place, Memory.get, hc]
  | (k, v) :: t, a, c, b, hc => by
    simp only [Memory.place]
    split
    · simp [Memory.get, hc]
    · simp only [Memory.get, Memory.get_place_other t a c b hc]

theorem Memory.get_place_same : ∀ (m : Memory) (a : Nat) (b : Byte), (∀ x ∈ m, x.1 ≠ a) → (Memory.place m a b).get a = b
  | [], a, b, _ => by simp [Memory.place, Memory.get]
  | (k, v) :: t, a, b, h => by
    simp only [Memory.place]
    split
    · simp [Memory.get]
    · have hk : a ≠ k := fun e => h (k, v) (by simp) e.symm
      simp only [Memory.get, hk, if_false]
      exact Memory.get_place_same t a b fun x hx => h x (by simp [hx])

/-- A read after a write to the same address gives the byte written. -/
theorem Memory.get_put_same (m : Memory) (a : Nat) (b : Byte) : (m.put a b).get a = b := by
  simp only [Memory.put]
  split
  · rename_i h
    rw [Memory.get_filter_same, h]
  · refine Memory.get_place_same _ a b fun x hx => ?_
    simpa using (List.mem_filter.1 hx).2

/-- A write leaves every other address alone. -/
theorem Memory.get_put_other (m : Memory) (a c : Nat) (b : Byte) (hc : c ≠ a) : (m.put a b).get c = m.get c := by
  simp only [Memory.put]
  split
  · exact Memory.get_filter_other m a c hc
  · rw [Memory.get_place_other _ a c b hc, Memory.get_filter_other m a c hc]

theorem Memory.get_put (m : Memory) (a c : Nat) (b : Byte) : (m.put a b).get c = if c = a then b else m.get c := by
  split
  · rename_i h; rw [h, Memory.get_put_same]
  · rename_i h; exact Memory.get_put_other m a c b h

/-! ### The canonical form -/

theorem Memory.wfFrom_mono : ∀ (m : Memory) (lo lo' : Nat), lo' ≤ lo → Memory.wfFrom lo m = true → Memory.wfFrom lo' m = true
  | [], _, _, _, _ => rfl
  | (k, v) :: t, lo, lo', hl, h => by
    simp only [Memory.wfFrom, Bool.and_eq_true, decide_eq_true_eq] at h ⊢
    exact ⟨⟨by omega, h.1.2⟩, h.2⟩

theorem Memory.wfFrom_filter : ∀ (m : Memory) (lo : Nat) (p : Host.Cell → Bool), Memory.wfFrom lo m = true → Memory.wfFrom lo (m.filter p) = true
  | [], _, _, _ => rfl
  | (k, v) :: t, lo, p, h => by
    simp only [Memory.wfFrom, Bool.and_eq_true, decide_eq_true_eq] at h
    have ih := Memory.wfFrom_filter t (k + 1) p h.2
    rw [List.filter_cons]
    split
    · simp only [Memory.wfFrom, Bool.and_eq_true, decide_eq_true_eq]
      exact ⟨h.1, ih⟩
    · exact Memory.wfFrom_mono _ _ _ (by omega) ih

theorem Memory.wfFrom_place : ∀ (m : Memory) (lo a : Nat) (b : Byte), Memory.wfFrom lo m = true → lo ≤ a → b ≠ 0 →
    (∀ x ∈ m, x.1 ≠ a) → Memory.wfFrom lo (Memory.place m a b) = true
  | [], lo, a, b, _, ha, hb, _ => by
    simp only [Memory.place, Memory.wfFrom, Bool.and_eq_true, decide_eq_true_eq]
    exact ⟨⟨ha, by simpa using hb⟩, trivial⟩
  | (k, v) :: t, lo, a, b, h, ha, hb, hn => by
    simp only [Memory.wfFrom, Bool.and_eq_true, decide_eq_true_eq] at h
    simp only [Memory.place]
    split
    · rename_i hk
      simp only [Memory.wfFrom, Bool.and_eq_true, decide_eq_true_eq]
      exact ⟨⟨ha, by simpa using hb⟩, ⟨by omega, h.1.2⟩, h.2⟩
    · rename_i hk
      have hka : k ≠ a := hn (k, v) (by simp)
      simp only [Memory.wfFrom, Bool.and_eq_true, decide_eq_true_eq]
      exact ⟨h.1, Memory.wfFrom_place t (k + 1) a b h.2 (by omega) hb fun x hx => hn x (by simp [hx])⟩

@[simp] theorem Memory.wf_nil : Memory.wf [] = true := rfl

theorem Memory.wf_filter (m : Memory) (p : Host.Cell → Bool) (h : m.wf = true) : Memory.wf (m.filter p) = true := Memory.wfFrom_filter m 0 p h

/-- A write keeps the canonical form. -/
theorem Memory.wf_put (m : Memory) (a : Nat) (b : Byte) (h : m.wf = true) : (m.put a b).wf = true := by
  simp only [Memory.put]
  split
  · exact Memory.wf_filter m _ h
  · rename_i hb
    refine Memory.wfFrom_place _ 0 a b (Memory.wf_filter m _ h) (Nat.zero_le a) hb fun x hx => ?_
    simpa using (List.mem_filter.1 hx).2

/-! ### Runs of bytes -/

theorem Memory.wf_putBytes : ∀ (bs : List Byte) (m : Memory) (a : Nat), m.wf = true → (m.putBytes a bs).wf = true
  | [], _, _, h => h
  | b :: bs, m, a, h => Memory.wf_putBytes bs (m.put a b) (a + 1) (Memory.wf_put m a b h)

theorem Memory.wf_writeLE (m : Memory) (a n v : Nat) (h : m.wf = true) : (m.writeLE a n v).wf = true :=
  Memory.wf_putBytes (leBytes n v) m a h

/-- Outside the run every address reads as before. -/
theorem Memory.get_putBytes_other : ∀ (bs : List Byte) (m : Memory) (a c : Nat), (c < a ∨ a + bs.length ≤ c) →
    (m.putBytes a bs).get c = m.get c
  | [], _, _, _, _ => rfl
  | b :: bs, m, a, c, hc => by
    simp only [List.length_cons] at hc
    show (Memory.putBytes (m.put a b) (a + 1) bs).get c = m.get c
    rw [Memory.get_putBytes_other bs (m.put a b) (a + 1) c (by omega), Memory.get_put_other m a c b (by omega)]

/-- Within the run an address reads its byte. -/
theorem Memory.get_putBytes_same : ∀ (bs : List Byte) (m : Memory) (a i : Nat), i < bs.length →
    (m.putBytes a bs).get (a + i) = bs.getD i 0
  | b :: bs, m, a, 0, _ => by
    show (Memory.putBytes (m.put a b) (a + 1) bs).get a = b
    rw [Memory.get_putBytes_other bs (m.put a b) (a + 1) a (by omega), Memory.get_put_same]
  | b :: bs, m, a, i + 1, hi => by
    simp only [List.length_cons] at hi
    show (Memory.putBytes (m.put a b) (a + 1) bs).get (a + (i + 1)) = (b :: bs).getD (i + 1) 0
    rw [show a + (i + 1) = a + 1 + i by omega, Memory.get_putBytes_same bs (m.put a b) (a + 1) i (by omega)]
    rfl

@[simp] theorem Memory.bytes_length (m : Memory) (a n : Nat) : (m.bytes a n).length = n := by
  induction n generalizing a with
  | zero => rfl
  | succ n ih => simp [Memory.bytes, ih]

theorem Memory.bytes_getD (m : Memory) (a n i : Nat) (h : i < n) : (m.bytes a n).getD i 0 = m.get (a + i) := by
  induction n generalizing a i with
  | zero => omega
  | succ n ih =>
    cases i with
    | zero => rfl
    | succ i =>
      rw [show a + (i + 1) = a + 1 + i by omega, ← ih (a + 1) i (by omega)]
      rfl

@[simp] theorem leBytes_length (n x : Nat) : (leBytes n x).length = n := by
  induction n generalizing x with
  | zero => rfl
  | succ n ih => simp [leBytes, ih]

/-- The little-endian bytes of a number hold it. -/
theorem leNat_leBytes (n x : Nat) : leNat (leBytes n x) = x % 2 ^ (8 * n) := by
  induction n generalizing x with
  | zero => simp [leBytes, leNat, Nat.mod_one]
  | succ n ih =>
    simp only [leBytes, leNat, ih, BitVec.toNat_ofNat]
    rw [show 2 ^ (8 * (n + 1)) = 2 ^ 8 * 2 ^ (8 * n) by rw [← pow_add]; congr 1; omega, Nat.mod_mul]
    norm_num

/-- The run reads back as it was written. -/
theorem Memory.bytes_putBytes (m : Memory) (a : Nat) (bs : List Byte) : (m.putBytes a bs).bytes a bs.length = bs := by
  apply List.ext_getElem
  · simp
  · intro i h1 h2
    have hb : ((m.putBytes a bs).bytes a bs.length).getD i 0 = bs.getD i 0 := by
      rw [Memory.bytes_getD _ _ _ _ h2, Memory.get_putBytes_same bs m a i h2]
    simpa [List.getD_eq_getElem?_getD, h1, h2] using hb

/-- A number written little-endian reads back as its low bytes. -/
theorem Memory.readLE_writeLE (m : Memory) (a n v : Nat) : (m.writeLE a n v).readLE a n = v % 2 ^ (8 * n) := by
  unfold Memory.readLE Memory.writeLE
  have := Memory.bytes_putBytes m a (leBytes n v)
  rw [leBytes_length] at this
  rw [this, leNat_leBytes]

/-- A write outside a run leaves its bytes. -/
theorem Memory.bytes_putBytes_other (m : Memory) (a : Nat) (bs : List Byte) (c n : Nat) (h : c + n ≤ a ∨ a + bs.length ≤ c) :
    (m.putBytes a bs).bytes c n = m.bytes c n := by
  induction n generalizing c with
  | zero => rfl
  | succ n ih =>
    simp only [Memory.bytes]
    rw [Memory.get_putBytes_other bs m a c (by omega), ih (c + 1) (by omega)]

end Sys2Proof.Machine
end

