-- ==== Sys2Proof/Laws/PerInstr.lean ====
section
/-! SUPPORT. Per-instruction laws: every well-formed instruction that has an encoding decodes from its own words to itself (R80, R86, R104,
Tables 5.1, 5.3, 6.1 to 6.3, 18.1). -/

namespace Sys2Proof.Laws.RoundTrip

set_option Elab.async false
set_option linter.unusedSimpArgs false

/-- The words of an instruction decode to it; an event of the part has no words. -/
def Statement (i : Instr) : Prop := i.wf = true → i.enc.isSome = true → decodeWords (encode i) = .ok i

theorem add (x0 : Mods LitInt) (x1 : RegIx) (x2 : RegIx) (x3 : RegIx) : Statement (.add x0 x1 x2 x3) := by
  intro h _
  simp only [Instr.wf, Bool.and_eq_true] at h
  obtain ⟨⟨⟨hm, hf⟩, hl⟩, hr⟩ := h
  refine decode_enc _ _ ?_ ?_ hf hl hr
  · exact chain_enc x0 _ hm
  · exact withLit_enc x0 (encMods x0 0 0 x1 x2 x3 LitInt.toBits).raw LitInt.toBits LitInt.ofBits (fun m => .add m x1 x2 x3) rfl rfl
      (fun l _ => LitInt.ofBits_toBits l.body)

theorem sub (x0 : Mods LitInt) (x1 : RegIx) (x2 : RegIx) (x3 : RegIx) : Statement (.sub x0 x1 x2 x3) := by
  intro h _
  simp only [Instr.wf, Bool.and_eq_true] at h
  obtain ⟨⟨⟨hm, hf⟩, hl⟩, hr⟩ := h
  refine decode_enc _ _ ?_ ?_ hf hl hr
  · exact chain_enc x0 _ hm
  · exact withLit_enc x0 (encMods x0 0 1 x1 x2 x3 LitInt.toBits).raw LitInt.toBits LitInt.ofBits (fun m => .sub m x1 x2 x3) rfl rfl
      (fun l _ => LitInt.ofBits_toBits l.body)

theorem addc (x0 : Mods LitInt) (x1 : RegIx) (x2 : RegIx) (x3 : RegIx) : Statement (.addc x0 x1 x2 x3) := by
  intro h _
  simp only [Instr.wf, Bool.and_eq_true] at h
  obtain ⟨⟨⟨hm, hf⟩, hl⟩, hr⟩ := h
  refine decode_enc _ _ ?_ ?_ hf hl hr
  · exact chain_enc x0 _ hm
  · exact withLit_enc x0 (encMods x0 0 2 x1 x2 x3 LitInt.toBits).raw LitInt.toBits LitInt.ofBits (fun m => .addc m x1 x2 x3) rfl rfl
      (fun l _ => LitInt.ofBits_toBits l.body)

theorem subb (x0 : Mods LitInt) (x1 : RegIx) (x2 : RegIx) (x3 : RegIx) : Statement (.subb x0 x1 x2 x3) := by
  intro h _
  simp only [Instr.wf, Bool.and_eq_true] at h
  obtain ⟨⟨⟨hm, hf⟩, hl⟩, hr⟩ := h
  refine decode_enc _ _ ?_ ?_ hf hl hr
  · exact chain_enc x0 _ hm
  · exact withLit_enc x0 (encMods x0 0 3 x1 x2 x3 LitInt.toBits).raw LitInt.toBits LitInt.ofBits (fun m => .subb m x1 x2 x3) rfl rfl
      (fun l _ => LitInt.ofBits_toBits l.body)

theorem neg (x0 : Mods LitInt) (x1 : RegIx) (x2 : RegIx) : Statement (.neg x0 x1 x2) := by
  intro h _
  simp only [Instr.wf, Bool.and_eq_true] at h
  obtain ⟨⟨⟨hm, hf⟩, hl⟩, hr⟩ := h
  refine decode_enc _ _ ?_ ?_ hf hl hr
  · exact chain_enc x0 _ hm
  · exact withLit_enc x0 (encMods x0 0 4 x1 x2 0 LitInt.toBits).raw LitInt.toBits LitInt.ofBits (fun m => .neg m x1 x2) rfl rfl
      (fun l _ => LitInt.ofBits_toBits l.body)

theorem abs (x0 : Mods LitInt) (x1 : RegIx) (x2 : RegIx) : Statement (.abs x0 x1 x2) := by
  intro h _
  simp only [Instr.wf, Bool.and_eq_true] at h
  obtain ⟨⟨⟨hm, hf⟩, hl⟩, hr⟩ := h
  refine decode_enc _ _ ?_ ?_ hf hl hr
  · exact chain_enc x0 _ hm
  · exact withLit_enc x0 (encMods x0 0 5 x1 x2 0 LitInt.toBits).raw LitInt.toBits LitInt.ofBits (fun m => .abs m x1 x2) rfl rfl
      (fun l _ => LitInt.ofBits_toBits l.body)

theorem min (x0 : Mods LitInt) (x1 : RegIx) (x2 : RegIx) (x3 : RegIx) : Statement (.min x0 x1 x2 x3) := by
  intro h _
  simp only [Instr.wf, Bool.and_eq_true] at h
  obtain ⟨⟨⟨hm, hf⟩, hl⟩, hr⟩ := h
  refine decode_enc _ _ ?_ ?_ hf hl hr
  · exact chain_enc x0 _ hm
  · exact withLit_enc x0 (encMods x0 0 6 x1 x2 x3 LitInt.toBits).raw LitInt.toBits LitInt.ofBits (fun m => .min m x1 x2 x3) rfl rfl
      (fun l _ => LitInt.ofBits_toBits l.body)

theorem max (x0 : Mods LitInt) (x1 : RegIx) (x2 : RegIx) (x3 : RegIx) : Statement (.max x0 x1 x2 x3) := by
  intro h _
  simp only [Instr.wf, Bool.and_eq_true] at h
  obtain ⟨⟨⟨hm, hf⟩, hl⟩, hr⟩ := h
  refine decode_enc _ _ ?_ ?_ hf hl hr
  · exact chain_enc x0 _ hm
  · exact withLit_enc x0 (encMods x0 0 7 x1 x2 x3 LitInt.toBits).raw LitInt.toBits LitInt.ofBits (fun m => .max m x1 x2 x3) rfl rfl
      (fun l _ => LitInt.ofBits_toBits l.body)

theorem and (x0 : Mods LitInt) (x1 : RegIx) (x2 : RegIx) (x3 : RegIx) : Statement (.and x0 x1 x2 x3) := by
  intro h _
  simp only [Instr.wf, Bool.and_eq_true] at h
  obtain ⟨⟨⟨hm, hf⟩, hl⟩, hr⟩ := h
  refine decode_enc _ _ ?_ ?_ hf hl hr
  · exact chain_enc x0 _ hm
  · exact withLit_enc x0 (encMods x0 0 8 x1 x2 x3 LitInt.toBits).raw LitInt.toBits LitInt.ofBits (fun m => .and m x1 x2 x3) rfl rfl
      (fun l _ => LitInt.ofBits_toBits l.body)

theorem or (x0 : Mods LitInt) (x1 : RegIx) (x2 : RegIx) (x3 : RegIx) : Statement (.or x0 x1 x2 x3) := by
  intro h _
  simp only [Instr.wf, Bool.and_eq_true] at h
  obtain ⟨⟨⟨hm, hf⟩, hl⟩, hr⟩ := h
  refine decode_enc _ _ ?_ ?_ hf hl hr
  · exact chain_enc x0 _ hm
  · exact withLit_enc x0 (encMods x0 0 9 x1 x2 x3 LitInt.toBits).raw LitInt.toBits LitInt.ofBits (fun m => .or m x1 x2 x3) rfl rfl
      (fun l _ => LitInt.ofBits_toBits l.body)

theorem xor (x0 : Mods LitInt) (x1 : RegIx) (x2 : RegIx) (x3 : RegIx) : Statement (.xor x0 x1 x2 x3) := by
  intro h _
  simp only [Instr.wf, Bool.and_eq_true] at h
  obtain ⟨⟨⟨hm, hf⟩, hl⟩, hr⟩ := h
  refine decode_enc _ _ ?_ ?_ hf hl hr
  · exact chain_enc x0 _ hm
  · exact withLit_enc x0 (encMods x0 0 10 x1 x2 x3 LitInt.toBits).raw LitInt.toBits LitInt.ofBits (fun m => .xor m x1 x2 x3) rfl rfl
      (fun l _ => LitInt.ofBits_toBits l.body)

theorem andn (x0 : Mods LitInt) (x1 : RegIx) (x2 : RegIx) (x3 : RegIx) : Statement (.andn x0 x1 x2 x3) := by
  intro h _
  simp only [Instr.wf, Bool.and_eq_true] at h
  obtain ⟨⟨⟨hm, hf⟩, hl⟩, hr⟩ := h
  refine decode_enc _ _ ?_ ?_ hf hl hr
  · exact chain_enc x0 _ hm
  · exact withLit_enc x0 (encMods x0 0 11 x1 x2 x3 LitInt.toBits).raw LitInt.toBits LitInt.ofBits (fun m => .andn m x1 x2 x3) rfl rfl
      (fun l _ => LitInt.ofBits_toBits l.body)

theorem orn (x0 : Mods LitInt) (x1 : RegIx) (x2 : RegIx) (x3 : RegIx) : Statement (.orn x0 x1 x2 x3) := by
  intro h _
  simp only [Instr.wf, Bool.and_eq_true] at h
  obtain ⟨⟨⟨hm, hf⟩, hl⟩, hr⟩ := h
  refine decode_enc _ _ ?_ ?_ hf hl hr
  · exact chain_enc x0 _ hm
  · exact withLit_enc x0 (encMods x0 0 12 x1 x2 x3 LitInt.toBits).raw LitInt.toBits LitInt.ofBits (fun m => .orn m x1 x2 x3) rfl rfl
      (fun l _ => LitInt.ofBits_toBits l.body)

theorem sel (x0 : Mods LitInt) (x1 : RegIx) (x2 : RegIx) (x3 : RegIx) : Statement (.sel x0 x1 x2 x3) := by
  intro h _
  simp only [Instr.wf, Bool.and_eq_true] at h
  obtain ⟨⟨⟨hm, hf⟩, hl⟩, hr⟩ := h
  refine decode_enc _ _ ?_ ?_ hf hl hr
  · exact chain_enc x0 _ hm
  · exact withLit_enc x0 (encMods x0 0 13 x1 x2 x3 LitInt.toBits).raw LitInt.toBits LitInt.ofBits (fun m => .sel m x1 x2 x3) rfl rfl
      (fun l _ => LitInt.ofBits_toBits l.body)

theorem mov (x0 : Mods LitInt) (x1 : RegIx) (x2 : RegIx) : Statement (.mov x0 x1 x2) := by
  intro h _
  simp only [Instr.wf, Bool.and_eq_true] at h
  obtain ⟨⟨⟨hm, hf⟩, hl⟩, hr⟩ := h
  refine decode_enc _ _ ?_ ?_ hf hl hr
  · exact chain_enc x0 _ hm
  · exact withLit_enc x0 (encMods x0 0 14 x1 0 x2 LitInt.toBits).raw LitInt.toBits LitInt.ofBits (fun m => .mov m x1 x2) rfl rfl
      (fun l _ => LitInt.ofBits_toBits l.body)

theorem cmp (x0 : Mods LitInt) (x1 : BitVec 3) (x2 : RegIx) (x3 : RegIx) : Statement (.cmp x0 x1 x2 x3) := by
  intro h _
  simp only [Instr.wf, Bool.and_eq_true] at h
  obtain ⟨⟨⟨hm, hf⟩, hl⟩, hr⟩ := h
  refine decode_enc _ _ ?_ ?_ hf hl hr
  · exact chain_enc x0 _ hm
  · simp [decodeRaw, decodeIalu, encMods, encPlain, need, noLit, toP_predField, fitsP_predField, toT_setWidth, fitsT_setWidth, toB_setWidth, fitsB_setWidth, toJ_setWidth, fitsJ_setWidth]

theorem shl (x0 : Mods LitInt) (x1 : RegIx) (x2 : RegIx) (x3 : RegIx) : Statement (.shl x0 x1 x2 x3) := by
  intro h _
  simp only [Instr.wf, Bool.and_eq_true] at h
  obtain ⟨⟨⟨hm, hf⟩, hl⟩, hr⟩ := h
  refine decode_enc _ _ ?_ ?_ hf hl hr
  · exact chain_enc x0 _ hm
  · exact withLit_enc x0 (encMods x0 1 0 x1 x2 x3 LitInt.toBits).raw LitInt.toBits LitInt.ofBits (fun m => .shl m x1 x2 x3) rfl rfl
      (fun l _ => LitInt.ofBits_toBits l.body)

theorem shr (x0 : Mods LitInt) (x1 : RegIx) (x2 : RegIx) (x3 : RegIx) : Statement (.shr x0 x1 x2 x3) := by
  intro h _
  simp only [Instr.wf, Bool.and_eq_true] at h
  obtain ⟨⟨⟨hm, hf⟩, hl⟩, hr⟩ := h
  refine decode_enc _ _ ?_ ?_ hf hl hr
  · exact chain_enc x0 _ hm
  · exact withLit_enc x0 (encMods x0 1 1 x1 x2 x3 LitInt.toBits).raw LitInt.toBits LitInt.ofBits (fun m => .shr m x1 x2 x3) rfl rfl
      (fun l _ => LitInt.ofBits_toBits l.body)

theorem sar (x0 : Mods LitInt) (x1 : RegIx) (x2 : RegIx) (x3 : RegIx) : Statement (.sar x0 x1 x2 x3) := by
  intro h _
  simp only [Instr.wf, Bool.and_eq_true] at h
  obtain ⟨⟨⟨hm, hf⟩, hl⟩, hr⟩ := h
  refine decode_enc _ _ ?_ ?_ hf hl hr
  · exact chain_enc x0 _ hm
  · exact withLit_enc x0 (encMods x0 1 2 x1 x2 x3 LitInt.toBits).raw LitInt.toBits LitInt.ofBits (fun m => .sar m x1 x2 x3) rfl rfl
      (fun l _ => LitInt.ofBits_toBits l.body)

theorem rotl (x0 : Mods LitInt) (x1 : RegIx) (x2 : RegIx) (x3 : RegIx) : Statement (.rotl x0 x1 x2 x3) := by
  intro h _
  simp only [Instr.wf, Bool.and_eq_true] at h
  obtain ⟨⟨⟨hm, hf⟩, hl⟩, hr⟩ := h
  refine decode_enc _ _ ?_ ?_ hf hl hr
  · exact chain_enc x0 _ hm
  · exact withLit_enc x0 (encMods x0 1 3 x1 x2 x3 LitInt.toBits).raw LitInt.toBits LitInt.ofBits (fun m => .rotl m x1 x2 x3) rfl rfl
      (fun l _ => LitInt.ofBits_toBits l.body)

theorem fsh (x0 : Mods LitInt) (x1 : RegIx) (x2 : RegIx) (x3 : RegIx) : Statement (.fsh x0 x1 x2 x3) := by
  intro h _
  simp only [Instr.wf, Bool.and_eq_true] at h
  obtain ⟨⟨⟨hm, hf⟩, hl⟩, hr⟩ := h
  refine decode_enc _ _ ?_ ?_ hf hl hr
  · exact chain_enc x0 _ hm
  · exact withLit_enc x0 (encMods x0 1 4 x1 x2 x3 LitInt.toBits).raw LitInt.toBits LitInt.ofBits (fun m => .fsh m x1 x2 x3) rfl rfl
      (fun l _ => LitInt.ofBits_toBits l.body)

theorem bfx (x0 : Mods LitInt) (x1 : RegIx) (x2 : RegIx) (x3 : RegIx) : Statement (.bfx x0 x1 x2 x3) := by
  intro h _
  simp only [Instr.wf, Bool.and_eq_true] at h
  obtain ⟨⟨⟨hm, hf⟩, hl⟩, hr⟩ := h
  refine decode_enc _ _ ?_ ?_ hf hl hr
  · exact chain_enc x0 _ hm
  · exact withLit_enc x0 (encMods x0 1 5 x1 x2 x3 LitInt.toBits).raw LitInt.toBits LitInt.ofBits (fun m => .bfx m x1 x2 x3) rfl rfl
      (fun l _ => LitInt.ofBits_toBits l.body)

theorem bfi (x0 : Mods LitInt) (x1 : RegIx) (x2 : RegIx) (x3 : RegIx) : Statement (.bfi x0 x1 x2 x3) := by
  intro h _
  simp only [Instr.wf, Bool.and_eq_true] at h
  obtain ⟨⟨⟨hm, hf⟩, hl⟩, hr⟩ := h
  refine decode_enc _ _ ?_ ?_ hf hl hr
  · exact chain_enc x0 _ hm
  · exact withLit_enc x0 (encMods x0 1 6 x1 x2 x3 LitInt.toBits).raw LitInt.toBits LitInt.ofBits (fun m => .bfi m x1 x2 x3) rfl rfl
      (fun l _ => LitInt.ofBits_toBits l.body)

theorem popc (x0 : Mods LitInt) (x1 : RegIx) (x2 : RegIx) : Statement (.popc x0 x1 x2) := by
  intro h _
  simp only [Instr.wf, Bool.and_eq_true] at h
  obtain ⟨⟨⟨hm, hf⟩, hl⟩, hr⟩ := h
  refine decode_enc _ _ ?_ ?_ hf hl hr
  · exact chain_enc x0 _ hm
  · exact withLit_enc x0 (encMods x0 1 7 x1 x2 0 LitInt.toBits).raw LitInt.toBits LitInt.ofBits (fun m => .popc m x1 x2) rfl rfl
      (fun l _ => LitInt.ofBits_toBits l.body)

theorem clz (x0 : Mods LitInt) (x1 : RegIx) (x2 : RegIx) : Statement (.clz x0 x1 x2) := by
  intro h _
  simp only [Instr.wf, Bool.and_eq_true] at h
  obtain ⟨⟨⟨hm, hf⟩, hl⟩, hr⟩ := h
  refine decode_enc _ _ ?_ ?_ hf hl hr
  · exact chain_enc x0 _ hm
  · exact withLit_enc x0 (encMods x0 1 8 x1 x2 0 LitInt.toBits).raw LitInt.toBits LitInt.ofBits (fun m => .clz m x1 x2) rfl rfl
      (fun l _ => LitInt.ofBits_toBits l.body)

theorem ctz (x0 : Mods LitInt) (x1 : RegIx) (x2 : RegIx) : Statement (.ctz x0 x1 x2) := by
  intro h _
  simp only [Instr.wf, Bool.and_eq_true] at h
  obtain ⟨⟨⟨hm, hf⟩, hl⟩, hr⟩ := h
  refine decode_enc _ _ ?_ ?_ hf hl hr
  · exact chain_enc x0 _ hm
  · exact withLit_enc x0 (encMods x0 1 9 x1 x2 0 LitInt.toBits).raw LitInt.toBits LitInt.ofBits (fun m => .ctz m x1 x2) rfl rfl
      (fun l _ => LitInt.ofBits_toBits l.body)

theorem brev (x0 : Mods LitInt) (x1 : RegIx) (x2 : RegIx) : Statement (.brev x0 x1 x2) := by
  intro h _
  simp only [Instr.wf, Bool.and_eq_true] at h
  obtain ⟨⟨⟨hm, hf⟩, hl⟩, hr⟩ := h
  refine decode_enc _ _ ?_ ?_ hf hl hr
  · exact chain_enc x0 _ hm
  · exact withLit_enc x0 (encMods x0 1 10 x1 x2 0 LitInt.toBits).raw LitInt.toBits LitInt.ofBits (fun m => .brev m x1 x2) rfl rfl
      (fun l _ => LitInt.ofBits_toBits l.body)

theorem bprm (x0 : Mods LitInt) (x1 : RegIx) (x2 : RegIx) (x3 : RegIx) : Statement (.bprm x0 x1 x2 x3) := by
  intro h _
  simp only [Instr.wf, Bool.and_eq_true] at h
  obtain ⟨⟨⟨hm, hf⟩, hl⟩, hr⟩ := h
  refine decode_enc _ _ ?_ ?_ hf hl hr
  · exact chain_enc x0 _ hm
  · exact withLit_enc x0 (encMods x0 1 11 x1 x2 x3 LitInt.toBits).raw LitInt.toBits LitInt.ofBits (fun m => .bprm m x1 x2 x3) rfl rfl
      (fun l _ => LitInt.ofBits_toBits l.body)

theorem plog (x0 : Mods LitInt) (x1 : RegIx) (x2 : RegIx) (x3 : RegIx) : Statement (.plog x0 x1 x2 x3) := by
  intro h _
  simp only [Instr.wf, Bool.and_eq_true] at h
  obtain ⟨⟨⟨hm, hf⟩, hl⟩, hr⟩ := h
  refine decode_enc _ _ ?_ ?_ hf hl hr
  · exact chain_enc x0 _ hm
  · exact withLit_enc x0 (encMods x0 1 12 x1 x2 x3 LitInt.toBits).raw LitInt.toBits LitInt.ofBits (fun m => .plog m x1 x2 x3) rfl rfl
      (fun l _ => LitInt.ofBits_toBits l.body)

theorem lea (x0 : Mods LitInt) (x1 : RegIx) (x2 : RegIx) (x3 : RegIx) : Statement (.lea x0 x1 x2 x3) := by
  intro h _
  simp only [Instr.wf, Bool.and_eq_true] at h
  obtain ⟨⟨⟨hm, hf⟩, hl⟩, hr⟩ := h
  refine decode_enc _ _ ?_ ?_ hf hl hr
  · exact chain_enc x0 _ hm
  · exact withLit_enc x0 (encMods x0 1 13 x1 x2 x3 LitInt.toBits).raw LitInt.toBits LitInt.ofBits (fun m => .lea m x1 x2 x3) rfl rfl
      (fun l _ => LitInt.ofBits_toBits l.body)

theorem mul (x0 : Mods LitInt) (x1 : RegIx) (x2 : RegIx) (x3 : RegIx) : Statement (.mul x0 x1 x2 x3) := by
  intro h _
  simp only [Instr.wf, Bool.and_eq_true] at h
  obtain ⟨⟨⟨hm, hf⟩, hl⟩, hr⟩ := h
  refine decode_enc _ _ ?_ ?_ hf hl hr
  · exact chain_enc x0 _ hm
  · exact withLit_enc x0 (encMods x0 2 0 x1 x2 x3 LitInt.toBits).raw LitInt.toBits LitInt.ofBits (fun m => .mul m x1 x2 x3) rfl rfl
      (fun l _ => LitInt.ofBits_toBits l.body)

theorem mulh (x0 : Mods LitInt) (x1 : RegIx) (x2 : RegIx) (x3 : RegIx) : Statement (.mulh x0 x1 x2 x3) := by
  intro h _
  simp only [Instr.wf, Bool.and_eq_true] at h
  obtain ⟨⟨⟨hm, hf⟩, hl⟩, hr⟩ := h
  refine decode_enc _ _ ?_ ?_ hf hl hr
  · exact chain_enc x0 _ hm
  · exact withLit_enc x0 (encMods x0 2 1 x1 x2 x3 LitInt.toBits).raw LitInt.toBits LitInt.ofBits (fun m => .mulh m x1 x2 x3) rfl rfl
      (fun l _ => LitInt.ofBits_toBits l.body)

theorem mad (x0 : Mods LitInt) (x1 : RegIx) (x2 : RegIx) (x3 : RegIx) : Statement (.mad x0 x1 x2 x3) := by
  intro h _
  simp only [Instr.wf, Bool.and_eq_true] at h
  obtain ⟨⟨⟨hm, hf⟩, hl⟩, hr⟩ := h
  refine decode_enc _ _ ?_ ?_ hf hl hr
  · exact chain_enc x0 _ hm
  · exact withLit_enc x0 (encMods x0 2 2 x1 x2 x3 LitInt.toBits).raw LitInt.toBits LitInt.ofBits (fun m => .mad m x1 x2 x3) rfl rfl
      (fun l _ => LitInt.ofBits_toBits l.body)

theorem madh (x0 : Mods LitInt) (x1 : RegIx) (x2 : RegIx) (x3 : RegIx) : Statement (.madh x0 x1 x2 x3) := by
  intro h _
  simp only [Instr.wf, Bool.and_eq_true] at h
  obtain ⟨⟨⟨hm, hf⟩, hl⟩, hr⟩ := h
  refine decode_enc _ _ ?_ ?_ hf hl hr
  · exact chain_enc x0 _ hm
  · exact withLit_enc x0 (encMods x0 2 3 x1 x2 x3 LitInt.toBits).raw LitInt.toBits LitInt.ofBits (fun m => .madh m x1 x2 x3) rfl rfl
      (fun l _ => LitInt.ofBits_toBits l.body)

theorem idp4 (x0 : Mods LitInt) (x1 : RegIx) (x2 : RegIx) (x3 : RegIx) : Statement (.idp4 x0 x1 x2 x3) := by
  intro h _
  simp only [Instr.wf, Bool.and_eq_true] at h
  obtain ⟨⟨⟨hm, hf⟩, hl⟩, hr⟩ := h
  refine decode_enc _ _ ?_ ?_ hf hl hr
  · exact chain_enc x0 _ hm
  · exact withLit_enc x0 (encMods x0 2 4 x1 x2 x3 LitInt.toBits).raw LitInt.toBits LitInt.ofBits (fun m => .idp4 m x1 x2 x3) rfl rfl
      (fun l _ => LitInt.ofBits_toBits l.body)

theorem div (x0 : Mods LitInt) (x1 : RegIx) (x2 : RegIx) (x3 : RegIx) : Statement (.div x0 x1 x2 x3) := by
  intro h _
  simp only [Instr.wf, Bool.and_eq_true] at h
  obtain ⟨⟨⟨hm, hf⟩, hl⟩, hr⟩ := h
  refine decode_enc _ _ ?_ ?_ hf hl hr
  · exact chain_enc x0 _ hm
  · exact withLit_enc x0 (encMods x0 3 0 x1 x2 x3 LitInt.toBits).raw LitInt.toBits LitInt.ofBits (fun m => .div m x1 x2 x3) rfl rfl
      (fun l _ => LitInt.ofBits_toBits l.body)

theorem rem (x0 : Mods LitInt) (x1 : RegIx) (x2 : RegIx) (x3 : RegIx) : Statement (.rem x0 x1 x2 x3) := by
  intro h _
  simp only [Instr.wf, Bool.and_eq_true] at h
  obtain ⟨⟨⟨hm, hf⟩, hl⟩, hr⟩ := h
  refine decode_enc _ _ ?_ ?_ hf hl hr
  · exact chain_enc x0 _ hm
  · exact withLit_enc x0 (encMods x0 3 1 x1 x2 x3 LitInt.toBits).raw LitInt.toBits LitInt.ofBits (fun m => .rem m x1 x2 x3) rfl rfl
      (fun l _ => LitInt.ofBits_toBits l.body)

theorem fadd (x0 : Mods LitFlt) (x1 : RegIx) (x2 : RegIx) (x3 : RegIx) : Statement (.fadd x0 x1 x2 x3) := by
  intro h _
  simp only [Instr.wf, Bool.and_eq_true] at h
  obtain ⟨⟨⟨hm, hf⟩, hl⟩, hr⟩ := h
  refine decode_enc _ _ ?_ ?_ hf hl hr
  · exact chain_enc x0 _ hm
  · exact withLit_enc x0 (encMods x0 4 0 x1 x2 x3 LitFlt.toBits).raw LitFlt.toBits LitFlt.ofBits (fun m => .fadd m x1 x2 x3) rfl rfl
      (fun l _ => LitFlt.ofBits_toBits l.body)

theorem fsub (x0 : Mods LitFlt) (x1 : RegIx) (x2 : RegIx) (x3 : RegIx) : Statement (.fsub x0 x1 x2 x3) := by
  intro h _
  simp only [Instr.wf, Bool.and_eq_true] at h
  obtain ⟨⟨⟨hm, hf⟩, hl⟩, hr⟩ := h
  refine decode_enc _ _ ?_ ?_ hf hl hr
  · exact chain_enc x0 _ hm
  · exact withLit_enc x0 (encMods x0 4 1 x1 x2 x3 LitFlt.toBits).raw LitFlt.toBits LitFlt.ofBits (fun m => .fsub m x1 x2 x3) rfl rfl
      (fun l _ => LitFlt.ofBits_toBits l.body)

theorem fmin (x0 : Mods LitFlt) (x1 : RegIx) (x2 : RegIx) (x3 : RegIx) : Statement (.fmin x0 x1 x2 x3) := by
  intro h _
  simp only [Instr.wf, Bool.and_eq_true] at h
  obtain ⟨⟨⟨hm, hf⟩, hl⟩, hr⟩ := h
  refine decode_enc _ _ ?_ ?_ hf hl hr
  · exact chain_enc x0 _ hm
  · exact withLit_enc x0 (encMods x0 4 2 x1 x2 x3 LitFlt.toBits).raw LitFlt.toBits LitFlt.ofBits (fun m => .fmin m x1 x2 x3) rfl rfl
      (fun l _ => LitFlt.ofBits_toBits l.body)

theorem fmax (x0 : Mods LitFlt) (x1 : RegIx) (x2 : RegIx) (x3 : RegIx) : Statement (.fmax x0 x1 x2 x3) := by
  intro h _
  simp only [Instr.wf, Bool.and_eq_true] at h
  obtain ⟨⟨⟨hm, hf⟩, hl⟩, hr⟩ := h
  refine decode_enc _ _ ?_ ?_ hf hl hr
  · exact chain_enc x0 _ hm
  · exact withLit_enc x0 (encMods x0 4 3 x1 x2 x3 LitFlt.toBits).raw LitFlt.toBits LitFlt.ofBits (fun m => .fmax m x1 x2 x3) rfl rfl
      (fun l _ => LitFlt.ofBits_toBits l.body)

theorem fcmp (x0 : Mods LitFlt) (x1 : BitVec 3) (x2 : RegIx) (x3 : RegIx) : Statement (.fcmp x0 x1 x2 x3) := by
  intro h _
  simp only [Instr.wf, Bool.and_eq_true] at h
  obtain ⟨⟨⟨hm, hf⟩, hl⟩, hr⟩ := h
  refine decode_enc _ _ ?_ ?_ hf hl hr
  · exact chain_enc x0 _ hm
  · simp [decodeRaw, decodeFadd, encMods, encPlain, need, noLit, toP_predField, fitsP_predField, toT_setWidth, fitsT_setWidth, toB_setWidth, fitsB_setWidth, toJ_setWidth, fitsJ_setWidth]

theorem fcls (x0 : Mods LitFlt) (x1 : RegIx) (x2 : RegIx) : Statement (.fcls x0 x1 x2) := by
  intro h _
  simp only [Instr.wf, Bool.and_eq_true] at h
  obtain ⟨⟨⟨hm, hf⟩, hl⟩, hr⟩ := h
  refine decode_enc _ _ ?_ ?_ hf hl hr
  · exact chain_enc x0 _ hm
  · exact withLit_enc x0 (encMods x0 4 5 x1 x2 0 LitFlt.toBits).raw LitFlt.toBits LitFlt.ofBits (fun m => .fcls m x1 x2) rfl rfl
      (fun l _ => LitFlt.ofBits_toBits l.body)

theorem fmul (x0 : Mods LitFlt) (x1 : RegIx) (x2 : RegIx) (x3 : RegIx) : Statement (.fmul x0 x1 x2 x3) := by
  intro h _
  simp only [Instr.wf, Bool.and_eq_true] at h
  obtain ⟨⟨⟨hm, hf⟩, hl⟩, hr⟩ := h
  refine decode_enc _ _ ?_ ?_ hf hl hr
  · exact chain_enc x0 _ hm
  · exact withLit_enc x0 (encMods x0 5 0 x1 x2 x3 LitFlt.toBits).raw LitFlt.toBits LitFlt.ofBits (fun m => .fmul m x1 x2 x3) rfl rfl
      (fun l _ => LitFlt.ofBits_toBits l.body)

theorem ffma (x0 : Mods LitFlt) (x1 : RegIx) (x2 : RegIx) (x3 : RegIx) : Statement (.ffma x0 x1 x2 x3) := by
  intro h _
  simp only [Instr.wf, Bool.and_eq_true] at h
  obtain ⟨⟨⟨hm, hf⟩, hl⟩, hr⟩ := h
  refine decode_enc _ _ ?_ ?_ hf hl hr
  · exact chain_enc x0 _ hm
  · exact withLit_enc x0 (encMods x0 5 1 x1 x2 x3 LitFlt.toBits).raw LitFlt.toBits LitFlt.ofBits (fun m => .ffma m x1 x2 x3) rfl rfl
      (fun l _ => LitFlt.ofBits_toBits l.body)

theorem fscl (x0 : Mods LitFlt) (x1 : RegIx) (x2 : RegIx) (x3 : RegIx) : Statement (.fscl x0 x1 x2 x3) := by
  intro h _
  simp only [Instr.wf, Bool.and_eq_true] at h
  obtain ⟨⟨⟨hm, hf⟩, hl⟩, hr⟩ := h
  refine decode_enc _ _ ?_ ?_ hf hl hr
  · exact chain_enc x0 _ hm
  · exact withLit_enc x0 (encMods x0 5 2 x1 x2 x3 LitFlt.toBits).raw LitFlt.toBits LitFlt.ofBits (fun m => .fscl m x1 x2 x3) rfl rfl
      (fun l _ => LitFlt.ofBits_toBits l.body)

theorem fcvt (x0 : Mods LitFlt) (x1 : RegIx) (x2 : RegIx) : Statement (.fcvt x0 x1 x2) := by
  intro h _
  simp only [Instr.wf, Bool.and_eq_true] at h
  obtain ⟨⟨⟨hm, hf⟩, hl⟩, hr⟩ := h
  refine decode_enc _ _ ?_ ?_ hf hl hr
  · exact chain_enc x0 _ hm
  · exact withLit_enc x0 (encMods x0 6 0 x1 x2 0 LitFlt.toBits).raw LitFlt.toBits LitFlt.ofBits (fun m => .fcvt m x1 x2) rfl rfl
      (fun l _ => LitFlt.ofBits_toBits l.body)

theorem frnd (x0 : Mods LitFlt) (x1 : RegIx) (x2 : RegIx) : Statement (.frnd x0 x1 x2) := by
  intro h _
  simp only [Instr.wf, Bool.and_eq_true] at h
  obtain ⟨⟨⟨hm, hf⟩, hl⟩, hr⟩ := h
  refine decode_enc _ _ ?_ ?_ hf hl hr
  · exact chain_enc x0 _ hm
  · exact withLit_enc x0 (encMods x0 6 1 x1 x2 0 LitFlt.toBits).raw LitFlt.toBits LitFlt.ofBits (fun m => .frnd m x1 x2) rfl rfl
      (fun l _ => LitFlt.ofBits_toBits l.body)

theorem fdot2 (x0 : Mods LitFlt) (x1 : RegIx) (x2 : RegIx) (x3 : RegIx) : Statement (.fdot2 x0 x1 x2 x3) := by
  intro h _
  simp only [Instr.wf, Bool.and_eq_true] at h
  obtain ⟨⟨⟨hm, hf⟩, hl⟩, hr⟩ := h
  refine decode_enc _ _ ?_ ?_ hf hl hr
  · exact chain_enc x0 _ hm
  · exact withLit_enc x0 (encMods x0 7 0 x1 x2 x3 LitFlt.toBits).raw LitFlt.toBits LitFlt.ofBits (fun m => .fdot2 m x1 x2 x3) rfl rfl
      (fun l _ => LitFlt.ofBits_toBits l.body)

theorem fdot4 (x0 : Mods LitFlt) (x1 : RegIx) (x2 : RegIx) (x3 : RegIx) : Statement (.fdot4 x0 x1 x2 x3) := by
  intro h _
  simp only [Instr.wf, Bool.and_eq_true] at h
  obtain ⟨⟨⟨hm, hf⟩, hl⟩, hr⟩ := h
  refine decode_enc _ _ ?_ ?_ hf hl hr
  · exact chain_enc x0 _ hm
  · exact withLit_enc x0 (encMods x0 7 1 x1 x2 x3 LitFlt.toBits).raw LitFlt.toBits LitFlt.ofBits (fun m => .fdot4 m x1 x2 x3) rfl rfl
      (fun l _ => LitFlt.ofBits_toBits l.body)

theorem faddF64 (x0 : Mods LitFlt) (x1 : RegIx) (x2 : RegIx) (x3 : RegIx) : Statement (.faddF64 x0 x1 x2 x3) := by
  intro h _
  simp only [Instr.wf, Bool.and_eq_true] at h
  obtain ⟨⟨⟨hm, hf⟩, hl⟩, hr⟩ := h
  refine decode_enc _ _ ?_ ?_ hf hl hr
  · exact chain_enc x0 _ hm
  · exact withLit_enc x0 (encMods x0 8 0 x1 x2 x3 LitFlt.toBits).raw LitFlt.toBits LitFlt.ofBits (fun m => .faddF64 m x1 x2 x3) rfl rfl
      (fun l _ => LitFlt.ofBits_toBits l.body)

theorem fsubF64 (x0 : Mods LitFlt) (x1 : RegIx) (x2 : RegIx) (x3 : RegIx) : Statement (.fsubF64 x0 x1 x2 x3) := by
  intro h _
  simp only [Instr.wf, Bool.and_eq_true] at h
  obtain ⟨⟨⟨hm, hf⟩, hl⟩, hr⟩ := h
  refine decode_enc _ _ ?_ ?_ hf hl hr
  · exact chain_enc x0 _ hm
  · exact withLit_enc x0 (encMods x0 8 1 x1 x2 x3 LitFlt.toBits).raw LitFlt.toBits LitFlt.ofBits (fun m => .fsubF64 m x1 x2 x3) rfl rfl
      (fun l _ => LitFlt.ofBits_toBits l.body)

theorem fmulF64 (x0 : Mods LitFlt) (x1 : RegIx) (x2 : RegIx) (x3 : RegIx) : Statement (.fmulF64 x0 x1 x2 x3) := by
  intro h _
  simp only [Instr.wf, Bool.and_eq_true] at h
  obtain ⟨⟨⟨hm, hf⟩, hl⟩, hr⟩ := h
  refine decode_enc _ _ ?_ ?_ hf hl hr
  · exact chain_enc x0 _ hm
  · exact withLit_enc x0 (encMods x0 8 2 x1 x2 x3 LitFlt.toBits).raw LitFlt.toBits LitFlt.ofBits (fun m => .fmulF64 m x1 x2 x3) rfl rfl
      (fun l _ => LitFlt.ofBits_toBits l.body)

theorem ffmaF64 (x0 : Mods LitFlt) (x1 : RegIx) (x2 : RegIx) (x3 : RegIx) : Statement (.ffmaF64 x0 x1 x2 x3) := by
  intro h _
  simp only [Instr.wf, Bool.and_eq_true] at h
  obtain ⟨⟨⟨hm, hf⟩, hl⟩, hr⟩ := h
  refine decode_enc _ _ ?_ ?_ hf hl hr
  · exact chain_enc x0 _ hm
  · exact withLit_enc x0 (encMods x0 8 3 x1 x2 x3 LitFlt.toBits).raw LitFlt.toBits LitFlt.ofBits (fun m => .ffmaF64 m x1 x2 x3) rfl rfl
      (fun l _ => LitFlt.ofBits_toBits l.body)

theorem fminF64 (x0 : Mods LitFlt) (x1 : RegIx) (x2 : RegIx) (x3 : RegIx) : Statement (.fminF64 x0 x1 x2 x3) := by
  intro h _
  simp only [Instr.wf, Bool.and_eq_true] at h
  obtain ⟨⟨⟨hm, hf⟩, hl⟩, hr⟩ := h
  refine decode_enc _ _ ?_ ?_ hf hl hr
  · exact chain_enc x0 _ hm
  · exact withLit_enc x0 (encMods x0 8 4 x1 x2 x3 LitFlt.toBits).raw LitFlt.toBits LitFlt.ofBits (fun m => .fminF64 m x1 x2 x3) rfl rfl
      (fun l _ => LitFlt.ofBits_toBits l.body)

theorem fmaxF64 (x0 : Mods LitFlt) (x1 : RegIx) (x2 : RegIx) (x3 : RegIx) : Statement (.fmaxF64 x0 x1 x2 x3) := by
  intro h _
  simp only [Instr.wf, Bool.and_eq_true] at h
  obtain ⟨⟨⟨hm, hf⟩, hl⟩, hr⟩ := h
  refine decode_enc _ _ ?_ ?_ hf hl hr
  · exact chain_enc x0 _ hm
  · exact withLit_enc x0 (encMods x0 8 5 x1 x2 x3 LitFlt.toBits).raw LitFlt.toBits LitFlt.ofBits (fun m => .fmaxF64 m x1 x2 x3) rfl rfl
      (fun l _ => LitFlt.ofBits_toBits l.body)

theorem fcmpF64 (x0 : Mods LitFlt) (x1 : BitVec 3) (x2 : RegIx) (x3 : RegIx) : Statement (.fcmpF64 x0 x1 x2 x3) := by
  intro h _
  simp only [Instr.wf, Bool.and_eq_true] at h
  obtain ⟨⟨⟨hm, hf⟩, hl⟩, hr⟩ := h
  refine decode_enc _ _ ?_ ?_ hf hl hr
  · exact chain_enc x0 _ hm
  · simp [decodeRaw, decodeF64, encMods, encPlain, need, noLit, toP_predField, fitsP_predField, toT_setWidth, fitsT_setWidth, toB_setWidth, fitsB_setWidth, toJ_setWidth, fitsJ_setWidth]

theorem frcp (x0 : Mods LitFlt) (x1 : RegIx) (x2 : RegIx) : Statement (.frcp x0 x1 x2) := by
  intro h _
  simp only [Instr.wf, Bool.and_eq_true] at h
  obtain ⟨⟨⟨hm, hf⟩, hl⟩, hr⟩ := h
  refine decode_enc _ _ ?_ ?_ hf hl hr
  · exact chain_enc x0 _ hm
  · exact withLit_enc x0 (encMods x0 9 0 x1 x2 0 LitFlt.toBits).raw LitFlt.toBits LitFlt.ofBits (fun m => .frcp m x1 x2) rfl rfl
      (fun l _ => LitFlt.ofBits_toBits l.body)

theorem frsq (x0 : Mods LitFlt) (x1 : RegIx) (x2 : RegIx) : Statement (.frsq x0 x1 x2) := by
  intro h _
  simp only [Instr.wf, Bool.and_eq_true] at h
  obtain ⟨⟨⟨hm, hf⟩, hl⟩, hr⟩ := h
  refine decode_enc _ _ ?_ ?_ hf hl hr
  · exact chain_enc x0 _ hm
  · exact withLit_enc x0 (encMods x0 9 1 x1 x2 0 LitFlt.toBits).raw LitFlt.toBits LitFlt.ofBits (fun m => .frsq m x1 x2) rfl rfl
      (fun l _ => LitFlt.ofBits_toBits l.body)

theorem fsqrt (x0 : Mods LitFlt) (x1 : RegIx) (x2 : RegIx) : Statement (.fsqrt x0 x1 x2) := by
  intro h _
  simp only [Instr.wf, Bool.and_eq_true] at h
  obtain ⟨⟨⟨hm, hf⟩, hl⟩, hr⟩ := h
  refine decode_enc _ _ ?_ ?_ hf hl hr
  · exact chain_enc x0 _ hm
  · exact withLit_enc x0 (encMods x0 9 2 x1 x2 0 LitFlt.toBits).raw LitFlt.toBits LitFlt.ofBits (fun m => .fsqrt m x1 x2) rfl rfl
      (fun l _ => LitFlt.ofBits_toBits l.body)

theorem fdiv (x0 : Mods LitFlt) (x1 : RegIx) (x2 : RegIx) (x3 : RegIx) : Statement (.fdiv x0 x1 x2 x3) := by
  intro h _
  simp only [Instr.wf, Bool.and_eq_true] at h
  obtain ⟨⟨⟨hm, hf⟩, hl⟩, hr⟩ := h
  refine decode_enc _ _ ?_ ?_ hf hl hr
  · exact chain_enc x0 _ hm
  · exact withLit_enc x0 (encMods x0 9 3 x1 x2 x3 LitFlt.toBits).raw LitFlt.toBits LitFlt.ofBits (fun m => .fdiv m x1 x2 x3) rfl rfl
      (fun l _ => LitFlt.ofBits_toBits l.body)

theorem fex2 (x0 : Mods LitFlt) (x1 : RegIx) (x2 : RegIx) : Statement (.fex2 x0 x1 x2) := by
  intro h _
  simp only [Instr.wf, Bool.and_eq_true] at h
  obtain ⟨⟨⟨hm, hf⟩, hl⟩, hr⟩ := h
  refine decode_enc _ _ ?_ ?_ hf hl hr
  · exact chain_enc x0 _ hm
  · exact withLit_enc x0 (encMods x0 9 4 x1 x2 0 LitFlt.toBits).raw LitFlt.toBits LitFlt.ofBits (fun m => .fex2 m x1 x2) rfl rfl
      (fun l _ => LitFlt.ofBits_toBits l.body)

theorem flg2 (x0 : Mods LitFlt) (x1 : RegIx) (x2 : RegIx) : Statement (.flg2 x0 x1 x2) := by
  intro h _
  simp only [Instr.wf, Bool.and_eq_true] at h
  obtain ⟨⟨⟨hm, hf⟩, hl⟩, hr⟩ := h
  refine decode_enc _ _ ?_ ?_ hf hl hr
  · exact chain_enc x0 _ hm
  · exact withLit_enc x0 (encMods x0 9 5 x1 x2 0 LitFlt.toBits).raw LitFlt.toBits LitFlt.ofBits (fun m => .flg2 m x1 x2) rfl rfl
      (fun l _ => LitFlt.ofBits_toBits l.body)

theorem fsin (x0 : Mods LitFlt) (x1 : RegIx) (x2 : RegIx) : Statement (.fsin x0 x1 x2) := by
  intro h _
  simp only [Instr.wf, Bool.and_eq_true] at h
  obtain ⟨⟨⟨hm, hf⟩, hl⟩, hr⟩ := h
  refine decode_enc _ _ ?_ ?_ hf hl hr
  · exact chain_enc x0 _ hm
  · exact withLit_enc x0 (encMods x0 9 6 x1 x2 0 LitFlt.toBits).raw LitFlt.toBits LitFlt.ofBits (fun m => .fsin m x1 x2) rfl rfl
      (fun l _ => LitFlt.ofBits_toBits l.body)

theorem fcos (x0 : Mods LitFlt) (x1 : RegIx) (x2 : RegIx) : Statement (.fcos x0 x1 x2) := by
  intro h _
  simp only [Instr.wf, Bool.and_eq_true] at h
  obtain ⟨⟨⟨hm, hf⟩, hl⟩, hr⟩ := h
  refine decode_enc _ _ ?_ ?_ hf hl hr
  · exact chain_enc x0 _ hm
  · exact withLit_enc x0 (encMods x0 9 7 x1 x2 0 LitFlt.toBits).raw LitFlt.toBits LitFlt.ofBits (fun m => .fcos m x1 x2) rfl rfl
      (fun l _ => LitFlt.ofBits_toBits l.body)

theorem ftnh (x0 : Mods LitFlt) (x1 : RegIx) (x2 : RegIx) : Statement (.ftnh x0 x1 x2) := by
  intro h _
  simp only [Instr.wf, Bool.and_eq_true] at h
  obtain ⟨⟨⟨hm, hf⟩, hl⟩, hr⟩ := h
  refine decode_enc _ _ ?_ ?_ hf hl hr
  · exact chain_enc x0 _ hm
  · exact withLit_enc x0 (encMods x0 9 8 x1 x2 0 LitFlt.toBits).raw LitFlt.toBits LitFlt.ofBits (fun m => .ftnh m x1 x2) rfl rfl
      (fun l _ => LitFlt.ofBits_toBits l.body)

theorem ld (x0 : Mods LitMem) (x1 : RegIx) (x2 : RegIx) : Statement (.ld x0 x1 x2) := by
  intro h _
  simp only [Instr.wf, Bool.and_eq_true] at h
  obtain ⟨⟨⟨hm, hf⟩, hl⟩, hr⟩ := h
  refine decode_enc _ _ ?_ ?_ hf hl hr
  · exact chain_enc x0 _ hm
  · exact withLit_enc x0 (encMods x0 10 0 x1 x2 0 LitMem.toBits).raw LitMem.toBits LitMem.ofBits (fun m => .ld m x1 x2) rfl rfl
      (memOrd_enc (by decide) hl)

theorem ldh (x0 : Mods LitMem) (x1 : RegIx) (x2 : RegIx) : Statement (.ldh x0 x1 x2) := by
  intro h _
  simp only [Instr.wf, Bool.and_eq_true] at h
  obtain ⟨⟨⟨hm, hf⟩, hl⟩, hr⟩ := h
  refine decode_enc _ _ ?_ ?_ hf hl hr
  · exact chain_enc x0 _ hm
  · exact withLit_enc x0 (encMods x0 10 1 x1 x2 0 LitMem.toBits).raw LitMem.toBits LitMem.ofBits (fun m => .ldh m x1 x2) rfl rfl
      (memOrd_enc (by decide) hl)

theorem chkh (x0 : Mods LitMem) (x1 : RegIx) (x2 : RegIx) : Statement (.chkh x0 x1 x2) := by
  intro h _
  simp only [Instr.wf, Bool.and_eq_true] at h
  obtain ⟨⟨⟨hm, hf⟩, hl⟩, hr⟩ := h
  refine decode_enc _ _ ?_ ?_ hf hl hr
  · exact chain_enc x0 _ hm
  · exact withLit_enc x0 (encMods x0 10 2 x1 x2 0 LitMem.toBits).raw LitMem.toBits LitMem.ofBits (fun m => .chkh m x1 x2) rfl rfl
      (memOrd_enc (by decide) hl)

theorem pref (x0 : Mods LitMem) (x1 : RegIx) : Statement (.pref x0 x1) := by
  intro h _
  simp only [Instr.wf, Bool.and_eq_true] at h
  obtain ⟨⟨⟨hm, hf⟩, hl⟩, hr⟩ := h
  refine decode_enc _ _ ?_ ?_ hf hl hr
  · exact chain_enc x0 _ hm
  · exact withLit_enc x0 (encMods x0 10 3 0 x1 0 LitMem.toBits).raw LitMem.toBits LitMem.ofBits (fun m => .pref m x1) rfl rfl
      (memOrd_enc (by decide) hl)

theorem st (x0 : Mods LitMem) (x1 : RegIx) (x2 : RegIx) : Statement (.st x0 x1 x2) := by
  intro h _
  simp only [Instr.wf, Bool.and_eq_true] at h
  obtain ⟨⟨⟨hm, hf⟩, hl⟩, hr⟩ := h
  refine decode_enc _ _ ?_ ?_ hf hl hr
  · exact chain_enc x0 _ hm
  · exact withLit_enc x0 (encMods x0 11 0 0 x1 x2 LitMem.toBits).raw LitMem.toBits LitMem.ofBits (fun m => .st m x1 x2) rfl rfl
      (memOrd_enc (by decide) hl)

theorem atomAdd (x0 : Mods LitMem) (x1 : RegIx) (x2 : RegIx) (x3 : RegIx) : Statement (.atomAdd x0 x1 x2 x3) := by
  intro h _
  simp only [Instr.wf, Bool.and_eq_true] at h
  obtain ⟨⟨⟨hm, hf⟩, hl⟩, hr⟩ := h
  refine decode_enc _ _ ?_ ?_ hf hl hr
  · exact chain_enc x0 _ hm
  · exact withLit_enc x0 (encMods x0 12 0 x1 x2 x3 LitMem.toBits).raw LitMem.toBits LitMem.ofBits (fun m => .atomAdd m x1 x2 x3) rfl rfl
      (memOrd_enc (by decide) hl)

theorem atomMin (x0 : Mods LitMem) (x1 : RegIx) (x2 : RegIx) (x3 : RegIx) : Statement (.atomMin x0 x1 x2 x3) := by
  intro h _
  simp only [Instr.wf, Bool.and_eq_true] at h
  obtain ⟨⟨⟨hm, hf⟩, hl⟩, hr⟩ := h
  refine decode_enc _ _ ?_ ?_ hf hl hr
  · exact chain_enc x0 _ hm
  · exact withLit_enc x0 (encMods x0 12 1 x1 x2 x3 LitMem.toBits).raw LitMem.toBits LitMem.ofBits (fun m => .atomMin m x1 x2 x3) rfl rfl
      (memOrd_enc (by decide) hl)

theorem atomMax (x0 : Mods LitMem) (x1 : RegIx) (x2 : RegIx) (x3 : RegIx) : Statement (.atomMax x0 x1 x2 x3) := by
  intro h _
  simp only [Instr.wf, Bool.and_eq_true] at h
  obtain ⟨⟨⟨hm, hf⟩, hl⟩, hr⟩ := h
  refine decode_enc _ _ ?_ ?_ hf hl hr
  · exact chain_enc x0 _ hm
  · exact withLit_enc x0 (encMods x0 12 2 x1 x2 x3 LitMem.toBits).raw LitMem.toBits LitMem.ofBits (fun m => .atomMax m x1 x2 x3) rfl rfl
      (memOrd_enc (by decide) hl)

theorem atomAnd (x0 : Mods LitMem) (x1 : RegIx) (x2 : RegIx) (x3 : RegIx) : Statement (.atomAnd x0 x1 x2 x3) := by
  intro h _
  simp only [Instr.wf, Bool.and_eq_true] at h
  obtain ⟨⟨⟨hm, hf⟩, hl⟩, hr⟩ := h
  refine decode_enc _ _ ?_ ?_ hf hl hr
  · exact chain_enc x0 _ hm
  · exact withLit_enc x0 (encMods x0 12 3 x1 x2 x3 LitMem.toBits).raw LitMem.toBits LitMem.ofBits (fun m => .atomAnd m x1 x2 x3) rfl rfl
      (memOrd_enc (by decide) hl)

theorem atomOr (x0 : Mods LitMem) (x1 : RegIx) (x2 : RegIx) (x3 : RegIx) : Statement (.atomOr x0 x1 x2 x3) := by
  intro h _
  simp only [Instr.wf, Bool.and_eq_true] at h
  obtain ⟨⟨⟨hm, hf⟩, hl⟩, hr⟩ := h
  refine decode_enc _ _ ?_ ?_ hf hl hr
  · exact chain_enc x0 _ hm
  · exact withLit_enc x0 (encMods x0 12 4 x1 x2 x3 LitMem.toBits).raw LitMem.toBits LitMem.ofBits (fun m => .atomOr m x1 x2 x3) rfl rfl
      (memOrd_enc (by decide) hl)

theorem atomXor (x0 : Mods LitMem) (x1 : RegIx) (x2 : RegIx) (x3 : RegIx) : Statement (.atomXor x0 x1 x2 x3) := by
  intro h _
  simp only [Instr.wf, Bool.and_eq_true] at h
  obtain ⟨⟨⟨hm, hf⟩, hl⟩, hr⟩ := h
  refine decode_enc _ _ ?_ ?_ hf hl hr
  · exact chain_enc x0 _ hm
  · exact withLit_enc x0 (encMods x0 12 5 x1 x2 x3 LitMem.toBits).raw LitMem.toBits LitMem.ofBits (fun m => .atomXor m x1 x2 x3) rfl rfl
      (memOrd_enc (by decide) hl)

theorem atomXch (x0 : Mods LitMem) (x1 : RegIx) (x2 : RegIx) (x3 : RegIx) : Statement (.atomXch x0 x1 x2 x3) := by
  intro h _
  simp only [Instr.wf, Bool.and_eq_true] at h
  obtain ⟨⟨⟨hm, hf⟩, hl⟩, hr⟩ := h
  refine decode_enc _ _ ?_ ?_ hf hl hr
  · exact chain_enc x0 _ hm
  · exact withLit_enc x0 (encMods x0 12 6 x1 x2 x3 LitMem.toBits).raw LitMem.toBits LitMem.ofBits (fun m => .atomXch m x1 x2 x3) rfl rfl
      (memOrd_enc (by decide) hl)

theorem atomCas (x0 : Mods LitMem) (x1 : RegIx) (x2 : RegIx) (x3 : RegIx) : Statement (.atomCas x0 x1 x2 x3) := by
  intro h _
  simp only [Instr.wf, Bool.and_eq_true] at h
  obtain ⟨⟨⟨hm, hf⟩, hl⟩, hr⟩ := h
  refine decode_enc _ _ ?_ ?_ hf hl hr
  · exact chain_enc x0 _ hm
  · exact withLit_enc x0 (encMods x0 12 7 x1 x2 x3 LitMem.toBits).raw LitMem.toBits LitMem.ofBits (fun m => .atomCas m x1 x2 x3) rfl rfl
      (memOrd_enc (by decide) hl)

theorem atomIncw (x0 : Mods LitMem) (x1 : RegIx) (x2 : RegIx) (x3 : RegIx) : Statement (.atomIncw x0 x1 x2 x3) := by
  intro h _
  simp only [Instr.wf, Bool.and_eq_true] at h
  obtain ⟨⟨⟨hm, hf⟩, hl⟩, hr⟩ := h
  refine decode_enc _ _ ?_ ?_ hf hl hr
  · exact chain_enc x0 _ hm
  · exact withLit_enc x0 (encMods x0 12 8 x1 x2 x3 LitMem.toBits).raw LitMem.toBits LitMem.ofBits (fun m => .atomIncw m x1 x2 x3) rfl rfl
      (memOrdOr_enc (by decide) hl)

theorem atomDecw (x0 : Mods LitMem) (x1 : RegIx) (x2 : RegIx) (x3 : RegIx) : Statement (.atomDecw x0 x1 x2 x3) := by
  intro h _
  simp only [Instr.wf, Bool.and_eq_true] at h
  obtain ⟨⟨⟨hm, hf⟩, hl⟩, hr⟩ := h
  refine decode_enc _ _ ?_ ?_ hf hl hr
  · exact chain_enc x0 _ hm
  · exact withLit_enc x0 (encMods x0 12 9 x1 x2 x3 LitMem.toBits).raw LitMem.toBits LitMem.ofBits (fun m => .atomDecw m x1 x2 x3) rfl rfl
      (memOrdOr_enc (by decide) hl)

theorem atomFadd (x0 : Mods LitMem) (x1 : RegIx) (x2 : RegIx) (x3 : RegIx) : Statement (.atomFadd x0 x1 x2 x3) := by
  intro h _
  simp only [Instr.wf, Bool.and_eq_true] at h
  obtain ⟨⟨⟨hm, hf⟩, hl⟩, hr⟩ := h
  refine decode_enc _ _ ?_ ?_ hf hl hr
  · exact chain_enc x0 _ hm
  · exact withLit_enc x0 (encMods x0 12 10 x1 x2 x3 LitMem.toBits).raw LitMem.toBits LitMem.ofBits (fun m => .atomFadd m x1 x2 x3) rfl rfl
      (memOrdOr_enc (by decide) hl)

theorem lds (x0 : Mods LitStash) (x1 : RegIx) (x2 : RegIx) : Statement (.lds x0 x1 x2) := by
  intro h _
  simp only [Instr.wf, Bool.and_eq_true] at h
  obtain ⟨⟨⟨hm, hf⟩, hl⟩, hr⟩ := h
  refine decode_enc _ _ ?_ ?_ hf hl hr
  · exact chain_enc x0 _ hm
  · exact withLit_enc x0 (encMods x0 13 0 x1 x2 0 LitStash.toBits).raw LitStash.toBits LitStash.ofBits (fun m => .lds m x1 x2) rfl rfl
      (fun l _ => LitStash.ofBits_toBits l.body)

theorem sts (x0 : Mods LitStash) (x1 : RegIx) (x2 : RegIx) : Statement (.sts x0 x1 x2) := by
  intro h _
  simp only [Instr.wf, Bool.and_eq_true] at h
  obtain ⟨⟨⟨hm, hf⟩, hl⟩, hr⟩ := h
  refine decode_enc _ _ ?_ ?_ hf hl hr
  · exact chain_enc x0 _ hm
  · exact withLit_enc x0 (encMods x0 13 1 0 x1 x2 LitStash.toBits).raw LitStash.toBits LitStash.ofBits (fun m => .sts m x1 x2) rfl rfl
      (fun l _ => LitStash.ofBits_toBits l.body)

theorem smap (x0 : Mods LitStash) (x1 : RegIx) (x2 : RegIx) : Statement (.smap x0 x1 x2) := by
  intro h _
  simp only [Instr.wf, Bool.and_eq_true] at h
  obtain ⟨⟨⟨hm, hf⟩, hl⟩, hr⟩ := h
  refine decode_enc _ _ ?_ ?_ hf hl hr
  · exact chain_enc x0 _ hm
  · exact withLit_enc x0 (encMods x0 13 2 0 x1 x2 LitStash.toBits).raw LitStash.toBits LitStash.ofBits (fun m => .smap m x1 x2) rfl rfl
      (fun l _ => LitStash.ofBits_toBits l.body)

theorem sumap (x0 : Mods LitStash) (x1 : RegIx) : Statement (.sumap x0 x1) := by
  intro h _
  simp only [Instr.wf, Bool.and_eq_true] at h
  obtain ⟨⟨⟨hm, hf⟩, hl⟩, hr⟩ := h
  refine decode_enc _ _ ?_ ?_ hf hl hr
  · exact chain_enc x0 _ hm
  · exact withLit_enc x0 (encMods x0 13 3 0 x1 0 LitStash.toBits).raw LitStash.toBits LitStash.ofBits (fun m => .sumap m x1) rfl rfl
      (fun l _ => LitStash.ofBits_toBits l.body)

theorem sflush (x0 : Mods LitStash) (x1 : RegIx) : Statement (.sflush x0 x1) := by
  intro h _
  simp only [Instr.wf, Bool.and_eq_true] at h
  obtain ⟨⟨⟨hm, hf⟩, hl⟩, hr⟩ := h
  refine decode_enc _ _ ?_ ?_ hf hl hr
  · exact chain_enc x0 _ hm
  · exact withLit_enc x0 (encMods x0 13 4 0 x1 0 LitStash.toBits).raw LitStash.toBits LitStash.ofBits (fun m => .sflush m x1) rfl rfl
      (fun l _ => LitStash.ofBits_toBits l.body)

theorem sfe (x0 : Mods LitStash) (x1 : RegIx) : Statement (.sfe x0 x1) := by
  intro h _
  simp only [Instr.wf, Bool.and_eq_true] at h
  obtain ⟨⟨⟨hm, hf⟩, hl⟩, hr⟩ := h
  refine decode_enc _ _ ?_ ?_ hf hl hr
  · exact chain_enc x0 _ hm
  · exact withLit_enc x0 (encMods x0 13 5 0 x1 0 LitStash.toBits).raw LitStash.toBits LitStash.ofBits (fun m => .sfe m x1) rfl rfl
      (fun l _ => LitStash.ofBits_toBits l.body)

theorem tfe (x0 : Mods LitStash) (x1 : BitVec 3) (x2 : RegIx) : Statement (.tfe x0 x1 x2) := by
  intro h _
  simp only [Instr.wf, Bool.and_eq_true] at h
  obtain ⟨⟨⟨hm, hf⟩, hl⟩, hr⟩ := h
  refine decode_enc _ _ ?_ ?_ hf hl hr
  · exact chain_enc x0 _ hm
  · simp [decodeRaw, decodeStash, encMods, encPlain, need, noLit, toP_predField, fitsP_predField, toT_setWidth, fitsT_setWidth, toB_setWidth, fitsB_setWidth, toJ_setWidth, fitsJ_setWidth]

theorem fence (x0 : Mods LitFence) : Statement (.fence x0) := by
  intro h _
  simp only [Instr.wf, Bool.and_eq_true] at h
  obtain ⟨⟨⟨hm, hf⟩, hl⟩, hr⟩ := h
  refine decode_enc _ _ ?_ ?_ hf hl hr
  · exact chain_enc x0 _ hm
  · exact withLit_enc x0 (encMods x0 14 0 0 0 0 LitFence.toBits).raw LitFence.toBits LitFence.ofBits (fun m => .fence m ) rfl rfl
      (fun l _ => LitFence.ofBits_toBits l.body)

theorem shfl (x0 : Mods LitXl) (x1 : RegIx) (x2 : RegIx) (x3 : RegIx) : Statement (.shfl x0 x1 x2 x3) := by
  intro h _
  simp only [Instr.wf, Bool.and_eq_true] at h
  obtain ⟨⟨⟨hm, hf⟩, hl⟩, hr⟩ := h
  refine decode_enc _ _ ?_ ?_ hf hl hr
  · exact chain_enc x0 _ hm
  · exact withLit_enc x0 (encMods x0 15 0 x1 x2 x3 LitXl.toBits).raw LitXl.toBits LitXl.ofBits (fun m => .shfl m x1 x2 x3) rfl rfl
      (fun l _ => LitXl.ofBits_toBits l.body)

theorem bcst (x0 : Mods LitXl) (x1 : RegIx) (x2 : RegIx) (x3 : RegIx) : Statement (.bcst x0 x1 x2 x3) := by
  intro h _
  simp only [Instr.wf, Bool.and_eq_true] at h
  obtain ⟨⟨⟨hm, hf⟩, hl⟩, hr⟩ := h
  refine decode_enc _ _ ?_ ?_ hf hl hr
  · exact chain_enc x0 _ hm
  · exact withLit_enc x0 (encMods x0 15 1 x1 x2 x3 LitXl.toBits).raw LitXl.toBits LitXl.ofBits (fun m => .bcst m x1 x2 x3) rfl rfl
      (fun l _ => LitXl.ofBits_toBits l.body)

theorem vote (x0 : Mods LitGrp) (x1 : BitVec 3) (x2 : BitVec 3) (x3 : BitVec 3) : Statement (.vote x0 x1 x2 x3) := by
  intro h _
  simp only [Instr.wf, Bool.and_eq_true] at h
  obtain ⟨⟨⟨hm, hf⟩, hl⟩, hr⟩ := h
  refine decode_enc _ _ ?_ ?_ hf hl hr
  · exact chain_enc x0 _ hm
  · simp [decodeRaw, decodeGroup, encMods, encPlain, need, noLit, toP_predField, fitsP_predField, toT_setWidth, fitsT_setWidth, toB_setWidth, fitsB_setWidth, toJ_setWidth, fitsJ_setWidth]
    exact withLit_enc _ _ _ _ _ rfl rfl (grpRnd_enc hl)

theorem redu (x0 : Mods LitGrp) (x1 : RegIx) (x2 : RegIx) (x3 : RegIx) : Statement (.redu x0 x1 x2 x3) := by
  intro h _
  simp only [Instr.wf, Bool.and_eq_true] at h
  obtain ⟨⟨⟨hm, hf⟩, hl⟩, hr⟩ := h
  refine decode_enc _ _ ?_ ?_ hf hl hr
  · exact chain_enc x0 _ hm
  · exact withLit_enc x0 (encMods x0 16 1 x1 x2 x3 LitGrp.toBits).raw LitGrp.toBits LitGrp.ofBits (fun m => .redu m x1 x2 x3) rfl rfl
      (grpRnd_enc hl)

theorem scan (x0 : Mods LitGrp) (x1 : RegIx) (x2 : RegIx) (x3 : RegIx) : Statement (.scan x0 x1 x2 x3) := by
  intro h _
  simp only [Instr.wf, Bool.and_eq_true] at h
  obtain ⟨⟨⟨hm, hf⟩, hl⟩, hr⟩ := h
  refine decode_enc _ _ ?_ ?_ hf hl hr
  · exact chain_enc x0 _ hm
  · exact withLit_enc x0 (encMods x0 16 2 x1 x2 x3 LitGrp.toBits).raw LitGrp.toBits LitGrp.ofBits (fun m => .scan m x1 x2 x3) rfl rfl
      (grpRnd_enc hl)

theorem mtch (x0 : Mods LitGrp) (x1 : RegIx) (x2 : RegIx) (x3 : BitVec 3) : Statement (.mtch x0 x1 x2 x3) := by
  intro h _
  simp only [Instr.wf, Bool.and_eq_true] at h
  obtain ⟨⟨⟨hm, hf⟩, hl⟩, hr⟩ := h
  refine decode_enc _ _ ?_ ?_ hf hl hr
  · exact chain_enc x0 _ hm
  · simp [decodeRaw, decodeGroup, encMods, encPlain, need, noLit, toP_predField, fitsP_predField, toT_setWidth, fitsT_setWidth, toB_setWidth, fitsB_setWidth, toJ_setWidth, fitsJ_setWidth]
    exact withLit_enc _ _ _ _ _ rfl rfl (grpRnd_enc hl)

theorem elect (x0 : Mods LitGrp) (x1 : BitVec 3) : Statement (.elect x0 x1) := by
  intro h _
  simp only [Instr.wf, Bool.and_eq_true] at h
  obtain ⟨⟨⟨hm, hf⟩, hl⟩, hr⟩ := h
  refine decode_enc _ _ ?_ ?_ hf hl hr
  · exact chain_enc x0 _ hm
  · simp [decodeRaw, decodeGroup, encMods, encPlain, need, noLit, toP_predField, fitsP_predField, toT_setWidth, fitsT_setWidth, toB_setWidth, fitsB_setWidth, toJ_setWidth, fitsJ_setWidth]
    exact withLit_enc _ _ _ _ _ rfl rfl (grpRnd_enc hl)

theorem rdv (x0 : Mods LitGrp) (x1 : RegIx) : Statement (.rdv x0 x1) := by
  intro h _
  simp only [Instr.wf, Bool.and_eq_true] at h
  obtain ⟨⟨⟨hm, hf⟩, hl⟩, hr⟩ := h
  refine decode_enc _ _ ?_ ?_ hf hl hr
  · exact chain_enc x0 _ hm
  · exact withLit_enc x0 (encMods x0 16 5 x1 0 0 LitGrp.toBits).raw LitGrp.toBits LitGrp.ofBits (fun m => .rdv m x1) rfl rfl
      (grpRnd_enc hl)

theorem jarr (x0 : Plain) (x1 : BitVec 2) : Statement (.jarr x0 x1) := by
  intro h _
  simp only [Instr.wf, Bool.and_eq_true] at h
  obtain ⟨⟨⟨hm, hf⟩, hl⟩, hr⟩ := h
  refine decode_enc _ _ ?_ ?_ hf hl hr
  · intro h; simp [encPlain] at h
  · simp [decodeRaw, decodeGroup, encMods, encPlain, need, noLit, toP_predField, fitsP_predField, toT_setWidth, fitsT_setWidth, toB_setWidth, fitsB_setWidth, toJ_setWidth, fitsJ_setWidth]

theorem jmsk (x0 : Mods LitGrp) (x1 : BitVec 2) (x2 : RegIx) : Statement (.jmsk x0 x1 x2) := by
  intro h _
  simp only [Instr.wf, Bool.and_eq_true] at h
  obtain ⟨⟨⟨hm, hf⟩, hl⟩, hr⟩ := h
  refine decode_enc _ _ ?_ ?_ hf hl hr
  · exact chain_enc x0 _ hm
  · simp [decodeRaw, decodeGroup, encMods, encPlain, need, noLit, toP_predField, fitsP_predField, toT_setWidth, fitsT_setWidth, toB_setWidth, fitsB_setWidth, toJ_setWidth, fitsJ_setWidth]
    exact withLit_enc _ _ _ _ _ rfl rfl (grpRnd_enc hl)

theorem br (x0 : Plain) (x1 : BitVec 18) : Statement (.br x0 x1) := by
  intro h _
  simp only [Instr.wf, Bool.and_eq_true] at h
  obtain ⟨⟨⟨hm, hf⟩, hl⟩, hr⟩ := h
  refine decode_enc _ _ ?_ ?_ hf hl hr
  · intro h; simp [encPlain] at h
  · simp [decodeRaw, decodeBranch, encMods, encPlain, need, noLit, toP_predField, fitsP_predField, toT_setWidth, fitsT_setWidth, toB_setWidth, fitsB_setWidth, toJ_setWidth, fitsJ_setWidth, Raw.off18, off18_enc]

theorem call (x0 : Mods LitCall) (x1 : BitVec 18) : Statement (.call x0 x1) := by
  intro h _
  simp only [Instr.wf, Bool.and_eq_true] at h
  obtain ⟨⟨⟨hm, hf⟩, hl⟩, hr⟩ := h
  refine decode_enc _ _ ?_ ?_ hf hl hr
  · exact chain_enc x0 _ hm
  · simp [decodeRaw, decodeBranch, encMods, encPlain, need, noLit, toP_predField, fitsP_predField, toT_setWidth, fitsT_setWidth, toB_setWidth, fitsB_setWidth, toJ_setWidth, fitsJ_setWidth, Raw.off18, off18_enc]

theorem ret (x0 : Plain) : Statement (.ret x0) := by
  intro h _
  simp only [Instr.wf, Bool.and_eq_true] at h
  obtain ⟨⟨⟨hm, hf⟩, hl⟩, hr⟩ := h
  refine decode_enc _ _ ?_ ?_ hf hl hr
  · intro h; simp [encPlain] at h
  · simp [decodeRaw, decodeBranch, encMods, encPlain, need, noLit, toP_predField, fitsP_predField, toT_setWidth, fitsT_setWidth, toB_setWidth, fitsB_setWidth, toJ_setWidth, fitsJ_setWidth]

theorem jt (x0 : Plain) (x1 : RegIx) (x2 : RegIx) : Statement (.jt x0 x1 x2) := by
  intro h _
  simp only [Instr.wf, Bool.and_eq_true] at h
  obtain ⟨⟨⟨hm, hf⟩, hl⟩, hr⟩ := h
  refine decode_enc _ _ ?_ ?_ hf hl hr
  · intro h; simp [encPlain] at h
  · simp [decodeRaw, decodeBranch, encMods, encPlain, need, noLit, toP_predField, fitsP_predField, toT_setWidth, fitsT_setWidth, toB_setWidth, fitsB_setWidth, toJ_setWidth, fitsJ_setWidth]

theorem exit (x0 : Plain) : Statement (.exit x0) := by
  intro h _
  simp only [Instr.wf, Bool.and_eq_true] at h
  obtain ⟨⟨⟨hm, hf⟩, hl⟩, hr⟩ := h
  refine decode_enc _ _ ?_ ?_ hf hl hr
  · intro h; simp [encPlain] at h
  · simp [decodeRaw, decodeFlow, encMods, encPlain, need, noLit, toP_predField, fitsP_predField, toT_setWidth, fitsT_setWidth, toB_setWidth, fitsB_setWidth, toJ_setWidth, fitsJ_setWidth]

theorem yield (x0 : Plain) : Statement (.yield x0) := by
  intro h _
  simp only [Instr.wf, Bool.and_eq_true] at h
  obtain ⟨⟨⟨hm, hf⟩, hl⟩, hr⟩ := h
  refine decode_enc _ _ ?_ ?_ hf hl hr
  · intro h; simp [encPlain] at h
  · simp [decodeRaw, decodeFlow, encMods, encPlain, need, noLit, toP_predField, fitsP_predField, toT_setWidth, fitsT_setWidth, toB_setWidth, fitsB_setWidth, toJ_setWidth, fitsJ_setWidth]

theorem trap (x0 : Plain) (x1 : BitVec 4) : Statement (.trap x0 x1) := by
  intro h _
  simp only [Instr.wf, Bool.and_eq_true] at h
  obtain ⟨⟨⟨hm, hf⟩, hl⟩, hr⟩ := h
  refine decode_enc _ _ ?_ ?_ hf hl hr
  · intro h; simp [encPlain] at h
  · simp [decodeRaw, decodeFlow, encMods, encPlain, need, noLit, toP_predField, fitsP_predField, toT_setWidth, fitsT_setWidth, toB_setWidth, fitsB_setWidth, toJ_setWidth, fitsJ_setWidth]

theorem waitc (x0 : Mods LitWaitc) : Statement (.waitc x0) := by
  intro h _
  simp only [Instr.wf, Bool.and_eq_true] at h
  obtain ⟨⟨⟨hm, hf⟩, hl⟩, hr⟩ := h
  refine decode_enc _ _ ?_ ?_ hf hl hr
  · exact chain_enc x0 _ hm
  · exact withLit_enc x0 (encMods x0 18 3 0 0 0 LitWaitc.toBits).raw LitWaitc.toBits LitWaitc.ofBits (fun m => .waitc m ) rfl rfl
      (fun l _ => LitWaitc.ofBits_toBits l.body)

theorem bar (x0 : Mods LitBar) (x1 : BitVec 5) : Statement (.bar x0 x1) := by
  intro h _
  simp only [Instr.wf, Bool.and_eq_true] at h
  obtain ⟨⟨⟨hm, hf⟩, hl⟩, hr⟩ := h
  refine decode_enc _ _ ?_ ?_ hf hl hr
  · exact chain_enc x0 _ hm
  · obtain ⟨c, g, lit⟩ := x0
    cases lit with
    | none => simp [decodeRaw, decodeFlow, decodeBar, encMods, encPlain, need, noLit, toP_predField, fitsP_predField, toT_setWidth, fitsT_setWidth, toB_setWidth, fitsB_setWidth, toJ_setWidth, fitsJ_setWidth, withLit]
    | some l =>
      have hb := LitBar.bop_toBits 0 l.body
      simp only [decodeRaw, decodeFlow, decodeBar, encMods, Option.map_some, hb]
      simp [need, withLit, toB_setWidth, fitsB_setWidth]

theorem barArrive (x0 : Mods LitBar) (x1 : BitVec 5) : Statement (.barArrive x0 x1) := by
  intro h _
  simp only [Instr.wf, Bool.and_eq_true] at h
  obtain ⟨⟨⟨hm, hf⟩, hl⟩, hr⟩ := h
  refine decode_enc _ _ ?_ ?_ hf hl hr
  · simp only [Instr.modsOk, Bool.and_eq_true] at hm
    exact chain_enc x0 _ hm.1
  · obtain ⟨c, g, lit⟩ := x0
    cases lit with
    | none => simp [Instr.modsOk] at hm
    | some l =>
      have hb := LitBar.bop_toBits 1 l.body
      simp only [decodeRaw, decodeFlow, decodeBar, encMods, Option.map_some, hb]
      simp [need, withLit, toB_setWidth, fitsB_setWidth]

theorem barWait (x0 : Mods LitBar) (x1 : BitVec 5) : Statement (.barWait x0 x1) := by
  intro h _
  simp only [Instr.wf, Bool.and_eq_true] at h
  obtain ⟨⟨⟨hm, hf⟩, hl⟩, hr⟩ := h
  refine decode_enc _ _ ?_ ?_ hf hl hr
  · simp only [Instr.modsOk, Bool.and_eq_true] at hm
    exact chain_enc x0 _ hm.1
  · obtain ⟨c, g, lit⟩ := x0
    cases lit with
    | none => simp [Instr.modsOk] at hm
    | some l =>
      have hb := LitBar.bop_toBits 2 l.body
      simp only [decodeRaw, decodeFlow, decodeBar, encMods, Option.map_some, hb]
      simp [need, withLit, toB_setWidth, fitsB_setWidth]

theorem barExpect (x0 : Mods LitBar) (x1 : BitVec 5) (x2 : RegIx) : Statement (.barExpect x0 x1 x2) := by
  intro h _
  simp only [Instr.wf, Bool.and_eq_true] at h
  obtain ⟨⟨⟨hm, hf⟩, hl⟩, hr⟩ := h
  refine decode_enc _ _ ?_ ?_ hf hl hr
  · simp only [Instr.modsOk, Bool.and_eq_true] at hm
    exact chain_enc x0 _ hm.1
  · obtain ⟨c, g, lit⟩ := x0
    cases lit with
    | none => simp [Instr.modsOk] at hm
    | some l =>
      have hb := LitBar.bop_toBits 3 l.body
      simp only [decodeRaw, decodeFlow, decodeBar, encMods, Option.map_some, hb]
      simp [need, withLit, toB_setWidth, fitsB_setWidth]

theorem nop (x0 : Plain) : Statement (.nop x0) := by
  intro h _
  simp only [Instr.wf, Bool.and_eq_true] at h
  obtain ⟨⟨⟨hm, hf⟩, hl⟩, hr⟩ := h
  refine decode_enc _ _ ?_ ?_ hf hl hr
  · intro h; simp [encPlain] at h
  · simp [decodeRaw, decodeFlow, encMods, encPlain, need, noLit, toP_predField, fitsP_predField, toT_setWidth, fitsT_setWidth, toB_setWidth, fitsB_setWidth, toJ_setWidth, fitsJ_setWidth]

theorem sleep (x0 : Mods LitSleep) : Statement (.sleep x0) := by
  intro h _
  simp only [Instr.wf, Bool.and_eq_true] at h
  obtain ⟨⟨⟨hm, hf⟩, hl⟩, hr⟩ := h
  refine decode_enc _ _ ?_ ?_ hf hl hr
  · exact chain_enc x0 _ hm
  · exact withLit_enc x0 (encMods x0 18 6 0 0 0 LitSleep.toBits).raw LitSleep.toBits LitSleep.ofBits (fun m => .sleep m ) rfl rfl
      (fun l _ => LitSleep.ofBits_toBits l.body)

theorem spawn (x0 : Mods LitSpawn) (x1 : BitVec 3) (x2 : RegIx) (x3 : RegIx) : Statement (.spawn x0 x1 x2 x3) := by
  intro h _
  simp only [Instr.wf, Bool.and_eq_true] at h
  obtain ⟨⟨⟨hm, hf⟩, hl⟩, hr⟩ := h
  refine decode_enc _ _ ?_ ?_ hf hl hr
  · exact chain_enc x0 _ hm
  · simp [decodeRaw, decodeSpawn, encMods, encPlain, need, noLit, toP_predField, fitsP_predField, toT_setWidth, fitsT_setWidth, toB_setWidth, fitsB_setWidth, toJ_setWidth, fitsJ_setWidth]

theorem spawnr (x0 : Mods LitSpawn) (x1 : BitVec 3) (x2 : RegIx) (x3 : RegIx) : Statement (.spawnr x0 x1 x2 x3) := by
  intro h _
  simp only [Instr.wf, Bool.and_eq_true] at h
  obtain ⟨⟨⟨hm, hf⟩, hl⟩, hr⟩ := h
  refine decode_enc _ _ ?_ ?_ hf hl hr
  · exact chain_enc x0 _ hm
  · simp [decodeRaw, decodeSpawn, encMods, encPlain, need, noLit, toP_predField, fitsP_predField, toT_setWidth, fitsT_setWidth, toB_setWidth, fitsB_setWidth, toJ_setWidth, fitsJ_setWidth]

theorem jwait (x0 : Plain) (x1 : RegIx) : Statement (.jwait x0 x1) := by
  intro h _
  simp only [Instr.wf, Bool.and_eq_true] at h
  obtain ⟨⟨⟨hm, hf⟩, hl⟩, hr⟩ := h
  refine decode_enc _ _ ?_ ?_ hf hl hr
  · intro h; simp [encPlain] at h
  · simp [decodeRaw, decodeSpawn, encMods, encPlain, need, noLit, toP_predField, fitsP_predField, toT_setWidth, fitsT_setWidth, toB_setWidth, fitsB_setWidth, toJ_setWidth, fitsJ_setWidth]

theorem watch (x0 : Mods LitSpawn) (x1 : BitVec 3) (x2 : RegIx) (x3 : RegIx) : Statement (.watch x0 x1 x2 x3) := by
  intro h _
  simp only [Instr.wf, Bool.and_eq_true] at h
  obtain ⟨⟨⟨hm, hf⟩, hl⟩, hr⟩ := h
  refine decode_enc _ _ ?_ ?_ hf hl hr
  · exact chain_enc x0 _ hm
  · simp [decodeRaw, decodeSpawn, encMods, encPlain, need, noLit, toP_predField, fitsP_predField, toT_setWidth, fitsT_setWidth, toB_setWidth, fitsB_setWidth, toJ_setWidth, fitsJ_setWidth]

theorem unwatch (x0 : Plain) (x1 : BitVec 3) (x2 : RegIx) : Statement (.unwatch x0 x1 x2) := by
  intro h _
  simp only [Instr.wf, Bool.and_eq_true] at h
  obtain ⟨⟨⟨hm, hf⟩, hl⟩, hr⟩ := h
  refine decode_enc _ _ ?_ ?_ hf hl hr
  · intro h; simp [encPlain] at h
  · simp [decodeRaw, decodeSpawn, encMods, encPlain, need, noLit, toP_predField, fitsP_predField, toT_setWidth, fitsT_setWidth, toB_setWidth, fitsB_setWidth, toJ_setWidth, fitsJ_setWidth]

theorem kcap (x0 : Plain) (x1 : RegIx) : Statement (.kcap x0 x1) := by
  intro h _
  simp only [Instr.wf, Bool.and_eq_true] at h
  obtain ⟨⟨⟨hm, hf⟩, hl⟩, hr⟩ := h
  refine decode_enc _ _ ?_ ?_ hf hl hr
  · intro h; simp [encPlain] at h
  · simp [decodeRaw, decodeSpawn, encMods, encPlain, need, noLit, toP_predField, fitsP_predField, toT_setWidth, fitsT_setWidth, toB_setWidth, fitsB_setWidth, toJ_setWidth, fitsJ_setWidth]

theorem mtc (x0 : Mods LitEng) (x1 : BitVec 4) (x2 : RegIx) : Statement (.mtc x0 x1 x2) := by
  intro h _
  simp only [Instr.wf, Bool.and_eq_true] at h
  obtain ⟨⟨⟨hm, hf⟩, hl⟩, hr⟩ := h
  refine decode_enc _ _ ?_ ?_ hf hl hr
  · exact chain_enc x0 _ hm
  · simp [decodeRaw, decodeTile, encMods, encPlain, need, noLit, toP_predField, fitsP_predField, toT_setWidth, fitsT_setWidth, toB_setWidth, fitsB_setWidth, toJ_setWidth, fitsJ_setWidth]

theorem mfc (x0 : Mods LitEng) (x1 : RegIx) (x2 : BitVec 4) : Statement (.mfc x0 x1 x2) := by
  intro h _
  simp only [Instr.wf, Bool.and_eq_true] at h
  obtain ⟨⟨⟨hm, hf⟩, hl⟩, hr⟩ := h
  refine decode_enc _ _ ?_ ?_ hf hl hr
  · exact chain_enc x0 _ hm
  · simp [decodeRaw, decodeTile, encMods, encPlain, need, noLit, toP_predField, fitsP_predField, toT_setWidth, fitsT_setWidth, toB_setWidth, fitsB_setWidth, toJ_setWidth, fitsJ_setWidth]

theorem tzeroTile (x0 : Mods LitEng) (x1 : BitVec 4) : Statement (.tzeroTile x0 x1) := by
  intro h _
  simp only [Instr.wf, Bool.and_eq_true] at h
  obtain ⟨⟨⟨hm, hf⟩, hl⟩, hr⟩ := h
  refine decode_enc _ _ ?_ ?_ hf hl hr
  · exact chain_enc x0 _ hm
  · simp [decodeRaw, decodeTile, encMods, encPlain, need, noLit, toP_predField, fitsP_predField, toT_setWidth, fitsT_setWidth, toB_setWidth, fitsB_setWidth, toJ_setWidth, fitsJ_setWidth, tileOrAcc]

theorem tzeroAcc (x0 : Mods LitEng) (x1 : BitVec 3) : Statement (.tzeroAcc x0 x1) := by
  intro h _
  simp only [Instr.wf, Bool.and_eq_true] at h
  obtain ⟨⟨⟨hm, hf⟩, hl⟩, hr⟩ := h
  refine decode_enc _ _ ?_ ?_ hf hl hr
  · exact chain_enc x0 _ hm
  · simp [decodeRaw, decodeTile, encMods, encPlain, need, noLit, toP_predField, fitsP_predField, toT_setWidth, fitsT_setWidth, toB_setWidth, fitsB_setWidth, toJ_setWidth, fitsJ_setWidth, tileOrAcc]

theorem tldTile (x0 : Mods LitEng) (x1 : BitVec 4) (x2 : RegIx) : Statement (.tldTile x0 x1 x2) := by
  intro h _
  simp only [Instr.wf, Bool.and_eq_true] at h
  obtain ⟨⟨⟨hm, hf⟩, hl⟩, hr⟩ := h
  refine decode_enc _ _ ?_ ?_ hf hl hr
  · exact chain_enc x0 _ hm
  · simp [decodeRaw, decodeTile, encMods, encPlain, need, noLit, toP_predField, fitsP_predField, toT_setWidth, fitsT_setWidth, toB_setWidth, fitsB_setWidth, toJ_setWidth, fitsJ_setWidth, tileOrAcc]

theorem tldAcc (x0 : Mods LitEng) (x1 : BitVec 3) (x2 : RegIx) : Statement (.tldAcc x0 x1 x2) := by
  intro h _
  simp only [Instr.wf, Bool.and_eq_true] at h
  obtain ⟨⟨⟨hm, hf⟩, hl⟩, hr⟩ := h
  refine decode_enc _ _ ?_ ?_ hf hl hr
  · exact chain_enc x0 _ hm
  · simp [decodeRaw, decodeTile, encMods, encPlain, need, noLit, toP_predField, fitsP_predField, toT_setWidth, fitsT_setWidth, toB_setWidth, fitsB_setWidth, toJ_setWidth, fitsJ_setWidth, tileOrAcc]

theorem tstTile (x0 : Mods LitEng) (x1 : BitVec 4) (x2 : RegIx) : Statement (.tstTile x0 x1 x2) := by
  intro h _
  simp only [Instr.wf, Bool.and_eq_true] at h
  obtain ⟨⟨⟨hm, hf⟩, hl⟩, hr⟩ := h
  refine decode_enc _ _ ?_ ?_ hf hl hr
  · exact chain_enc x0 _ hm
  · simp [decodeRaw, decodeTile, encMods, encPlain, need, noLit, toP_predField, fitsP_predField, toT_setWidth, fitsT_setWidth, toB_setWidth, fitsB_setWidth, toJ_setWidth, fitsJ_setWidth, tileOrAcc]

theorem tstAcc (x0 : Mods LitEng) (x1 : BitVec 3) (x2 : RegIx) : Statement (.tstAcc x0 x1 x2) := by
  intro h _
  simp only [Instr.wf, Bool.and_eq_true] at h
  obtain ⟨⟨⟨hm, hf⟩, hl⟩, hr⟩ := h
  refine decode_enc _ _ ?_ ?_ hf hl hr
  · exact chain_enc x0 _ hm
  · simp [decodeRaw, decodeTile, encMods, encPlain, need, noLit, toP_predField, fitsP_predField, toT_setWidth, fitsT_setWidth, toB_setWidth, fitsB_setWidth, toJ_setWidth, fitsJ_setWidth, tileOrAcc]

theorem tmma (x0 : Mods LitEng) : Statement (.tmma x0) := by
  intro h _
  simp only [Instr.wf, Bool.and_eq_true] at h
  obtain ⟨⟨⟨hm, hf⟩, hl⟩, hr⟩ := h
  refine decode_enc _ _ ?_ ?_ hf hl hr
  · exact chain_enc x0 _ hm
  · exact withLit_enc x0 (encMods x0 20 5 0 0 0 LitEng.toBits).raw LitEng.toBits LitEng.ofBits (fun m => .tmma m ) rfl rfl
      (fun l _ => LitEng.ofBits_toBits l.body)

theorem tbmp (x0 : Mods LitEng) (x1 : BitVec 4) : Statement (.tbmp x0 x1) := by
  intro h _
  simp only [Instr.wf, Bool.and_eq_true] at h
  obtain ⟨⟨⟨hm, hf⟩, hl⟩, hr⟩ := h
  refine decode_enc _ _ ?_ ?_ hf hl hr
  · exact chain_enc x0 _ hm
  · simp [decodeRaw, decodeTile, encMods, encPlain, need, noLit, toP_predField, fitsP_predField, toT_setWidth, fitsT_setWidth, toB_setWidth, fitsB_setWidth, toJ_setWidth, fitsJ_setWidth]

theorem tcvt (x0 : Mods LitEng) (x1 : BitVec 4) (x2 : BitVec 4) (x3 : RegIx) : Statement (.tcvt x0 x1 x2 x3) := by
  intro h _
  simp only [Instr.wf, Bool.and_eq_true] at h
  obtain ⟨⟨⟨hm, hf⟩, hl⟩, hr⟩ := h
  refine decode_enc _ _ ?_ ?_ hf hl hr
  · exact chain_enc x0 _ hm
  · simp [decodeRaw, decodeTile, encMods, encPlain, need, noLit, toP_predField, fitsP_predField, toT_setWidth, fitsT_setWidth, toB_setWidth, fitsB_setWidth, toJ_setWidth, fitsJ_setWidth]

theorem tacc (x0 : Mods LitEng) (x1 : RegIx) (x2 : BitVec 3) (x3 : RegIx) : Statement (.tacc x0 x1 x2 x3) := by
  intro h _
  simp only [Instr.wf, Bool.and_eq_true] at h
  obtain ⟨⟨⟨hm, hf⟩, hl⟩, hr⟩ := h
  refine decode_enc _ _ ?_ ?_ hf hl hr
  · exact chain_enc x0 _ hm
  · simp [decodeRaw, decodeTile, encMods, encPlain, need, noLit, toP_predField, fitsP_predField, toT_setWidth, fitsT_setWidth, toB_setWidth, fitsB_setWidth, toJ_setWidth, fitsJ_setWidth]

theorem tstatTile (x0 : Mods LitEng) (x1 : RegIx) : Statement (.tstatTile x0 x1) := by
  intro h _
  simp only [Instr.wf, Bool.and_eq_true] at h
  obtain ⟨⟨⟨hm, hf⟩, hl⟩, hr⟩ := h
  refine decode_enc _ _ ?_ ?_ hf hl hr
  · exact chain_enc x0 _ hm
  · exact withLit_enc x0 (encMods x0 20 9 x1 0 0 LitEng.toBits).raw LitEng.toBits LitEng.ofBits (fun m => .tstatTile m x1) rfl rfl
      (fun l _ => LitEng.ofBits_toBits l.body)

theorem tstatBarrier (x0 : Mods LitEng) (x1 : RegIx) (x2 : BitVec 5) : Statement (.tstatBarrier x0 x1 x2) := by
  intro h _
  simp only [Instr.wf, Bool.and_eq_true] at h
  obtain ⟨⟨⟨hm, hf⟩, hl⟩, hr⟩ := h
  refine decode_enc _ _ ?_ ?_ hf hl hr
  · exact chain_enc x0 _ hm
  · simp [decodeRaw, decodeTile, encMods, encPlain, need, noLit, toP_predField, fitsP_predField, toT_setWidth, fitsT_setWidth, toB_setWidth, fitsB_setWidth, toJ_setWidth, fitsJ_setWidth]

theorem tgat (x0 : Mods LitEng) (x1 : BitVec 4) (x2 : RegIx) (x3 : RegIx) : Statement (.tgat x0 x1 x2 x3) := by
  intro h _
  simp only [Instr.wf, Bool.and_eq_true] at h
  obtain ⟨⟨⟨hm, hf⟩, hl⟩, hr⟩ := h
  refine decode_enc _ _ ?_ ?_ hf hl hr
  · exact chain_enc x0 _ hm
  · simp [decodeRaw, decodeTgath, encMods, encPlain, need, noLit, toP_predField, fitsP_predField, toT_setWidth, fitsT_setWidth, toB_setWidth, fitsB_setWidth, toJ_setWidth, fitsJ_setWidth]

theorem cpyStash (x0 : Mods LitEng) (x1 : RegIx) : Statement (.cpyStash x0 x1) := by
  intro h _
  simp only [Instr.wf, Bool.and_eq_true] at h
  obtain ⟨⟨⟨hm, hf⟩, hl⟩, hr⟩ := h
  refine decode_enc _ _ ?_ ?_ hf hl hr
  · exact chain_enc x0 _ hm
  · exact withLit_enc x0 (encMods x0 22 0 0 x1 0 LitEng.toBits).raw LitEng.toBits LitEng.ofBits (fun m => .cpyStash m x1) rfl rfl
      (fun l _ => LitEng.ofBits_toBits l.body)

theorem cpyTile (x0 : Mods LitEng) (x1 : BitVec 4) (x2 : RegIx) : Statement (.cpyTile x0 x1 x2) := by
  intro h _
  simp only [Instr.wf, Bool.and_eq_true] at h
  obtain ⟨⟨⟨hm, hf⟩, hl⟩, hr⟩ := h
  refine decode_enc _ _ ?_ ?_ hf hl hr
  · exact chain_enc x0 _ hm
  · have h1 := (by decide : ∀ x : BitVec 4, ((1 : BitVec 2) ++ x == 0) = false) x1
    have h2 := (by decide : ∀ x : BitVec 4, ((1 : BitVec 2) ++ x).extractLsb' 4 2 = 1) x1
    have h3 := (by decide : ∀ x : BitVec 4, toT ((1 : BitVec 2) ++ x) = x) x1
    simp only [decodeRaw, decodeCopy, encMods, need]
    simp only [h1, h2, h3]
    simp

theorem cpyl (x0 : Mods LitEng) (x1 : BitVec 2) (x2 : RegIx) (x3 : RegIx) : Statement (.cpyl x0 x1 x2 x3) := by
  intro h _
  simp only [Instr.wf, Bool.and_eq_true] at h
  obtain ⟨⟨⟨hm, hf⟩, hl⟩, hr⟩ := h
  refine decode_enc _ _ ?_ ?_ hf hl hr
  · exact chain_enc x0 _ hm
  · have h1 := (by decide : ∀ x : BitVec 2, (x ++ (0 : BitVec 4)).extractLsb' 4 2 = x) x1
    have h2 := (by decide : ∀ x : BitVec 2, (x ++ (0 : BitVec 4)).extractLsb' 0 4 = 0) x1
    simp only [decodeRaw, decodeCopy, decodeCpyl, encMods]
    simp only [h1, h2]
    simp

theorem cpylSt (x0 : Mods LitEng) (x1 : BitVec 2) (x2 : RegIx) (x3 : RegIx) : Statement (.cpylSt x0 x1 x2 x3) := by
  intro h _
  simp only [Instr.wf, Bool.and_eq_true] at h
  obtain ⟨⟨⟨hm, hf⟩, hl⟩, hr⟩ := h
  refine decode_enc _ _ ?_ ?_ hf hl hr
  · exact chain_enc x0 _ hm
  · have h1 := (by decide : ∀ x : BitVec 2, (x ++ (1 : BitVec 4)).extractLsb' 4 2 = x) x1
    have h2 := (by decide : ∀ x : BitVec 2, (x ++ (1 : BitVec 4)).extractLsb' 0 4 = 1) x1
    simp only [decodeRaw, decodeCopy, decodeCpyl, encMods]
    simp only [h1, h2]
    simp

theorem cpylGg (x0 : Mods LitEng) (x1 : BitVec 2) (x2 : RegIx) (x3 : RegIx) : Statement (.cpylGg x0 x1 x2 x3) := by
  intro h _
  simp only [Instr.wf, Bool.and_eq_true] at h
  obtain ⟨⟨⟨hm, hf⟩, hl⟩, hr⟩ := h
  refine decode_enc _ _ ?_ ?_ hf hl hr
  · exact chain_enc x0 _ hm
  · have h1 := (by decide : ∀ x : BitVec 2, (x ++ (2 : BitVec 4)).extractLsb' 4 2 = x) x1
    have h2 := (by decide : ∀ x : BitVec 2, (x ++ (2 : BitVec 4)).extractLsb' 0 4 = 2) x1
    simp only [decodeRaw, decodeCopy, decodeCpyl, encMods]
    simp only [h1, h2]
    simp

theorem cpym (x0 : Mods LitEng) (x1 : BitVec 2) (x2 : RegIx) (x3 : RegIx) : Statement (.cpym x0 x1 x2 x3) := by
  intro h _
  simp only [Instr.wf, Bool.and_eq_true] at h
  obtain ⟨⟨⟨hm, hf⟩, hl⟩, hr⟩ := h
  refine decode_enc _ _ ?_ ?_ hf hl hr
  · exact chain_enc x0 _ hm
  · have h1 := (by decide : ∀ x : BitVec 2, (x ++ (0 : BitVec 4)).extractLsb' 4 2 = x) x1
    have h2 := (by decide : ∀ x : BitVec 2, toT (x ++ (0 : BitVec 4)) = 0) x1
    simp only [decodeRaw, decodeCopy, encMods, need]
    simp only [h1, h2]
    simp

theorem cwpt (x0 : Mods LitEng) (x1 : RegIx) : Statement (.cwpt x0 x1) := by
  intro h _
  simp only [Instr.wf, Bool.and_eq_true] at h
  obtain ⟨⟨⟨hm, hf⟩, hl⟩, hr⟩ := h
  refine decode_enc _ _ ?_ ?_ hf hl hr
  · exact chain_enc x0 _ hm
  · exact withLit_enc x0 (encMods x0 22 3 x1 0 0 LitEng.toBits).raw LitEng.toBits LitEng.ofBits (fun m => .cwpt m x1) rfl rfl
      (fun l _ => LitEng.ofBits_toBits l.body)

theorem coll (x0 : Mods LitEng) (x1 : RegIx) : Statement (.coll x0 x1) := by
  intro h _
  simp only [Instr.wf, Bool.and_eq_true] at h
  obtain ⟨⟨⟨hm, hf⟩, hl⟩, hr⟩ := h
  refine decode_enc _ _ ?_ ?_ hf hl hr
  · exact chain_enc x0 _ hm
  · exact withLit_enc x0 (encMods x0 22 4 0 x1 0 LitEng.toBits).raw LitEng.toBits LitEng.ofBits (fun m => .coll m x1) rfl rfl
      (fun l _ => LitEng.ofBits_toBits l.body)

theorem rpmark (x0 : Plain) : Statement (.rpmark x0) := by
  intro h _
  simp only [Instr.wf, Bool.and_eq_true] at h
  obtain ⟨⟨⟨hm, hf⟩, hl⟩, hr⟩ := h
  refine decode_enc _ _ ?_ ?_ hf hl hr
  · intro h; simp [encPlain] at h
  · simp [decodeRaw, decodeRecov, encMods, encPlain, need, noLit, toP_predField, fitsP_predField, toT_setWidth, fitsT_setWidth, toB_setWidth, fitsB_setWidth, toJ_setWidth, fitsJ_setWidth]

theorem rpqry (x0 : Plain) (x1 : RegIx) (x2 : RegIx) : Statement (.rpqry x0 x1 x2) := by
  intro h _
  simp only [Instr.wf, Bool.and_eq_true] at h
  obtain ⟨⟨⟨hm, hf⟩, hl⟩, hr⟩ := h
  refine decode_enc _ _ ?_ ?_ hf hl hr
  · intro h; simp [encPlain] at h
  · simp [decodeRaw, decodeRecov, encMods, encPlain, need, noLit, toP_predField, fitsP_predField, toT_setWidth, fitsT_setWidth, toB_setWidth, fitsB_setWidth, toJ_setWidth, fitsJ_setWidth]

theorem movs (x0 : Plain) (x1 : RegIx) (x2 : RegIx) : Statement (.movs x0 x1 x2) := by
  intro h _
  simp only [Instr.wf, Bool.and_eq_true] at h
  obtain ⟨⟨⟨hm, hf⟩, hl⟩, hr⟩ := h
  refine decode_enc _ _ ?_ ?_ hf hl hr
  · intro h; simp [encPlain] at h
  · simp [decodeRaw, decodeSys, encMods, encPlain, need, noLit, toP_predField, fitsP_predField, toT_setWidth, fitsT_setWidth, toB_setWidth, fitsB_setWidth, toJ_setWidth, fitsJ_setWidth]

theorem movw (x0 : Plain) (x1 : RegIx) (x2 : RegIx) : Statement (.movw x0 x1 x2) := by
  intro h _
  simp only [Instr.wf, Bool.and_eq_true] at h
  obtain ⟨⟨⟨hm, hf⟩, hl⟩, hr⟩ := h
  refine decode_enc _ _ ?_ ?_ hf hl hr
  · intro h; simp [encPlain] at h
  · simp [decodeRaw, decodeSys, encMods, encPlain, need, noLit, toP_predField, fitsP_predField, toT_setWidth, fitsT_setWidth, toB_setWidth, fitsB_setWidth, toJ_setWidth, fitsJ_setWidth]

theorem rdtm (x0 : Plain) (x1 : RegIx) : Statement (.rdtm x0 x1) := by
  intro h _
  simp only [Instr.wf, Bool.and_eq_true] at h
  obtain ⟨⟨⟨hm, hf⟩, hl⟩, hr⟩ := h
  refine decode_enc _ _ ?_ ?_ hf hl hr
  · intro h; simp [encPlain] at h
  · simp [decodeRaw, decodeSys, encMods, encPlain, need, noLit, toP_predField, fitsP_predField, toT_setWidth, fitsT_setWidth, toB_setWidth, fitsB_setWidth, toJ_setWidth, fitsJ_setWidth]

theorem svcVersion (x0 : Mods LitSys) : Statement (.svcVersion x0) := by
  intro h _
  simp only [Instr.wf, Bool.and_eq_true] at h
  obtain ⟨⟨⟨hm, hf⟩, hl⟩, hr⟩ := h
  refine decode_enc _ _ ?_ ?_ hf hl hr
  · exact chain_enc x0 _ hm
  · obtain ⟨c, g, lit⟩ := x0
    cases lit with
    | none => simp [decodeRaw, decodeSys, decodeSvc, encMods, encPlain, need, noLit, toP_predField, fitsP_predField, toT_setWidth, fitsT_setWidth, toB_setWidth, fitsB_setWidth, toJ_setWidth, fitsJ_setWidth, withLit]
    | some l =>
      simp only [Instr.litOk, Mods.allLit, Bool.and_eq_true, beq_iff_eq, decide_eq_true_eq] at hl
      have hb := LitSys.imm_toBits l.body
      simp only [decodeRaw, decodeSys, decodeSvc, encMods, Option.map_some, hb, hl.2]
      simp [need, withLit, toB_setWidth, fitsB_setWidth]

theorem svcRecord (x0 : Mods LitSys) : Statement (.svcRecord x0) := by
  intro h _
  simp only [Instr.wf, Bool.and_eq_true] at h
  obtain ⟨⟨⟨hm, hf⟩, hl⟩, hr⟩ := h
  refine decode_enc _ _ ?_ ?_ hf hl hr
  · simp only [Instr.modsOk, Bool.and_eq_true] at hm
    exact chain_enc x0 _ hm.1
  · obtain ⟨c, g, lit⟩ := x0
    cases lit with
    | none => simp [Instr.modsOk] at hm
    | some l =>
      simp only [Instr.litOk, Mods.allLit, Bool.and_eq_true, beq_iff_eq, decide_eq_true_eq] at hl
      have hb := LitSys.imm_toBits l.body
      simp only [decodeRaw, decodeSys, decodeSvc, encMods, Option.map_some, hb, hl.2]
      simp [need, withLit, toB_setWidth, fitsB_setWidth]

theorem svcCause (x0 : Mods LitSys) : Statement (.svcCause x0) := by
  intro h _
  simp only [Instr.wf, Bool.and_eq_true] at h
  obtain ⟨⟨⟨hm, hf⟩, hl⟩, hr⟩ := h
  refine decode_enc _ _ ?_ ?_ hf hl hr
  · simp only [Instr.modsOk, Bool.and_eq_true] at hm
    exact chain_enc x0 _ hm.1
  · obtain ⟨c, g, lit⟩ := x0
    cases lit with
    | none => simp [Instr.modsOk] at hm
    | some l =>
      simp only [Instr.litOk, Mods.allLit, Bool.and_eq_true, beq_iff_eq, decide_eq_true_eq] at hl
      have hb := LitSys.imm_toBits l.body
      simp only [decodeRaw, decodeSys, decodeSvc, encMods, Option.map_some, hb]
      show need _ _ (match l.body.imm.toNat with | 0 => _ | 1 => _ | _ => _) = _
      obtain ⟨_, h2⟩ := hl
      generalize hk : l.body.imm.toNat = k at h2
      match k, h2 with
      | k + 2, _ => simp [need, withLit]

theorem tret (x0 : Plain) : Statement (.tret x0) := by
  intro h _
  simp only [Instr.wf, Bool.and_eq_true] at h
  obtain ⟨⟨⟨hm, hf⟩, hl⟩, hr⟩ := h
  refine decode_enc _ _ ?_ ?_ hf hl hr
  · intro h; simp [encPlain] at h
  · simp [decodeRaw, decodeSys, encMods, encPlain, need, noLit, toP_predField, fitsP_predField, toT_setWidth, fitsT_setWidth, toB_setWidth, fitsB_setWidth, toJ_setWidth, fitsJ_setWidth]

theorem tlbi (x0 : Mods LitSys) (x1 : RegIx) : Statement (.tlbi x0 x1) := by
  intro h _
  simp only [Instr.wf, Bool.and_eq_true] at h
  obtain ⟨⟨⟨hm, hf⟩, hl⟩, hr⟩ := h
  refine decode_enc _ _ ?_ ?_ hf hl hr
  · exact chain_enc x0 _ hm
  · exact withLit_enc x0 (encMods x0 24 5 0 x1 0 LitSys.toBits).raw LitSys.toBits LitSys.ofBits (fun m => .tlbi m x1) rfl rfl
      (fun l _ => LitSys.ofBits_toBits l.body)

theorem rep (x0 : Plain) (x1 : RegIx) (x2 : BitVec 3) : Statement (.rep x0 x1 x2) := by
  intro h _
  simp only [Instr.wf, Bool.and_eq_true] at h
  obtain ⟨⟨⟨hm, hf⟩, hl⟩, hr⟩ := h
  refine decode_enc _ _ ?_ ?_ hf hl hr
  · intro h; simp [encPlain] at h
  · simp [decodeRaw, decodePfx, encMods, encPlain, need, noLit, toP_predField, fitsP_predField, toT_setWidth, fitsT_setWidth, toB_setWidth, fitsB_setWidth, toJ_setWidth, fitsJ_setWidth, predField_high]

theorem censusDecision (x0 : Nat) (x1 : Nat) : Statement (.censusDecision x0 x1) := by
  intro _ he
  simp [Instr.enc] at he

theorem resultWriteback (x0 : Nat) : Statement (.resultWriteback x0) := by
  intro _ he
  simp [Instr.enc] at he

theorem loadReturn (x0 : Nat) (x1 : Bool) : Statement (.loadReturn x0 x1) := by
  intro _ he
  simp [Instr.enc] at he

theorem storeAcknowledge (x0 : Nat) : Statement (.storeAcknowledge x0) := by
  intro _ he
  simp [Instr.enc] at he

theorem homeWritePerformed (x0 : Nat) : Statement (.homeWritePerformed x0) := by
  intro _ he
  simp [Instr.enc] at he

theorem releaseWaitEnd (x0 : Nat) : Statement (.releaseWaitEnd x0) := by
  intro _ he
  simp [Instr.enc] at he

theorem fenceScSequenced (x0 : Nat) : Statement (.fenceScSequenced x0) := by
  intro _ he
  simp [Instr.enc] at he

theorem leaseExpiry (x0 : Nat) (x1 : Option Nat) (x2 : Nat) : Statement (.leaseExpiry x0 x1 x2) := by
  intro _ he
  simp [Instr.enc] at he

theorem mappedLineFill (x0 : Nat) (x1 : Nat) : Statement (.mappedLineFill x0 x1) := by
  intro _ he
  simp [Instr.enc] at he

theorem stashStallTimeout (x0 : Nat) : Statement (.stashStallTimeout x0) := by
  intro _ he
  simp [Instr.enc] at he

theorem rendezvousWatchdogExpiry (x0 : Nat) (x1 : Nat) (x2 : Nat) : Statement (.rendezvousWatchdogExpiry x0 x1 x2) := by
  intro _ he
  simp [Instr.enc] at he

theorem sleepWake (x0 : Nat) : Statement (.sleepWake x0) := by
  intro _ he
  simp [Instr.enc] at he

theorem devBarrierWakeWindow (x0 : Nat) (x1 : Nat) : Statement (.devBarrierWakeWindow x0 x1) := by
  intro _ he
  simp [Instr.enc] at he

theorem gatherCrew (x0 : Nat) (x1 : Nat) (x2 : Nat) (x3 : Nat) (x4 : Nat) : Statement (.gatherCrew x0 x1 x2 x3 x4) := by
  intro _ he
  simp [Instr.enc] at he

theorem cohortAdmit (x0 : Nat) : Statement (.cohortAdmit x0) := by
  intro _ he
  simp [Instr.enc] at he

theorem spillRecordMigration (x0 : Nat) : Statement (.spillRecordMigration x0) := by
  intro _ he
  simp [Instr.enc] at he

theorem watchFiringRecord (x0 : Nat) (x1 : Nat) : Statement (.watchFiringRecord x0 x1) := by
  intro _ he
  simp [Instr.enc] at he

theorem jwaitReread (x0 : Nat) : Statement (.jwaitReread x0) := by
  intro _ he
  simp [Instr.enc] at he

theorem flueCommandStart (x0 : Nat) (x1 : Nat) : Statement (.flueCommandStart x0 x1) := by
  intro _ he
  simp [Instr.enc] at he

theorem flueLineDelivery (x0 : Nat) (x1 : Nat) : Statement (.flueLineDelivery x0 x1) := by
  intro _ he
  simp [Instr.enc] at he

theorem flueCommandComplete (x0 : Nat) (x1 : Nat) : Statement (.flueCommandComplete x0 x1) := by
  intro _ he
  simp [Instr.enc] at he

theorem tileCommandStart (x0 : Nat) : Statement (.tileCommandStart x0) := by
  intro _ he
  simp [Instr.enc] at he

theorem tileCommandComplete (x0 : Nat) (x1 : Nat) : Statement (.tileCommandComplete x0 x1) := by
  intro _ he
  simp [Instr.enc] at he

theorem collComplete (x0 : Nat) (x1 : List (List Word)) : Statement (.collComplete x0 x1) := by
  intro _ he
  simp [Instr.enc] at he

theorem translationWalkComplete (x0 : Nat) : Statement (.translationWalkComplete x0) := by
  intro _ he
  simp [Instr.enc] at he

theorem garleyPageService (x0 : Nat) : Statement (.garleyPageService x0) := by
  intro _ he
  simp [Instr.enc] at he

theorem launchComplete (x0 : Nat) : Statement (.launchComplete x0) := by
  intro _ he
  simp [Instr.enc] at he

theorem tailLineStore (x0 : Nat) : Statement (.tailLineStore x0) := by
  intro _ he
  simp [Instr.enc] at he

theorem nopPacket (x0 : Nat) : Statement (.nopPacket x0) := by
  intro _ he
  simp [Instr.enc] at he

theorem launch (x0 : Nat) : Statement (.launch x0) := by
  intro _ he
  simp [Instr.enc] at he

theorem indirect (x0 : Nat) : Statement (.indirect x0) := by
  intro _ he
  simp [Instr.enc] at he

theorem wait (x0 : Nat) : Statement (.wait x0) := by
  intro _ he
  simp [Instr.enc] at he

theorem waitThresholdReached (x0 : Nat) : Statement (.waitThresholdReached x0) := by
  intro _ he
  simp [Instr.enc] at he

theorem signal (x0 : Nat) : Statement (.signal x0) := by
  intro _ he
  simp [Instr.enc] at he

theorem fencePacket (x0 : Nat) : Statement (.fencePacket x0) := by
  intro _ he
  simp [Instr.enc] at he

theorem layout (x0 : Nat) : Statement (.layout x0) := by
  intro _ he
  simp [Instr.enc] at he

theorem copy (x0 : Nat) : Statement (.copy x0) := by
  intro _ he
  simp [Instr.enc] at he

theorem recoverClose (x0 : Nat) : Statement (.recoverClose x0) := by
  intro _ he
  simp [Instr.enc] at he

theorem recoverReplay (x0 : Nat) : Statement (.recoverReplay x0) := by
  intro _ he
  simp [Instr.enc] at he

theorem recoverDiscard (x0 : Nat) : Statement (.recoverDiscard x0) := by
  intro _ he
  simp [Instr.enc] at he

theorem priority (x0 : Nat) : Statement (.priority x0) := by
  intro _ he
  simp [Instr.enc] at he

theorem query (x0 : Nat) : Statement (.query x0) := by
  intro _ he
  simp [Instr.enc] at he

theorem createContext : Statement (.createContext) := by
  intro _ he
  simp [Instr.enc] at he

theorem destroyContext : Statement (.destroyContext) := by
  intro _ he
  simp [Instr.enc] at he

theorem createQueue : Statement (.createQueue) := by
  intro _ he
  simp [Instr.enc] at he

theorem destroyQueue : Statement (.destroyQueue) := by
  intro _ he
  simp [Instr.enc] at he

theorem resumeQueue : Statement (.resumeQueue) := by
  intro _ he
  simp [Instr.enc] at he

theorem setHostRange : Statement (.setHostRange) := by
  intro _ he
  simp [Instr.enc] at he

theorem setPolicy : Statement (.setPolicy) := by
  intro _ he
  simp [Instr.enc] at he

theorem spdm (x0 : List Byte) (x1 : Option (Nat × Bool)) : Statement (.spdm x0 x1) := by
  intro _ he
  simp [Instr.enc] at he

theorem faultDone : Statement (.faultDone) := by
  intro _ he
  simp [Instr.enc] at he

theorem registerWrite (x0 : RegSpace) (x1 : Nat) (x2 : List Byte) : Statement (.registerWrite x0 x1 x2) := by
  intro _ he
  simp [Instr.enc] at he

theorem packagePowerLimitWrite (x0 : Nat) : Statement (.packagePowerLimitWrite x0) := by
  intro _ he
  simp [Instr.enc] at he

theorem packageResetRequest (x0 : Byte) : Statement (.packageResetRequest x0) := by
  intro _ he
  simp [Instr.enc] at he

theorem preemptStopOrder (x0 : Nat) (x1 : Nat) : Statement (.preemptStopOrder x0 x1) := by
  intro _ he
  simp [Instr.enc] at he

theorem contextSaveComplete (x0 : Nat) : Statement (.contextSaveComplete x0) := by
  intro _ he
  simp [Instr.enc] at he

theorem contextRestore (x0 : Nat) : Statement (.contextRestore x0) := by
  intro _ he
  simp [Instr.enc] at he

theorem damperInterval (x0 : Nat) : Statement (.damperInterval x0) := by
  intro _ he
  simp [Instr.enc] at he

theorem frontClockChange (x0 : Nat) : Statement (.frontClockChange x0) := by
  intro _ he
  simp [Instr.enc] at he

theorem retentionEntry (x0 : Nat) : Statement (.retentionEntry x0) := by
  intro _ he
  simp [Instr.enc] at he

theorem retentionExit (x0 : Nat) (x1 : Bool) : Statement (.retentionExit x0 x1) := by
  intro _ he
  simp [Instr.enc] at he

theorem inFieldTest (x0 : RepairUnit) (x1 : Bool) : Statement (.inFieldTest x0 x1) := by
  intro _ he
  simp [Instr.enc] at he

theorem rcvGranuleDurable (x0 : Nat) (x1 : Nat) (x2 : Nat) : Statement (.rcvGranuleDurable x0 x1 x2) := by
  intro _ he
  simp [Instr.enc] at he

theorem emberUnitCopyComplete (x0 : Nat) (x1 : Nat) : Statement (.emberUnitCopyComplete x0 x1) := by
  intro _ he
  simp [Instr.enc] at he

theorem sealWrite (x0 : Nat) : Statement (.sealWrite x0) := by
  intro _ he
  simp [Instr.enc] at he

theorem containedNodeCommit (x0 : Nat) : Statement (.containedNodeCommit x0) := by
  intro _ he
  simp [Instr.enc] at he

theorem containedNodeAbort (x0 : Nat) (x1 : BitVec 9) : Statement (.containedNodeAbort x0 x1) := by
  intro _ he
  simp [Instr.enc] at he

theorem uncorrectableErrorDetected (x0 : ErrorSite) : Statement (.uncorrectableErrorDetected x0) := by
  intro _ he
  simp [Instr.enc] at he

theorem hostStoreToDevice (x0 : Nat) (x1 : HostAccess) : Statement (.hostStoreToDevice x0 x1) := by
  intro _ he
  simp [Instr.enc] at he

theorem hostInvalidate (x0 : Nat) (x1 : Nat) : Statement (.hostInvalidate x0 x1) := by
  intro _ he
  simp [Instr.enc] at he

theorem peerAccess (x0 : PeerReq) : Statement (.peerAccess x0) := by
  intro _ he
  simp [Instr.enc] at he

theorem flitCrcFailure (x0 : FlitFailure) : Statement (.flitCrcFailure x0) := by
  intro _ he
  simp [Instr.enc] at he

theorem linkRetrain (x0 : Nat) (x1 : Nat) : Statement (.linkRetrain x0 x1) := by
  intro _ he
  simp [Instr.enc] at he

theorem peerLinkDown (x0 : Nat) : Statement (.peerLinkDown x0) := by
  intro _ he
  simp [Instr.enc] at he

theorem dieReset (x0 : Nat) : Statement (.dieReset x0) := by
  intro _ he
  simp [Instr.enc] at he

theorem bringUp (x0 : BringUp) : Statement (.bringUp x0) := by
  intro _ he
  simp [Instr.enc] at he

theorem junctionTemperatureChange (x0 : Nat) (x1 : Nat) : Statement (.junctionTemperatureChange x0 x1) := by
  intro _ he
  simp [Instr.enc] at he

theorem packageTrip (x0 : Nat) : Statement (.packageTrip x0) := by
  intro _ he
  simp [Instr.enc] at he

theorem instructionFetchComplete (x0 : Nat) : Statement (.instructionFetchComplete x0) := by
  intro _ he
  simp [Instr.enc] at he

theorem pipeIntervalEnd (x0 : Nat) (x1 : Nat) (x2 : Nat) (x3 : BitVec 5) : Statement (.pipeIntervalEnd x0 x1 x2 x3) := by
  intro _ he
  simp [Instr.enc] at he

theorem engineStashStallTimeout (x0 : Nat) : Statement (.engineStashStallTimeout x0) := by
  intro _ he
  simp [Instr.enc] at he

theorem svcReply (x0 : Nat) : Statement (.svcReply x0) := by
  intro _ he
  simp [Instr.enc] at he

theorem tlbiComplete (x0 : Nat) : Statement (.tlbiComplete x0) := by
  intro _ he
  simp [Instr.enc] at he

theorem dieResetComplete (x0 : Nat) : Statement (.dieResetComplete x0) := by
  intro _ he
  simp [Instr.enc] at he

theorem hbmStackTemperatureChange (x0 : Nat) (x1 : Nat) : Statement (.hbmStackTemperatureChange x0 x1) := by
  intro _ he
  simp [Instr.enc] at he

end Sys2Proof.Laws.RoundTrip
end

