-- ==== Sys2Proof/Laws/State.lean ====
section
/-! SUPPORT. The named updates of State, field by field: what each leaves as it stands. -/

namespace Sys2Proof.Machine

/-! ### `setFibre` -/

@[simp] theorem State.setFibre_run (s : State) (f : Fibre) : (s.setFibre f).run = s.run := rfl
@[simp] theorem State.setFibre_ltime (s : State) (f : Fibre) : (s.setFibre f).ltime = s.ltime := rfl
@[simp] theorem State.setFibre_mem (s : State) (f : Fibre) : (s.setFibre f).mem = s.mem := rfl
@[simp] theorem State.setFibre_hostMem (s : State) (f : Fibre) : (s.setFibre f).hostMem = s.hostMem := rfl
@[simp] theorem State.setFibre_peerMem (s : State) (f : Fibre) : (s.setFibre f).peerMem = s.peerMem := rfl
@[simp] theorem State.setFibre_poison (s : State) (f : Fibre) : (s.setFibre f).poison = s.poison := rfl
@[simp] theorem State.setFibre_cohorts (s : State) (f : Fibre) : (s.setFibre f).cohorts = s.cohorts := rfl
@[simp] theorem State.setFibre_units (s : State) (f : Fibre) : (s.setFibre f).units = s.units := rfl
@[simp] theorem State.setFibre_hearths (s : State) (f : Fibre) : (s.setFibre f).hearths = s.hearths := rfl
@[simp] theorem State.setFibre_l2 (s : State) (f : Fibre) : (s.setFibre f).l2 = s.l2 := rfl
@[simp] theorem State.setFibre_setHorizons (s : State) (f : Fibre) : (s.setFibre f).setHorizons = s.setHorizons := rfl
@[simp] theorem State.setFibre_ops (s : State) (f : Fibre) : (s.setFibre f).ops = s.ops := rfl
@[simp] theorem State.setFibre_walks (s : State) (f : Fibre) : (s.setFibre f).walks = s.walks := rfl
@[simp] theorem State.setFibre_services (s : State) (f : Fibre) : (s.setFibre f).services = s.services := rfl
@[simp] theorem State.setFibre_cmds (s : State) (f : Fibre) : (s.setFibre f).cmds = s.cmds := rfl
@[simp] theorem State.setFibre_dies (s : State) (f : Fibre) : (s.setFibre f).dies = s.dies := rfl
@[simp] theorem State.setFibre_joinWatches (s : State) (f : Fibre) : (s.setFibre f).joinWatches = s.joinWatches := rfl
@[simp] theorem State.setFibre_gathers (s : State) (f : Fibre) : (s.setFibre f).gathers = s.gathers := rfl
@[simp] theorem State.setFibre_devBars (s : State) (f : Fibre) : (s.setFibre f).devBars = s.devBars := rfl
@[simp] theorem State.setFibre_sequencers (s : State) (f : Fibre) : (s.setFibre f).sequencers = s.sequencers := rfl
@[simp] theorem State.setFibre_hostLines (s : State) (f : Fibre) : (s.setFibre f).hostLines = s.hostLines := rfl
@[simp] theorem State.setFibre_outside (s : State) (f : Fibre) : (s.setFibre f).outside = s.outside := rfl
@[simp] theorem State.setFibre_heldWrites (s : State) (f : Fibre) : (s.setFibre f).heldWrites = s.heldWrites := rfl
@[simp] theorem State.setFibre_granules (s : State) (f : Fibre) : (s.setFibre f).granules = s.granules := rfl
@[simp] theorem State.setFibre_slots (s : State) (f : Fibre) : (s.setFibre f).slots = s.slots := rfl
@[simp] theorem State.setFibre_queues (s : State) (f : Fibre) : (s.setFibre f).queues = s.queues := rfl
@[simp] theorem State.setFibre_contexts (s : State) (f : Fibre) : (s.setFibre f).contexts = s.contexts := rfl
@[simp] theorem State.setFibre_policy (s : State) (f : Fibre) : (s.setFibre f).policy = s.policy := rfl
@[simp] theorem State.setFibre_window (s : State) (f : Fibre) : (s.setFibre f).window = s.window := rfl
@[simp] theorem State.setFibre_turns (s : State) (f : Fibre) : (s.setFibre f).turns = s.turns := rfl
@[simp] theorem State.setFibre_sessions (s : State) (f : Fibre) : (s.setFibre f).sessions = s.sessions := rfl
@[simp] theorem State.setFibre_pkg (s : State) (f : Fibre) : (s.setFibre f).pkg = s.pkg := rfl

/-! ### `updFibre` -/

@[simp] theorem State.updFibre_run (s : State) (u : Nat) (g : Fibre → Fibre) : (s.updFibre u g).run = s.run := rfl
@[simp] theorem State.updFibre_ltime (s : State) (u : Nat) (g : Fibre → Fibre) : (s.updFibre u g).ltime = s.ltime := rfl
@[simp] theorem State.updFibre_mem (s : State) (u : Nat) (g : Fibre → Fibre) : (s.updFibre u g).mem = s.mem := rfl
@[simp] theorem State.updFibre_hostMem (s : State) (u : Nat) (g : Fibre → Fibre) : (s.updFibre u g).hostMem = s.hostMem := rfl
@[simp] theorem State.updFibre_peerMem (s : State) (u : Nat) (g : Fibre → Fibre) : (s.updFibre u g).peerMem = s.peerMem := rfl
@[simp] theorem State.updFibre_poison (s : State) (u : Nat) (g : Fibre → Fibre) : (s.updFibre u g).poison = s.poison := rfl
@[simp] theorem State.updFibre_cohorts (s : State) (u : Nat) (g : Fibre → Fibre) : (s.updFibre u g).cohorts = s.cohorts := rfl
@[simp] theorem State.updFibre_units (s : State) (u : Nat) (g : Fibre → Fibre) : (s.updFibre u g).units = s.units := rfl
@[simp] theorem State.updFibre_hearths (s : State) (u : Nat) (g : Fibre → Fibre) : (s.updFibre u g).hearths = s.hearths := rfl
@[simp] theorem State.updFibre_l2 (s : State) (u : Nat) (g : Fibre → Fibre) : (s.updFibre u g).l2 = s.l2 := rfl
@[simp] theorem State.updFibre_setHorizons (s : State) (u : Nat) (g : Fibre → Fibre) : (s.updFibre u g).setHorizons = s.setHorizons := rfl
@[simp] theorem State.updFibre_ops (s : State) (u : Nat) (g : Fibre → Fibre) : (s.updFibre u g).ops = s.ops := rfl
@[simp] theorem State.updFibre_walks (s : State) (u : Nat) (g : Fibre → Fibre) : (s.updFibre u g).walks = s.walks := rfl
@[simp] theorem State.updFibre_services (s : State) (u : Nat) (g : Fibre → Fibre) : (s.updFibre u g).services = s.services := rfl
@[simp] theorem State.updFibre_cmds (s : State) (u : Nat) (g : Fibre → Fibre) : (s.updFibre u g).cmds = s.cmds := rfl
@[simp] theorem State.updFibre_dies (s : State) (u : Nat) (g : Fibre → Fibre) : (s.updFibre u g).dies = s.dies := rfl
@[simp] theorem State.updFibre_joinWatches (s : State) (u : Nat) (g : Fibre → Fibre) : (s.updFibre u g).joinWatches = s.joinWatches := rfl
@[simp] theorem State.updFibre_gathers (s : State) (u : Nat) (g : Fibre → Fibre) : (s.updFibre u g).gathers = s.gathers := rfl
@[simp] theorem State.updFibre_devBars (s : State) (u : Nat) (g : Fibre → Fibre) : (s.updFibre u g).devBars = s.devBars := rfl
@[simp] theorem State.updFibre_sequencers (s : State) (u : Nat) (g : Fibre → Fibre) : (s.updFibre u g).sequencers = s.sequencers := rfl
@[simp] theorem State.updFibre_hostLines (s : State) (u : Nat) (g : Fibre → Fibre) : (s.updFibre u g).hostLines = s.hostLines := rfl
@[simp] theorem State.updFibre_outside (s : State) (u : Nat) (g : Fibre → Fibre) : (s.updFibre u g).outside = s.outside := rfl
@[simp] theorem State.updFibre_heldWrites (s : State) (u : Nat) (g : Fibre → Fibre) : (s.updFibre u g).heldWrites = s.heldWrites := rfl
@[simp] theorem State.updFibre_granules (s : State) (u : Nat) (g : Fibre → Fibre) : (s.updFibre u g).granules = s.granules := rfl
@[simp] theorem State.updFibre_slots (s : State) (u : Nat) (g : Fibre → Fibre) : (s.updFibre u g).slots = s.slots := rfl
@[simp] theorem State.updFibre_queues (s : State) (u : Nat) (g : Fibre → Fibre) : (s.updFibre u g).queues = s.queues := rfl
@[simp] theorem State.updFibre_contexts (s : State) (u : Nat) (g : Fibre → Fibre) : (s.updFibre u g).contexts = s.contexts := rfl
@[simp] theorem State.updFibre_policy (s : State) (u : Nat) (g : Fibre → Fibre) : (s.updFibre u g).policy = s.policy := rfl
@[simp] theorem State.updFibre_window (s : State) (u : Nat) (g : Fibre → Fibre) : (s.updFibre u g).window = s.window := rfl
@[simp] theorem State.updFibre_turns (s : State) (u : Nat) (g : Fibre → Fibre) : (s.updFibre u g).turns = s.turns := rfl
@[simp] theorem State.updFibre_sessions (s : State) (u : Nat) (g : Fibre → Fibre) : (s.updFibre u g).sessions = s.sessions := rfl
@[simp] theorem State.updFibre_pkg (s : State) (u : Nat) (g : Fibre → Fibre) : (s.updFibre u g).pkg = s.pkg := rfl

/-! ### `updCohort` -/

@[simp] theorem State.updCohort_run (s : State) (u : Nat) (g : Cohort → Cohort) : (s.updCohort u g).run = s.run := rfl
@[simp] theorem State.updCohort_ltime (s : State) (u : Nat) (g : Cohort → Cohort) : (s.updCohort u g).ltime = s.ltime := rfl
@[simp] theorem State.updCohort_mem (s : State) (u : Nat) (g : Cohort → Cohort) : (s.updCohort u g).mem = s.mem := rfl
@[simp] theorem State.updCohort_hostMem (s : State) (u : Nat) (g : Cohort → Cohort) : (s.updCohort u g).hostMem = s.hostMem := rfl
@[simp] theorem State.updCohort_peerMem (s : State) (u : Nat) (g : Cohort → Cohort) : (s.updCohort u g).peerMem = s.peerMem := rfl
@[simp] theorem State.updCohort_poison (s : State) (u : Nat) (g : Cohort → Cohort) : (s.updCohort u g).poison = s.poison := rfl
@[simp] theorem State.updCohort_fibres (s : State) (u : Nat) (g : Cohort → Cohort) : (s.updCohort u g).fibres = s.fibres := rfl
@[simp] theorem State.updCohort_units (s : State) (u : Nat) (g : Cohort → Cohort) : (s.updCohort u g).units = s.units := rfl
@[simp] theorem State.updCohort_hearths (s : State) (u : Nat) (g : Cohort → Cohort) : (s.updCohort u g).hearths = s.hearths := rfl
@[simp] theorem State.updCohort_l2 (s : State) (u : Nat) (g : Cohort → Cohort) : (s.updCohort u g).l2 = s.l2 := rfl
@[simp] theorem State.updCohort_setHorizons (s : State) (u : Nat) (g : Cohort → Cohort) : (s.updCohort u g).setHorizons = s.setHorizons := rfl
@[simp] theorem State.updCohort_ops (s : State) (u : Nat) (g : Cohort → Cohort) : (s.updCohort u g).ops = s.ops := rfl
@[simp] theorem State.updCohort_walks (s : State) (u : Nat) (g : Cohort → Cohort) : (s.updCohort u g).walks = s.walks := rfl
@[simp] theorem State.updCohort_services (s : State) (u : Nat) (g : Cohort → Cohort) : (s.updCohort u g).services = s.services := rfl
@[simp] theorem State.updCohort_cmds (s : State) (u : Nat) (g : Cohort → Cohort) : (s.updCohort u g).cmds = s.cmds := rfl
@[simp] theorem State.updCohort_dies (s : State) (u : Nat) (g : Cohort → Cohort) : (s.updCohort u g).dies = s.dies := rfl
@[simp] theorem State.updCohort_joinWatches (s : State) (u : Nat) (g : Cohort → Cohort) : (s.updCohort u g).joinWatches = s.joinWatches := rfl
@[simp] theorem State.updCohort_gathers (s : State) (u : Nat) (g : Cohort → Cohort) : (s.updCohort u g).gathers = s.gathers := rfl
@[simp] theorem State.updCohort_devBars (s : State) (u : Nat) (g : Cohort → Cohort) : (s.updCohort u g).devBars = s.devBars := rfl
@[simp] theorem State.updCohort_sequencers (s : State) (u : Nat) (g : Cohort → Cohort) : (s.updCohort u g).sequencers = s.sequencers := rfl
@[simp] theorem State.updCohort_hostLines (s : State) (u : Nat) (g : Cohort → Cohort) : (s.updCohort u g).hostLines = s.hostLines := rfl
@[simp] theorem State.updCohort_outside (s : State) (u : Nat) (g : Cohort → Cohort) : (s.updCohort u g).outside = s.outside := rfl
@[simp] theorem State.updCohort_heldWrites (s : State) (u : Nat) (g : Cohort → Cohort) : (s.updCohort u g).heldWrites = s.heldWrites := rfl
@[simp] theorem State.updCohort_granules (s : State) (u : Nat) (g : Cohort → Cohort) : (s.updCohort u g).granules = s.granules := rfl
@[simp] theorem State.updCohort_slots (s : State) (u : Nat) (g : Cohort → Cohort) : (s.updCohort u g).slots = s.slots := rfl
@[simp] theorem State.updCohort_queues (s : State) (u : Nat) (g : Cohort → Cohort) : (s.updCohort u g).queues = s.queues := rfl
@[simp] theorem State.updCohort_contexts (s : State) (u : Nat) (g : Cohort → Cohort) : (s.updCohort u g).contexts = s.contexts := rfl
@[simp] theorem State.updCohort_policy (s : State) (u : Nat) (g : Cohort → Cohort) : (s.updCohort u g).policy = s.policy := rfl
@[simp] theorem State.updCohort_window (s : State) (u : Nat) (g : Cohort → Cohort) : (s.updCohort u g).window = s.window := rfl
@[simp] theorem State.updCohort_turns (s : State) (u : Nat) (g : Cohort → Cohort) : (s.updCohort u g).turns = s.turns := rfl
@[simp] theorem State.updCohort_sessions (s : State) (u : Nat) (g : Cohort → Cohort) : (s.updCohort u g).sessions = s.sessions := rfl
@[simp] theorem State.updCohort_pkg (s : State) (u : Nat) (g : Cohort → Cohort) : (s.updCohort u g).pkg = s.pkg := rfl

/-! ### `updCrew` -/

@[simp] theorem State.updCrew_run (s : State) (u c : Nat) (g : Crew → Crew) : (s.updCrew u c g).run = s.run := rfl
@[simp] theorem State.updCrew_ltime (s : State) (u c : Nat) (g : Crew → Crew) : (s.updCrew u c g).ltime = s.ltime := rfl
@[simp] theorem State.updCrew_mem (s : State) (u c : Nat) (g : Crew → Crew) : (s.updCrew u c g).mem = s.mem := rfl
@[simp] theorem State.updCrew_hostMem (s : State) (u c : Nat) (g : Crew → Crew) : (s.updCrew u c g).hostMem = s.hostMem := rfl
@[simp] theorem State.updCrew_peerMem (s : State) (u c : Nat) (g : Crew → Crew) : (s.updCrew u c g).peerMem = s.peerMem := rfl
@[simp] theorem State.updCrew_poison (s : State) (u c : Nat) (g : Crew → Crew) : (s.updCrew u c g).poison = s.poison := rfl
@[simp] theorem State.updCrew_fibres (s : State) (u c : Nat) (g : Crew → Crew) : (s.updCrew u c g).fibres = s.fibres := rfl
@[simp] theorem State.updCrew_units (s : State) (u c : Nat) (g : Crew → Crew) : (s.updCrew u c g).units = s.units := rfl
@[simp] theorem State.updCrew_hearths (s : State) (u c : Nat) (g : Crew → Crew) : (s.updCrew u c g).hearths = s.hearths := rfl
@[simp] theorem State.updCrew_l2 (s : State) (u c : Nat) (g : Crew → Crew) : (s.updCrew u c g).l2 = s.l2 := rfl
@[simp] theorem State.updCrew_setHorizons (s : State) (u c : Nat) (g : Crew → Crew) : (s.updCrew u c g).setHorizons = s.setHorizons := rfl
@[simp] theorem State.updCrew_ops (s : State) (u c : Nat) (g : Crew → Crew) : (s.updCrew u c g).ops = s.ops := rfl
@[simp] theorem State.updCrew_walks (s : State) (u c : Nat) (g : Crew → Crew) : (s.updCrew u c g).walks = s.walks := rfl
@[simp] theorem State.updCrew_services (s : State) (u c : Nat) (g : Crew → Crew) : (s.updCrew u c g).services = s.services := rfl
@[simp] theorem State.updCrew_cmds (s : State) (u c : Nat) (g : Crew → Crew) : (s.updCrew u c g).cmds = s.cmds := rfl
@[simp] theorem State.updCrew_dies (s : State) (u c : Nat) (g : Crew → Crew) : (s.updCrew u c g).dies = s.dies := rfl
@[simp] theorem State.updCrew_joinWatches (s : State) (u c : Nat) (g : Crew → Crew) : (s.updCrew u c g).joinWatches = s.joinWatches := rfl
@[simp] theorem State.updCrew_gathers (s : State) (u c : Nat) (g : Crew → Crew) : (s.updCrew u c g).gathers = s.gathers := rfl
@[simp] theorem State.updCrew_devBars (s : State) (u c : Nat) (g : Crew → Crew) : (s.updCrew u c g).devBars = s.devBars := rfl
@[simp] theorem State.updCrew_sequencers (s : State) (u c : Nat) (g : Crew → Crew) : (s.updCrew u c g).sequencers = s.sequencers := rfl
@[simp] theorem State.updCrew_hostLines (s : State) (u c : Nat) (g : Crew → Crew) : (s.updCrew u c g).hostLines = s.hostLines := rfl
@[simp] theorem State.updCrew_outside (s : State) (u c : Nat) (g : Crew → Crew) : (s.updCrew u c g).outside = s.outside := rfl
@[simp] theorem State.updCrew_heldWrites (s : State) (u c : Nat) (g : Crew → Crew) : (s.updCrew u c g).heldWrites = s.heldWrites := rfl
@[simp] theorem State.updCrew_granules (s : State) (u c : Nat) (g : Crew → Crew) : (s.updCrew u c g).granules = s.granules := rfl
@[simp] theorem State.updCrew_slots (s : State) (u c : Nat) (g : Crew → Crew) : (s.updCrew u c g).slots = s.slots := rfl
@[simp] theorem State.updCrew_queues (s : State) (u c : Nat) (g : Crew → Crew) : (s.updCrew u c g).queues = s.queues := rfl
@[simp] theorem State.updCrew_contexts (s : State) (u c : Nat) (g : Crew → Crew) : (s.updCrew u c g).contexts = s.contexts := rfl
@[simp] theorem State.updCrew_policy (s : State) (u c : Nat) (g : Crew → Crew) : (s.updCrew u c g).policy = s.policy := rfl
@[simp] theorem State.updCrew_window (s : State) (u c : Nat) (g : Crew → Crew) : (s.updCrew u c g).window = s.window := rfl
@[simp] theorem State.updCrew_turns (s : State) (u c : Nat) (g : Crew → Crew) : (s.updCrew u c g).turns = s.turns := rfl
@[simp] theorem State.updCrew_sessions (s : State) (u c : Nat) (g : Crew → Crew) : (s.updCrew u c g).sessions = s.sessions := rfl
@[simp] theorem State.updCrew_pkg (s : State) (u c : Nat) (g : Crew → Crew) : (s.updCrew u c g).pkg = s.pkg := rfl

/-! ### `setHearth` -/

@[simp] theorem State.setHearth_run (s : State) (h : Hearth) : (s.setHearth h).run = s.run := rfl
@[simp] theorem State.setHearth_ltime (s : State) (h : Hearth) : (s.setHearth h).ltime = s.ltime := rfl
@[simp] theorem State.setHearth_mem (s : State) (h : Hearth) : (s.setHearth h).mem = s.mem := rfl
@[simp] theorem State.setHearth_hostMem (s : State) (h : Hearth) : (s.setHearth h).hostMem = s.hostMem := rfl
@[simp] theorem State.setHearth_peerMem (s : State) (h : Hearth) : (s.setHearth h).peerMem = s.peerMem := rfl
@[simp] theorem State.setHearth_poison (s : State) (h : Hearth) : (s.setHearth h).poison = s.poison := rfl
@[simp] theorem State.setHearth_fibres (s : State) (h : Hearth) : (s.setHearth h).fibres = s.fibres := rfl
@[simp] theorem State.setHearth_cohorts (s : State) (h : Hearth) : (s.setHearth h).cohorts = s.cohorts := rfl
@[simp] theorem State.setHearth_units (s : State) (h : Hearth) : (s.setHearth h).units = s.units := rfl
@[simp] theorem State.setHearth_l2 (s : State) (h : Hearth) : (s.setHearth h).l2 = s.l2 := rfl
@[simp] theorem State.setHearth_setHorizons (s : State) (h : Hearth) : (s.setHearth h).setHorizons = s.setHorizons := rfl
@[simp] theorem State.setHearth_ops (s : State) (h : Hearth) : (s.setHearth h).ops = s.ops := rfl
@[simp] theorem State.setHearth_walks (s : State) (h : Hearth) : (s.setHearth h).walks = s.walks := rfl
@[simp] theorem State.setHearth_services (s : State) (h : Hearth) : (s.setHearth h).services = s.services := rfl
@[simp] theorem State.setHearth_cmds (s : State) (h : Hearth) : (s.setHearth h).cmds = s.cmds := rfl
@[simp] theorem State.setHearth_dies (s : State) (h : Hearth) : (s.setHearth h).dies = s.dies := rfl
@[simp] theorem State.setHearth_joinWatches (s : State) (h : Hearth) : (s.setHearth h).joinWatches = s.joinWatches := rfl
@[simp] theorem State.setHearth_gathers (s : State) (h : Hearth) : (s.setHearth h).gathers = s.gathers := rfl
@[simp] theorem State.setHearth_devBars (s : State) (h : Hearth) : (s.setHearth h).devBars = s.devBars := rfl
@[simp] theorem State.setHearth_sequencers (s : State) (h : Hearth) : (s.setHearth h).sequencers = s.sequencers := rfl
@[simp] theorem State.setHearth_hostLines (s : State) (h : Hearth) : (s.setHearth h).hostLines = s.hostLines := rfl
@[simp] theorem State.setHearth_outside (s : State) (h : Hearth) : (s.setHearth h).outside = s.outside := rfl
@[simp] theorem State.setHearth_heldWrites (s : State) (h : Hearth) : (s.setHearth h).heldWrites = s.heldWrites := rfl
@[simp] theorem State.setHearth_granules (s : State) (h : Hearth) : (s.setHearth h).granules = s.granules := rfl
@[simp] theorem State.setHearth_slots (s : State) (h : Hearth) : (s.setHearth h).slots = s.slots := rfl
@[simp] theorem State.setHearth_queues (s : State) (h : Hearth) : (s.setHearth h).queues = s.queues := rfl
@[simp] theorem State.setHearth_contexts (s : State) (h : Hearth) : (s.setHearth h).contexts = s.contexts := rfl
@[simp] theorem State.setHearth_policy (s : State) (h : Hearth) : (s.setHearth h).policy = s.policy := rfl
@[simp] theorem State.setHearth_window (s : State) (h : Hearth) : (s.setHearth h).window = s.window := rfl
@[simp] theorem State.setHearth_turns (s : State) (h : Hearth) : (s.setHearth h).turns = s.turns := rfl
@[simp] theorem State.setHearth_sessions (s : State) (h : Hearth) : (s.setHearth h).sessions = s.sessions := rfl
@[simp] theorem State.setHearth_pkg (s : State) (h : Hearth) : (s.setHearth h).pkg = s.pkg := rfl

/-! ### `updHearth` -/

@[simp] theorem State.updHearth_run (s : State) (n : Nat) (g : Hearth → Hearth) : (s.updHearth n g).run = s.run := rfl
@[simp] theorem State.updHearth_ltime (s : State) (n : Nat) (g : Hearth → Hearth) : (s.updHearth n g).ltime = s.ltime := rfl
@[simp] theorem State.updHearth_mem (s : State) (n : Nat) (g : Hearth → Hearth) : (s.updHearth n g).mem = s.mem := rfl
@[simp] theorem State.updHearth_hostMem (s : State) (n : Nat) (g : Hearth → Hearth) : (s.updHearth n g).hostMem = s.hostMem := rfl
@[simp] theorem State.updHearth_peerMem (s : State) (n : Nat) (g : Hearth → Hearth) : (s.updHearth n g).peerMem = s.peerMem := rfl
@[simp] theorem State.updHearth_poison (s : State) (n : Nat) (g : Hearth → Hearth) : (s.updHearth n g).poison = s.poison := rfl
@[simp] theorem State.updHearth_fibres (s : State) (n : Nat) (g : Hearth → Hearth) : (s.updHearth n g).fibres = s.fibres := rfl
@[simp] theorem State.updHearth_cohorts (s : State) (n : Nat) (g : Hearth → Hearth) : (s.updHearth n g).cohorts = s.cohorts := rfl
@[simp] theorem State.updHearth_units (s : State) (n : Nat) (g : Hearth → Hearth) : (s.updHearth n g).units = s.units := rfl
@[simp] theorem State.updHearth_l2 (s : State) (n : Nat) (g : Hearth → Hearth) : (s.updHearth n g).l2 = s.l2 := rfl
@[simp] theorem State.updHearth_setHorizons (s : State) (n : Nat) (g : Hearth → Hearth) : (s.updHearth n g).setHorizons = s.setHorizons := rfl
@[simp] theorem State.updHearth_ops (s : State) (n : Nat) (g : Hearth → Hearth) : (s.updHearth n g).ops = s.ops := rfl
@[simp] theorem State.updHearth_walks (s : State) (n : Nat) (g : Hearth → Hearth) : (s.updHearth n g).walks = s.walks := rfl
@[simp] theorem State.updHearth_services (s : State) (n : Nat) (g : Hearth → Hearth) : (s.updHearth n g).services = s.services := rfl
@[simp] theorem State.updHearth_cmds (s : State) (n : Nat) (g : Hearth → Hearth) : (s.updHearth n g).cmds = s.cmds := rfl
@[simp] theorem State.updHearth_dies (s : State) (n : Nat) (g : Hearth → Hearth) : (s.updHearth n g).dies = s.dies := rfl
@[simp] theorem State.updHearth_joinWatches (s : State) (n : Nat) (g : Hearth → Hearth) : (s.updHearth n g).joinWatches = s.joinWatches := rfl
@[simp] theorem State.updHearth_gathers (s : State) (n : Nat) (g : Hearth → Hearth) : (s.updHearth n g).gathers = s.gathers := rfl
@[simp] theorem State.updHearth_devBars (s : State) (n : Nat) (g : Hearth → Hearth) : (s.updHearth n g).devBars = s.devBars := rfl
@[simp] theorem State.updHearth_sequencers (s : State) (n : Nat) (g : Hearth → Hearth) : (s.updHearth n g).sequencers = s.sequencers := rfl
@[simp] theorem State.updHearth_hostLines (s : State) (n : Nat) (g : Hearth → Hearth) : (s.updHearth n g).hostLines = s.hostLines := rfl
@[simp] theorem State.updHearth_outside (s : State) (n : Nat) (g : Hearth → Hearth) : (s.updHearth n g).outside = s.outside := rfl
@[simp] theorem State.updHearth_heldWrites (s : State) (n : Nat) (g : Hearth → Hearth) : (s.updHearth n g).heldWrites = s.heldWrites := rfl
@[simp] theorem State.updHearth_granules (s : State) (n : Nat) (g : Hearth → Hearth) : (s.updHearth n g).granules = s.granules := rfl
@[simp] theorem State.updHearth_slots (s : State) (n : Nat) (g : Hearth → Hearth) : (s.updHearth n g).slots = s.slots := rfl
@[simp] theorem State.updHearth_queues (s : State) (n : Nat) (g : Hearth → Hearth) : (s.updHearth n g).queues = s.queues := rfl
@[simp] theorem State.updHearth_contexts (s : State) (n : Nat) (g : Hearth → Hearth) : (s.updHearth n g).contexts = s.contexts := rfl
@[simp] theorem State.updHearth_policy (s : State) (n : Nat) (g : Hearth → Hearth) : (s.updHearth n g).policy = s.policy := rfl
@[simp] theorem State.updHearth_window (s : State) (n : Nat) (g : Hearth → Hearth) : (s.updHearth n g).window = s.window := rfl
@[simp] theorem State.updHearth_turns (s : State) (n : Nat) (g : Hearth → Hearth) : (s.updHearth n g).turns = s.turns := rfl
@[simp] theorem State.updHearth_sessions (s : State) (n : Nat) (g : Hearth → Hearth) : (s.updHearth n g).sessions = s.sessions := rfl
@[simp] theorem State.updHearth_pkg (s : State) (n : Nat) (g : Hearth → Hearth) : (s.updHearth n g).pkg = s.pkg := rfl

/-! ### `updDie` -/

@[simp] theorem State.updDie_run (s : State) (n : Nat) (g : Die → Die) : (s.updDie n g).run = s.run := rfl
@[simp] theorem State.updDie_ltime (s : State) (n : Nat) (g : Die → Die) : (s.updDie n g).ltime = s.ltime := rfl
@[simp] theorem State.updDie_mem (s : State) (n : Nat) (g : Die → Die) : (s.updDie n g).mem = s.mem := rfl
@[simp] theorem State.updDie_hostMem (s : State) (n : Nat) (g : Die → Die) : (s.updDie n g).hostMem = s.hostMem := rfl
@[simp] theorem State.updDie_peerMem (s : State) (n : Nat) (g : Die → Die) : (s.updDie n g).peerMem = s.peerMem := rfl
@[simp] theorem State.updDie_poison (s : State) (n : Nat) (g : Die → Die) : (s.updDie n g).poison = s.poison := rfl
@[simp] theorem State.updDie_fibres (s : State) (n : Nat) (g : Die → Die) : (s.updDie n g).fibres = s.fibres := rfl
@[simp] theorem State.updDie_cohorts (s : State) (n : Nat) (g : Die → Die) : (s.updDie n g).cohorts = s.cohorts := rfl
@[simp] theorem State.updDie_units (s : State) (n : Nat) (g : Die → Die) : (s.updDie n g).units = s.units := rfl
@[simp] theorem State.updDie_hearths (s : State) (n : Nat) (g : Die → Die) : (s.updDie n g).hearths = s.hearths := rfl
@[simp] theorem State.updDie_l2 (s : State) (n : Nat) (g : Die → Die) : (s.updDie n g).l2 = s.l2 := rfl
@[simp] theorem State.updDie_setHorizons (s : State) (n : Nat) (g : Die → Die) : (s.updDie n g).setHorizons = s.setHorizons := rfl
@[simp] theorem State.updDie_ops (s : State) (n : Nat) (g : Die → Die) : (s.updDie n g).ops = s.ops := rfl
@[simp] theorem State.updDie_walks (s : State) (n : Nat) (g : Die → Die) : (s.updDie n g).walks = s.walks := rfl
@[simp] theorem State.updDie_services (s : State) (n : Nat) (g : Die → Die) : (s.updDie n g).services = s.services := rfl
@[simp] theorem State.updDie_cmds (s : State) (n : Nat) (g : Die → Die) : (s.updDie n g).cmds = s.cmds := rfl
@[simp] theorem State.updDie_joinWatches (s : State) (n : Nat) (g : Die → Die) : (s.updDie n g).joinWatches = s.joinWatches := rfl
@[simp] theorem State.updDie_gathers (s : State) (n : Nat) (g : Die → Die) : (s.updDie n g).gathers = s.gathers := rfl
@[simp] theorem State.updDie_devBars (s : State) (n : Nat) (g : Die → Die) : (s.updDie n g).devBars = s.devBars := rfl
@[simp] theorem State.updDie_sequencers (s : State) (n : Nat) (g : Die → Die) : (s.updDie n g).sequencers = s.sequencers := rfl
@[simp] theorem State.updDie_hostLines (s : State) (n : Nat) (g : Die → Die) : (s.updDie n g).hostLines = s.hostLines := rfl
@[simp] theorem State.updDie_outside (s : State) (n : Nat) (g : Die → Die) : (s.updDie n g).outside = s.outside := rfl
@[simp] theorem State.updDie_heldWrites (s : State) (n : Nat) (g : Die → Die) : (s.updDie n g).heldWrites = s.heldWrites := rfl
@[simp] theorem State.updDie_granules (s : State) (n : Nat) (g : Die → Die) : (s.updDie n g).granules = s.granules := rfl
@[simp] theorem State.updDie_slots (s : State) (n : Nat) (g : Die → Die) : (s.updDie n g).slots = s.slots := rfl
@[simp] theorem State.updDie_queues (s : State) (n : Nat) (g : Die → Die) : (s.updDie n g).queues = s.queues := rfl
@[simp] theorem State.updDie_contexts (s : State) (n : Nat) (g : Die → Die) : (s.updDie n g).contexts = s.contexts := rfl
@[simp] theorem State.updDie_policy (s : State) (n : Nat) (g : Die → Die) : (s.updDie n g).policy = s.policy := rfl
@[simp] theorem State.updDie_window (s : State) (n : Nat) (g : Die → Die) : (s.updDie n g).window = s.window := rfl
@[simp] theorem State.updDie_turns (s : State) (n : Nat) (g : Die → Die) : (s.updDie n g).turns = s.turns := rfl
@[simp] theorem State.updDie_sessions (s : State) (n : Nat) (g : Die → Die) : (s.updDie n g).sessions = s.sessions := rfl
@[simp] theorem State.updDie_pkg (s : State) (n : Nat) (g : Die → Die) : (s.updDie n g).pkg = s.pkg := rfl

/-! ### `setSlot` -/

@[simp] theorem State.setSlot_run (s : State) (l : LaunchSlot) : (s.setSlot l).run = s.run := rfl
@[simp] theorem State.setSlot_ltime (s : State) (l : LaunchSlot) : (s.setSlot l).ltime = s.ltime := rfl
@[simp] theorem State.setSlot_mem (s : State) (l : LaunchSlot) : (s.setSlot l).mem = s.mem := rfl
@[simp] theorem State.setSlot_hostMem (s : State) (l : LaunchSlot) : (s.setSlot l).hostMem = s.hostMem := rfl
@[simp] theorem State.setSlot_peerMem (s : State) (l : LaunchSlot) : (s.setSlot l).peerMem = s.peerMem := rfl
@[simp] theorem State.setSlot_poison (s : State) (l : LaunchSlot) : (s.setSlot l).poison = s.poison := rfl
@[simp] theorem State.setSlot_fibres (s : State) (l : LaunchSlot) : (s.setSlot l).fibres = s.fibres := rfl
@[simp] theorem State.setSlot_cohorts (s : State) (l : LaunchSlot) : (s.setSlot l).cohorts = s.cohorts := rfl
@[simp] theorem State.setSlot_units (s : State) (l : LaunchSlot) : (s.setSlot l).units = s.units := rfl
@[simp] theorem State.setSlot_hearths (s : State) (l : LaunchSlot) : (s.setSlot l).hearths = s.hearths := rfl
@[simp] theorem State.setSlot_l2 (s : State) (l : LaunchSlot) : (s.setSlot l).l2 = s.l2 := rfl
@[simp] theorem State.setSlot_setHorizons (s : State) (l : LaunchSlot) : (s.setSlot l).setHorizons = s.setHorizons := rfl
@[simp] theorem State.setSlot_ops (s : State) (l : LaunchSlot) : (s.setSlot l).ops = s.ops := rfl
@[simp] theorem State.setSlot_walks (s : State) (l : LaunchSlot) : (s.setSlot l).walks = s.walks := rfl
@[simp] theorem State.setSlot_services (s : State) (l : LaunchSlot) : (s.setSlot l).services = s.services := rfl
@[simp] theorem State.setSlot_cmds (s : State) (l : LaunchSlot) : (s.setSlot l).cmds = s.cmds := rfl
@[simp] theorem State.setSlot_dies (s : State) (l : LaunchSlot) : (s.setSlot l).dies = s.dies := rfl
@[simp] theorem State.setSlot_joinWatches (s : State) (l : LaunchSlot) : (s.setSlot l).joinWatches = s.joinWatches := rfl
@[simp] theorem State.setSlot_gathers (s : State) (l : LaunchSlot) : (s.setSlot l).gathers = s.gathers := rfl
@[simp] theorem State.setSlot_devBars (s : State) (l : LaunchSlot) : (s.setSlot l).devBars = s.devBars := rfl
@[simp] theorem State.setSlot_sequencers (s : State) (l : LaunchSlot) : (s.setSlot l).sequencers = s.sequencers := rfl
@[simp] theorem State.setSlot_hostLines (s : State) (l : LaunchSlot) : (s.setSlot l).hostLines = s.hostLines := rfl
@[simp] theorem State.setSlot_outside (s : State) (l : LaunchSlot) : (s.setSlot l).outside = s.outside := rfl
@[simp] theorem State.setSlot_heldWrites (s : State) (l : LaunchSlot) : (s.setSlot l).heldWrites = s.heldWrites := rfl
@[simp] theorem State.setSlot_granules (s : State) (l : LaunchSlot) : (s.setSlot l).granules = s.granules := rfl
@[simp] theorem State.setSlot_queues (s : State) (l : LaunchSlot) : (s.setSlot l).queues = s.queues := rfl
@[simp] theorem State.setSlot_contexts (s : State) (l : LaunchSlot) : (s.setSlot l).contexts = s.contexts := rfl
@[simp] theorem State.setSlot_policy (s : State) (l : LaunchSlot) : (s.setSlot l).policy = s.policy := rfl
@[simp] theorem State.setSlot_window (s : State) (l : LaunchSlot) : (s.setSlot l).window = s.window := rfl
@[simp] theorem State.setSlot_turns (s : State) (l : LaunchSlot) : (s.setSlot l).turns = s.turns := rfl
@[simp] theorem State.setSlot_sessions (s : State) (l : LaunchSlot) : (s.setSlot l).sessions = s.sessions := rfl
@[simp] theorem State.setSlot_pkg (s : State) (l : LaunchSlot) : (s.setSlot l).pkg = s.pkg := rfl

/-! ### `updSlot` -/

@[simp] theorem State.updSlot_run (s : State) (n : Nat) (g : LaunchSlot → LaunchSlot) : (s.updSlot n g).run = s.run := rfl
@[simp] theorem State.updSlot_ltime (s : State) (n : Nat) (g : LaunchSlot → LaunchSlot) : (s.updSlot n g).ltime = s.ltime := rfl
@[simp] theorem State.updSlot_mem (s : State) (n : Nat) (g : LaunchSlot → LaunchSlot) : (s.updSlot n g).mem = s.mem := rfl
@[simp] theorem State.updSlot_hostMem (s : State) (n : Nat) (g : LaunchSlot → LaunchSlot) : (s.updSlot n g).hostMem = s.hostMem := rfl
@[simp] theorem State.updSlot_peerMem (s : State) (n : Nat) (g : LaunchSlot → LaunchSlot) : (s.updSlot n g).peerMem = s.peerMem := rfl
@[simp] theorem State.updSlot_poison (s : State) (n : Nat) (g : LaunchSlot → LaunchSlot) : (s.updSlot n g).poison = s.poison := rfl
@[simp] theorem State.updSlot_fibres (s : State) (n : Nat) (g : LaunchSlot → LaunchSlot) : (s.updSlot n g).fibres = s.fibres := rfl
@[simp] theorem State.updSlot_cohorts (s : State) (n : Nat) (g : LaunchSlot → LaunchSlot) : (s.updSlot n g).cohorts = s.cohorts := rfl
@[simp] theorem State.updSlot_units (s : State) (n : Nat) (g : LaunchSlot → LaunchSlot) : (s.updSlot n g).units = s.units := rfl
@[simp] theorem State.updSlot_hearths (s : State) (n : Nat) (g : LaunchSlot → LaunchSlot) : (s.updSlot n g).hearths = s.hearths := rfl
@[simp] theorem State.updSlot_l2 (s : State) (n : Nat) (g : LaunchSlot → LaunchSlot) : (s.updSlot n g).l2 = s.l2 := rfl
@[simp] theorem State.updSlot_setHorizons (s : State) (n : Nat) (g : LaunchSlot → LaunchSlot) : (s.updSlot n g).setHorizons = s.setHorizons := rfl
@[simp] theorem State.updSlot_ops (s : State) (n : Nat) (g : LaunchSlot → LaunchSlot) : (s.updSlot n g).ops = s.ops := rfl
@[simp] theorem State.updSlot_walks (s : State) (n : Nat) (g : LaunchSlot → LaunchSlot) : (s.updSlot n g).walks = s.walks := rfl
@[simp] theorem State.updSlot_services (s : State) (n : Nat) (g : LaunchSlot → LaunchSlot) : (s.updSlot n g).services = s.services := rfl
@[simp] theorem State.updSlot_cmds (s : State) (n : Nat) (g : LaunchSlot → LaunchSlot) : (s.updSlot n g).cmds = s.cmds := rfl
@[simp] theorem State.updSlot_dies (s : State) (n : Nat) (g : LaunchSlot → LaunchSlot) : (s.updSlot n g).dies = s.dies := rfl
@[simp] theorem State.updSlot_joinWatches (s : State) (n : Nat) (g : LaunchSlot → LaunchSlot) : (s.updSlot n g).joinWatches = s.joinWatches := rfl
@[simp] theorem State.updSlot_gathers (s : State) (n : Nat) (g : LaunchSlot → LaunchSlot) : (s.updSlot n g).gathers = s.gathers := rfl
@[simp] theorem State.updSlot_devBars (s : State) (n : Nat) (g : LaunchSlot → LaunchSlot) : (s.updSlot n g).devBars = s.devBars := rfl
@[simp] theorem State.updSlot_sequencers (s : State) (n : Nat) (g : LaunchSlot → LaunchSlot) : (s.updSlot n g).sequencers = s.sequencers := rfl
@[simp] theorem State.updSlot_hostLines (s : State) (n : Nat) (g : LaunchSlot → LaunchSlot) : (s.updSlot n g).hostLines = s.hostLines := rfl
@[simp] theorem State.updSlot_outside (s : State) (n : Nat) (g : LaunchSlot → LaunchSlot) : (s.updSlot n g).outside = s.outside := rfl
@[simp] theorem State.updSlot_heldWrites (s : State) (n : Nat) (g : LaunchSlot → LaunchSlot) : (s.updSlot n g).heldWrites = s.heldWrites := rfl
@[simp] theorem State.updSlot_granules (s : State) (n : Nat) (g : LaunchSlot → LaunchSlot) : (s.updSlot n g).granules = s.granules := rfl
@[simp] theorem State.updSlot_queues (s : State) (n : Nat) (g : LaunchSlot → LaunchSlot) : (s.updSlot n g).queues = s.queues := rfl
@[simp] theorem State.updSlot_contexts (s : State) (n : Nat) (g : LaunchSlot → LaunchSlot) : (s.updSlot n g).contexts = s.contexts := rfl
@[simp] theorem State.updSlot_policy (s : State) (n : Nat) (g : LaunchSlot → LaunchSlot) : (s.updSlot n g).policy = s.policy := rfl
@[simp] theorem State.updSlot_window (s : State) (n : Nat) (g : LaunchSlot → LaunchSlot) : (s.updSlot n g).window = s.window := rfl
@[simp] theorem State.updSlot_turns (s : State) (n : Nat) (g : LaunchSlot → LaunchSlot) : (s.updSlot n g).turns = s.turns := rfl
@[simp] theorem State.updSlot_sessions (s : State) (n : Nat) (g : LaunchSlot → LaunchSlot) : (s.updSlot n g).sessions = s.sessions := rfl
@[simp] theorem State.updSlot_pkg (s : State) (n : Nat) (g : LaunchSlot → LaunchSlot) : (s.updSlot n g).pkg = s.pkg := rfl

/-! ### `setQueue` -/

@[simp] theorem State.setQueue_run (s : State) (q : Queue) : (s.setQueue q).run = s.run := rfl
@[simp] theorem State.setQueue_ltime (s : State) (q : Queue) : (s.setQueue q).ltime = s.ltime := rfl
@[simp] theorem State.setQueue_mem (s : State) (q : Queue) : (s.setQueue q).mem = s.mem := rfl
@[simp] theorem State.setQueue_hostMem (s : State) (q : Queue) : (s.setQueue q).hostMem = s.hostMem := rfl
@[simp] theorem State.setQueue_peerMem (s : State) (q : Queue) : (s.setQueue q).peerMem = s.peerMem := rfl
@[simp] theorem State.setQueue_poison (s : State) (q : Queue) : (s.setQueue q).poison = s.poison := rfl
@[simp] theorem State.setQueue_fibres (s : State) (q : Queue) : (s.setQueue q).fibres = s.fibres := rfl
@[simp] theorem State.setQueue_cohorts (s : State) (q : Queue) : (s.setQueue q).cohorts = s.cohorts := rfl
@[simp] theorem State.setQueue_units (s : State) (q : Queue) : (s.setQueue q).units = s.units := rfl
@[simp] theorem State.setQueue_hearths (s : State) (q : Queue) : (s.setQueue q).hearths = s.hearths := rfl
@[simp] theorem State.setQueue_l2 (s : State) (q : Queue) : (s.setQueue q).l2 = s.l2 := rfl
@[simp] theorem State.setQueue_setHorizons (s : State) (q : Queue) : (s.setQueue q).setHorizons = s.setHorizons := rfl
@[simp] theorem State.setQueue_ops (s : State) (q : Queue) : (s.setQueue q).ops = s.ops := rfl
@[simp] theorem State.setQueue_walks (s : State) (q : Queue) : (s.setQueue q).walks = s.walks := rfl
@[simp] theorem State.setQueue_services (s : State) (q : Queue) : (s.setQueue q).services = s.services := rfl
@[simp] theorem State.setQueue_cmds (s : State) (q : Queue) : (s.setQueue q).cmds = s.cmds := rfl
@[simp] theorem State.setQueue_dies (s : State) (q : Queue) : (s.setQueue q).dies = s.dies := rfl
@[simp] theorem State.setQueue_joinWatches (s : State) (q : Queue) : (s.setQueue q).joinWatches = s.joinWatches := rfl
@[simp] theorem State.setQueue_gathers (s : State) (q : Queue) : (s.setQueue q).gathers = s.gathers := rfl
@[simp] theorem State.setQueue_devBars (s : State) (q : Queue) : (s.setQueue q).devBars = s.devBars := rfl
@[simp] theorem State.setQueue_sequencers (s : State) (q : Queue) : (s.setQueue q).sequencers = s.sequencers := rfl
@[simp] theorem State.setQueue_hostLines (s : State) (q : Queue) : (s.setQueue q).hostLines = s.hostLines := rfl
@[simp] theorem State.setQueue_outside (s : State) (q : Queue) : (s.setQueue q).outside = s.outside := rfl
@[simp] theorem State.setQueue_heldWrites (s : State) (q : Queue) : (s.setQueue q).heldWrites = s.heldWrites := rfl
@[simp] theorem State.setQueue_granules (s : State) (q : Queue) : (s.setQueue q).granules = s.granules := rfl
@[simp] theorem State.setQueue_slots (s : State) (q : Queue) : (s.setQueue q).slots = s.slots := rfl
@[simp] theorem State.setQueue_contexts (s : State) (q : Queue) : (s.setQueue q).contexts = s.contexts := rfl
@[simp] theorem State.setQueue_policy (s : State) (q : Queue) : (s.setQueue q).policy = s.policy := rfl
@[simp] theorem State.setQueue_window (s : State) (q : Queue) : (s.setQueue q).window = s.window := rfl
@[simp] theorem State.setQueue_turns (s : State) (q : Queue) : (s.setQueue q).turns = s.turns := rfl
@[simp] theorem State.setQueue_sessions (s : State) (q : Queue) : (s.setQueue q).sessions = s.sessions := rfl
@[simp] theorem State.setQueue_pkg (s : State) (q : Queue) : (s.setQueue q).pkg = s.pkg := rfl

/-! ### `updContext` -/

@[simp] theorem State.updContext_run (s : State) (n : Nat) (g : Context → Context) : (s.updContext n g).run = s.run := rfl
@[simp] theorem State.updContext_ltime (s : State) (n : Nat) (g : Context → Context) : (s.updContext n g).ltime = s.ltime := rfl
@[simp] theorem State.updContext_mem (s : State) (n : Nat) (g : Context → Context) : (s.updContext n g).mem = s.mem := rfl
@[simp] theorem State.updContext_hostMem (s : State) (n : Nat) (g : Context → Context) : (s.updContext n g).hostMem = s.hostMem := rfl
@[simp] theorem State.updContext_peerMem (s : State) (n : Nat) (g : Context → Context) : (s.updContext n g).peerMem = s.peerMem := rfl
@[simp] theorem State.updContext_poison (s : State) (n : Nat) (g : Context → Context) : (s.updContext n g).poison = s.poison := rfl
@[simp] theorem State.updContext_fibres (s : State) (n : Nat) (g : Context → Context) : (s.updContext n g).fibres = s.fibres := rfl
@[simp] theorem State.updContext_cohorts (s : State) (n : Nat) (g : Context → Context) : (s.updContext n g).cohorts = s.cohorts := rfl
@[simp] theorem State.updContext_units (s : State) (n : Nat) (g : Context → Context) : (s.updContext n g).units = s.units := rfl
@[simp] theorem State.updContext_hearths (s : State) (n : Nat) (g : Context → Context) : (s.updContext n g).hearths = s.hearths := rfl
@[simp] theorem State.updContext_l2 (s : State) (n : Nat) (g : Context → Context) : (s.updContext n g).l2 = s.l2 := rfl
@[simp] theorem State.updContext_setHorizons (s : State) (n : Nat) (g : Context → Context) : (s.updContext n g).setHorizons = s.setHorizons := rfl
@[simp] theorem State.updContext_ops (s : State) (n : Nat) (g : Context → Context) : (s.updContext n g).ops = s.ops := rfl
@[simp] theorem State.updContext_walks (s : State) (n : Nat) (g : Context → Context) : (s.updContext n g).walks = s.walks := rfl
@[simp] theorem State.updContext_services (s : State) (n : Nat) (g : Context → Context) : (s.updContext n g).services = s.services := rfl
@[simp] theorem State.updContext_cmds (s : State) (n : Nat) (g : Context → Context) : (s.updContext n g).cmds = s.cmds := rfl
@[simp] theorem State.updContext_dies (s : State) (n : Nat) (g : Context → Context) : (s.updContext n g).dies = s.dies := rfl
@[simp] theorem State.updContext_joinWatches (s : State) (n : Nat) (g : Context → Context) : (s.updContext n g).joinWatches = s.joinWatches := rfl
@[simp] theorem State.updContext_gathers (s : State) (n : Nat) (g : Context → Context) : (s.updContext n g).gathers = s.gathers := rfl
@[simp] theorem State.updContext_devBars (s : State) (n : Nat) (g : Context → Context) : (s.updContext n g).devBars = s.devBars := rfl
@[simp] theorem State.updContext_sequencers (s : State) (n : Nat) (g : Context → Context) : (s.updContext n g).sequencers = s.sequencers := rfl
@[simp] theorem State.updContext_hostLines (s : State) (n : Nat) (g : Context → Context) : (s.updContext n g).hostLines = s.hostLines := rfl
@[simp] theorem State.updContext_outside (s : State) (n : Nat) (g : Context → Context) : (s.updContext n g).outside = s.outside := rfl
@[simp] theorem State.updContext_heldWrites (s : State) (n : Nat) (g : Context → Context) : (s.updContext n g).heldWrites = s.heldWrites := rfl
@[simp] theorem State.updContext_granules (s : State) (n : Nat) (g : Context → Context) : (s.updContext n g).granules = s.granules := rfl
@[simp] theorem State.updContext_slots (s : State) (n : Nat) (g : Context → Context) : (s.updContext n g).slots = s.slots := rfl
@[simp] theorem State.updContext_queues (s : State) (n : Nat) (g : Context → Context) : (s.updContext n g).queues = s.queues := rfl
@[simp] theorem State.updContext_policy (s : State) (n : Nat) (g : Context → Context) : (s.updContext n g).policy = s.policy := rfl
@[simp] theorem State.updContext_window (s : State) (n : Nat) (g : Context → Context) : (s.updContext n g).window = s.window := rfl
@[simp] theorem State.updContext_turns (s : State) (n : Nat) (g : Context → Context) : (s.updContext n g).turns = s.turns := rfl
@[simp] theorem State.updContext_sessions (s : State) (n : Nat) (g : Context → Context) : (s.updContext n g).sessions = s.sessions := rfl
@[simp] theorem State.updContext_pkg (s : State) (n : Nat) (g : Context → Context) : (s.updContext n g).pkg = s.pkg := rfl

/-! ### `updOp` -/

@[simp] theorem State.updOp_run (s : State) (n : Nat) (g : MemOp → MemOp) : (s.updOp n g).run = s.run := rfl
@[simp] theorem State.updOp_ltime (s : State) (n : Nat) (g : MemOp → MemOp) : (s.updOp n g).ltime = s.ltime := rfl
@[simp] theorem State.updOp_mem (s : State) (n : Nat) (g : MemOp → MemOp) : (s.updOp n g).mem = s.mem := rfl
@[simp] theorem State.updOp_hostMem (s : State) (n : Nat) (g : MemOp → MemOp) : (s.updOp n g).hostMem = s.hostMem := rfl
@[simp] theorem State.updOp_peerMem (s : State) (n : Nat) (g : MemOp → MemOp) : (s.updOp n g).peerMem = s.peerMem := rfl
@[simp] theorem State.updOp_poison (s : State) (n : Nat) (g : MemOp → MemOp) : (s.updOp n g).poison = s.poison := rfl
@[simp] theorem State.updOp_fibres (s : State) (n : Nat) (g : MemOp → MemOp) : (s.updOp n g).fibres = s.fibres := rfl
@[simp] theorem State.updOp_cohorts (s : State) (n : Nat) (g : MemOp → MemOp) : (s.updOp n g).cohorts = s.cohorts := rfl
@[simp] theorem State.updOp_units (s : State) (n : Nat) (g : MemOp → MemOp) : (s.updOp n g).units = s.units := rfl
@[simp] theorem State.updOp_hearths (s : State) (n : Nat) (g : MemOp → MemOp) : (s.updOp n g).hearths = s.hearths := rfl
@[simp] theorem State.updOp_l2 (s : State) (n : Nat) (g : MemOp → MemOp) : (s.updOp n g).l2 = s.l2 := rfl
@[simp] theorem State.updOp_setHorizons (s : State) (n : Nat) (g : MemOp → MemOp) : (s.updOp n g).setHorizons = s.setHorizons := rfl
@[simp] theorem State.updOp_walks (s : State) (n : Nat) (g : MemOp → MemOp) : (s.updOp n g).walks = s.walks := rfl
@[simp] theorem State.updOp_services (s : State) (n : Nat) (g : MemOp → MemOp) : (s.updOp n g).services = s.services := rfl
@[simp] theorem State.updOp_cmds (s : State) (n : Nat) (g : MemOp → MemOp) : (s.updOp n g).cmds = s.cmds := rfl
@[simp] theorem State.updOp_dies (s : State) (n : Nat) (g : MemOp → MemOp) : (s.updOp n g).dies = s.dies := rfl
@[simp] theorem State.updOp_joinWatches (s : State) (n : Nat) (g : MemOp → MemOp) : (s.updOp n g).joinWatches = s.joinWatches := rfl
@[simp] theorem State.updOp_gathers (s : State) (n : Nat) (g : MemOp → MemOp) : (s.updOp n g).gathers = s.gathers := rfl
@[simp] theorem State.updOp_devBars (s : State) (n : Nat) (g : MemOp → MemOp) : (s.updOp n g).devBars = s.devBars := rfl
@[simp] theorem State.updOp_sequencers (s : State) (n : Nat) (g : MemOp → MemOp) : (s.updOp n g).sequencers = s.sequencers := rfl
@[simp] theorem State.updOp_hostLines (s : State) (n : Nat) (g : MemOp → MemOp) : (s.updOp n g).hostLines = s.hostLines := rfl
@[simp] theorem State.updOp_outside (s : State) (n : Nat) (g : MemOp → MemOp) : (s.updOp n g).outside = s.outside := rfl
@[simp] theorem State.updOp_heldWrites (s : State) (n : Nat) (g : MemOp → MemOp) : (s.updOp n g).heldWrites = s.heldWrites := rfl
@[simp] theorem State.updOp_granules (s : State) (n : Nat) (g : MemOp → MemOp) : (s.updOp n g).granules = s.granules := rfl
@[simp] theorem State.updOp_slots (s : State) (n : Nat) (g : MemOp → MemOp) : (s.updOp n g).slots = s.slots := rfl
@[simp] theorem State.updOp_queues (s : State) (n : Nat) (g : MemOp → MemOp) : (s.updOp n g).queues = s.queues := rfl
@[simp] theorem State.updOp_contexts (s : State) (n : Nat) (g : MemOp → MemOp) : (s.updOp n g).contexts = s.contexts := rfl
@[simp] theorem State.updOp_policy (s : State) (n : Nat) (g : MemOp → MemOp) : (s.updOp n g).policy = s.policy := rfl
@[simp] theorem State.updOp_window (s : State) (n : Nat) (g : MemOp → MemOp) : (s.updOp n g).window = s.window := rfl
@[simp] theorem State.updOp_turns (s : State) (n : Nat) (g : MemOp → MemOp) : (s.updOp n g).turns = s.turns := rfl
@[simp] theorem State.updOp_sessions (s : State) (n : Nat) (g : MemOp → MemOp) : (s.updOp n g).sessions = s.sessions := rfl
@[simp] theorem State.updOp_pkg (s : State) (n : Nat) (g : MemOp → MemOp) : (s.updOp n g).pkg = s.pkg := rfl

/-! ### `dropOp` -/

@[simp] theorem State.dropOp_run (s : State) (n : Nat) : (s.dropOp n).run = s.run := rfl
@[simp] theorem State.dropOp_ltime (s : State) (n : Nat) : (s.dropOp n).ltime = s.ltime := rfl
@[simp] theorem State.dropOp_mem (s : State) (n : Nat) : (s.dropOp n).mem = s.mem := rfl
@[simp] theorem State.dropOp_hostMem (s : State) (n : Nat) : (s.dropOp n).hostMem = s.hostMem := rfl
@[simp] theorem State.dropOp_peerMem (s : State) (n : Nat) : (s.dropOp n).peerMem = s.peerMem := rfl
@[simp] theorem State.dropOp_poison (s : State) (n : Nat) : (s.dropOp n).poison = s.poison := rfl
@[simp] theorem State.dropOp_fibres (s : State) (n : Nat) : (s.dropOp n).fibres = s.fibres := rfl
@[simp] theorem State.dropOp_cohorts (s : State) (n : Nat) : (s.dropOp n).cohorts = s.cohorts := rfl
@[simp] theorem State.dropOp_units (s : State) (n : Nat) : (s.dropOp n).units = s.units := rfl
@[simp] theorem State.dropOp_hearths (s : State) (n : Nat) : (s.dropOp n).hearths = s.hearths := rfl
@[simp] theorem State.dropOp_l2 (s : State) (n : Nat) : (s.dropOp n).l2 = s.l2 := rfl
@[simp] theorem State.dropOp_setHorizons (s : State) (n : Nat) : (s.dropOp n).setHorizons = s.setHorizons := rfl
@[simp] theorem State.dropOp_walks (s : State) (n : Nat) : (s.dropOp n).walks = s.walks := rfl
@[simp] theorem State.dropOp_services (s : State) (n : Nat) : (s.dropOp n).services = s.services := rfl
@[simp] theorem State.dropOp_cmds (s : State) (n : Nat) : (s.dropOp n).cmds = s.cmds := rfl
@[simp] theorem State.dropOp_dies (s : State) (n : Nat) : (s.dropOp n).dies = s.dies := rfl
@[simp] theorem State.dropOp_joinWatches (s : State) (n : Nat) : (s.dropOp n).joinWatches = s.joinWatches := rfl
@[simp] theorem State.dropOp_gathers (s : State) (n : Nat) : (s.dropOp n).gathers = s.gathers := rfl
@[simp] theorem State.dropOp_devBars (s : State) (n : Nat) : (s.dropOp n).devBars = s.devBars := rfl
@[simp] theorem State.dropOp_sequencers (s : State) (n : Nat) : (s.dropOp n).sequencers = s.sequencers := rfl
@[simp] theorem State.dropOp_hostLines (s : State) (n : Nat) : (s.dropOp n).hostLines = s.hostLines := rfl
@[simp] theorem State.dropOp_outside (s : State) (n : Nat) : (s.dropOp n).outside = s.outside := rfl
@[simp] theorem State.dropOp_heldWrites (s : State) (n : Nat) : (s.dropOp n).heldWrites = s.heldWrites := rfl
@[simp] theorem State.dropOp_granules (s : State) (n : Nat) : (s.dropOp n).granules = s.granules := rfl
@[simp] theorem State.dropOp_slots (s : State) (n : Nat) : (s.dropOp n).slots = s.slots := rfl
@[simp] theorem State.dropOp_queues (s : State) (n : Nat) : (s.dropOp n).queues = s.queues := rfl
@[simp] theorem State.dropOp_contexts (s : State) (n : Nat) : (s.dropOp n).contexts = s.contexts := rfl
@[simp] theorem State.dropOp_policy (s : State) (n : Nat) : (s.dropOp n).policy = s.policy := rfl
@[simp] theorem State.dropOp_window (s : State) (n : Nat) : (s.dropOp n).window = s.window := rfl
@[simp] theorem State.dropOp_turns (s : State) (n : Nat) : (s.dropOp n).turns = s.turns := rfl
@[simp] theorem State.dropOp_sessions (s : State) (n : Nat) : (s.dropOp n).sessions = s.sessions := rfl
@[simp] theorem State.dropOp_pkg (s : State) (n : Nat) : (s.dropOp n).pkg = s.pkg := rfl

/-! ### `updCmd` -/

@[simp] theorem State.updCmd_run (s : State) (n : Nat) (g : EngineCmd → EngineCmd) : (s.updCmd n g).run = s.run := rfl
@[simp] theorem State.updCmd_ltime (s : State) (n : Nat) (g : EngineCmd → EngineCmd) : (s.updCmd n g).ltime = s.ltime := rfl
@[simp] theorem State.updCmd_mem (s : State) (n : Nat) (g : EngineCmd → EngineCmd) : (s.updCmd n g).mem = s.mem := rfl
@[simp] theorem State.updCmd_hostMem (s : State) (n : Nat) (g : EngineCmd → EngineCmd) : (s.updCmd n g).hostMem = s.hostMem := rfl
@[simp] theorem State.updCmd_peerMem (s : State) (n : Nat) (g : EngineCmd → EngineCmd) : (s.updCmd n g).peerMem = s.peerMem := rfl
@[simp] theorem State.updCmd_poison (s : State) (n : Nat) (g : EngineCmd → EngineCmd) : (s.updCmd n g).poison = s.poison := rfl
@[simp] theorem State.updCmd_fibres (s : State) (n : Nat) (g : EngineCmd → EngineCmd) : (s.updCmd n g).fibres = s.fibres := rfl
@[simp] theorem State.updCmd_cohorts (s : State) (n : Nat) (g : EngineCmd → EngineCmd) : (s.updCmd n g).cohorts = s.cohorts := rfl
@[simp] theorem State.updCmd_units (s : State) (n : Nat) (g : EngineCmd → EngineCmd) : (s.updCmd n g).units = s.units := rfl
@[simp] theorem State.updCmd_hearths (s : State) (n : Nat) (g : EngineCmd → EngineCmd) : (s.updCmd n g).hearths = s.hearths := rfl
@[simp] theorem State.updCmd_l2 (s : State) (n : Nat) (g : EngineCmd → EngineCmd) : (s.updCmd n g).l2 = s.l2 := rfl
@[simp] theorem State.updCmd_setHorizons (s : State) (n : Nat) (g : EngineCmd → EngineCmd) : (s.updCmd n g).setHorizons = s.setHorizons := rfl
@[simp] theorem State.updCmd_ops (s : State) (n : Nat) (g : EngineCmd → EngineCmd) : (s.updCmd n g).ops = s.ops := rfl
@[simp] theorem State.updCmd_walks (s : State) (n : Nat) (g : EngineCmd → EngineCmd) : (s.updCmd n g).walks = s.walks := rfl
@[simp] theorem State.updCmd_services (s : State) (n : Nat) (g : EngineCmd → EngineCmd) : (s.updCmd n g).services = s.services := rfl
@[simp] theorem State.updCmd_dies (s : State) (n : Nat) (g : EngineCmd → EngineCmd) : (s.updCmd n g).dies = s.dies := rfl
@[simp] theorem State.updCmd_joinWatches (s : State) (n : Nat) (g : EngineCmd → EngineCmd) : (s.updCmd n g).joinWatches = s.joinWatches := rfl
@[simp] theorem State.updCmd_gathers (s : State) (n : Nat) (g : EngineCmd → EngineCmd) : (s.updCmd n g).gathers = s.gathers := rfl
@[simp] theorem State.updCmd_devBars (s : State) (n : Nat) (g : EngineCmd → EngineCmd) : (s.updCmd n g).devBars = s.devBars := rfl
@[simp] theorem State.updCmd_sequencers (s : State) (n : Nat) (g : EngineCmd → EngineCmd) : (s.updCmd n g).sequencers = s.sequencers := rfl
@[simp] theorem State.updCmd_hostLines (s : State) (n : Nat) (g : EngineCmd → EngineCmd) : (s.updCmd n g).hostLines = s.hostLines := rfl
@[simp] theorem State.updCmd_outside (s : State) (n : Nat) (g : EngineCmd → EngineCmd) : (s.updCmd n g).outside = s.outside := rfl
@[simp] theorem State.updCmd_heldWrites (s : State) (n : Nat) (g : EngineCmd → EngineCmd) : (s.updCmd n g).heldWrites = s.heldWrites := rfl
@[simp] theorem State.updCmd_granules (s : State) (n : Nat) (g : EngineCmd → EngineCmd) : (s.updCmd n g).granules = s.granules := rfl
@[simp] theorem State.updCmd_slots (s : State) (n : Nat) (g : EngineCmd → EngineCmd) : (s.updCmd n g).slots = s.slots := rfl
@[simp] theorem State.updCmd_queues (s : State) (n : Nat) (g : EngineCmd → EngineCmd) : (s.updCmd n g).queues = s.queues := rfl
@[simp] theorem State.updCmd_contexts (s : State) (n : Nat) (g : EngineCmd → EngineCmd) : (s.updCmd n g).contexts = s.contexts := rfl
@[simp] theorem State.updCmd_policy (s : State) (n : Nat) (g : EngineCmd → EngineCmd) : (s.updCmd n g).policy = s.policy := rfl
@[simp] theorem State.updCmd_window (s : State) (n : Nat) (g : EngineCmd → EngineCmd) : (s.updCmd n g).window = s.window := rfl
@[simp] theorem State.updCmd_turns (s : State) (n : Nat) (g : EngineCmd → EngineCmd) : (s.updCmd n g).turns = s.turns := rfl
@[simp] theorem State.updCmd_sessions (s : State) (n : Nat) (g : EngineCmd → EngineCmd) : (s.updCmd n g).sessions = s.sessions := rfl
@[simp] theorem State.updCmd_pkg (s : State) (n : Nat) (g : EngineCmd → EngineCmd) : (s.updCmd n g).pkg = s.pkg := rfl

/-! ### `endTurn` -/

@[simp] theorem State.endTurn_ltime (s : State) : (s.endTurn).ltime = s.ltime := rfl
@[simp] theorem State.endTurn_mem (s : State) : (s.endTurn).mem = s.mem := rfl
@[simp] theorem State.endTurn_hostMem (s : State) : (s.endTurn).hostMem = s.hostMem := rfl
@[simp] theorem State.endTurn_peerMem (s : State) : (s.endTurn).peerMem = s.peerMem := rfl
@[simp] theorem State.endTurn_poison (s : State) : (s.endTurn).poison = s.poison := rfl
@[simp] theorem State.endTurn_fibres (s : State) : (s.endTurn).fibres = s.fibres := rfl
@[simp] theorem State.endTurn_cohorts (s : State) : (s.endTurn).cohorts = s.cohorts := rfl
@[simp] theorem State.endTurn_units (s : State) : (s.endTurn).units = s.units := rfl
@[simp] theorem State.endTurn_hearths (s : State) : (s.endTurn).hearths = s.hearths := rfl
@[simp] theorem State.endTurn_l2 (s : State) : (s.endTurn).l2 = s.l2 := rfl
@[simp] theorem State.endTurn_setHorizons (s : State) : (s.endTurn).setHorizons = s.setHorizons := rfl
@[simp] theorem State.endTurn_ops (s : State) : (s.endTurn).ops = s.ops := rfl
@[simp] theorem State.endTurn_walks (s : State) : (s.endTurn).walks = s.walks := rfl
@[simp] theorem State.endTurn_services (s : State) : (s.endTurn).services = s.services := rfl
@[simp] theorem State.endTurn_cmds (s : State) : (s.endTurn).cmds = s.cmds := rfl
@[simp] theorem State.endTurn_dies (s : State) : (s.endTurn).dies = s.dies := rfl
@[simp] theorem State.endTurn_joinWatches (s : State) : (s.endTurn).joinWatches = s.joinWatches := rfl
@[simp] theorem State.endTurn_gathers (s : State) : (s.endTurn).gathers = s.gathers := rfl
@[simp] theorem State.endTurn_devBars (s : State) : (s.endTurn).devBars = s.devBars := rfl
@[simp] theorem State.endTurn_sequencers (s : State) : (s.endTurn).sequencers = s.sequencers := rfl
@[simp] theorem State.endTurn_hostLines (s : State) : (s.endTurn).hostLines = s.hostLines := rfl
@[simp] theorem State.endTurn_outside (s : State) : (s.endTurn).outside = s.outside := rfl
@[simp] theorem State.endTurn_heldWrites (s : State) : (s.endTurn).heldWrites = s.heldWrites := rfl
@[simp] theorem State.endTurn_granules (s : State) : (s.endTurn).granules = s.granules := rfl
@[simp] theorem State.endTurn_slots (s : State) : (s.endTurn).slots = s.slots := rfl
@[simp] theorem State.endTurn_queues (s : State) : (s.endTurn).queues = s.queues := rfl
@[simp] theorem State.endTurn_contexts (s : State) : (s.endTurn).contexts = s.contexts := rfl
@[simp] theorem State.endTurn_policy (s : State) : (s.endTurn).policy = s.policy := rfl
@[simp] theorem State.endTurn_window (s : State) : (s.endTurn).window = s.window := rfl
@[simp] theorem State.endTurn_turns (s : State) : (s.endTurn).turns = s.turns := rfl
@[simp] theorem State.endTurn_sessions (s : State) : (s.endTurn).sessions = s.sessions := rfl
@[simp] theorem State.endTurn_pkg (s : State) : (s.endTurn).pkg = s.pkg := rfl

/-! ### `noteWrite` -/

@[simp] theorem State.noteWrite_ltime (s : State) (n : Option Nat) (h : Nat → Bool) : (s.noteWrite n h).ltime = s.ltime := by cases n <;> rfl
@[simp] theorem State.noteWrite_mem (s : State) (n : Option Nat) (h : Nat → Bool) : (s.noteWrite n h).mem = s.mem := by cases n <;> rfl
@[simp] theorem State.noteWrite_hostMem (s : State) (n : Option Nat) (h : Nat → Bool) : (s.noteWrite n h).hostMem = s.hostMem := by cases n <;> rfl
@[simp] theorem State.noteWrite_peerMem (s : State) (n : Option Nat) (h : Nat → Bool) : (s.noteWrite n h).peerMem = s.peerMem := by cases n <;> rfl
@[simp] theorem State.noteWrite_poison (s : State) (n : Option Nat) (h : Nat → Bool) : (s.noteWrite n h).poison = s.poison := by cases n <;> rfl
@[simp] theorem State.noteWrite_fibres (s : State) (n : Option Nat) (h : Nat → Bool) : (s.noteWrite n h).fibres = s.fibres := by cases n <;> rfl
@[simp] theorem State.noteWrite_cohorts (s : State) (n : Option Nat) (h : Nat → Bool) : (s.noteWrite n h).cohorts = s.cohorts := by cases n <;> rfl
@[simp] theorem State.noteWrite_units (s : State) (n : Option Nat) (h : Nat → Bool) : (s.noteWrite n h).units = s.units := by cases n <;> rfl
@[simp] theorem State.noteWrite_hearths (s : State) (n : Option Nat) (h : Nat → Bool) : (s.noteWrite n h).hearths = s.hearths := by cases n <;> rfl
@[simp] theorem State.noteWrite_l2 (s : State) (n : Option Nat) (h : Nat → Bool) : (s.noteWrite n h).l2 = s.l2 := by cases n <;> rfl
@[simp] theorem State.noteWrite_setHorizons (s : State) (n : Option Nat) (h : Nat → Bool) : (s.noteWrite n h).setHorizons = s.setHorizons := by cases n <;> rfl
@[simp] theorem State.noteWrite_ops (s : State) (n : Option Nat) (h : Nat → Bool) : (s.noteWrite n h).ops = s.ops := by cases n <;> rfl
@[simp] theorem State.noteWrite_walks (s : State) (n : Option Nat) (h : Nat → Bool) : (s.noteWrite n h).walks = s.walks := by cases n <;> rfl
@[simp] theorem State.noteWrite_services (s : State) (n : Option Nat) (h : Nat → Bool) : (s.noteWrite n h).services = s.services := by cases n <;> rfl
@[simp] theorem State.noteWrite_cmds (s : State) (n : Option Nat) (h : Nat → Bool) : (s.noteWrite n h).cmds = s.cmds := by cases n <;> rfl
@[simp] theorem State.noteWrite_gathers (s : State) (n : Option Nat) (h : Nat → Bool) : (s.noteWrite n h).gathers = s.gathers := by cases n <;> rfl
@[simp] theorem State.noteWrite_devBars (s : State) (n : Option Nat) (h : Nat → Bool) : (s.noteWrite n h).devBars = s.devBars := by cases n <;> rfl
@[simp] theorem State.noteWrite_sequencers (s : State) (n : Option Nat) (h : Nat → Bool) : (s.noteWrite n h).sequencers = s.sequencers := by cases n <;> rfl
@[simp] theorem State.noteWrite_hostLines (s : State) (n : Option Nat) (h : Nat → Bool) : (s.noteWrite n h).hostLines = s.hostLines := by cases n <;> rfl
@[simp] theorem State.noteWrite_outside (s : State) (n : Option Nat) (h : Nat → Bool) : (s.noteWrite n h).outside = s.outside := by cases n <;> rfl
@[simp] theorem State.noteWrite_heldWrites (s : State) (n : Option Nat) (h : Nat → Bool) : (s.noteWrite n h).heldWrites = s.heldWrites := by cases n <;> rfl
@[simp] theorem State.noteWrite_granules (s : State) (n : Option Nat) (h : Nat → Bool) : (s.noteWrite n h).granules = s.granules := by cases n <;> rfl
@[simp] theorem State.noteWrite_slots (s : State) (n : Option Nat) (h : Nat → Bool) : (s.noteWrite n h).slots = s.slots := by cases n <;> rfl
@[simp] theorem State.noteWrite_queues (s : State) (n : Option Nat) (h : Nat → Bool) : (s.noteWrite n h).queues = s.queues := by cases n <;> rfl
@[simp] theorem State.noteWrite_turns (s : State) (n : Option Nat) (h : Nat → Bool) : (s.noteWrite n h).turns = s.turns := by cases n <;> rfl
@[simp] theorem State.noteWrite_contexts (s : State) (n : Option Nat) (h : Nat → Bool) : (s.noteWrite n h).contexts = s.contexts := by cases n <;> rfl
@[simp] theorem State.noteWrite_policy (s : State) (n : Option Nat) (h : Nat → Bool) : (s.noteWrite n h).policy = s.policy := by cases n <;> rfl
@[simp] theorem State.noteWrite_window (s : State) (n : Option Nat) (h : Nat → Bool) : (s.noteWrite n h).window = s.window := by cases n <;> rfl
@[simp] theorem State.noteWrite_sessions (s : State) (n : Option Nat) (h : Nat → Bool) : (s.noteWrite n h).sessions = s.sessions := by cases n <;> rfl
@[simp] theorem State.noteWrite_pkg (s : State) (n : Option Nat) (h : Nat → Bool) : (s.noteWrite n h).pkg = s.pkg := by cases n <;> rfl

/-! ### What an update changes -/

@[simp] theorem State.setFibre_fibres (s : State) (f : Fibre) :
    (s.setFibre f).fibres = s.fibres.map fun g => if g.uid = f.uid then f else g := rfl
@[simp] theorem State.updFibre_fibres (s : State) (u : Nat) (g : Fibre → Fibre) :
    (s.updFibre u g).fibres = s.fibres.map fun f => if f.uid = u then g f else f := rfl
@[simp] theorem State.updCohort_cohorts (s : State) (u : Nat) (g : Cohort → Cohort) :
    (s.updCohort u g).cohorts = s.cohorts.map fun c => if c.uid = u then g c else c := rfl
@[simp] theorem State.dropOp_ops (s : State) (n : Nat) : (s.dropOp n).ops = s.ops.filter fun o => o.id != n := rfl
@[simp] theorem State.endTurn_group (s : State) : s.endTurn.run.group = none := rfl
@[simp] theorem State.endTurn_issuing (s : State) : s.endTurn.run.issuing = s.run.issuing.tail := rfl
@[simp] theorem State.endTurn_decision (s : State) : s.endTurn.run.decision = s.run.decision := rfl
@[simp] theorem State.endTurn_urgent (s : State) : s.endTurn.run.urgent = s.run.urgent := rfl
@[simp] theorem State.endTurn_nextOp (s : State) : s.endTurn.run.nextOp = s.run.nextOp := rfl

/-! ### Lookups after an update -/

/-- The fibre that an update names. -/
theorem State.fibre?_updFibre_same (s : State) (u : Nat) (g : Fibre → Fibre) (h : ∀ f, f.uid = u → (g f).uid = u) :
    (s.updFibre u g).fibre? u = (s.fibre? u).map g := by
  unfold State.fibre? State.updFibre
  dsimp only
  induction s.fibres with
  | nil => rfl
  | cons f l ih =>
    by_cases e : f.uid = u
    · simp [List.find?, e, h f e]
    · have e1 : (f.uid == u) = false := by simp [e]
      simp [List.find?, e, e1, ih]

/-- Every other fibre stands. -/
theorem State.fibre?_updFibre_other (s : State) (u v : Nat) (g : Fibre → Fibre) (h : ∀ f, f.uid = u → (g f).uid = u) (hv : v ≠ u) :
    (s.updFibre u g).fibre? v = s.fibre? v := by
  unfold State.fibre? State.updFibre
  dsimp only
  induction s.fibres with
  | nil => rfl
  | cons f l ih =>
    by_cases e : f.uid = u
    · have e1 : ((g f).uid == v) = false := by simp [h f e]; omega
      have e2 : (f.uid == v) = false := by simp [e]; omega
      simp [List.find?, e, e1] at ih ⊢
      rw [ih]
      split <;> simp_all
    · simp [List.find?, e] at ih ⊢
      rw [ih]

/-- The fibre that a replacement names. -/
theorem State.fibre?_setFibre_same (s : State) (f : Fibre) (h : (s.fibre? f.uid).isSome) : (s.setFibre f).fibre? f.uid = some f := by
  unfold State.fibre? at h ⊢
  unfold State.setFibre
  dsimp only
  induction hl : s.fibres generalizing s with
  | nil => simp [hl] at h
  | cons g l ih =>
    by_cases e : g.uid = f.uid
    · simp [e]
    · have e1 : (g.uid == f.uid) = false := by simp [e]
      have h' : (List.find? (fun x => x.uid == f.uid) l).isSome := by simpa [hl, List.find?, e1] using h
      simp [e]
      simpa using ih { s with fibres := l } h' rfl

theorem State.fibre?_setFibre_other (s : State) (f : Fibre) (v : Nat) (hv : v ≠ f.uid) : (s.setFibre f).fibre? v = s.fibre? v := by
  unfold State.fibre? State.setFibre
  dsimp only
  induction s.fibres with
  | nil => rfl
  | cons g l ih =>
    by_cases e : g.uid = f.uid
    · have e1 : (f.uid == v) = false := by simp; omega
      have e2 : (g.uid == v) = false := by simp [e]; omega
      simp [List.find?, e, e1] at ih ⊢
      rw [ih]
    · simp [List.find?, e] at ih ⊢
      rw [ih]

end Sys2Proof.Machine
end

