-- ==== Sys2Proof/Laws/Results.lean ====
section
/-! SUPPORT. What a group of results leaves: the registers and predicates of the fibre, and everything else as it stood. -/

namespace Sys2Proof.Machine

/-! ### Registers and predicates (R41, R93) -/

@[simp] theorem Fibre.putReg_length (f : Fibre) (r : Nat) (w : Word) : (f.putReg r w).arch.regs.length = f.arch.regs.length := by
  simp [Fibre.putReg]

theorem Fibre.putReg_getD (f : Fibre) (r k : Nat) (w : Word) (hk : k < f.arch.regs.length) :
    (f.putReg r w).arch.regs.getD k 0 = if r = k then w else f.arch.regs.getD k 0 := by
  by_cases h : r = k
  · subst h
    simp [Fibre.putReg, hk]
  · simp [Fibre.putReg, List.getElem?_set_ne h, h]

@[simp] theorem Fibre.putRegs_length (f : Fibre) (rs : List (Nat × Word)) : (f.putRegs rs).arch.regs.length = f.arch.regs.length := by
  unfold Fibre.putRegs
  induction rs generalizing f with
  | nil => rfl
  | cons x l ih => simp [ih]

/-- Registers written at most once each: a register reads what was written to it, or what it held. -/
theorem Fibre.putRegs_getD (f : Fibre) (rs : List (Nat × Word)) (k : Nat) (hk : k < f.arch.regs.length) (hn : (rs.map (·.1)).Nodup) :
    (f.putRegs rs).arch.regs.getD k 0 = (rs.lookup k).getD (f.arch.regs.getD k 0) := by
  unfold Fibre.putRegs
  induction rs generalizing f with
  | nil => rfl
  | cons x l ih =>
    obtain ⟨r, w⟩ := x
    simp only [List.map_cons, List.nodup_cons] at hn
    rw [List.foldl_cons, ih (f.putReg r w) (by simpa using hk) hn.2, Fibre.putReg_getD f r k w hk, List.lookup_cons]
    by_cases h : r = k
    · subst h
      have hl : List.lookup r l = none := by
        rw [List.lookup_eq_none_iff]
        intro p hp
        have : r ≠ p.1 := fun e => hn.1 (List.mem_map.2 ⟨p, hp, e.symm⟩)
        simpa using this
      simp [hl]
    · have h' : (k == r) = false := by simpa using fun e : k = r => h e.symm
      simp [h, h']

@[simp] theorem Fibre.putReg_arch (f : Fibre) (r : Nat) (w : Word) :
    (f.putReg r w).arch = { f.arch with regs := (f.putReg r w).arch.regs } := rfl
theorem Fibre.putRegs_arch (f : Fibre) (rs : List (Nat × Word)) :
    (f.putRegs rs).arch = { f.arch with regs := (f.putRegs rs).arch.regs } := by
  unfold Fibre.putRegs
  induction rs generalizing f with
  | nil => rfl
  | cons x l ih => rw [List.foldl_cons, ih (f.putReg x.1 x.2)]; rfl
theorem Fibre.putRegs_rest (f : Fibre) (rs : List (Nat × Word)) :
    f.putRegs rs = { f with arch := (f.putRegs rs).arch, hoist := (f.putRegs rs).hoist } := by
  unfold Fibre.putRegs
  induction rs generalizing f with
  | nil => rfl
  | cons x l ih => rw [List.foldl_cons, ih (f.putReg x.1 x.2)]; rfl

theorem Fibre.putPred_arch (f : Fibre) (p : Nat) (v : Bool) :
    (f.putPred p v).arch = { f.arch with pword := (f.putPred p v).arch.pword } := by
  unfold Fibre.putPred
  split <;> rfl
theorem Fibre.putPred_rest (f : Fibre) (p : Nat) (v : Bool) : f.putPred p v = { f with arch := (f.putPred p v).arch } := by
  unfold Fibre.putPred
  split <;> rfl
theorem Fibre.putPreds_arch (f : Fibre) (ps : List (Nat × Bool)) :
    (f.putPreds ps).arch = { f.arch with pword := (f.putPreds ps).arch.pword } := by
  unfold Fibre.putPreds
  induction ps generalizing f with
  | nil => rfl
  | cons x l ih => rw [List.foldl_cons, ih (f.putPred x.1 x.2), Fibre.putPred_arch]
theorem Fibre.putPreds_rest (f : Fibre) (ps : List (Nat × Bool)) : f.putPreds ps = { f with arch := (f.putPreds ps).arch } := by
  unfold Fibre.putPreds
  induction ps generalizing f with
  | nil => rfl
  | cons x l ih => rw [List.foldl_cons, ih (f.putPred x.1 x.2), Fibre.putPred_rest]

/-- A predicate after a write: the bit written, p7 always 1. -/
theorem Fibre.putPred_P (f : Fibre) (p : Nat) (v : Bool) (n : BitVec 3) :
    (f.putPred p v).P n = if n = 7 then true else if p = n.toNat then v else f.P n := by
  have hn : n.toNat < 8 := n.isLt
  by_cases h7 : n = 7
  · simp [Fibre.P, h7]
  · have h7' : n.toNat ≠ 7 := fun e => h7 (BitVec.eq_of_toNat_eq (by simpa using e))
    have hb : (n == 7) = false := by simpa using h7
    unfold Fibre.putPred Fibre.P
    rw [if_neg h7]
    by_cases hp : 7 ≤ p
    · rw [if_pos hp, if_neg (by omega)]
    · rw [if_neg hp]
      have hp' : p < 7 := by omega
      simp only [hb, Bool.false_or]
      have key : ∀ k : Nat, k < 8 → (BitVec.ofNat 8 (2 ^ p)).getLsbD k = decide (p = k) := by
        intro k hk
        rw [BitVec.getLsbD_ofNat, Nat.testBit_two_pow]
        simp [hk]
      cases v
      · by_cases h : p = n.toNat
        · simp only [Bool.false_eq_true, if_false, BitVec.getLsbD_and, BitVec.getLsbD_not, key _ hn]
          simp [h]
        · simp only [Bool.false_eq_true, if_false, BitVec.getLsbD_and, BitVec.getLsbD_not, key _ hn, h]
          simp [hn]
      · by_cases h : p = n.toNat
        · simp only [if_true, BitVec.getLsbD_or, key _ hn]
          simp [h]
        · simp only [if_true, BitVec.getLsbD_or, key _ hn, h]
          simp

theorem Fibre.putPreds_P (f : Fibre) (ps : List (Nat × Bool)) (n : BitVec 3) (hn : (ps.map (·.1)).Nodup) :
    (f.putPreds ps).P n = if n = 7 then true else (ps.lookup n.toNat).getD (f.P n) := by
  unfold Fibre.putPreds
  induction ps generalizing f with
  | nil =>
    by_cases h : n = 7
    · rw [if_pos h]; subst h; rfl
    · rw [if_neg h]; rfl
  | cons x l ih =>
    obtain ⟨p, v⟩ := x
    simp only [List.map_cons, List.nodup_cons] at hn
    rw [List.foldl_cons, ih (f.putPred p v) hn.2, Fibre.putPred_P, List.lookup_cons]
    by_cases h : n = 7
    · rw [if_pos h, if_pos h]
    · rw [if_neg h, if_neg h, if_neg h]
      by_cases hp : p = n.toNat
      · have hl : List.lookup n.toNat l = none := by
          rw [List.lookup_eq_none_iff]
          intro q hq
          have : n.toNat ≠ q.1 := fun e => hn.1 (List.mem_map.2 ⟨q, hq, by rw [hp]; exact e.symm⟩)
          simpa using this
        simp [hp, hl]
      · have hb : (n.toNat == p) = false := by simpa using fun e : n.toNat = p => hp e.symm
        simp [hp, hb]

/-! ### Hearths -/

@[simp] theorem State.hearth_id (s : State) (n : Nat) : (s.hearth n).id = n := by
  unfold State.hearth
  cases h : s.hearths.find? (·.id == n) with
  | none => rfl
  | some x => simpa using List.find?_some h

theorem State.hearth_updHearth (s : State) (n m : Nat) (g : Hearth → Hearth) (hg : (g (s.hearth n)).id = n) :
    (s.updHearth n g).hearth m = if m = n then g (s.hearth n) else s.hearth m := by
  unfold State.updHearth
  generalize g (s.hearth n) = x at hg
  unfold State.setHearth State.hearth
  have hF : ∀ l : List Hearth, Hearth.fresh { s with hearths := l } m = Hearth.fresh s m := fun _ => rfl
  rw [hF]
  by_cases h : m = n
  · subst h
    simp [List.find?, hg]
  · have h1 : (n == m) = false := by simpa using fun e : n = m => h e.symm
    have hf : ∀ l : List Hearth, (l.filter fun y => y.id != n).find? (·.id == m) = l.find? (·.id == m) := by
      intro l
      induction l with
      | nil => rfl
      | cons y t ih =>
        by_cases hy : y.id = n
        · simp [hy, List.find?, ih, h1]
        · simp [hy, List.find?, ih]
    rw [if_neg h]
    simp only [List.find?, hg, h1, hf]

/-! ### A word alone in its group -/

theorem dropSent_res (n : Nat) (cls : Nat) (rs : List (Nat × Word)) (ps : List (Nat × Bool)) (fl : BitVec 5) :
    dropSent n [.res cls rs ps fl] = [.res cls rs ps fl] := by cases n <;> rfl

theorem State.occupy_only (s : State) (f : Fibre) (ks : List Nat) :
    (s.occupy f ks) = { s with hearths := (s.occupy f ks).hearths } ∧
    ∀ h, { (s.occupy f ks).hearth h with pipes := [] } = { s.hearth h with pipes := [] } := by
  unfold State.occupy
  split
  · exact ⟨rfl, fun _ => rfl⟩
  · refine ⟨rfl, fun h => ?_⟩
    rw [State.hearth_updHearth _ _ _ _ (by simp)]
    split
    · rename_i e; rw [e]
    · rfl

theorem State.issuer_fibre {s : State} {f : Fibre} (h : s.issuer = some f) : s.fibre? f.uid = some f := by
  unfold State.issuer at h
  cases hd : s.run.issuing.head? with
  | none => simp [hd] at h
  | some u =>
    rw [hd] at h
    have h' : s.fibre? u = some f := h
    have : f.uid = u := by
      have := List.find?_some h'
      simpa using this
    rw [this]
    exact h'

/-- The fibre that one result leaves behind. -/
theorem Fibre.res_result (f : Fibre) (words cls : Nat) (rs : List (Nat × Word)) (ps : List (Nat × Bool)) (fl : BitVec 5)
    (pd : List Pend) (hr : (rs.map (·.1)).Nodup) (hp : (ps.map (·.1)).Nodup) (G : Fibre)
    (hG : G = { f with arch := { f.arch with pc := f.arch.pc + BitVec.ofNat 32 words }, head := f.arch.pc, rep := none, pend := pd, held := none,
                       turn := G.turn, since := none, sent := 0 }) :
    (Fibre.apply false G (.res cls rs ps fl)).uid = f.uid ∧ f.Result (Fibre.apply false G (.res cls rs ps fl)) words rs ps fl := by
  have hA : G.arch = { f.arch with pc := f.arch.pc + BitVec.ofNat 32 words } := by rw [hG]
  have hR : (((G.putRegs rs).putPreds ps).orFlags fl).arch.regs = (G.putRegs rs).arch.regs := by
    unfold Fibre.orFlags
    rw [Fibre.putPreds_arch]
  have hS : ((G.putRegs rs).putPreds ps).orFlags fl =
      { G with arch := (((G.putRegs rs).putPreds ps).orFlags fl).arch, hoist := (((G.putRegs rs).putPreds ps).orFlags fl).hoist } := by
    unfold Fibre.orFlags
    rw [Fibre.putPreds_rest, Fibre.putRegs_rest]
  show (((G.putRegs rs).putPreds ps).orFlags fl).uid = f.uid ∧ f.Result (((G.putRegs rs).putPreds ps).orFlags fl) words rs ps fl
  refine ⟨?_, ?_, ?_, ?_, ?_, ?_⟩
  · rw [hS, hG]
  · unfold Fibre.orFlags
    rw [Fibre.putPreds_arch, Fibre.putRegs_arch, hA]
  · rw [hR, Fibre.putRegs_length, hA]
  · intro r hr'
    rw [hR, Fibre.putRegs_getD _ _ _ (by rw [hA]; exact hr') hr, hA]
  · intro k
    have h1 : (((G.putRegs rs).putPreds ps).orFlags fl).P k = ((G.putRegs rs).putPreds ps).P k := rfl
    have h2 : (G.putRegs rs).P k = f.P k := by
      unfold Fibre.P
      rw [Fibre.putRegs_arch, hA]
    rw [h1, Fibre.putPreds_P _ _ _ hp, h2]
  · have ht : (((G.putRegs rs).putPreds ps).orFlags fl).turn = G.turn := by rw [hS]
    rw [ht, hS]
    rw [hG]

/-- A group of one result, unchained, takes effect: on the fibre, and on the pipes. -/
theorem State.commit_res (s : State) (f : Fibre) (og : OpenGroup) (cls : Nat) (rs : List (Nat × Word)) (ps : List (Nat × Bool))
    (fl : BitVec 5) (h : og.fx = [.res cls rs ps fl]) :
    s.commit f og = State.occupy { (s.issuedTurn f.uid).setFibre (Fibre.apply false { f.advance og with
        pend := f.pend ++ pendsOf [(s.run.nextOp + 0, .res cls rs ps fl)], held := none,
        turn := if f.held.isSome then f.turn else (s.issuedTurn f.uid).turnOf f, since := none, sent := 0 } (.res cls rs ps fl)) with
      run := { (s.issuedTurn f.uid).run with nextOp := s.run.nextOp + 1 } } f (pipesOf [.res cls rs ps fl]) := by
  unfold State.commit State.takeEffect
  rw [h, dropSent_res]
  rfl

/-- A single result, alone in its group and unchained: what the group leaves. -/
theorem State.adds_wrote (s : State) (f : Fibre) (words cls : Nat) (rs : List (Nat × Word)) (ps : List (Nat × Bool)) (fl : BitVec 5)
    (hi : s.issuer = some f) (hg : s.run.group = none) (hr : (rs.map (·.1)).Nodup) (hp : (ps.map (·.1)).Nodup) :
    s.Wrote (s.adds f false words [.res cls rs ps fl]) f words rs ps fl := by
  have hf := State.issuer_fibre hi
  have ho : s.openGroup f = .fresh f := by simp only [State.openGroup, hg]
  have e : s.adds f false words [.res cls rs ps fl] = s.commit f ((OpenGroup.fresh f).add words [.res cls rs ps fl]) := by
    simp only [State.adds, ho, Bool.false_eq_true, if_false]
  rw [e, State.commit_res s f _ cls rs ps fl rfl]
  obtain ⟨hu, hres⟩ := Fibre.res_result f words cls rs ps fl (f.pend ++ pendsOf [(s.run.nextOp + 0, .res cls rs ps fl)]) hr hp
    { f.advance ((OpenGroup.fresh f).add words [.res cls rs ps fl]) with
        pend := f.pend ++ pendsOf [(s.run.nextOp + 0, .res cls rs ps fl)], held := none,
        turn := if f.held.isSome then f.turn else (s.issuedTurn f.uid).turnOf f, since := none, sent := 0 }
    (by simp only [Fibre.advance, OpenGroup.add, OpenGroup.fresh, Nat.zero_add])
  generalize Fibre.apply false _ _ = F at hu hres ⊢
  obtain ⟨h1, h2⟩ := State.occupy_only { (s.issuedTurn f.uid).setFibre F with run := { (s.issuedTurn f.uid).run with nextOp := s.run.nextOp + 1 } } f
    (pipesOf [.res cls rs ps fl])
  refine ⟨⟨F, ?_, hres⟩, ?_, ?_, ?_, ?_⟩
  · rw [h1]
    show (s.setFibre F).fibre? f.uid = some F
    rw [← hu]
    exact State.fibre?_setFibre_same s F (by rw [hu, hf]; rfl)
  · rw [h1]; rfl
  · intro v hv
    rw [h1]
    exact State.fibre?_setFibre_other s F v (by rw [hu]; exact hv)
  · intro h
    rw [h2 h]; rfl
  · rw [h1]; rfl

/-! ### Words (R57, R85) -/

/-- Registers among those of an operand list that passes the checks pass them. -/
theorem Fibre.regFault_mono {f : Fibre} {ds rs ds' rs' : List Opnd} (hd : ds' ⊆ ds) (hr : rs' ⊆ rs) (h : f.beyond (ds ++ rs) = none)
    (k : f.spoiled rs = none) : f.regFault ds' rs' = none := by
  have b : f.beyond (ds' ++ rs') = none := by
    simp only [Fibre.beyond, List.find?_eq_none, List.mem_flatMap] at h ⊢
    rintro r ⟨o, ho, hm⟩
    exact h r ⟨o, List.mem_append.2 ((List.mem_append.1 ho).imp (hd ·) (hr ·)), hm⟩
  have c : f.spoiled rs' = none := by
    simp only [Fibre.spoiled, List.find?_eq_none, List.mem_flatMap] at k ⊢
    rintro r ⟨o, ho, hm⟩
    exact k r ⟨o, hr ho, hm⟩
  simp [Fibre.regFault, b, c]

/-- A word all of whose registers pass the checks passes those that come first. -/
theorem Fibre.firstRegs_ok {f : Fibre} {i : Instr} {pin : Option RegIx} (h : f.beyond (i.dsts ++ i.reads pin) = none)
    (k : f.spoiled (i.reads pin) = none) : f.regFault (firstRegs i pin).1 (firstRegs i pin).2 = none := by
  unfold firstRegs
  split <;> first
    | exact Fibre.regFault_mono (List.nil_subset _) (List.drop_subset _ _) h k
    | exact Fibre.regFault_mono (List.Subset.refl _) (List.Subset.refl _) h k

/-- A word whose own meaning answers effects adds them to its group. -/
theorem State.issueWord_ok {s : State} {f : Fibre} {i : Instr} {g : GuardBits} {chains branch : Bool} {words : Nat}
    {body : Fibre → OpenGroup → WordOut} {fx : List Fx} (h : s.Runs f i g)
    (hv : branch = false ∨ f.voided (s.openGroup f) words = false) (hb : body f (s.openGroup f) = .ok fx) :
    s.issueWord i g chains words branch body = .next (s.adds f chains words fx) := by
  have hv' : (branch && f.voided (s.openGroup f) words) = false := by
    rcases hv with e | e <;> simp [e]
  have hw : wordOut i body f (s.openGroup f) = .ok fx := by
    unfold wordOut
    rw [Fibre.firstRegs_ok h.within h.sound]
    exact hb
  unfold State.issueWord State.adds
  rw [h.issuer]
  simp only [h.guard, hv', Bool.not_true, Bool.or_self, Bool.false_eq_true, if_false, hw, OpenGroup.add]
  split <;> rfl

theorem State.word_ok {α : Type} {s : State} {f : Fibre} {i : Instr} {m : Mods α} {body : Fibre → OpenGroup → WordOut} {fx : List Fx}
    (h : s.Runs f i m.g) (hb : body f (s.openGroup f) = .ok fx) : s.word i m body = .next (s.adds f m.chains m.words fx) :=
  State.issueWord_ok h (.inl rfl) hb

theorem State.plain_ok {s : State} {f : Fibre} {i : Instr} {m : Plain} {body : Fibre → OpenGroup → WordOut} {fx : List Fx}
    (h : s.Runs f i m.g) (hb : body f (s.openGroup f) = .ok fx) : s.plain i m body = .next (s.adds f m.c 1 fx) :=
  State.issueWord_ok h (.inl rfl) hb

/-- A word that writes one result gives it. -/
theorem State.gives_of {s : State} {f : Fibre} {i : Instr} {chains : Bool} {words cls : Nat} {rs : List (Nat × Word)}
    {ps : List (Nat × Bool)} {fl : BitVec 5} (hi : s.issuer = some f) (hr : (rs.map (·.1)).Nodup) (hp : (ps.map (·.1)).Nodup)
    (h : exec i s = .next (s.adds f chains words [.res cls rs ps fl])) : s.Gives f i chains words cls rs ps fl :=
  ⟨h, fun hc hg => by rw [hc]; exact State.adds_wrote s f words cls rs ps fl hi hg hr hp⟩

/-- The registers of one operand are distinct. -/
theorem Fibre.wr_nodup (f : Fibre) (k : RegIx) (ws : List Word) : ((f.wr k ws).map (·.1)).Nodup := by
  unfold Fibre.wr
  rw [List.map_map]
  have e : ((fun x : Nat × Word => x.1) ∘ fun (x : Word × Nat) => (f.abs k + x.2, x.1)) = fun x : Word × Nat => f.abs k + x.2 := rfl
  rw [e, show (fun x : Word × Nat => f.abs k + x.2) = (fun n => f.abs k + n) ∘ Prod.snd from rfl, ← List.map_map,
    List.zipIdx_map_snd]
  exact (List.nodup_range').map (fun a b h => by simpa using h)

end Sys2Proof.Machine
end

