-- ==== Sys2Proof/Tests/Slice0.lean ====
section
/-! SUPPORT. Tests of this row: ill-formed terms the check of an instruction refuses, words written out from the spec's
encoding that decode to the instructions they stand for, and, for every statement with hypotheses, states and operands
that meet them (`witness_<name>`). -/

set_option Elab.async false

open Sys2Proof Sys2Proof.Machine


/-! ### Ill-formed terms are refused (R82, R92, R102), and well-formed ones are not -/

def pl : Plain := ⟨false, 7⟩
def md {α : Type} : Mods α := ⟨false, 7, none⟩
/-- A word with the LIT word `b`, which ends the group. -/
def lt {α : Type} (b : α) : Mods α := ⟨true, 7, some ⟨false, b⟩⟩

theorem test_wf_accepts : (Instr.add md 4 4 2).wf = true ∧ (Instr.barWait (lt ⟨.dev⟩) 3).wf = true ∧ (Instr.trap pl 15).wf = true := by decide
theorem test_wf_lit_needs_chain : (Instr.add ⟨false, 7, some ⟨false, .imm 5⟩⟩ 4 4 0).wf = false := by decide
theorem test_wf_row_needs_lit : (Instr.barWait md 3).wf = false ∧ (Instr.svcCause md).wf = false := by decide
theorem test_wf_form : (Instr.movs pl 5 44).wf = false ∧ (Instr.movw pl 0 3).wf = false := by decide
theorem test_wf_lit_field : (Instr.add (lt (.fields .f32 .wrap 0 0)) 4 4 2).wf = false ∧ (Instr.st (lt ⟨.s32, .acq, .coh, 0, 0⟩) 4 2).wf = false := by decide
theorem test_wf_pair_is_even : (Instr.ld md 4 3).wf = false ∧ (Instr.ld (lt ⟨.b64, .rlx, .fib, 0, 0⟩) 5 2).wf = false := by decide

/-! ### Words written out from the encodings decode to their instructions (Tables 5.1, 5.3, 6.1 to 6.3 and 18.1) -/

theorem test_decode_ialu : decode 0x00482077 none = .ok (.sub md 8 8 7) ∧ decode 0x02861867 none = .ok (.xor md 6 6 6) ∧
    decode 0x80880047 (some 0x7C709000) = .ok (.addc (lt (.fields .n64 .wrap 1 8)) 8 0 4) ∧
    decode 0x83501027 (some 0x7CB12000) = .ok (.sel (lt (.fields .b64 .wrap 2 16)) 16 4 2) := by decide
theorem test_decode_ibit : decode 0x85451877 (some 0x7C601000) = .ok (.bfx (lt (.fields .n32 .wrap 0 8)) 5 6 7) ∧
    decode 0x874A0097 (some 0x7C019400) = .ok (.lea (lt (.fields .s32 .wrap 3 10)) 10 0 9) := by decide
theorem test_decode_idiv : decode 0x0C0E30D7 none = .ok (.div md 14 12 13) ∧
    decode 0x8C0E30D7 (some 0x7C081C00) = .ok (.div (lt (.fields .s32 .trap 0 14)) 14 12 13) := by decide
theorem test_decode_float : decode 0x90010837 (some 0x7D000001) = .ok (.fadd (lt (.fields .bf16 .s32 .rne .none false 0 1)) 1 2 3) ∧
    decode 0x91020427 (some 0x7CD00082) = .ok (.fcmp (lt (.fields .f32 .s32 .rne .none false 2 2)) 2 1 2) ∧
    decode 0x1C4A2097 none = .ok (.fdot4 md 10 8 9) ∧ decode 0x20041887 none = .ok (.faddF64 md 4 6 8) ∧
    decode 0x98051807 (some 0x7C069005) = .ok (.fcvt (lt (.fields .s32 .f32 .rz .none false 0 5)) 5 6) ∧
    decode 0x24820C07 none = .ok (.fsqrt md 2 3) := by decide
theorem test_decode_memory : decode 0x28450807 none = .ok (.ldh md 5 2) ∧ decode 0x28C00807 none = .ok (.pref md 2) ∧
    decode 0x2C002077 none = .ok (.st md 8 7) ∧ decode 0xAC003877 (some 0x7C088004) = .ok (.st (lt ⟨.s32, .rel, .coh, 0, 4⟩) 14 7) ∧
    decode 0xB1D10877 (some 0x7C0C8000) = .ok (.atomCas (lt ⟨.s32, .ar, .coh, 0, 0⟩) 17 2 7) ∧
    decode 0xB2850847 (some 0x7DA1C000) = .ok (.atomFadd (lt ⟨.f32, .rlx, .dev, 0, 0⟩) 5 2 4) := by decide
theorem test_decode_stash : decode 0x340F1807 none = .ok (.lds md 15 6) ∧ decode 0xB4805047 (some 0x7C080000) = .ok (.smap (lt ⟨.s32, 1, 0⟩) 20 4) ∧
    decode 0x35825007 none = .ok (.tfe md 2 20) ∧ decode 0x38000007 none = .ok (.fence md) ∧
    decode 0xB8000007 (some 0x7D100000) = .ok (.fence (lt ⟨.rel, .coh⟩)) := by decide
theorem test_decode_group : decode 0xC0C91007 none = .ok (.mtch ⟨true, 7, none⟩ 9 4 0) ∧
    decode 0xC04C1007 (some 0x7C002800) = .ok (.redu (lt ⟨.all, 5, .w32, .rne, .none⟩) 12 4 0) ∧ decode 0x41800007 none = .ok (.jarr pl 0) ∧
    decode 0xC1C10C07 (some 0x7C003800) = .ok (.jmsk (lt ⟨.all, 7, .w32, .rne, .none⟩) 1 3) := by decide
theorem test_decode_branch : decode 0x443FFFD9 none = .ok (.br ⟨false, 9⟩ 0x3FFFD) ∧
    decode 0xC44003C7 (some 0x7C400000) = .ok (.call (lt ⟨2⟩) 60) ∧ decode 0x44800007 none = .ok (.ret pl) ∧
    decode 0x44C00C07 none = .ok (.jt pl 0 3) := by decide
theorem test_decode_flow : decode 0x48000007 none = .ok (.exit pl) ∧ decode 0x4940000F none = .ok (.nop ⟨false, 15⟩) ∧
    decode 0xC9030007 (some 0x7DD00000) = .ok (.barWait (lt ⟨.dev⟩) 3) ∧ decode 0xC9800007 (some 0x7C0003E8) = .ok (.sleep (lt ⟨1000⟩)) ∧
    decode 0xC8C00007 (some 0x7CFC0FFF) = .ok (.waitc (lt ⟨63, 0, 63, 63⟩)) := by decide
theorem test_decode_spawn : decode 0xCC052007 (some 0x7C47FFAB) = .ok (.spawn (lt ⟨0, 4, false, 0x7FFAB⟩) 5 8 0) ∧
    decode 0x4C802007 none = .ok (.jwait pl 8) ∧ decode 0x4D4E0007 none = .ok (.kcap pl 14) ∧ decode 0x4D035007 none = .ok (.unwatch pl 3 20) := by
  decide
theorem test_decode_tile : decode 0x50003807 none = .ok (.mtc md 0 14) ∧ decode 0x50800017 none = .ok (.tzeroAcc md 0) ∧
    decode 0x521C01B7 none = .ok (.tacc md 28 0 27) ∧ decode 0x52460417 none = .ok (.tstatBarrier md 6 1) ∧
    decode 0x54051097 none = .ok (.tgat md 5 4 9) ∧ decode 0xD1400007 (some 0x7E1000A0) = .ok (.tmma (lt ⟨true, 1, 0, 160⟩)) := by decide
theorem test_decode_copy : decode 0xD8133007 (some 0x7E080000) = .ok (.cpyTile (lt ⟨true, 0, 2, 0⟩) 3 12) ∧
    decode 0x584010C7 none = .ok (.cpyl md 0 4 12) ∧ decode 0x58DA0007 none = .ok (.cwpt md 26) ∧
    decode 0xD9004007 (some 0x7E300000) = .ok (.coll (lt ⟨true, 3, 0, 0⟩) 16) := by decide
theorem test_decode_system : decode 0x5C000007 none = .ok (.rpmark pl) ∧ decode 0x60048807 none = .ok (.movs pl 4 34) ∧
    decode 0x60611007 none = .ok (.movw pl 33 4) ∧ decode 0xE0C00007 (some 0x7DC00001) = .ok (.svcRecord (lt ⟨.dev, 1⟩)) ∧
    decode 0x61000007 none = .ok (.tret pl) ∧ decode 0xE1401007 (some 0x7D400000) = .ok (.tlbi (lt ⟨.die, 0⟩) 4) ∧
    decode 0xF8030C07 none = .ok (.rep ⟨true, 7⟩ 3 3) := by decide
theorem test_decode_refuses : decode 0x07800007 none = .error (.word 1) ∧ decode 0x68000007 none = .error (.word 26) ∧
    decode 0x83831017 none = .error (.word 0) ∧ decode 0xFFFFFFFF none = .error (.word 31) ∧ decode 0x6001B007 none = .error (.word 24) := by decide

/-! ### Small states: the state after power-on with one fibre that issues, and changes of it -/

namespace Sys2Proof.Machine

def st0 : State := State.reset.withFetchWord 96 0
/-- The fibre that issues. -/
def State.fib (s : State) : Fibre := s.issuer.getD default
/-- The state with its issuing fibre changed. -/
def State.fibreIs (s : State) (g : Fibre → Fibre) : State := s.setFibre (g s.fib)
/-- Registers of a fibre set. -/
def Fibre.holds (f : Fibre) (l : List (Nat × Word)) : Fibre :=
  { f with arch := { f.arch with regs := l.foldl (fun rs x => rs.set x.1 x.2) f.arch.regs } }
def stRegs (l : List (Nat × Word)) : State := st0.fibreIs (·.holds l)

/-- `State.Runs` as a check. -/
def runsB (s : State) (i : Instr) (g : GuardBits) : Bool :=
  s.issuer.isSome && s.fib.guard g && decide (s.fib.beyond (i.dsts ++ i.reads (s.openGroup s.fib).pin) = none)
    && decide (s.fib.spoiled (i.reads (s.openGroup s.fib).pin) = none)
theorem runs_of {s : State} {i : Instr} {g : GuardBits} (h : runsB s i g = true) : s.Runs s.fib i g := by
  simp only [runsB, Bool.and_eq_true, decide_eq_true_eq] at h
  refine ⟨?_, h.1.1.2, h.1.2, h.2⟩
  obtain ⟨f, hf⟩ := Option.isSome_iff_exists.mp h.1.1.1
  simp [State.fib, hf]
theorem runs_all {s : State} {g : GuardBits} {l : List Instr} (h : l.all (runsB s · g) = true) : ∀ i ∈ l, s.Runs s.fib i g :=
  fun i hi => runs_of (List.all_eq_true.1 h i hi)

end Sys2Proof.Machine

/-! ### The hypotheses of the statements are met: arithmetic words

Where a statement speaks of a word alone in its group, the state has no open group and the word ends its group. -/

theorem witness_alone : st0.run.group = none ∧ (md : Mods LitInt).chains = false ∧ (md : Mods LitFlt).chains = false ∧
    (md : Mods LitMem).chains = false ∧ pl.c = false := by decide +kernel

theorem witness_IaluWordsWriteTheirResult :
    ∀ i ∈ [Instr.add md 4 4 2, .sub md 255 0 63, .neg md 4 5, .abs md 4 5, .min md 4 4 5, .max md 4 4 5, .and md 4 5 6, .or md 4 5 6, .xor md 4 5 6,
      .andn md 4 5 6, .orn md 4 5 6, .sel (lt (.fields .s64 .sat 7 4)) 4 6 8, .mov md 0 63], st0.Runs st0.fib i 7 := runs_all (by decide +kernel)

theorem witness_CarryAndCompareWordsWriteTheirResult :
    (∀ i ∈ [Instr.addc md 4 4 2, .subb md 4 4 2], st0.Runs st0.fib i 7) ∧
    ∀ k : BitVec 3, k.toNat ≤ 5 → st0.Runs st0.fib (.cmp (lt (.fields .s32 .wrap k 1)) 1 4 5) 7 ∧
      ((lt (LitInt.fields .s32 .wrap k 1)).body (.dflt (predField 1))).sel = k :=
  ⟨runs_all (by decide +kernel), fun k hk => ⟨runs_of (by revert hk; revert k; decide +kernel), rfl⟩⟩

theorem witness_ShiftFieldAndCountWordsWriteTheirResult :
    (∀ i ∈ [Instr.shl md 4 4 2, .shr md 4 4 2, .sar md 4 4 2, .rotl md 4 4 2, .fsh md 4 5 6, .fsh (lt (.fields .n32 .wrap 1 6)) 4 5 6, .bfx md 4 5 6,
      .bfi md 4 5 6, .popc md 4 5, .clz md 4 5, .ctz md 4 5, .brev md 4 5], (stRegs [(5, 8)]).Runs (stRegs [(5, 8)]).fib i 7) ∧
    ((md : Mods LitInt).body (.dflt 4)).sel = 0 ∧ ((lt (LitInt.fields .n32 .wrap 1 6)).body (.dflt 4)).sel = 1 ∧
    (stRegs [(5, 8)]).fib.raw 5 .s32 = 8 ∧ Nat.testBit 8 3 = true ∧ (∀ j, j < 3 → Nat.testBit 8 j = false) ∧
    (stRegs [(5, 8)]).fib.raw 6 .s32 = 0 ∧ (∀ i, i < 32 → Nat.testBit (2 ^ 28) i = Nat.testBit 8 (31 - i)) :=
  ⟨runs_all (by decide +kernel), by decide +kernel, by decide +kernel, by decide +kernel, by decide +kernel, by decide +kernel, by decide +kernel, by decide +kernel⟩

theorem witness_PermuteTableAndAddressWordsWriteTheirResult :
    (∀ i ∈ [Instr.bprm md 4 5 6, .plog md 4 5 6, .lea md 10 0 9], st0.Runs st0.fib i 7) ∧
    (∀ k, k < 4 → 0 / 2 ^ (8 * k) % 256 = if (st0.fib.V 4).toNat / 2 ^ (4 * k) % 16 < 8 then 0 else 255) ∧
    (∀ i, i < 32 → Nat.testBit 0 i = ((st0.fib.V 4).toNat % 256).testBit 0) := ⟨runs_all (by decide +kernel), by decide +kernel, by decide +kernel⟩

theorem witness_MultiplyWordsWriteTheirResult :
    ∀ i ∈ [Instr.mul md 4 5 6, .mulh md 4 5 6, .mad md 4 5 6, .madh md 4 5 6, .idp4 md 3 1 2], st0.Runs st0.fib i 7 := runs_all (by decide +kernel)

/-- A dividend of −2^31 and a divisor of −1 in v12 and v13, and a zero in v14. -/
def stDiv : State := stRegs [(12, 0x80000000), (13, 0xFFFFFFFF)]
theorem witness_DivideWordsWriteOrTrap :
    (∀ i ∈ [Instr.div md 14 12 13, .rem md 14 12 13, .div (lt (.fields .s32 .trap 0 14)) 15 12 14, .div (lt (.fields .s32 .trap 0 14)) 15 12 13,
      .rem (lt (.fields .s32 .trap 0 14)) 15 12 14], stDiv.Runs stDiv.fib i 7) ∧
    ((lt (LitInt.fields .s32 .trap 0 14)).body (.dflt 15)).ovf = .trap ∧ ((md : Mods LitInt).body (.dflt 14)).ovf ≠ .trap ∧
    stDiv.fib.bsrc (.fields .s32 .trap 0 14) 14 = 0 ∧ stDiv.fib.bsrc (.fields .s32 .trap 0 14) 13 = -1 ∧
    Ty.s32.maxVal < Int.tdiv (stDiv.fib.rd 12 .s32) (-1) := ⟨runs_all (by decide +kernel), by decide +kernel, by decide +kernel, by decide +kernel, by decide +kernel, by decide +kernel⟩

theorem witness_SumsAndProductsRoundOnce :
    ∀ i ∈ [Instr.fadd md 4 5 6, .fsub md 4 5 6, .fmul md 4 5 6, .ffma md 4 5 6, .faddF64 md 4 6 8, .fsubF64 md 4 6 8, .fmulF64 md 4 6 8,
      .ffmaF64 md 4 6 8], st0.Runs st0.fib i 7 := runs_all (by decide +kernel)

theorem witness_ScaleExtremeAndClassWords :
    ∀ i ∈ [Instr.fscl md 4 5 6, .fmin md 4 5 6, .fmax md 4 5 6, .fcls md 4 5, .fminF64 md 4 6 8, .fmaxF64 md 4 6 8], st0.Runs st0.fib i 7 :=
  runs_all (by decide +kernel)

/-- Numbers, an infinity and a NaN: v6 1.0, v7 +∞, v8 a quiet NaN, v9 −1.0, v10 2^31, v11 −2^31 − 2^8. -/
def stFlt : State := stRegs [(6, 0x3F800000), (7, 0x7F800000), (8, 0x7FC00000), (9, 0xBF800000), (10, 0x4F000000), (11, 0xCF000001)]

theorem witness_FloatCompareWritesOnePredicate :
    (∀ i ∈ [Instr.fcmp md 1 6 8, .fcmp md 1 6 9, .fcmpF64 md 1 6 8], stFlt.Runs stFlt.fib i 7) ∧
    (stFlt.fib.elA ((md : Mods LitFlt).body (.dflt .f32 .s32 1)) .f32 8 0).isNan = true ∧
    (stFlt.fib.elA ((md : Mods LitFlt).body (.dflt .f32 .s32 1)) .f32 6 0).isNan = false ∧
    ((lt (LitFlt.fields .f32 .s32 .rne .none false 7 1)).body (.dflt .f32 .s32 1)).sel = 7 := ⟨runs_all (by decide +kernel), by decide +kernel, by decide +kernel, by decide +kernel⟩

theorem witness_ConversionWordsRoundOnce :
    let cv (t st : Ty) (rnd : Rnd) : Mods LitFlt := lt (.fields t st rnd .none false 0 5)
    let src (a : RegIx) : FVal := Ty.f32.fmt.decode (stFlt.fib.raw a .f32)
    (∀ i ∈ [Instr.fcvt (cv .f32 .s32 .rne) 5 6, .fcvt (cv .h16 .f32 .rne) 5 6, .fcvt (cv .f32 .e4m3 .rne) 5 6, .fcvt (cv .s32 .f32 .rz) 5 6,
      .fcvt (cv .s32 .f32 .rz) 5 7, .fcvt (cv .s32 .f32 .rz) 5 8, .fcvt (cv .s32 .f32 .rz) 5 10, .fcvt (cv .s32 .f32 .rz) 5 11,
      .fcvt (cv .e4m3 .f32 .rs) 5 6, .frnd md 5 6], stFlt.Runs stFlt.fib i 7) ∧
    (∀ x ∈ [(Ty.s32, Ty.f32), (.f32, .h16), (.e4m3, .f32), (.f32, .s32), (.f32, .e4m3)], cvtPair x.1 x.2 0 = true ∧ cvtBlock x.1 x.2 0 = false) ∧
    (src 8).isNan = true ∧ src 7 = .inf false ∧ (src 6).isFin = true ∧ (src 10).isFin = true ∧ (src 11).isFin = true ∧
    Ty.s32.maxVal < Rnd.rz.toInt (src 10).num ∧ Rnd.rz.toInt (src 11).num < Ty.s32.minVal ∧
    (Ty.s32.minVal ≤ Rnd.rz.toInt (src 6).num ∧ Rnd.rz.toInt (src 6).num ≤ Ty.s32.maxVal) := by
  refine ⟨runs_all (by decide +kernel), by decide +kernel, by decide +kernel, by decide +kernel, by decide +kernel, by decide +kernel, by decide +kernel, ?_, ?_, ?_⟩
  · decide +kernel
  · decide +kernel
  · decide +kernel

theorem witness_blocks :
    (∀ i ∈ [Instr.fcvt (lt (.fields .e4m3 .f32 .rne .none false 1 20)) 16 20, .fcvt (lt (.fields .f32 .e4m3 .rne .none false 1 20)) 24 20],
      st0.Runs st0.fib i 7) ∧ cvtBlock .f32 .e4m3 1 = true ∧ cvtBlock .e4m3 .f32 1 = true ∧ cvtBlock .f32 .nl4 2 = true :=
  ⟨runs_all (by decide +kernel), by decide +kernel, by decide +kernel, by decide +kernel⟩

theorem witness_DotWordsRoundTheExactSum :
    (∀ i ∈ [Instr.fdot2 md 10 6 7, .fdot4 md 10 6 7], stFlt.Runs stFlt.fib i 7) ∧ ((md : Mods LitFlt).body (.dflt .f32 .bf16 10)).stype .bf16 = .bf16 ∧
    Ty.bf16.lanes = 2 := ⟨runs_all (by decide +kernel), by decide +kernel, by decide +kernel⟩

theorem witness_SfuWordsWriteTheirResult :
    ∀ i ∈ [Instr.frcp md 4 5, .fdiv md 4 5 6, .fsqrt md 4 5, .frsq md 4 5, .fex2 md 4 5, .flg2 md 4 5, .fsin md 4 5, .fcos md 4 5, .ftnh md 4 5],
      st0.Runs st0.fib i 7 := runs_all (by decide +kernel)

/-! ### Memory, stash, cross-lane and control words -/

namespace Sys2Proof.Machine

/-- Translations that hearth 0 holds: pages of 2 MiB at 0 (read, write, execute), at 2^21 (read only) and at 2^22 (system). -/
def tlb3 : List TlbEntry :=
  [{ ctx := 1, va := 0, size := 2 ^ 21, pa := 0x400000, rd := true, wr := true, ex := true, sys := false, dirty := true, emb := false },
   { ctx := 1, va := 2 ^ 21, size := 2 ^ 21, pa := 0x600000, rd := true, wr := false, ex := false, sys := false, dirty := false, emb := false },
   { ctx := 1, va := 2 ^ 22, size := 2 ^ 21, pa := 0x800000, rd := true, wr := true, ex := false, sys := true, dirty := true, emb := false }]

/-- The bytes of the code space that the launch's code base, 4096, gives a meaning: directory entry 0 of a jump table (2 targets at offset 64),
its second target, 7, and the entry of PC 5 with 32 registers in the entry directory. -/
def code3 : Memory := [(0x400A00, 32), (0x400A04, 5), (0x400E00, 2), (0x400E04, 64), (0x401044, 7)]

/-- The state with those translations and that code, an engine's lock on bytes 128 to 255 of context 1, and registers set. -/
def stMem (l : List (Nat × Word)) : State :=
  let s := stRegs l
  { s with
    mem := code3
    slots := s.slots.map fun (x : LaunchSlot) => { x with code := code3 }
    hearths := [{ Hearth.fresh s 0 with tlb := tlb3, locks := [⟨9, 1, 0, 128, 256, true⟩] }] }

/-- Code bytes that no store has changed since the launch's start are what they are. -/
theorem code_same_of {s : State} {l : LaunchSlot} {place pa n : Nat} {bs : List Byte} (h : s.targetBytes l.node (.dev pa) n = bs)
    (k : Memory.bytes l.code pa n = bs) : s.codeBytesOf l place pa n = bs := by
  unfold State.codeBytesOf
  split
  · exact h
  · exact k

theorem code_same {s : State} {l : LaunchSlot} {pa n : Nat} {bs : List Byte} (h : s.targetBytes l.node (.dev pa) n = bs)
    (k : Memory.bytes l.code pa n = bs) : s.codeBytes l pa n = bs := code_same_of h k

end Sys2Proof.Machine

/-- v2:3 the address 64, v4:5 the address 2^21, v6:7 an odd address, v8:9 the address 2^22, v10:11 an unmapped one, v12:13 a locked one. -/
def stM : State := stMem [(2, 64), (4, 0x200000), (6, 65), (8, 0x400000), (10, 0x10000000), (12, 128)]

theorem witness_MemoryWordsSendTheirAccess :
    (∀ i ∈ [Instr.ld md 14 2, .ldh md 14 2, .chkh md 14 2, .pref md 2, .st md 2 14, .atomAdd md 14 2 15, .atomMin md 14 2 15, .atomMax md 14 2 15,
      .atomAnd md 14 2 15, .atomOr md 14 2 15, .atomXor md 14 2 15, .atomXch md 14 2 15, .atomCas md 14 2 15,
      .atomIncw (lt ⟨.n32, .rlx, .dev, 0, 0⟩) 14 2 15, .atomDecw (lt ⟨.n32, .rlx, .dev, 0, 0⟩) 14 2 15,
      .atomFadd (lt ⟨.f32, .ar, .dev, 0, 0⟩) 14 2 15, .st (lt ⟨.s32, .rel, .coh, 0, 0⟩) 2 14], stM.Runs stM.fib i 7) ∧
    stM.Passes stM.fib ⟨0, 64⟩ 4 false (.dev 0x400040) ∧ stM.Passes stM.fib ⟨0, 64⟩ 4 true (.dev 0x400040) ∧
    stM.Passes stM.fib ⟨0, 0x200000⟩ 4 false (.dev 0x600000) ∧ stM.fib.VP 2 = 64 ∧
    stM.hoistValid stM.fib (stM.fib.abs 14) ⟨0, 64⟩ 4 = false ∧
    (let s := stM.fibreIs fun f => { f with hoist := [⟨14, ⟨0, 64⟩, 4, .dev 0x400040, 512⟩] }
     s.Runs s.fib (.chkh md 14 2) 7 ∧ s.hoistValid s.fib (s.fib.abs 14) ⟨0, 64⟩ 4 = true) := by
  refine ⟨runs_all (by decide +kernel), ⟨?_, ?_, ?_, ?_⟩, ⟨?_, ?_, ?_, ?_⟩, ⟨?_, ?_, ?_, ?_⟩, ?_, ?_, runs_of ?_, ?_⟩ <;> decide +kernel

theorem witness_MemoryWordsTrapInOrder :
    let at' (a : DWord) (w : Bool) := stM.translate (stM.hearthOf stM.fib) (stM.ctxOf stM.fib) w.toNat ⟨0, a⟩ a
    let s := stM.fibreIs fun f => { f with arch := { f.arch with spaces := [0xC000, 1, 0, 0] } }
    (∀ i ∈ [Instr.ld md 14 6, .ldh md 14 8, .st md 4 14, .st md 12 14, .atomAdd md 14 8 15, .chkh md 14 8], stM.Runs stM.fib i 7) ∧
    s.Runs s.fib (.ld md 14 2) 7 ∧
    s.spaceFault (s.ctxOf s.fib) 0xC000 = some (mkCause 3 8) ∧ s.spaceFault (s.ctxOf s.fib) 1 = some (mkCause 3 8) ∧
    stM.spaceFault (stM.ctxOf stM.fib) 0 = none ∧ stM.fib.VP 6 = 65 ∧ (65 : DWord).toNat % 4 ≠ 0 ∧
    stM.lockMeets stM.fib ⟨0, 252⟩ 4 true = true ∧ stM.lockMeets stM.fib ⟨0, 256⟩ 4 true = false ∧ stM.lockMeets stM.fib ⟨0, 124⟩ 4 true = false ∧
    at' 0x200000 true = .fault (mkCause 5 3) 0x200000 ∧ at' 0x400000 false = .fault (mkCause 5 5) 0x400000 ∧
    stM.hoistValid stM.fib (stM.fib.abs 14) ⟨0, 0x400000⟩ 4 = false := by
  refine ⟨runs_all (by decide +kernel), runs_of (by decide +kernel), ?_⟩
  decide +kernel

theorem witness_RelaxedAccessStandsInFlight :
    let r (k : MemKind) : MemReq := { kind := k, addr := ⟨0, 64⟩, target := .dev 0x400040, ty := .s32, dst := 14, data := 5, expect := 0, acq := none,
                                      hoist := false }
    stM.issuer = some stM.fib ∧ stM.run.group = none ∧ (r .load).target = .dev 0x400040 ∧ (r .load).acq = none ∧ (r .store).kind = .store ∧
    stM.fib.order = none ∧ stM.acquiring stM.fib = false := by
  decide +kernel

/-- Line 0 full, line 1 mapped and not filled, line 2 mapped and filled, line 3 poisoned and full; v16 byte 8 of line 0, v17 byte 8 of line 3,
v18 the range of line 5, v19 an empty range bit with line 5, v20:21 the address 128. -/
def stS : State :=
  (stMem [(16, 8), (17, 392), (18, 640), (19, 0x80280), (20, 128)]).updCohort 0 fun c =>
    { c with lines := [{ StashLine.region 0 with full := true }, { StashLine.region 1 with mapped := some ⟨0, 64⟩ },
        { StashLine.region 2 with full := true, mapped := some ⟨0, 128⟩, expiry := 1 }, { StashLine.region 3 with full := true, poison := true }] }

theorem witness_StashAndFenceWordsIssue :
    let c := stS.cohortOf stS.fib
    let g (t : Word) : Prop := t.toNat / 2 ^ 20 < 3072 ∧ (t.toNat % 2 ^ 19) % 128 = 0 ∧ (t.toNat % 2 ^ 19) / 128 + (t.toNat / 2 ^ 20 + 1) ≤ c.decl.lines
    (∀ i ∈ [Instr.lds md 14 16, .lds md 14 17, .sts md 16 14, .smap md 18 20, .sumap md 18, .sflush md 18, .sfe md 19, .tfe md 2 19, .fence md,
      .fence (lt ⟨.rel, .coh⟩)], stS.Runs stS.fib i 7) ∧
    stS.fib.V 16 = 8 ∧ 8 + 4 ≤ 128 * c.decl.lines ∧ (c.line 0).mapped.isSome = false ∧ (c.line 0).poison = false ∧
    stS.fib.V 17 = 392 ∧ (c.line (392 / 128)).poison = true ∧ (c.line (392 / 128)).mapped.isSome = false ∧
    (c.line 2).mapped.isSome = true ∧ (c.line 2).filled (stS.cohortTime c) = true ∧
    (stS.fib.V 18 = 640 ∧ g 640 ∧ (640 : Word).getLsbD 19 = false) ∧ (stS.fib.V 19 = 0x80280 ∧ g 0x80280 ∧ (0x80280 : Word).getLsbD 19 = true) ∧
    stS.spaceFault (stS.ctxOf stS.fib) 0 = none ∧ stS.fib.VP 20 = 128 ∧
    c.mappedAfter (stS.openGroup stS.fib).fx 5 = false ∧ stS.engineDests stS.fib.cohort = [] := by
  refine ⟨runs_all (by decide +kernel), ?_⟩
  decide +kernel

theorem witness_StashAccessReadsAndWritesItsBytes :
    stS.issuer = some stS.fib ∧ stS.run.group = none ∧ (∃ c, stS.cohort? stS.fib.cohort = some c ∧ (c.line (8 / 128)).mapped = none ∧
      (c.line (8 / 128)).full = true) ∧ ((stS.cohortOf stS.fib).line (8 / 128)).poison = false ∧ stS.fib.exited = false ∧ stS.fib.order = none ∧ stS.acquiring stS.fib = false ∧
    stS.fib.pend = [] ∧ 0 < Ty.s32.bits :=
  ⟨by decide +kernel, by decide +kernel, ⟨stS.cohortOf stS.fib, by decide +kernel, by decide +kernel, by decide +kernel⟩, by decide +kernel,
    by decide +kernel, by decide +kernel, by decide +kernel, by decide +kernel, by decide⟩

/-- v20 a mask with the caller's bit, v21 one without it. -/
def stX : State := stRegs [(20, 1), (21, 2)]
theorem witness_CrossLaneWordsPresent :
    (∀ i ∈ [Instr.shfl md 4 5 6, .bcst md 4 5 6, .vote md 2 3 0, .redu md 4 5 0, .scan md 4 5 0, .mtch md 4 5 0, .elect md 2, .rdv md 4, .jmsk md 1 5,
      .jarr pl 1, .elect (lt ⟨.reg 20, 5, .w32, .rne, .none⟩) 2, .elect (lt ⟨.reg 21, 5, .w32, .rne, .none⟩) 2,
      .shfl (lt ⟨.reg 21, 5, .w32, 0, 7, false⟩) 4 5 6], stX.Runs stX.fib i 7) ∧
    ((md : Mods LitXl).body .dflt).set = .all ∧ ((md : Mods LitGrp).body .dflt).set = .all ∧
    (stX.fib.V 20).getLsbD stX.fib.vlane = true ∧ (stX.fib.V 21).getLsbD stX.fib.vlane = false := by
  refine ⟨runs_all (by decide +kernel), ?_⟩
  decide +kernel

/-- The crew of the fibre has one open rendezvous, of the fibre alone; one that awaits it too and holds another; one that failed. -/
def rdv3 (kind : RdvKind) (uid : Nat) (failed : Bool) : Rdv :=
  { tag := 5, since := 0, failed := failed, members :=
      [{ uid := uid, name := 0, vlane := 0, kind := kind, set := .all, mask := 0, width := 32, opnd := 9, pred := true, idx := 0, dst := 4, pdst := 2,
         addr := ⟨0, 0⟩, pc := 0, next := 1 }] }
def stR (r : Rdv) : State := stX.updCrew stX.fib.cohort stX.fib.crew fun w => { w with rdvs := [r] }
theorem witness_rendezvous :
    (∀ r ∈ [rdv3 .elect stX.fib.uid false, rdv3 (.jmsk 1 7) stX.fib.uid false, rdv3 .elect (stX.fib.uid + 1) false, rdv3 .rdv stX.fib.uid true],
      let s := stR r
      let co := s.cohortOf stX.fib
      s.cohort? co.uid = some co ∧ (co.crew? stX.fib.crew).map (·.rdvs) = some [r] ∧ r.tag ≠ 256 ∧ r.members ≠ [] ∧
      (s.cohorts.map (·.uid)).Nodup ∧ (co.crews.map (·.number)).Nodup ∧ (r.members.map (·.uid)).Nodup ∧ (∀ p ∈ r.members, 0 < p.width) ∧
      stX.fib.vlane < 32 ∧ (1 : Nat) < ((co.crew? stX.fib.crew).getD default).masks.length ∧
      s.rdvWhole co.uid stX.fib.crew r = (r.members.map (·.uid) == [stX.fib.uid])) := by decide +kernel

/-- %wbase 16 under a link of slide 2 in v15 to PC 42; v5 holds 1. -/
def stB : State := (stMem [(15, 0x1000002A), (21, 1)]).fibreIs fun f => { f with arch := { f.arch with wbase := 16 } }
theorem witness_BranchWordsTransfer :
    (∀ i ∈ [Instr.br pl 5, .br pl 0, .call (lt ⟨28⟩) 5, .call (lt ⟨1⟩) 5, .ret pl, .jt pl 0 5], stB.Runs stB.fib i 7) ∧
    stB.fib.voided (stB.openGroup stB.fib) 1 = false ∧ stB.fib.voided (stB.openGroup stB.fib) 2 = false ∧
    16 + 8 * (28 : BitVec 5).toNat + 8 ≤ 256 ∧ stB.fib.nextPc (stB.openGroup stB.fib) < 2 ^ 27 ∧
    (stB.fib.arch.wbase = 16 ∧ stB.fib.badRegs = [] ∧ (stB.fib.arch.regs.getD 15 0).toNat / 2 ^ 27 = 2) ∧
    stB.codeAt stB.fib 0 (4096 - 512 + 8 * 0) 8 = .found 0x400E00 ∧ stB.codeAt stB.fib 0 (4096 + 64 + 4 * 1) 4 = .found 0x401044 ∧
    (let e := leNat (stB.codeBytes (stB.slotOf stB.fib) 0x400E00 8)
     e / 2 ^ 13 % 2 ^ 19 = 0 ∧ (stB.fib.V 5).toNat < e % 2 ^ 13 ∧ e % 2 ^ 13 ≤ 4096 ∧ e / 2 ^ 32 % 4 = 0 ∧ e / 2 ^ 32 = 64) := by
  refine ⟨runs_all (by decide +kernel), by decide +kernel, by decide +kernel, by decide, by decide +kernel, by decide +kernel, by decide +kernel,
    by decide +kernel, ?_⟩
  have h : stB.codeBytes (stB.slotOf stB.fib) 0x400E00 8 = [2, 0, 0, 0, 64, 0, 0, 0] := code_same (by decide +kernel) (by decide +kernel)
  rw [h]
  decide +kernel

theorem witness_BranchWordsTrap :
    let s := stRegs []
    let t := stB.fibreIs fun f => { f with badRegs := [15] }
    let u := (stMem []).fibreIs fun f => { f with arch := { f.arch with wbase := 16 } }
    let far := st0.fibreIs fun f => { f with arch := { f.arch with pc := 0x7FFFFFF }, ibuf := some (placePacket 0x7FFFFFF 0) }
    (∀ i ∈ [Instr.br pl 0x3FFFF, .call (lt ⟨31⟩) 0x3FFFF, .ret pl], s.Runs s.fib i 7) ∧ s.fib.voided (s.openGroup s.fib) 1 = false ∧
    (0 : Int) + (0x3FFFF : BitVec 18).toInt < 0 ∧ s.fib.arch.wbase = 0 ∧ 0 + 8 * (31 : BitVec 5).toNat + 8 ≤ s.fib.arch.regs.length ∧
    stB.Runs stB.fib (.call (lt ⟨31⟩) 5) 7 ∧ stB.fib.arch.regs.length < stB.fib.arch.wbase + 8 * 31 + 8 ∧
    far.Runs far.fib (.call (lt ⟨1⟩) 5) 7 ∧ 2 ^ 27 ≤ far.fib.nextPc (far.openGroup far.fib) ∧
    t.Runs t.fib (.ret pl) 7 ∧ t.fib.badRegs.contains (t.fib.arch.wbase - 1) = true ∧
    u.Runs u.fib (.ret pl) 7 ∧ 0 < u.fib.arch.wbase ∧ u.fib.badRegs.contains 15 = false ∧ (u.fib.arch.regs.getD 15 0).toNat / 2 ^ 27 = 0 := by
  refine ⟨runs_all (by decide +kernel), by decide +kernel, by decide, by decide +kernel, by decide +kernel, runs_of (by decide +kernel), by decide +kernel,
    runs_of (by decide +kernel), by decide +kernel, runs_of (by decide +kernel), by decide +kernel, runs_of (by decide +kernel), by decide +kernel,
    by decide +kernel, by decide +kernel⟩

theorem witness_FlowWordsIssue :
    (∀ i ∈ [Instr.nop pl, .waitc md, .yield pl, .sleep md, .sleep (lt ⟨0x3FFFFFF⟩), .exit pl], st0.Runs st0.fib i 7) ∧
    ((md : Mods LitSleep).body .dflt).ns = 0 ∧ 0 < ((lt (LitSleep.mk 0x3FFFFFF)).body .dflt).ns.toNat ∧ pl.c = false := by
  refine ⟨runs_all (by decide +kernel), ?_⟩
  decide

theorem witness_TrapWordRaisesItsCause :
    (∀ i ∈ [Instr.trap pl 0, .trap pl 15], st0.Runs st0.fib i 7) ∧ 1 ≤ 3 := ⟨runs_all (by decide +kernel), by decide⟩

/-- A launch that is resident as a whole. -/
def stRes : State := { st0 with slots := st0.slots.map fun (x : LaunchSlot) => { x with resident := true } }
def stResFull : State := { stRes with devBars := (List.range 64).map fun n => ⟨5, n, 0, [], [], []⟩ }
/-- A cohort of 4 barriers with a pending 2^31 − 2 bytes on barrier 3, v5 holding 1, v6 holding 2. -/
def stBar : State := (stRegs [(5, 1), (6, 2)]).updCohort 0 fun c =>
  { c with decl := { c.decl with bars := 4 }, bars := [{ Barrier.fresh 3 with pend := 2147483646 }] }

theorem witness_BarrierWordsIssueOrTrap :
    let dev : Mods LitBar := lt ⟨.dev⟩
    let b (s : State) : Bool := [Instr.bar dev 3, .barArrive dev 3, .barWait dev 3].all (runsB s · 7)
    (∀ i ∈ [Instr.bar md 3, .barArrive (lt ⟨.coh⟩) 3, .barWait (lt ⟨.coh⟩) 3, .bar md 4, .barArrive (lt ⟨.coh⟩) 4, .barWait (lt ⟨.coh⟩) 4, .barExpect md 4 5,
      .barExpect md 3 5, .barExpect md 3 6], stBar.Runs stBar.fib i 7) ∧
    b st0 ∧ b stRes ∧ b stResFull ∧
    ((md : Mods LitBar).body .dflt).scope ≠ .dev ∧ (dev.body .dflt).scope = .dev ∧ (stBar.cohortOf stBar.fib).decl.bars = 4 ∧
    (st0.cohortOf st0.fib).decl.bars = 32 ∧ (st0.slot 0).resident = false ∧ (stRes.slot 0).resident = true ∧ (stResFull.slot 0).resident = true ∧
    stResFull.devBar? 0 3 = none ∧ 64 ≤ stResFull.devBars.length ∧ stRes.devBars.length < 64 ∧
    ((stBar.cohortOf stBar.fib).bar 3).pend + (stBar.fib.V 6).toNat = 2 ^ 31 ∧ ((stBar.cohortOf stBar.fib).bar 3).pend + (stBar.fib.V 5).toNat = 2 ^ 31 - 1 := by
  refine ⟨runs_all (by decide +kernel), ?_⟩
  decide +kernel

theorem witness_BarrierPhaseCompletesWhenWhole :
    let live (s : State) := (s.fibres.filter fun g => g.cohort == s.fib.cohort && !g.exited).length
    let two : State := { st0 with fibres := { st0.fib with uid := 9, vlane := 1 } :: st0.fibres }
    (∃ c, st0.cohort? st0.fib.cohort = some c ∧ (c.bar 3).pend = 0 ∧ ([] ++ [st0.fib.place]).length = live st0 ∧ (c.bar 3).arrived = []) ∧
    (∃ c, two.cohort? two.fib.cohort = some c ∧ (c.bar 3).pend = 0 ∧ ([] ++ [two.fib.place]).length ≠ live two ∧ (c.bar 3).arrived.length ≠ live two) ∧
    (∃ c, stBar.cohort? stBar.fib.cohort = some c ∧ (c.bar 3).pend ≠ 0 ∧ (c.bar 3).pend + 1 ≠ 0) :=
  ⟨⟨st0.cohortOf st0.fib, by decide +kernel, by decide +kernel, by decide +kernel, by decide +kernel⟩,
    ⟨st0.cohortOf st0.fib, by decide +kernel, by decide +kernel, by decide +kernel, by decide +kernel⟩,
    ⟨stBar.cohortOf stBar.fib, by decide +kernel, by decide +kernel, by decide +kernel⟩⟩

/-- Device barrier 3 of a launch: one arrival of a live fibre, one that waits, windows that are over and that are still to come. -/
def stDev (extra : List Fibre) (arrived : List Nat) (wakes : List (Nat × List Nat)) : State :=
  { stRes with fibres := extra ++ stRes.fibres, devBars := [⟨(st0.cohortOf st0.fib).slot, 3, 7, arrived, [st0.fib.uid], wakes⟩] }
theorem witness_device_barrier :
    let arr (s : State) : List Nat := let d := ((s.devBar? (st0.cohortOf st0.fib).slot 3).getD default).arrived
      if st0.fib.uid ∈ d then d else d ++ [st0.fib.uid]
    let live (s : State) := (s.fibres.filter fun g => !g.exited && (s.cohortOf g).slot == (st0.cohortOf st0.fib).slot).length
    let two := stDev [{ st0.fib with uid := 9, vlane := 1 }] [] []
    st0.devBar? (st0.cohortOf st0.fib).slot 3 = none ∧ two.cohort? st0.fib.cohort = some (st0.cohortOf st0.fib) ∧
    (two.devBar? (st0.cohortOf st0.fib).slot 3).isSome = true ∧ (arr two).length ≠ live two ∧ (arr (stDev [] [] [])).length = live (stDev [] [] []) ∧
    (∃ h, (two.fibre? st0.fib.uid).map (fun g => two.hearthOf g % 192) = some h) ∧
    (stDev [] [st0.fib.uid] []).fibre? st0.fib.uid = some st0.fib ∧
    ([(stRes.ltime + 1, [1])].all fun w : Nat × List Nat => decide (stRes.ltime < w.1)) = true ∧
    ([(stRes.ltime, [st0.fib.uid])].find? fun w : Nat × List Nat => decide (w.1 ≤ stRes.ltime)).isSome = true :=
  ⟨by decide +kernel, by decide +kernel, by decide +kernel, by decide +kernel, by decide +kernel, ⟨_, rfl⟩, by decide +kernel, by decide +kernel,
    by decide +kernel⟩

theorem witness_RepOpensItsRepetition :
    let s := st0.fibreIs fun f => { f with arch := { f.arch with repc := 63, repStart := 64 } }
    st0.issuer = some st0.fib ∧ st0.fib.arch.repc = 0 ∧ st0.fib.guard 7 = true ∧ st0.fib.guard 15 = false ∧
    s.issuer = some s.fib ∧ s.fib.arch.repc ≠ 0 := by decide +kernel

/-- v8:9 a join address, v10 and v11 a range, v12 a grain; v20:21 no join, v22:23 a watched address, v28 a control word of 4. -/
def stSp : State := stMem [(8, 64), (10, 3), (11, 9), (12, 2), (13, 5), (22, 64), (28, 4), (34, 1), (32, 7), (33, 7)]
theorem witness_SpawnWordsMakeTheirRecord :
    let l : LitSpawn := ⟨0, 8, false, 5⟩
    let e : LitSpawn := ⟨3, 0, true, 0⟩
    (∀ i ∈ [Instr.spawn (lt l) 5 8 0, .spawnr (lt l) 5 8 0, .spawnr (lt l) 5 30 0, .spawn (lt e) 5 20 13, .watch (lt l) 1 20 0],
      stSp.Runs stSp.fib i 7) ∧
    stSp.Entry stSp.fib l 0 5 32 ∧ stSp.Entry stSp.fib e 13 5 32 ∧
    OwnAligned ⟨0, stSp.fib.VP 8⟩ ∧ stSp.fib.VP 20 = 0 ∧ 2 + l.npay.toNat ≤ 32 ∧ 0 < ((stSp.fib.run 8 13).getD 4 0).toNat ∧
    ((stSp.fib.run 8 13).getD 2 0).toNat < ((stSp.fib.run 8 13).getD 3 0).toNat ∧ 0 < ((stSp.fib.run 30 13).getD 4 0).toNat ∧
    ((stSp.fib.run 30 13).getD 3 0).toNat ≤ ((stSp.fib.run 30 13).getD 2 0).toNat ∧
    stSp.fib.V 28 = 4 ∧ (4 : Word).getLsbD 1 = false ∧ OwnAligned ⟨0, stSp.fib.VP 22⟩ ∧
    stSp.translate (stSp.hearthOf stSp.fib) (stSp.ctxOf stSp.fib) 0 ⟨0, stSp.fib.VP 22⟩ (stSp.fib.VP 22) = .ok (.dev 0x400040) := by
  have h : stSp.codeBytes (stSp.slotOf stSp.fib) 0x400A00 1024 = Memory.bytes code3 0x400A00 1024 := code_same (by decide +kernel) (by decide +kernel)
  have k : dirLookup (Memory.bytes code3 0x400A00 1024) 5 = some 32 := by decide +kernel
  refine ⟨runs_all (by decide +kernel), ⟨by decide +kernel, 0x400A00, by decide +kernel, ?_⟩, ⟨by decide +kernel, 0x400A00, by decide +kernel, ?_⟩, ?_⟩
  · rw [h]; exact k
  · rw [h]; exact k
  · unfold OwnAligned
    decide +kernel

/-- A die whose kindling store holds as many records as it can. -/
def stFull : State := st0.updDie 0 fun d => { d with store := List.replicate 32768 default }
theorem witness_SpawnStatusSaysWhetherARecordWasMade :
    let r (d : Nat) : KRecord := { (default : KRecord) with depth := d }
    (st0.slotOf st0.fib).record.depth < (r 256).depth ∧ (r 255).depth ≤ (st0.slotOf st0.fib).record.depth ∧ (st0.die (dieOfHearth 0)).store.length < 32768 ∧
    32768 ≤ (stFull.die (dieOfHearth (stFull.hearthOf stFull.fib))).store.length ∧ (stFull.slot (r 255).slot).firstFit 1 = none ∧
    (r 255).depth ≤ (stFull.slotOf stFull.fib).record.depth := by
  have h : stFull.die 0 = { Die.reset 0 with store := List.replicate 32768 default } := rfl
  refine ⟨by decide +kernel, by decide +kernel, by decide +kernel, ?_, by decide +kernel, by decide +kernel⟩
  change 32768 ≤ (stFull.die 0).store.length
  rw [h]
  exact (List.length_replicate ..).symm.le

theorem witness_JoinWatchAndCapacityWords :
    (∀ i ∈ [Instr.jwait pl 8, .unwatch pl 1 5, .kcap pl 4], stSp.Runs stSp.fib i 7) ∧ OwnAligned ⟨0, stSp.fib.VP 8⟩ ∧
    stSp.translate (stSp.hearthOf stSp.fib) (stSp.ctxOf stSp.fib) 0 ⟨0, stSp.fib.VP 8⟩ (stSp.fib.VP 8) = .ok (.dev 0x400040) := by
  refine ⟨runs_all (by decide +kernel), ?_⟩
  unfold OwnAligned
  decide +kernel

/-! ### Engine, recovery and system words -/

/-- A launch with quad, device and peer levels; v8 the offset 1024, v10:11 the address 256, v12:13 the address 512, v14 a count. -/
def stE : State :=
  let s := stMem [(8, 1024), (10, 256), (12, 512), (14, 64), (16, 1028), (17, 393216), (18, 0x80000)]
  { s with slots := s.slots.map fun (x : LaunchSlot) => { x with record := { x.record with levels := [(1, 0, 1), (2, 4, 5), (2, 8, 9)] } } }
/-- The same with no tile, accumulator or barrier declared. -/
def stE0 : State := stE.updCohort 0 fun c => { c with decl := { c.decl with tiles := 0, accs := 0, bars := 0, lines := 8 } }

theorem witness_EngineCommandsJoinTheirQueue :
    let b : LitEng := ⟨true, 31, 3, 0⟩
    let room (op : EngOp) : Bool := stE.engRoom stE.fib op 0 []
    let c := stE.cohortOf stE.fib
    (∀ i ∈ [Instr.mtc md 15 20, .tzeroTile md 15, .tzeroAcc md 7, .tldTile md 3 8, .tldAcc md 3 8, .tstTile md 3 8, .tstAcc md 3 8, .tmma (lt b), .tbmp md 3,
      .tcvt md 3 2 20, .cpyStash (lt b) 20, .cpyTile (lt b) 3 20, .cpyl md 0 10 14, .cpylSt md 0 10 14, .cpylGg md 0 10 14, .cpym md 0 10 14,
      .coll (lt b) 10], stE.Runs stE.fib i 7) ∧
    (∀ op ∈ [EngOp.mtc 15 0, .tzeroTile 15, .tzeroAcc 7, .tldTile 3 1024, .tldAcc 3 1024, .tstTile 3 1024, .tstAcc 3 1024, .tmma 0, .tbmp 3,
      .tcvt 3 2 0 0, .cpyStash 0 0 [0, 0, 0, 0, 0], .cpyTile 3 0 [0, 0, 0, 0, 0], .cpyl 0 ⟨0, 256⟩ 64, .cpylSt 0 ⟨0, 256⟩ 64, .cpylGg ⟨0, 256⟩ ⟨0, 512⟩ 64,
      .cpym 0 ⟨0, 256⟩ 64, .coll ⟨0, 256⟩ ⟨0, 512⟩ 64 0], room op = true) ∧
    c.decl.tiles = 16 ∧ c.decl.accs = 8 ∧ c.decl.bars = 32 ∧ c.decl.lines = 3072 ∧ b.bar.toNat < 32 ∧ mtcOk (stE.slotOf stE.fib).record.formats 0 = true ∧
    tcvtOk 0 2 = true ∧ collOk (stE.slotOf stE.fib).record 0 = true ∧ (stE.slotOf stE.fib).record.levels.any (·.2.1 == 4) = true ∧
    stE.spaceFault (stE.ctxOf stE.fib) 0 = none ∧ stE.fib.V 8 = 1024 ∧ stE.fib.VP 10 = 256 ∧ stE.fib.VP 12 = 512 ∧
    1024 % 8 = 0 ∧ 1024 + 1 ≤ 128 * c.decl.lines ∧ 256 % 4 = 0 := by
  refine ⟨runs_all (by decide +kernel), ?_⟩
  decide +kernel

theorem witness_EngineWordsTrapOnTheirOperands :
    let b : LitEng := ⟨true, 0, 0, 0⟩
    (∀ i ∈ [Instr.mtc md 0 20, .mfc md 20 0, .tzeroTile md 0, .tldTile md 0 8, .tstTile md 0 8, .tbmp md 0, .cpyTile md 0 20, .tzeroAcc md 0, .tldAcc md 0 8,
      .tstAcc md 0 8, .tacc md 20 0 8, .tmma (lt b), .cpyStash (lt b) 20, .cpyl (lt b) 0 10 14, .cpylSt (lt b) 0 10 14, .cpylGg (lt b) 0 10 14,
      .cpym (lt b) 0 10 14, .coll (lt b) 10], stE0.Runs stE0.fib i 7) ∧
    (stE0.cohortOf stE0.fib).decl.tiles = 0 ∧ (stE0.cohortOf stE0.fib).decl.accs = 0 ∧ (stE0.cohortOf stE0.fib).decl.bars = 0 ∧ b.bv = true ∧
    (∀ i ∈ [Instr.tldTile md 0 16, .tldTile md 0 17, .mtc md 0 18], stE.Runs stE.fib i 7) ∧
    (stE.fib.V 16).toNat % 8 ≠ 0 ∧ (stE.fib.V 17).toNat % 8 = 0 ∧ 128 * (stE.cohortOf stE.fib).decl.lines = (stE.fib.V 17).toNat ∧
    ((md : Mods LitEng).body .dflt).bv = false ∧ ((md : Mods LitEng).body .dflt).off = 0 ∧
    mtcOk (stE.slotOf stE.fib).record.formats (stE.fib.V 18) = false := by
  refine ⟨runs_all (by decide +kernel), by decide +kernel, by decide +kernel, by decide +kernel, rfl, runs_all (by decide +kernel), ?_⟩
  decide +kernel

/-- Answers that stand for the read at PC 0: of a tile's configuration, of an accumulator, of one that was clear. -/
def stAns (op : EngOp) (cause : Option Cause) : State :=
  { st0 with cmds := [{ (default : EngineCmd) with id := 5, uid := 1, op := op, run := .finished, word := 0, value := 7, cause := cause }] }
theorem witness_EngineReadsTakeTheirAnswer :
    (∀ x ∈ [(Instr.mfc md 4 15, EngOp.mfc 15, none), (.tacc md 4 7 5, .tacc 7 0, none), (.tacc md 4 7 5, .tacc 7 0, some (mkCause 6 8)),
        (.tstatTile md 4, .tstatTile, none), (.tstatBarrier md 4 31, .tstatBarrier 31, none)],
      let s := stAns x.2.1 x.2.2
      runsB s x.1 7 = true ∧ (s.cmds.find? fun c => c.uid == s.fib.uid && c.op.isRead && c.run == .finished && c.word == (s.openGroup s.fib).here).isSome = true) ∧
    (st0.cohortOf st0.fib).decl.tiles = 16 ∧ (st0.cohortOf st0.fib).decl.accs = 8 ∧ (st0.cohortOf st0.fib).decl.bars = 32 ∧ (st0.fib.V 5).toNat < 4096 := by
  decide +kernel

theorem witness_GatherAndPointerWords :
    (∀ i ∈ [Instr.tgat md 15 10 20, .cwpt (lt ⟨false, 0, 3, 0⟩) 4], stE.Runs stE.fib i 7) ∧ stE.fib.VP 10 = 256 ∧
    stE.spaceFault (stE.ctxOf stE.fib) 0 = none ∧ ((md : Mods LitEng).body .dflt).bv = false ∧
    stE.engRoom stE.fib (stE.fib.gathers 15 10 20) 0 ((enginesOf (stE.openGroup stE.fib).fx).drop stE.fib.sent) = true ∧
    (15 : BitVec 4).toNat < (stE.cohortOf stE.fib).decl.tiles := by
  refine ⟨runs_all (by decide +kernel), ?_⟩
  decide +kernel

def stHandler : State := st0.fibreIs fun f => { f with arch := { f.arch with handler := true, epc := 6 } }
theorem witness_SpecialRegisterWordsMoveTheirRegister :
    (∀ n ∈ ((List.range 44).map fun n => BitVec.ofNat 6 n), st0.Runs st0.fib (.movs pl 4 n) 7) ∧
    (∀ n ∈ [(25 : RegIx), 26, 27, 28, 32, 33, 34, 35, 40, 41, 42, 43], st0.Runs st0.fib (.movw pl n 6) 7) ∧
    st0.fib.arch.handler = false ∧ (∀ n ∈ [(26 : RegIx), 32, 33, 34, 35], stHandler.Runs stHandler.fib (.movw pl n 6) 7) ∧
    stHandler.cohort? stHandler.fib.cohort = some (stHandler.cohortOf stHandler.fib) ∧
    ((stHandler.cohortOf stHandler.fib).crew? stHandler.fib.crew).isSome = true ∧ stHandler.fib.arch.handler = true ∧
    (sregInfo 43).map (·.2) ≠ some 2 :=
  ⟨fun n hn => runs_of (List.all_eq_true.1 (by decide +kernel : (((List.range 44).map fun n => BitVec.ofNat 6 n).all fun n => runsB st0 (.movs pl 4 n) 7) = true) n hn),
    fun n hn => runs_of (List.all_eq_true.1 (by decide +kernel : ([(25 : RegIx), 26, 27, 28, 32, 33, 34, 35, 40, 41, 42, 43].all fun n => runsB st0 (.movw pl n 6) 7) = true) n hn),
    by decide +kernel,
    fun n hn => runs_of (List.all_eq_true.1 (by decide +kernel : ([(26 : RegIx), 32, 33, 34, 35].all fun n => runsB stHandler (.movw pl n 6) 7) = true) n hn),
    by decide +kernel, by decide +kernel, by decide +kernel, by decide +kernel⟩

/-- V(0) an address, a software cause, or a number that names none; v4:5 with a space of each kind in s0. -/
def stV (v : Word) (sp : BitVec 16) : State :=
  (stMem [(0, v)]).fibreIs fun f => { f with arch := { f.arch with spaces := [sp, 0, 0, 0] } }
theorem witness_ServicesTranslationsAndReturn :
    let svc (n : BitVec 16) : Instr := .svcCause (lt ⟨.dev, n⟩)
    let s := stV 64 0
    (∀ i ∈ [Instr.svcVersion md, .svcRecord (lt ⟨.dev, 1⟩), svc 3, .tlbi md 4, .tret pl], s.Runs s.fib i 7) ∧ s.Passes s.fib ⟨0, 64⟩ 8 false (.dev 0x400040) ∧
    s.poisoned (.dev 0x400040) 32 = false ∧ ({ s with poison := [0x400040 / 64] } : State).poisoned (.dev 0x400040) 32 = true ∧
    s.fib.VP 0 = 64 ∧ softwareCause ((0x3F : Word).setWidth 9) = true ∧ (runsB (stV 0x3F 0) (svc 2) 7 && runsB (stV 512 0) (svc 2) 7) = true ∧
    (stV 0x3F 0).fib.V 0 = 0x3F ∧ ¬((stV 512 0).fib.V 0).toNat < 512 ∧
    ([0xC000, 1, 0x4001, 0x8000].all fun sp => runsB (stV 0 sp) (.tlbi md 4) 7 && (stV 0 sp).fib.arch.spaces.getD 0 0 == sp) = true ∧
    (spaceKind 0xC000 = 3 ∧ spaceKind 1 = 0 ∧ spaceNum 1 ≠ 0 ∧ spaceKind 0x4001 = 1 ∧ spaceKind 0x8000 = 2) ∧
    stHandler.Runs stHandler.fib (.tret pl) 7 ∧ stHandler.fib.arch.handler = true ∧ s.fib.arch.handler = false := by
  refine ⟨runs_all (by decide +kernel), ⟨?_, ?_, ?_, ?_⟩, ?_, ?_, ?_, ?_, ?_, ?_, ?_, ?_, ?_, runs_of ?_, ?_, ?_⟩ <;> decide +kernel

theorem witness_RecoveryAndTimeWords :
    (∀ i ∈ [Instr.rpmark pl, .rpqry pl 4 6, .rdtm pl 4], st0.Runs st0.fib i 7) ∧ st0.fib.ld = 0 ∧ st0.fib.st = 0 ∧ st0.fib.exited = false ∧ st0.fib.order = none ∧ st0.acquiring st0.fib = false ∧
    st0.run.group = none ∧ st0.fib.pend = [] := by
  refine ⟨runs_all (by decide +kernel), ?_⟩
  decide +kernel

/-! ### Groups, guards, steps, causes, rounding -/

theorem witness_GuardedFalseWordHasNoEffect :
    let i : Instr := .add ⟨false, 15, none⟩ 4 4 2
    ∃ e, i.enc = some e ∧ (∀ m n k, i ≠ .rep m n k) ∧ st0.issuer = some st0.fib ∧ st0.fib.guard e.raw.g = false ∧ e.raw.c = false ∧ e.lit = none ∧
      st0.run.group = none := ⟨_, rfl, nofun, by decide +kernel, by decide +kernel, rfl, rfl, rfl⟩

def stW (n w : Nat) : State := State.reset.withFetchWord n w
theorem witness_StepRunsTheDecodedWord :
    let s := stW 32 0x00482077
    let t := stW 96 (0x02861867 * 2 ^ 64 + 0xFE000064 * 2 ^ 32 + 0x8002080B)
    let u := { t with run := { t.run with group := some { OpenGroup.fresh t.fib with words := 2 } } }
    (s.issuer = some s.fib ∧ s.fib.exited = false ∧ (s.openGroup s.fib).repeating = none ∧ s.fib.groupWords[(s.openGroup s.fib).words]? = some 0x00482077 ∧
      wordClass 0x00482077 ≠ 30 ∧ decode 0x00482077 s.fib.groupWords[(s.openGroup s.fib).words + 1]? = .ok (.sub md 8 8 7) ∧
      groupFault (s.fib.arch.pc.toNat % 3) (s.fib.arch.repc == 0) s.fib.groupWords = none) ∧
    (u.issuer = some u.fib ∧ u.fib.exited = false ∧ (u.openGroup u.fib).words = 2) := by decide +kernel

theorem witness_CausesEnterTheHandlerOrEndTheFibre :
    let s := { st0 with slots := st0.slots.map fun (x : LaunchSlot) => { x with record := { x.record with handler := 64 } } }
    s.fibre? s.fib.uid = some s.fib ∧ (s.slotOf s.fib).record.handler = 64 ∧ s.fib.arch.handler = false ∧ (64 : Word) ≠ 0xFFFFFFFF ∧
    stHandler.fibre? stHandler.fib.uid = some stHandler.fib ∧ stHandler.fib.arch.handler = true ∧
    st0.fibre? st0.fib.uid = some st0.fib ∧ (st0.slotOf st0.fib).record.handler = 0xFFFFFFFF := by decide +kernel

theorem witness_EveryStepKeepsTheMemoriesCanonical :
    (stM.mem.wf = true ∧ stM.hostMem.wf = true ∧ stM.peerMem.wf = true) ∧
    (match step stM with | .next _ => true | _ => false) = true := by decide +kernel

theorem witness_EveryInstructionDecodesFromItsWords :
    (Instr.atomCas (lt ⟨.b128, .ar, .sys, 3, 0xFFF⟩) 60 62 56).wf = true ∧ ((Instr.atomCas (lt ⟨.b128, .ar, .sys, 3, 0xFFF⟩) 60 62 56).enc).isSome = true := by
  decide +kernel

theorem witness_RoundingChoosesByMode :
    (∃ (x : ℚ) (m : Nat) (e : Int), m ≠ 0 ∧ Places x m e false) ∧ (∃ (x : ℚ) (m : Nat) (e : Int), Places x m e true) ∧
    (fmtF32.round .rne 0 false 5 (-1) false).ovf = false ∧ (fmtF32.round .rd 0 true 1 200 false).ovf = true := by
  refine ⟨⟨5, 5, 0, by decide, by simp [Places]⟩, ⟨2 ^ 60 + 1 / 2, 2 ^ 60, 0, ?_⟩, by decide +kernel, by decide +kernel⟩
  simp only [Places, if_true]
  rw [abs_of_nonneg (by positivity)]
  norm_num

/-! ### The part's own events: states in which each is due -/

namespace Sys2Proof.Machine

/-- A launch with a handler, limits of 100 ns for stash stalls and of 1 µs for rendezvous, its fibre not issuing; the lease clock stands at 2,000. -/
def evF (g : Fibre → Fibre) : State :=
  let s := (stMem []).fibreIs g
  { s with
    ltime := 2000
    slots := s.slots.map fun (x : LaunchSlot) => { x with record := { x.record with handler := 64, stall := 100, watchdog := 1, lease := 1 } }
    run := { s.run with issuing := [], decision := none } }
def State.f1 (s : State) : Fibre := (s.fibre? 1).getD default
def State.c0 (s : State) : Cohort := (s.cohort? 0).getD default

/-- The front end's die, the ember and the stacks work, no firing is due, and cohort 0 runs. -/
def State.up (s : State) : Bool :=
  s.frontUp && s.emberUp && s.stackUp 0x400040 && s.run.fired == [] && s.runs 0 && (s.fibres.all fun f => !f.exited) && s.c0.run == .running

def req5 (k : MemKind) : MemReq :=
  { kind := k, addr := ⟨0, 64⟩, target := .dev 0x400040, ty := .s64, dst := 14, data := 7, expect := 0, acq := none, hoist := false }
def op5 (k : MemKind) (done : Bool) : MemOp :=
  { id := 5, uid := 1, hearth := 0, pc := 0, rep := none, req := req5 k, ready := true, performed := done, value := 9, gwct := 1500, expiry := 0, poison := false }
def evOp (k : MemKind) (done : Bool) : State := { evF (fun f => { f with ld := 1, st := 1, pend := [⟨[14, 15], [], .op 5⟩] }) with ops := [op5 k done] }

/-- A write-back not yet translated, of the first two bytes of a line at an offset: 7 and 0. -/
def evBack (off : Nat) : State :=
  { evOp .load false with ops := [{ op5 (.writeBack 3) false with ready := false, req := { req5 (.writeBack 3) with addr := ⟨0, BitVec.ofNat 64 off⟩ } }] }

end Sys2Proof.Machine

/-- R377, R378, log 93: a write-back of a mapped line needs WR: without it, nothing is written and its fibre takes 5.03; with it, it is performed. -/
theorem test_write_back_needs_wr :
    (match exec (.homeWritePerformed 5) (evBack (2 ^ 21)) with
      | .next t => decide (t.f1.arch.cause = mkCause 5 3) && decide (t.f1.arch.tval = BitVec.ofNat 64 (2 ^ 21)) && (t.op? 5).isNone &&
          t.mem.get 0x600000 == 0
      | _ => false) = true ∧
    (match exec (.homeWritePerformed 5) (evBack 128) with
      | .next t => !t.f1.arch.handler && t.mem.get 0x400080 == 7 && (t.op? 5).any (·.performed)
      | _ => false) = true := by decide +kernel

theorem witness_ResultsAndLoadsLand :
    (let s := evF fun f => { f with pend := [⟨[4], [], .lane⟩] }
     s.fibre? 1 = some s.f1 ∧ (∃ p ∈ s.f1.pend, p.src = .lane)) ∧
    (let s := { st0 with hearths := [{ Hearth.fresh st0 0 with pipes := [(3, 31, 9)] }] }
     (3, 31, (9 : BitVec 5).toNat) ∈ (s.hearth 0).pipes) ∧
    (∀ x ∈ [(MemKind.load, true), (.atom .add, true), (.load, false)], let s := evOp x.1 x.2
      s.up = true ∧ (s.op? 5).isSome = true ∧ (s.fibre? 1).isSome = true ∧ s.f1.exited = false ∧ s.olderOverlap (op5 x.1 x.2) (fun _ => true) = false ∧
      0x400040 % 64 + (req5 x.1).size ≤ 64 ∧ s.poisoned (.dev 0x400040) 8 = false ∧ (s.slotOf s.f1).node = none ∧
      s.f1.pend.find? (·.src == .op 5) = some ⟨[14, 15], [], .op 5⟩) := by
  refine ⟨⟨by decide +kernel, ⟨_, List.mem_singleton.2 rfl, rfl⟩⟩, by decide +kernel, by decide +kernel⟩

def watch5 : JoinWatch := { (default : JoinWatch) with pa := 0x400040, slot := 0 }
theorem witness_WritesArePerformedAtTheirHome :
    (∀ k ∈ [MemKind.store, .atom .add, .joinDec, .writeBack 255], ∀ m ∈ [[], [(0x400040, (9 : Byte))]], ∀ ws ∈ [[], [watch5]],
      let s := { evOp k false with mem := m, joinWatches := ws }
      s.up = true ∧ s.op? 5 = some (op5 k false) ∧ k.writes = true ∧ (op5 k false).ready = true ∧ s.copying 0x400040 (req5 k).size = false ∧
      s.olderOverlap (op5 k false) (fun q => !q.performed) = false ∧ s.poisoned (.dev 0x400040) (req5 k).size = false ∧ (op5 k false).poison = false ∧
      (s.slot (s.opSlot (op5 k false))).node = none ∧ (req5 k).ty = .s64 ∧ (∀ w ∈ [watch5], w.pa = 0x400040 ∧ (s.slot w.slot).node = none)) ∧
    (BitVec.ofNat 64 (Memory.readLE [] 0x400040 8 + 2 ^ 64 - 7) : DWord).toInt ≤ 0 ∧
    0 < (BitVec.ofNat 64 (Memory.readLE [(0x400040, 9)] 0x400040 8 + 2 ^ 64 - 7) : DWord).toInt ∧
    (∀ k ∈ [MemKind.store, .writeBack 255], k.writes = true ∧ k.returns = false ∧ ((evOp k true).op? 5) = some (op5 k true) ∧
      ((evOp k true).fibre? 1).isSome = true) := by decide +kernel

/-- Context 1 with a recovery state. -/
def evR (g : Recovery → Recovery) : State :=
  let s := evF id
  { s with contexts := s.contexts.map fun (c : Context) => { c with recovery := g c.recovery } }
def pt5 (pending : List Nat) : Point :=
  { n := 4, state := .sealing, queues := [], timelines := [], replay := 0, ltime := 0, pages := [], copy := [(0x500000, 3)], durableAt := [], pending := pending }
def unit5 : EmberUnit := { va := 0x1000, pa := 0x500000, mapped := true, named := some 0, dirty := 3, durable := 0, images := [] }
/-- A seal of point 4 in a mirror, with n of its copies written. -/
def seal5 (r : Recovery) (m : Nat) (n : Nat) : Seal :=
  let b := sealBytes 1 (pt5 []) (pageListBytes r m (pt5 [])) 0
  { mirror := m, slot := 0, copies := [if n = 0 then [] else b, if n = 2 then b else []], pages := pageListBytes r m (pt5 []) }
def rec5 : Recovery := { (default : Recovery) with rpo := 5, points := [pt5 []] }
def evSeal : State := evR fun _ => { rec5 with seals := [seal5 rec5 0 2, seal5 rec5 1 1] }
def cSeal : Context := (evSeal.context? 1).getD default

theorem cSeal_is : evSeal.context? 1 = some cSeal := by
  obtain ⟨c, h⟩ := Option.isSome_iff_exists.mp (show (evSeal.context? 1).isSome = true by decide +kernel)
  simp [cSeal, h]
theorem witness_seal : evSeal.emberUp = true ∧ evSeal.context? 1 = some cSeal ∧ cSeal.replaying = none ∧ cSeal.recovery.sealing = some (pt5 []) ∧
    (cSeal.recovery.seals.find? fun x => x.mirror == 0 && x.slot == (pt5 []).n % 2) = some (seal5 rec5 0 2) ∧
    (cSeal.recovery.seals.find? fun x => x.mirror == 1 && x.slot == (pt5 []).n % 2) = some (seal5 rec5 1 1) ∧
    (seal5 rec5 0 2).pages = pageListBytes cSeal.recovery 0 (pt5 []) ∧ (seal5 rec5 1 1).pages = pageListBytes cSeal.recovery 1 (pt5 []) ∧
    (let block (m : Nat) := sealBytes 1 (pt5 []) (pageListBytes cSeal.recovery m (pt5 [])) 0
     (seal5 rec5 0 2).copies = [block 0, block 0] ∧ (seal5 rec5 1 1).copies.headD [] = block 1) := by
  have h : ∀ r m, pageListBytes r m (pt5 []) = [] := fun _ _ => rfl
  refine ⟨by decide +kernel, cSeal_is, by decide +kernel, by decide +kernel, rfl, rfl, ?_, ?_, ?_, ?_⟩
  all_goals simp [seal5, h]

theorem witness_ReleasesFencesCopiesAndSeals :
    (∀ x ∈ [(Scope.fib, false), (.coh, false), (.dev, true)],
      let s := (evF fun f => { f with order := some x.1, flushed := x.2, arch := { f.arch with gwct := 1992 } }).updCohort 0 fun c => { c with flushed := 1992 }
      let now := s.ltimeAt (dieOfHearth (s.hearthOf s.f1))
      s.ops = [] ∧ (s.fibre? 1).isSome = true ∧ s.f1.order = some x.1 ∧ x.1 ≠ .rcv ∧ (s.cohortOf s.f1).run ≠ .suspended ∧ s.mustCommit (s.cohortOf s.f1).slot = false ∧
        (x.1 = .fib ∨ (s.unacked 1 = false ∧ s.f1.arch.gwct + 8 ≤ now ∧
          (x.1.rank < Scope.hth.rank ∨ (s.f1.flushed = true ∧ s.cohortFlights s.f1.cohort = [] ∧ (s.cohortOf s.f1).flushed + 8 ≤ now))))) ∧
    (∀ x ∈ [([1, 2], [], true, false), ([2, 1], [], false, false), ([2], [3, 1], false, true)],
      let k := sequencerKey .dev 0
      let s := { evF fun f => { f with acq := some ⟨.nod, [], some .dev⟩ } with sequencers := [⟨k, x.1, x.2.1, 4⟩] }
      (s.fibre? 1).isSome = true ∧ s.f1.acq = some ⟨.nod, [], some .dev⟩ ∧ s.hearthOf s.f1 = 0 ∧
        ((s.sequencer k).arrived.head? == some 1) = x.2.2.1 ∧ (s.sequencer k).accepted.contains 1 = x.2.2.2) ∧
    (∀ stale ∈ [true, false], let g : GranuleWrite := ⟨1, 0x500000, 63, stale⟩
      let s := { evF fun f => { f with durable := true } with granules := [g] }
      s.granules.find? (fun g => g.uid == 1 && g.unit == 0x500000 && g.granule == 63) = some g ∧ ∀ f, s.fibre? 1 = some f → f.durable = true) ∧
    (let s := evR fun r => { r with points := [pt5 [0x500000, 0x520000]], units := [unit5] }
     s.emberUp = true ∧ ∃ c, s.context? 1 = some c ∧ c.replaying = none ∧ c.recovery.sealing = some (pt5 [0x500000, 0x520000]) ∧ 0x500000 ∈ (pt5 [0x500000, 0x520000]).pending ∧
       (∀ q ∈ [0x500000, 0x520000], sideOf q = sideOf 0x500000 → 0x500000 ≤ q) ∧ unit5 ∈ c.recovery.units ∧ unit5.mapped = true) := by
  refine ⟨by decide +kernel, by decide +kernel, ?_, by decide +kernel, ⟨_, rfl, rfl, rfl, by decide +kernel, by decide +kernel, List.mem_singleton.2 rfl, rfl⟩⟩
  intro stale _
  refine ⟨by cases stale <;> decide +kernel, fun f hf => ?_⟩
  have : f = { (evF id).f1 with durable := true } := by
    have h : ({ evF fun f => { f with durable := true } with granules := [⟨1, 0x500000, 63, stale⟩] } : State).fibre? 1 =
      some { (evF id).f1 with durable := true } := rfl
    exact (Option.some.inj (h.symm.trans hf)).symm
  rw [this]

/-- Line 4 mapped, filled until 1,990; line 5 mapped and wanted by a stalled `lds`; line 6 mapped with two dirty bytes. -/
def evLine (l : StashLine) (g : Fibre → Fibre) : State :=
  (evF g).updCohort 0 fun c => { c with lines := [l] }
def tag5 : Rdv := { (default : Rdv) with tag := 7, since := 900, members := [{ (default : Presentation) with uid := 1 }] }
theorem witness_LeasesLinesAndTimeouts :
    (let s := evLine { StashLine.region 4 with mapped := some ⟨0, 512⟩, full := true, expiry := 1990 } id
     (s.cohort? 0).isSome = true ∧ s.c0.hearth = 0 ∧ (s.c0.line 4).mapped.isSome = true ∧ (s.c0.line 4).full = true ∧
       (s.c0.line 4).expiry ≤ s.ltimeAt (dieOfHearth 0)) ∧
    (let s := evLine { StashLine.region 4 with mapped := some ⟨0, 512⟩, dirty := 3 } fun f => { f with waits := [.mapFill 4] }
     s.up = true ∧ (s.cohort? 0).isSome = true ∧ s.c0.run = .running ∧ (s.c0.line 4).mapped = some ⟨0, 512⟩ ∧ (s.c0.line 4).filled (s.cohortTime s.c0) = false ∧
       s.fillWanted s.c0 4 = true ∧ s.translate s.c0.hearth (s.slot s.c0.slot).ctx 3 ⟨0, 512⟩ 512 = .ok (.dev 0x400200) ∧
       s.poisoned (.dev 0x400200) 128 = false ∧ (s.slot s.c0.slot).node = none) ∧
    (let s := evF fun f => { f with waits := [.emptyLine 640 1900] }
     s.up = true ∧ (s.fibre? 1).isSome = true ∧ (s.f1.waits.findSome? fun w => match w with | .emptyLine _ n => some n | _ => none) = some 1900 ∧ s.f1.stalled = some 640 ∧
       (s.slotOf s.f1).record.stall ≠ 0 ∧ 1900 + (s.slotOf s.f1).record.stall ≤ s.ltime ∧ s.f1.arch.handler = false ∧ (s.slotOf s.f1).record.handler = 64) ∧
    (let s := (evF id).updCohort 0 fun c => { c with crews := c.crews.map fun (w : Crew) => { w with rdvs := [tag5] } }
     s.up = true ∧ (s.cohort? 0).isSome = true ∧ (s.c0.crew? 0).isSome = true ∧ (s.slot s.c0.slot).record.watchdog ≠ 0 ∧
       (s.c0.crew? 0).bind (fun w => w.rdvs.find? fun r => r.tag == 7 && decide (r.since + 1000 * (s.slot s.c0.slot).record.watchdog ≤ s.ltime)) = some tag5 ∧
       tag5.members.map (·.uid) = [1] ∧ (s.fibre? 1).isSome = true ∧ s.f1.arch.handler = false) ∧
    (let c : EngineCmd := { (default : EngineCmd) with id := 5, op := .tldTile 3 0, run := .queued, since := some 1900 }
     let s := { evLine { StashLine.region 0 with full := false } id with cmds := [c] }
     (s.cmds.find? fun c => c.hearth == 0 && s.stallOver c) = some c ∧ c.op.isRead = false) := by
  decide +kernel

/-! #### Wake-ups -/

/-- Tables of context 1: at each level entry 0 names the next table, and the entry of level 1 is a leaf of 32 MiB at 0x2000000. -/
def pageTables : Memory :=
  [(0x10000, 1), (0x10002, 2), (0x20000, 1), (0x20002, 3), (0x30000, 1), (0x30002, 4), (0x40000, 0x1F), (0x40003, 2), (0x40007, 3)]
namespace Sys2Proof.Machine
def State.withTables (s : State) : State :=
  { s with mem := pageTables ++ s.mem, contexts := s.contexts.map fun (c : Context) => { c with root := 0x10000 } }
end Sys2Proof.Machine

def evWait (ws : List Wait) (mem : Memory) : State := { evF fun f => { f with waits := ws } with mem := mem }
def svcWait5 : Fibre → Fibre := fun f => { f with waits := [.svc 5 0 2 ⟨0, 64⟩], pend := [⟨[2, 3], [], .op 5⟩] }

theorem witness_WakeUpsFetchesAndReplies :
    (let s := evWait [.sleep 2000] []
     (s.fibre? 1).isSome = true ∧ Wait.sleep 2000 ∈ s.f1.waits ∧ 2000 ≤ s.ltimeAt (dieOfHearth (s.hearthOf s.f1))) ∧
    (let b : DevBar := ⟨0, 3, 0, [], [1], [(2000, [1])]⟩
     let s := { evWait [.devBar 3] [] with devBars := [b] }
     s.devBar? 0 3 = some b ∧ (b.wakes.find? fun (w : Nat × List Nat) => decide (w.1 ≤ s.ltime)) = some (2000, [1])) ∧
    (∀ m ∈ [[], [(0x400047, (0x80 : Byte))], [(0x400040, 2)]], let s := evWait [.jwait ⟨0, 64⟩ 0] m
      s.up = true ∧ (s.fibre? 1).isSome = true ∧ (s.f1.waits.findSome? fun w => match w with | .jwait a since => some (a, since) | _ => none) = some (⟨0, 64⟩, 0) ∧
      0 + (s.slotOf s.f1).leaseNs ≤ s.ltime ∧ (s.f1.waits.any fun w => match w with | .walk _ | .parked _ => true | _ => false) = false ∧ s.f1.exited = false ∧ s.f1.deferred = [] ∧
      (s.cohortOf s.f1).run = .running ∧ s.translate (s.hearthOf s.f1) (s.ctxOf s.f1) 0 ⟨0, 64⟩ 64 = .ok (.dev 0x400040) ∧
      s.poisonedFor (s.slotOf s.f1).node (.dev 0x400040) 8 = false ∧ s.f1.arch.handler = false ∧ (s.slotOf s.f1).record.handler = 64) ∧
    (BitVec.ofNat 64 ((evWait [] [(0x400047, 0x80)]).targetNat none (.dev 0x400040) 8) : DWord).toInt < 0 ∧
    0 < (BitVec.ofNat 64 ((evWait [] [(0x400040, 2)]).targetNat none (.dev 0x400040) 8) : DWord).toInt ∧
    (let s := evWait [.jwait ⟨0, 64⟩ 1999] []
     (s.fibre? 1).isSome = true ∧ (s.f1.waits.findSome? fun w => match w with | .jwait a since => some (a, since) | _ => none) = some (⟨0, 64⟩, 1999) ∧
     s.ltime < 1999 + (s.slotOf s.f1).leaseNs) ∧
    (let s := evF svcWait5
     (s.fibre? 1).isSome = true ∧ s.f1.exited = false ∧ (s.f1.waits.find? fun w => match w with | .svc .. => true | _ => false) = some (.svc 5 0 2 ⟨0, 64⟩)) ∧
    (let s := (evF fun f => { f with waits := [.svc 5 1 2 ⟨0, 64⟩], pend := [⟨[2, 3], [], .op 5⟩] }).withTables
     (s.fibre? 1).isSome = true ∧ s.f1.exited = false ∧ (s.f1.waits.find? fun w => match w with | .svc .. => true | _ => false) = some (.svc 5 1 2 ⟨0, 64⟩) ∧
       (s.svcBytes s.f1 ⟨0, 64⟩).2.2 = false) ∧
    (let s := evF fun f => { f with ibuf := none }
     (s.fibre? 1).isSome = true ∧ s.f1.exited = false ∧ (s.f1.waits.any fun w => match w with | .walk _ | .parked _ => true | _ => false) = false ∧
       s.f1.ibuf = none ∧ (s.cohortOf s.f1).run = .running ∧ 1 ∉ s.run.issuing) ∧
    (∀ sc ∈ [Scope.hth, .die, .dev], let s := evWait [.tlbi sc ⟨0, 64⟩] []
      (s.fibre? 1).isSome = true ∧ (s.f1.waits.find? fun w => match w with | .tlbi .. => true | _ => false) = some (.tlbi sc ⟨0, 64⟩)) := by decide +kernel

theorem witness_fetch : let s := evF fun f => { f with ibuf := none }
    s.fetchBytes s.f1 ((s.slotOf s.f1).record.codeBase + 12 * (s.f1.arch.pc.toNat / 3)) = .bytes (List.replicate 12 0) := by
  intro s
  have h1 : s.codeAt s.f1 s.f1.arch.pc (4096 + 0) 12 = .found 0x401000 := by decide +kernel
  have h2 : s.codeBytesOf (s.slotOf s.f1) 4096 0x401000 12 = List.replicate 12 0 := code_same_of (by decide +kernel) (by decide +kernel)
  have h3 : (s.slotOf s.f1).record.codeBase + 12 * (s.f1.arch.pc.toNat / 3) = 4096 := by decide +kernel
  have h4 : packetParts 4096 = [(0, 12)] := by decide +kernel
  rw [h3]
  simp [State.fetchBytes, h4, h1, h2]

/-! #### The census and the gatherer -/

/-- The fibre ready with the packet of a word fetched; the hearth at a front-clock setting, with the decision slot of a lane clock. -/
def evC (front : Nat) (clk : List GrateClock) : State :=
  let s := evF fun f => { f with ibuf := some (placePacket 0 0x00482077) }
  { s with hearths := s.hearths.map fun (h : Hearth) => { h with front := front, clocks := clk } }

/-- The state in which a decision of grate 0 of hearth 0 is made, and a unit served from it, its pointer moved on. -/
def preC (s : State) : State := ((s.regroup 0 0).elapse 0 0).noteIdle 0
def unit6 : IssueUnit := { hearth := 0, grate := 0, slot := 0, crews := [(0, 0)], starve := [], paired := false, shadow := false }
/-- The front cycles that pass before a decision, and a state at 3.4 GHz whose decision is the second of its lane clock. -/
def cycles6 : Nat := Config.choice (evC 1 []).run.tick 30 0
def evSecond (past : List Nat) : State :=
  let s := evC 1 [⟨0, 2 * cycles6, [(0, 0)], past⟩]
  { s with hearths := s.hearths.map fun (h : Hearth) => { h with cycle := cycles6 + 1 } }

theorem witness_first_decision :
    (let s := preC (evC 0 [])
     (s.hearth 0).front ≠ 1 ∧ s.nextUnit 0 0 = some unit6 ∧ (∀ f ∈ s.unitFibres unit6, f.demoted = false) ∧
      ((s.updHearth 0 fun h => { h with pointers := h.pointers.set 0 1 }.setClock ⟨0, h.cycle, [(0, 0)], []⟩).unitReady unit6).map (·.uid) = [1]) ∧
    (let s := ((st0.regroup 5 3).elapse 5 3).noteIdle 5
     (s.hearth 5).front ≠ 1 ∧ s.nextUnit 5 3 = none) := by decide +kernel

theorem witness_second_decision : ∀ past ∈ [[], [1]], let s := preC (evSecond past)
    ((s.hearth 0).front = 1 ∧ (s.hearth 0).cycle % 2 = 1 ∧ ((s.hearth 0).clock 0).cycle + 1 = (s.hearth 0).cycle ∧ ((s.hearth 0).clock 0).crews ≠ []) ∧
    ((s.hearth 0).clock 0).issued = past ∧ (s.units.find? fun u => u.hearth == 0 && u.grate == 0 && u.crews.any [(0, 0)].contains) = some unit6 ∧
    (s.unitReady unit6).map (·.uid) = [1] := by
  intro past hp
  have hc : ((preC (evSecond past)).hearth 0).cycle = cycles6 + 1 + cycles6 + 0 := rfl
  have hd : ((preC (evSecond past)).hearth 0).clock 0 = ⟨0, 2 * cycles6, [(0, 0)], past⟩ := rfl
  refine ⟨⟨rfl, by rw [hc]; omega, by rw [hc, hd]; show 2 * cycles6 + 1 = _; omega, by rw [hd]; simp⟩, by rw [hd], ?_⟩
  clear hc hd
  revert past
  decide +kernel

def rec6 : KRecord :=
  { (default : KRecord) with kind := 0, cls := 1, place := 0, npay := 1, depth := 1, origin := 0, join := ⟨0, 64⟩, entry := 5, slot := 0, gen := 1,
                             payload := [7, 0, 0, 0, 0, 0, 0, 0], regs := 32, since := 0 }
/-- The record of a continuation, and the first block of its image. -/
def rec62 : KRecord := { rec6 with kind := 2, npay := 0, payload := List.replicate 8 0, lo := 0, hi := 0, grain := 0, spill := some 0, head := [1, 2, 3] }
/-- A record in block 0 of a spill area at 8192, and the entry of PC 5 in the directory, as the tables map them. -/
def spilled6 (r : KRecord) : Memory :=
  [(0x2000A00, 32), (0x2000A04, 5)] ++ ((r.bytes.zipIdx.map fun x => (0x2002000 + x.2, x.1)).filter fun c => c.2 != 0)
def evG (store spill : List KRecord) : State :=
  let s := ((evF id).updDie 0 fun d => { d with store := store }).withTables
  { s with
    mem := s.mem ++ spilled6 (spill.headD rec6)
    slots := s.slots.map fun (x : LaunchSlot) =>
      { x with record := { x.record with spillBase := 8192, spillSize := 65536, decl := { x.record.decl with lines := 0 } }, spill := [(0, 1)],
               spillRecs := spill, code := [(0x2000A00, 32), (0x2000A04, 5)] }
    hearths := s.hearths.map fun (h : Hearth) => { h with budget := (1000000, 1000000) } }
def watch6 (persist : Bool) : WatchEntry :=
  { (default : WatchEntry) with index := 3, gen := 1, state := .pending, ctx := 1, pa := 0x400040, persist := persist, record := { rec6 with kind := 3 } }

def recS : KRecord := { rec6 with spill := some 0 }
def stRead : State := evG [] [recS]
def dir6 : List Byte := Memory.bytes [(0x2000A00, 32), (0x2000A04, 5)] 0x2000A00 1024
/-- The directory reads as it stands in memory, which the launch's own copy of its code equals. -/
theorem directory6 : stRead.readDirectory recS = some dir6 := by
  obtain ⟨s1, h, hp, ht, hk⟩ : ∃ s1, stRead.unitXlate 0 1 2 ⟨0, BitVec.ofNat 64 (4096 - 1536)⟩ = .ok s1 (.dev 0x2000A00) ∧
      s1.poisoned (.dev 0x2000A00) 1024 = false ∧ s1.targetBytes (stRead.slot 0).node (.dev 0x2000A00) 1024 = dir6 ∧
      Memory.bytes (stRead.slot 0).code 0x2000A00 1024 = dir6 := ⟨_, rfl, by decide +kernel, by decide +kernel, by decide +kernel⟩
  have e : stRead.readDirectory recS = (match stRead.unitXlate 0 1 2 ⟨0, BitVec.ofNat 64 (4096 - 1536)⟩ with
      | .ok s (.dev pa) => if s.poisoned (.dev pa) 1024 then none else some (s.codeBytes (stRead.slot 0) pa 1024)
      | _ => none) := rfl
  rw [e, h]
  simp [hp, code_same ht hk]
theorem record6 : (stRead.readRecord recS).2 = some recS := by
  have hb : stRead.readBlock recS 0 = some recS.bytes := by decide +kernel
  have hd : dirLookup dir6 (KRecord.ofBytes recS recS.bytes).entry = some 32 := by decide +kernel
  have hk : (KRecord.ofBytes recS recS.bytes).kind ≠ 2 := by decide +kernel
  have hs : recordSound (stRead.slot 0).n (stRead.slot 0).gen recS.bytes = true := by decide +kernel
  have hr : { KRecord.ofBytes recS recS.bytes with regs := min 32 (classRegs recS.cls) } = recS := by decide +kernel
  have e : stRead.readRecord recS = (match stRead.readBlock recS 0 with
      | none => (stRead.damaged (stRead.slot 0) 0 none, none)
      | some bs =>
        match (if (KRecord.ofBytes recS bs).kind = 2 then some (classRegs recS.cls)
            else (stRead.readDirectory recS).bind fun d => dirLookup d (KRecord.ofBytes recS bs).entry) with
        | some regs =>
          if recordSound (stRead.slot 0).n (stRead.slot 0).gen bs then (stRead, some { KRecord.ofBytes recS bs with regs := min regs (classRegs recS.cls) })
          else (stRead.damaged (stRead.slot 0) 0 (some bs), none)
        | none => (stRead.damaged (stRead.slot 0) 0 (some bs), none)) := rfl
  rw [e, hb]
  simp only [hk, if_false, directory6, Option.bind_some, hd, hs, if_true, hr]
theorem witness_GatherersStartAndMoveRecords :
    (let s := { evG [rec6] [] with units := [] }
     (∀ u ∈ s.units, u.hearth = 0 → 32 < (s.unitLive u).length + [rec6].length) ∧ s.gatherQueue 0 0 1 0 0 = [rec6] ∧ s.live (s.slot 0).ctx = true ∧ s.gatherDue [rec6] = true ∧ s.gatherHearth 0 1 0 0 = some 0 ∧
       s.noPlain 0 0 = false ∧ s.emberUp = true ∧ rec6.kind ≠ 2 ∧ rec6.spill = none ∧ rec6.kind ≠ 1 ∧ rec6.npay ≤ rec6.payload.length ∧ rec6.payload.length ≤ rec6.regs) ∧
    (let r := recS
     let s := stRead
     (s.die 0).store.length < 32768 ∧ (∃ d ∈ s.dies, d.n = 0) ∧ (s.recordsOf [0]).find? (·.spill.isSome) = some r ∧
       s.emberUp = true ∧ (s.readRecord r).2 = some r ∧ r.kind ≠ 2) ∧
    (let r := rec62
     let s := evG [] [r]
     let l := s.slot r.slot
     (s.die 0).store.length < 32768 ∧ (∃ d ∈ s.dies, d.n = 0) ∧ (s.recordsOf [0]).find? (·.spill.isSome) = some r ∧
       (s.readRecord r).2.isSome = true ∧ r.kind = 2 ∧
       ((s.dropRecord r).unitWrite 0 l.n l.ctx (l.record.spillBase + r.image) r.head).isSome = true) ∧
    (∀ p ∈ [true, false], let s := (evF id).updDie 0 fun d => { d with watches := [watch6 p] }
     ((s.die 0).watches.find? fun w => w.index == 3 && w.state == .pending) = some (watch6 p) ∧ s.live (watch6 p).ctx = true ∧
       (s.die (dieOfHearth (watch6 p).record.origin)).store.length < 32768 ∧ (∃ d ∈ s.dies, d.n = 0) ∧ dieOfHearth (watch6 p).record.origin = 0 ∧
       (watch6 p).persist = p) :=
  ⟨by decide +kernel, ⟨by decide +kernel, by decide +kernel, by decide +kernel, by decide +kernel, record6, by decide +kernel⟩, by decide +kernel, by decide +kernel⟩

/-! #### Launches, engines and translation -/

theorem placeIn_one {ok : Nat → Nat → Bool} {hs : List Nat} {x : Nat} (hx : x ∈ hs) (h : ok x 0 = true) : ∃ y, placeIn ok [] hs [] = some [y] := by
  have : (hs.find? fun h => ok h 0).isSome := List.find?_isSome.2 ⟨x, hx, h⟩
  obtain ⟨y, hy⟩ := Option.isSome_iff_exists.1 this
  exact ⟨y, by simp [placeIn, hy]⟩

/-- A launch of two cohorts with the second still to admit; the budgets of hearth 0. -/
def evL (g : LaunchSlot → LaunchSlot) : State :=
  let s := evF id
  { s with
    slots := s.slots.map fun (x : LaunchSlot) =>
      g { x with next := 1, total := 2, record := { x.record with levels := [(1, 0, 0), (2, 2, 3)], decl := { x.record.decl with lines := 0, tiles := 0, accs := 0 } } }
    cohorts := s.cohorts.map fun (c : Cohort) => { c with decl := { c.decl with tiles := 0, accs := 0 } }
    hearths := s.hearths.map fun (h : Hearth) => { h with budget := (1000000, 1000000) } }
def line6 : StagedLine := ⟨0, 0x4000, [], [(0x400040, 7), (0x400041, 8)], []⟩
def node6 (l : LaunchSlot) : LaunchSlot :=
  { l with record := { l.record with contained := true }, staged := [line6], next := 2 }
/-- With nothing of the launch left. -/
def evOver (g : LaunchSlot → LaunchSlot) : State := { evL (fun l => g { l with next := 2 }) with cohorts := [], fibres := [], units := [] }

theorem witness_LaunchesAdmitCompleteAndAbort :
    (let s := evL id; (s.frontUp = true ∧ s.mayPlace (s.slot 0) = true) ∧ ∃ h, s.nextPlan 0 = some [h]) ∧
    (∀ g ∈ [0, 1992], let s := evOver fun l => { l with gwct := g }
      s.frontUp = true ∧ s.launchOver (s.slot 0) = true ∧ (s.slot 0).node = none ∧ ((s.slot 0).gwct = 0 ∨ (s.slot 0).gwct + 8 ≤ s.ltimeAt 4)) ∧
    (let s := evOver node6
     s.frontUp = true ∧ s.run.fired = [] ∧ s.launchOver (s.slot 0) = true ∧ (s.slot 0).node.isSome = true ∧ (s.slot 0).leaving = false ∧
       ((s.slot 0).staged.find? fun l => !s.copying (l.line * 256) 256) = some line6 ∧ (line6.bytes.map (·.1)).Nodup ∧
       (∀ w ∈ s.joinWatches, ∀ x ∈ line6.bytes, touches x.1 1 w.pa = false)) ∧
    (let s := evL fun l => { node6 l with leaving := true }
     s.launchOver (s.slot 0) = false ∧ (s.slot 0).node.isSome = true ∧ (s.slot 0).leaving = true ∧
       ((s.slot 0).staged.find? fun l => !s.copying (l.line * 256) 256) = some line6) ∧
    (∀ g ∈ [0, 1992], let s := evOver fun l => { node6 l with gwct := g, staged := [] }
      s.frontUp = true ∧ s.launchOver (s.slot 0) = true ∧ (s.slot 0).node.isSome = true ∧ (s.slot 0).staged = [] ∧ ((s.slot 0).gwct = 0 ∨ (s.slot 0).gwct + 8 ≤ s.ltimeAt 4)) ∧
    ((evL fun l => { node6 l with aborting := some (mkCause 10 0) }).slot 0).aborting = some (mkCause 10 0) := by
  refine ⟨⟨by decide +kernel, ?_⟩, by decide +kernel, by decide +kernel, by decide +kernel, by decide +kernel, by decide +kernel⟩
  have h0 : (0 : Nat) ∈ (evL id).hearthOrder := by
    simp only [State.hearthOrder, List.mem_map, List.mem_range]
    exact ⟨(192 - Config.choice (evL id).run.tick 10 0 % 192) % 192, Nat.mod_lt _ (by decide), by omega⟩
  have e : ∃ used, (evL id).nextPlan 0 = (evL id).placeNext ((evL id).slot 0).record used := by
    have : ((evL id).slot 0).next ≠ 0 := by decide +kernel
    exact ⟨_, by simp only [State.nextPlan, this, decide_false, Bool.false_and, Bool.false_eq_true, if_false]; rfl⟩
  obtain ⟨used, e⟩ := e
  have u : (((evL id).slot 0).record.above.head?.map (·.2)).getD 0 ≤ 2 := by decide +kernel
  have o : ((evL id).slot 0).record.outer.2 = [(1, 2)] := by decide +kernel
  obtain ⟨y, hy⟩ := placeIn_one (ok := fun h n => (evL id).fits h (((evL id).slot 0).record.need.times (n + 1)) true) h0 (by decide +kernel)
  refine ⟨y, ?_⟩
  rw [e, State.placeNext, o]
  simpa [placeIn, u] using hy

/-- An engine command of the fibre. -/
def cmd6 (op : EngOp) (run : EngRun) : EngineCmd :=
  { (default : EngineCmd) with id := 5, uid := 1, cohort := 0, hearth := 0, op := op, run := run, flue := 1, bar := none, block := none, since := none }
def evE (c : EngineCmd) (g : Cohort → Cohort) : State :=
  { ((evF fun f => { f with cp := 1, tl := 1 }).updCohort 0 g).withTables with cmds := [c] }
namespace Sys2Proof.Machine
def EngAcc.isOk : EngAcc → Bool | .ok .. => true | _ => false
/-- The state after a read that is answered. -/
def EngAcc.after (s : State) : EngAcc → State | .ok t _ _ => t | _ => s
end Sys2Proof.Machine

theorem witness_FluesStartDeliverAndComplete :
    (∀ n ∈ [64, 512], let c := cmd6 (.cpyl 0 ⟨0, 128⟩ n) .queued; let s := evE c id
     s.flueCmds 0 1 = [c] ∧ s.flueMayStart c = true ∧ c.begun = false ∧ s.flueCheck c = none) ∧
    (let c := { cmd6 (.cpyl 0 ⟨0, 128⟩ 512) .queued with done := 1 }; let s := evE c id; s.flueMayStart c = true ∧ c.begun = true) ∧
    (let c := cmd6 (.cpyl 0x60000 ⟨0, 128⟩ 64) .queued; let s := evE c id; s.flueMayStart c = true ∧ c.begun = false ∧ (s.flueCheck c).isSome = true) ∧
    (let c := { cmd6 (.cpyl 0 ⟨0, 128⟩ 200) .running with done := 1 }; let s := evE c id
     c.run = .running ∧ (s.cmdCohort c).run = .running ∧ c.done < (200 + 127) / 128 ∧
       (s.engRead (s.cmdSlot c).ctx c.unit (s.cmdSlot c).node 0 (gplus ⟨0, 128⟩ 128) (min 128 (200 - 128))).isOk = true ∧ (s.cohort? 0).isSome = true ∧
       1 < s.c0.wptr.length) ∧
    (let c := cmd6 (.cpylSt 128 ⟨0, 128⟩ 200) .running
     let s := evE c fun c => { c with lines := [{ StashLine.region 1 with full := true }], stash := [(128, 9)] }
     (s.cmdCohort c).run = .running ∧ s.engReady c 1 = true ∧ ((s.cmdCohort c).line 1).poison = false ∧ (s.cmdSlot c).node = none ∧
       (s.engWrite (s.cmdSlot c).ctx c.unit c.hearth none ⟨0, 128⟩ (Memory.bytes (s.cmdCohort c).stash 128 128)).isOk = true) ∧
    (∀ g ∈ [0, 1992], let c := { cmd6 (.cpyl 0 ⟨0, 128⟩ 200) .running with done := 2, gwct := g }; let s := evE c id
     (s.cmdCohort c).run = .running ∧ s.flueLines c ≤ c.done ∧ (c.gwct = 0 ∨ c.gwct + 8 ≤ s.ltimeAt 0) ∧ (s.fibre? c.uid).isSome = true ∧ c.bar = none) := by
  decide +kernel

/-- A layout record: 200 elements of 8 bits (`.e4m3`) from address 128 on, a box of 2 ^ b. -/
def lay6 (b : Nat) : List Byte := Memory.bytes ([(0, (128 : Byte)), (0xC, BitVec.ofNat 8 (16 * b)), (0xF, BitVec.ofNat 8 (32 + Ty.e4m3.code.toNat)), (0x30, 200)]) 0 64
theorem witness_flue_deliveries :
    (let c := { cmd6 (.cpym 0 ⟨0, 128⟩ 64) .queued with bar := some 3 }
     let s := evE c fun c => { c with lines := [{ StashLine.region 0 with mapped := some ⟨0, 64⟩ }] }
     s.flueCmds 0 1 = [c] ∧ s.flueMayStart c = true ∧ c.begun = false ∧ s.flueCheck c = none ∧
       (s.receivers c).filter (fun x => (x.badLine 0 64 true).isSome) ≠ [] ∧ (s.cohorts.map (·.uid)).Nodup) ∧
    (let c := cmd6 (.cpym 0 ⟨0, 128⟩ 64) .queued; let s := evE c id
     s.flueMayStart c = true ∧ c.begun = false ∧ s.flueCheck c = none ∧ ∀ x ∈ s.receivers c, x.badLine 0 64 true = none) ∧
    (let c := { cmd6 (.cpym 0 ⟨0, 128⟩ 200) .running with done := 1 }; let s := evE c id
     let r := s.engRead (s.cmdSlot c).ctx c.unit (s.cmdSlot c).node 0 (gplus ⟨0, 128⟩ 128) (min 128 (200 - 128))
     (s.cmdCohort c).run = .running ∧ c.done < (200 + 127) / 128 ∧ r.isOk = true ∧ ((r.after s).cohorts.map (·.uid)).Nodup ∧
       ((r.after s).receivers c).map (·.uid) = [0] ∧ 1 < s.c0.wptr.length) ∧
    (let c := cmd6 (.cpylGg ⟨0, 128⟩ ⟨0, 512⟩ 64) .running; let s := evE c id
     let r := s.engRead (s.cmdSlot c).ctx c.unit (s.cmdSlot c).node 0 (gplus ⟨0, 128⟩ 0) 64
     (s.cmdCohort c).run = .running ∧ c.done < (64 + 127) / 128 ∧ (s.cmdSlot c).node = none ∧ r.isOk = true ∧
       ((r.after s).engWrite (s.cmdSlot c).ctx c.unit c.hearth (s.cmdSlot c).node (gplus ⟨0, 512⟩ 0) (List.replicate 64 0)).isOk = true) ∧
    (∀ d ∈ [1], let c := { cmd6 (.cpyStash 0 0 [0]) .running with done := d, block := some (lay6 8) }; let s := evE c id
     let l := s.cmdLayout c 0
     (s.cmdCohort c).run = .running ∧ c.done < s.flueLines c ∧ 4 ≤ l.width ∧ l.bytes = 256 ∧
       (s.boxCodes c l (coordInts [0]) (128 * d) 128).1.isOk = true ∧ l.elemAt (coordInts [0]) 199 = some (327, 0) ∧
       l.elemAt (coordInts [0]) 200 = none) ∧
    (let c := { cmd6 (.cpyTile 3 0 [0]) .running with block := some (lay6 4) }; let s := evE c id
     c.done = 0 ∧ (s.boxCodes c (s.cmdLayout c 0) (coordInts [0]) 0 (s.cmdLayout c 0).elems).1.isOk = true) := by
  refine ⟨by decide +kernel, by decide +kernel, by decide +kernel, by decide +kernel, by decide +kernel, by decide +kernel⟩

/-- A block of a product of 32 in k, on the formats of its cohort. -/
def block6 : List Byte := Memory.bytes [(6, 32)] 0 64
theorem witness_TileEngineAndCollectiveWork :
    let next (s : State) : List EngineCmd := (s.tileCmds 0).filter fun c => c.run == .held || c.run == .queued
    (let c := cmd6 (.tzeroAcc 7) .queued; let s := evE c id
     s.tileSuspended 0 = false ∧ next s = [c] ∧ s.tileMayStart c = true ∧ c.done = 0 ∧ s.tileCheck c = none ∧ s.tilePoison c = false) ∧
    (let c := cmd6 (.tldTile 3 0) .queued; let s := evE c id
     s.tileSuspended 0 = false ∧ next s = [c] ∧ s.tileMayStart c = true ∧ c.done = 0 ∧ (s.tileCheck c).isSome = true) ∧
    (let c := cmd6 (.tmma 128) .queued; let s := evE c fun c => { c with lines := [{ StashLine.region 1 with full := true }] }
     s.tileSuspended 0 = false ∧ next s = [c] ∧ s.tileMayStart c = true ∧ c.block = none ∧ s.engReady c (128 / 128) = true ∧
       ((s.cmdCohort c).line (128 / 128)).poison = false) ∧
    (∀ op ∈ [EngOp.mtc 15 0x80, .tzeroTile 15, .tzeroAcc 7, .tmma 0, .mfc 15, .tacc 7 63, .tstatBarrier 3], let c := cmd6 op .running
     let s := evE c id
     s.tileSuspended 0 = false ∧ (s.tileCmds 0).find? (·.id == 5) = some c ∧ (s.cmdCohort c).run = .running ∧ s.cmdCohort c = s.c0 ∧
       (∀ x ∈ s.cohorts, x.uid = 0 → x = s.c0) ∧ (s.fibre? 1).isSome = true) ∧
    (∀ d ∈ [0, 1], let c := { cmd6 (.tmma 0) .running with block := some block6, done := d }; let s := evE c id
     (s.tileCmds 0).find? (·.id == 5) = some c ∧ mmaBlocks (s.cmdFormats c) (c.block.getD []) = 2) ∧
    (∀ p ∈ [(0, 0), (2, 0), (2, 1)], ∀ o ∈ [[[0, 7, 9]], [[0, 7]], []],
     let c := { cmd6 (.coll ⟨0, 128⟩ ⟨0, 512⟩ p.1 0) .running with done := p.2, gwct := 1900 }
     let s := evE c id
     let s := { s with slots := s.slots.map fun (x : LaunchSlot) => { x with record := { x.record with peers := 2, rank := 1, levels := [(1, 0, 1), (2, 8, 9)] } } }
     let sz := (collTy 0).bits / 8
     s.cmd? 5 = some c ∧ (s.cmdCohort c).run ≠ .suspended ∧ s.rangeHeld c = false ∧ (s.cmdCohort c).held = false ∧
       (collBad 2 ⟨0, 128⟩ ⟨0, 512⟩ 0 o).isSome = (o == [[0, 7]]) ∧ (s.cmdSlot c).record.peers ≤ 2 ^ 1 ∧ 2 ^ 0 < (s.cmdSlot c).record.peers ∧ [[0, 7, 9]].length + 1 = (s.cmdSlot c).record.peers ∧
       (∀ x ∈ [[0, 7, 9]], x.length = 2 + 1 ∧ x.headD 0 = (0 : Word)) ∧ 128 + 2 * sz ≤ 512 ∧
       c.gwct + 8 ≤ s.ltimeAt 0 ∧ (s.engRead (s.cmdSlot c).ctx c.unit (s.cmdSlot c).node 0 ⟨0, 128⟩ (2 * sz)).isOk = true ∧
       (((s.engRead (s.cmdSlot c).ctx c.unit (s.cmdSlot c).node 0 ⟨0, 128⟩ (2 * sz)).after s).engWrite (s.cmdSlot c).ctx c.unit c.hearth
         (s.cmdSlot c).node ⟨0, 512⟩ (List.replicate (2 * sz) 1)).isOk = true) := by
  decide +kernel

/-- Tile 3 of two rows of 16 elements of 8 bits, in the format of slot 0, `.e4m3`. -/
def evT (c : EngineCmd) (g : Fibre → Fibre) (lines : List StashLine) : State :=
  let s := ((evE c id).updFibre 1 g).updCohort 0 fun c => { c.setTile { Tile.fresh 3 with tcfg := 0x40878000 } with lines := lines }
  { s with slots := s.slots.map fun (x : LaunchSlot) => { x with record := { x.record with formats := [BitVec.ofNat 32 (Ty.e4m3.code.toNat * 2 ^ 27)] } } }
theorem witness_tile_commands :
    (∀ op ∈ [EngOp.tbmp 3, .tcvt 3 7 0x100 5, .tldTile 3 64, .tldAcc 7 64, .tstTile 3 64, .tstAcc 7 64, .tgat 3 0 []], ∀ d ∈ [0, 1],
     let c := { cmd6 op .running with done := d }
     let s := evT c id [{ StashLine.region 0 with full := true }, { StashLine.region 1 with full := true }]
     let co := s.cmdCohort c
     s.tileSuspended 0 = false ∧ (s.tileCmds 0).find? (·.id == 5) = some c ∧ co.run = .running ∧ s.cohort? 0 = some co ∧
       (∀ x ∈ s.cohorts, x.uid = 0 → x = co) ∧ (s.fibre? 1).isSome = true ∧ tileBytes (co.tile 3) = 32 ∧
       tcfgCols (co.tile 3).tcfg % 16 = 0 ∧ tileKind (co.tile 3) ((s.cmdFormats c).getD (tcfgSlot (co.tile 3).tcfg) 0) = some .e4m3 ∧
       descOk ((s.cmdFormats c).getD (tcfgSlot (co.tile 3).tcfg) 0) = true ∧ ctlRnd 0x100 = some .rne ∧
       s.engReady c (64 / 128 + c.done) = true ∧ (co.line (64 / 128 + c.done)).poison = false) ∧
    (∀ bad ∈ [true, false],
     let r : GatRow := ⟨1, ⟨0, 128⟩, 1, 0, 1⟩
     let c := cmd6 (.tgat 3 0 [r]) .running
     let s := { evT c (fun f => { f with waits := [.engineRead 5] }) [] with poison := if bad then [0x2000080 / 64] else [] }
     let a := s.engRead (s.cmdSlot c).ctx c.unit (s.cmdSlot c).node 3 r.addr (gatBytes (s.c0.tile 3).tcfg)
     (s.tileCmds 0).find? (·.id == 5) = some c ∧ gatBytes (s.c0.tile 3).tcfg = 16 ∧ r.y < tcfgRows (s.c0.tile 3).tcfg ∧
       ((s.c0.crew? 0).map fun w => w.tgprog.getLsbD r.y) = some false ∧ s.f1.exited = false ∧ s.f1.waits.contains (.engineRead 5) = true ∧
       (match a with | .ok _ bs _ => !bad && bs.length == 16 | .poison _ => bad | _ => false) = true ∧
       (((a.after s).cohort? 0).bind (·.crew? 0)).isSome = true) := by decide +kernel

def walk6 (off k : Nat) : Walk := { id := 7, die := 0, ctx := 1, space := 0, off := off, reqs := [(k, .fibre 1 (BitVec.ofNat 64 off))] }
def evK (off k : Nat) : State :=
  let s := (evF fun f => { f with waits := [.walk 7] }).withTables
  { s with
    mem := [(0x10000, 1), (0x10002, 2), (0x20000, 1), (0x20002, 3), (0x30000, 1), (0x30002, 4), (0x40000, 0x1F), (0x40003, 2), (0x40007, 3), (0x4000F, 0x23)]
    walks := [walk6 off k]
    contexts := s.contexts.map fun (c : Context) => { c with pageQuota := 8192 } }
def serv6 : Service := { fault := 3, ctx := 1, space := 0, off := 0x2000000, kind := 1, level := 1, srv := 1, reqs := [(1, .fibre 1 0x2000000)] }

theorem witness_WalksAndPageServicesAnswer :
    (∀ k ∈ [0, 1, 2], ∀ off ∈ [64, 0x2000000, 0x4000000], let s := evK off k
     s.walks.find? (·.id == 7) = some (walk6 off k) ∧ s.walking (walk6 off k) = true ∧ (s.fibre? 1).isSome = true) ∧
    (∀ k ∈ [0, 1, 2],
      (match (evK 64 k).walk 0 1 (walk6 64 k).addr k false with | .leaf _ at' => decide (at' = 0x40000) | _ => false) = true ∧
      (evK 0x2000000 k).walk 0 1 (walk6 0x2000000 k).addr k false = .service 1 1 3 0x40008 ∧
      (match (evK 0x4000000 k).walk 0 1 (walk6 0x4000000 k).addr k false with | .absent .. => true | _ => false) = true) ∧
    (let s := { evK 64 1 with services := [serv6] }
     s.frontUp = true ∧ (s.services.find? fun v => v.fault == 3 && v.srv == 1) = some serv6 ∧ s.walk 7 serv6.ctx serv6.addr serv6.kind false = .service 1 1 3 0x40008 ∧
       (s.garleyPage serv6.ctx 0x40008).isSome = true) := by decide +kernel

/-! #### Queues and packets -/

/-- A packet with the bytes of a sparse list. -/
def pkt6 (l : Memory) : Pkt :=
  { id := 9, level := 0, index := 0, parent := none, addr := 0, bytes := Memory.bytes l 0 64, started := false, done := false, cut := false, data := [] }
def queue6 (ps : List Pkt) : Queue :=
  { n := 5, ctx := 1, state := .running, ring := ⟨0, 0x8000⟩, k := 4, priority := 1, privileged := true, tailLine := ⟨0, 0x9000⟩,
    headLine := ⟨0, 0x9040⟩, tail := 1, read := 1, completed := 0, pkts := ps, headDue := false, destroying := false }
def evQ (ps : List Pkt) (l : Memory) : State :=
  let s := (evF id).withTables
  { s with
    mem := s.mem ++ l, queues := [queue6 ps], hearths := s.hearths.map fun (h : Hearth) => { h with budget := (1000000, 1000000) } }
/-- `State.PacketDue` as a check. -/
def dueB (s : State) (n op : Nat) (p : Pkt) : Bool :=
  let s1 := (s.nextPkt n).1
  s.served (s.queue n) && decide (∀ r ∈ s.queues, s.ahead (s.queue n) r = true → s.queueReady r = false) && decide ((s.nextPkt n).2 = some p)
    && decide (s1.malformed (s1.queue n) p = none) && decide (p.kind = op) && !(s1.queue n).mustWait p
theorem due_of {s : State} {n op : Nat} {p : Pkt} (h : dueB s n op p = true) : s.PacketDue n op ((s.nextPkt n).1.took n) p := by
  simp only [dueB, Bool.and_eq_true, decide_eq_true_eq, Bool.not_eq_true'] at h
  exact ⟨h.1.1.1.1.1, h.1.1.1.1.2, _, Prod.ext rfl h.1.1.1.2, rfl, h.1.1.2, h.1.2, h.2⟩

theorem witness_PacketsStartAndComplete :
    (∀ x ∈ [(0, []), (2, [(0, 2), (8, 64), (16, 1)]), (3, [(0, 3), (8, 64)]), (5, [(0, 5), (8, 11)]), (9, [(0, 9), (8, 5), (9, 3)]),
        (8, [(0, 8)]), (520, [(0, 8), (8, 2)]), (264, [(0, 8), (8, 1)])],
      let p := pkt6 x.2; (evQ [p] []).PacketDue 5 x.1 (((evQ [p] []).nextPkt 5).1.took 5) p) ∧
    (let p := pkt6 [(0, 8)]
     p.field 8 1 = 0 ∧ (((((evQ [p] []).nextPkt 5).1.took 5).context? 1).map fun c => c.recovery.sealing) = some none) ∧
    (let p := pkt6 [(0, 8), (8, 1)]
     p.field 8 1 = 1 ∧ ∀ r ∈ ((((((evQ [p] []).nextPkt 5).1.took 5).finishPkt 5 9).replay 1 (some 5)).queue 5).pkts, r.started = true → r.done = true ∨ r.op ≠ 1) ∧
    (pkt6 [(0, 8), (8, 2)]).field 8 1 = 2 ∧
    (∀ b ∈ [(11 : Byte), 6], ∀ ps ∈ [[pt5 []], []], let s := evQ [pkt6 [(0, 5), (8, b)]] []
     let s := { s with contexts := s.contexts.map fun (c : Context) => { c with recovery := { c.recovery with points := ps } } }
     let s1 := (s.nextPkt 5).1.took 5
     (s.nextPkt 5).2 = some (pkt6 [(0, 5), (8, b)]) ∧ s1.frontAcked = true ∧
       ((s1.context? (s1.queue 5).ctx).map fun c => c.recovery.points.any fun p => p.state == .sealing) = some (ps != [])) ∧
    (∀ m ∈ [[(0x2000040, (3 : Byte))], []], let q := { pkt6 [(0, 3), (8, 64), (16, 2)] with started := true }
     let s := evQ [q] m
     s.frontUp = true ∧ (s.queue 5).waitingOn = some q ∧ (s.frontRead (s.queue 5).ctx (ownAddr (q.field 8 8)) 8).isOk = true ∧ q.field 16 8 = 2) ∧
    (let p := pkt6 [(1, 2)]; let s := evQ [p] []
     s.served (s.queue 5) = true ∧ (∀ r ∈ s.queues, s.ahead (s.queue 5) r = true → s.queueReady r = false) ∧ (s.nextPkt 5).2 = some p ∧
       (s.nextPkt 5).1.malformed ((s.nextPkt 5).1.queue 5) p = some 0) ∧
    (∀ x ∈ [(3, 1), (4, 2)], let s0 := evQ [pkt6 [(0, 0)]] []
     let r := { queue6 [pkt6 [(0, 0)]] with n := x.1, priority := x.2 }
     let s := { s0 with queues := s0.queues ++ [r] }
     r ∈ s.queues ∧ s.ahead (s.queue 5) r = true ∧ s.queueReady r = true) := by
  refine ⟨fun x hx => due_of (by revert hx; revert x; decide +kernel), by decide +kernel, by decide +kernel, by decide +kernel, by decide +kernel,
    by decide +kernel, by decide +kernel, by decide +kernel⟩

/-- A launch record of one fibre with 8 registers at 0x4000, as the tables map it. -/
def launch6 : Memory :=
  [(0x2004004, 0x11), (0x2004005, 1), (0x2004006, 1), (0x2004007, 1), (0x2004009, 0x10), (0x2004024, 1), (0x20040A8, 1)]
theorem witness_launch : let s := evQ [pkt6 [(0, 1), (9, 0x40)]] launch6
    ((((s.nextPkt 5).1.took 5).frontRead 1 (ownAddr 0x4000) 256).after s).launchOk false (Memory.bytes launch6 0x2004000 256) = true := by
  intro s
  have h1 : (LaunchRec.ofBytes (Memory.bytes launch6 0x2004000 256)).outerScope = 0 := by decide +kernel
  have h2 : (LaunchRec.ofBytes (Memory.bytes launch6 0x2004000 256)).cohorts * (LaunchRec.ofBytes (Memory.bytes launch6 0x2004000 256)).cohortSize = 1 := by
    decide +kernel
  have h0 : ∀ t : State, (0 : Nat) ∈ t.hearthOrder := fun t => by
    simp only [State.hearthOrder, List.mem_map, List.mem_range]
    exact ⟨(192 - Config.choice t.run.tick 10 0 % 192) % 192, Nat.mod_lt _ (by decide), by omega⟩
  have h3 : (((((s.nextPkt 5).1.took 5).frontRead 1 (ownAddr 0x4000) 256).after s).vacant.placeWhole (LaunchRec.ofBytes (Memory.bytes launch6 0x2004000 256))).isSome := by
    obtain ⟨y, hy⟩ := placeIn_one (ok := fun h n => ((((s.nextPkt 5).1.took 5).frontRead 1 (ownAddr 0x4000) 256).after s).vacant.fits h
      ((LaunchRec.ofBytes (Memory.bytes launch6 0x2004000 256)).need.times (n + 1)) true) (h0 _) (by decide +kernel)
    rw [State.placeWhole, if_pos h1, if_pos h2, hy]
    rfl
  simp only [State.launchOk, State.placesOk, h3, Bool.true_or, Bool.true_and]
  decide +kernel
theorem witness_PacketsReadAndWriteMemory :
    (∀ m ∈ [launch6, []], let p := pkt6 [(0, 1), (9, 0x40)]; let s := evQ [p] m; let s1 := ((s.nextPkt 5).1.took 5)
     s.PacketDue 5 1 s1 p ∧ s1.exclusiveWaits 1 = false ∧ (s1.frontRead 1 (ownAddr (p.field 8 8)) 256).isOk = true ∧
       (let s2 := (s1.frontRead 1 (ownAddr (p.field 8 8)) 256).after s
        (match s1.frontRead 1 (ownAddr (p.field 8 8)) 256 with | .ok _ bs _ => bs | _ => []) = Memory.bytes m 0x2004000 256 ∧
        (m = [] → recordFieldsOk false (Memory.bytes m 0x2004000 256) = false) ∧ (List.range 256).find? (fun m => !(s2.slot m).busy) = some 1)) ∧
    (∀ b ∈ [(0 : Byte), 1], let p := pkt6 ([(0, 4), (8, 64), (16, 2), (24, b)]); let s := evQ [p] []; let s1 := ((s.nextPkt 5).1.took 5)
     s.PacketDue 5 4 s1 p ∧ s1.frontAcked = true ∧ p.field 0x18 1 = b.toNat ∧ (s1.frontRead 1 (ownAddr 64) 8).isOk = true ∧
       (((s1.frontRead 1 (ownAddr 64) 8).after s).frontWrite 1 (pktAgent 9) (ownAddr 64) (leBytes 8 2)).isOk = true ∧
       (s1.frontWrite 1 (pktAgent 9) (ownAddr 64) (leBytes 8 2)).isOk = true) ∧
    (∀ b ∈ [(1 : Byte), 2], let p := pkt6 [(0, 6), (8, 3), (16, 64)]; let s := evQ [p] [(0x200004A, b)]; let s1 := ((s.nextPkt 5).1.took 5)
     s.PacketDue 5 6 s1 p ∧ (s1.frontRead 1 (ownAddr 64) 64).isOk = true) ∧
    (let p := pkt6 [(0, 10), (8, 64)]; let s := evQ [p] []; let s1 := ((s.nextPkt 5).1.took 5)
     s.PacketDue 5 10 s1 p ∧ (∀ r ∈ (s.queue 5).pkts, r.op = 10 → r.started = true → r.done = true)) ∧
    (let r := { pkt6 [(0, 10), (8, 64)] with started := true, data := List.replicate 64 7 }; let s := evQ [r] []
     s.frontUp = true ∧ ((s.queue 5).pkts.find? fun p => p.started && !p.done && p.op == 10) = some r ∧ s.frontAcked = true ∧
       (s.frontWrite 1 (pktAgent 9) (ownAddr 64) r.data).isOk = true) ∧
    (let p := pkt6 [(0, 7), (8, 64), (17, 1), (32, 100)]; let s := evQ [p] []; let s1 := ((s.nextPkt 5).1.took 5)
     s.PacketDue 5 7 s1 p ∧ (∀ r ∈ (s.queue 5).pkts, r.op = 7 → r.started = true → r.done = true) ∧ p.field 32 8 = 100 ∧
       (s1.frontRead 1 ⟨(spacesOf p).1, 64⟩ 100).isOk = true) ∧
    (let r := { pkt6 [(0, 7), (8, 64), (17, 1), (32, 100)] with started := true, data := List.replicate 40 7 }; let s := evQ [r] []
     s.frontUp = true ∧ (s.queue 5).pkts = [r] ∧ r.done = false ∧ r.op = 7 ∧ r.data ≠ [] ∧
       (s.frontWrite 1 (pktAgent 9) ⟨(spacesOf r).2, BitVec.ofNat 64 316⟩ (r.data.take 4)).isOk = true) ∧
    (let r := { pkt6 [(0, 7), (8, 64), (17, 1), (32, 100)] with started := true }
     let s := { evQ [r] [] with outside := [⟨pktAgent 9, 0, 2000⟩] }
     s.frontUp = true ∧ (s.queue 5).pkts = [r] ∧ r.done = false ∧ r.op = 7 ∧ r.data = [] ∧ s.acked (pktAgent 9) = true) ∧
    (∀ x ∈ [(2 : Byte), 17, 0, 18], let s := evQ [] [(0x2009000, x)]
     s.served (s.queue 5) = true ∧ (s.queue 5).headDue = false ∧ (s.frontRead 1 (s.queue 5).tailLine 8).isOk = true ∧
       (((s.frontRead 1 (s.queue 5).tailLine 8).after s).frontRead 1 (gplus (s.queue 5).ring (64 * (1 % 2 ^ 4))) 64).isOk = true) := by
  refine ⟨fun m hm => ⟨due_of (by revert hm; revert m; decide +kernel), by revert hm; revert m; decide +kernel⟩,
    fun m hm => ⟨due_of (by revert hm; revert m; decide +kernel), by revert hm; revert m; decide +kernel⟩,
    fun m hm => ⟨due_of (by revert hm; revert m; decide +kernel), by revert hm; revert m; decide +kernel⟩,
    ⟨due_of (by decide +kernel), by decide +kernel⟩, by decide +kernel, ⟨due_of (by decide +kernel), by decide +kernel⟩, by decide +kernel, by decide +kernel, by decide +kernel⟩

/-! #### The management window -/

/-- A command in the window: its bytes from a sparse list; context 1 has no owner; a queue of it; a verified session 7. -/
def evM (l : Memory) (len : Nat) : State :=
  let s := evQ [] []
  { s with
    window := { ready := false, result := 0, buffer := l, pending := some len }, sessions := [⟨7, true, 0, 0⟩],
    services := [{ serv6 with srv := 2, off := 64, reqs := [] }] }
/-- `State.CommandDue` without a session, as a check. -/
def cmdB (s : State) (code : Nat) (own : Bool) (c : Option Context) : Bool :=
  let w := s.window
  s.frontUp && w.pending.isSome && decide (commandSize code ≤ w.pending.getD 0) && decide (w.field 0 1 = code) && decide (w.field 1 1 = 0) && decide (w.field 4 4 = 0)
    && (own || (decide (w.field 2 2 = 0) && decide (c = none)))
    && (!own || (c.isSome && decide (c = (s.context? (w.field 2 2)).filter fun c => c.owner == 0)))
theorem cmd_of {s : State} {code : Nat} {own : Bool} {c : Option Context} (h : cmdB s code own c = true) : s.CommandDue code own s c := by
  simp only [cmdB, Bool.and_eq_true, Bool.or_eq_true, decide_eq_true_eq, Bool.not_eq_true'] at h
  obtain ⟨⟨⟨⟨⟨⟨⟨h0, h1⟩, h2⟩, h3⟩, h4⟩, h5⟩, h6⟩, h7⟩ := h
  obtain ⟨len, hl⟩ := Option.isSome_iff_exists.1 h1
  rw [hl] at h2
  refine ⟨h0, len, hl, h3, h4, ⟨by rw [if_pos h5]; exact h2, .inl ⟨h5, rfl⟩⟩, fun ho => ?_, fun ho => ?_⟩
  · rcases h6 with h6 | h6
    · rw [ho] at h6; exact absurd h6 (by decide)
    · exact h6
  · rw [h5]
    rcases h7 with h7 | h7
    · rw [ho] at h7; exact absurd h7 (by decide)
    · exact h7

def ctx6 : Context := ((evM [] 0).context? 1).getD default

theorem witness_ManagementCommandsTakeEffect :
    (let s := evM [(0, 1), (0x1C, 4)] 0x28; let w := s.window
     s.CommandDue 1 false s none ∧ w.field 0x10 4 = 0 ∧ w.field 0x1C 1 = 4 ∧ w.field 0x1D 3 = 0 ∧ w.field 0x20 8 = 0 ∧ w.field 0x18 4 = 0 ∧
       (List.range 4096).find? (fun i => i != 0 && (s.context? i).isNone) = some 2 ∧ (s.reserve 2 (contextPieces 0 4 0)).isSome = true) ∧
    (let s := evM [(0, 2), (2, 1)] 0x10; s.CommandDue 2 true s (some ctx6)) ∧
    (let s := evM [(0, 3), (2, 1), (0x11, 0x80), (0x1A, 4), (0x20, 64), (0x30, 128)] 0x40; let w := s.window
     let addr (off : Nat) : GAddr := ⟨BitVec.ofNat 16 (w.field (off + 8) 2), BitVec.ofNat 64 (w.field off 8)⟩
     s.CommandDue 3 true s (some ctx6) ∧ w.field 0x1D 3 = 0 ∧ w.field 0x2A 6 = 0 ∧ w.field 0x3A 6 = 0 ∧ w.field 0x1C 1 = 0 ∧ w.field 0x1B 1 = 0 ∧
       w.field 0x1A 1 = 4 ∧ w.field 0x10 8 = 0x8000 ∧ w.field 0x20 8 = 64 ∧ w.field 0x30 8 = 128 ∧ s.lineSpace ctx6 (addr 0x10).space = true ∧
       s.lineSpace ctx6 (addr 0x20).space = true ∧ s.spaceFault 1 (addr 0x30).space = none ∧ spaceKind (addr 0x30).space ≠ 1 ∧
       (List.range 64).find? (fun n => (s.queue n).state == .unbound) = some 0) ∧
    (let s := evM [(0, 4), (2, 1), (0x10, 5)] 0x11
     s.CommandDue 4 true s (some ctx6) ∧ s.window.field 0x10 1 = 5 ∧ (s.queue 5).state ≠ .unbound ∧ (s.queue 5).ctx = ctx6.id) ∧
    (∀ x ∈ [QueueState.halted, .idle], let s0 := evM [(0, 5), (2, 1), (0x10, 5)] 0x20
     let s := { s0 with queues := s0.queues.map fun (q : Queue) => { q with state := x } }
     s.CommandDue 5 true s (some ctx6) ∧ s.window.field 0x10 1 = 5 ∧ s.window.field 0x11 7 = 0 ∧ (s.queue 5).ctx = ctx6.id ∧ (s.queue 5).state = x) ∧
    (∀ fl ∈ [(0 : Byte), 7], let s := evM [(0, 6), (2, 1), (0x10, 3), (0x11, fl), (0x19, 0x10), (0x22, 1)] 0x28
     s.CommandDue 6 true s (some ctx6) ∧ s.window.field 0x11 1 = fl.toNat ∧ s.window.field 0x12 6 = 0 ∧ s.window.field 0x18 8 = 4096 ∧
       s.window.field 0x20 8 = 65536) ∧
    (let s := evM [(0, 7), (0x10, 3), (0x15, 1)] 0x1C
     s.CommandDue 7 false s none ∧ s.window.field 0x10 1 = 3 ∧ (∀ i, i < 4 → s.window.field (0x11 + i) 1 ≤ 2) ∧ s.window.field 0x15 1 = 1 ∧
       s.window.field 0x16 2 = 0 ∧ s.window.field 4 4 = 0) ∧
    (let s := evM [(0, 8)] 0x18
     s.CommandDue 8 false s none ∧ s.window.pending = some 0x18 ∧ s.window.field 0x14 4 = 0 ∧ s.window.field 4 4 = 0 ∧ s.window.field 0x10 4 = 0) ∧
    (let s := evM [(0, 9), (2, 1), (0x10, 3)] 0x12
     s.CommandDue 9 true s (some ctx6) ∧
       (s.services.find? (fun v => v.fault == s.window.field 0x10 2 && v.srv == 2 && some v.ctx == some ctx6.id)).isSome = true) := by
  refine ⟨⟨cmd_of (by decide +kernel), by decide +kernel⟩, cmd_of (by decide +kernel), ⟨cmd_of (by decide +kernel), by decide +kernel⟩,
    ⟨cmd_of (by decide +kernel), by decide +kernel⟩, fun x hx => ⟨cmd_of (by revert hx; revert x; decide +kernel), by revert hx; revert x; decide +kernel⟩,
    fun x hx => ⟨cmd_of (by revert hx; revert x; decide +kernel), by revert hx; revert x; decide +kernel⟩, ⟨cmd_of (by decide +kernel), by decide +kernel⟩,
    ⟨cmd_of (by decide +kernel), by decide +kernel⟩, ⟨cmd_of (by decide +kernel), by decide +kernel⟩⟩

/-- A SET_POLICY of session 7 with its tag. -/
def policy6 : Memory := [(0, 7), (4, 7), (0x10, 3)]
def evTag : State := evM (policy6.putBytes 0x1C (macBytes 7 false 0 (policy6.bytes 0 0x1C))) 0x2C

/-- A command of a verified session whose tag is right. -/
theorem witness_tagged_command : ∃ s1, evTag.CommandDue 7 false s1 none ∧ evTag.window.field 4 4 ≠ 0 ∧ s1.verified = true ∧ evTag.window.field 0x10 1 = 3 := by
  have low : ∀ o n, o + n ≤ 0x1C → evTag.window.field o n = leNat (policy6.bytes o n) := fun o n h => by
    simp only [Window.field, Window.bytes, evTag, evM]
    rw [Memory.bytes_putBytes_other _ _ _ _ _ (.inl h)]
  have lowb : evTag.window.bytes 0 0x1C = policy6.bytes 0 0x1C := Memory.bytes_putBytes_other _ _ _ _ _ (.inl (by decide))
  have sid : evTag.window.field 4 4 = 7 := (low 4 4 (by decide)).trans (by decide +kernel)
  have mac : (macBytes 7 false 0 (policy6.bytes 0 0x1C)).length = 16 := by
    simp only [macBytes, padBytes, List.length_take, List.length_append, List.length_replicate]
    omega
  have tag : evTag.window.bytes 0x1C 16 = macBytes 7 false 0 (policy6.bytes 0 0x1C) := by
    have := Memory.bytes_putBytes policy6 0x1C (macBytes 7 false 0 (policy6.bytes 0 0x1C))
    rwa [mac] at this
  refine ⟨{ evTag with sessions := evTag.sessions.map fun x => if x.id = 7 then { x with requests := x.requests + 1 } else x }, ⟨by decide +kernel, 0x2C, rfl, ?_, ?_, ?_, ?_, ?_⟩,
    by rw [sid]; decide, ?_, (low 0x10 1 (by decide)).trans (by decide +kernel)⟩
  · exact (low 0 1 (by decide)).trans (by decide +kernel)
  · exact (low 1 1 (by decide)).trans (by decide +kernel)
  · rw [sid]
    refine ⟨by decide, .inr ⟨by decide, by decide, ⟨7, true, 0, 0⟩, by decide +kernel, ?_, rfl⟩⟩
    show evTag.window.bytes 0x1C 16 = macBytes 7 false 0 (evTag.window.bytes 0 0x1C)
    rw [tag, lowb]
  · exact fun _ => ⟨(low 2 2 (by decide)).trans (by decide +kernel), rfl⟩
  · exact fun h => absurd h (by decide)
  · have e : ({ evTag with sessions := evTag.sessions.map fun x => if x.id = 7 then { x with requests := x.requests + 1 } else x } : State).window.field 4 4 = 7 := sid
    simp only [State.verified, e]
    decide +kernel

/-! #### The package, pre-emption, power and errors -/

def evP (l : Link) : State := { st0 with pkg := { st0.pkg with links := [l] } }
theorem witness_RegistersLinksAndResets :
    (let s := { State.reset with window := { State.reset.window with ready := true } }
     s.window.ready = true ∧ (s.die 4).resetting = false ∧ ([4, 0, 0, 0] : List Byte).length = 4 ∧ leNat [4, 0, 0, 0] = 4 ∧ leNat ([0xC0, 0x0F, 0, 0] : List Byte) = 4032 ∧ 0x40 + 0xFC0 ≤ 0x1000) ∧
    State.reset.window.ready = false ∧ State.reset.pkg.powered = true ∧ State.reset.pkg.stage = BitVec.ofNat 32 (0 * 2 ^ 24) ∧
    (let w : BitVec 32 := BitVec.ofNat 32 (0xFF * 2 ^ 24 + 3 * 2 ^ 16); 5 ≤ (w >>> 24).toNat) ∧
    (let s := { st0 with pkg := { st0.pkg with temps := [25, 115, 25, 25, 25, 25] } }
     115 ≤ s.pkg.temps.getD 1 0) ∧
    (∀ n ∈ [0, 11, 12], let l : Link := ⟨n, true, fullLanes n, 1, 3, false⟩
     (evP l).pkg.links.find? (fun x => x.n == l.n) = some l ∧ fullLanes n - (fullLanes n - 1) ≤ l.spares ∧
       l.spares < fullLanes n - (fullLanes n / 2 - 1) ∧ fullLanes n / 2 ≤ (fullLanes n / 2 - 1) + l.spares ∧ 0 + l.spares < fullLanes n / 2) ∧
    (∀ n ∈ [0, 3, 12], ∀ fails ∈ [7, 8], let l : Link := ⟨n, true, fullLanes n, 1, fails, false⟩
     let s := evP l
     let s := { s with pkg := { s.pkg with dims := [2, 2], stage := BitVec.ofNat 32 (4 * 2 ^ 24) } }
     s.pkg.links.find? (fun x => x.n == l.n) = some l ∧ l.up = true ∧ s.pkg.inUse n = true ∧ s.linksTrained = true ∧ (8 ≤ l.failures ↔ fails = 8)) ∧
    (let s := evP ⟨3, false, 18, 0, 0, false⟩; s.pkg.links.map (·.up) = [false] ∧ (s.pkg.links.map (·.n)).Nodup) ∧
    (let s := { st0 with ops := [{ op5 .load false with req := { req5 .load with target := .host 64 } }] }
     s.flitUsers 12 false ≠ [] ∧ st0.flitUsers 12 false = [] ∧ (s.op? 5).isSome = true) ∧
    (∀ n ∈ [0, 11, 12], let l : Link := ⟨n, true, fullLanes n, 1, 7, true⟩
     (evP l).pkg.links.find? (fun x => x.n == l.n) = some l ∧ l.again = true ∧ 7 ≤ l.failures) ∧
    (∀ d ∈ [1, 3, 4, 5], (st0.die d).resetting = false ∧ (∃ x ∈ st0.dies, x.n = d) ∧
      (∀ c ∈ st0.contexts, c.stopping = false) ∧ ∀ c ∈ st0.cohorts, dieOfHearth c.hearth = d → c.run = .suspended ∨ c.crews = []) ∧
    (let s := { st0 with hearths := [Hearth.fresh st0 100] }; dieOfHearth 100 = 2 ∧ ∃ x ∈ s.hearths, x.id = 100) ∧
    (let s := st0.updDie 2 fun d => { d with resetting := true }; (s.die 2).resetting = true ∧ ∀ c ∈ s.contexts, c.replaying = none) := by
  refine ⟨by decide +kernel, by decide +kernel, by decide +kernel, by decide +kernel, by decide +kernel, by decide +kernel, by decide +kernel, by decide +kernel,
    by decide +kernel, by decide +kernel, by decide +kernel, by decide +kernel, by decide +kernel, by decide +kernel⟩

/-- Context 1 as changed; its cohort in a run state; hearth 0 as changed. -/
def evS (g : Context → Context) (r : CohortRun) (h : Hearth → Hearth) (f : Fibre → Fibre) : State :=
  let s := evF f
  { s with
    contexts := s.contexts.map g
    cohorts := s.cohorts.map fun (c : Cohort) => { c with run := r, decl := { c.decl with lines := 8, tiles := 0, accs := 0 } }
    hearths := s.hearths.map fun x => h { x with budget := (1000000, 1000000) }
    policy := { s.policy with retentionUs := 1 } }
/-- A second context with a launch of priority 3 that waits and is exclusive. -/
def evX : State :=
  let s := evS (fun c => { c with saveBytes := 2 ^ 24 }) .running id id
  { s with
    contexts := s.contexts ++ [{ placeContext with id := 2 }]
    slots := s.slots ++ [{ placeSlot with n := 1, ctx := 2, prio := 3, next := 0, record := { placeRecord with prio := 3 } }]
    policy := { s.policy with modes := [0, 0, 0, 2] } }

theorem witness_PreemptionPowerAndTemperature :
    (∀ m ∈ [1, 2], let s := evS (fun c => { c with stopping := true, mode := m }) .running id id
     s.frontUp = true ∧ ((s.context? 1).map fun c => (c.suspended, c.stopping, c.mode)) = some (false, true, m)) ∧
    (((evX.context? 1).map fun c => (c.suspended, c.stopping)) = some (false, false) ∧ evX.stopMode 1 = some 2 ∧ evX.frontUp = true) ∧
    (let s := evS (fun c => { c with stopping := true, mode := 1, saveBytes := 2 ^ 24 }) .stopping id id
     ((s.context? 1).map fun c => (c.stopping, s.savable c)) = some (true, true) ∧ s.ctxStopped 1 = true ∧ s.frontUp = true ∧
       ∀ x ∈ s.ctxCohorts 1, ∀ l ∈ x.lines, l.dirty = 0) ∧
    (∀ m ∈ [0, 1, 2], let s := evS (fun c => { c with suspended := true, mode := m }) .suspended id id
     s.frontUp = true ∧ (∀ f ∈ s.fibres, f.order = none ∧ f.sequencing = none) ∧
       ((s.context? 1).map fun c => (c.suspended, s.mayRestore c)) = some (true, true) ∧ (s.restoreAt s.c0 s.c0.hearth).isSome = true) ∧
    (st0.ltime < (st0.hearth 0).interval + 10000 ∧ (let s := { st0 with ltime := 25000 }; (s.hearth 0).interval + 10000 ≤ s.ltime)) ∧
    (st0.pkg.limitW = 2600 ∧ (∀ x ∈ st0.pkg.temps, x ≤ 95) ∧ ∀ x ∈ st0.pkg.hbmTemps, x ≤ 95) ∧
    (let s := { st0 with hearths := [{ Hearth.fresh st0 5 with frontReq := some 1 }] }
     (s.hearth 5).frontReq = some 1 ∧ s.resident 5 = []) ∧
    (let s := evS id .running (fun h => { h with idleSince := some 0 }) fun f => { f with waits := [.sleep 99999999] }
     (s.hearth 0).retention = false ∧ s.hearthIdle 0 = true ∧ (s.hearth 0).idleSince = some 0 ∧ 0 + 1000 * s.policy.retentionUs < s.ltime) ∧
    (let s := { st0 with hearths := [{ Hearth.fresh st0 5 with retention := true }] }
     (s.hearth 5).retention = true ∧ s.resident 5 = []) ∧
    (let s := evS id .running (fun h => { h with retention := true }) id
     (s.hearth 0).retention = true ∧ s.resident 0 = [s.c0]) ∧ (∃ x ∈ st0.dies, x.n = 5) := by
  refine ⟨by decide +kernel, by decide +kernel, by decide +kernel, by decide +kernel, by decide +kernel, by decide +kernel, by decide +kernel, by decide +kernel,
    by decide +kernel, by decide +kernel, by decide +kernel⟩

theorem witness_ErrorsAndOtherAgents :
    (let s := evE (cmd6 (.tmma 0) .running) id
     s.cohort? 0 = some s.c0 ∧ 3071 < s.c0.decl.lines ∧ 15 < s.c0.decl.tiles ∧ 7 < s.c0.decl.accs ∧
       (s.tileCmds 0).find? (fun c => c.run == .running && match c.op with | .tmma _ => true | _ => false) = some (cmd6 (.tmma 0) .running)) ∧
    (∀ x ∈ [(0x00482077, 0), (0x08082077, 2)], let s := evF fun f => { f with ibuf := some (placePacket 0 x.1) }
     let s := { s with slots := s.slots.map fun (l : LaunchSlot) => { l with record := { l.record with paired := true } } }
     s.fibre? 1 = some s.f1 ∧ 255 < s.f1.arch.regs.length ∧ s.f1.badRegs.contains 255 = false ∧ s.ready s.f1 = true ∧
       groupFault (s.f1.arch.pc.toNat % 3) (s.f1.arch.repc == 0) s.f1.groupWords = none ∧
       (x.2 = 2 → (s.f1.residueWord 2).isSome = true) ∧ (s.slotOf s.f1).record.paired = true) ∧
    (let s := { st0 with hearths := [{ Hearth.fresh st0 5 with suspect := true }] }
     s.frontUp = true ∧ (s.hearth 5).suspect = true ∧ (s.hearth 5).fenced = false ∧ s.resident 5 = [] ∧ (∃ x ∈ s.dies, x.n = dieOfHearth 5) ∧
       RepairUnit.hearth 5 ∉ (s.die (dieOfHearth 5)).faulty ∧ (s.die (dieOfHearth 5)).repair.length < 64) ∧
    (let t := { st0 with outside := [⟨0, 0, st0.ltimeAt 0 + 1⟩] }
     let u := { st0 with pkg := { st0.pkg with links := [{ Link.reset 0 with up := true }, { Link.reset 12 with up := true }] } }
     u.hostUp = true ∧ u.peersUp = true ∧ u.acked 0 = true ∧ u.copying 0x8FFFFFFFF8 8 = false ∧ t.acked 0 = false ∧ st0.joinWatches = []) ∧
    (0x8FFFFFFFF8 + 8 ≤ memTop ∧ st0.copying 0x8FFFFFFFF8 8 = false ∧ st0.poisoned (.dev 0x8FFFFFFFF8) 8 = false ∧
      (∃ o, atomOfCode o = some .add) ∧ 8 ≤ Ty.s64.bits ∧ 0x8FFFFFFFF8 % (Ty.s64.bits / 8) = 0 ∧
      (atomVal .add .s64 (st0.mem.readLE 0x8FFFFFFFF8 8) (5 % 2 ^ 64) (0 % 2 ^ 64)).isSome = true) ∧
    (let l : L2Line := ⟨0, true, 9, .S, 0, 1992⟩
     let s := { evF id with l2 := [l, ⟨1, true, 9, .S, 0, 0⟩], pkg := { st0.pkg with links := [{ Link.reset 12 with up := true }] } }
     s.hostUp = true ∧ s.l2? 0 true 9 = some l ∧ l.horizon + 8 ≤ s.ltimeAt 0 ∧ ∃ x ∈ s.l2, x.host = true ∧ x.line = 9 ∧ x.die ≠ 0) := by
  decide +kernel

theorem witness_tests_of_rows :
    ((∃ x ∈ st0.dies, x.n = 3) ∧ RepairUnit.l2Row 3 31 9 ∉ (st0.die 3).faulty ∧ (st0.die 3).applied ≤ (st0.die 3).repair.length ∧ (st0.die 3).repair.length < 64 ∧
      (3 * 2 ^ 14 + 31 * 512 + 7) / 2 ^ 14 = 3 ∧ (3 * 2 ^ 14 + 31 * 512 + 7) / 512 % 32 = 31) ∧
    (({ st0 with contexts := [] } : State).testable (.hbmRow 11 9) = true ∧ (∃ x ∈ st0.dies, x.n = 4 + 11 / 6) ∧ RepairUnit.hbmRow 11 9 ∉ (st0.die (4 + 11 / 6)).faulty ∧
      (st0.die (4 + 11 / 6)).repair.length < 64) := by
  refine ⟨by decide +kernel, ?_, by decide +kernel⟩
  have h : ({ st0 with contexts := [] } : State).leaves = [] := rfl
  have f : ({ st0 with contexts := [] } : State).frontUp = true := by decide +kernel
  simp [State.testable, h, f]
theorem witness_outside_accesses :
    (let s := (evF id).withTables
     let s := { s with pkg := { s.pkg with links := [{ Link.reset 0 with up := true }, { Link.reset 12 with up := true }] } }
     let x (k off : Nat) := s.unitXlate 0 1 k ⟨0, BitVec.ofNat 64 off⟩
     s.hostUp = true ∧ s.peersUp = true ∧ s.run.fired = [] ∧ s.copying 0x2000040 8 = false ∧ s.rangeUp 0x2000040 8 = true ∧
       (∀ k ∈ [0, 1], (match x k 64 with
         | .ok t (.dev pa) => pa == 0x2000040 && t.stackUp pa && t.run.fired == [] && !t.copying pa 8 && t.rangeUp pa 8 && !t.poisoned (.dev pa) 8
         | _ => false) = true) ∧
       (match x 1 0x4000000 with | .fault => true | _ => false) = true ∧ linesOf 0x2000040 8 ≠ []) := by decide +kernel
/-- A hearth whose budget holds the power of a test, which is free. -/
theorem witness_test_power : let s := { st0 with hearths := [{ Hearth.fresh st0 5 with suspect := true, budget := (Config.choice st0.run.tick 31 0, Config.choice st0.run.tick 31 1) }] }
    Config.choice s.run.tick 31 0 ≤ (s.hearth 5).budget.1 ∧ Config.choice s.run.tick 31 1 ≤ (s.hearth 5).budget.2 :=
  ⟨Nat.le_refl _, Nat.le_refl _⟩

/-- The two worked examples of R421. -/
theorem test_stack_and_row : stackOf 0x22300 = 3 ∧ rowOf 0x22300 = 48 ∧ stackOf 0x12300 = 11 ∧ rowOf 0x12300 = 5 := by decide
end

/-! ## O41: every step keeps the three memories canonical

A memory stays in canonical form (`Memory.wf`) where it is written by `put`, `putBytes`, `writeLE`, `filter` or `moved`. So the proof
follows the model's functions in the order in which they are defined, one lemma for each: where `s` is canonical, the state that the
function answers is canonical. Three kinds of function occur:

* most functions leave the three memories alone by definition, and then `h : s.canonical` is itself the proof for the updated state;
* few functions write a memory (`writeBytes`, `writeRecord`, `setAD`, `takeFrames`, `garleyPage`, `restoreUnits`, `suspendSaved`,
  `restoreContext`, `scramble`, `lost`, `packageReset`, `moveFrame`, `execHostInvalidate`), each through one of the operations above;
* the others are compositions, and their proofs follow the branches of the definition.

The last lemmas put the instructions and events together (`canonical_exec`), then the turn and the step. -/

namespace Sys2Proof.Machine

/-! ### What the invariant says of an answer that carries a state -/

/-- The state that an engine's access leaves, where it succeeds. -/
def EngAcc.canonical : EngAcc → Prop
  | .ok s _ _ => s.canonical
  | _ => True

/-- The state that a unit's own translation leaves, where it succeeds. -/
def UnitXlate.canonical : UnitXlate → Prop
  | .ok s _ => s.canonical
  | _ => True

/-- The state that a performed stash word leaves. -/
def StashOut.canonical : StashOut → Prop
  | .done s => s.canonical
  | _ => True

/-- The state that an effect leaves, whether it is done, to be tried again, or raised a cause. -/
def FxOut.canonical : FxOut → Prop
  | .go s | .again s | .raised s => s.canonical

/-- The state of a management command that is answered with values. -/
def Answer.canonical : Answer → Prop
  | .yes s _ => s.canonical
  | _ => True

/-- The state from which a turn goes on. -/
def Turn.canonical : Turn → Prop
  | .word _ s | .event _ s | .done s => s.canonical

/-- A word at issue carries a state only where it waits. -/
inductive WordOut.canonical : WordOut → Prop where
  | ok {fx} : canonical (.ok fx)
  | raise {c tval} : canonical (.raise c tval)
  | raiseAfter {sc c tval} : canonical (.raiseAfter sc c tval)
  | wait {s} (h : s.canonical) : canonical (.wait s)

/-- The state, if there is one. -/
def CanonicalSome : Option State → Prop
  | some s => s.canonical
  | none => True

/-- The next state, if there is one. -/
def CanonicalNext : Host.Outcome State Fault Refusal → Prop
  | .next s => s.canonical
  | _ => True

theorem EngAcc.canonical_ok {r : EngAcc} {s bs g} (h : r.canonical) (e : r = .ok s bs g) : s.canonical := by
  subst e
  exact h

theorem UnitXlate.canonical_ok {r : UnitXlate} {s t} (h : r.canonical) (e : r = .ok s t) : s.canonical := by
  subst e
  exact h

theorem StashOut.canonical_done {r : StashOut} {s} (h : r.canonical) (e : r = .done s) : s.canonical := by
  subst e
  exact h

theorem Answer.canonical_yes {r : Answer} {s v} (h : r.canonical) (e : r = .yes s v) : s.canonical := by
  subst e
  exact h

/-! ### The memory operations that the text above has no lemma for -/

theorem Memory.wf_foldl {α : Type} {f : Memory → α → Memory} {m : Memory} {l : List α} (h : m.wf = true)
    (hf : ∀ m x, m.wf = true → (f m x).wf = true) : (l.foldl f m).wf = true :=
  List.foldlRecOn (motive := fun m : Memory => m.wf = true) l f h fun m hm x _ => hf m x hm

theorem Memory.wf_moved (m : Memory) (a b n : Nat) (h : m.wf = true) : (m.moved a b n).wf = true :=
  Memory.wf_foldl (Memory.wf_filter _ _ h) fun _ _ hm => Memory.wf_put _ _ _ hm

namespace State

/-! ### How the invariant goes through updates, branches, folds and options -/

theorem canonical.mem {s : State} (h : s.canonical) : s.mem.wf = true := h.1
theorem canonical.hostMem {s : State} (h : s.canonical) : s.hostMem.wf = true := h.2.1
theorem canonical.peerMem {s : State} (h : s.canonical) : s.peerMem.wf = true := h.2.2

/-- An update of other fields. The three equations hold by definition where the updated state is at hand. -/
theorem canonical_with {s t : State} (h : s.canonical) (hm : t.mem = s.mem := by rfl) (hh : t.hostMem = s.hostMem := by rfl)
    (hp : t.peerMem = s.peerMem := by rfl) : t.canonical := by
  unfold State.canonical
  rw [hm, hh, hp]
  exact h

theorem canonical_setMem {s : State} {m : Memory} (h : s.canonical) (hm : m.wf = true) : { s with mem := m }.canonical :=
  ⟨hm, h.hostMem, h.peerMem⟩

theorem canonical_setHostMem {s : State} {m : Memory} (h : s.canonical) (hm : m.wf = true) : { s with hostMem := m }.canonical :=
  ⟨h.mem, hm, h.peerMem⟩

theorem canonical_ite {c : Prop} [Decidable c] {s t : State} (hs : s.canonical) (ht : t.canonical) :
    (if c then s else t).canonical := by
  split
  · exact hs
  · exact ht

theorem canonical_foldl {α : Type} {f : State → α → State} {s : State} {l : List α} (h : s.canonical)
    (hf : ∀ s x, s.canonical → (f s x).canonical) : (l.foldl f s).canonical :=
  List.foldlRecOn l f h fun s hs x _ => hf s x hs

theorem canonical_foldl_fst {α β : Type} {f : State × β → α → State × β} {p : State × β} {l : List α} (h : p.1.canonical)
    (hf : ∀ p x, p.1.canonical → (f p x).1.canonical) : (l.foldl f p).1.canonical :=
  List.foldlRecOn (motive := fun p => p.1.canonical) l f h fun p hp x _ => hf p x hp

theorem canonical_of_fst {α : Type} {p : State × α} {s : State} {a : α} (h : p.1.canonical) (e : p = (s, a)) : s.canonical := by
  subst e
  exact h

theorem canonical_of_some {o : Option State} {s : State} (h : CanonicalSome o) (e : o = some s) : s.canonical := by
  subst e
  exact h

theorem canonical_getD {o : Option State} {s : State} (h : s.canonical) (ho : CanonicalSome o) : (o.getD s).canonical := by
  cases o with
  | none => exact h
  | some t => exact ho

theorem canonical_bind {o : Option State} {f : State → Option State} (ho : CanonicalSome o)
    (hf : ∀ s, s.canonical → CanonicalSome (f s)) : CanonicalSome (o.bind f) := by
  cases o with
  | none => exact trivial
  | some s => exact hf s ho

theorem canonical_map {o : Option State} {f : State → State} (ho : CanonicalSome o) (hf : ∀ s, s.canonical → (f s).canonical) :
    CanonicalSome (o.map f) := by
  cases o with
  | none => exact trivial
  | some s => exact hf s ho

theorem canonical_filter {o : Option State} {p : State → Bool} (ho : CanonicalSome o) : CanonicalSome (o.filter p) := by
  cases o with
  | none => exact trivial
  | some s =>
    change CanonicalSome (if p s then some s else none)
    split
    · exact ho
    · exact trivial

variable {s : State}

/-! ### State updates and the L2 -/

theorem canonical_updFibre {uid g} (h : s.canonical) : (s.updFibre uid g).canonical := h
theorem canonical_updCohort {uid g} (h : s.canonical) : (s.updCohort uid g).canonical := h
theorem canonical_updCrew {cohort crew g} (h : s.canonical) : (s.updCrew cohort crew g).canonical := h
theorem canonical_updHearth {id g} (h : s.canonical) : (s.updHearth id g).canonical := h
theorem canonical_updDie {n g} (h : s.canonical) : (s.updDie n g).canonical := h
theorem canonical_updSlot {n g} (h : s.canonical) : (s.updSlot n g).canonical := h
theorem canonical_raiseSlot {n g} (h : s.canonical) : (s.raiseSlot n g).canonical := canonical_ite h h
theorem canonical_setQueue {q} (h : s.canonical) : (s.setQueue q).canonical := h
theorem canonical_updContext {id g} (h : s.canonical) : (s.updContext id g).canonical := h
theorem canonical_updOp {id g} (h : s.canonical) : (s.updOp id g).canonical := h
theorem canonical_dropOp {id} (h : s.canonical) : (s.dropOp id).canonical := h
theorem canonical_updCmd {id g} (h : s.canonical) : (s.updCmd id g).canonical := h
theorem canonical_foldHorizon {key horizon} (h : s.canonical) : (s.foldHorizon key horizon).canonical := canonical_ite h h

theorem canonical_evictL2 {die host line} (h : s.canonical) : (s.evictL2 die host line).canonical := by
  unfold State.evictL2
  split
  · exact canonical_foldHorizon h
  · exact h

theorem canonical_makeRoom {die line} (h : s.canonical) : (s.makeRoom die line).canonical := by
  simp only [State.makeRoom]
  refine canonical_foldl h fun _ _ h => ?_
  split
  · exact h
  · split
    · exact canonical_evictL2 h
    · exact h

theorem canonical_shareLine {host line} (h : s.canonical) : (s.shareLine host line).canonical := h

theorem canonical_l2Load {die host line} (h : s.canonical) : (s.l2Load die host line).canonical := by
  unfold State.l2Load
  split
  · exact h
  · extract_lets shared s₁ new
    have h₁ : s₁.canonical := canonical_shareLine (canonical_makeRoom h)
    clear_value s₁ new
    split <;> exact h₁

theorem canonical_invalidate {die host line} (h : s.canonical) : (s.invalidate die host line).canonical :=
  canonical_with (canonical_foldl h fun _ _ h => canonical_evictL2 h)

theorem canonical_l2Store {die host line sector} (h : s.canonical) : (s.l2Store die host line sector).1.canonical := by
  unfold State.l2Store
  extract_lets s₁ s₂ horizon old new
  have h₁ : s₁.canonical := canonical_invalidate h
  have h₂ : s₂.canonical := canonical_ite h₁ (canonical_makeRoom h₁)
  split
  · exact h₂
  · exact canonical_foldHorizon h₂

theorem canonical_grantLease {die host line len} (h : s.canonical) : (s.grantLease die host line len).1.canonical := by
  simp only [State.grantLease]
  split
  · exact canonical_with (canonical_l2Load h)
  · exact canonical_foldHorizon (canonical_l2Load h)

theorem canonical_taint {gs} (h : s.canonical) : (s.taint gs).canonical := h
theorem canonical_cleanse {gs} (h : s.canonical) : (s.cleanse gs).canonical := h

theorem canonical_taintFor {node t gs} (h : s.canonical) : (s.taintFor node t gs).canonical := by
  unfold State.taintFor
  split <;> exact h

theorem canonical_cleanseFor {node t gs} (h : s.canonical) : (s.cleanseFor node t gs).canonical := by
  unfold State.cleanseFor
  split <;> exact h

theorem canonical_stage {node die pa bs} (h : s.canonical) : (s.stage node die pa bs).canonical :=
  canonical_foldl h fun _ _ h => h

theorem canonical_writeBytes {node die t bs} (h : s.canonical) : (s.writeBytes node die t bs).canonical := by
  unfold State.writeBytes
  split
  · split
    · exact canonical_cleanseFor (canonical_stage h)
    · exact ⟨Memory.wf_putBytes _ _ _ h.mem, h.hostMem, h.peerMem⟩
  · exact ⟨h.mem, Memory.wf_putBytes _ _ _ h.hostMem, h.peerMem⟩
  · exact ⟨h.mem, h.hostMem, Memory.wf_putBytes _ _ _ h.peerMem⟩

theorem canonical_noteWrite {node hit} (h : s.canonical) : (s.noteWrite node hit).canonical :=
  canonical_with h (State.noteWrite_mem ..) (State.noteWrite_hostMem ..) (State.noteWrite_peerMem ..)

theorem canonical_writeRecord {ctx bytes} (h : s.canonical) : (s.writeRecord ctx bytes).1.canonical := by
  simp only [State.writeRecord]
  split
  · exact h
  · split
    · exact canonical_noteWrite (canonical_setMem h (Memory.wf_writeLE _ _ _ _ (Memory.wf_putBytes _ _ _ h.mem)))
    · exact canonical_noteWrite (canonical_setMem h (Memory.wf_writeLE _ _ _ _ h.mem))

/-! ### The memory system -/

theorem canonical_unhoist {hearth t n} (h : s.canonical) : (s.unhoist hearth t n).canonical := h

theorem canonical_sendMem {uid name r} (h : s.canonical) : (s.sendMem uid name r).canonical := by
  unfold State.sendMem
  split
  · exact h
  · extract_lets hearth op s₁ s₂
    have h₂ : s₂.canonical := by
      unfold s₂
      split <;> exact h
    exact canonical_ite (canonical_unhoist h₂) h₂

theorem canonical_stamp (h : s.canonical) : s.stamp.1.canonical := h

theorem canonical_l1Fill {hearth node lease line} (h : s.canonical) : (s.l1Fill hearth node lease line).1.canonical :=
  canonical_updHearth (canonical_stamp (canonical_grantLease h))

theorem canonical_loadValue {f r evict} (h : s.canonical) : (s.loadValue f r evict).1.canonical := by
  unfold State.loadValue
  extract_lets hearth slot
  split
  · extract_lets line s₁
    have h₁ : s₁.canonical := canonical_ite h h
    split
    · exact h₁
    · split
      · exact canonical_l2Load h₁
      · exact canonical_updFibre (canonical_l1Fill h₁)
  · exact canonical_l2Load h
  · exact h

theorem canonical_takeLines {die t} (h : s.canonical) : (s.takeLines die t).1.canonical := by
  unfold State.takeLines
  split
  · exact canonical_l2Store h
  · exact canonical_l2Store h
  · exact h

theorem canonical_hostTakes {line} (h : s.canonical) :
    (s.hostTakes line).1.canonical :=
  canonical_foldl h fun _ _ h => canonical_evictL2 h

theorem canonical_takes {r : MemReq} {die} (h : s.canonical) : (r.takes s die).1.canonical := by
  unfold MemReq.takes
  split
  · exact canonical_hostTakes h
  · exact canonical_takeLines h

theorem canonical_writeBackPoison {node t mask bad} (h : s.canonical) : (s.writeBackPoison node t mask bad).canonical :=
  canonical_ite (canonical_taintFor h) (canonical_cleanseFor h)

theorem canonical_performHome {op node die} (h : s.canonical) : (s.performHome op node die).1.canonical := by
  unfold State.performHome
  extract_lets r
  split
  rename_i e
  have h₁ := canonical_of_fst (canonical_takes h) e
  split
  rename_i e
  have h₂ := canonical_of_fst (canonical_stamp h₁) e
  extract_lets s₃ old bad
  have h₃ : s₃.canonical := by
    unfold s₃
    split <;> exact h₂
  refine canonical_updOp ?_
  split
  · exact canonical_ite (canonical_taintFor (canonical_writeBytes h₃)) (canonical_writeBytes h₃)
  · split
    · split
      · exact h₃
      · exact canonical_writeBytes h₃
    · exact h₃
  · split
    · exact h₃
    · exact canonical_writeBytes h₃
  · exact canonical_writeBackPoison (canonical_foldl h₃ fun _ _ h => canonical_writeBytes h)
  · exact h₃

theorem canonical_writeBacks {uid cohort p} (h : s.canonical) : (s.writeBacks uid cohort p).canonical := by
  unfold State.writeBacks
  split
  · exact h
  · extract_lets rs base s₁ s₂
    have h₁ : s₁.canonical := canonical_foldl h fun _ _ h => canonical_updOp (canonical_sendMem h)
    exact canonical_updCohort (canonical_with h₁)

theorem canonical_releaseStep2 {uid} (h : s.canonical) : (s.releaseStep2 uid).canonical := by
  unfold State.releaseStep2
  split
  · exact h
  · split
    · exact h
    · exact canonical_ite h (canonical_writeBacks h)

theorem canonical_fixLoads {uid} (h : s.canonical) : (s.fixLoads uid).canonical := by
  unfold State.fixLoads
  split
  · exact h
  · exact canonical_foldl h fun _ _ h => canonical_updOp (canonical_loadValue h)

/-! ### The stash port -/

theorem canonical_wakeLine {cohort n} (h : s.canonical) : (s.wakeLine cohort n).canonical := h

theorem canonical_wakeLines {cohort first count} (h : s.canonical) : (s.wakeLines cohort first count).canonical :=
  canonical_foldl h fun _ _ h => h

theorem canonical_fillLine {cohort n} (h : s.canonical) : (s.fillLine cohort n).canonical := h

theorem canonical_stashOp {uid name op} (h : s.canonical) : (s.stashOp uid name op).canonical := by
  simp only [State.stashOp]
  split
  · exact h
  · split
    · split
      · exact h
      · split
        · exact trivial
        · split
          · exact trivial
          · split
            · exact trivial
            · exact h
    · split
      · exact trivial
      · exact h
    · split
      · exact trivial
      · exact canonical_wakeLines h
    · exact canonical_writeBacks h
    · exact canonical_wakeLines (canonical_updCohort (canonical_writeBacks h))
    · split
      · exact trivial
      · exact canonical_foldl h fun _ _ h => canonical_ite h h
    · split <;> exact h

theorem canonical_fillMapped {cohort n t} (h : s.canonical) : (s.fillMapped cohort n t).canonical := by
  unfold State.fillMapped
  split
  · exact h
  · refine canonical_wakeLine (canonical_updCohort ?_)
    split
    · exact canonical_grantLease h
    · exact canonical_grantLease h
    · exact h

/-! ### Barriers -/

theorem canonical_barCheck {cohort n} (h : s.canonical) : (s.barCheck cohort n).canonical := by
  unfold State.barCheck
  split
  · exact h
  · exact canonical_ite h h

theorem canonical_barCheckAll {cohort} (h : s.canonical) : (s.barCheckAll cohort).canonical := by
  unfold State.barCheckAll
  split
  · exact h
  · exact canonical_foldl h fun _ _ h => canonical_barCheck h

theorem canonical_barArrive {f n} (h : s.canonical) : (s.barArrive f n).canonical := canonical_barCheck h
theorem canonical_barWait {f n} (h : s.canonical) : (s.barWait f n).canonical := canonical_ite h h
theorem canonical_barExpect {f n v} (h : s.canonical) : (s.barExpect f n v).canonical := canonical_barCheck h
theorem canonical_barDeliver {cohort n bytes} (h : s.canonical) : (s.barDeliver cohort n bytes).canonical := canonical_barCheck h
theorem canonical_barHalt {cohort n owed} (h : s.canonical) : (s.barHalt cohort n owed).canonical := canonical_barCheck h
theorem canonical_devBarAlloc {slot n} (h : s.canonical) : (s.devBarAlloc slot n).canonical := canonical_ite h h

theorem canonical_devBarCheck {slot n} (h : s.canonical) : (s.devBarCheck slot n).canonical := by
  unfold State.devBarCheck
  split
  · exact h
  · exact canonical_ite h h

theorem canonical_devBarCheckAll {slot} (h : s.canonical) : (s.devBarCheckAll slot).canonical :=
  canonical_foldl h fun _ _ h => canonical_devBarCheck h

theorem canonical_devArrive {f n} (h : s.canonical) : (s.devArrive f n).canonical := canonical_devBarCheck h
theorem canonical_devWait {f n} (h : s.canonical) : (s.devWait f n).canonical := canonical_ite h h

theorem canonical_devWake {slot n} (h : s.canonical) : (s.devWake slot n).canonical := by
  unfold State.devWake
  split
  · exact h
  · split <;> exact h

/-! ### Exits and causes -/

theorem canonical_unsequence {gone} (h : s.canonical) : (s.unsequence gone).canonical := h

theorem canonical_exitFibre {uid} (h : s.canonical) : (s.exitFibre uid).canonical := by
  unfold State.exitFibre
  split <;> exact h

theorem canonical_exitAll {uid} (h : s.canonical) : (s.exitAll uid).canonical := by
  unfold State.exitAll
  split
  · exact h
  · exact canonical_ite h (canonical_devBarCheckAll (canonical_barCheckAll (canonical_exitFibre h)))

theorem canonical_takeCause {uid c tval pc} (h : s.canonical) : (s.takeCause uid c tval pc).canonical := by
  simp only [State.takeCause]
  split
  · exact h
  · split
    · exact canonical_exitAll (canonical_writeRecord h)
    · split
      · exact canonical_exitAll (canonical_writeRecord h)
      · exact h

theorem canonical_raise {uid c tval pc} (h : s.canonical) : (s.raise uid c tval pc).canonical := by
  unfold State.raise
  split
  · exact h
  · split
    · extract_lets l
      split
      · exact h
      · split
        · exact canonical_writeRecord h
        · split
          · exact canonical_takeCause h
          · exact canonical_ite h (canonical_takeCause h)
    · exact canonical_takeCause h

/-! ### Translation -/

theorem canonical_setAD {place kind} (h : s.canonical) : (s.setAD place kind).canonical :=
  canonical_noteWrite (canonical_setMem h (Memory.wf_writeLE _ _ _ _ h.mem))

theorem canonical_tlbInsert {hearth entry} (h : s.canonical) : (s.tlbInsert hearth entry).canonical := h
theorem canonical_walkCacheInsert {die ctx a root} (h : s.canonical) : (s.walkCacheInsert die ctx a root).canonical := h
theorem canonical_tlbDrop {hearthIn dieIn p q} (h : s.canonical) : (s.tlbDrop hearthIn dieIn p q).canonical := h

theorem canonical_askWalk {hearth ctx kind a r} (h : s.canonical) : (s.askWalk hearth ctx kind a r).1.canonical := by
  simp only [State.askWalk]
  split <;> exact h

theorem canonical_missWait {f kind a} (h : s.canonical) : (s.missWait f kind a).canonical := canonical_updFibre (canonical_askWalk h)

theorem canonical_takeFrames {ctx len align t} (h : s.canonical) (e : s.takeFrames ctx len align = some t) : t.1.canonical := by
  unfold State.takeFrames at e
  split at e
  · cases e
  · cases e
    exact canonical_setMem h (Memory.wf_filter _ _ h.mem)

theorem canonical_garleyPage {ctx place} (h : s.canonical) : CanonicalSome (s.garleyPage ctx place) := by
  simp only [State.garleyPage]
  split
  · exact trivial
  · split
    · exact trivial
    · split
      · exact trivial
      · rename_i e
        have ht := canonical_takeFrames h e
        exact canonical_updContext (canonical_noteWrite (canonical_setMem ht (Memory.wf_writeLE _ _ _ _ ht.mem)))

/-! ### The units' own accesses, kindling, joins and watches -/

theorem canonical_unitXlate {unit ctx kind a} (h : s.canonical) : (s.unitXlate unit ctx kind a).canonical := by
  unfold State.unitXlate
  split
  · exact trivial
  · split
    · split
      · exact canonical_setAD h
      · exact trivial
      · exact trivial
      · exact trivial
      · exact trivial
    · split
      · exact h
      · exact trivial

theorem canonical_homeWrite {die pa bs} (h : s.canonical) : (s.homeWrite die pa bs).canonical :=
  canonical_noteWrite (canonical_writeBytes h)

theorem canonical_releaseHeld (h : s.canonical) : s.releaseHeld.canonical := canonical_foldl h fun _ _ h => canonical_homeWrite h

theorem canonical_unitWrite {unit slot ctx off bs} (h : s.canonical) : CanonicalSome (s.unitWrite unit slot ctx off bs) := by
  unfold State.unitWrite
  split
  · rename_i e
    have h₁ := UnitXlate.canonical_ok (canonical_unitXlate h) e
    exact canonical_ite h₁ (canonical_homeWrite h₁)
  · rename_i e
    exact canonical_writeBytes (UnitXlate.canonical_ok (canonical_unitXlate h) e)
  · exact trivial

theorem canonical_addRecord {die r} (h : s.canonical) : CanonicalSome (s.addRecord die r) := by
  unfold State.addRecord
  extract_lets r' run s₁
  have h₁ : s₁.canonical := h
  split
  · exact h₁
  · split
    · exact trivial
    · split
      · exact trivial
      · rename_i e
        exact canonical_updSlot (canonical_of_some (canonical_unitWrite h₁) e)

theorem canonical_spawnStatus {f r} (h : s.canonical) : (s.spawnStatus f r).1.canonical := by
  unfold State.spawnStatus
  split
  · exact h
  · split
    · exact h
    · rename_i e
      exact canonical_of_some (canonical_addRecord h) e

theorem canonical_kindlingRecord {l reason addr first} (h : s.canonical) : (s.kindlingRecord l reason addr first).canonical :=
  canonical_writeRecord h

theorem canonical_writeImage {die l b bs} (h : s.canonical) : CanonicalSome (s.writeImage die l b bs) :=
  List.foldlRecOn (motive := CanonicalSome) _ _ h fun _ ho _ _ => canonical_bind ho fun _ h => canonical_unitWrite h

theorem canonical_becomeContinuation {f a t pc} (h : s.canonical) : CanonicalSome (s.becomeContinuation f a t pc) := by
  simp only [State.becomeContinuation]
  split
  · split
    · exact trivial
    · rename_i e
      have hs := canonical_of_some (canonical_writeImage h) e
      exact canonical_exitAll hs
  · exact trivial

theorem canonical_continuationRecord {w} (h : s.canonical) : (s.continuationRecord w).canonical :=
  canonical_ite h (canonical_updSlot (canonical_getD h (canonical_unitWrite h)))

theorem canonical_relink {ws} (h : s.canonical) : (s.relink ws).canonical := by
  induction ws generalizing s with
  | nil => exact h
  | cons w ws ih => exact ih (canonical_getD h (canonical_unitWrite h))

theorem canonical_fireJoins (h : s.canonical) : s.fireJoins.canonical :=
  canonical_ite h (canonical_foldl (canonical_relink h) fun _ _ h => canonical_continuationRecord h)

theorem canonical_fireAll {n} (h : s.canonical) : (State.fireAll n s).canonical := by
  induction n generalizing s with
  | zero => exact h
  | succ n ih => exact canonical_ite h (ih (canonical_fireJoins h))

theorem canonical_evalWatches {node hit} (h : s.canonical) : (s.evalWatches node hit).canonical :=
  canonical_fireJoins (canonical_noteWrite h)

theorem canonical_fireWatch {die index} (h : s.canonical) : (s.fireWatch die index).canonical := by
  unfold State.fireWatch
  split
  · exact h
  · split
    · exact h
    · rename_i e
      exact canonical_updDie (canonical_of_some (canonical_addRecord h) e)

theorem canonical_watchRegister {f t value mask ctl r} (h : s.canonical) : (s.watchRegister f t value mask ctl r).1.canonical := by
  simp only [State.watchRegister]
  split
  · split
    · exact h
    · split
      · exact h
      · exact canonical_fireWatch (canonical_updDie (canonical_l2Store h))
  · exact h

theorem canonical_watchFree {ctx handle} (h : s.canonical) : (s.watchFree ctx handle).1.canonical := by
  simp only [State.watchFree]
  split
  · split <;> exact h
  · exact h

/-! ### Services and engines -/

theorem canonical_startService {ctx kind a lvl srv size reqs} (h : s.canonical) :
    (s.startService ctx kind a lvl srv size reqs).1.canonical := by
  unfold State.startService
  split
  · exact h
  · extract_lets n add
    split
    · exact h
    · split
      · exact h
      · split
        rename_i e
        have h₁ := canonical_of_fst (canonical_writeRecord h) e
        split <;> exact h₁

theorem canonical_engRead1 {ctx unit node kind a n} (h : s.canonical) : (s.engRead1 ctx unit node kind a n).canonical := by
  simp only [State.engRead1]
  split
  · exact trivial
  · exact trivial
  · exact trivial
  · rename_i e
    split
    · exact trivial
    · split
      · exact trivial
      · split
        · exact canonical_l2Load (UnitXlate.canonical_ok (canonical_unitXlate h) e)
        · exact canonical_l2Load (UnitXlate.canonical_ok (canonical_unitXlate h) e)
        · exact UnitXlate.canonical_ok (canonical_unitXlate h) e

theorem canonical_engRead {ctx unit node kind a n} (h : s.canonical) : (s.engRead ctx unit node kind a n).canonical := by
  refine List.foldlRecOn (motive := EngAcc.canonical) _ _ h fun r hr p _ => ?_
  split
  · split
    · rename_i e
      exact EngAcc.canonical_ok (by exact canonical_engRead1 hr) e
    · exact canonical_engRead1 hr
  · exact hr

theorem canonical_performWrite {die node t bs} (h : s.canonical) : (s.performWrite die node t bs).1.canonical := by
  unfold State.performWrite
  extract_lets n
  split
  rename_i e
  have h₁ := canonical_of_fst (by exact canonical_foldl_fst h fun _ _ h => canonical_takeLines (by exact h)) e
  cases t with
  | dev pa => exact canonical_evalWatches (canonical_writeBytes h₁)
  | host a => exact canonical_writeBytes h₁
  | peer p a => exact canonical_writeBytes h₁

theorem canonical_engWrite1 {ctx unit hearth node a bs} (h : s.canonical) : (s.engWrite1 ctx unit hearth node a bs).canonical := by
  unfold State.engWrite1
  split
  · exact trivial
  · exact trivial
  · exact trivial
  · rename_i e
    have h₁ := UnitXlate.canonical_ok (canonical_unitXlate h) e
    extract_lets held
    split
    · exact trivial
    · exact canonical_unhoist (canonical_performWrite h₁)

theorem canonical_engWrite {ctx unit hearth node a bs} (h : s.canonical) : (s.engWrite ctx unit hearth node a bs).canonical := by
  refine List.foldlRecOn (motive := EngAcc.canonical) _ _ h fun r hr p _ => ?_
  split
  · split
    · rename_i e
      exact EngAcc.canonical_ok (canonical_engWrite1 hr) e
    · exact canonical_engWrite1 hr
  · exact hr

theorem canonical_resizeLocks {co} (h : s.canonical) : (s.resizeLocks co).canonical := canonical_ite h h
theorem canonical_dropReadLocks {hearth cmd} (h : s.canonical) : (s.dropReadLocks hearth cmd).canonical := h

theorem canonical_endCmd {c} (h : s.canonical) : (s.endCmd c).canonical := by
  simp only [State.endCmd]
  split <;> exact h

theorem canonical_finishCmd {c bytes} (h : s.canonical) : (s.finishCmd c bytes).canonical := by
  simp only [State.finishCmd]
  split
  · exact canonical_foldl (canonical_endCmd h) fun _ _ h => canonical_barDeliver h
  · exact canonical_endCmd h

theorem canonical_engineRecord {c reason detail} (h : s.canonical) : (s.engineRecord c reason detail).canonical := canonical_writeRecord h
theorem canonical_readDone {c v cause} (h : s.canonical) : (s.readDone c v cause).canonical := h

theorem canonical_haltCmd {c reason detail} (h : s.canonical) : (s.haltCmd c reason detail).canonical := by
  unfold State.haltCmd
  extract_lets owed s₁ s₂ s₃
  have h₂ : s₂.canonical := canonical_updCohort (canonical_engineRecord h)
  have h₃ : s₃.canonical := canonical_ite (canonical_readDone h₂) (canonical_endCmd h₂)
  split
  · exact canonical_foldl h₃ fun _ _ h => canonical_barHalt h
  · exact h₃

theorem canonical_engStop {c kind r} (h : s.canonical) : (s.engStop c kind r).canonical := by
  unfold State.engStop
  split
  · exact canonical_haltCmd h
  · exact canonical_haltCmd h
  · split
    · rename_i e
      exact canonical_updCmd (canonical_of_fst (canonical_startService h) e)
    · rename_i e
      exact canonical_haltCmd (canonical_of_fst (canonical_startService h) e)
  · exact h

theorem canonical_engWait {c} (h : s.canonical) : (s.engWait c).canonical := h

theorem canonical_cpymStart {c o n} (h : s.canonical) : (s.cpymStart c o n).canonical := by
  simp only [State.cpymStart]
  split
  · exact h
  · split
    · exact canonical_foldl (canonical_engineRecord h) fun _ _ h => canonical_barHalt h
    · exact canonical_engineRecord h

theorem canonical_flueStart {hearth flue} (h : s.canonical) : (s.flueStart hearth flue).canonical := by
  simp only [State.flueStart]
  split
  · split
    · exact h
    · split
      · exact h
      · split
        · exact canonical_haltCmd h
        · split
          · exact canonical_cpymStart h
          · exact h
  · exact h

theorem canonical_deliverLine {cohort flue o bs} (h : s.canonical) : (s.deliverLine cohort flue o bs).canonical := h

theorem canonical_boxCodes {c l cs first n} (h : s.canonical) : (s.boxCodes c l cs first n).1.canonical := by
  refine List.foldlRecOn (motive := fun r : EngAcc × List Nat => r.1.canonical) _ _ h fun r hr i _ => ?_
  split
  · rename_i e
    have h₁ := EngAcc.canonical_ok hr e
    split
    · exact h₁
    · split
      · rename_i e
        exact EngAcc.canonical_ok (canonical_engRead h₁) e
      · exact canonical_engRead h₁
  · exact hr

theorem canonical_boxCodes_ok {c l cs first n t bs g codes} (h : s.canonical) (e : s.boxCodes c l cs first n = (.ok t bs g, codes)) :
    t.canonical := by
  have hb : (s.boxCodes c l cs first n).1.canonical := canonical_boxCodes h
  rw [e] at hb
  exact hb

theorem canonical_progress {c bytes g} (h : s.canonical) : (s.progress c bytes g).canonical := canonical_updCmd (canonical_raiseSlot h)

theorem canonical_delivered {c bytes g} (h : s.canonical) : (s.delivered c bytes g).canonical :=
  canonical_ite (canonical_dropReadLocks (canonical_progress h)) (canonical_progress h)

theorem canonical_flueDeliver {c} (h : s.canonical) : (s.flueDeliver c).canonical := by
  unfold State.flueDeliver
  extract_lets slot u k len placed
  split
  · split
    · rename_i e
      exact canonical_delivered (canonical_deliverLine (EngAcc.canonical_ok (canonical_engRead h) e))
    · exact canonical_engStop h
  · split
    · rename_i e
      have h₁ := EngAcc.canonical_ok (canonical_engRead h) e
      exact canonical_delivered (canonical_foldl h₁ fun _ _ h => canonical_deliverLine h)
    · exact canonical_engStop h
  · split
    · exact canonical_engWait h
    · split
      · exact canonical_haltCmd h
      · extract_lets bs
        split
        · rename_i e
          exact canonical_delivered (EngAcc.canonical_ok (canonical_engWrite h) e)
        · exact canonical_engStop h
  · split
    · rename_i e
      have h₁ := EngAcc.canonical_ok (canonical_engRead h) e
      split
      · rename_i e
        exact canonical_delivered (EngAcc.canonical_ok (canonical_engWrite h₁) e)
      · exact canonical_engStop h₁
    · exact canonical_engStop h
  · extract_lets l n first last
    split
    · rename_i e
      exact canonical_delivered (canonical_deliverLine (canonical_boxCodes_ok h e))
    · exact canonical_engStop h
  · extract_lets l
    split
    · rename_i e
      exact canonical_delivered (canonical_updCohort (canonical_boxCodes_ok h e))
    · exact canonical_engStop h
  · exact h

theorem canonical_tileGo {c} (h : s.canonical) : (s.tileGo c).canonical := by
  unfold State.tileGo
  split
  · exact h
  · split
    · exact canonical_haltCmd h
    · exact canonical_ite (canonical_haltCmd h) h

theorem canonical_tileNext {held cs} (h : s.canonical) : (s.tileNext held cs).canonical := by
  induction cs generalizing s held with
  | nil => exact h
  | cons c cs ih =>
    unfold State.tileNext
    split
    · exact ih h
    · split
      · exact canonical_ite (ih h) h
      · split
        · split
          · exact canonical_tileGo h
          · split
            · exact ih (canonical_engWait h)
            · exact canonical_ite (canonical_haltCmd (canonical_updCmd h)) (canonical_tileGo (canonical_updCmd h))
        · exact canonical_tileGo h

theorem canonical_tileStart {hearth} (h : s.canonical) : (s.tileStart hearth).canonical := canonical_ite h (canonical_tileNext h)

theorem canonical_tldLine {c o n put done} (h : s.canonical) : (s.tldLine c o n put done).canonical := by
  unfold State.tldLine
  extract_lets line
  split
  · exact canonical_engWait h
  · split
    · exact canonical_haltCmd h
    · split
      extract_lets s₁ s₂
      have h₂ : s₂.canonical := canonical_progress (canonical_updCohort h)
      exact canonical_ite (canonical_finishCmd (canonical_updCohort h₂)) h₂

theorem canonical_tstLine {c o n img} (h : s.canonical) : (s.tstLine c o n img).canonical := by
  unfold State.tstLine
  split
  extract_lets s₁ s₂ s₃
  have h₃ : s₃.canonical := canonical_progress (canonical_fillLine (canonical_updCohort h))
  exact canonical_ite (canonical_finishCmd h₃) h₃

theorem canonical_dropReads {uid} (h : s.canonical) : (s.dropReads uid).canonical := by
  unfold State.dropReads
  extract_lets mine n stats s₁
  have h₁ : s₁.canonical := canonical_foldl h fun _ _ h => canonical_updCohort h
  exact canonical_updFibre (canonical_with h₁)

theorem canonical_unblock {uid} (h : s.canonical) : (s.unblock uid).canonical := by
  unfold State.unblock
  split
  · exact h
  · extract_lets mine s₁ s₂ s₃
    have h₂ : s₂.canonical := canonical_foldl (canonical_updCrew h) fun _ _ h => canonical_ite h h
    have h₃ : s₃.canonical := canonical_updFibre (canonical_dropReads h₂)
    exact canonical_with h₃

theorem canonical_raiseLate {uid c tval pc} (h : s.canonical) : (s.raiseLate uid c tval pc).canonical :=
  canonical_raise (canonical_unblock h)

theorem canonical_gatRaise {r cause} (h : s.canonical) : (s.gatRaise r cause).canonical := canonical_raiseLate h

theorem canonical_gatStep {c t rows} (h : s.canonical) : (s.gatStep c t rows).canonical := by
  unfold State.gatStep
  extract_lets prog live tc rowsOpen ready slot full s₁
  split
  · split
    · rename_i e
      have h₁ := EngAcc.canonical_ok (canonical_engRead h) e
      exact canonical_updCmd (canonical_updCrew (canonical_updCohort (canonical_ite (canonical_dropReadLocks h₁) h₁)))
    · split
      · exact canonical_gatRaise h
      · exact canonical_gatRaise h
      · split <;> exact canonical_gatRaise h
    · exact canonical_gatRaise h
    · split
      · rename_i e
        exact canonical_updCmd (canonical_of_fst (canonical_startService h) e)
      · rename_i e
        exact canonical_gatRaise (canonical_of_fst (canonical_startService h) e)
    · exact h
  · exact canonical_ite (canonical_finishCmd (canonical_updCohort h)) h

theorem canonical_tileStep {c} (h : s.canonical) : (s.tileStep c).canonical := by
  unfold State.tileStep
  extract_lets co fm n
  split
  · exact canonical_finishCmd (canonical_updCohort h)
  · exact canonical_readDone h
  · exact canonical_readDone h
  · exact canonical_readDone (canonical_updCohort h)
  · exact canonical_readDone h
  · exact canonical_finishCmd (canonical_updCohort h)
  · exact canonical_finishCmd (canonical_updCohort h)
  · exact canonical_tldLine h
  · exact canonical_tldLine h
  · exact canonical_tstLine h
  · exact canonical_tstLine h
  · exact canonical_ite (canonical_finishCmd (canonical_updCohort h)) (canonical_progress (canonical_updCohort h))
  · exact canonical_finishCmd (canonical_updCohort h)
  · extract_lets d
    split
    · exact canonical_finishCmd (canonical_updCohort h)
    · exact canonical_haltCmd h
  · exact canonical_gatStep h
  · exact h

theorem canonical_collCopy {c others} (h : s.canonical) : (s.collCopy c others).canonical := by
  unfold State.collCopy
  split
  · extract_lets slot sz
    split
    · rename_i e
      have h₁ := EngAcc.canonical_ok (canonical_engRead h) e
      extract_lets vals
      split
      · rename_i e
        exact canonical_dropReadLocks (canonical_progress (EngAcc.canonical_ok (canonical_engWrite h₁) e))
      · exact canonical_engStop h₁
    · exact canonical_engStop h
  · exact h

theorem canonical_collDo {c others} (h : s.canonical) : (s.collDo c others).canonical := by
  simp only [State.collDo]
  split
  · split
    · split
      · exact h
      · split
        · exact canonical_ite h (canonical_haltCmd h)
        · exact canonical_ite h (canonical_ite (canonical_ite h (canonical_finishCmd h)) (canonical_collCopy h))
    · exact canonical_ite (canonical_finishCmd h) h
  · exact h

/-! ### Crew words and deadlocks -/

theorem canonical_rejoin {f c p} (h : s.canonical) : (s.rejoin f c p).canonical := h

theorem canonical_gatherFails {f c p} (h : s.canonical) : (s.gatherFails f c p).canonical :=
  canonical_raiseLate (canonical_foldl h fun _ _ h => canonical_raiseLate h)

theorem canonical_present {uid tag p} (h : s.canonical) : (s.present uid tag p).canonical := by
  unfold State.present
  split
  · exact h
  · split
    · split
      · exact canonical_ite (canonical_rejoin h) (canonical_gatherFails h)
      · exact canonical_resizeLocks h
    · exact h

theorem canonical_jmskWrite {cohort crew r} (h : s.canonical) : (s.jmskWrite cohort crew r).canonical := by
  unfold State.jmskWrite
  split
  · split <;> exact h
  · exact h

theorem canonical_rdvRaise {tag detail p} (h : s.canonical) : (s.rdvRaise tag detail p).canonical :=
  canonical_raiseLate (canonical_updFibre (canonical_ite h h))

theorem canonical_gatherCmd {cohort crew r} (h : s.canonical) : (s.gatherCmd cohort crew r).canonical := by
  unfold State.gatherCmd
  split
  · split <;> exact h
  · exact h

theorem canonical_rdvComplete {cohort crew r} (h : s.canonical) : (s.rdvComplete cohort crew r).canonical := by
  unfold State.rdvComplete
  extract_lets s₁ masks cs
  have h₁ : s₁.canonical := canonical_updCrew h
  split
  · exact canonical_foldl h₁ fun _ _ h => canonical_rdvRaise h
  · exact canonical_ite (canonical_gatherCmd h₁) (canonical_foldl h₁ fun _ _ h => canonical_updFibre h)

theorem canonical_crewComplete {cohort crew} (h : s.canonical) : (s.crewComplete cohort crew).canonical := by
  unfold State.crewComplete
  split
  · exact h
  · extract_lets whole
    split
    exact canonical_updCrew (canonical_foldl (canonical_foldl h fun _ _ h => canonical_jmskWrite h) fun _ _ h => canonical_rdvComplete h)

theorem canonical_crewDeadlock {cohort crew} (h : s.canonical) : (s.crewDeadlock cohort crew).canonical := by
  unfold State.crewDeadlock
  split
  · exact h
  · exact canonical_ite h (canonical_foldl h fun _ _ h => canonical_rdvRaise h)

theorem canonical_rdvExpire {cohort crew r} (h : s.canonical) : (s.rdvExpire cohort crew r).canonical :=
  canonical_foldl h fun _ _ h => canonical_rdvRaise h

theorem canonical_barDeadlock {cohort} (h : s.canonical) : (s.barDeadlock cohort).canonical :=
  canonical_ite h (canonical_foldl h fun _ _ h => canonical_raiseLate h)

theorem canonical_stallRaise {f detail} (h : s.canonical) : (s.stallRaise f detail).canonical := canonical_raiseLate h

theorem canonical_stallDeadlock {cohort} (h : s.canonical) : (s.stallDeadlock cohort).canonical :=
  canonical_ite h (canonical_foldl h fun _ _ h => canonical_stallRaise h)

/-! ### Recovery points -/

theorem canonical_refreshUnits {ctx} (h : s.canonical) : (s.refreshUnits ctx).canonical := by
  unfold State.refreshUnits
  split <;> exact h

theorem canonical_recoveryRecord {ctx reason addr} (h : s.canonical) : (s.recoveryRecord ctx reason addr).canonical :=
  canonical_writeRecord h

theorem canonical_commitLine {slot l} (h : s.canonical) : (s.commitLine slot l).canonical := by
  unfold State.commitLine
  extract_lets s₁ die whole
  split
  rename_i e
  have h₁ : s₁.canonical := canonical_updSlot h
  have h₂ := canonical_of_fst (by exact canonical_foldl_fst h₁ fun _ _ h => canonical_l2Store (by exact h)) e
  extract_lets s₃ s₄
  have h₃ : s₃.canonical := canonical_foldl h₂ fun _ _ h => canonical_writeBytes h
  exact canonical_raiseSlot (canonical_evalWatches (canonical_taint (canonical_cleanse h₃)))

theorem canonical_commitNext {slot} (h : s.canonical) : (s.commitNext slot).canonical := by
  unfold State.commitNext
  split
  · exact canonical_commitLine h
  · exact h

theorem canonical_leaveNode {slot} (h : s.canonical) : (s.leaveNode slot).canonical := canonical_ite h h
theorem canonical_demote {slot} (h : s.canonical) : (s.demote slot).canonical := canonical_ite h h

theorem canonical_rcvStart {uid} (h : s.canonical) : (s.rcvStart uid).canonical := by
  unfold State.rcvStart
  split
  · exact h
  · extract_lets ctx s₁
    have h₁ : s₁.canonical := canonical_refreshUnits h
    split
    · exact h₁
    · exact canonical_ite h₁ (canonical_foldl (canonical_updFibre h₁) fun _ _ h => h)

theorem canonical_releaseAdvance {uid} (h : s.canonical) : (s.releaseAdvance uid).canonical := by
  unfold State.releaseAdvance
  split
  · exact h
  · split
    · exact canonical_ite (canonical_ite h (canonical_rcvStart h)) (canonical_ite h (canonical_releaseStep2 h))
    · exact canonical_releaseStep2 h

theorem canonical_endRelease {f sc} (h : s.canonical) : (s.endRelease f sc).canonical :=
  canonical_updFibre (canonical_fixLoads (canonical_ite (canonical_demote h) h))

theorem canonical_granuleDone {g} (h : s.canonical) : (s.granuleDone g).canonical := canonical_ite h h

theorem canonical_sealPoint {ctx} (h : s.canonical) : (s.sealPoint ctx).canonical := by
  unfold State.sealPoint
  split
  · exact h
  · exact canonical_ite h h

theorem canonical_sealStep {ctx} (h : s.canonical) : (s.sealStep ctx).canonical := by
  unfold State.sealStep
  split
  · exact h
  · split
    · exact h
    · exact canonical_ite h (canonical_ite h (canonical_ite h (canonical_ite h (canonical_ite h (canonical_sealPoint h)))))

theorem canonical_closePoint {ctx} (h : s.canonical) : (s.closePoint ctx).canonical := by
  unfold State.closePoint
  extract_lets s₁
  have h₁ : s₁.canonical := canonical_refreshUnits h
  split
  · exact h₁
  · extract_lets r us s₂ touched p s₃ s₄
    have h₂ : s₂.canonical := by
      unfold s₂
      split
      · exact canonical_recoveryRecord h₁
      · exact h₁
    have h₄ : s₄.canonical := h₂
    exact canonical_ite (canonical_sealPoint h₄) h₄

theorem canonical_copyUnit {ctx pa} (h : s.canonical) : (s.copyUnit ctx pa).canonical := by
  unfold State.copyUnit
  split
  · exact h
  · exact canonical_ite (canonical_releaseHeld h) h

theorem canonical_discardPoint {ctx} (h : s.canonical) : (s.discardPoint ctx).canonical := by
  unfold State.discardPoint
  split
  · exact h
  · exact canonical_releaseHeld h

theorem canonical_clearLaunch {slot} (h : s.canonical) : (s.clearLaunch slot).canonical := h
theorem canonical_freeSlot {slot} (h : s.canonical) : (s.freeSlot slot).canonical := h
theorem canonical_dieReset {n} (h : s.canonical) : (s.dieReset n).canonical := canonical_ite h h
theorem canonical_suspendContext {ctx} (h : s.canonical) : (s.suspendContext ctx).canonical := h

theorem canonical_restoreUnits {r mirror p} (h : s.canonical) : (s.restoreUnits r mirror p).canonical := by
  refine canonical_foldl h fun _ _ h => ?_
  split
  · exact canonical_noteWrite (canonical_with (canonical_setMem h (Memory.wf_putBytes _ _ _ h.mem)))
  · exact h

theorem canonical_replayRestore {ctx keep} (h : s.canonical) : (s.replayRestore ctx keep).canonical := by
  unfold State.replayRestore
  extract_lets s₀ halt torn
  have h₀ : s₀.canonical := canonical_refreshUnits (canonical_updContext h)
  split
  · exact h₀
  · extract_lets r live ok restore
    have hr : ∀ s p, s.canonical → (restore s p).canonical := by
      intro s p h
      unfold restore
      extract_lets valid m s₁ s₂ s₃ s₄
      have h₁ : s₁.canonical := canonical_ite (canonical_recoveryRecord h) h
      have h₃ : s₃.canonical := canonical_foldl (canonical_restoreUnits h₁) fun _ _ h => canonical_getD h (canonical_unitWrite h)
      exact h₃
    clear_value live
    cases live with
    | nil => exact canonical_recoveryRecord h₀
    | cons p rest =>
      have h₁ : ((torn s₀ p).recoveryRecord ctx 0x04 p.n).canonical := canonical_recoveryRecord h₀
      cases rest with
      | nil => exact canonical_ite (hr _ _ h₀) (canonical_recoveryRecord h₁)
      | cons q rest => exact canonical_ite (hr _ _ h₀) (canonical_ite (hr _ _ h₁) (canonical_recoveryRecord h₁))

theorem canonical_dieReady {n} (h : s.canonical) : (s.dieReady n).canonical := by
  simp only [State.dieReady]
  refine canonical_foldl (canonical_ite h h) fun _ _ h => ?_
  split
  · exact canonical_ite h (canonical_ite (canonical_replayRestore h) h)
  · exact h

/-! ### Effects, groups and issue -/

theorem canonical_applyCrew {f x} (h : s.canonical) : (State.applyCrew f s x).canonical := by
  unfold State.applyCrew
  split
  · exact h
  · exact h
  · exact canonical_devBarAlloc h
  · exact h

theorem canonical_makeCmd {f name op bar flue word} (h : s.canonical) : (s.makeCmd f name op bar flue word).canonical := by
  simp only [State.makeCmd]
  refine canonical_updFibre ?_
  split
  · exact canonical_resizeLocks h
  · exact h

theorem canonical_jwaitRead {f a t again} (h : s.canonical) : (s.jwaitRead f a t again).canonical := by
  unfold State.jwaitRead
  extract_lets s₁ s₂ c wait
  have h₂ : s₂.canonical := canonical_takeLines (canonical_ite h h)
  split
  · exact canonical_raise h₂
  · split
    · exact h₂
    · split
      · exact canonical_raise h₂
      · split
        · exact h₂
        · split
          · rename_i e
            exact canonical_of_some (canonical_becomeContinuation h₂) e
          · exact h₂

theorem canonical_dropJoin {op} (h : s.canonical) : (s.dropJoin op).canonical := by
  unfold State.dropJoin
  split
  · exact h
  · exact canonical_releaseAdvance (canonical_dropOp (canonical_kindlingRecord h))

theorem canonical_aim {op t n} (h : s.canonical) : (s.aim op t n).canonical :=
  canonical_ite (canonical_leaveNode h) (canonical_unhoist (canonical_updOp (canonical_ite (canonical_demote h) h)))

theorem canonical_joinTranslate {id} (h : s.canonical) : (s.joinTranslate id).canonical := by
  unfold State.joinTranslate
  split
  · exact h
  · split
    · exact h
    · split
      · exact canonical_dropJoin h
      · split
        · exact canonical_aim h
        · exact canonical_dropJoin h
        · exact canonical_askWalk h

theorem canonical_beginRelease {uid sc} (h : s.canonical) : (s.beginRelease uid sc).canonical := by
  unfold State.beginRelease
  extract_lets s₁
  have h₁ : s₁.canonical := canonical_releaseAdvance (canonical_updFibre h)
  split
  · exact h₁
  · extract_lets s₂
    have h₂ : s₂.canonical := canonical_ite (canonical_leaveNode h₁) h₁
    exact canonical_ite (canonical_endRelease h₂) h₂

theorem canonical_arriveFence {uid} (h : s.canonical) : (s.arriveFence uid).canonical := by
  unfold State.arriveFence
  split
  · exact h
  · split
    · exact canonical_ite h h
    · exact h

theorem canonical_go_ite {c : Prop} [Decidable c] {s t : State} (hs : s.canonical) (ht : t.canonical) :
    (if c then FxOut.go s else .go t).canonical := by
  split
  · exact hs
  · exact ht

theorem canonical_doFx {uid name x} (h : s.canonical) : (s.doFx uid name x).canonical := by
  unfold State.doFx
  split
  · exact h
  · rename_i f _
    cases x with
    | mem r =>
      have h₁ : (if (Fx.mem r).demotes then s.demote (s.cohortOf f).slot else s).canonical :=
        canonical_ite (canonical_demote h) h
      have h₂ : (State.sendMem _ uid name r).canonical := canonical_sendMem h₁
      have h₃ : (if r.kind = .joinDec then State.joinTranslate _ name else _).canonical :=
        canonical_ite (canonical_joinTranslate h₂) h₂
      simp only
      split
      · refine canonical_go_ite ?_ (canonical_updFibre ?_)
        · split
          · exact canonical_updFibre h₃
          · exact h₃
        · split
          · exact canonical_updFibre h₃
          · exact h₃
      · split
        · exact canonical_updFibre h₃
        · exact h₃
    | stash op =>
      have ho : (s.stashOp uid name op).canonical := canonical_stashOp h
      simp only
      split
      · rename_i e
        exact StashOut.canonical_done ho e
      · exact h
      · exact canonical_raiseLate (canonical_updFibre h)
    | pref a =>
      simp only
      split
      · exact h
      · split
        · exact h
        · split
          · rename_i e
            have h₁ := UnitXlate.canonical_ok (canonical_unitXlate h) e
            exact canonical_go_ite h₁ (canonical_l1Fill h₁)
          · rename_i e
            have h₁ := UnitXlate.canonical_ok (canonical_unitXlate h) e
            exact canonical_go_ite h₁ (canonical_l2Load h₁)
          · exact h
    | release sc => exact canonical_go_ite h (canonical_beginRelease h)
    | acquireLoads sc => exact canonical_go_ite h h
    | sequence sc => exact canonical_arriveFence h
    | barArrive n sc => exact canonical_ite h (canonical_ite (canonical_devArrive h) (canonical_barArrive h))
    | barWait n sc => exact canonical_ite h (canonical_ite (canonical_devWait h) (canonical_barWait h))
    | barExpect n v =>
      simp only
      split
      · exact h
      · split
        · exact canonical_raiseLate h
        · exact canonical_barExpect h
    | spawn p r =>
      simp only
      split
      · exact h
      · exact canonical_updFibre (canonical_spawnStatus h)
    | watch =>
      simp only
      split
      · exact h
      · exact canonical_updFibre (canonical_watchRegister (canonical_demote h))
    | unwatch p w => exact canonical_updFibre (canonical_watchFree h)
    | jwait a t =>
      simp only
      split
      · exact canonical_jwaitRead h
      · exact h
    | engine => exact canonical_makeCmd (canonical_ite (canonical_demote h) h)
    | read => exact canonical_makeCmd h
    | present tag p => exact canonical_ite h (canonical_present h)
    | rpmark =>
      simp only
      split
      · exact canonical_demote h
      · split
        · exact canonical_demote h
        · exact canonical_closePoint (canonical_demote h)
    | rdtm dst =>
      simp only
      split <;> exact h
    | raise c tv => exact canonical_raiseLate h
    | _ => exact h

theorem canonical_runFrom {uid stalled xs} (h : s.canonical) : (State.runFrom uid stalled xs s).canonical := by
  induction xs generalizing s stalled with
  | nil => exact canonical_ite h h
  | cons x xs ih =>
    unfold State.runFrom
    split
    · exact ih h
    · split
      · exact canonical_updFibre (canonical_ite (canonical_leaveNode h) h)
      · have hx : (s.doFx uid x.1 x.2).canonical := canonical_doFx h
        split
        · rename_i e
          rw [e] at hx
          exact ih hx
        · rename_i e
          rw [e] at hx
          exact canonical_ite (ih hx) (canonical_updFibre hx)
        · rename_i e
          rw [e] at hx
          exact canonical_updFibre hx

theorem canonical_runOrdered {uid l} (h : s.canonical) : (State.runOrdered uid l s).canonical := canonical_runFrom h
theorem canonical_resume {f} (h : s.canonical) : (s.resume f).canonical := canonical_runOrdered h
theorem canonical_issuedTurn {uid} (h : s.canonical) : (s.issuedTurn uid).canonical := h
theorem canonical_occupy {f ks} (h : s.canonical) : (s.occupy f ks).canonical := canonical_ite h h

theorem canonical_takeEffect {f og} (h : s.canonical) : (s.takeEffect f og).canonical := by
  unfold State.takeEffect
  extract_lets base void fx named advanced f' s₁ run s₂ s₃ soon s₄ s₅
  have h₂ : s₂.canonical := h
  have h₃ : s₃.canonical := canonical_occupy (canonical_foldl h₂ fun _ _ h => canonical_applyCrew h)
  have h₄ : s₄.canonical := canonical_foldl h₃ fun _ _ h => by
    split
    · exact canonical_barExpect h
    · exact h
  have h₅ : s₅.canonical := canonical_runOrdered h₄
  exact canonical_ite (canonical_exitAll h₅) h₅

theorem canonical_holdGroup {f og} (h : s.canonical) : (s.holdGroup f og).canonical := canonical_runOrdered h

theorem canonical_commit {f og} (h : s.canonical) : (s.commit f og).canonical :=
  canonical_ite (canonical_holdGroup h) (canonical_takeEffect h)

theorem canonical_raiseGroup {f og c tval} (h : s.canonical) : (s.raiseGroup f og c tval).canonical :=
  canonical_raise (canonical_updFibre (canonical_dropReads h))

theorem canonical_groupRaise {f og c tval} (h : s.canonical) : (s.groupRaise f og c tval).canonical := canonical_raiseGroup h

theorem canonical_takeReads {f} (h : s.canonical) : (s.takeReads f).canonical := by
  simp only [State.takeReads]
  split
  · exact h
  · split
    · exact canonical_raiseGroup h
    · split
      · exact canonical_raiseGroup h
      · exact canonical_takeEffect h

theorem canonical_raiseAfter {f og sc c tval} (h : s.canonical) : (s.raiseAfter f og sc c tval).canonical :=
  canonical_runOrdered (canonical_dropReads (canonical_issuedTurn h))

theorem canonical_wordOut {i body f og} (hb : (body f og).canonical) : (wordOut i body f og).canonical := by
  unfold wordOut
  split
  · exact .raise
  · exact hb

theorem canonical_issueWord {i g chains words branch body} (h : s.canonical) (hb : ∀ f og, (body f og).canonical) :
    CanonicalNext (s.issueWord i g chains words branch body) := by
  simp only [State.issueWord]
  split
  · exact trivial
  · rename_i f _
    split
    · split
      · exact h
      · exact canonical_commit h
    · exact canonical_groupRaise h
    · exact canonical_raiseAfter h
    · rename_i e
      split at e
      · cases e
      · have hw : (wordOut i body f (s.openGroup f)).canonical := canonical_wordOut (hb f _)
        rw [e] at hw
        cases hw with
        | wait h => exact h

theorem canonical_word {α : Type} {i} {m : Mods α} {body} (h : s.canonical) (hb : ∀ f og, (body f og).canonical) :
    CanonicalNext (s.word i m body) :=
  canonical_issueWord h hb

theorem canonical_plain {i m body} (h : s.canonical) (hb : ∀ f og, (body f og).canonical) : CanonicalNext (s.plain i m body) :=
  canonical_issueWord h hb

/-! ### The census -/

theorem canonical_stampReady (h : s.canonical) : s.stampReady.canonical := h

theorem canonical_census {u past} (h : s.canonical) : (s.census u past).canonical := by
  simp only [State.census]
  split <;> exact h

theorem canonical_decide' {u past} (h : s.canonical) : (s.decide' u past).canonical := canonical_ite h (canonical_census h)
theorem canonical_serve {u} (h : s.canonical) : (s.serve u).canonical := canonical_decide' h
theorem canonical_elapse {hearth grate} (h : s.canonical) : (s.elapse hearth grate).canonical := h

theorem canonical_slotOfGrate {hearth grate} (h : s.canonical) : (s.slotOfGrate hearth grate).canonical := by
  simp only [State.slotOfGrate]
  split
  · split
    · exact canonical_decide' h
    · exact h
  · split
    · exact canonical_serve h
    · exact h

/-! ### Control words -/

theorem canonical_toTarget {t k} (hk : ∀ pc, (k pc).canonical) : (toTarget t k).canonical := by
  unfold toTarget
  split
  · exact .raise
  · exact hk _

theorem canonical_execCall {m off} (h : s.canonical) : CanonicalNext (execCall m off s) := by
  simp only [execCall]
  refine canonical_issueWord h (fun _ _ => ?_)
  split
  · exact .raise
  · split
    · exact .raise
    · exact canonical_toTarget (fun _ => .ok)

theorem canonical_execRet {m} (h : s.canonical) : CanonicalNext (execRet m s) := by
  simp only [execRet]
  refine canonical_issueWord h (fun _ _ => ?_)
  split
  · exact .raise
  · split
    · exact .raise
    · split
      · exact .raise
      · exact .ok

theorem canonical_readCode {f og addr n k} (h : s.canonical) (hk : ∀ v, (k v).canonical) : (s.readCode f og addr n k).canonical := by
  unfold State.readCode
  split
  · exact hk _
  · exact .raise
  · exact .wait (canonical_missWait h)

theorem canonical_execJt {m t a} (h : s.canonical) : CanonicalNext (execJt m t a s) := by
  simp only [execJt]
  refine canonical_issueWord h (fun _ _ => ?_)
  refine canonical_readCode h (fun _ => ?_)
  split
  · exact .raise
  · split
    · exact .raise
    · split
      · exact .raise
      · exact canonical_readCode h (fun _ => .ok)

theorem canonical_execSleep {m} (h : s.canonical) : CanonicalNext (execSleep m s) := by
  simp only [execSleep]
  refine canonical_word h (fun _ _ => ?_)
  split <;> exact .ok

theorem canonical_barWord {f og n sc fx} : (s.barWord f og n sc fx).canonical := by
  simp only [State.barWord]
  split
  · exact .raise
  · split
    · split
      · exact .raise
      · split
        · exact .raise
        · exact .ok
    · exact .ok

theorem canonical_execBarExpect {m n a} (h : s.canonical) : CanonicalNext (execBarExpect m n a s) := by
  simp only [execBarExpect]
  refine canonical_word h (fun _ _ => ?_)
  split
  · exact .raise
  · exact canonical_barWord

theorem canonical_execRep {m n words} (h : s.canonical) : CanonicalNext (execRep m n words s) := by
  unfold execRep
  split
  · exact trivial
  · exact h

/-! ### Cross-lane words -/

theorem canonical_presentOut {f og set tag width before p} : (presentOut f og set tag width before p).canonical := by
  unfold presentOut
  extract_lets mask own
  split
  · exact .ok
  · exact .raise

theorem canonical_xlWord {i m d a b kind} (h : s.canonical) : CanonicalNext (s.xlWord i m d a b kind) :=
  canonical_word h (fun _ _ => canonical_presentOut)

theorem canonical_grpWord {i m before p} (h : s.canonical) : CanonicalNext (s.grpWord i m before p) :=
  canonical_word h (fun _ _ => canonical_presentOut)

/-! ### Units, crews and cohorts -/

theorem canonical_refit (h : s.canonical) : s.refit.canonical := h

theorem canonical_seatCrew {hearth cohort crew grate paired} (h : s.canonical) :
    (s.seatCrew hearth cohort crew grate paired).canonical :=
  h

theorem canonical_admitCohort {slot number hearth} (h : s.canonical) : (s.admitCohort slot number hearth).canonical :=
  canonical_foldl h fun _ _ h => h

theorem canonical_admitPlan {slot plan} (h : s.canonical) : (s.admitPlan slot plan).canonical :=
  canonical_foldl h fun _ _ h => canonical_updSlot (canonical_admitCohort h)

theorem canonical_moveTo {u fs} (h : s.canonical) : (s.moveTo u fs).canonical := canonical_foldl h fun _ _ h => h

theorem canonical_merge {u v} (h : s.canonical) : (s.merge u v).canonical :=
  canonical_with (canonical_foldl (canonical_moveTo h) fun _ _ h => canonical_updCrew h)

theorem canonical_regroup {hearth grate} (h : s.canonical) : (s.regroup hearth grate).canonical := by
  simp only [State.regroup]
  split
  · exact canonical_merge h
  · exact h

theorem canonical_endCohort {c} (h : s.canonical) : (s.endCohort c).canonical := by
  unfold State.endCohort
  split
  · exact h
  · split
    · split
      · exact canonical_writeBacks h
      · exact h
    · exact h

theorem canonical_drain (h : s.canonical) : s.drain.canonical := canonical_ite h h

theorem canonical_settle (h : s.canonical) : s.settle.canonical := by
  unfold State.settle
  extract_lets s₁ s₂ s₃ s₄
  have h₁ : s₁.canonical := canonical_fireAll h
  have h₂ : s₂.canonical := canonical_foldl h₁ fun _ _ h => canonical_foldl h fun _ _ h => canonical_crewComplete h
  have h₃ : s₃.canonical := canonical_foldl h₂ fun _ _ h => canonical_foldl h fun _ _ h => canonical_crewDeadlock h
  have h₄ : s₄.canonical := canonical_foldl h₃ fun _ _ h => canonical_stallDeadlock (canonical_barDeadlock h)
  exact canonical_drain (canonical_foldl h₄ fun _ _ h => canonical_endCohort h)

theorem canonical_meter {members} (h : s.canonical) : (s.meter members).canonical := h
theorem canonical_meterEngines {hearth} (h : s.canonical) : (s.meterEngines hearth).canonical := h

/-! ### Saving, restoring and replaying contexts -/

theorem canonical_stopHearth {ctx hearth mode} (h : s.canonical) : (s.stopHearth ctx hearth mode).canonical := by
  simp only [State.stopHearth]
  refine canonical_updContext (canonical_with (canonical_foldl ?_ fun _ _ h => canonical_dropReads h))
  refine canonical_foldl h fun _ _ h => ?_
  split
  · exact canonical_writeBacks h
  · exact h

theorem canonical_suspendSaved {ctx} (h : s.canonical) : (s.suspendSaved ctx).canonical := by
  unfold State.suspendSaved
  split
  · exact h
  · extract_lets us owners s₁ s₂
    have h₁ : s₁.canonical := canonical_noteWrite (canonical_setMem h (Memory.wf_putBytes _ _ _ h.mem))
    clear_value s₁
    have h₂ : s₂.canonical := canonical_with h₁
    exact canonical_unsequence (canonical_suspendContext h₂)

theorem canonical_flushLeft {ctx} (h : s.canonical) : (s.flushLeft ctx).canonical := by
  refine canonical_foldl h fun _ _ h => ?_
  split
  · exact canonical_writeBacks h
  · exact h

theorem canonical_callOff {ctx} (h : s.canonical) : (s.callOff ctx).canonical := h

theorem canonical_seatAll {hearth cohort paired ws} (h : s.canonical) : CanonicalSome (s.seatAll hearth cohort paired ws) := by
  refine List.foldlRecOn (motive := CanonicalSome) _ _ h fun _ ho _ _ => canonical_bind ho fun s h => ?_
  split
  · exact canonical_seatCrew h
  · cases s.bestGrate hearth _ with
    | none => exact trivial
    | some g => exact canonical_seatCrew h

theorem canonical_reload {c hearth} (h : s.canonical) : (s.reload c hearth).canonical := by
  unfold State.reload
  extract_lets mine s₁ locks s₂ s₃ s₄
  have h₂ : s₂.canonical := canonical_updHearth (canonical_with h)
  have h₃ : s₃.canonical := canonical_foldl h₂ fun _ _ h => canonical_collDo h
  have h₄ : s₄.canonical := canonical_foldl h₃ fun _ _ h => canonical_releaseAdvance h
  exact canonical_foldl h₄ fun _ _ h => canonical_arriveFence h

theorem canonical_restoreAt {c hearth} (h : s.canonical) : CanonicalSome (s.restoreAt c hearth) := by
  unfold State.restoreAt
  split
  · exact trivial
  · exact canonical_map (canonical_filter (canonical_seatAll h)) fun _ h => canonical_reload h

theorem canonical_restoreCohort {c} (h : s.canonical) : CanonicalSome (s.restoreCohort c) := by
  unfold State.restoreCohort
  cases e : List.findSome? (fun n => s.restoreAt c n) (c.hearth :: List.range 192) with
  | none => exact trivial
  | some t =>
    obtain ⟨_, _, ht⟩ := List.exists_of_findSome?_eq_some e
    exact canonical_of_some (canonical_restoreAt h) ht

theorem canonical_restoreAll {ctx} (h : s.canonical) : (s.restoreAll ctx).canonical :=
  canonical_foldl h fun _ _ h => canonical_getD h (canonical_restoreCohort h)

theorem canonical_restoreContext {ctx} (h : s.canonical) : (s.restoreContext ctx).canonical := by
  unfold State.restoreContext
  split
  · exact h
  · split
    · split
      · exact h
      · extract_lets s₁
        have h₁ : s₁.canonical := canonical_restoreAll (canonical_updContext (canonical_setMem h (Memory.wf_put _ _ _ h.mem)))
        exact canonical_with h₁
    · exact canonical_restoreAll h

theorem canonical_loseCohort {c} (h : s.canonical) : (s.loseCohort c).canonical := by
  unfold State.loseCohort
  extract_lets l tv s₁ s₂ fs sealed
  have h₂ : s₂.canonical := h
  split
  · clear_value fs
    split
    · exact canonical_raise h₂
    · exact h₂
  · exact canonical_foldl h₂ fun _ _ h => canonical_exitAll (canonical_writeRecord h)

theorem canonical_loseOn {ctx dies} (h : s.canonical) : (s.loseOn ctx dies).canonical :=
  canonical_foldl (canonical_callOff h) fun _ _ h => canonical_loseCohort h

theorem canonical_makeWay {dies c} (h : s.canonical) : (s.makeWay dies c).canonical :=
  canonical_ite (canonical_foldl h fun _ _ h => canonical_stopHearth h) (canonical_loseOn h)

theorem canonical_replay {ctx keep} (h : s.canonical) : (s.replay ctx keep).canonical := by
  unfold State.replay
  split
  · exact h
  · refine canonical_ite h ?_
    extract_lets mine dies s₁ others s₂ s₃
    have h₁ : s₁.canonical := canonical_foldl h fun _ _ h => canonical_freeSlot (canonical_clearLaunch h)
    have h₂ : s₂.canonical := canonical_foldl h₁ fun _ _ h => canonical_makeWay h
    have h₃ : s₃.canonical := canonical_foldl h₂ fun _ _ h => canonical_ite (canonical_dieReset h) h
    exact canonical_ite (canonical_replayRestore h₃) (canonical_updContext h₃)

/-! ### Integer words -/

theorem canonical_intWord {i m cls d val} (h : s.canonical) : CanonicalNext (s.intWord i m cls d val) := canonical_word h (fun _ _ => .ok)

theorem canonical_countWord {i m cls d val} (h : s.canonical) : CanonicalNext (s.countWord i m cls d val) :=
  canonical_word h (fun _ _ => .ok)

theorem canonical_ialu {i op m d a b} (h : s.canonical) : CanonicalNext (s.ialu i op m d a b) := canonical_intWord h

theorem canonical_carryWord {i m d a b val} (h : s.canonical) : CanonicalNext (s.carryWord i m d a b val) :=
  canonical_word h (fun _ _ => .ok)

theorem canonical_divWord {i m d a b val} (h : s.canonical) : CanonicalNext (s.divWord i m d a b val) := by
  simp only [State.divWord]
  refine canonical_word h (fun _ _ => ?_)
  split
  · exact .raise
  · exact .ok

/-! ### Float words -/

theorem canonical_fltWord {i m dt cls d val} (h : s.canonical) : CanonicalNext (s.fltWord i m dt cls d val) :=
  canonical_word h (fun _ _ => .ok)

theorem canonical_flt1 {i m cls d a op} (h : s.canonical) : CanonicalNext (s.flt1 i m cls d a op) := canonical_fltWord h
theorem canonical_flt2 {i m dt cls d a b op} (h : s.canonical) : CanonicalNext (s.flt2 i m dt cls d a b op) := canonical_fltWord h
theorem canonical_flt3 {i m dt cls d a b} (h : s.canonical) : CanonicalNext (s.flt3 i m dt cls d a b) := canonical_fltWord h

theorem canonical_fltCmp {i m dt cls p a b} (h : s.canonical) : CanonicalNext (s.fltCmp i m dt cls p a b) :=
  canonical_word h (fun _ _ => .ok)

theorem canonical_dotWord {f l d x ps} : (dotWord f l d x ps).canonical := .ok

/-! ### Memory words -/

theorem canonical_access {f a n w k} (h : s.canonical) (hk : ∀ t, (k t).canonical) : (s.access f a n w k).canonical := by
  unfold State.access
  split
  · exact .raise
  · split
    · exact .raise
    · split
      · exact .raise
      · split
        · exact hk _
        · exact .raise
        · exact .wait (canonical_missWait h)

theorem canonical_returning {f l r pre} : (s.returning f l r pre).canonical := by
  unfold State.returning
  split
  · exact .raise
  · exact .ok

theorem canonical_execChkh {m d a} (h : s.canonical) : CanonicalNext (execChkh m d a s) := by
  simp only [execChkh]
  refine canonical_word h (fun _ _ => ?_)
  split
  · exact .ok
  · exact canonical_access h (fun _ => canonical_returning)

theorem canonical_atomWord {i op m d a b} (h : s.canonical) : CanonicalNext (s.atomWord i op m d a b) :=
  canonical_word h (fun _ _ => canonical_access h (fun _ => canonical_returning))

theorem canonical_stashAccess {f og l a k} (h : s.canonical) (hk : ∀ o l, (k o l).canonical) :
    (s.stashAccess f og l a k).canonical := by
  simp only [State.stashAccess]
  split
  · exact .raise
  · split
    · exact .raise
    · split
      · exact .wait h
      · exact hk _ _

theorem canonical_execLds {m d a} (h : s.canonical) : CanonicalNext (execLds m d a s) := by
  simp only [execLds]
  refine canonical_word h (fun _ _ => ?_)
  refine canonical_stashAccess h (fun _ _ => ?_)
  split
  · exact .raise
  · exact .ok

theorem canonical_lineRange {f l a e k} (hk : ∀ o n b, (k o n b).canonical) : (s.lineRange f l a e k).canonical := by
  simp only [State.lineRange]
  split
  · exact .raise
  · split
    · exact .raise
    · split
      · exact .raise
      · split
        · exact .raise
        · exact hk _ _ _

theorem canonical_execSmap {m a b} (h : s.canonical) : CanonicalNext (execSmap m a b s) := by
  simp only [execSmap]
  refine canonical_word h (fun _ _ => ?_)
  refine canonical_lineRange (fun _ _ _ => ?_)
  split
  · exact .raise
  · split
    · exact .raise
    · split
      · exact .raise
      · split
        · exact .raise
        · exact .ok

theorem canonical_execSfe {m a} (h : s.canonical) : CanonicalNext (execSfe m a s) := by
  refine canonical_word h (fun _ _ => ?_)
  refine canonical_lineRange (fun _ _ _ => ?_)
  split
  · exact .raise
  · exact .ok

/-! ### Spawn words -/

theorem canonical_firstFault {l k} (hk : k.canonical) : (firstFault l k).canonical := by
  unfold firstFault
  split
  · exact .raise
  · exact hk

theorem canonical_entryOf {f og i l b extra k} (h : s.canonical) (hk : ∀ e n, (k e n).canonical) :
    (s.entryOf f og i l b extra k).canonical := by
  unfold State.entryOf
  extract_lets e place
  split
  · exact .raise
  · exact .wait (canonical_missWait h)
  · split
    · exact .raise
    · split
      · exact .raise
      · split
        · exact .raise
        · exact hk _ _

theorem canonical_execSpawnr {m p a b} (h : s.canonical) : CanonicalNext (execSpawnr m p a b s) := by
  simp only [execSpawnr]
  refine canonical_word h (fun _ _ => ?_)
  refine canonical_entryOf h (fun _ _ => ?_)
  split
  · exact .raise
  · exact canonical_firstFault .ok

theorem canonical_ownRead {f a k} (h : s.canonical) (hk : ∀ t, (k t).canonical) : (s.ownRead f a k).canonical := by
  unfold State.ownRead
  split
  · exact hk _
  · exact .raise
  · exact .wait (canonical_missWait h)

theorem canonical_execWatch {m p a b} (h : s.canonical) : CanonicalNext (execWatch m p a b s) := by
  simp only [execWatch]
  refine canonical_word h (fun _ _ => ?_)
  refine canonical_entryOf h (fun _ _ => ?_)
  split
  · exact .raise
  · exact canonical_firstFault (canonical_ownRead h (fun _ => .ok))

/-! ### System words -/

theorem canonical_execMovw {m n a} (h : s.canonical) : CanonicalNext (execMovw m n a s) := by
  refine canonical_plain h (fun _ _ => ?_)
  split
  · exact .raise
  · exact .ok

theorem canonical_execSvcRecord {m} (h : s.canonical) : CanonicalNext (execSvcRecord m s) := by
  simp only [execSvcRecord]
  refine canonical_word h (fun _ _ => ?_)
  refine canonical_access h (fun _ => ?_)
  split
  · exact .raise
  · exact .ok

theorem canonical_execSvcCause {m} (h : s.canonical) : CanonicalNext (execSvcCause m s) := by
  simp only [execSvcCause]
  refine canonical_word h (fun _ _ => ?_)
  split
  · exact .raise
  · split <;> exact .raiseAfter

theorem canonical_execTret {m} (h : s.canonical) : CanonicalNext (execTret m s) := by
  refine canonical_plain h (fun _ _ => ?_)
  split
  · exact .ok
  · exact .raise

theorem canonical_execTlbi {m a} (h : s.canonical) : CanonicalNext (execTlbi m a s) := by
  simp only [execTlbi]
  refine canonical_word h (fun _ _ => ?_)
  split
  · exact .raise
  · exact .ok

/-! ### Memory events and waits -/

theorem canonical_noteIdle {hearth} (h : s.canonical) : (s.noteIdle hearth).canonical := canonical_ite h h

theorem canonical_execCensusDecision {hearth grate} (h : s.canonical) : CanonicalNext (execCensusDecision hearth grate s) := by
  unfold execCensusDecision
  split
  · exact h
  · refine canonical_slotOfGrate (canonical_stampReady (canonical_noteIdle ?_))
    exact canonical_meterEngines (canonical_elapse (canonical_regroup h))

theorem canonical_backTo {op} (h : s.canonical) : (s.backTo op).canonical := h

theorem canonical_returnOp {op} (h : s.canonical) : (s.returnOp op).canonical := by
  unfold State.returnOp
  extract_lets r s₁ s₂
  have h₁ : s₁.canonical := canonical_updFibre (canonical_dropOp (canonical_raiseSlot h))
  have h₂ : s₂.canonical := canonical_arriveFence (canonical_releaseAdvance h₁)
  exact canonical_ite (canonical_raiseLate (canonical_backTo h₂)) h₂

theorem canonical_execLoadReturn {op evict} (h : s.canonical) : CanonicalNext (execLoadReturn op evict s) := by
  unfold execLoadReturn
  split
  · exact h
  · split
    · exact canonical_ite (canonical_returnOp h) (canonical_ite h (canonical_returnOp (canonical_loadValue h)))
    · exact canonical_ite (canonical_returnOp h) h
    · exact h

theorem canonical_writeBackFails {op c} (h : s.canonical) : (s.writeBackFails op c).canonical :=
  canonical_ite (canonical_releaseAdvance h) (canonical_raiseLate (canonical_backTo (canonical_releaseAdvance h)))

theorem canonical_writeBackTranslate {id} (h : s.canonical) : (s.writeBackTranslate id).canonical := by
  unfold State.writeBackTranslate
  split
  · exact h
  · split
    · exact h
    · split
      · exact h
      · split
        · exact canonical_aim h
        · exact canonical_writeBackFails h
        · exact canonical_askWalk h

theorem canonical_writeBackReady {id} (h : s.canonical) : (s.writeBackReady id).canonical := by
  unfold State.writeBackReady
  split
  · split
    · exact h
    · split
      · exact canonical_writeBackTranslate h
      · exact canonical_joinTranslate h
      · exact h
  · exact h

theorem canonical_performOp {o} (h : s.canonical) : (s.performOp o).canonical := by
  unfold State.performOp
  extract_lets node
  split
  · rename_i e _
    exact canonical_evalWatches (canonical_of_fst (canonical_performHome h) e)
  · rename_i e _
    exact canonical_of_fst (canonical_performHome h) e

theorem canonical_execHomeWritePerformed {op} (h : s.canonical) : CanonicalNext (execHomeWritePerformed op s) := by
  unfold execHomeWritePerformed
  change State.canonical _
  extract_lets s₁
  have h₁ : s₁.canonical := canonical_writeBackReady h
  split
  · exact h₁
  · extract_lets held s₂
    have h₂ : s₂.canonical := canonical_demote h₁
    refine canonical_ite h₁ (canonical_ite (canonical_performOp h₁) (canonical_ite (canonical_leaveNode h₁) ?_))
    exact canonical_ite h₂ (canonical_performOp h₂)

theorem canonical_noteFlush {o} (h : s.canonical) : (s.noteFlush o).canonical := by
  unfold State.noteFlush
  split <;> exact h

theorem canonical_execStoreAcknowledge {op} (h : s.canonical) : CanonicalNext (execStoreAcknowledge op s) := by
  unfold execStoreAcknowledge
  split
  · exact h
  · exact canonical_ite h (canonical_releaseAdvance (canonical_raiseSlot (canonical_noteFlush h)))

theorem canonical_execReleaseWaitEnd {uid} (h : s.canonical) : CanonicalNext (execReleaseWaitEnd uid s) := by
  unfold execReleaseWaitEnd
  change State.canonical _
  extract_lets s₁
  have h₁ : s₁.canonical := canonical_releaseAdvance h
  split
  · exact h₁
  · split
    · exact h₁
    · exact canonical_ite (canonical_endRelease h₁) h₁

theorem canonical_execFenceScSequenced {uid} (h : s.canonical) : CanonicalNext (execFenceScSequenced uid s) := by
  unfold execFenceScSequenced
  split
  · exact h
  · split
    · exact h
    · exact canonical_ite h (canonical_ite h h)

theorem canonical_execLeaseExpiry {hearth cohort line} (h : s.canonical) : CanonicalNext (execLeaseExpiry hearth cohort line s) := by
  simp only [execLeaseExpiry]
  split
  · exact h
  · split
    · exact canonical_ite h h
    · exact h

theorem canonical_fillFails {c line cause a reason detail} (h : s.canonical) : (s.fillFails c line cause a reason detail).canonical :=
  canonical_foldl (canonical_foldl h fun _ _ h => canonical_ite h (canonical_raiseLate h)) fun _ _ h => canonical_haltCmd h

theorem canonical_fillFrom {c line a t} (h : s.canonical) : (s.fillFrom c line a t).canonical :=
  canonical_ite (canonical_fillFails h) (canonical_ite (canonical_fillMapped h) h)

theorem canonical_fillTry {c line a} (h : s.canonical) : (s.fillTry c line a).canonical := by
  simp only [State.fillTry]
  split
  · exact canonical_fillFrom h
  · exact canonical_askWalk h
  · exact canonical_fillFails h

theorem canonical_execMappedLineFill {cohort line} (h : s.canonical) : CanonicalNext (execMappedLineFill cohort line s) := by
  simp only [execMappedLineFill]
  split
  · exact h
  · split
    · exact canonical_ite (canonical_fillTry h) h
    · exact h

theorem canonical_execStashStallTimeout {uid} (h : s.canonical) : CanonicalNext (execStashStallTimeout uid s) := by
  simp only [execStashStallTimeout]
  split
  · exact h
  · split
    · exact canonical_ite (canonical_stallRaise h) h
    · exact h

theorem canonical_execRendezvousWatchdogExpiry {cohort crew tag} (h : s.canonical) :
    CanonicalNext (execRendezvousWatchdogExpiry cohort crew tag s) := by
  simp only [execRendezvousWatchdogExpiry]
  split
  · exact h
  · split
    · exact canonical_ite (canonical_rdvExpire h) h
    · exact h

theorem canonical_execSleepWake {uid} (h : s.canonical) : CanonicalNext (execSleepWake uid s) := by
  unfold execSleepWake
  split <;> exact h

theorem canonical_execJwaitReread {uid} (h : s.canonical) : CanonicalNext (execJwaitReread uid s) := by
  simp only [execJwaitReread]
  split
  · exact h
  · split
    · exact h
    · split
      · exact h
      · split
        · exact canonical_ite (canonical_jwaitRead h) h
        · exact canonical_missWait h
        · exact canonical_raise h

theorem canonical_fetchWait {f a} (h : s.canonical) : (s.fetchWait f a).canonical := canonical_updFibre (canonical_askWalk h)

theorem canonical_execInstructionFetchComplete {uid} (h : s.canonical) : CanonicalNext (execInstructionFetchComplete uid s) := by
  simp only [execInstructionFetchComplete]
  split
  · exact h
  · split
    · exact h
    · split
      · exact h
      · exact canonical_raiseLate h
      · exact canonical_fetchWait h

theorem canonical_svcDone {f w name dst v} (h : s.canonical) : (s.svcDone f w name dst v).canonical := h

theorem canonical_svcBytes {f a} (h : s.canonical) : (s.svcBytes f a).1.canonical := by
  unfold State.svcBytes
  split
  · rename_i e
    exact EngAcc.canonical_ok (canonical_engRead h) e
  · exact h
  · exact h

theorem canonical_execSvcReply {uid} (h : s.canonical) : CanonicalNext (execSvcReply uid s) := by
  unfold execSvcReply
  split
  · exact h
  · split
    · refine canonical_ite h ?_
      split
      rename_i e
      have h₁ := canonical_of_fst (canonical_svcBytes h) e
      exact canonical_ite (canonical_raise (canonical_updFibre h₁)) (canonical_svcDone (canonical_writeRecord h₁))
    · exact h

theorem canonical_execTlbiComplete {uid} (h : s.canonical) : CanonicalNext (execTlbiComplete uid s) := by
  unfold execTlbiComplete
  split
  · exact h
  · split <;> exact h

/-! ### The front end -/

theorem canonical_owe {agent die horizon} (h : s.canonical) : (s.owe agent die horizon).canonical := h

theorem canonical_outsideStore {agent t bs} (h : s.canonical) : (s.outsideStore agent t bs).canonical :=
  canonical_owe (canonical_performWrite h)

theorem canonical_frontWrite1 {ctx agent a bs} (h : s.canonical) : (s.frontWrite1 ctx agent a bs).canonical := by
  unfold State.frontWrite1
  split
  · exact trivial
  · exact trivial
  · exact trivial
  · rename_i e
    extract_lets held
    split
    · exact trivial
    · exact canonical_outsideStore (UnitXlate.canonical_ok (canonical_unitXlate h) e)

theorem canonical_frontWrite {ctx agent a bs} (h : s.canonical) : (s.frontWrite ctx agent a bs).canonical := by
  refine List.foldlRecOn (motive := EngAcc.canonical) _ _ h fun r hr p _ => ?_
  split
  · exact canonical_frontWrite1 hr
  · exact hr

theorem canonical_frontRead {ctx a n} (h : s.canonical) : (s.frontRead ctx a n).canonical := canonical_engRead h

theorem canonical_frontRecord {n reason level addr tag first} (h : s.canonical) :
    (s.frontRecord n reason level addr tag first).canonical :=
  canonical_writeRecord h

theorem canonical_unbind {n} (h : s.canonical) : (s.unbind n).canonical := canonical_ite h h
theorem canonical_queueFault {n reason a} (h : s.canonical) : (s.queueFault n reason a).canonical := canonical_frontRecord h

theorem canonical_writeHead {n} (h : s.canonical) : (s.writeHead n).canonical := by
  unfold State.writeHead
  extract_lets q due
  have hd : ∀ s d, s.canonical → (due s d).canonical := fun _ _ h => h
  split
  · exact hd _ _ h
  · split
    · rename_i e
      exact hd _ _ (EngAcc.canonical_ok (canonical_frontWrite h) e)
    · split
      · rename_i e
        exact hd _ _ (canonical_of_fst (canonical_startService h) e)
      · rename_i e
        exact hd _ _ (canonical_queueFault (canonical_of_fst (canonical_startService h) e))
    · exact hd _ _ h
    · exact hd _ _ (canonical_queueFault h)

theorem canonical_queueSettle {n} (h : s.canonical) : (s.queueSettle n).canonical :=
  canonical_ite h (canonical_unbind (canonical_ite (canonical_writeHead h) h))

theorem canonical_settleQueues (h : s.canonical) : s.settleQueues.canonical := canonical_foldl h fun _ _ h => canonical_queueSettle h
theorem canonical_finishPkt {n id} (h : s.canonical) : (s.finishPkt n id).canonical := canonical_queueSettle h
theorem canonical_startPkt {n id} (h : s.canonical) : (s.startPkt n id).canonical := canonical_queueSettle h
theorem canonical_addGuilt {ctx} (h : s.canonical) : (s.addGuilt ctx).canonical := canonical_ite h h

theorem canonical_packetBad {n p reason} (h : s.canonical) : (s.packetBad n p reason).canonical :=
  canonical_unbind (canonical_addGuilt (canonical_updContext (canonical_frontRecord h)))

theorem canonical_tailBad {n tail} (h : s.canonical) : (s.tailBad n tail).canonical :=
  canonical_addGuilt (canonical_updContext (canonical_frontRecord h))

theorem canonical_packetFault {n p reason} (h : s.canonical) : (s.packetFault n p reason).canonical :=
  canonical_unbind (canonical_frontRecord h)

theorem canonical_frontFails {n pkt a} (h : s.canonical) : (s.frontFails n pkt a).canonical := by
  simp only [State.frontFails]
  split
  · exact h
  · split
    · exact canonical_packetFault h
    · exact canonical_ite (canonical_setQueue (canonical_queueFault h)) (canonical_queueFault h)

theorem canonical_frontStop {n kind pkt fault r} (h : s.canonical) (hf : ∀ k, (fault k).canonical) :
    (s.frontStop n kind pkt fault r).canonical := by
  unfold State.frontStop
  split
  · exact hf _
  · exact hf _
  · split
    · rename_i e
      exact canonical_of_fst (canonical_startService h) e
    · exact hf _
  · exact h

theorem canonical_pktStop {n kind p r} (h : s.canonical) : (s.pktStop n kind p r).canonical :=
  canonical_frontStop h (fun _ => canonical_packetFault h)

theorem canonical_nextPkt {n} (h : s.canonical) : (s.nextPkt n).1.canonical := by
  unfold State.nextPkt
  extract_lets q
  split
  · exact h
  · split
    · exact h
    · exact h
    · extract_lets j a
      split
      · rename_i e
        have h₁ := EngAcc.canonical_ok (canonical_frontRead h) e
        exact h₁
      · exact canonical_frontStop h fun _ => canonical_queueFault h

theorem canonical_packetStep {n kind k} (h : s.canonical) (hk : ∀ s q p, s.canonical → (k s q p).canonical) :
    (s.packetStep n kind k).canonical := by
  simp only [State.packetStep]
  split
  · exact h
  · split
    · rename_i e
      exact canonical_of_fst (canonical_nextPkt h) e
    · rename_i e
      have h := canonical_of_fst (canonical_nextPkt h) e
      split
      · exact canonical_packetBad h
      · exact canonical_ite (hk _ _ _ h) (canonical_queueSettle h)

theorem canonical_readTail {n} (h : s.canonical) : (s.readTail n).canonical := by
  unfold State.readTail
  extract_lets s₁ q
  have h₁ : s₁.canonical := canonical_ite h (canonical_ite (canonical_queueSettle h) (canonical_ite (canonical_writeHead h) h))
  split
  · exact h₁
  · split
    · rename_i e
      have h₂ := EngAcc.canonical_ok (canonical_frontRead h₁) e
      extract_lets tail
      split
      · exact canonical_tailBad h₂
      · split
        · exact canonical_queueSettle h₂
        · split
          · rename_i e
            have h₃ := EngAcc.canonical_ok (canonical_frontRead h₂) e
            exact canonical_queueSettle (canonical_writeHead h₃)
          · exact canonical_frontStop h₂ fun _ => canonical_queueFault h₂
    · exact canonical_frontStop h₁ fun _ => canonical_queueFault h₁

/-! ### Engine, walk and service events -/

theorem canonical_flueStep {c} (h : s.canonical) : (s.flueStep c).canonical :=
  canonical_ite (canonical_ite (canonical_leaveNode h) (canonical_flueDeliver (canonical_demote h))) (canonical_flueDeliver h)

theorem canonical_execFlueLineDelivery {hearth flue} (h : s.canonical) : CanonicalNext (execFlueLineDelivery hearth flue s) := by
  unfold execFlueLineDelivery
  split
  · exact canonical_ite (canonical_flueStep h) h
  · exact h

theorem canonical_execFlueCommandComplete {hearth flue} (h : s.canonical) : CanonicalNext (execFlueCommandComplete hearth flue s) := by
  unfold execFlueCommandComplete
  split
  · exact canonical_ite (canonical_finishCmd h) h
  · exact h

theorem canonical_execTileCommandComplete {hearth cmd} (h : s.canonical) : CanonicalNext (execTileCommandComplete hearth cmd s) := by
  unfold execTileCommandComplete
  split
  · exact canonical_ite (canonical_tileStep h) h
  · exact h

theorem canonical_execCollComplete {cmd others} (h : s.canonical) : CanonicalNext (execCollComplete cmd others s) := by
  unfold execCollComplete
  split
  · exact canonical_ite (canonical_collDo h) h
  · exact h

theorem canonical_execEngineStashStallTimeout {hearth} (h : s.canonical) : CanonicalNext (execEngineStashStallTimeout hearth s) := by
  unfold execEngineStashStallTimeout
  split
  · exact canonical_haltCmd h
  · exact h

theorem canonical_raiseWaiting {uid c tval} (h : s.canonical) : (s.raiseWaiting uid c tval).canonical := by
  unfold State.raiseWaiting
  split
  · exact h
  · split
    · exact canonical_raiseLate (canonical_updFibre h)
    · refine canonical_raiseLate ?_
      split
      · exact canonical_ite h h
      · exact h

theorem canonical_engFails {cmd a cause} (h : s.canonical) : (s.engFails cmd a cause).canonical := by
  unfold State.engFails
  split
  · exact h
  · split
    · exact canonical_foldl h fun _ _ h => canonical_gatRaise h
    · exact canonical_haltCmd h

theorem canonical_tellFault {wait a cause r} (h : s.canonical) : (s.tellFault wait a cause r).canonical := by
  unfold State.tellFault
  split
  · exact canonical_raiseWaiting h
  · split
    · exact canonical_raiseLate h
    · exact h
  · exact canonical_engFails h
  · split
    · exact canonical_fillFails h
    · exact h
  · split
    · exact canonical_ite (canonical_dropJoin h) (canonical_writeBackFails h)
    · exact h
  · exact canonical_frontFails h
  · exact h

theorem canonical_tellReady {wait r} (h : s.canonical) : (s.tellReady wait r).canonical := by
  unfold State.tellReady
  split
  · exact h
  · exact h
  · exact h
  · exact canonical_ite (canonical_joinTranslate h) (canonical_writeBackTranslate h)
  · exact h
  · exact h
  · exact h

theorem canonical_park {walk fault r} (h : s.canonical) : (s.park walk fault r).canonical := by
  unfold State.park
  split <;> exact h

theorem canonical_answerWalk {w r} (h : s.canonical) : (State.answerWalk w s r).canonical := by
  unfold State.answerWalk
  extract_lets a
  split
  · extract_lets s₁ s₂ s₃
    have h₂ : s₂.canonical := canonical_foldl (canonical_setAD h) fun _ _ h => canonical_tlbInsert h
    have h₃ : s₃.canonical := by
      unfold s₃
      split
      · exact canonical_walkCacheInsert h₂
      · exact h₂
    exact canonical_tellReady h₃
  · split
    · rename_i e
      exact canonical_park (canonical_of_fst (canonical_startService h) e)
    · rename_i e
      exact canonical_tellFault (canonical_of_fst (canonical_startService h) e)
  · exact canonical_tellFault h
  · exact canonical_tellFault h
  · exact h

theorem canonical_execTranslationWalkComplete {walk} (h : s.canonical) : CanonicalNext (execTranslationWalkComplete walk s) := by
  unfold execTranslationWalkComplete
  split
  · exact h
  · exact canonical_ite (canonical_foldl (canonical_with h) fun _ _ h => canonical_answerWalk h) h

theorem canonical_serviceDone {v} (h : s.canonical) : (s.serviceDone v).canonical := canonical_foldl h fun _ _ h => canonical_tellReady h

theorem canonical_serviceFailed {v} (h : s.canonical) : (s.serviceFailed v).canonical :=
  canonical_foldl h fun _ _ h => canonical_tellFault h

theorem canonical_execGarleyPageService {fault} (h : s.canonical) : CanonicalNext (execGarleyPageService fault s) := by
  unfold execGarleyPageService
  split
  · exact h
  · split
    · split
      · rename_i e
        exact canonical_serviceDone (canonical_of_some (canonical_garleyPage h) e)
      · exact canonical_serviceFailed h
    · exact h
    · exact canonical_serviceDone h

/-! ### Gathering -/

theorem canonical_freeImage {slot image} (h : s.canonical) : (s.freeImage slot image).canonical := h

theorem canonical_dropRecord {r} (h : s.canonical) : (s.dropRecord r).canonical := by
  unfold State.dropRecord
  split <;> exact h

theorem canonical_damaged {l off bs} (h : s.canonical) : (s.damaged l off bs).canonical := canonical_kindlingRecord h

theorem canonical_readRecord {r} (h : s.canonical) : (s.readRecord r).1.canonical := by
  simp only [State.readRecord]
  split
  · exact h
  · split
    · exact canonical_damaged h
    · split
      · split
        · exact h
        · exact canonical_damaged h
      · exact canonical_damaged h

theorem canonical_halveOne {r} (h : s.canonical) : (s.halveOne r).canonical := by
  unfold State.halveOne
  extract_lets die
  split
  · exact h
  · split
    · rename_i e
      exact canonical_dropRecord (canonical_of_fst (canonical_readRecord h) e)
    · rename_i e
      have h := canonical_of_fst (canonical_readRecord h) e
      extract_lets l
      split
      · split
        · rename_i e
          have h := canonical_of_some (canonical_unitWrite h) e
          exact h
        · exact h
      · exact h

theorem canonical_halve {look n} (h : s.canonical) : (State.halve look n s).canonical := by
  induction n generalizing s with
  | zero => exact h
  | succ n ih =>
    simp only [State.halve]
    split
    · exact h
    · split
      · exact h
      · exact canonical_ite h (ih (canonical_halveOne h))

theorem canonical_startRecord {r uid cohort vlane} (h : s.canonical) : (s.startRecord r uid cohort vlane).1.canonical := by
  unfold State.startRecord
  split
  rename_i e
  extract_lets s₂
  have h₂ : s₂.canonical := canonical_dropRecord (canonical_of_fst (canonical_readRecord h) e)
  split
  · exact canonical_ite (canonical_freeImage h₂) h₂
  · split
    · extract_lets l
      split
      · split
        · exact canonical_freeImage h₂
        · exact canonical_freeImage (canonical_damaged h₂)
      · exact canonical_freeImage (canonical_damaged h₂)
    · exact h₂

theorem canonical_startAll {cohort rs fs} (h : s.canonical) : (s.startAll cohort rs fs).1.canonical := by
  induction rs generalizing s fs with
  | nil => exact h
  | cons r rs ih =>
    unfold State.startAll
    split
    · rename_i e
      exact ih (canonical_of_fst (canonical_startRecord h) e)
    · rename_i e
      exact ih (canonical_of_fst (canonical_startRecord h) e)

theorem canonical_backfill {cohort u fs} (h : s.canonical) : (s.backfill cohort u fs).canonical :=
  canonical_moveTo h

theorem canonical_noteGather {slot cls place unit hearth} (h : s.canonical) : (s.noteGather slot cls place unit hearth).canonical := h

theorem canonical_formCrew {slot cls place unit hearth rs} (h : s.canonical) :
    (s.formCrew slot cls place unit hearth rs).canonical := by
  unfold State.formCrew
  extract_lets uid
  split
  rename_i e
  have h₁ := canonical_of_fst (canonical_startAll h) e
  split
  · exact h₁
  · extract_lets l co run s₂
    have h₂ : s₂.canonical := canonical_noteGather (canonical_with h₁)
    split
    · exact canonical_seatCrew h₂
    · split
      · exact canonical_backfill h₂
      · exact canonical_seatCrew h₂

theorem canonical_execGatherCrew {die launch cls place unit} (h : s.canonical) :
    CanonicalNext (execGatherCrew die launch cls place unit s) := by
  unfold execGatherCrew
  split
  · exact h
  · exact canonical_formCrew (canonical_ite (canonical_halve h) h)

theorem canonical_execSpillRecordMigration {die} (h : s.canonical) : CanonicalNext (execSpillRecordMigration die s) := by
  unfold execSpillRecordMigration
  refine canonical_ite h ?_
  split
  · exact h
  · split
    rename_i e
    extract_lets s₂ l s₃
    have h₂ : s₂.canonical := canonical_dropRecord (canonical_of_fst (canonical_readRecord h) e)
    have h₃ : s₃.canonical := canonical_ite (canonical_getD h₂ (canonical_unitWrite h₂)) h₂
    split
    · exact canonical_updDie h₃
    · exact canonical_ite (canonical_freeImage h₂) h₂

theorem canonical_execWatchFiringRecord {die index} (h : s.canonical) : CanonicalNext (execWatchFiringRecord die index s) := by
  unfold execWatchFiringRecord
  split
  · exact h
  · exact canonical_ite (canonical_fireWatch h) h

/-! ### Packets -/

theorem canonical_takeSlot {q p r n} (h : s.canonical) : (s.takeSlot q p r n).canonical := h

theorem canonical_execLaunch {queue} (h : s.canonical) : CanonicalNext (execLaunch queue s) := by
  simp only [execLaunch]
  refine canonical_packetStep h (fun _ _ _ h => ?_)
  split
  · exact canonical_queueSettle h
  · split
    · rename_i e
      have h₁ := EngAcc.canonical_ok (canonical_frontRead h) e
      split
      · exact canonical_packetBad h₁
      · split
        · exact canonical_startPkt (canonical_takeSlot h₁)
        · exact canonical_queueSettle h₁
    · exact canonical_pktStop h

theorem canonical_endLaunch {slot} (h : s.canonical) : (s.endLaunch slot).canonical := canonical_settleQueues (canonical_finishPkt h)

theorem canonical_execCohortAdmit {slot} (h : s.canonical) : CanonicalNext (execCohortAdmit slot s) := by
  unfold execCohortAdmit
  split
  · split
    · exact canonical_admitPlan h
    · exact h
  · exact h

theorem canonical_execWaitThresholdReached {queue} (h : s.canonical) : CanonicalNext (execWaitThresholdReached queue s) := by
  unfold execWaitThresholdReached
  change State.canonical _
  extract_lets q
  split
  · exact h
  · split
    · rename_i e
      have h₁ := EngAcc.canonical_ok (canonical_frontRead h) e
      exact canonical_ite (canonical_finishPkt h₁) h₁
    · exact canonical_pktStop h

theorem canonical_noteSignal {ctx addr} (h : s.canonical) : (s.noteSignal ctx addr).canonical := by
  unfold State.noteSignal
  split
  · exact h
  · exact canonical_ite h (canonical_ite h (canonical_ite h (canonical_recoveryRecord h)))

theorem canonical_execSignal {queue} (h : s.canonical) : CanonicalNext (execSignal queue s) := by
  refine canonical_packetStep h fun s q p h => ?_
  extract_lets a put
  have hp : ∀ s v, s.canonical → (put s v).canonical := by
    intro s v h
    unfold put
    split
    · rename_i e
      exact canonical_finishPkt (canonical_noteSignal (EngAcc.canonical_ok (canonical_frontWrite h) e))
    · exact canonical_pktStop h
  split
  · exact h
  · split
    · exact hp _ _ h
    · split
      · rename_i e
        exact hp _ _ (EngAcc.canonical_ok (canonical_frontRead h) e)
      · exact canonical_pktStop h

theorem canonical_execLayout {queue} (h : s.canonical) : CanonicalNext (execLayout queue s) := by
  refine canonical_packetStep h (fun _ _ _ h => ?_)
  split
  · rename_i e
    have h₁ := EngAcc.canonical_ok (canonical_frontRead h) e
    exact canonical_ite (canonical_packetBad h₁) (canonical_finishPkt (canonical_outsideStore h₁))
  · exact canonical_pktStop h

theorem canonical_copyStart {n q p} (h : s.canonical) : (s.copyStart n q p).canonical := by
  unfold State.copyStart
  split
  · exact canonical_finishPkt h
  · split
    · rename_i e
      exact canonical_startPkt (canonical_setQueue (EngAcc.canonical_ok (canonical_frontRead h) e))
    · exact canonical_pktStop h

theorem canonical_copyNext {n q p} (h : s.canonical) : (s.copyNext n q p).canonical := by
  simp only [State.copyNext]
  split
  · exact canonical_ite (canonical_finishPkt h) h
  · split
    · rename_i e
      exact canonical_setQueue (EngAcc.canonical_ok (canonical_frontWrite h) e)
    · exact canonical_pktStop h

theorem canonical_execCopy {queue} (h : s.canonical) : CanonicalNext (execCopy queue s) := by
  simp only [execCopy]
  split
  · exact canonical_copyNext h
  · exact canonical_packetStep h (fun _ _ _ h => canonical_copyStart h)

theorem canonical_execRecoverReplay {queue} (h : s.canonical) : CanonicalNext (execRecoverReplay queue s) := by
  refine canonical_packetStep h fun _ _ _ h => canonical_settleQueues ?_
  exact canonical_foldl (canonical_replay (canonical_finishPkt h)) fun _ _ h => canonical_finishPkt h

theorem canonical_execQuery {queue} (h : s.canonical) : CanonicalNext (execQuery queue s) := by
  simp only [execQuery]
  split
  · split
    · rename_i e
      exact canonical_finishPkt (EngAcc.canonical_ok (canonical_frontWrite h) e)
    · exact canonical_pktStop h
  · exact canonical_packetStep h (fun _ _ _ h => canonical_startPkt h)

/-! ### Management commands -/

theorem canonical_answer {code vals} (h : s.canonical) : (s.answer code vals).canonical := h

theorem canonical_command' {code own reserved k} (h : s.canonical) (hk : ∀ s w c, s.canonical → (k s w c).canonical) :
    (s.command' code own reserved k).canonical := by
  unfold State.command'
  extract_lets w sid tagged ses known s₁ ctx c
  have h₁ : s₁.canonical := canonical_ite h h
  split
  · exact h
  · extract_lets n tagOk
    split
    · exact h
    · split
      · exact canonical_answer h
      · split
        · exact canonical_answer h₁
        · split
          · exact canonical_answer h₁
          · split
            · exact canonical_answer h₁
            · rename_i e
              exact canonical_answer (Answer.canonical_yes (hk _ _ _ h₁) e)

theorem canonical_reservePieces {ctx ns t} (h : s.canonical) (e : s.reservePieces ctx ns = some t) : t.1.canonical := by
  induction ns generalizing s t with
  | nil =>
    cases e
    exact h
  | cons n ns ih =>
    unfold State.reservePieces at e
    split at e
    · obtain ⟨t, ht, rfl⟩ := Option.map_eq_some_iff.1 e
      have h₁ := ih h ht
      exact h₁
    · split at e
      · rename_i e'
        obtain ⟨t, ht, rfl⟩ := Option.map_eq_some_iff.1 e
        have h₁ := ih (canonical_takeFrames h e') ht
        exact h₁
      · cases e

theorem canonical_reserve {ctx ns t} (h : s.canonical) (e : s.reserve ctx ns = some t) : t.1.canonical := by
  simp only [State.reserve] at e
  split at e
  · rename_i e'
    cases e
    exact canonical_takeFrames h e'
  · exact canonical_reservePieces h e

theorem canonical_execCreateContext (h : s.canonical) : CanonicalNext (execCreateContext s) := by
  refine canonical_command' h fun _ _ _ h => ?_
  dsimp only
  split
  · exact trivial
  · split
    · exact trivial
    · split
      · exact trivial
      · rename_i e
        have hs := canonical_reserve h e
        exact hs

theorem canonical_scramble {ctx} (h : s.canonical) : (s.scramble ctx).canonical :=
  canonical_setMem h (Memory.wf_foldl h.mem fun _ _ hm => Memory.wf_putBytes _ _ _ hm)

theorem canonical_destroyContext {c} (h : s.canonical) : (s.destroyContext c).canonical := by
  unfold State.destroyContext
  extract_lets s₁ s₂ s₃
  have h₁ : s₁.canonical := canonical_foldl h fun _ _ h => canonical_freeSlot (canonical_clearLaunch h)
  have h₂ : s₂.canonical := canonical_ite (canonical_scramble h₁) h₁
  exact canonical_updContext (canonical_tlbDrop (canonical_with h₂))

theorem canonical_execDestroyContext (h : s.canonical) : CanonicalNext (execDestroyContext s) := by
  refine canonical_command' h (fun _ _ _ h => ?_)
  split
  · exact canonical_destroyContext h
  · exact trivial

theorem canonical_execCreateQueue (h : s.canonical) : CanonicalNext (execCreateQueue s) := by
  simp only [execCreateQueue]
  refine canonical_command' h (fun _ _ _ h => ?_)
  split
  · exact trivial
  · split
    · exact trivial
    · split
      · exact trivial
      · split
        · exact trivial
        · exact h

theorem canonical_execDestroyQueue (h : s.canonical) : CanonicalNext (execDestroyQueue s) := by
  refine canonical_command' h (fun _ _ _ h => ?_)
  split
  · exact canonical_queueSettle h
  · exact trivial

theorem canonical_execResumeQueue (h : s.canonical) : CanonicalNext (execResumeQueue s) := by
  refine canonical_command' h (fun _ _ _ h => ?_)
  split
  · split
    · exact trivial
    · exact canonical_queueSettle h
  · exact trivial

theorem canonical_execSetHostRange (h : s.canonical) : CanonicalNext (execSetHostRange s) := by
  refine canonical_command' h (fun _ _ _ h => ?_)
  split
  · exact trivial
  · exact h

theorem canonical_execSetPolicy (h : s.canonical) : CanonicalNext (execSetPolicy s) := by
  refine canonical_command' h (fun _ _ _ h => ?_)
  split
  · exact trivial
  · exact h

theorem canonical_execSpdm {response session} (h : s.canonical) : CanonicalNext (execSpdm response session s) := by
  simp only [execSpdm]
  refine canonical_command' h (fun _ _ _ h => ?_)
  split
  · exact canonical_ite h h
  · exact h

theorem canonical_execFaultDone (h : s.canonical) : CanonicalNext (execFaultDone s) := by
  refine canonical_command' h (fun _ _ _ h => ?_)
  split
  · exact trivial
  · exact canonical_ite (canonical_serviceFailed h) (canonical_serviceDone h)

theorem canonical_windowWrite {off bs} (h : s.canonical) : (s.windowWrite off bs).canonical := canonical_ite h (canonical_ite h h)

/-! ### Package, links, dies and outside accesses -/

theorem canonical_execPreemptStopOrder {ctx hearth} (h : s.canonical) : CanonicalNext (execPreemptStopOrder ctx hearth s) := by
  unfold execPreemptStopOrder
  split
  · exact canonical_stopHearth h
  · exact h

theorem canonical_execContextSaveComplete {ctx} (h : s.canonical) : CanonicalNext (execContextSaveComplete ctx s) := by
  unfold execContextSaveComplete
  split
  · refine canonical_ite h (canonical_ite (canonical_flushLeft h) ?_)
    exact canonical_ite (canonical_suspendSaved h) (canonical_ite (canonical_loseOn h) h)
  · exact h

theorem canonical_execFrontClockChange {hearth} (h : s.canonical) : CanonicalNext (execFrontClockChange hearth s) := by
  simp only [execFrontClockChange]
  split
  · exact canonical_ite h h
  · exact h

theorem canonical_lost {powered} {m : Memory} (h : s.canonical) (hm : m.wf = true) :
    (s.lost powered m).canonical :=
  ⟨hm, h.hostMem, h.peerMem⟩

theorem canonical_packageReset {v} (h : s.canonical) : (s.packageReset v).canonical :=
  canonical_ite (canonical_lost h (Memory.wf_foldl rfl fun _ _ hm => Memory.wf_put _ _ _ hm)) h

theorem canonical_sidebandWrite {off bs} (h : s.canonical) : (s.sidebandWrite off bs).canonical :=
  canonical_ite (canonical_ite h h) (canonical_ite h (canonical_ite (canonical_packageReset h) h))

theorem canonical_execRegisterWrite {space off bytes} (h : s.canonical) : CanonicalNext (execRegisterWrite space off bytes s) := by
  unfold execRegisterWrite
  split
  · exact canonical_windowWrite h
  · exact canonical_sidebandWrite h

theorem canonical_flitMeets {u} (h : s.canonical) : (s.flitMeets u).canonical := by
  unfold State.flitMeets
  extract_lets meets
  have ha : ∀ ctx a, (meets ctx a).canonical := by
    intro ctx a
    unfold meets
    split <;> exact h
  split
  · exact h
  · split
    · exact canonical_ite (ha _ _) (canonical_haltCmd h)
    · exact h
  · split
    · exact canonical_ite (ha _ _) (canonical_packetFault h)
    · exact h
  · exact canonical_unbind (canonical_queueFault h)

theorem canonical_flitLost {link conf} (h : s.canonical) : (s.flitLost link conf).canonical := by
  simp only [State.flitLost]
  split
  · exact canonical_flitMeets h
  · exact h

theorem canonical_execFlitCrcFailure {failure} (h : s.canonical) : CanonicalNext (execFlitCrcFailure failure s) := by
  unfold execFlitCrcFailure
  split
  · exact canonical_ite (canonical_flitLost h) h
  · split
    · exact canonical_ite h (canonical_ite h (canonical_ite (canonical_flitLost h) h))
    · exact h

theorem canonical_bootStep {k} (h : s.canonical) : (s.bootStep k).canonical := by
  unfold State.bootStep
  split <;> exact h

theorem canonical_execBringUp {outcome} (h : s.canonical) : CanonicalNext (execBringUp outcome s) := by
  simp only [execBringUp]
  split
  · exact h
  · split
    · exact canonical_with (canonical_bootStep h)
    · exact h

theorem canonical_execRcvGranuleDurable {uid unit granule} (h : s.canonical) :
    CanonicalNext (execRcvGranuleDurable uid unit granule s) := by
  unfold execRcvGranuleDurable
  split
  · exact canonical_releaseAdvance (canonical_granuleDone h)
  · exact h

theorem canonical_moveOff {hearth} (h : s.canonical) :
    (s.moveOff hearth).canonical :=
  canonical_foldl h fun _ _ h => canonical_stopHearth h

theorem canonical_issueError {uid detail tval after} (h : s.canonical) (ha : ∀ s n, s.canonical → (after s n).canonical) :
    (s.issueError uid detail tval after).canonical := by
  unfold State.issueError
  split
  · exact h
  · split
    · exact h
    · split
      · exact ha _ _ (canonical_raiseGroup h)
      · exact h

theorem canonical_execUncorrectableErrorDetected {site} (h : s.canonical) : CanonicalNext (execUncorrectableErrorDetected site s) := by
  unfold execUncorrectableErrorDetected
  split
  · exact h
  · exact h
  · exact h
  · exact h
  · exact h
  · exact canonical_issueError h (fun _ _ h => h)
  · exact canonical_issueError h (fun _ _ h => canonical_moveOff h)
  · split
    · exact canonical_updHearth (canonical_haltCmd h)
    · exact h

theorem canonical_execRetentionEntry {hearth} (h : s.canonical) : CanonicalNext (execRetentionEntry hearth s) := by
  simp only [execRetentionEntry]
  split
  · exact h
  · split
    · exact h
    · split
      · exact h
      · exact canonical_ite h h

theorem canonical_moveFrame {f} (h : s.canonical) : (s.moveFrame f).canonical := by
  simp only [State.moveFrame]
  split
  · exact h
  · split
    · exact h
    · refine canonical_tlbDrop (canonical_noteWrite (canonical_setMem h ?_))
      exact Memory.wf_foldl (Memory.wf_moved _ _ _ _ h.mem) fun _ _ hm => Memory.wf_writeLE _ _ _ _ hm

theorem canonical_dropRow {u} (h : s.canonical) : (s.dropRow u).canonical := by
  unfold State.dropRow
  extract_lets hold
  have hh : ∀ s, s.canonical → (hold s).canonical := fun _ h => h
  exact hh _ (canonical_foldl (hh _ h) fun _ _ h => canonical_moveFrame h)

theorem canonical_execInFieldTest {unit confirmed} (h : s.canonical) : CanonicalNext (execInFieldTest unit confirmed s) := by
  unfold execInFieldTest
  split
  · exact h
  · split
    · exact canonical_ite h h
    · exact canonical_ite h h
    · exact canonical_ite (canonical_dropRow h) h

theorem canonical_outsideWrite {agent pa bs poisoned} (h : s.canonical) : CanonicalSome (s.outsideWrite agent pa bs poisoned) := by
  unfold State.outsideWrite
  split
  · exact trivial
  · exact canonical_ite (canonical_taint (canonical_outsideStore h)) (canonical_outsideStore h)

theorem canonical_hostKeeps {pa n} (h : s.canonical) : (s.hostKeeps pa n).canonical :=
  canonical_foldl h fun _ _ h => canonical_ite h (canonical_with (canonical_invalidate h))

theorem canonical_hostLoads {pa n keep} (h : s.canonical) : (s.hostLoads pa n keep).canonical :=
  canonical_foldl h fun _ _ h => canonical_ite h (canonical_ite h h)

theorem canonical_execHostStoreToDevice {pa access} (h : s.canonical) : CanonicalNext (execHostStoreToDevice pa access s) := by
  unfold execHostStoreToDevice
  split
  · split
    · exact h
    · split
      · rename_i e
        have h₁ := canonical_of_some (canonical_outsideWrite h) e
        exact canonical_ite (canonical_hostKeeps h₁) h₁
      · exact h
  · exact canonical_ite h (canonical_hostLoads h)

theorem canonical_execHostInvalidate {die line} (h : s.canonical) : CanonicalNext (execHostInvalidate die line s) := by
  have he : (s.evictL2 die true line).canonical := canonical_evictL2 h
  refine canonical_ite h (canonical_ite he ?_)
  exact canonical_setHostMem he (Memory.wf_putBytes _ _ _ he.hostMem)

theorem canonical_peerPerform {pa access} (h : s.canonical) : (s.peerPerform pa access).canonical := by
  simp only [State.peerPerform]
  split
  · exact canonical_l2Load h
  · exact canonical_getD h (canonical_outsideWrite h)
  · split
    · split
      · exact h
      · split
        · exact canonical_getD h (canonical_outsideWrite h)
        · exact h
    · exact h

theorem canonical_execPeerAccess {req} (h : s.canonical) : CanonicalNext (execPeerAccess req s) := by
  unfold execPeerAccess
  extract_lets n a
  refine canonical_ite h (canonical_ite h ?_)
  split
  · rename_i e
    have h₁ := UnitXlate.canonical_ok (canonical_unitXlate h) e
    exact canonical_ite (canonical_peerPerform h₁) h₁
  · exact canonical_startService h
  · exact h

/-! ### Engine words -/

theorem canonical_firstCause {l k} (hk : k.canonical) : (firstCause l k).canonical := canonical_firstFault hk

theorem canonical_command {f og m op} (h : s.canonical) : (s.command f og m op).canonical := by
  simp only [State.command]
  split
  · exact .ok
  · exact .wait h

theorem canonical_readWord {f og op d n} (h : s.canonical) : (s.readWord f og op d n).canonical := by
  simp only [State.readWord]
  split
  · exact .ok
  · exact .wait h

theorem canonical_execTstatBarrier {m d n} (h : s.canonical) : CanonicalNext (execTstatBarrier m d n s) := by
  refine canonical_word h (fun _ _ => ?_)
  split
  · exact .raise
  · exact canonical_readWord h

theorem canonical_execTgat {m t a b} (h : s.canonical) : CanonicalNext (execTgat m t a b s) := by
  simp only [execTgat]
  refine canonical_word h (fun _ _ => ?_)
  refine canonical_firstCause ?_
  split
  · exact .ok
  · exact .wait h

/-! ### Instructions and events together -/

theorem canonical_exec {i} (h : s.canonical) : CanonicalNext (exec i s) := by
  unfold exec
  cases i with
  | add | sub | neg | abs | min | max | and | or | xor | andn | orn | mov => exact canonical_ialu h
  | addc | subb => exact canonical_carryWord h
  | sel | shl | shr | sar | rotl | fsh | bfx | bfi | brev | plog | mul | mulh | mad | madh | idp4 => exact canonical_intWord h
  | cmp | lea | fcls | fcvt | pref | fence | waitc | cwpt | svcVersion => exact canonical_word h fun _ _ => .ok
  | popc | clz | ctz | bprm => exact canonical_countWord h
  | div | rem => exact canonical_divWord h
  | fadd | fsub | fmin | fmax | fmul | faddF64 | fsubF64 | fmulF64 | fminF64 | fmaxF64 | fdiv => exact canonical_flt2 h
  | fcmp | fcmpF64 => exact canonical_fltCmp h
  | ffma | ffmaF64 => exact canonical_flt3 h
  | fscl => exact canonical_fltWord h
  | frnd | frcp | frsq | fsqrt | fex2 | flg2 | fsin | fcos | ftnh => exact canonical_flt1 h
  | fdot2 | fdot4 => exact canonical_word h fun _ _ => canonical_dotWord
  | ld | ldh => exact canonical_word h fun _ _ => canonical_access h (fun _ => canonical_returning)
  | chkh => exact canonical_execChkh h
  | st => exact canonical_word h fun _ _ => canonical_access h (fun _ => .ok)
  | atomAdd | atomMin | atomMax | atomAnd | atomOr | atomXor | atomXch | atomCas | atomIncw | atomDecw | atomFadd =>
    exact canonical_atomWord h
  | lds => exact canonical_execLds h
  | sts => exact canonical_word h fun _ _ => canonical_stashAccess h (fun _ _ => .ok)
  | smap => exact canonical_execSmap h
  | sumap | sflush | tfe => exact canonical_word h fun _ _ => canonical_lineRange (fun _ _ _ => .ok)
  | sfe => exact canonical_execSfe h
  | shfl | bcst => exact canonical_xlWord h
  | vote | redu | scan | mtch | elect | rdv | jmsk => exact canonical_grpWord h
  | jarr | exit | yield | nop | unwatch | kcap | rpmark | rpqry | movs | rdtm => exact canonical_plain h fun _ _ => .ok
  | br => exact canonical_issueWord h fun _ _ => canonical_toTarget (fun _ => .ok)
  | call => exact canonical_execCall h
  | ret => exact canonical_execRet h
  | jt => exact canonical_execJt h
  | trap => exact canonical_plain h fun _ _ => .raise
  | bar | barArrive | barWait => exact canonical_word h fun _ _ => canonical_barWord
  | barExpect => exact canonical_execBarExpect h
  | sleep => exact canonical_execSleep h
  | spawn => exact canonical_word h fun _ _ => canonical_entryOf h (fun _ _ => canonical_firstFault .ok)
  | spawnr => exact canonical_execSpawnr h
  | jwait => exact canonical_plain h fun _ _ => canonical_firstFault (canonical_ownRead h (fun _ => .ok))
  | watch => exact canonical_execWatch h
  | mtc | tzeroTile | tzeroAcc | tldTile | tldAcc | tstTile | tstAcc | tmma | tbmp | tcvt | cpyStash | cpyTile | cpyl | cpylSt
    | cpylGg | cpym | coll => exact canonical_word h fun _ _ => canonical_firstCause (canonical_command h)
  | mfc | tacc => exact canonical_word h fun _ _ => canonical_firstCause (canonical_readWord h)
  | tstatTile => exact canonical_word h fun _ _ => canonical_readWord h
  | tstatBarrier => exact canonical_execTstatBarrier h
  | tgat => exact canonical_execTgat h
  | movw => exact canonical_execMovw h
  | svcRecord => exact canonical_execSvcRecord h
  | svcCause => exact canonical_execSvcCause h
  | tret => exact canonical_execTret h
  | tlbi => exact canonical_execTlbi h
  | rep => exact canonical_execRep h
  | censusDecision => exact canonical_execCensusDecision h
  | resultWriteback | linkRetrain | junctionTemperatureChange | hbmStackTemperatureChange => exact h
  | loadReturn => exact canonical_execLoadReturn h
  | storeAcknowledge => exact canonical_execStoreAcknowledge h
  | homeWritePerformed => exact canonical_execHomeWritePerformed h
  | releaseWaitEnd => exact canonical_execReleaseWaitEnd h
  | fenceScSequenced => exact canonical_execFenceScSequenced h
  | leaseExpiry => exact canonical_execLeaseExpiry h
  | mappedLineFill => exact canonical_execMappedLineFill h
  | stashStallTimeout => exact canonical_execStashStallTimeout h
  | rendezvousWatchdogExpiry => exact canonical_execRendezvousWatchdogExpiry h
  | sleepWake => exact canonical_execSleepWake h
  | devBarrierWakeWindow => exact canonical_devWake h
  | gatherCrew => exact canonical_execGatherCrew h
  | cohortAdmit => exact canonical_execCohortAdmit h
  | spillRecordMigration => exact canonical_execSpillRecordMigration h
  | watchFiringRecord => exact canonical_execWatchFiringRecord h
  | jwaitReread => exact canonical_execJwaitReread h
  | flueCommandStart => exact canonical_flueStart h
  | flueLineDelivery => exact canonical_execFlueLineDelivery h
  | flueCommandComplete => exact canonical_execFlueCommandComplete h
  | tileCommandStart => exact canonical_tileStart h
  | tileCommandComplete => exact canonical_execTileCommandComplete h
  | collComplete => exact canonical_execCollComplete h
  | translationWalkComplete => exact canonical_execTranslationWalkComplete h
  | garleyPageService => exact canonical_execGarleyPageService h
  | launchComplete => exact canonical_ite (canonical_endLaunch h) h
  | tailLineStore => exact canonical_readTail h
  | nopPacket | priority => exact canonical_packetStep h (fun _ _ _ h => canonical_finishPkt h)
  | launch => exact canonical_execLaunch h
  | indirect | wait => exact canonical_packetStep h (fun _ _ _ h => canonical_startPkt h)
  | waitThresholdReached => exact canonical_execWaitThresholdReached h
  | signal => exact canonical_execSignal h
  | fencePacket => exact canonical_packetStep h (fun _ _ _ h => canonical_ite (canonical_finishPkt h) h)
  | layout => exact canonical_execLayout h
  | copy => exact canonical_execCopy h
  | recoverClose => exact canonical_packetStep h (fun _ _ _ h => canonical_ite h (canonical_closePoint (canonical_finishPkt h)))
  | recoverReplay => exact canonical_execRecoverReplay h
  | recoverDiscard => exact canonical_packetStep h (fun _ _ _ h => canonical_finishPkt (canonical_discardPoint h))
  | query => exact canonical_execQuery h
  | createContext => exact canonical_execCreateContext h
  | destroyContext => exact canonical_execDestroyContext h
  | createQueue => exact canonical_execCreateQueue h
  | destroyQueue => exact canonical_execDestroyQueue h
  | resumeQueue => exact canonical_execResumeQueue h
  | setHostRange => exact canonical_execSetHostRange h
  | setPolicy => exact canonical_execSetPolicy h
  | spdm => exact canonical_execSpdm h
  | faultDone => exact canonical_execFaultDone h
  | registerWrite => exact canonical_execRegisterWrite h
  | packagePowerLimitWrite | damperInterval | containedNodeAbort | peerLinkDown | pipeIntervalEnd => exact canonical_ite h h
  | packageResetRequest => exact canonical_packageReset h
  | preemptStopOrder => exact canonical_execPreemptStopOrder h
  | contextSaveComplete => exact canonical_execContextSaveComplete h
  | contextRestore => exact canonical_ite h (canonical_foldl (canonical_restoreContext h) fun _ _ h => canonical_queueSettle h)
  | frontClockChange => exact canonical_execFrontClockChange h
  | retentionEntry => exact canonical_execRetentionEntry h
  | retentionExit => exact canonical_ite h (canonical_ite (canonical_foldl h fun _ _ h => canonical_loseCohort h) h)
  | inFieldTest => exact canonical_execInFieldTest h
  | rcvGranuleDurable => exact canonical_execRcvGranuleDurable h
  | emberUnitCopyComplete => exact canonical_copyUnit h
  | sealWrite => exact canonical_sealStep h
  | containedNodeCommit => exact canonical_ite h (canonical_ite (canonical_commitNext h) (canonical_ite (canonical_endLaunch h) h))
  | uncorrectableErrorDetected => exact canonical_execUncorrectableErrorDetected h
  | hostStoreToDevice => exact canonical_execHostStoreToDevice h
  | hostInvalidate => exact canonical_execHostInvalidate h
  | peerAccess => exact canonical_execPeerAccess h
  | flitCrcFailure => exact canonical_execFlitCrcFailure h
  | dieReset => exact canonical_ite h (canonical_dieReset h)
  | bringUp => exact canonical_execBringUp h
  | packageTrip => exact canonical_ite (canonical_lost h rfl) h
  | instructionFetchComplete => exact canonical_execInstructionFetchComplete h
  | engineStashStallTimeout => exact canonical_execEngineStashStallTimeout h
  | svcReply => exact canonical_execSvcReply h
  | tlbiComplete => exact canonical_execTlbiComplete h
  | dieResetComplete => exact canonical_ite (canonical_refit (canonical_dieReady h)) h

/-! ### The turn -/

theorem canonical_settled (h : s.canonical) : s.settled.canonical := canonical_stampReady (canonical_ite (canonical_settle h) h)

theorem canonical_closeDecision (h : s.canonical) : s.closeDecision.canonical := by
  simp only [State.closeDecision]
  refine canonical_stampReady (canonical_meter (canonical_settle ?_))
  split <;> exact h

theorem canonical_wordTurn {f} (h : s.canonical) : (s.wordTurn f).canonical := by
  simp only [State.wordTurn]
  split
  · exact canonical_groupRaise h
  · split
    · exact h
    · split
      · split <;> exact h
      · split
        · split
          · exact h
          · exact canonical_groupRaise h
        · exact h

theorem canonical_turnFrom (h : s.canonical) : s.turnFrom.canonical := by
  unfold State.turnFrom
  split
  · split
    · split
      · exact h
      · exact canonical_wordTurn h
    · exact h
  · split
    · exact canonical_settled (canonical_replay h)
    · split
      · exact h
      · split
        · exact canonical_closeDecision h
        · split
          · exact canonical_settled (canonical_takeReads h)
          · split
            · exact canonical_settled (canonical_resume h)
            · split
              · exact h
              · split <;> exact h

theorem canonical_turn (h : s.canonical) : s.turn.canonical := canonical_turnFrom h

/-! ### The step -/

theorem canonical_step (h : s.canonical) : CanonicalNext (step s) := by
  unfold step
  have ht := canonical_turn h
  split
  · rename_i e
    rw [e] at ht
    exact canonical_exec ht
  · rename_i i t e
    rw [e] at ht
    have hx : CanonicalNext (exec i t) := canonical_exec ht
    split
    · rename_i e
      rw [e] at hx
      exact canonical_settled hx
    · exact hx
  · rename_i e
    rw [e] at ht
    exact ht

end State

/-- Settles O41: `State.canonical_step`, read for a step that answers a next state. -/
theorem everyStepKeepsTheMemoriesCanonical : Obligations.EveryStepKeepsTheMemoriesCanonical := by
  intro s t h e
  have hs : CanonicalNext (step s) := State.canonical_step h
  rw [e] at hs
  exact hs

end Sys2Proof.Machine

/-! ## O37: at an issuing fibre, a step runs the decoded word

A step counts on its counter and then takes a turn; where a fibre issues, the turn is that of its word (`State.turn_of_issuer`). The word's
turn passes the checks of the group, finds the word at the place that the group has reached, and hands its instruction on
(`State.wordTurn_of_decode`). The check of the stepped fields that stands there never fails outside a repetition: what `decode` answers
has operands that exist (`decode_regsOk`). -/

namespace Sys2Proof

/-- What passes the form checks is the instruction that went in, and its register operands exist (R92). -/
theorem checkForm_ok {k : BitVec 5} {i j : Instr} (h : checkForm k i = .ok j) : i = j ∧ i.regsOk = true := by
  unfold checkForm at h
  split at h
  · cases h
  · split at h
    · cases h
    · next hr =>
      split at h
      · cases h
      · cases h
        exact ⟨rfl, by simpa using hr⟩

theorem decode_regsOk {w : Word} {next : Option Word} {i : Instr} (h : decode w next = .ok i) : i.regsOk = true := by
  simp only [decode] at h
  split at h
  · obtain ⟨rfl, hr⟩ := checkForm_ok h
    exact hr
  · cases h
  · cases h

end Sys2Proof

namespace Sys2Proof.Machine

/-- Outside a repetition the word at a place stands for what it decodes to with the word after it, its fields not stepped. -/
theorem instrAt_of_decode {ws : List Word} {k : Nat} {w : Word} {i : Instr} (hw : ws[k]? = some w) (hd : decode w ws[k + 1]? = .ok i) :
    instrAt ws none k = some (i, none) := by
  simp only [instrAt, hw, hd]

namespace State

variable {s : State} {f : Fibre} {w : Word} {i : Instr}

theorem issuing_of_issuer (h : s.issuer = some f) : ∃ uid rest, s.run.issuing = uid :: rest ∧ s.fibre? uid = some f := by
  unfold issuer at h
  cases hl : s.run.issuing with
  | nil => simp [hl] at h
  | cons uid rest => exact ⟨uid, rest, rfl, by simpa [hl] using h⟩

/-- A fibre that issues and lives has the turn, before all other work. -/
theorem turnFrom_of_issuer (hi : s.issuer = some f) (hx : f.exited = false) : s.turnFrom = s.wordTurn f := by
  obtain ⟨uid, rest, hl, hf⟩ := issuing_of_issuer hi
  simp [turnFrom, hl, hf, hx]

@[simp] theorem issuer_ticked : s.ticked.issuer = s.issuer := rfl

theorem turn_of_issuer (hi : s.issuer = some f) (hx : f.exited = false) : s.turn = s.ticked.wordTurn f :=
  turnFrom_of_issuer (by rwa [issuer_ticked]) hx

/-- The turn of a word that opens no repetition and stands in none: its group past the checks, it issues as decoded (R82, R105). -/
theorem wordTurn_of_decode (hrep : (s.openGroup f).repeating = none) (hw : f.groupWords[(s.openGroup f).words]? = some w)
    (hk : wordClass w ≠ 30) (hd : decode w f.groupWords[(s.openGroup f).words + 1]? = .ok i)
    (hg : (s.openGroup f).words = 0 → groupFault (f.arch.pc.toNat % 3) (f.arch.repc == 0) f.groupWords = none) :
    s.wordTurn f = .word i { s with run := { s.run with group := some { s.openGroup f with pin := none } } } := by
  have hpass : (if (s.openGroup f).words = 0 then groupFault (f.arch.pc.toNat % 3) (f.arch.repc == 0) f.groupWords else none) = none := by
    split
    · next h0 => exact hg h0
    · rfl
  have hat : instrAt f.groupWords (s.openGroup f).repeating (s.openGroup f).words = some (i, none) := by
    rw [hrep]
    exact instrAt_of_decode hw hd
  simp only [wordTurn, hpass, hw, hk, hat, decode_regsOk hd, if_true, if_false]

end State

theorem step_of_turn_word {s t : State} {i : Instr} (h : s.turn = .word i t) : step s = exec i t := by
  simp only [step, h]

/-- Settles O37: the turn is the issuing fibre's, and its word issues as decoded. -/
theorem stepRunsTheDecodedWord : Obligations.StepRunsTheDecodedWord := by
  intro s f w i hi hx og hrep hw hk hd hg
  have hturn : s.ticked.wordTurn f = .word i { s.ticked with run := { s.ticked.run with group := some { og with pin := none } } } :=
    State.wordTurn_of_decode hrep hw hk hd hg
  exact step_of_turn_word ((State.turn_of_issuer hi hx).trans hturn)

end Sys2Proof.Machine

/-! ## O51: the admission of cohorts, and the completion, commit and abort of launches

Which branch an event takes is read off its conditions. What the branches leave is said by one frame lemma for each operation they are made of:
the seating of crews (`State.seatCrews_only`), the ownership of a line in the L2 (`State.l2Store_only`), the bytes of a staged line
(`State.writeEach_only`), and what clearing a launch takes out of the device. -/

namespace Sys2Proof.Machine
namespace State

variable {s : State} {slot : Nat}

/-! ### Slots after an update (R366) -/

@[simp] theorem slot_n (s : State) (n : Nat) : (s.slot n).n = n := by
  unfold slot
  cases h : s.slots.find? (·.n == n) with
  | none => rfl
  | some l => simpa using List.find?_some h

theorem slot_congr {t : State} (h : t.slots = s.slots) (n : Nat) : t.slot n = s.slot n := by
  simp only [slot, h]

/-- The slot that was set is the one found. -/
theorem slot_setSlot_same {n : Nat} {l : LaunchSlot} (h : l.n = n) : (s.setSlot l).slot n = l := by
  simp [setSlot, slot, h]

theorem slot_updSlot_same {n : Nat} {g : LaunchSlot → LaunchSlot} (h : (g (s.slot n)).n = n) : (s.updSlot n g).slot n = g (s.slot n) :=
  slot_setSlot_same h

/-- It may be decided again whether a launch is to be resident; nothing else of its slot changes. -/
theorem slot_refit (s : State) (n : Nat) : ∃ b, s.refit.slot n = { s.slot n with resident := b } := by
  have hn (l : LaunchSlot) : (if l.busy ∧ l.next = 0 then { l with resident := s.fitsWhole l.record } else l).n = l.n := by split <;> rfl
  simp only [refit, slot, List.find?_map, Function.comp_def, hn]
  cases s.slots.find? (·.n == n) with
  | none => exact ⟨_, rfl⟩
  | some l =>
    simp only [Option.map_some, Option.getD_some]
    split
    · exact ⟨_, rfl⟩
    · exact ⟨l.resident, rfl⟩

end State

/-! ### Admission (R46, R54) -/

/-- A cohort but for its crews. -/
def Cohort.sansCrews (c : Cohort) : Cohort := { c with crews := [] }

namespace State

variable {s : State} {slot : Nat}

/-- Seating crews gives units, and changes of the cohorts their crews alone. -/
theorem seatCrews_only (s : State) (hearth cohort : Nat) (paired : Bool) (cs : List Nat) :
    ∃ cohorts units, cs.foldl (fun s c => s.seatCrew hearth cohort c (c % 4) paired) s = { s with cohorts := cohorts, units := units } ∧
      cohorts.map Cohort.sansCrews = s.cohorts.map Cohort.sansCrews := by
  induction cs generalizing s with
  | nil => exact ⟨_, _, rfl, rfl⟩
  | cons c cs ih =>
    obtain ⟨cohorts, units, heq, hcrews⟩ := ih (s.seatCrew hearth cohort c (c % 4) paired)
    refine ⟨cohorts, units, heq, hcrews.trans ?_⟩
    simp only [seatCrew, updCrew, updCohort_cohorts, List.map_map]
    refine List.map_congr_left fun x _ => ?_
    simp only [Function.comp_apply]
    split <;> rfl

/-- What admitting a cohort leaves: its fibres and the cohort itself added, and units. -/
theorem admitCohort_only (s : State) (slot number hearth : Nat) :
    let r := (s.slot slot).record
    let uid := s.run.nextUid
    let t := s.admitCohort slot number hearth
    t.fibres = s.fibres ++ (List.range r.cohortSize).map (fun k => r.fibre (uid + 1 + k) uid number k) ∧
    (∃ c ∈ t.cohorts, c.uid = uid ∧ c.hearth = hearth ∧ c.slot = slot ∧ c.number = number ∧ c.decl = r.decl ∧ c.stash = []) ∧
    t.slots = s.slots ∧ t.mem = s.mem := by
  intro r uid t
  simp only [t, admitCohort]
  generalize hco : Cohort.mk .. = co
  obtain ⟨cohorts, units, heq, hcrews⟩ := seatCrews_only _ hearth s.run.nextUid (s.slot slot).record.paired (List.range (s.slot slot).record.crews)
  rw [heq]
  have hmem : co.sansCrews ∈ cohorts.map Cohort.sansCrews := by
    rw [hcrews]
    simp
  obtain ⟨c, hc, hcc⟩ := List.mem_map.1 hmem
  subst hco
  exact ⟨rfl, ⟨c, hc, congrArg Cohort.uid hcc, congrArg Cohort.hearth hcc, congrArg Cohort.slot hcc, congrArg Cohort.number hcc,
    congrArg Cohort.decl hcc, congrArg Cohort.stash hcc⟩, rfl, rfl⟩

/-- A plan of one cohort: the cohort admitted, and counted. -/
theorem admitPlan_one (s : State) (slot h : Nat) :
    s.admitPlan slot [h] =
      (s.admitCohort slot ((if (s.slot slot).record.levels.any (·.2.1 == 8) then (s.slot slot).record.rank * (s.slot slot).total else 0)
        + (s.slot slot).next) h).updSlot slot fun l => { l with next := l.next + 1 } := rfl

/-! ### What a launch leaves when it ends (R284, R412) -/

theorem cohorts_clearLaunch {c : Cohort} (h : c ∈ (s.clearLaunch slot).cohorts) : c.slot ≠ slot := by
  simpa using (List.mem_filter.1 h).2

theorem joinWatches_clearLaunch {w : JoinWatch} (h : w ∈ (s.clearLaunch slot).joinWatches) : w.slot ≠ slot := by
  simpa using (List.mem_filter.1 h).2

theorem devBars_clearLaunch {b : DevBar} (h : b ∈ (s.clearLaunch slot).devBars) : b.slot ≠ slot := by
  simpa using (List.mem_filter.1 h).2

/-- Freeing watchpoints leaves the kindling store. -/
theorem store_freeWatches (ws : List WatchEntry) (d : Die) : (ws.foldl (fun d w => d.freeWatch w.index) d).store = d.store := by
  induction ws generalizing d with
  | nil => rfl
  | cons w ws ih => exact ih (d.freeWatch w.index)

theorem store_clearLaunch {d : Die} {r : KRecord} (hd : d ∈ (s.clearLaunch slot).dies) (hr : r ∈ d.store) : r.slot ≠ slot := by
  obtain ⟨d0, -, rfl⟩ := List.mem_map.1 hd
  rw [store_freeWatches] at hr
  simpa using (List.mem_filter.1 hr).2

/-- No fibre that stays has the name of a fibre of the launch. -/
theorem fibres_clearLaunch {f g : Fibre} {c : Cohort} (hf : f ∈ s.fibres) (hc : c ∈ s.cohorts) (hslot : c.slot = slot) (hcf : c.uid = f.cohort)
    (hg : g ∈ (s.clearLaunch slot).fibres) : g.uid ≠ f.uid := by
  have hcohort : f.cohort ∈ (s.cohorts.filter (·.slot == slot)).map (·.uid) :=
    List.mem_map.2 ⟨c, List.mem_filter.2 ⟨hc, by simpa using hslot⟩, hcf⟩
  have hgone : f.uid ∈ (s.fibres.filter fun f => ((s.cohorts.filter (·.slot == slot)).map (·.uid)).contains f.cohort).map (·.uid) :=
    List.mem_map.2 ⟨f, List.mem_filter.2 ⟨hf, by simpa only [List.contains_iff_mem] using hcohort⟩, rfl⟩
  have hstays := (List.mem_filter.1 hg).2
  intro e
  rw [e] at hstays
  rw [Bool.not_eq_true', ← Bool.not_eq_true, List.contains_iff_mem] at hstays
  exact hstays hgone

/-! ### The commit of a staged line (R411, R218, R287) -/

/-- A state with the memory, the launch slots, the join watches and the run of another: what the L2's own bookkeeping leaves alone. -/
structure CachesOnly (s t : State) : Prop where
  mem : t.mem = s.mem
  slots : t.slots = s.slots
  joinWatches : t.joinWatches = s.joinWatches
  run : t.run = s.run

theorem CachesOnly.refl (s : State) : s.CachesOnly s := ⟨rfl, rfl, rfl, rfl⟩

theorem CachesOnly.trans {s t u : State} (h : s.CachesOnly t) (k : t.CachesOnly u) : s.CachesOnly u :=
  ⟨k.mem.trans h.mem, k.slots.trans h.slots, k.joinWatches.trans h.joinWatches, k.run.trans h.run⟩

theorem CachesOnly.foldl {α : Type} {f : State → α → State} (hf : ∀ (s : State) x, s.CachesOnly (f s x)) (l : List α) (s : State) :
    s.CachesOnly (l.foldl f s) :=
  List.foldlRecOn (motive := s.CachesOnly) l f (.refl s) fun t ht x _ => ht.trans (hf t x)

theorem CachesOnly.foldl_fst {α β : Type} {f : State × β → α → State × β} (hf : ∀ (p : State × β) x, p.1.CachesOnly (f p x).1) (l : List α)
    (p : State × β) : p.1.CachesOnly (l.foldl f p).1 :=
  List.foldlRecOn (motive := fun q => p.1.CachesOnly q.1) l f (.refl p.1) fun q hq x _ => hq.trans (hf q x)

theorem foldHorizon_only (s : State) (key h : Nat) : s.CachesOnly (s.foldHorizon key h) := by
  unfold foldHorizon
  split
  · exact ⟨rfl, rfl, rfl, rfl⟩
  · exact .refl s

theorem evictL2_only (s : State) (die : Nat) (host : Bool) (line : Nat) : s.CachesOnly (s.evictL2 die host line) := by
  unfold evictL2
  split
  · refine CachesOnly.trans ?_ (foldHorizon_only _ _ _)
    exact ⟨rfl, rfl, rfl, rfl⟩
  · exact .refl s

theorem makeRoom_only (s : State) (die line : Nat) : s.CachesOnly (s.makeRoom die line) := by
  unfold makeRoom
  refine CachesOnly.foldl (fun s i => ?_) _ _
  dsimp only
  split
  · exact .refl s
  · split
    · exact evictL2_only _ _ _ _
    · exact .refl s

theorem invalidate_only (s : State) (die : Nat) (host : Bool) (line : Nat) : s.CachesOnly (s.invalidate die host line) :=
  (CachesOnly.foldl (fun s _ => evictL2_only s _ host line) _ s).trans ⟨rfl, rfl, rfl, rfl⟩

theorem l2Store_only (s : State) (die : Nat) (host : Bool) (line sector : Nat) : s.CachesOnly (s.l2Store die host line sector).1 := by
  unfold l2Store
  extract_lets s₁ s₂ horizon old new
  have h₁ : s.CachesOnly s₁ := invalidate_only s die host line
  have h₂ : s.CachesOnly s₂ := by
    dsimp only [s₂]
    split
    · exact h₁
    · exact h₁.trans (makeRoom_only _ _ _)
  clear_value s₂
  split
  · exact h₂.trans ⟨rfl, rfl, rfl, rfl⟩
  · exact h₂.trans (foldHorizon_only _ _ _)

/-- The bytes of a line go to memory, and their writes leave slots, join watches and the run alone. -/
theorem writeEach_only (die : Nat) (bytes : List (Nat × Byte)) (s : State) :
    let t := bytes.foldl (fun (s : State) (x : Nat × Byte) => s.writeBytes none die (.dev x.1) [x.2]) s
    t.mem = bytes.foldl (fun m x => m.put x.1 x.2) s.mem ∧ t.slots = s.slots ∧ t.joinWatches = s.joinWatches ∧ t.run = s.run := by
  induction bytes generalizing s with
  | nil => exact ⟨rfl, rfl, rfl, rfl⟩
  | cons x bytes ih => exact ih (s.writeBytes none die (.dev x.1) [x.2])

/-- A write that no join watch looks at fires none, and no record follows. -/
theorem evalWatches_of_untouched {hit : Nat → Bool} (hf : s.run.fired = []) (hj : ∀ w ∈ s.joinWatches, hit w.pa = false) :
    (s.evalWatches none hit).mem = s.mem ∧ (s.evalWatches none hit).slots = s.slots := by
  have hfired : (s.noteWrite none hit).run.fired = [] := by
    refine (congrArg (· ++ _) hf).trans (List.filter_eq_nil_iff.2 fun w hw => ?_)
    simp [hj w hw]
  have hquiet : s.evalWatches none hit = s.noteWrite none hit := if_pos (.inl hfired)
  rw [hquiet]
  exact ⟨noteWrite_mem _ _ _, noteWrite_slots _ _ _⟩

theorem raiseSlot_mem (s : State) (n g : Nat) : (s.raiseSlot n g).mem = s.mem := by
  unfold raiseSlot
  split <;> rfl

theorem raiseSlot_staged (s : State) (n g : Nat) : ((s.raiseSlot n g).slot n).staged = (s.slot n).staged := by
  unfold raiseSlot
  split
  · rfl
  · rw [slot_updSlot_same (by simp)]

/-- What a commit leaves, but for the GWCT that its writes raise: the line's bytes in memory, and the line staged no more. -/
theorem commitLine_only {l : StagedLine} (hf : s.run.fired = []) (hj : ∀ w ∈ s.joinWatches, ∀ x ∈ l.bytes, touches x.1 1 w.pa = false) :
    ∃ (t : State) (g : Nat), s.commitLine slot l = t.raiseSlot slot g ∧ t.mem = l.bytes.foldl (fun m x => m.put x.1 x.2) s.mem ∧
      t.slots = (s.updSlot slot fun x => { x with staged := x.staged.filter fun y => y.line != l.line }).slots := by
  unfold commitLine
  extract_lets s₁ die whole
  generalize hown : List.foldl _ (s₁, 0) _ = own
  have h₂ : s₁.CachesOnly own.1 := by
    rw [← hown]
    exact CachesOnly.foldl_fst (f := fun p i => ((p.1.l2Store die false l.line i).1, max p.2 (p.1.l2Store die false l.line i).2))
      (fun p i => l2Store_only p.1 die false l.line i) _ (s₁, 0)
  obtain ⟨s₂, g⟩ := own
  have hbytes := writeEach_only die l.bytes s₂
  dsimp only at hbytes ⊢
  generalize l.bytes.foldl (fun (s : State) (x : Nat × Byte) => s.writeBytes none die (.dev x.1) [x.2]) s₂ = s₃ at hbytes ⊢
  obtain ⟨hmem, hslots, hjoins, hrun⟩ := hbytes
  obtain ⟨hmem', hslots'⟩ := evalWatches_of_untouched (s := (s₃.cleanse whole).taint l.poison) (hit := fun w => l.bytes.any fun x => touches x.1 1 w)
    ((congrArg (·.fired) (hrun.trans h₂.run)).trans hf) fun w hw => by
      have hw' : w ∈ s.joinWatches := (hjoins.trans h₂.joinWatches : s₃.joinWatches = s.joinWatches) ▸ hw
      simpa using hj w hw'
  refine ⟨_, g, rfl, hmem'.trans (hmem.trans ?_), hslots'.trans (hslots.trans h₂.slots)⟩
  exact congrArg (fun m => l.bytes.foldl (fun m x => m.put x.1 x.2) m) h₂.mem

end State

/-- Bytes written one by one, each address once: an address reads the byte written there, or what it held. -/
theorem Memory.get_foldl_put (bytes : List (Nat × Byte)) (hn : (bytes.map (·.1)).Nodup) (m : Memory) (a : Nat) :
    (bytes.foldl (fun m x => m.put x.1 x.2) m).get a = ((bytes.find? (·.1 == a)).map (·.2)).getD (m.get a) := by
  induction bytes generalizing m with
  | nil => rfl
  | cons x bytes ih =>
    obtain ⟨hx, hn⟩ := List.nodup_cons.1 hn
    rw [List.foldl_cons, ih hn, List.find?_cons, Memory.get_put]
    by_cases h : x.1 = a
    · have hnone : bytes.find? (·.1 == a) = none := List.find?_eq_none.2 fun y hy => by
        simpa using fun e : y.1 = a => hx (List.mem_map.2 ⟨y, hy, e.trans h.symm⟩)
      simp [h, hnone]
    · have hne : (x.1 == a) = false := by simpa using h
      simp [hne, Ne.symm h]

/-! ### The events of a launch -/

section
variable {s : State} {slot : Nat}

theorem exec_cohortAdmit {plan : List Nat} (hup : s.frontUp = true) (hmay : s.mayPlace (s.slot slot) = true)
    (hplan : s.nextPlan slot = some plan) : exec (.cohortAdmit slot) s = .next (s.admitPlan slot plan) := by
  change execCohortAdmit slot s = _
  simp only [execCohortAdmit, hup, hmay, hplan, Bool.and_self, if_true]

theorem State.launchReleased_of {l : LaunchSlot} (h : l.gwct = 0 ∨ l.gwct + 8 ≤ s.ltimeAt 4) : s.launchReleased l = true := by
  simpa [State.launchReleased] using h

theorem exec_launchComplete (hup : s.frontUp = true) (hover : s.launchOver (s.slot slot) = true) (hnode : (s.slot slot).node = none)
    (hrel : s.launchReleased (s.slot slot) = true) : exec (.launchComplete slot) s = .next (s.endLaunch slot) := by
  change execLaunchComplete slot s = _
  simp only [execLaunchComplete, hup, hover, hnode, hrel, Option.isNone_none, Bool.and_self, if_true]

/-- A node that is over, or about to be demoted, commits its next line that no copy holds. -/
theorem exec_containedNodeCommit_of_line {l : StagedLine} (hnode : (s.slot slot).node.isSome = true)
    (hdue : (s.slot slot).leaving = true ∨ s.launchOver (s.slot slot) = true)
    (hline : ((s.slot slot).staged.find? fun l => !s.copying (l.line * 256) 256) = some l) :
    exec (.containedNodeCommit slot) s = .next (s.commitLine slot l) := by
  have hnone : (s.slot slot).node.isNone = false := by
    rw [Option.isNone_eq_false_iff]
    exact hnode
  have hdue' : ((s.slot slot).leaving || s.launchOver (s.slot slot)) = true := by simpa using hdue
  have hstaged : ((s.slot slot).staged != []) = true := by
    simpa using List.ne_nil_of_mem (List.mem_of_find?_eq_some hline)
  change execContainedNodeCommit slot s = _
  simp only [execContainedNodeCommit, hnone, hdue', hstaged, State.commitNext, hline, Bool.not_true, Bool.or_self, Bool.false_eq_true, if_false,
    if_true]

/-- With every line committed and its writes complete the node completes. -/
theorem exec_containedNodeCommit_of_over (hup : s.frontUp = true) (hnode : (s.slot slot).node.isSome = true)
    (hover : s.launchOver (s.slot slot) = true) (hstaged : (s.slot slot).staged = []) (hrel : s.launchReleased (s.slot slot) = true) :
    exec (.containedNodeCommit slot) s = .next (s.endLaunch slot) := by
  have hnone : (s.slot slot).node.isNone = false := by
    rw [Option.isNone_eq_false_iff]
    exact hnode
  change execContainedNodeCommit slot s = _
  simp [execContainedNodeCommit, hnone, hover, hstaged, hup, hrel]

theorem exec_containedNodeAbort {cause : BitVec 9} (h : (s.slot slot).aborting = some cause) :
    exec (.containedNodeAbort slot cause) s = .next (s.abortNode slot).refit := by
  change execContainedNodeAbort slot cause s = _
  simp only [execContainedNodeAbort, h, if_true]

/-- The slot of a node that has aborted, before it is decided again whether it is to be resident. -/
theorem State.slot_abortNode (s : State) (slot : Nat) :
    (s.abortNode slot).slot slot =
      { s.slot slot with staged := [], leaving := false, gwct := 0, spill := [], spillRecs := [], next := 0, retries := (s.slot slot).retries + 1,
                         gen := ((s.slot slot).gen + 1) % 256, colls := 0, aborting := none } :=
  State.slot_updSlot_same (s.slot_n slot)

/-- The bytes of the line stand in memory, every other byte as it stood. -/
theorem State.get_commitLine {l : StagedLine} (hf : s.run.fired = []) (hn : (l.bytes.map (·.1)).Nodup)
    (hj : ∀ w ∈ s.joinWatches, ∀ x ∈ l.bytes, touches x.1 1 w.pa = false) (a : Nat) :
    (s.commitLine slot l).mem.get a = ((l.bytes.find? (·.1 == a)).map (·.2)).getD (s.mem.get a) := by
  obtain ⟨t, g, heq, hmem, -⟩ := State.commitLine_only (slot := slot) hf hj
  rw [heq, State.raiseSlot_mem, hmem, Memory.get_foldl_put l.bytes hn]

/-- The line is staged no more. -/
theorem State.staged_commitLine {l x : StagedLine} (hf : s.run.fired = [])
    (hj : ∀ w ∈ s.joinWatches, ∀ x ∈ l.bytes, touches x.1 1 w.pa = false) (hx : x ∈ ((s.commitLine slot l).slot slot).staged) : x.line ≠ l.line := by
  obtain ⟨t, g, heq, -, hslots⟩ := State.commitLine_only (slot := slot) hf hj
  rw [heq, State.raiseSlot_staged, State.slot_congr hslots, State.slot_updSlot_same (by simp)] at hx
  simpa using (List.mem_filter.1 hx).2

end

/-- Settles O51: the branch of each event, and what admission, the end of a launch, a commit and an abort leave. -/
theorem launchesAdmitCompleteAndAbort : Obligations.LaunchesAdmitCompleteAndAbort := by
  intro s
  refine ⟨?admitOne, fun slot plan => exec_cohortAdmit, ?complete, fun slot l => exec_containedNodeCommit_of_line, ?nodeComplete, ?ended, ?commit, ?abort⟩
  case admitOne =>
    intro slot h hup hmay hplan l r uid number
    obtain ⟨hfibres, hcohort, hslots, hmem⟩ := s.admitCohort_only slot number h
    refine ⟨_, exec_cohortAdmit hup hmay hplan, hfibres, hcohort, ?_, hmem⟩
    rw [State.admitPlan_one, State.slot_updSlot_same (by simp)]
    exact congrArg (·.next + 1) (State.slot_congr hslots slot)
  case complete => exact fun slot hup hover hnode hrel => exec_launchComplete hup hover hnode (State.launchReleased_of hrel)
  case nodeComplete =>
    exact fun slot hup hnode hover hstaged hrel => exec_containedNodeCommit_of_over hup hnode hover hstaged (State.launchReleased_of hrel)
  case ended =>
    refine fun slot => ⟨rfl, ?_, rfl, fun c => State.cohorts_clearLaunch, fun d hd r => State.store_clearLaunch hd,
      fun w => State.joinWatches_clearLaunch, fun b => State.devBars_clearLaunch, ?_⟩
    · rw [State.freeSlot, State.slot_updSlot_same (by simp)]
    · rintro f hf ⟨c, hc, hslot, hcf⟩ g hg
      exact State.fibres_clearLaunch hf hc hslot hcf hg
  case commit => exact fun slot l hf hn hj => ⟨State.get_commitLine hf hn hj, fun x => State.staged_commitLine hf hj⟩
  case abort =>
    intro slot cause h l
    obtain ⟨b, hslot⟩ := (s.abortNode slot).slot_refit slot
    rw [State.slot_abortNode] at hslot
    refine ⟨_, exec_containedNodeAbort h, rfl, rfl, ?_⟩
    rw [hslot]
    exact ⟨rfl, rfl, rfl, rfl, rfl, rfl, fun c => State.cohorts_clearLaunch⟩

end Sys2Proof.Machine

/-! ## O56: the packets that read or write memory

A packet that is due reaches its own meaning (`State.packetStep_of_due`): its queue is served, no ready queue goes before it, and it passes the
checks. What remains of each packet is its own access, and the lemmas say, for every state and row by row, what it does when that access is
answered. A COPY or QUERY that has started goes on outside `packetStep`; whether a COPY does is a free choice, and where it does not, its queue
has nothing else to start.

The clauses of O56 are these lemmas but for one: the start of a QUERY, which the statement describes otherwise than `exec_query_of_start` does.
The two agree where packets of one id have one selector (`exec_query_of_start_distinct`), and `TwinQueries.state` is a state where they differ. -/

namespace Sys2Proof.Machine

namespace State

/-- The slot that a launch takes (R366). -/
theorem slot_takeSlot (s : State) (q : Queue) (p : Pkt) (r : LaunchRec) (m : Nat) :
    (s.takeSlot q p r m).slot m =
      { n := m, gen := ((s.slot m).gen + 1) % 256, busy := true, queue := q.n, pkt := p.id, ctx := q.ctx, prio := min r.prio q.priority,
        order := s.run.nextOrder, record := r, next := 0, total := r.cohorts, resident := s.fitsWhole r, spill := [],
        spillRecs := [], retries := 0, demoted := false, leaving := false, staged := [], gwct := 0, colls := 0, aborting := none, code := s.mem } :=
  slot_setSlot_same rfl

/-! ### A packet that is due, and a queue that has none -/

variable {s s1 s2 s3 : State} {n kind : Nat} {p r : Pkt} {bs bs3 : List Byte} {g g3 : Nat}

theorem packetStep_of_due (h : s.PacketDue n kind s1 p) (k : State → Queue → Pkt → State) :
    s.packetStep n kind k = k s1 (s1.queue n) p := by
  obtain ⟨hserved, hfirst, s0, hnext, rfl, hsound, hkind, hwait⟩ := h
  have hahead : (s.queues.any fun r => s.ahead (s.queue n) r && s.queueReady r) = false := by
    simpa using hfirst
  simp only [packetStep, hserved, hahead, hnext, hsound, hkind, hwait, Bool.not_true, Bool.not_false, Bool.or_self, Bool.false_eq_true,
    if_false, and_self, if_true]
  rfl

theorem packetStep_of_none (h : s.nextPkt n = (s, none)) (k : State → Queue → Pkt → State) : s.packetStep n kind k = s := by
  simp only [packetStep, h, ite_self]

/-- A queue whose one packet is a COPY that runs has nothing to start. -/
theorem nextPkt_of_copy (hq : (s.queue n).pkts = [r]) (hs : r.started = true) (ho : r.op = 7) : s.nextPkt n = (s, none) := by
  have hwait : (s.queue n).waitingOn = none := by simp [Queue.waitingOn, hq, ho]
  have hup : (s.queue n).nextUp = .none := by simp [Queue.nextUp, Queue.openBuffer, hq, hs, ho]
  simp only [nextPkt, hwait, hup, Option.isSome_none, Bool.false_eq_true, if_false]

end State

/-! ### LAUNCH (R48 to R55, R366) -/

section
variable {s s1 s2 s3 : State} {n : Nat} {p r : Pkt} {bs bs3 : List Byte} {g g3 : Nat}

/-- A sound LAUNCH takes the lowest free slot. -/
theorem exec_launch_of_sound {m : Nat} (h : s.PacketDue n 1 s1 p) (hx : s1.exclusiveWaits (s1.queue n).ctx = false)
    (hr : s1.frontRead (s1.queue n).ctx (ownAddr (p.field 8 8)) 256 = .ok s2 bs g)
    (hok : s2.launchOk (((s2.context? (s1.queue n).ctx).map (·.confidential)).getD false) bs = true)
    (hm : (List.range 256).find? (fun m => !(s2.slot m).busy) = some m) :
    exec (.launch n) s = .next ((s2.takeSlot (s1.queue n) p (LaunchRec.ofBytes bs) m).startPkt n p.id) := by
  change execLaunch n s = _
  simp only [execLaunch, State.packetStep_of_due h, hx, hr, hok, hm, Bool.not_true, Bool.false_eq_true, if_false]

/-- An unsound one halts its queue. -/
theorem exec_launch_of_unsound (h : s.PacketDue n 1 s1 p) (hx : s1.exclusiveWaits (s1.queue n).ctx = false)
    (hr : s1.frontRead (s1.queue n).ctx (ownAddr (p.field 8 8)) 256 = .ok s2 bs g)
    (hbad : s2.launchOk (((s2.context? (s1.queue n).ctx).map (·.confidential)).getD false) bs = false) :
    exec (.launch n) s = .next (s2.packetBad n p 0x05) := by
  change execLaunch n s = _
  simp only [execLaunch, State.packetStep_of_due h, hx, hr, hbad, Bool.not_false, Bool.false_eq_true, if_false, if_true]

/-! ### SIGNAL (R291) -/

theorem exec_signal_of_write (h : s.PacketDue n 4 s1 p) (ha : s1.frontAcked = true) (hadd : p.field 0x18 1 = 0)
    (hw : s1.frontWrite (s1.queue n).ctx (pktAgent p.id) (ownAddr (p.field 8 8)) (leBytes 8 (p.field 16 8)) = .ok s2 bs g) :
    exec (.signal n) s = .next ((s2.noteSignal (s1.queue n).ctx (p.field 8 8)).finishPkt n p.id) := by
  change execSignal n s = _
  simp only [execSignal, State.packetStep_of_due h, ha, hadd, hw, Bool.not_true, Bool.false_eq_true, if_false, if_true]

theorem exec_signal_of_add (h : s.PacketDue n 4 s1 p) (ha : s1.frontAcked = true) (hadd : p.field 0x18 1 ≠ 0)
    (hr : s1.frontRead (s1.queue n).ctx (ownAddr (p.field 8 8)) 8 = .ok s2 bs g)
    (hw : s2.frontWrite (s1.queue n).ctx (pktAgent p.id) (ownAddr (p.field 8 8))
      (leBytes 8 ((leNat bs + p.field 16 8) % 2 ^ 64)) = .ok s3 bs3 g3) :
    exec (.signal n) s = .next ((s3.noteSignal (s1.queue n).ctx (p.field 8 8)).finishPkt n p.id) := by
  change execSignal n s = _
  simp only [execSignal, State.packetStep_of_due h, ha, hadd, hr, hw, Bool.not_true, Bool.false_eq_true, if_false]

/-! ### LAYOUT (R363) -/

/-- A record of the queue's own context is filed in the layout table. -/
theorem exec_layout_of_own (h : s.PacketDue n 6 s1 p)
    (hr : s1.frontRead (s1.queue n).ctx (ownAddr (p.field 16 8)) 64 = .ok s2 bs g) (hown : leNat ((bs.drop 0xA).take 2) = (s1.queue n).ctx) :
    exec (.layout n) s = .next ((s2.outsideStore (pktAgent p.id)
      (.dev (((s2.context? (s1.queue n).ctx).map Context.layoutAddr).getD 0 + 64 * p.field 8 2)) bs).finishPkt n p.id) := by
  change execLayout n s = _
  simp only [execLayout, State.packetStep_of_due h, hr, hown, ne_eq, not_true_eq_false, if_false]

/-- Another context's halts the queue. -/
theorem exec_layout_of_other (h : s.PacketDue n 6 s1 p)
    (hr : s1.frontRead (s1.queue n).ctx (ownAddr (p.field 16 8)) 64 = .ok s2 bs g) (hother : leNat ((bs.drop 0xA).take 2) ≠ (s1.queue n).ctx) :
    exec (.layout n) s = .next (s2.packetBad n p 0x07) := by
  change execLayout n s = _
  simp only [execLayout, State.packetStep_of_due h, hr, hother, ne_eq, not_false_eq_true, if_true]

/-- Every packet of an operation that has started is done: none is under way. -/
theorem Queue.none_under_way {q : Queue} {op : Nat} (h : ∀ r ∈ q.pkts, r.op = op → r.started = true → r.done = true) :
    ∀ r ∈ q.pkts, ¬(r.started && !r.done && r.op == op) = true := by
  intro r hr hrun
  simp only [Bool.and_eq_true, Bool.not_eq_true', beq_iff_eq] at hrun
  obtain ⟨⟨hs, hd⟩, ho⟩ := hrun
  simp [h r hr ho hs] at hd

/-! ### QUERY (Table 20.9) -/

/-- With no QUERY under way the next packet starts: its answer is read. -/
theorem exec_query_of_start (hidle : ∀ r ∈ (s.queue n).pkts, r.op = 10 → r.started = true → r.done = true) (h : s.PacketDue n 10 s1 p) :
    exec (.query n) s = .next ((s1.setQueue ((s1.queue n).updPkt p.id fun x =>
      { x with data := padBytes 64 (s1.queryBytes (s1.queue n) (p.field 16 1)) })).startPkt n p.id) := by
  have hnone : (s.queue n).pkts.find? (fun x => x.started && !x.done && x.op == 10) = none :=
    List.find?_eq_none.2 (Queue.none_under_way hidle)
  change execQuery n s = _
  simp only [execQuery, hnone, ite_self, State.packetStep_of_due h]

theorem Queue.updPkt_congr {q : Queue} {id : Nat} {e f : Pkt → Pkt} (h : ∀ x ∈ q.pkts, x.id = id → e x = f x) : q.updPkt id e = q.updPkt id f := by
  have hpkts : q.pkts.map (fun x => if x.id = id then e x else x) = q.pkts.map fun x => if x.id = id then f x else x :=
    List.map_congr_left fun x hx => by
      split
      · next hid => exact h x hx hid
      · rfl
  simp only [Queue.updPkt, hpkts]

/-- Where packets of one id have one selector, each packet of the id gets the answer that its own selector names. -/
theorem exec_query_of_start_distinct (hidle : ∀ r ∈ (s.queue n).pkts, r.op = 10 → r.started = true → r.done = true)
    (h : s.PacketDue n 10 s1 p) (hsel : ∀ x ∈ (s1.queue n).pkts, x.id = p.id → x.field 16 1 = p.field 16 1) :
    exec (.query n) s = .next ((s1.setQueue ((s1.queue n).updPkt p.id fun x =>
      { x with data := padBytes 64 (s1.queryBytes (s1.queue n) (x.field 16 1)) })).startPkt n p.id) := by
  have hupd := Queue.updPkt_congr (q := s1.queue n) (id := p.id)
    (e := fun x => { x with data := padBytes 64 (s1.queryBytes (s1.queue n) (p.field 16 1)) })
    (f := fun x => { x with data := padBytes 64 (s1.queryBytes (s1.queue n) (x.field 16 1)) }) fun x hx hid => by rw [hsel x hx hid]
  rw [exec_query_of_start hidle h, hupd]

/-- A QUERY under way writes its answer, as a release. -/
theorem exec_query_of_write (hup : s.frontUp = true) (ha : s.frontAcked = true)
    (hq : ((s.queue n).pkts.find? fun x => x.started && !x.done && x.op == 10) = some r)
    (hw : s.frontWrite (s.queue n).ctx (pktAgent r.id) (ownAddr (r.field 8 8)) r.data = .ok s2 bs g) :
    exec (.query n) s = .next (s2.finishPkt n r.id) := by
  change execQuery n s = _
  simp only [execQuery, ha, hup, hq, hw, Bool.and_self, if_true]

/-! ### COPY (R363, R213) -/

/-- With no COPY under way the next packet starts: its source is read. -/
theorem exec_copy_of_start (hidle : ∀ r ∈ (s.queue n).pkts, r.op = 7 → r.started = true → r.done = true) (h : s.PacketDue n 7 s1 p) :
    exec (.copy n) s = .next (s1.copyStart n (s1.queue n) p) := by
  have hnone : (s.queue n).pkts.filter (fun x => x.started && !x.done && x.op == 7) = [] :=
    List.filter_eq_nil_iff.2 (Queue.none_under_way hidle)
  change execCopy n s = _
  simp only [execCopy, hnone, ite_self, List.getElem?_nil, State.packetStep_of_due h]

/-- The one COPY of its queue goes on or stands, which is free. -/
theorem exec_copy_of_running (hup : s.frontUp = true) (hq : (s.queue n).pkts = [r]) (hs : r.started = true) (hd : r.done = false)
    (ho : r.op = 7) :
    exec (.copy n) s = .next (if Config.choice s.run.tick 4 n % 2 = 0 then s.copyNext n (s.queue n) r else s) := by
  have hbusy : (s.queue n).pkts.filter (fun x => x.started && !x.done && x.op == 7) = [r] := by simp [hq, hs, hd, ho]
  have hone : ∀ c : Nat, [r][c % max 1 [r].length]? = some r := fun c => by simp [Nat.mod_one]
  change execCopy n s = _
  by_cases hc : Config.choice s.run.tick 4 n % 2 = 0
  · simp only [execCopy, hup, hbusy, hone, hc, if_true]
  · simp only [execCopy, hc, if_false, State.packetStep_of_none (State.nextPkt_of_copy hq hs ho)]

theorem State.copyStart_of_read (hlen : p.field 32 8 ≠ 0) {q : Queue}
    (hr : s.frontRead q.ctx ⟨(spacesOf p).1, BitVec.ofNat 64 (p.field 8 8)⟩ (p.field 32 8) = .ok s2 bs g) :
    s.copyStart n q p = (s2.setQueue ((s2.queue n).updPkt p.id fun p => { p with data := bs })).startPkt n p.id := by
  simp only [State.copyStart, hlen, hr, if_false]

/-- A COPY with data left writes up to the end of the line that it stands in. -/
theorem State.copyNext_of_write {q : Queue} (hdata : r.data ≠ [])
    (hw : s.frontWrite q.ctx (pktAgent r.id) ⟨(spacesOf r).2, BitVec.ofNat 64 (r.field 16 8 + (r.field 32 8 - r.data.length))⟩
      (r.data.take (64 - (r.field 16 8 + (r.field 32 8 - r.data.length)) % 64)) = .ok s2 bs g) :
    s.copyNext n q r = s2.setQueue ((s2.queue n).updPkt r.id fun p =>
      { p with data := p.data.drop (64 - (r.field 16 8 + (r.field 32 8 - r.data.length)) % 64) }) := by
  simp only [State.copyNext, hdata, hw, if_false]

/-- With all written and acknowledged it completes. -/
theorem State.copyNext_of_acked {q : Queue} (hdata : r.data = []) (ha : s.acked (pktAgent r.id) = true) :
    s.copyNext n q r = (s.forget (pktAgent r.id)).finishPkt n r.id := by
  simp only [State.copyNext, hdata, ha, if_true]

/-! ### Tail counts (R360, R361, R439) -/

theorem State.notDestroying_of_served {q : Queue} (h : s.served q = true) : q.destroying = false := by
  simp only [State.served, Bool.and_eq_true, Bool.not_eq_true'] at h
  obtain ⟨⟨⟨-, -⟩, hd⟩, -⟩ := h
  exact hd

/-- The packet that a tail count brings: copied out of the ring, not started. -/
def Pkt.ofRing (s : State) (q : Queue) (bs : List Byte) : Pkt :=
  { id := s.run.nextOp, level := 0, index := q.read, parent := none, addr := (gplus q.ring (64 * (q.read % 2 ^ q.k))).off.toNat, bytes := bs,
    started := false, done := false, cut := false, data := [] }

theorem State.readTail_of_new (hs : s.served (s.queue n) = true) (hh : (s.queue n).headDue = false)
    (ht : s.frontRead (s.queue n).ctx (s.queue n).tailLine 8 = .ok s2 bs g) (hlo : (s.queue n).read < leNat bs)
    (hhi : leNat bs ≤ (s.queue n).read + 2 ^ (s.queue n).k)
    (hr : s2.frontRead (s.queue n).ctx (gplus (s.queue n).ring (64 * ((s.queue n).read % 2 ^ (s.queue n).k))) 64 = .ok s3 bs3 g3) :
    s.readTail n =
      ({ s3.setQueue { s.queue n with tail := leNat bs, read := (s.queue n).read + 1,
                                      pkts := (s.queue n).pkts ++ [Pkt.ofRing s3 (s.queue n) bs3] } with
          run := { s3.run with nextOp := s3.run.nextOp + 1 } }.writeHead n).queueSettle n := by
  have hok : ¬(leNat bs < (s.queue n).read ∨ (s.queue n).read + 2 ^ (s.queue n).k < leNat bs) := by omega
  have hnew : leNat bs ≠ (s.queue n).read := by omega
  simp only [State.readTail, hs, hh, ht, hok, hnew, hr, State.notDestroying_of_served hs, Bool.not_true, Bool.false_eq_true, if_false, ite_self]
  rfl

theorem State.readTail_of_bad (hs : s.served (s.queue n) = true) (hh : (s.queue n).headDue = false)
    (ht : s.frontRead (s.queue n).ctx (s.queue n).tailLine 8 = .ok s2 bs g)
    (hbad : leNat bs < (s.queue n).read ∨ (s.queue n).read + 2 ^ (s.queue n).k < leNat bs) :
    s.readTail n = (s2.setQueue { s.queue n with tail := leNat bs }).tailBad n (leNat bs) := by
  simp only [State.readTail, hs, hh, ht, hbad, State.notDestroying_of_served hs, Bool.not_true, Bool.false_eq_true, if_false, if_true, ite_self]

end

/-! ### Two packets of one id

The statement writes the answer of a QUERY with `p.field 16 1` under a binder that is itself named `p`: every packet of the queue that bears the
id gets the answer that its own selector names. The model writes the answer of the packet that starts. In a state whose queue holds two packets
of one id the two differ. Packets take their ids from a counter, so that no run is meant to reach such a state; the statement speaks of every state. -/

namespace TwinQueries

/-- A QUERY that has not started, its selector given. -/
def query (sel : Byte) : Pkt :=
  { id := 9, level := 0, index := 0, parent := none, addr := 0, bytes := [10] ++ List.replicate 15 0 ++ [sel] ++ List.replicate 47 0,
    started := false, done := false, cut := false, data := [] }

/-- A queue of context 1 that holds a QUERY of its own state and, under the same id, one of its context. -/
def queue : Queue := { Queue.unbound 5 with ctx := 1, state := .running, tail := 2, read := 2, pkts := [query 0, query 1] }

/-- The device with that queue; the entry of the context's root table asks for a service. -/
def state : State :=
  { State.reset with mem := [(0x1007, 0x20)], contexts := [Context.fresh 1 0 false 0 0 4 0 [0x1000]], queues := [queue] }

theorem due : state.PacketDue 5 10 (state.took 5) (query 0) := by
  refine ⟨?_, ?_, state, ?_, rfl, ?_, ?_, ?_⟩ <;> decide +kernel

theorem idle : ∀ r ∈ (state.queue 5).pkts, r.op = 10 → r.started = true → r.done = true := by decide +kernel

/-- What the data of the queue's packets begin with: the queue's number 5 for selector 0, the context's id 1 for selector 1. -/
def answers (s : State) : List (Option Byte) := (s.queue 5).pkts.map (·.data.head?)

theorem answers_of_model : answers (((state.took 5).setQueue (((state.took 5).queue 5).updPkt 9 fun x =>
    { x with data := padBytes 64 ((state.took 5).queryBytes ((state.took 5).queue 5) ((query 0).field 16 1)) })).startPkt 5 9) = [some 5, some 5] := by
  decide +kernel

theorem answers_of_statement : answers (((state.took 5).setQueue (((state.took 5).queue 5).updPkt 9 fun x =>
    { x with data := padBytes 64 ((state.took 5).queryBytes ((state.took 5).queue 5) (x.field 16 1)) })).startPkt 5 9) = [some 5, some 1] := by
  decide +kernel

end TwinQueries

/-- Refutes O56 at the start of a QUERY, with two packets of one id in its queue: both take the answer of the packet that starts, where the
statement gives each the answer of its own selector. -/
theorem not_packetsReadAndWriteMemory : ¬ Obligations.PacketsReadAndWriteMemory := by
  intro h
  obtain ⟨-, -, -, hquery, -⟩ := h TwinQueries.state (TwinQueries.state.took 5) 5 (TwinQueries.query 0)
  have hstart := hquery TwinQueries.idle TwinQueries.due
  rw [exec_query_of_start TwinQueries.idle TwinQueries.due] at hstart
  have hsame := congrArg TwinQueries.answers (Host.Outcome.next.inj hstart)
  exact absurd (TwinQueries.answers_of_model.symm.trans (hsame.trans TwinQueries.answers_of_statement)) (by decide)

end Sys2Proof.Machine

/-! ## O49: what a decision does beside choosing a key

The statement gives the state that a decision leaves as the regrouping, the passing of time and the note of idleness, and then the choice. The
model does two more things before it chooses: it meters the cohorts whose engine commands run (R429), and it gives every fibre of the device that
has become ready its age (R68), on whatever grate that fibre stands. With no unit to serve on one grate, a fibre that stands ready on another
still takes its age: not only time passes. -/

namespace Sys2Proof.Machine

namespace AgelessFibre

/-- The device after power-on with a program of one `nop` loaded: its fibre stands ready on grate 0 of hearth 0, its age not yet taken. -/
def state : State := State.reset.withFetchWord 32 0x00482077

/-- What the statement says of a decision of grate 1, which holds no unit. -/
def passed : State := ((state.regroup 0 1).elapse 0 1).noteIdle 0

/-- Which fibres have an age. -/
def aged (s : State) : List Bool := s.fibres.map (·.since.isSome)

theorem first_decision : (passed.hearth 0).front ≠ 1 := by decide +kernel

theorem no_unit : passed.nextUnit 0 1 = none := by decide +kernel

theorem aged_of_statement : aged passed = [false] := by decide +kernel

theorem aged_of_model : aged (((((state.regroup 0 1).elapse 0 1).meterEngines 0).noteIdle 0).stampReady.slotOfGrate 0 1) = [true] := by
  decide +kernel

end AgelessFibre

/-- Refutes O49 with a decision of a grate that holds no unit: a fibre of another grate, ready and without an age, takes its age in the model,
where the statement lets only time pass. -/
theorem not_censusIssuesTheMostHeldKey : ¬ Obligations.CensusIssuesTheMostHeldKey := by
  intro h
  obtain ⟨hfirst, -⟩ := h AgelessFibre.state 0 1 (by decide) (by decide)
  obtain ⟨hnone, -⟩ := hfirst fun hsecond => AgelessFibre.first_decision hsecond.1
  have hsame := congrArg AgelessFibre.aged (Host.Outcome.next.inj (hnone AgelessFibre.no_unit))
  exact absurd (AgelessFibre.aged_of_model.symm.trans (hsame.trans AgelessFibre.aged_of_statement)) (by decide)

end Sys2Proof.Machine

/-! ## O47: leases, the fill of mapped lines, and what outlasts its limit

Each event is one branch of its meaning. Three things stand behind the branches: what a grant of a lease leaves alone (`State.L2Only`), the bytes
that a fill writes (`Cohort.get_fillBytes`), and the way of a late cause: through all that its fibre leaves on the way to its handler, the
fibre's registers and its launch stand (`State.Stands`), so that the entry of R382 is made of them (`State.raiseLate_enters`). -/

namespace Sys2Proof.Machine

/-! ### Lookups after an update -/

/-- What is found under a key after an update that keeps keys is what stood there, updated. -/
theorem find?_map_upd {α : Type} {key : α → Nat} {u : Nat} {g : α → α} (hg : ∀ x, key x = u → key (g x) = u) (l : List α) (v : Nat) :
    (l.map fun x => if key x = u then g x else x).find? (key · == v) = (l.find? (key · == v)).map fun x => if key x = u then g x else x := by
  rw [List.find?_map]
  congr 2
  funext x
  simp only [Function.comp_apply]
  split
  · next h => rw [hg x h, h]
  · rfl

namespace State

variable {s t : State} {u : Nat}

theorem cohort?_uid {c : Cohort} (h : s.cohort? u = some c) : c.uid = u := by
  simpa using List.find?_some h

theorem fibre?_uid {f : Fibre} (h : s.fibre? u = some f) : f.uid = u := by
  simpa using List.find?_some h

theorem cohort?_updCohort {g : Cohort → Cohort} (hg : ∀ c, c.uid = u → (g c).uid = u) (v : Nat) :
    (s.updCohort u g).cohort? v = (s.cohort? v).map fun c => if c.uid = u then g c else c :=
  find?_map_upd hg s.cohorts v

theorem cohort?_updCohort_same {g : Cohort → Cohort} {c : Cohort} (hg : ∀ c, c.uid = u → (g c).uid = u) (h : s.cohort? u = some c) :
    (s.updCohort u g).cohort? u = some (g c) := by
  simp [cohort?_updCohort hg, h, cohort?_uid h]

theorem fibre?_updFibre {g : Fibre → Fibre} (hg : ∀ f, f.uid = u → (g f).uid = u) (v : Nat) :
    (s.updFibre u g).fibre? v = (s.fibre? v).map fun f => if f.uid = u then g f else f :=
  find?_map_upd hg s.fibres v

/-- A measure that no step of a fold changes is that of the start. -/
theorem foldl_keeps {α β : Type} {m : State → β} {f : State → α → State} (hf : ∀ s x, m (f s x) = m s) (l : List α) (s : State) :
    m (l.foldl f s) = m s :=
  List.foldlRecOn (motive := fun t => m t = m s) l f rfl fun t ht x _ => (hf t x).trans ht

end State

/-! ### Lines of a stash -/

@[simp] theorem Cohort.line_n (c : Cohort) (n : Nat) : (c.line n).n = n := by
  unfold Cohort.line
  cases h : c.lines.find? (·.n == n) with
  | none => rfl
  | some l => simpa using List.find?_some h

theorem Cohort.line_setLine_same {c : Cohort} {l : StashLine} {n : Nat} (h : l.n = n) : (c.setLine l).line n = l := by
  simp [Cohort.setLine, Cohort.line, h]

@[simp] theorem Cohort.setLine_uid (c : Cohort) (l : StashLine) : (c.setLine l).uid = c.uid := rfl
@[simp] theorem Cohort.setLine_stash (c : Cohort) (l : StashLine) : (c.setLine l).stash = c.stash := rfl

/-! ### The end of a lease (R205, R211) -/

namespace State

variable {s t : State}

/-- The copies of a line whose lease is over leave the L1, and nothing else does. -/
theorem leaseExpiry_copy (s : State) (h line : Nat) :
    ∃ t, exec (.leaseExpiry h none line) s = .next t ∧
      (∀ l, l ∈ (t.hearth h).l1 ↔ l ∈ (s.hearth h).l1 ∧ (l.line ≠ line ∨ s.ltimeAt (dieOfHearth h) < l.expiry)) ∧
      (∀ k, k ≠ h → t.hearth k = s.hearth k) ∧ t = { s with hearths := t.hearths } := by
  refine ⟨_, rfl, fun l => ?_, fun k hk => ?_, rfl⟩
  · rw [hearth_updHearth _ _ _ _ (by simp), if_pos rfl]
    simp
  · rw [hearth_updHearth _ _ _ _ (by simp), if_neg hk]

/-- A filled mapped line is unfilled again. -/
theorem leaseExpiry_line {h u n : Nat} {c : Cohort} (hc : s.cohort? u = some c) (hh : c.hearth = h) (hm : (c.line n).mapped.isSome = true)
    (hf : (c.line n).full = true) (he : (c.line n).expiry ≤ s.ltimeAt (dieOfHearth h)) :
    ∃ t, exec (.leaseExpiry h (some u) n) s = .next t ∧ t.cohort? u = some (c.setLine { c.line n with full := false }) ∧
      t = { s with cohorts := t.cohorts } := by
  have hexec : exec (.leaseExpiry h (some u) n) s = .next (s.updCohort u fun c => c.updLine n StashLine.expire) := by
    show execLeaseExpiry h (some u) n s = _
    simp only [execLeaseExpiry, hc, hh, hm, hf, he, and_self, if_true]
  exact ⟨_, hexec, cohort?_updCohort_same (fun _ h => h) hc, rfl⟩

/-! ### The grant of a lease (R203, R206, R211) -/

/-- From s to t nothing changed but the lines of the L2 and of the host's cache, and the horizons of sets. -/
def L2Only (s t : State) : Prop := t = { s with l2 := t.l2, setHorizons := t.setHorizons, hostLines := t.hostLines }

theorem L2Only.refl (s : State) : s.L2Only s := rfl

theorem L2Only.trans {s t u : State} (h : s.L2Only t) (k : t.L2Only u) : s.L2Only u := by
  unfold L2Only at h k ⊢
  rw [k, h]

theorem foldHorizon_l2Only (s : State) (key h : Nat) : s.L2Only (s.foldHorizon key h) := by
  unfold foldHorizon
  split <;> rfl

theorem evictL2_l2Only (s : State) (die : Nat) (host : Bool) (line : Nat) : s.L2Only (s.evictL2 die host line) := by
  unfold evictL2
  split
  · exact L2Only.trans (t := { s with l2 := s.l2.filter fun x => !x.is die host line }) rfl (foldHorizon_l2Only _ _ _)
  · rfl

theorem makeRoom_l2Only (s : State) (die line : Nat) : s.L2Only (s.makeRoom die line) := by
  refine List.foldlRecOn (motive := s.L2Only) _ _ (.refl s) fun t ht i _ => ht.trans ?_
  dsimp only
  split
  · rfl
  · split
    · exact evictL2_l2Only _ _ _ _
    · rfl

theorem shareLine_l2Only (s : State) (host : Bool) (line : Nat) : s.L2Only (s.shareLine host line) := rfl

theorem l2Load_l2Only (s : State) (die : Nat) (host : Bool) (line : Nat) : s.L2Only (s.l2Load die host line) := by
  have hroom : s.L2Only ((s.makeRoom die line).shareLine host line) := (makeRoom_l2Only s die line).trans (shareLine_l2Only _ _ _)
  unfold l2Load
  split
  · rfl
  · dsimp only
    generalize (s.makeRoom die line).shareLine host line = r at hroom ⊢
    split
    · exact hroom.trans rfl
    · exact hroom

/-- A lease ends its length from now, and granting it changes the caches alone. -/
theorem grantLease_spec (s : State) (die : Nat) (host : Bool) (line len : Nat) :
    (s.grantLease die host line len).2 = s.ltimeAt die + len ∧ s.L2Only (s.grantLease die host line len).1 := by
  have hload := l2Load_l2Only s die host line
  unfold grantLease
  dsimp only
  split
  · exact ⟨rfl, hload.trans rfl⟩
  · exact ⟨rfl, hload.trans (foldHorizon_l2Only _ _ _)⟩

end State

/-! ### The fill of a mapped line (R205, R211) -/

/-- The bytes of a fill at offset o, each with its place in the line: those at a place that stands are not written. -/
def Cohort.fillBytes (c : Cohort) (o stands : Nat) (bs : List (Byte × Nat)) : Cohort :=
  bs.foldl (fun (c : Cohort) (x : Byte × Nat) => if stands.testBit x.2 then c else { c with stash := Memory.put c.stash (o + x.2) x.1 }) c

theorem Cohort.fillBytes_cons (c : Cohort) (o stands k : Nat) (b : Byte) (bs : List (Byte × Nat)) :
    c.fillBytes o stands ((b, k) :: bs) =
      (if stands.testBit k then c else { c with stash := Memory.put c.stash (o + k) b }).fillBytes o stands bs := rfl

/-- Filling changes of the cohort its stash alone. -/
theorem Cohort.fillBytes_rest (c : Cohort) (o stands : Nat) (bs : List (Byte × Nat)) :
    c.fillBytes o stands bs = { c with stash := (c.fillBytes o stands bs).stash } := by
  induction bs generalizing c with
  | nil => rfl
  | cons x bs ih =>
    rw [Cohort.fillBytes_cons]
    split
    · exact ih c
    · rw [ih]

theorem Cohort.get_fillBytes (c : Cohort) (o stands i : Nat) (bs : List Byte) (k : Nat) :
    Memory.get (c.fillBytes o stands (bs.zipIdx k)).stash i =
      if (o + k ≤ i ∧ i < o + k + bs.length) ∧ stands.testBit (i - o) = false then bs.getD (i - (o + k)) 0 else Memory.get c.stash i := by
  induction bs generalizing c k with
  | nil =>
    have hnone : ¬(o + k ≤ i ∧ i < o + k + ([] : List Byte).length) := by simp
    rw [if_neg fun h => hnone h.1]
    rfl
  | cons b bs ih =>
    have hstep : Memory.get (if stands.testBit k then c else { c with stash := Memory.put c.stash (o + k) b }).stash i =
        if i = o + k ∧ stands.testBit k = false then b else Memory.get c.stash i := by
      cases stands.testBit k <;> simp [Memory.get_put]
    rw [List.zipIdx_cons, Cohort.fillBytes_cons, ih, hstep, List.length_cons]
    by_cases hi : i = o + k
    · have hplace : i - o = k := by omega
      simp [hi]
    · have hrange : (o + (k + 1) ≤ i ∧ i < o + (k + 1) + bs.length) ↔ (o + k ≤ i ∧ i < o + k + (bs.length + 1)) := by omega
      simp only [hrange, hi, false_and, if_false]
      split
      · next h =>
        have hidx : i - (o + k) = i - (o + (k + 1)) + 1 := by omega
        rw [hidx, List.getD_cons_succ]
      · rfl

namespace State

variable {s t : State}

/-- Device memory as an agent of no node reads it. -/
theorem targetBytes_dev (s : State) (pa n : Nat) : s.targetBytes none (.dev pa) n = (List.range n).map fun i => s.mem.get (pa + i) := rfl

/-- The fill of a line from device memory: a lease, the clean bytes, the line full, and what waits on it goes on. -/
theorem fillMapped_dev_eq {u n pa e : Nat} {c : Cohort} {a : GAddr} (hc : s.cohort? u = some c) (ha : (c.line n).mapped = some a)
    (hn : (s.slot c.slot).node = none) (hg : s.grantLease (dieOfHearth c.hearth) false (pa / 256) (s.slot c.slot).leaseNs = (t, e)) :
    ∃ l : StashLine, l.n = n ∧ l.full = true ∧ l.dirty = (c.line n).dirty ∧ l.expiry = e ∧
      s.fillMapped u n (.dev pa) = (t.updCohort u fun _ => (c.fillBytes (n * 128) ((c.line n).dirty ||| t.lineFlight u n a)
        (t.targetBytes none (.dev pa) 128).zipIdx).setLine l).wakeLine u n := by
  simp only [fillMapped, hc, hg, hn, ha, Option.map_some, Option.getD_some]
  refine ⟨_, ?_, ?_, ?_, ?_, rfl⟩
  · exact Cohort.line_n c n
  · rfl
  · rfl
  · rfl

/-- What the fill of a line from device memory leaves of its cohort. -/
theorem fillMapped_dev {u n pa : Nat} {c : Cohort} {a : GAddr} (hc : s.cohort? u = some c) (ha : (c.line n).mapped = some a)
    (hn : (s.slot c.slot).node = none) :
    (s.fillMapped u n (.dev pa)).mem = s.mem ∧ ∃ c', (s.fillMapped u n (.dev pa)).cohort? u = some c' ∧ (c'.line n).full = true ∧
      (c'.line n).dirty = (c.line n).dirty ∧ (c'.line n).expiry = s.ltimeAt (dieOfHearth c.hearth) + (s.slot c.slot).leaseNs ∧
      ∀ i, Memory.get c'.stash i = if 128 * n ≤ i ∧ i < 128 * n + 128 ∧ ((c.line n).dirty ||| s.lineFlight u n a).testBit (i - 128 * n) = false
        then s.mem.get (pa + (i - 128 * n)) else Memory.get c.stash i := by
  obtain ⟨hexp, honly⟩ := grantLease_spec s (dieOfHearth c.hearth) false (pa / 256) (s.slot c.slot).leaseNs
  generalize hg : s.grantLease (dieOfHearth c.hearth) false (pa / 256) (s.slot c.slot).leaseNs = g at hexp honly
  obtain ⟨t, e⟩ := g
  dsimp only at hexp honly
  obtain ⟨l, hln, hfull, hdirty, hle, heq⟩ := fillMapped_dev_eq hc ha hn hg
  have hmem : t.mem = s.mem := by rw [honly]
  have hflight : t.lineFlight u n a = s.lineFlight u n a := by rw [honly]; rfl
  have hct : t.cohort? u = some c := by rw [honly]; exact hc
  rw [hflight, targetBytes_dev, hmem] at heq
  have hrest := Cohort.fillBytes_rest c (n * 128) ((c.line n).dirty ||| s.lineFlight u n a) ((List.range 128).map fun i => s.mem.get (pa + i)).zipIdx
  have hbytes := fun i => Cohort.get_fillBytes c (n * 128) ((c.line n).dirty ||| s.lineFlight u n a) i
    ((List.range 128).map fun i => s.mem.get (pa + i)) 0
  generalize c.fillBytes _ _ _ = d at heq hrest hbytes
  rw [heq]
  have huid : c.uid = u := cohort?_uid hc
  have hdu : d.uid = u := (congrArg Cohort.uid hrest).trans huid
  refine ⟨hmem, _, cohort?_updCohort_same (fun _ _ => hdu) hct, ?_, ?_, ?_, fun i => ?_⟩
  · rw [Cohort.line_setLine_same hln, hfull]
  · rw [Cohort.line_setLine_same hln, hdirty]
  · rw [Cohort.line_setLine_same hln, hle, hexp]
  · rw [Cohort.setLine_stash, hbytes i, Nat.mul_comm n 128]
    simp only [Nat.add_zero, List.length_map, List.length_range, and_assoc]
    split
    · next h =>
      have hlt : i - 128 * n < 128 := by omega
      simp [hlt]
    · rfl

/-- The event fills a line that is wanted where nothing stands in its way. -/
theorem exec_mappedLineFill {u n pa : Nat} {c : Cohort} {a : GAddr} (hc : s.cohort? u = some c) (hrun : c.run = .running)
    (ha : (c.line n).mapped = some a) (hnot : (c.line n).filled (s.cohortTime c) = false) (hw : s.fillWanted c n = true)
    (hx : s.translate c.hearth (s.slot c.slot).ctx 3 a a.off = .ok (.dev pa)) (hup : s.stackUp pa = true)
    (hp : s.poisoned (.dev pa) 128 = false) (hn : (s.slot c.slot).node = none) :
    exec (.mappedLineFill u n) s = .next (s.fillMapped u n (.dev pa)) := by
  have hpoison : s.poisonedFor none (.dev pa) 128 = false := hp
  have hnow : s.fillsNow c (.dev pa) = true := by simp [fillsNow, Target.linked, hup]
  show execMappedLineFill u n s = _
  simp only [execMappedLineFill, hc, ha, hrun, hnot, hw, Bool.not_false, and_self, if_true, fillTry, hx, fillFrom, hn, hpoison, hnow,
    Bool.false_eq_true, if_false, cohort?_uid hc]

end State

/-! ### The way of a late cause (R38, R382) -/

namespace Fibre

/-- From f to g the registers, the name, the cohort and the repetition stand. -/
structure Same (f g : Fibre) : Prop where
  arch : g.arch = f.arch
  uid : g.uid = f.uid
  cohort : g.cohort = f.cohort
  rep : g.rep = f.rep

theorem Same.refl (f : Fibre) : f.Same f := ⟨rfl, rfl, rfl, rfl⟩

theorem Same.trans {f g h : Fibre} (a : f.Same g) (b : g.Same h) : f.Same h :=
  ⟨b.arch.trans a.arch, b.uid.trans a.uid, b.cohort.trans a.cohort, b.rep.trans a.rep⟩

theorem dropPend_same (f : Fibre) (n : Nat) : f.Same (f.dropPend n) := ⟨rfl, rfl, rfl, rfl⟩

theorem unpresent_same (f : Fibre) : f.Same f.unpresent := by
  unfold unpresent
  extract_lets again f'
  have h : f.Same f' := List.foldlRecOn (motive := f.Same) _ _ (.refl f) fun g hg x _ => hg.trans (g.dropPend_same x.1)
  exact h.trans ⟨rfl, rfl, rfl, rfl⟩

theorem unstall_same (f : Fibre) (p : Wait → Bool) : f.Same (f.unstall p) := by
  unfold unstall
  dsimp only
  split
  · refine Same.trans ?_ (unpresent_same _)
    exact ⟨rfl, rfl, rfl, rfl⟩
  · exact ⟨rfl, rfl, rfl, rfl⟩

@[simp] theorem backUp_uid (f : Fibre) : f.backUp.uid = f.uid := by
  unfold backUp
  split <;> rfl

@[simp] theorem backUp_cohort (f : Fibre) : f.backUp.cohort = f.cohort := by
  unfold backUp
  split <;> rfl

@[simp] theorem backUp_handler (f : Fibre) : f.backUp.arch.handler = f.arch.handler := by
  unfold backUp
  split <;> rfl

theorem Same.backUp_arch {f g : Fibre} (h : f.Same g) : g.backUp.arch = f.backUp.arch := by
  simp only [backUp, h.rep, h.arch]
  split <;> simp [h.arch]

end Fibre

namespace State

variable {s t : State} {u : Nat} {f : Fibre}

/-- From s to t fibre u keeps its registers and its cohort, and every cohort its launch. -/
structure Stands (s t : State) (u : Nat) : Prop where
  fibre : ∀ f, s.fibre? u = some f → ∃ g, t.fibre? u = some g ∧ g.arch = f.arch ∧ g.cohort = f.cohort
  launch : ∀ c, (t.cohort? c).map (·.slot) = (s.cohort? c).map (·.slot)
  slots : t.slots = s.slots

theorem Stands.refl (s : State) (u : Nat) : s.Stands s u := ⟨fun f h => ⟨f, h, rfl, rfl⟩, fun _ => rfl, rfl⟩

theorem Stands.trans {r : State} (h : r.Stands s u) (k : s.Stands t u) : r.Stands t u where
  fibre f hf := by
    obtain ⟨g, hg, ha, hc⟩ := h.fibre f hf
    obtain ⟨g', hg', ha', hc'⟩ := k.fibre g hg
    exact ⟨g', hg', ha'.trans ha, hc'.trans hc⟩
  launch c := (k.launch c).trans (h.launch c)
  slots := k.slots.trans h.slots

/-- A state with the same fibres, cohorts and launch slots. -/
theorem Stands.of_eq (hf : t.fibres = s.fibres) (hc : t.cohorts = s.cohorts) (hs : t.slots = s.slots) : s.Stands t u :=
  ⟨fun f h => ⟨f, by rw [fibre?, hf]; exact h, rfl, rfl⟩, fun c => by rw [cohort?, hc]; rfl, hs⟩

theorem Stands.foldl {α : Type} {g : State → α → State} (hg : ∀ (s : State) x, s.Stands (g s x) u) (l : List α) (s : State) :
    s.Stands (l.foldl g s) u :=
  List.foldlRecOn (motive := fun t => s.Stands t u) l g (.refl s u) fun t ht x _ => ht.trans (hg t x)

theorem updFibre_stands {v : Nat} {g : Fibre → Fibre} (hg : ∀ f : Fibre, f.Same (g f)) : s.Stands (s.updFibre v g) u where
  fibre f hf := by
    rw [fibre?_updFibre (fun f h => (hg f).uid.trans h), hf]
    refine ⟨_, rfl, ?_, ?_⟩ <;> dsimp only
    · split
      · exact (hg f).arch
      · rfl
    · split
      · exact (hg f).cohort
      · rfl
  launch _ := rfl
  slots := rfl

theorem updCohort_stands {v : Nat} {g : Cohort → Cohort} (hu : ∀ c, (g c).uid = c.uid) (hs : ∀ c, (g c).slot = c.slot) :
    s.Stands (s.updCohort v g) u where
  fibre f hf := ⟨f, hf, rfl, rfl⟩
  launch c := by
    rw [cohort?_updCohort (fun c h => (hu c).trans h), Option.map_map]
    congr 1
    funext c
    simp only [Function.comp_apply]
    split
    · exact hs c
    · rfl
  slots := rfl

theorem updCrew_stands {v n : Nat} {g : Crew → Crew} : s.Stands (s.updCrew v n g) u := updCohort_stands (fun _ => rfl) fun _ => rfl

theorem dropLocks_stands {h n : Nat} : s.Stands (s.dropLocks h n) u := .of_eq rfl rfl rfl

theorem dropReads_stands {v : Nat} : s.Stands (s.dropReads v) u := by
  unfold dropReads
  extract_lets mine n stats s₁
  have h : s.Stands s₁ u := by
    refine Stands.foldl (fun _ _ => ?_) _ _
    exact updCohort_stands (fun _ => rfl) fun _ => rfl
  have h' : s₁.Stands { s₁ with cmds := s₁.cmds.filter fun c => !mine c } u := .of_eq rfl rfl rfl
  refine (h.trans h').trans (updFibre_stands fun f => ?_)
  split <;> exact ⟨rfl, rfl, rfl, rfl⟩

theorem unblock_stands {v : Nat} : s.Stands (s.unblock v) u := by
  unfold unblock
  split
  · exact .refl s u
  · next f _ =>
    extract_lets mine s₁ s₂ s₃
    have h₁ : s.Stands s₁ u := updCrew_stands
    have h₂ : s₁.Stands s₂ u := Stands.foldl (fun r x => by
      have hp : r.Stands (r.updFibre v fun f => f.dropPend x.2) u := updFibre_stands fun f => f.dropPend_same x.2
      dsimp only
      split
      · exact (hp.trans dropLocks_stands).trans (updFibre_stands fun _ => ⟨rfl, rfl, rfl, rfl⟩)
      · exact hp) _ _
    have h₃ : s₂.Stands s₃ u := dropReads_stands.trans (updFibre_stands fun _ => ⟨rfl, rfl, rfl, rfl⟩)
    exact ((h₁.trans h₂).trans h₃).trans (.of_eq rfl rfl rfl)

/-- A fibre that stands keeps its launch. -/
theorem Stands.slotOf {g : Fibre} (h : s.Stands t u) (hc : g.cohort = f.cohort) : t.slotOf g = s.slotOf f := by
  have hslot : (t.cohortOf g).slot = (s.cohortOf f).slot := by
    have hm := h.launch f.cohort
    rw [cohortOf, cohortOf, hc]
    cases ht : t.cohort? f.cohort <;> cases hs : s.cohort? f.cohort <;> simp_all
  rw [State.slotOf, State.slotOf, hslot, slot_congr h.slots]

theorem handlerPc_of_ne {l : LaunchSlot} {h : Word} (he : l.record.handler = h) (hn : h ≠ 0xFFFFFFFF) : l.handlerPc = some h := by
  rw [LaunchSlot.handlerPc, he, if_neg hn]

/-- A cause other than of class 10, raised where the fibre is in no handler and its launch has one, enters the handler (R382). -/
theorem raise_enters {c : Cause} {tv : DWord} {pc h : Word} (hf : s.fibre? u = some f) (hc : c.toNat / 32 ≠ 10) (hh : f.arch.handler = false)
    (hl : (s.slotOf f).handlerPc = some h) :
    s.raise u c tv pc = s.updFibre u fun f => f.enter h c tv pc := by
  simp only [raise, hf, hc, if_false, takeCause, hh, Bool.false_eq_true, hl]

/-- A late cause enters the handler with the registers that the fibre stands with. -/
theorem raiseLate_enters {c : Cause} {tv : DWord} {pc h : Word} (hf : s.fibre? u = some f) (hc : c.toNat / 32 ≠ 10)
    (hh : f.arch.handler = false) (hl : (s.slotOf f).handlerPc = some h) :
    ∃ g, (s.raiseLate u c tv pc).fibre? u = some g ∧
      g.arch = { f.arch with cause := c, epc := pc, tval := tv, handler := true, pc := h } := by
  have hst : s.Stands (s.unblock u) u := unblock_stands
  obtain ⟨g, hg, ha, hco⟩ := hst.fibre f hf
  rw [raiseLate, raise_enters hg hc (by rw [ha, hh]) (by rw [hst.slotOf hco, hl]), fibre?_updFibre (g := fun f => f.enter h c tv pc) (fun _ h => h), hg]
  refine ⟨_, rfl, ?_⟩
  simp only [fibre?_uid hg, if_true, Fibre.enter, ha]

/-! ### Stalls and rendezvous that time out (R77, R248) -/

/-- A stall that has outlasted its limit raises 7.00 at the fibre's word. -/
theorem stashStallTimeout_raises {n o : Nat} {h : Word} (hf : s.fibre? u = some f)
    (hw : (f.waits.findSome? fun w => match w with | .emptyLine _ n => some n | _ => none) = some n) (hr : s.runs f.cohort = true)
    (ho : f.stalled = some o) (h0 : (s.slotOf f).record.stall ≠ 0) (ht : n + (s.slotOf f).record.stall ≤ s.ltime)
    (hh : f.arch.handler = false) (he : (s.slotOf f).record.handler = h) (hn : h ≠ 0xFFFFFFFF) :
    ∃ t g, exec (.stashStallTimeout u) s = .next t ∧ t.fibre? u = some g ∧
      g.arch = { f.backUp.arch with cause := mkCause 7 0, epc := f.head, tval := BitVec.ofNat 64 o, handler := true, pc := h } := by
  have hexec : exec (.stashStallTimeout u) s = .next (s.stallRaise f 0) := by
    show execStashStallTimeout u s = _
    simp only [execStashStallTimeout, hf]
    split
    · next m hm =>
      obtain rfl : m = n := Option.some.inj (hm.symm.trans hw)
      rw [if_pos ⟨h0, ht, hr⟩]
    · next hm => cases hm.symm.trans hw
  have hu : f.uid = u := fibre?_uid hf
  generalize hg : (f.unstall fun w => match w with | .emptyLine .. => true | _ => false) = g
  have hs : f.Same g := hg ▸ f.unstall_same _
  have hup : (s.updFibre u fun g => (g.unstall fun w => match w with | .emptyLine .. => true | _ => false).backUp).fibre? u = some g.backUp := by
    rw [fibre?_updFibre (fun f h => by rw [Fibre.backUp_uid, (f.unstall_same _).uid, h]), hf]
    simp only [Option.map_some, hu, if_true, hg]
  obtain ⟨x, hx, ha⟩ := raiseLate_enters (c := mkCause 7 0) (tv := BitVec.ofNat 64 o) (pc := f.head) hup (by decide)
    (by rw [Fibre.backUp_handler, hs.arch, hh]) (h := h) (by
      have hl : (s.slotOf f).handlerPc = some h := handlerPc_of_ne he hn
      rw [← hl]
      simp only [slotOf, cohortOf, Fibre.backUp_cohort, hs.cohort]
      rfl)
  refine ⟨_, x, hexec, ?_, ?_⟩
  · rw [stallRaise, ho, hu]
    exact hx
  · rw [ha, hs.backUp_arch]

/-- A presenter raises the cause of its rendezvous at its word, with the tag. -/
theorem rdvRaise_enters {tag detail : Nat} {p : Presentation} {h : Word} (htag : tag ≠ 256) (hd : detail < 32) (hf : s.fibre? p.uid = some f)
    (hh : f.arch.handler = false) (hl : (s.slotOf f).handlerPc = some h) :
    ∃ g, (s.rdvRaise tag detail p).fibre? p.uid = some g ∧
      g.arch = { f.arch with cause := mkCause 8 detail, epc := p.pc, tval := BitVec.ofNat 64 tag, handler := true, pc := h } := by
  have hst : s.Stands (s.updFibre p.uid fun f =>
      { (f.dropPend p.name).unpresent with waits := (f.dropPend p.name).unpresent.waits.filter fun w => w != .group tag }) p.uid :=
    updFibre_stands fun f => ((f.dropPend_same p.name).trans (Fibre.unpresent_same _)).trans ⟨rfl, rfl, rfl, rfl⟩
  obtain ⟨g, hg, ha, hc⟩ := hst.fibre f hf
  obtain ⟨x, hx, hxa⟩ := raiseLate_enters (c := mkCause 8 detail) (tv := BitVec.ofNat 64 tag) (pc := p.pc) (h := h) hg
    (by simp only [mkCause, BitVec.toNat_ofNat]; omega) (by rw [ha, hh]) (by rw [hst.slotOf hc, hl])
  refine ⟨x, ?_, by rw [hxa, ha]⟩
  simpa only [rdvRaise, rdvTval, htag, if_false] using hx

/-- A rendezvous of one presenter that has outlasted its limit raises 8.02 in it, at its word. -/
theorem rendezvousWatchdogExpiry_raises {cohort crew tag : Nat} {c : Cohort} {w : Crew} {r : Rdv} {p : Presentation} {h : Word}
    (hc : s.cohort? cohort = some c) (hrun : c.run = .running) (hw : c.crew? crew = some w) (h0 : (s.slot c.slot).record.watchdog ≠ 0)
    (hr : (w.rdvs.find? fun r => r.tag == tag && decide (r.since + 1000 * (s.slot c.slot).record.watchdog ≤ s.ltime)) = some r)
    (hm : r.members = [p]) (htag : tag ≠ 256) (hf : s.fibre? p.uid = some f) (hh : f.arch.handler = false)
    (he : (s.slotOf f).record.handler = h) (hn : h ≠ 0xFFFFFFFF) :
    ∃ t g, exec (.rendezvousWatchdogExpiry cohort crew tag) s = .next t ∧ t.fibre? p.uid = some g ∧
      g.arch = { f.arch with cause := mkCause 8 2, epc := p.pc, tval := BitVec.ofNat 64 tag, handler := true, pc := h } := by
  have hruns : s.runs cohort = true := by simp [runs, hc, hrun]
  have hexec : exec (.rendezvousWatchdogExpiry cohort crew tag) s = .next (s.rdvExpire cohort crew r) := by
    show execRendezvousWatchdogExpiry cohort crew tag s = _
    simp only [execRendezvousWatchdogExpiry, hc, hw, Option.map_some, Option.getD_some, hr]
    rw [if_pos ⟨h0, hruns⟩]
  have hrt : r.tag = tag := by
    have hfound := List.find?_some hr
    simp only [Bool.and_eq_true, beq_iff_eq] at hfound
    exact hfound.1
  have hst : s.Stands (s.updCrew cohort crew fun w => { w with rdvs := w.rdvs.filter fun q => q != r }) p.uid := updCrew_stands
  obtain ⟨g, hg, ha, hco⟩ := hst.fibre f hf
  obtain ⟨x, hx, hxa⟩ := rdvRaise_enters htag (detail := 2) (by decide) hg (by rw [ha, hh])
    ((congrArg LaunchSlot.handlerPc (hst.slotOf hco)).trans (handlerPc_of_ne he hn))
  refine ⟨_, x, hexec, ?_, by rw [hxa, ha]⟩
  simpa only [rdvExpire, hm, hrt, List.foldl_cons, List.foldl_nil] using hx

/-! ### A command that outlasts its limit (R301, R317) -/

theorem writeRecord_cmds (s : State) (ctx : Nat) (bytes : List Byte) : (s.writeRecord ctx bytes).1.cmds = s.cmds := by
  simp only [writeRecord]
  split
  · rfl
  · split <;> simp only [noteWrite_cmds]

@[simp] theorem barCheck_mem (s : State) (cohort n : Nat) : (s.barCheck cohort n).mem = s.mem := by
  unfold barCheck
  split
  · rfl
  · split <;> rfl

@[simp] theorem barCheck_cmds (s : State) (cohort n : Nat) : (s.barCheck cohort n).cmds = s.cmds := by
  unfold barCheck
  split
  · rfl
  · split <;> rfl

@[simp] theorem barHalt_mem (s : State) (cohort n owed : Nat) : (s.barHalt cohort n owed).mem = s.mem := barCheck_mem _ _ _
@[simp] theorem barHalt_cmds (s : State) (cohort n owed : Nat) : (s.barHalt cohort n owed).cmds = s.cmds := barCheck_cmds _ _ _

@[simp] theorem endCmd_mem (s : State) (c : EngineCmd) : (s.endCmd c).mem = s.mem := by
  unfold endCmd
  dsimp only
  split <;> rfl

@[simp] theorem endCmd_cmds (s : State) (c : EngineCmd) : (s.endCmd c).cmds = s.cmds.filter fun d => d.id != c.id := by
  unfold endCmd
  dsimp only
  split <;> rfl

/-- A command that halts and is no read leaves, with its record written. -/
theorem haltCmd_leaves {c : EngineCmd} (hc : c.op.isRead = false) (reason : Nat) (detail : List Byte) :
    (s.haltCmd c reason detail).cmds = (s.cmds.filter fun d => d.id != c.id) ∧
    (s.haltCmd c reason detail).mem = (s.engineRecord c reason detail).mem := by
  unfold haltCmd
  extract_lets owed s₁ s₂ s₃
  have hcmds : s₁.cmds = s.cmds := writeRecord_cmds _ _ _
  have h₃ : s₃.cmds = (s.cmds.filter fun d => d.id != c.id) ∧ s₃.mem = s₁.mem := by
    have he : s₃ = s₂.endCmd c := if_neg (by simp [hc])
    rw [he, endCmd_cmds, endCmd_mem, ← hcmds]
    exact ⟨rfl, rfl⟩
  split
  · exact ⟨(foldl_keeps (m := State.cmds) (fun _ _ => barHalt_cmds _ _ _ _) _ _).trans h₃.1,
      (foldl_keeps (m := State.mem) (fun _ _ => barHalt_mem _ _ _ _) _ _).trans h₃.2⟩
  · exact h₃

/-- A command whose line is not full after the limit halts for it and leaves. -/
theorem engineStashStallTimeout_halts {hearth : Nat} {c : EngineCmd} (hc : (s.cmds.find? fun c => c.hearth == hearth && s.stallOver c) = some c)
    (hr : c.op.isRead = false) :
    ∃ t, exec (.engineStashStallTimeout hearth) s = .next t ∧ (∀ d ∈ t.cmds, d.id ≠ c.id) ∧
      t.mem = (s.engineRecord c 0x06 (stashDetail (128 * (c.nextLine.getD 0)))).mem := by
  have hexec : exec (.engineStashStallTimeout hearth) s = .next (s.haltCmd c 0x06 (stashDetail (128 * (c.nextLine.getD 0)))) := by
    show execEngineStashStallTimeout hearth s = _
    simp only [execEngineStashStallTimeout, hc]
  obtain ⟨hcmds, hmem⟩ := haltCmd_leaves (s := s) hr 0x06 (stashDetail (128 * (c.nextLine.getD 0)))
  refine ⟨_, hexec, fun d hd => ?_, hmem⟩
  rw [hcmds] at hd
  simpa using (List.mem_filter.1 hd).2

end State

/-- Settles O47: the branch of each event, with what a fill, a late cause and a halt leave. -/
theorem leasesLinesAndTimeouts : Obligations.LeasesLinesAndTimeouts := by
  intro s
  refine ⟨s.leaseExpiry_copy, fun h u n c hc hh hm hf he => State.leaseExpiry_line hc hh hm hf he, ?_, ?_, ?_, ?_⟩
  · intro u n c a pa hc hrun ha hnot hw hx hup hp hn
    obtain ⟨hmem, c', hc', hfull, hdirty, hexp, hbytes⟩ := State.fillMapped_dev hc ha hn
    exact ⟨_, c', State.exec_mappedLineFill hc hrun ha hnot hw hx hup hp hn, hmem, hc', hfull, hdirty, hexp, hbytes⟩
  · intro uid f o n h hf hw hr _ ho h0 ht hh he hn
    exact State.stashStallTimeout_raises hf hw hr ho h0 ht hh he hn
  · intro cohort crew tag c w r p f h hc hrun hw h0 hr hm htag hf _ hh he hn
    exact State.rendezvousWatchdogExpiry_raises hc hrun hw h0 hr hm htag hf hh he hn
  · intro hearth c hc hr
    exact State.engineStashStallTimeout_halts hc hr

end Sys2Proof.Machine

/-! ## O18: cross-lane words and the rendezvous of a crew

Three parts. What a member receives is what the model computes for it: the arithmetic of `redu` and `scan` meets R175 and R177
(`LitFlt.sum_fAdd`, `LitFlt.extreme_fMinMax`), the tree and the fold are those of R79 and R255 (`pairTree_treeOf`, `scanFold_foldOf`), and so
each result is received (`Presentation.receives_result`). A crew with one open rendezvous leaves it (`State.crewComplete_part`), fails it
(`State.crewComplete_failed`), or completes it (`State.crewComplete_hasCrew`, `State.crewComplete_member`, `State.crewComplete_other`). A word
presents, or raises 8.01 (`State.word_presents`). -/

namespace Sys2Proof

/-! ### Numbers with one rounding (R110, R175) -/

/-- An exact sum has the value of the sum. -/
theorem dyAdd_value (a b : Int) (e g : Int) : ((dyAdd a e b g).1 : ℚ) * (2 : ℚ) ^ (dyAdd a e b g).2 = a * (2 : ℚ) ^ e + b * (2 : ℚ) ^ g := by
  have hpow : ∀ k l : Int, l ≤ k → ((2 : ℚ) ^ (k - l).toNat) * (2 : ℚ) ^ l = (2 : ℚ) ^ k := fun k l h => by
    rw [← zpow_natCast, ← zpow_add₀ (by norm_num), Int.toNat_of_nonneg (by omega), Int.sub_add_cancel]
  simp only [dyAdd, Int.cast_add, Int.cast_mul, Int.cast_pow, Int.cast_ofNat, add_mul, mul_assoc]
  rw [hpow e _ (min_le_left e g), hpow g _ (min_le_right e g)]

/-- A zero is left as the zero of its sign, without a flag. -/
theorem FFmt.finish_zero (f : FFmt) (mode : Rnd) (ftz neg : Bool) (e : Int) : f.finish mode ftz (.num neg 0 e false) = (f.signBit neg, 0) := by
  simp [FFmt.finish, FFmt.round, FFmt.codeOf, flagIf]

namespace LitFlt

/-- A finite value with its own sign, rounded. -/
theorem rounds_num (l : LitFlt) (t : Ty) (n : Bool) (m : Nat) (e : Int) :
    l.Rounds t ((sgn n m : ℚ) * (2 : ℚ) ^ e) n (l.fin t (.num n m e false)) := by
  have hpos : (0 : ℚ) < (2 : ℚ) ^ e := zpow_pos (by norm_num) e
  refine ⟨fun h => ?_, fun h => ⟨m, e, false, ?_, ?_⟩⟩
  · have hm : m = 0 := by
      rcases mul_eq_zero.1 h with h | h
      · cases n <;> simpa [sgn] using h
      · exact absurd h hpos.ne'
    rw [hm]
    exact FFmt.finish_zero _ _ _ _ _
  · cases n <;> simp [Places, sgn, abs_mul, abs_of_pos hpos]
  · have hm : (0 : ℚ) < m := by
      rcases Nat.eq_zero_or_pos m with h0 | h0
      · exact absurd (by cases n <;> simp [sgn, h0]) h
      · exact_mod_cast h0
    congr 2
    cases n
    · simp [sgn, not_lt.2 (mul_pos hm hpos).le]
    · simp [sgn, mul_pos hm hpos]

/-- An exact number as a result, a zero with a given sign. -/
theorem rounds_dyRes (l : LitFlt) (t : Ty) (a : Int) (e : Int) (z : Bool) : l.Rounds t ((a : ℚ) * (2 : ℚ) ^ e) z (l.fin t (dyRes a e z)) := by
  have hpos : (0 : ℚ) < (2 : ℚ) ^ e := zpow_pos (by norm_num) e
  by_cases ha : a = 0
  · subst ha
    exact ⟨fun _ => FFmt.finish_zero _ _ _ _ _, fun h => absurd (by simp) h⟩
  · refine ⟨fun h => absurd h (mul_ne_zero (by exact_mod_cast ha) hpos.ne'), fun _ => ⟨a.natAbs, e, false, ?_, ?_⟩⟩
    · simp [Places, abs_mul, abs_of_pos hpos, Nat.cast_natAbs]
    · have hneg : ((a : ℚ) * (2 : ℚ) ^ e < 0) ↔ a < 0 := by
        rw [mul_neg_iff]
        simp [hpos, not_lt.2 hpos.le]
      simp only [dyRes, ha, if_false, hneg]

@[simp] theorem fin_nan (l : LitFlt) (t : Ty) (b : Bool) : l.fin t (.nan (flagIf b fNV)) = t.quiet b := by cases b <;> rfl

@[simp] theorem fin_inf (l : LitFlt) (t : Ty) (n : Bool) : l.fin t (.inf n 0#5) = t.infinite n := rfl
@[simp] theorem fin_invalid (l : LitFlt) (t : Ty) : l.fin t (.nan fNV) = t.quiet true := rfl

/-- The model's sum, rounded by a word's fields, is the sum of R175. -/
theorem sum_fAdd (l : LitFlt) (t : Ty) (u w : FVal) : l.Sum t u w (l.fin t (fAdd l.rnd u w)) := by
  unfold Sum
  cases u with
  | nan a =>
    refine ⟨fun _ => fin_nan l t _, ?_, ?_, ?_, ?_⟩ <;> simp [FVal.isFin]
  | inf a =>
    cases w with
    | nan b => simp [fAdd, FVal.isNan, FVal.isSig, FVal.isFin]
    | inf b =>
      by_cases h : a = b <;> simp [fAdd, h, FVal.isNan, FVal.isFin]
    | fin b n g => simp [fAdd, FVal.isNan, FVal.isFin]
  | fin a m e =>
    cases w with
    | nan b => simp [fAdd, FVal.isNan, FVal.isSig, FVal.isFin]
    | inf b => simp [fAdd, FVal.isNan, FVal.isFin]
    | fin b n g =>
      have h := rounds_dyRes l t (dyAdd (sgn a m) e (sgn b n) g).1 (dyAdd (sgn a m) e (sgn b n) g).2 (zeroSign l.rnd (.fin a m e) (.fin b n g))
      rw [dyAdd_value] at h
      refine ⟨by simp [FVal.isNan], by simp, by simp, by simp, fun _ _ => ?_⟩
      have hz : zeroSign l.rnd (.fin a m e) (.fin b n g) =
          (if FVal.isZero (.fin a m e) && FVal.isZero (.fin b n g) && FVal.sign (.fin a m e) == FVal.sign (.fin b n g) then
            FVal.sign (.fin a m e) else l.rnd == .rd) := rfl
      rw [← hz]
      exact h

end LitFlt

/-! ### The order of R177 and its extremes -/

theorem FVal.num_fin_eq_zero {n : Bool} {m : Nat} {e : Int} : (sgn n m : ℚ) * (2 : ℚ) ^ e = 0 ↔ m = 0 := by
  have hpow : (2 : ℚ) ^ e ≠ 0 := zpow_ne_zero e (by norm_num)
  cases n <;> simp [sgn, hpow]

/-- The model's comparison is the order of R177. -/
theorem fLess_iff_below (a b : FVal) : fLess true a b = true ↔ a.below b := by
  cases a with
  | nan s => cases b <;> simp [fLess, FVal.below]
  | inf s => cases b <;> simp [fLess, FVal.below]
  | fin s m e =>
    cases b with
    | nan u => simp [fLess, FVal.below]
    | inf u => simp [fLess, FVal.below]
    | fin u n g =>
      have hpos : (0 : ℚ) < (2 : ℚ) ^ (dyAdd (sgn s m) e (-(sgn u n)) g).2 := zpow_pos (by norm_num) _
      have hv := dyAdd_value (sgn s m) (-(sgn u n)) e g
      generalize hx : (dyAdd (sgn s m) e (-(sgn u n)) g).1 = x at hv
      rw [Int.cast_neg, neg_mul, ← sub_eq_add_neg] at hv
      have hneg : x < 0 ↔ (sgn s m : ℚ) * (2 : ℚ) ^ e < (sgn u n : ℚ) * (2 : ℚ) ^ g := by
        rw [← sub_neg (b := (sgn u n : ℚ) * (2 : ℚ) ^ g), ← hv, mul_neg_iff]
        simp [hpos, not_lt.2 hpos.le]
      have hzero : (x = 0 ∧ m = 0) ↔ (m = 0 ∧ n = 0) := by
        have hx0 : x = 0 ↔ (sgn s m : ℚ) * (2 : ℚ) ^ e = (sgn u n : ℚ) * (2 : ℚ) ^ g := by
          rw [← sub_eq_zero (b := (sgn u n : ℚ) * (2 : ℚ) ^ g), ← hv, mul_eq_zero, or_iff_left hpos.ne', Int.cast_eq_zero]
        have hm := @FVal.num_fin_eq_zero s m e
        have hn := @FVal.num_fin_eq_zero u n g
        rw [hx0]
        constructor
        · rintro ⟨h, h0⟩
          exact ⟨h0, hn.1 (h.symm.trans (hm.2 h0))⟩
        · rintro ⟨h0, h1⟩
          exact ⟨(hm.2 h0).trans (hn.2 h1).symm, h0⟩
      simp only [fLess, hx, FVal.below, FVal.num, Bool.or_eq_true, decide_eq_true_eq, hneg, Bool.and_eq_true, beq_iff_eq, Bool.not_eq_true']
      simp only [and_true, hzero, and_assoc]

theorem FVal.below_irrefl (a : FVal) : ¬a.below a := by
  cases a with
  | nan s => exact id
  | inf s => cases s <;> simp [FVal.below]
  | fin s m e => cases s <;> simp [FVal.below]

theorem FVal.below_asymm {a b : FVal} (h : a.below b) : ¬b.below a := by
  cases a with
  | nan s => exact h.elim
  | inf s => cases b <;> simp_all [FVal.below]
  | fin s m e =>
    cases b with
    | nan u => exact id
    | inf u => simp_all [FVal.below]
    | fin u n g =>
      have hm := @FVal.num_fin_eq_zero s m e
      have hn := @FVal.num_fin_eq_zero u n g
      rintro (h' | ⟨h0, h1, h2, h3⟩)
      · rcases h with h | ⟨h0, h1, -, -⟩
        · exact lt_asymm h h'
        · exact absurd h' (by simp [FVal.num, hm.2 h0, hn.2 h1])
      · rcases h with h | ⟨-, -, h4, -⟩
        · exact absurd h (by simp [FVal.num, hm.2 h1, hn.2 h0])
        · exact absurd (h4.symm.trans h3) (by decide)

namespace LitFlt

/-- A value itself, rounded. -/
theorem itself_fScale (l : LitFlt) (t : Ty) (c : FVal) : l.Itself t c (l.fin t (fScale c 0)) := by
  cases c with
  | nan s => simp [Itself, fScale, FVal.isNan, FVal.isSig, FVal.isFin]
  | inf s => simp [Itself, fScale, FVal.isNan, FVal.isFin]
  | fin s m e =>
    have h := l.rounds_num t s m e
    simpa [Itself, fScale, FVal.isNan, FVal.isFin, FVal.num, FVal.sign] using h

/-- Flags added to a value that is no NaN come out with it. -/
theorem fin_addFlags (l : LitFlt) (t : Ty) {c : FVal} (hc : c.isNan = false) (nv : FFlags) :
    (l.fin t ((fScale c 0).addFlags nv)).1 = (l.fin t (fScale c 0)).1 ∧
    (l.fin t ((fScale c 0).addFlags nv)).2 ||| nv = (l.fin t (fScale c 0)).2 ||| nv := by
  cases c with
  | nan s => cases hc
  | inf s => simp [fScale, FRes.addFlags, fin, FFmt.finish]
  | fin s m e => exact ⟨rfl, rfl⟩

end LitFlt

/-- The value that `fmin` or `fmax` takes of two that are no NaN. -/
def extremeOf (isMax : Bool) (a b : FVal) : FVal := if fLess true a b == isMax then b else a

theorem extremeOf_mem (isMax : Bool) (a b : FVal) : extremeOf isMax a b = a ∨ extremeOf isMax a b = b := by
  unfold extremeOf
  split
  · exact .inr rfl
  · exact .inl rfl

/-- Neither of the two lies beyond it. -/
theorem extremeOf_extreme (isMax : Bool) (a b x : FVal) (hx : x = a ∨ x = b) :
    ¬(if isMax then (extremeOf isMax a b).below x else x.below (extremeOf isMax a b)) := by
  have hless := fLess_iff_below a b
  by_cases h : a.below b
  · rw [extremeOf, hless.2 h]
    cases isMax
    · rcases hx with rfl | rfl
      · exact FVal.below_irrefl x
      · exact FVal.below_asymm h
    · rcases hx with rfl | rfl
      · exact FVal.below_asymm h
      · exact FVal.below_irrefl x
  · rw [extremeOf, Bool.eq_false_iff.2 (fun e => h (hless.1 e))]
    cases isMax
    · rcases hx with rfl | rfl
      · exact h
      · exact FVal.below_irrefl x
    · rcases hx with rfl | rfl
      · exact FVal.below_irrefl x
      · exact h

/-- Of two that are no NaN, the model takes their extreme. -/
theorem fMinMax_of_numbers (isMax : Bool) {a b : FVal} (ha : a.isNan = false) (hb : b.isNan = false) :
    fMinMax isMax a b = fScale (extremeOf isMax a b) 0 := by
  cases a with
  | nan s => cases ha
  | inf s => cases b with
    | nan u => cases hb
    | inf u => rfl
    | fin u n g => rfl
  | fin s m e => cases b with
    | nan u => cases hb
    | inf u => rfl
    | fin u n g => rfl

/-- Of a NaN and a value that is none, it takes the value. -/
theorem fMinMax_of_nan_right (isMax : Bool) {a b : FVal} (ha : a.isNan = false) (hb : b.isNan = true) :
    fMinMax isMax a b = (fScale a 0).addFlags (fMinMaxNv a b) := by
  cases b with
  | nan u => cases a with
    | nan s => cases ha
    | inf s => rfl
    | fin s m e => rfl
  | inf u => cases hb
  | fin u n g => cases hb

theorem fMinMax_of_nan_left (isMax : Bool) {a b : FVal} (ha : a.isNan = true) (hb : b.isNan = false) :
    fMinMax isMax a b = (fScale b 0).addFlags (fMinMaxNv a b) := by
  cases a with
  | nan s => cases b with
    | nan u => cases hb
    | inf u => rfl
    | fin u n g => rfl
  | inf s => cases ha
  | fin s m e => cases ha

namespace LitFlt

/-- What one value that is no NaN makes of `fmin` and `fmax`, where none of the two lies beyond it. -/
theorem extreme_of (l : LitFlt) (t : Ty) {isMax : Bool} {a b c : FVal} (hc : c = a ∨ c = b) (hn : c.isNan = false)
    (hx : ∀ x, x = a ∨ x = b → x.isNan = false → ¬(if isMax then c.below x else x.below c)) {v : Nat × FFlags}
    (hv : v = ((l.fin t (fScale c 0)).1, (l.fin t (fScale c 0)).2 ||| fMinMaxNv a b)) : l.Extreme t isMax a b v := by
  refine ⟨fun ha hb => ?_, fun _ => ⟨c, _, hc, hn, hx, itself_fScale l t c, hv⟩⟩
  rcases hc with rfl | rfl
  · exact absurd (ha.symm.trans hn) (by decide)
  · exact absurd (hb.symm.trans hn) (by decide)

/-- The model's minimum and maximum, with their flags, are those of R177. -/
theorem extreme_fMinMax (l : LitFlt) (t : Ty) (isMax : Bool) (a b : FVal) :
    l.Extreme t isMax a b ((l.fin t (fMinMax isMax a b)).1, (l.fin t (fMinMax isMax a b)).2 ||| fMinMaxNv a b) := by
  have hself : ∀ c : FVal, ¬(if isMax then c.below c else c.below c) := fun c => by cases isMax <;> exact c.below_irrefl
  have hadd {c : FVal} (hc : c.isNan = false) {r : FRes} (hr : r = (fScale c 0).addFlags (fMinMaxNv a b)) :
      ((l.fin t r).1, (l.fin t r).2 ||| fMinMaxNv a b) = ((l.fin t (fScale c 0)).1, (l.fin t (fScale c 0)).2 ||| fMinMaxNv a b) := by
    rw [hr, (l.fin_addFlags t hc _).1, (l.fin_addFlags t hc _).2]
  cases ha : a.isNan <;> cases hb : b.isNan
  · refine l.extreme_of t (extremeOf_mem isMax a b) ?_ (fun x hx _ => extremeOf_extreme isMax a b x hx) (by rw [fMinMax_of_numbers isMax ha hb])
    rcases extremeOf_mem isMax a b with h | h
    · rw [h, ha]
    · rw [h, hb]
  · refine l.extreme_of t (.inl rfl) ha ?_ (hadd ha (fMinMax_of_nan_right isMax ha hb))
    rintro x (rfl | rfl) hx
    · exact hself x
    · exact absurd (hb.symm.trans hx) (by decide)
  · refine l.extreme_of t (.inr rfl) hb ?_ (hadd hb (fMinMax_of_nan_left isMax ha hb))
    rintro x (rfl | rfl) hx
    · exact absurd (ha.symm.trans hx) (by decide)
    · exact hself x
  · refine ⟨fun _ _ => ?_, fun h => absurd h (by simp [ha, hb])⟩
    cases a with
    | nan s => cases b with
      | nan u =>
        have hnan : fMinMax isMax (.nan s) (.nan u) = .nan (flagIf (s || u) fNV) := rfl
        rw [hnan, fin_nan]
        exact Prod.ext rfl (by cases h : (s || u) <;> simp [Ty.quiet, fMinMaxNv, FVal.isSig, h, flagIf])
      | inf u => cases hb
      | fin u n g => cases hb
    | inf s => cases ha
    | fin s m e => cases ha

end LitFlt

end Sys2Proof

namespace Sys2Proof.Machine

/-! ### One step of `redu` and `scan` (R255) -/

/-- The model's step on two operands is that of R255. -/
theorem grpCombines_grpCombine (o : RegIx) (rnd : Rnd) (den : Den) (x y : Nat × FFlags) : GrpCombines o rnd den x y (grpCombine o rnd den x y) := by
  unfold GrpCombines grpCombine
  generalize (o.extractLsb' 3 3).toNat = op
  refine ⟨fun hF l hl hd => ?_, fun hF => ?_⟩
  · subst hl hd
    match op with
    | 0 =>
      refine ⟨_, ?_, fun _ => l.sum_fAdd _ _ _, by simp, by simp⟩
      exact if_pos hF
    | 1 =>
      refine ⟨_, ?_, by simp, fun _ => l.extreme_fMinMax _ false _ _, by simp⟩
      exact (if_pos hF).trans (Prod.ext rfl (BitVec.or_assoc _ _ _))
    | 2 =>
      refine ⟨_, ?_, by simp, by simp, fun _ => l.extreme_fMinMax _ true _ _⟩
      exact (if_pos hF).trans (Prod.ext rfl (BitVec.or_assoc _ _ _))
    | 3 => exact ⟨(x.1 &&& y.1, 0), by simp, by simp, by simp, by simp⟩
    | 4 => exact ⟨(x.1 ||| y.1, 0), by simp, by simp, by simp, by simp⟩
    | 5 => exact ⟨(x.1 ^^^ y.1, 0), by simp, by simp, by simp, by simp⟩
    | n + 6 => exact ⟨(_, 0), Prod.ext rfl (by simp), by simp, by simp, by simp⟩
  · match op with
    | 0 => simp [hF]
    | 1 => simp [hF, rawLess]
    | 2 => simp [hF, rawLess]
    | 3 => simp
    | 4 => simp
    | 5 => simp
    | 6 => simp [Ty.sat]
    | _ + 7 => simp

/-! ### The tree of R79 and the fold of R255 -/

/-- Two neighbours of a level, joined by `g`: an absent one passes its partner through. -/
def joinPair {α : Type} (g : α → α → α) : Option α → Option α → Option α
  | some x, some y => some (g x y)
  | some x, none => some x
  | none, y => y

/-- A level of the tree joins its neighbours two by two. -/
theorem pairLevel_cons_cons {α : Type} (g : α → α → α) (x y : Option α) (t : List (Option α)) :
    pairLevel g (x :: y :: t) = joinPair g x y :: pairLevel g t := by
  cases x with
  | none => rfl
  | some a => cases y with
    | none => rfl
    | some b => rfl

theorem length_pairLevel {α : Type} (g : α → α → α) (l : List (Option α)) : l.length / 2 ≤ (pairLevel g l).length := by
  induction l using List.twoStepInduction with
  | nil => simp
  | singleton x => simp
  | cons_cons x y t ih _ =>
    rw [pairLevel_cons_cons]
    simp only [List.length_cons]
    omega

theorem getD_pairLevel {α : Type} (g : α → α → α) (l : List (Option α)) (k : Nat) (hk : 2 * k + 1 < l.length) :
    (pairLevel g l).getD k none = joinPair g (l.getD (2 * k) none) (l.getD (2 * k + 1) none) := by
  induction l using List.twoStepInduction generalizing k with
  | nil => simp at hk
  | singleton x => simp at hk
  | cons_cons x y t ih _ =>
    rw [pairLevel_cons_cons]
    cases k with
    | zero => rfl
    | succ k =>
      simp only [List.length_cons] at hk
      have h := ih k (by omega)
      rw [show 2 * (k + 1) = 2 * k + 1 + 1 by omega]
      simpa using h

/-- The levels of the tree. -/
def pairLevels {α : Type} (g : α → α → α) : Nat → List (Option α) → List (Option α)
  | 0, l => l
  | n + 1, l => pairLevel g (pairLevels g n l)

theorem pairLevels_pairLevel {α : Type} (g : α → α → α) (n : Nat) (l : List (Option α)) : pairLevels g n (pairLevel g l) = pairLevels g (n + 1) l := by
  induction n with
  | zero => rfl
  | succ n ih => exact congrArg (pairLevel g) ih

/-- The root is the head of the last level. -/
theorem pairTree_eq {α : Type} (g : α → α → α) (n : Nat) (l : List (Option α)) : pairTree g n l = (pairLevels g n l).getD 0 none := by
  induction n generalizing l with
  | zero => cases l <;> rfl
  | succ n ih => rw [pairTree, ih, pairLevels_pairLevel]

theorem length_pairLevels {α : Type} (g : α → α → α) (n : Nat) (l : List (Option α)) : l.length / 2 ^ n ≤ (pairLevels g n l).length := by
  induction n with
  | zero => simp [pairLevels]
  | succ n ih =>
    rw [pow_succ, ← Nat.div_div_eq_div_mul]
    exact (Nat.div_le_div_right ih).trans (length_pairLevel g _)

/-- The model's tree is a tree of R79 for the relation that its step meets. -/
theorem pairTree_treeOf {α : Type} {g : α → α → α} {rule : α → α → α → Prop} (hg : ∀ x y, rule x y (g x y)) (w : Nat) (leaf : Nat → Option α) :
    TreeOf rule w leaf (pairTree g (Nat.log2 w) ((List.range w).map leaf)) := by
  refine ⟨fun lvl k => (pairLevels g lvl ((List.range w).map leaf)).getD k none, fun k hk => ?_, fun lvl _ k hk => ?_, pairTree_eq g _ _⟩
  · simp [pairLevels, hk]
  · have hlen := length_pairLevels g lvl ((List.range w).map leaf)
    have hin : 2 * k + 1 < (pairLevels g lvl ((List.range w).map leaf)).length := by
      rw [List.length_map, List.length_range] at hlen
      rw [pow_succ, ← Nat.div_div_eq_div_mul] at hk
      omega
    have hnext : (pairLevels g (lvl + 1) ((List.range w).map leaf)).getD k none = joinPair g _ _ := getD_pairLevel g _ k hin
    simp only [hnext]
    refine ⟨fun h => ?_, fun h => ?_, fun x y hx hy => ⟨g x y, hg x y, ?_⟩⟩
    · rw [h]; rfl
    · rw [h]
      generalize (pairLevels g lvl ((List.range w).map leaf)).getD (2 * k) none = c
      cases c <;> rfl
    · rw [hx, hy]; rfl

/-- The model's fold over the first n leaves, the first operand standing as it is, is a fold of R255. -/
theorem scanFold_foldOf {α : Type} {g : α → α → α} {rule : α → α → α → Prop} (hg : ∀ x y, rule x y (g x y)) {step : Option α → α → Option α}
    (hnone : ∀ x, step none x = some x) (hsome : ∀ a x, step (some a) x = some (g a x)) (n : Nat) (leaf : Nat → Option α) :
    FoldOf rule n leaf (((List.range n).filterMap leaf).foldl step none) := by
  refine ⟨fun k => ((List.range k).filterMap leaf).foldl step none, rfl, rfl, fun k _ => ?_⟩
  simp only [List.range_succ, List.filterMap_append, List.foldl_append]
  refine ⟨fun h => ?_, fun h => ?_, fun x y hx hy => ⟨g x y, hg x y, ?_⟩⟩
  · simp [h]
  · rw [h]
    cases hl : leaf k <;> simp [hl, hnone]
  · simp [hx, hy, hsome]

/-- The lanes of a sub-group up to one of them. -/
theorem filterMap_lanes_le {α : Type} {b w v : Nat} (hb : b ≤ v) (hv : v < b + w) (f : Nat → Option α) :
    (((List.range w).map (b + ·)).filter fun x => decide (x ≤ v)).filterMap f = (List.range (v - b + 1)).filterMap fun k => f (b + k) := by
  have hrange : (List.range w).filter (fun k => decide (b + k ≤ v)) = List.range (v - b + 1) := by
    obtain ⟨n, rfl⟩ : ∃ n, w = v - b + 1 + n := ⟨w - (v - b + 1), by omega⟩
    rw [List.range_add, List.filter_append, List.filter_eq_self.2, List.filter_eq_nil_iff.2, List.append_nil]
    · intro x hx
      obtain ⟨i, -, rfl⟩ := List.mem_map.1 hx
      simp
      omega
    · intro x hx
      have := List.mem_range.1 hx
      simp
      omega
  rw [List.filter_map, List.filterMap_map]
  simp only [Function.comp_def, hrange]

/-! ### Masks of vlanes -/

/-- The mask of a list of vlanes has the bit of each, and no other. -/
theorem getLsbD_foldl_lanes {α : Type} (lane : α → Nat) (l : List α) (m : Word) {v : Nat} (hv : v < 32) :
    (l.foldl (fun m p => m ||| BitVec.ofNat 32 (2 ^ lane p)) m).getLsbD v = (m.getLsbD v || l.any fun p => lane p == v) := by
  induction l generalizing m with
  | nil => simp
  | cons p t ih =>
    rw [List.foldl_cons, ih, List.any_cons, ← Bool.or_assoc]
    congr 1
    simp only [BitVec.getLsbD_or, BitVec.getLsbD_ofNat, hv, decide_true, Bool.true_and, Nat.testBit_two_pow]
    rfl

theorem laneMask_maskOf (cs : List Presentation) : MaskOf (laneMask cs) fun v => ∃ q ∈ cs, q.vlane = v := fun v hv => by
  rw [laneMask, getLsbD_foldl_lanes (·.vlane) cs 0 hv]
  simp [beq_iff_eq]

/-! ### What a member receives (R78, R251 to R258) -/

/-- The source of a shuffle among the contributors, in range or none. -/
theorem find?_shflSource (cs : List Presentation) {c : Prop} [Decidable c] (v : Nat) :
    ((if c then some v else none).bind fun v => cs.find? (·.vlane == v)) = if c then cs.find? (·.vlane == v) else none := by
  split <;> rfl

/-- The leaves of a member's sub-group: the operands of its contributors. -/
def Presentation.leaf (p : Presentation) (cs : List Presentation) (k : Nat) : Option (Nat × FFlags) := operandAt cs (p.base + k)

theorem Presentation.tree_treeOf (p : Presentation) (cs : List Presentation) {g : Nat × FFlags → Nat × FFlags → Nat × FFlags}
    {rule : Nat × FFlags → Nat × FFlags → Nat × FFlags → Prop} (hg : ∀ x y, rule x y (g x y)) :
    TreeOf rule p.width (p.leaf cs) (pairTree g (Nat.log2 p.width) (((List.range p.width).map fun k => p.base + k).map (operandAt cs))) := by
  rw [List.map_map]
  exact pairTree_treeOf hg p.width (p.leaf cs)

theorem Presentation.scan_foldOf (p : Presentation) (cs : List Presentation) (hw : 0 < p.width) {g : Nat × FFlags → Nat × FFlags → Nat × FFlags}
    {rule : Nat × FFlags → Nat × FFlags → Nat × FFlags → Prop} (hg : ∀ x y, rule x y (g x y))
    {step : Option (Nat × FFlags) → Nat × FFlags → Option (Nat × FFlags)} (hnone : ∀ x, step none x = some x)
    (hsome : ∀ a x, step (some a) x = some (g a x)) :
    FoldOf rule (p.vlane - p.base + 1) (p.leaf cs)
      (((((List.range p.width).map fun k => p.base + k).filter fun v => decide (v ≤ p.vlane)).filterMap (operandAt cs)).foldl step none) := by
  have hmod := Nat.div_add_mod' p.vlane p.width
  have hlt := Nat.mod_lt p.vlane hw
  rw [filterMap_lanes_le (b := p.base) (w := p.width) (v := p.vlane) (by unfold Presentation.base; omega) (by unfold Presentation.base; omega)]
  exact scanFold_foldOf hg hnone hsome _ (p.leaf cs)

/-- What the model gives a member of a rendezvous is what R78 and R251 to R258 give it. -/
theorem Presentation.receives_result (p : Presentation) (cs : List Presentation) (hw : 0 < p.width) (hk : ∀ t l v, p.kind ≠ .tgat t l v) :
    p.Receives cs (p.result cs).1 (p.result cs).2.1 (p.result cs).2.2 := by
  unfold Presentation.Receives Presentation.result
  generalize hkind : p.kind = kind
  cases kind with
  | shfl mode w64 =>
    refine ⟨?_, nofun, nofun, nofun, nofun, nofun, nofun, nofun, nofun⟩
    rintro _ _ ⟨⟩
    refine ⟨?_, ?_, ?_, ?_⟩ <;> (rintro rfl; rw [← find?_shflSource]; exact ⟨rfl, rfl, rfl⟩)
  | bcst w64 idx =>
    refine ⟨nofun, ?_, nofun, nofun, nofun, nofun, nofun, nofun, nofun⟩
    rintro _ _ ⟨⟩
    rw [← find?_shflSource]
    exact ⟨rfl, rfl, rfl⟩
  | vote mode =>
    refine ⟨nofun, nofun, ?_, nofun, nofun, nofun, nofun, nofun, nofun⟩
    rintro _ ⟨⟩
    refine ⟨?_, ?_, ?_⟩ <;> (rintro rfl; exact ⟨rfl, rfl, _, rfl, by simp⟩)
  | redu o rnd den =>
    refine ⟨nofun, nofun, nofun, ?_, nofun, nofun, nofun, nofun, nofun⟩
    rintro _ _ _ ⟨⟩
    exact ⟨_, p.tree_treeOf cs (grpCombines_grpCombine o rnd den), rfl, rfl, rfl⟩
  | scan o rnd den =>
    refine ⟨nofun, nofun, nofun, nofun, ?_, nofun, nofun, nofun, nofun⟩
    rintro _ _ _ ⟨⟩
    refine ⟨_, ?_, rfl, rfl, rfl⟩
    exact p.scan_foldOf cs hw (grpCombines_grpCombine o rnd den) (fun _ => rfl) fun _ _ => rfl
  | mtch t =>
    refine ⟨nofun, nofun, nofun, nofun, nofun, ?_, nofun, nofun, nofun⟩
    rintro _ ⟨⟩
    refine ⟨rfl, rfl, _, rfl, fun v hv => (laneMask_maskOf _ v hv).trans ?_⟩
    simp only [List.mem_filter, beq_iff_eq, and_assoc]
    exact exists_congr fun q => and_congr_right fun _ => and_comm
  | elect =>
    refine ⟨nofun, nofun, nofun, nofun, nofun, nofun, ?_, nofun, nofun⟩
    exact fun _ => ⟨rfl, rfl, _, rfl, by simp⟩
  | rdv => exact ⟨nofun, nofun, nofun, nofun, nofun, nofun, nofun, fun _ => ⟨rfl, rfl, _, rfl, laneMask_maskOf cs⟩, nofun⟩
  | jmsk j v => exact ⟨nofun, nofun, nofun, nofun, nofun, nofun, nofun, nofun, fun _ _ _ => ⟨rfl, rfl, rfl⟩⟩
  | tgat t l v => exact absurd hkind (hk t l v)

/-! ### The rendezvous set and its completion (R72, R74) -/

/-- The model's test of a whole rendezvous is that of R74. -/
theorem State.rdvWhole_iff (s : State) (cohort crew : Nat) (r : Rdv) : s.rdvWhole cohort crew r = true ↔ s.Whole cohort crew r := by
  have haw : ∀ (p : Presentation) (v : Nat), p.awaits v = true ↔ p.vlane / p.width * p.width ≤ v ∧ v < p.vlane / p.width * p.width + p.width ∧
      ∀ x, p.set = .reg x → p.mask.getLsbD v = true := fun p v => by
    have hset : (match p.set with | .reg _ => p.mask.getLsbD v | _ => true) = true ↔ ∀ x, p.set = .reg x → p.mask.getLsbD v = true := by
      cases p.set <;> simp
    refine Iff.trans ?_ (and_congr_right fun _ => and_congr_right fun _ => hset)
    simp only [Presentation.awaits, Presentation.spans, Bool.and_eq_true, decide_eq_true_eq, and_assoc]
    rfl
  simp only [State.rdvWhole, State.Whole, State.crewLive, State.liveOf, Bool.and_eq_true, bne_iff_ne, List.all_eq_true, List.mem_filter, beq_iff_eq,
    Bool.or_eq_true, Bool.not_eq_true', List.any_eq_true, ← haw]
  refine and_congr_right fun _ => ⟨fun h f hf hc hn he ⟨p, hp, hw⟩ => ?_, fun h f hf => ?_⟩
  · refine (h f ⟨⟨hf, hc, he⟩, hn⟩).resolve_left fun hno => ?_
    exact absurd (List.any_eq_true.2 ⟨p, hp, hw⟩) (Bool.eq_false_iff.1 hno)
  · obtain ⟨⟨hf, hc, he⟩, hn⟩ := hf
    by_cases hp : ∃ p ∈ r.members, p.awaits f.vlane = true
    · exact .inr (h f hf hc hn he hp)
    · exact .inl (Bool.eq_false_iff.2 fun e => hp (List.any_eq_true.1 e))

/-! ### A crew after an update -/

/-- An update that leaves what is found under a key, the one of its key, leaves the list. -/
theorem map_upd_eq_self {α : Type} {key : α → Nat} {u : Nat} {g : α → α} {l : List α} {x : α} (hn : (l.map key).Nodup)
    (hx : l.find? (key · == u) = some x) (hg : g x = x) : (l.map fun y => if key y = u then g y else y) = l := by
  refine List.map_congr_left (g := id) (fun y hy => ?_) |>.trans (List.map_id l)
  have hu : key x = u := by simpa using List.find?_some hx
  split
  · next h =>
    rw [List.inj_on_of_nodup_map hn hy (List.mem_of_find?_eq_some hx) (h.trans hu.symm), hg]
    rfl
  · rfl

/-- In s the crew u, n stands as w. -/
def State.HasCrew (s : State) (u n : Nat) (w : Crew) : Prop := ∃ c, s.cohort? u = some c ∧ c.crew? n = some w

namespace State

variable {s t : State} {u n : Nat} {w : Crew}

theorem HasCrew.updCrew {g : Crew → Crew} (hg : ∀ w, (g w).number = w.number) (h : s.HasCrew u n w) : (s.updCrew u n g).HasCrew u n (g w) := by
  obtain ⟨c, hc, hw⟩ := h
  refine ⟨c.updCrew n g, cohort?_updCohort_same (fun _ h => h) hc, ?_⟩
  have hnum : w.number = n := by simpa using List.find?_some hw
  have h := find?_map_upd (key := Crew.number) (u := n) (g := g) (fun x h => (hg x).trans h) c.crews n
  rw [show c.crews.find? (·.number == n) = some w from hw, Option.map_some, if_pos hnum] at h
  exact h

theorem HasCrew.of_cohorts (h : s.HasCrew u n w) (hc : t.cohorts = s.cohorts) : t.HasCrew u n w := by
  obtain ⟨c, h₁, h₂⟩ := h
  exact ⟨c, by rw [cohort?, hc]; exact h₁, h₂⟩

/-- An update that leaves a crew leaves its state, where each number stands once. -/
theorem updCrew_eq_self {g : Crew → Crew} {c : Cohort} (hc : s.cohort? u = some c) (hw : c.crew? n = some w) (hg : g w = w)
    (hs : (s.cohorts.map (·.uid)).Nodup) (hcn : (c.crews.map (·.number)).Nodup) : (s.updCrew u n g).cohorts = s.cohorts := by
  refine map_upd_eq_self hs hc ?_
  have hcrews : (c.crews.map fun w => if w.number = n then g w else w) = c.crews := map_upd_eq_self hcn hw hg
  rw [Cohort.updCrew, hcrews]

end State

/-! ### Landings keep the fibre's name -/

namespace Fibre

theorem putReg_uid (f : Fibre) (k : Nat) (v : Word) : (f.putReg k v).uid = f.uid := rfl

theorem putRegs_uid (f : Fibre) (l : List (Nat × Word)) : (f.putRegs l).uid = f.uid :=
  List.foldlRecOn (motive := fun g : Fibre => g.uid = f.uid) l _ rfl fun _ h _ _ => h

theorem putPreds_uid (f : Fibre) (l : List (Nat × Bool)) : (f.putPreds l).uid = f.uid :=
  (congrArg Fibre.uid (f.putPreds_rest l)).trans rfl

theorem land_uid (f : Fibre) (name : Nat) (regs : List (Nat × Word)) (preds : List (Nat × Bool)) : (f.land name regs preds).uid = f.uid := by
  unfold land
  split
  · rfl
  · dsimp only
    split
    · rfl
    · rw [putPreds_uid, putRegs_uid]

end Fibre

/-- What a member's fibre is once its rendezvous has completed: its results have landed, and its wait is over. -/
def Presentation.deliver (tag : Nat) (cs : List Presentation) (p : Presentation) (f : Fibre) : Fibre :=
  let g := (f.land p.name ((p.result cs).1.zipIdx.map fun x => (p.dst + x.2, x.1)) (p.result cs).2.1).orFlags (p.result cs).2.2
  { g with waits := g.waits.filter fun w => w != .group tag }

theorem Presentation.deliver_uid (tag : Nat) (cs : List Presentation) (p : Presentation) (f : Fibre) : (p.deliver tag cs f).uid = f.uid :=
  f.land_uid _ _ _

/-- A rendezvous with members stays. -/
theorem Crew.dropEmpty_eq_self (w : Crew) {r : Rdv} (hr : w.rdvs = [r]) (hm : r.members ≠ []) :
    { w with rdvs := w.rdvs.filter fun r => r.members != [] } = w := by
  have hkeep : w.rdvs.filter (fun r => r.members != []) = w.rdvs := by simp [hr, hm]
  rw [hkeep]

namespace State

variable {s : State} {u n : Nat} {w : Crew} {r : Rdv}

/-! ### Members served one after another -/

/-- A fibre that is none of the members stands. -/
theorem fibre?_foldl_updFibre_other {g : Presentation → Fibre → Fibre} (hg : ∀ p f, (g p f).uid = f.uid) (l : List Presentation) (s : State)
    {v : Nat} (hv : v ∉ l.map (·.uid)) : (l.foldl (fun s p => s.updFibre p.uid (g p)) s).fibre? v = s.fibre? v := by
  refine List.foldlRecOn (motive := fun t : State => t.fibre? v = s.fibre? v) l _ rfl fun t ht p hp => ?_
  rw [fibre?_updFibre (fun f h => (hg p f).trans h), ht]
  refine Option.map_congr (fun f hf => if_neg fun h => hv ?_) |>.trans Option.map_id'
  rw [← fibre?_uid hf, h]
  exact List.mem_map_of_mem hp

/-- A member is served once, where each fibre is a member once. -/
theorem fibre?_foldl_updFibre_mem {g : Presentation → Fibre → Fibre} (hg : ∀ p f, (g p f).uid = f.uid) (l : List Presentation) (s : State)
    (hn : (l.map (·.uid)).Nodup) {p : Presentation} (hp : p ∈ l) {f : Fibre} (hf : s.fibre? p.uid = some f) :
    (l.foldl (fun s p => s.updFibre p.uid (g p)) s).fibre? p.uid = some (g p f) := by
  induction l generalizing s with
  | nil => cases hp
  | cons q l ih =>
    rw [List.map_cons, List.nodup_cons] at hn
    obtain ⟨hq, hn⟩ := hn
    have hupd := fibre?_updFibre (s := s) (u := q.uid) (g := g q) (fun f h => (hg q f).trans h) p.uid
    rw [hf, Option.map_some, fibre?_uid hf] at hupd
    rw [List.foldl_cons]
    rcases List.mem_cons.1 hp with rfl | hp
    · rw [fibre?_foldl_updFibre_other hg l _ hq, hupd, if_pos rfl]
    · refine ih _ hn hp (hupd.trans ?_)
      rw [if_neg fun h : p.uid = q.uid => hq (h ▸ List.mem_map_of_mem hp)]

/-! ### A crew with one open rendezvous (R74, R75) -/

/-- A rendezvous without members leaves its crew. -/
def dropEmpty (s : State) (u n : Nat) : State := s.updCrew u n fun w => { w with rdvs := w.rdvs.filter fun r => r.members != [] }

theorem crewComplete_part (hw : s.HasCrew u n w) (hr : w.rdvs = [r]) (h : ¬s.Whole u n r) : s.crewComplete u n = s.dropEmpty u n := by
  obtain ⟨c, hc, hcw⟩ := hw
  rw [← rdvWhole_iff, Bool.not_eq_true] at h
  simp [crewComplete, hc, hcw, hr, h, dropEmpty]

theorem crewComplete_failed (hw : s.HasCrew u n w) (hr : w.rdvs = [r]) (h : s.Whole u n r) (hf : r.failed = true) :
    s.crewComplete u n = (s.rdvComplete u n r).dropEmpty u n := by
  obtain ⟨c, hc, hcw⟩ := hw
  rw [← rdvWhole_iff] at h
  simp [crewComplete, hc, hcw, hr, h, hf, dropEmpty]

theorem jmskWrite_eq_self (h : r.isJmsk = false) : s.jmskWrite u n r = s := by
  unfold jmskWrite
  split
  · next p hp =>
    split
    · next hk => simp [Rdv.isJmsk, hp, hk] at h
    · rfl
  · rfl

/-- One that completes writes its mask first, where it is a `jmsk`. -/
theorem crewComplete_whole (hw : s.HasCrew u n w) (hr : w.rdvs = [r]) (h : s.Whole u n r) (hf : r.failed = false) :
    s.crewComplete u n = ((s.jmskWrite u n r).rdvComplete u n r).dropEmpty u n := by
  obtain ⟨c, hc, hcw⟩ := hw
  rw [← rdvWhole_iff] at h
  cases hj : r.isJmsk
  · simp [crewComplete, hc, hcw, hr, h, hf, hj, dropEmpty, jmskWrite_eq_self hj]
  · simp [crewComplete, hc, hcw, hr, h, hf, hj, dropEmpty]

/-- The words that R258 gives the masks of a crew: mask j for the vlanes of a sub-group, from v where they are live. -/
def jmskMasks (s : State) (u n : Nat) (p : Presentation) (j : BitVec 2) (v : Word) (masks : List Word) : List Word :=
  let live := (s.crewLive u n).foldl (fun (m : Word) f => m ||| BitVec.ofNat 32 (2 ^ f.vlane)) 0
  let span : Word := BitVec.ofNat 32 ((2 ^ p.width - 1) * 2 ^ p.base)
  masks.zipIdx.map fun (m, i) => if i = j.toNat then (m &&& ~~~ span) ||| (v &&& live &&& span) else m

theorem jmskWrite_jmsk {p : Presentation} {rest : List Presentation} {j : BitVec 2} {v : Word} (hm : r.members = p :: rest)
    (hk : p.kind = .jmsk j v) : s.jmskWrite u n r = s.updCrew u n fun w => { w with masks := s.jmskMasks u n p j v w.masks } := by
  simp only [jmskWrite, hm, List.head?_cons, hk]
  rfl

theorem length_jmskMasks (p : Presentation) (j : BitVec 2) (v : Word) (masks : List Word) : (s.jmskMasks u n p j v masks).length = masks.length := by
  simp [jmskMasks]

theorem getD_jmskMasks_other {p : Presentation} {j : BitVec 2} {v : Word} {masks : List Word} {k : Nat} (hk : k ≠ j.toNat) :
    (s.jmskMasks u n p j v masks).getD k 0 = masks.getD k 0 := by
  simp only [jmskMasks, List.getD_eq_getElem?_getD, List.getElem?_map, List.getElem?_zipIdx, Option.map_map]
  cases masks[k]? <;> simp [hk]

theorem getLsbD_jmskMasks {p : Presentation} {j : BitVec 2} {v : Word} {masks : List Word} (hj : j.toNat < masks.length) {i : Nat} (hi : i < 32) :
    ((s.jmskMasks u n p j v masks).getD j.toNat 0).getLsbD i =
      if p.base ≤ i ∧ i < p.base + p.width then v.getLsbD i && (s.fibres.any fun f => f.cohort == u && f.crew == n && !f.exited && f.vlane == i)
      else (masks.getD j.toNat 0).getLsbD i := by
  have hspan : (BitVec.ofNat 32 ((2 ^ p.width - 1) * 2 ^ p.base)).getLsbD i = decide (p.base ≤ i ∧ i < p.base + p.width) := by
    rw [BitVec.getLsbD_ofNat, Nat.testBit_mul_two_pow, Nat.testBit_two_pow_sub_one]
    simp only [hi, decide_true, Bool.true_and, ← Bool.decide_and, decide_eq_decide]
    omega
  have hlive : ((s.crewLive u n).foldl (fun (m : Word) f => m ||| BitVec.ofNat 32 (2 ^ f.vlane)) 0).getLsbD i =
      s.fibres.any fun f => f.cohort == u && f.crew == n && !f.exited && f.vlane == i := by
    rw [getLsbD_foldl_lanes _ _ _ hi, show (0 : Word).getLsbD i = false from BitVec.getLsbD_zero, Bool.false_or]
    simp only [crewLive, liveOf, List.filter_filter, List.any_filter]
    congr 1
    funext f
    ac_rfl
  have hget : (s.jmskMasks u n p j v masks).getD j.toNat 0 = (masks.getD j.toNat 0 &&& ~~~ BitVec.ofNat 32 ((2 ^ p.width - 1) * 2 ^ p.base)) |||
      (v &&& (s.crewLive u n).foldl (fun (m : Word) f => m ||| BitVec.ofNat 32 (2 ^ f.vlane)) 0 &&&
        BitVec.ofNat 32 ((2 ^ p.width - 1) * 2 ^ p.base)) := by
    simp [jmskMasks, List.getD_eq_getElem?_getD, hj]
  rw [hget]
  simp only [BitVec.getLsbD_or, BitVec.getLsbD_and, BitVec.getLsbD_not, hspan, hlive, hi, decide_true, Bool.true_and]
  split
  · next h => simp [h]
  · next h => simp [h]

/-- What a `jmsk` write leaves of its crew: the masks alone may change, by R258 where the first member is a `jmsk`. -/
theorem jmskWrite_hasCrew (h : s.HasCrew u n w) (r : Rdv) : ∃ ms, (s.jmskWrite u n r).HasCrew u n { w with masks := ms } ∧
    (∀ p rest j v, r.members = p :: rest → p.kind = .jmsk j v → ms = s.jmskMasks u n p j v w.masks) ∧
    (∀ p rest, r.members = p :: rest → (∀ j v, p.kind ≠ .jmsk j v) → ms = w.masks) := by
  by_cases hj : ∃ p rest j v, r.members = p :: rest ∧ p.kind = .jmsk j v
  · obtain ⟨p, rest, j, v, hm, hk⟩ := hj
    rw [jmskWrite_jmsk hm hk]
    refine ⟨_, h.updCrew fun _ => rfl, fun p' rest' j' v' hm' hk' => ?_, fun p' rest' hm' hk' => ?_⟩
    · cases hm.symm.trans hm'
      cases hk.symm.trans hk'
      rfl
    · cases hm.symm.trans hm'
      exact absurd hk (hk' j v)
  · have hself : s.jmskWrite u n r = s := by
      unfold jmskWrite
      split
      · next p hp =>
        split
        · next j v hk =>
          obtain ⟨rest, hm⟩ := List.head?_eq_some_iff.1 hp
          exact absurd ⟨p, rest, j, v, hm, hk⟩ hj
        · rfl
      · rfl
    rw [hself]
    exact ⟨w.masks, h, fun p rest j v hm hk => absurd ⟨p, rest, j, v, hm, hk⟩ hj, fun _ _ _ _ => rfl⟩

theorem jmskWrite_fibres (s : State) (u n : Nat) (r : Rdv) : (s.jmskWrite u n r).fibres = s.fibres := by
  unfold jmskWrite
  split
  · split <;> rfl
  · rfl

/-- One that completes serves its members by the masks of its crew. -/
theorem rdvComplete_serves (hw : s.HasCrew u n w) (hf : r.failed = false) (ht : r.tag ≠ 256) :
    s.rdvComplete u n r = r.members.foldl (fun s p => s.updFibre p.uid (p.deliver r.tag (contributors w.masks r.members)))
      (s.updCrew u n fun w => { w with rdvs := w.rdvs.filter fun q => q != r }) := by
  obtain ⟨c, hc, hcw⟩ := hw.updCrew (g := fun w => { w with rdvs := w.rdvs.filter fun q => q != r }) fun _ => rfl
  simp only [rdvComplete, hf, ht, hc, Option.bind_some, hcw, Option.map_some, Option.getD_some, Bool.false_eq_true, if_false]
  rfl

theorem foldl_updFibre_cohorts (g : Presentation → Fibre → Fibre) (l : List Presentation) (s : State) :
    (l.foldl (fun s p => s.updFibre p.uid (g p)) s).cohorts = s.cohorts :=
  foldl_keeps (m := State.cohorts) (f := fun s p => s.updFibre p.uid (g p)) (fun _ _ => rfl) l s

/-- A rendezvous that completes leaves its crew without one, and with the masks that it writes. -/
theorem crewComplete_hasCrew (hw : s.HasCrew u n w) (hr : w.rdvs = [r]) (h : s.Whole u n r) (hf : r.failed = false) (ht : r.tag ≠ 256) :
    ∃ ms, (s.crewComplete u n).HasCrew u n { w with masks := ms, rdvs := [] } ∧
      (∀ p rest j v, r.members = p :: rest → p.kind = .jmsk j v → ms = s.jmskMasks u n p j v w.masks) ∧
      (∀ p rest, r.members = p :: rest → (∀ j v, p.kind ≠ .jmsk j v) → ms = w.masks) := by
  obtain ⟨ms, hms, hj, ho⟩ := jmskWrite_hasCrew hw r
  refine ⟨ms, ?_, hj, ho⟩
  rw [crewComplete_whole hw hr h hf, rdvComplete_serves hms hf ht]
  have hdone := ((hms.updCrew (g := fun w => { w with rdvs := w.rdvs.filter fun q => q != r }) fun _ => rfl).of_cohorts
    (foldl_updFibre_cohorts (fun p => p.deliver r.tag (contributors ms r.members)) r.members _)).updCrew
    (g := fun w => { w with rdvs := w.rdvs.filter fun r => r.members != [] }) fun _ => rfl
  simpa [hr, dropEmpty] using hdone

/-- Each member of one that completes and is no `jmsk` receives its result, by the masks as they stand. -/
theorem crewComplete_member (hw : s.HasCrew u n w) (hr : w.rdvs = [r]) (h : s.Whole u n r) (hf : r.failed = false) (ht : r.tag ≠ 256)
    (hn : (r.members.map (·.uid)).Nodup) (hj : r.isJmsk = false) {p : Presentation} (hp : p ∈ r.members) {f : Fibre} (hfib : s.fibre? p.uid = some f) :
    (s.crewComplete u n).fibre? p.uid = some (p.deliver r.tag (contributors w.masks r.members) f) := by
  rw [crewComplete_whole hw hr h hf, jmskWrite_eq_self hj, rdvComplete_serves hw hf ht]
  exact fibre?_foldl_updFibre_mem (fun p f => p.deliver_uid _ _ f) r.members _ hn hp hfib

theorem crewComplete_other (hw : s.HasCrew u n w) (hr : w.rdvs = [r]) (h : s.Whole u n r) (hf : r.failed = false) (ht : r.tag ≠ 256)
    {v : Nat} (hv : v ∉ r.members.map (·.uid)) : (s.crewComplete u n).fibre? v = s.fibre? v := by
  obtain ⟨ms, hms, -⟩ := jmskWrite_hasCrew hw r
  rw [crewComplete_whole hw hr h hf, rdvComplete_serves hms hf ht]
  refine (fibre?_foldl_updFibre_other (fun p f => p.deliver_uid _ _ f) r.members _ hv).trans ?_
  rw [fibre?, fibre?, updCrew_fibres, jmskWrite_fibres]

end State

theorem Rdv.isJmsk_eq_false {r : Rdv} {p : Presentation} {rest : List Presentation} (hm : r.members = p :: rest)
    (hk : ∀ j v, p.kind ≠ .jmsk j v) : r.isJmsk = false := by
  unfold Rdv.isJmsk
  rw [hm, List.head?_cons]
  dsimp only
  split
  · next j v h => exact absurd h (hk j v)
  · rfl

/-! ### Words that present (R71, R75, R250 to R258) -/

/-- A word whose own meaning raises a cause raises it, its registers once checked. -/
theorem State.word_raise {α : Type} {s : State} {f : Fibre} {i : Instr} {m : Mods α} {body : Fibre → OpenGroup → WordOut} {c : Cause} {tv : DWord}
    (h : s.Runs f i m.g) (hb : body f (s.openGroup f) = .raise c tv) : s.word i m body = .next (s.groupRaise f (s.openGroup f) c tv) := by
  have hw : wordOut i body f (s.openGroup f) = .raise c tv := by
    rw [wordOut, Fibre.firstRegs_ok h.within h.sound]
    exact hb
  rw [State.word, State.issueWord, h.issuer]
  simp only [h.guard, Bool.not_true, Bool.false_and, Bool.or_self, Bool.false_eq_true, if_false, hw]

/-- A word of classes 15 and 16 presents, where a register mask names its caller, and else raises 8.01 with the mask. -/
theorem State.word_presents {α : Type} {s : State} {f : Fibre} {i : Instr} {m : Mods α} (h : s.Runs f i m.g) (set : Sys2Proof.PSet) (tag : BitVec 8)
    (width : Width) (before : List Fx) (p : Fibre → Presentation) :
    let mask : Word := match set with | .reg r => f.V r | _ => 0
    let named : Prop := match set with | .reg r => (f.V r).getLsbD f.vlane = true | _ => True
    let out := s.word i m fun f og => presentOut f og set tag width before (p f)
    (named → out = .next (s.adds f m.chains m.words (before ++ [.present tag.toNat
      { p f with uid := f.uid, vlane := f.vlane, set := set, mask := mask, width := width.lanes, pc := (s.openGroup f).head }]))) ∧
    (¬named → out = .next (s.groupRaise f (s.openGroup f) (mkCause 8 1) (mask.setWidth 64))) := by
  refine ⟨fun hn => State.word_ok h ?_, fun hn => State.word_raise h ?_⟩
  · cases set with
    | all => rfl
    | mask j => rfl
    | reg r => exact if_pos hn
  · cases set with
    | all => exact absurd trivial hn
    | mask j => exact absurd trivial hn
    | reg r => exact if_neg hn

/-! ### The masks of a crew (R73) -/

/-- `jarr` sets the bit of its caller in mask j of its crew, and no other bit. -/
theorem getLsbD_jarr (masks : List Word) (j : BitVec 2) (hj : j.toNat < masks.length) (lane k : Nat) {v : Nat} (hv : v < 32) :
    ((masks.zipIdx.map fun (m, i) => if i = j.toNat then m ||| BitVec.ofNat 32 (2 ^ lane) else m).getD k 0).getLsbD v =
      ((masks.getD k 0).getLsbD v || (decide (k = j.toNat) && decide (v = lane))) := by
  have hbit : (BitVec.ofNat 32 (2 ^ lane)).getLsbD v = decide (v = lane) := by
    rw [BitVec.getLsbD_ofNat, Nat.testBit_two_pow]
    simp only [hv, decide_true, Bool.true_and, eq_comm]
  rw [← hbit]
  simp only [List.getD_eq_getElem?_getD, List.getElem?_map, List.getElem?_zipIdx, Option.map_map]
  by_cases hk : k = j.toNat
  · subst hk
    simp only [List.getElem?_eq_getElem hj, Option.map_some, Function.comp_apply, Nat.zero_add, if_true, Option.getD_some, BitVec.getLsbD_or,
      decide_true, Bool.true_and]
  · cases masks[k]? <;> simp [hk]

/-- Settles O18: what a member receives is what R78 and R251 to R258 give it (`Presentation.receives_result`); a crew with one open rendezvous
leaves it, fails it or completes it; and each word presents, or raises 8.01. -/
theorem crossLaneWordsPresent : Obligations.CrossLaneWordsPresent := by
  refine ⟨fun s co crew w r hc hcw hr ht => ?_, fun s f d a b o p q mode ty j =>
    ⟨fun m => ?_, fun m => ?_, fun m h => State.plain_ok h rfl, fun co w _ hc hw hj => ?_⟩⟩
  · have hw : s.HasCrew co.uid crew w := ⟨co, hc, hcw⟩
    refine ⟨fun h => ?_, fun h hf => ⟨_, rfl, ?_⟩, fun h hf => ⟨?_, fun hn hj p hp hpos hk f hfib => ?_, fun u hu => ?_⟩⟩
    · rw [State.crewComplete_part hw hr h]
      exact ⟨rfl, fun hm hs hcn => State.updCrew_eq_self hc hcw (w.dropEmpty_eq_self hr hm) hs hcn⟩
    · rw [State.crewComplete_failed hw hr h hf, State.rdvComplete, if_pos hf]
      rfl
    · obtain ⟨ms, ⟨c', hc', hcw'⟩, hjm, ho⟩ := State.crewComplete_hasCrew hw hr h hf ht
      refine ⟨c', _, hc', hcw', rfl, fun p rest j v hm hk hj => ?_, ho⟩
      rw [hjm p rest j v hm hk]
      exact ⟨State.length_jmskMasks .., fun k hk => State.getD_jmskMasks_other hk, fun n hn => State.getLsbD_jmskMasks hj hn⟩
    · obtain ⟨q, rest, hm⟩ := List.exists_cons_of_ne_nil h.1
      have hjm := Rdv.isJmsk_eq_false hm fun j v => hj q rest j v hm
      exact ⟨_, _, _, p.receives_result _ hpos hk, State.crewComplete_member hw hr h hf ht hn hjm hp hfib⟩
    · exact State.crewComplete_other hw hr h hf ht hu
  · refine ⟨?_, ?_⟩ <;> exact fun h => State.word_presents h _ _ _ [] _
  · refine ⟨?_, ?_, ?_, ?_, ?_, ?_, ?_⟩ <;> exact fun h => State.word_presents h _ _ _ _ _
  · have hcrew : s.HasCrew f.cohort f.crew w := ⟨co, hc, hw⟩
    obtain ⟨c', hc', hw'⟩ := hcrew.updCrew (g := fun w =>
      { w with masks := w.masks.zipIdx.map fun (m, i) => if i = j.toNat then m ||| BitVec.ofNat 32 (2 ^ f.vlane) else m }) fun _ => rfl
    exact ⟨c', _, hc', hw', rfl, rfl, fun k v hv => getLsbD_jarr w.masks j hj f.vlane k hv⟩

end Sys2Proof.Machine

/-! ## O42, O38, O36, O25: words, their encodings and their guards

Each row of the opcode table has its own law under `Laws.RoundTrip`; what is left of O42 is that those are all the rows that an encoding holds
(`Laws.RoundTrip.all`). For O36 the encoding of a word says how it issues (`issuesAs_enc`): its guard, its chain bit and its number of words. A
guard that reads false then adds nothing to the group, and a group with no effect only moves its fibre on. -/

namespace Sys2Proof.Laws.RoundTrip

/-- The law holds of every row (Table 6.1); an event of the part has no words. -/
theorem all (i : Instr) : Statement i := by
  cases i with
  | add => apply add | sub => apply sub | addc => apply addc | subb => apply subb | neg => apply neg | abs => apply abs | min => apply min
  | max => apply max | and => apply and | or => apply or | xor => apply xor | andn => apply andn | orn => apply orn | sel => apply sel
  | mov => apply mov | cmp => apply cmp | shl => apply shl | shr => apply shr | sar => apply sar | rotl => apply rotl | fsh => apply fsh
  | bfx => apply bfx | bfi => apply bfi | popc => apply popc | clz => apply clz | ctz => apply ctz | brev => apply brev | bprm => apply bprm
  | plog => apply plog | lea => apply lea | mul => apply mul | mulh => apply mulh | mad => apply mad | madh => apply madh | idp4 => apply idp4
  | div => apply div | rem => apply rem | fadd => apply fadd | fsub => apply fsub | fmin => apply fmin | fmax => apply fmax | fcmp => apply fcmp
  | fcls => apply fcls | fmul => apply fmul | ffma => apply ffma | fscl => apply fscl | fcvt => apply fcvt | frnd => apply frnd
  | fdot2 => apply fdot2 | fdot4 => apply fdot4 | faddF64 => apply faddF64 | fsubF64 => apply fsubF64 | fmulF64 => apply fmulF64
  | ffmaF64 => apply ffmaF64 | fminF64 => apply fminF64 | fmaxF64 => apply fmaxF64 | fcmpF64 => apply fcmpF64 | frcp => apply frcp
  | frsq => apply frsq | fsqrt => apply fsqrt | fdiv => apply fdiv | fex2 => apply fex2 | flg2 => apply flg2 | fsin => apply fsin
  | fcos => apply fcos | ftnh => apply ftnh | ld => apply ld | ldh => apply ldh | chkh => apply chkh | pref => apply pref | st => apply st
  | atomAdd => apply atomAdd | atomMin => apply atomMin | atomMax => apply atomMax | atomAnd => apply atomAnd | atomOr => apply atomOr
  | atomXor => apply atomXor | atomXch => apply atomXch | atomCas => apply atomCas | atomIncw => apply atomIncw | atomDecw => apply atomDecw
  | atomFadd => apply atomFadd | lds => apply lds | sts => apply sts | smap => apply smap | sumap => apply sumap | sflush => apply sflush
  | sfe => apply sfe | tfe => apply tfe | fence => apply fence | shfl => apply shfl | bcst => apply bcst | vote => apply vote | redu => apply redu
  | scan => apply scan | mtch => apply mtch | elect => apply elect | rdv => apply rdv | jarr => apply jarr | jmsk => apply jmsk | br => apply br
  | call => apply call | ret => apply ret | jt => apply jt | exit => apply exit | yield => apply yield | trap => apply trap | waitc => apply waitc
  | bar => apply bar | barArrive => apply barArrive | barWait => apply barWait | barExpect => apply barExpect | nop => apply nop
  | sleep => apply sleep | spawn => apply spawn | spawnr => apply spawnr | jwait => apply jwait | watch => apply watch | unwatch => apply unwatch
  | kcap => apply kcap | mtc => apply mtc | mfc => apply mfc | tzeroTile => apply tzeroTile | tzeroAcc => apply tzeroAcc | tldTile => apply tldTile
  | tldAcc => apply tldAcc | tstTile => apply tstTile | tstAcc => apply tstAcc | tmma => apply tmma | tbmp => apply tbmp | tcvt => apply tcvt
  | tacc => apply tacc | tstatTile => apply tstatTile | tstatBarrier => apply tstatBarrier | tgat => apply tgat | cpyStash => apply cpyStash
  | cpyTile => apply cpyTile | cpyl => apply cpyl | cpylSt => apply cpylSt | cpylGg => apply cpylGg | cpym => apply cpym | cwpt => apply cwpt
  | coll => apply coll | rpmark => apply rpmark | rpqry => apply rpqry | movs => apply movs | movw => apply movw | rdtm => apply rdtm
  | svcVersion => apply svcVersion | svcRecord => apply svcRecord | svcCause => apply svcCause | tret => apply tret | tlbi => apply tlbi
  | rep => apply rep
  | _ => exact fun _ he => absurd he Bool.false_ne_true

end Sys2Proof.Laws.RoundTrip

namespace Sys2Proof

/-- Settles O42: the law of the instruction's own row. -/
theorem everyInstructionDecodesFromItsWords : Obligations.EveryInstructionDecodesFromItsWords := Laws.RoundTrip.all

/-- Settles O38: each of the words is decoded. -/
theorem writtenWordsDecode : Obligations.WrittenWordsDecode := by
  unfold Obligations.WrittenWordsDecode
  decide

end Sys2Proof

namespace Sys2Proof.Machine

/-- A word whose guard reads false adds nothing to its group (R85). -/
theorem issueWord_void {s : State} {f : Fibre} {i : Instr} {g : GuardBits} {chains branch : Bool} {words : Nat}
    {body : Fibre → OpenGroup → WordOut} (hi : s.issuer = some f) (hg : f.guard g = false) :
    s.issueWord i g chains words branch body = .next (s.adds f chains words []) := by
  unfold State.issueWord State.adds
  simp only [hi, hg, Bool.not_false, Bool.true_or, if_true]
  cases chains <;> rfl

/-- A result that writes nothing leaves the fibre as it is. -/
theorem Fibre.apply_res_nil (f : Fibre) (cls : Nat) : Fibre.apply false f (.res cls [] [] 0) = f := by
  show f.orFlags 0 = f
  rw [Fibre.orFlags, show f.arch.fflags ||| 0 = f.arch.fflags from BitVec.or_zero]

/-- The state once a group whose effects are all on its own fibre has issued: the fibre as g, and the names of `n` operations used. -/
def State.issuedAs (s : State) (f g : Fibre) (n : Nat) : State :=
  { (s.issuedTurn f.uid).setFibre g with run := { (s.issuedTurn f.uid).run with nextOp := s.run.nextOp + n } }

theorem State.issuedAs_fibre {s : State} {f g : Fibre} (n : Nat) (hi : s.issuer = some f) (hu : g.uid = f.uid) :
    (s.issuedAs f g n).fibre? f.uid = some g := by
  have hin : (s.fibre? g.uid).isSome := by rw [hu, State.issuer_fibre hi]; rfl
  rw [← hu]
  exact State.fibre?_setFibre_same s g hin

theorem State.issuedAs_onlyFibre {s : State} {f g : Fibre} (n : Nat) (hu : g.uid = f.uid) : s.OnlyFibre (s.issuedAs f g n) f.uid where
  rest := rfl
  others v hv := State.fibre?_setFibre_other s g v (by rw [hu]; exact hv)
  hearths _ := rfl
  run := rfl

/-- The fibre at the end of a group's turn: its PC past the group, and the landings still to come. -/
def State.moved (s : State) (f : Fibre) (og : OpenGroup) (pend : List Pend) : Fibre :=
  { f.advance og with
    pend := f.pend ++ pend, since := none, sent := 0, held := none, turn := if f.held.isSome then f.turn else (s.issuedTurn f.uid).turnOf f }

/-- A group with no effect takes effect: its fibre moves on, and nothing else changes. -/
theorem State.commit_nil (s : State) (f : Fibre) (og : OpenGroup) (h : og.fx = []) : s.commit f og = s.issuedAs f (s.moved f og []) 0 := by
  unfold State.commit State.takeEffect
  rw [h]
  cases f.sent <;> rfl

theorem State.moved_fresh (s : State) (f : Fibre) (words : Nat) (fx : List Fx) (pend : List Pend) :
    s.moved f ((OpenGroup.fresh f).add words fx) pend =
      { f with
        arch := { f.arch with pc := f.arch.pc + BitVec.ofNat 32 words }
        head := f.arch.pc, rep := none, pend := f.pend ++ pend, held := none
        turn := (s.moved f ((OpenGroup.fresh f).add words fx) pend).turn, since := none, sent := 0 } := by
  simp only [State.moved, Fibre.advance, OpenGroup.add, OpenGroup.fresh, Nat.zero_add]

/-- A word that does not chain, in a group of its own, has its effects at once. -/
theorem State.adds_alone {s : State} (f : Fibre) (words : Nat) (fx : List Fx) (hg : s.run.group = none) :
    s.adds f false words fx = s.commit f ((OpenGroup.fresh f).add words fx) := by
  simp only [State.adds, State.openGroup, hg, Bool.false_eq_true, if_false]

/-- No effect, alone in its group and unchained: what the group leaves. -/
theorem State.adds_nil_wrote (s : State) (f : Fibre) (words : Nat) (hi : s.issuer = some f) (hg : s.run.group = none) :
    s.Wrote (s.adds f false words []) f words [] [] 0 := by
  rw [State.adds_alone f words [] hg, State.commit_nil s f _ rfl]
  obtain ⟨hu, hres⟩ := Fibre.res_result f words 0 [] [] 0 (f.pend ++ []) .nil .nil _ (s.moved_fresh f words [] [])
  rw [Fibre.apply_res_nil] at hu hres
  exact ⟨⟨_, State.issuedAs_fibre 0 hi hu, hres⟩, State.issuedAs_onlyFibre 0 hu⟩

/-- Word i issues as its encoding e says: with the guard, the chain bit and the number of words that the encoding holds (R80, R82, R86). -/
def IssuesAs (i : Instr) (e : Enc) : Prop :=
  ∀ s : State, ∃ branch body, exec i s = s.issueWord i e.raw.g (match e.lit with | some l => l.1 | none => e.raw.c)
    (match e.lit with | some _ => 2 | none => 1) branch body

theorem issuesAs_mods {α : Type} {i : Instr} (m : Mods α) (k : BitVec 5) (o : BitVec 4) (d a b : RegIx) (bits : α → BitVec 26)
    (h : ∀ s : State, ∃ branch body, exec i s = s.issueWord i m.g m.chains m.words branch body) : IssuesAs i (encMods m k o d a b bits) := by
  obtain ⟨c, g, lit⟩ := m
  cases lit <;> exact h

theorem issuesAs_enc {i : Instr} {e : Enc} (h : i.enc = some e) (hr : ∀ m n k, i ≠ .rep m n k) : IssuesAs i e := by
  cases i with
  | rep m n k => exact absurd rfl (hr m n k)
  | jarr | br | ret | jt | exit | yield | trap | nop | jwait | unwatch | kcap | rpmark | rpqry | movs | movw | rdtm | tret =>
    cases h
    exact fun _ => ⟨_, _, rfl⟩
  | add | sub | addc | subb | neg | abs | min | max | and | or | xor | andn | orn | sel | mov | cmp | shl | shr | sar | rotl | fsh | bfx
  | bfi | popc | clz | ctz | brev | bprm | plog | lea | mul | mulh | mad | madh | idp4 | div | rem | fadd | fsub | fmin | fmax | fcmp | fcls
  | fmul | ffma | fscl | fcvt | frnd | fdot2 | fdot4 | faddF64 | fsubF64 | fmulF64 | ffmaF64 | fminF64 | fmaxF64 | fcmpF64 | frcp | frsq
  | fsqrt | fdiv | fex2 | flg2 | fsin | fcos | ftnh | ld | ldh | chkh | pref | st | atomAdd | atomMin | atomMax | atomAnd | atomOr | atomXor
  | atomXch | atomCas | atomIncw | atomDecw | atomFadd | lds | sts | smap | sumap | sflush | sfe | tfe | fence | shfl | bcst | vote | redu
  | scan | mtch | elect | rdv | jmsk | call | waitc | bar | barArrive | barWait | barExpect | sleep | spawn | spawnr | watch | mtc | mfc
  | tzeroTile | tzeroAcc | tldTile | tldAcc | tstTile | tstAcc | tmma | tbmp | tcvt | tacc | tstatTile | tstatBarrier | tgat | cpyStash
  | cpyTile | cpyl | cpylSt | cpylGg | cpym | cwpt | coll | svcVersion | svcRecord | svcCause | tlbi =>
    cases h
    exact issuesAs_mods _ _ _ _ _ _ _ fun _ => ⟨_, _, rfl⟩
  | _ => cases h

/-- Settles O36: each word issues as its encoding says (`issuesAs_enc`), and with a guard that reads false it adds nothing. -/
theorem guardedFalseWordHasNoEffect : Obligations.GuardedFalseWordHasNoEffect := by
  intro s f i e he hr hi hg
  obtain ⟨branch, body, hx⟩ := issuesAs_enc he hr s
  exact ⟨hx.trans (issueWord_void hi hg), fun hc hn => by rw [hc]; exact State.adds_nil_wrote s f _ hi hn⟩

/-- The dispatcher's arm of `rep` (R90), with a fibre that issues. -/
theorem exec_rep {s : State} {f : Fibre} (m : Plain) (n : RegIx) (m2 : BitVec 3) (h : s.issuer = some f) :
    exec (.rep m n m2) s = .next { s with run := { s.run with group := some { s.openGroup f with
      words := (s.openGroup f).words + 1, repeating := some (f.repetition m n) } } } := by
  rw [exec, execRep, h]

/-- Settles O25: `Fibre.repetition` is the count and the repetitions left that R90 gives. -/
theorem repOpensItsRepetition : Obligations.RepOpensItsRepetition := fun _ _ m n m2 h => exec_rep m n m2 h

end Sys2Proof.Machine

/-! ## O13: memory words

Past steps 3 to 6 of Table 13.1 a word's answer is that of its own meaning at the target. -/

namespace Sys2Proof.Machine

section
variable {s : State} {f : Fibre} {α : Type} {i : Instr} {m : Mods α} {ad : GAddr} {n : Nat} {w : Bool} {t : Target}

/-! ### A global access past its checks (Table 13.1) -/

theorem State.access_of_passes (h : s.Passes f ad n w t) (k : Target → WordOut) : s.access f ad n w k = k t := by
  obtain ⟨hspace, halign, hlock, hxlate⟩ := h
  simp [State.access, hspace, halign, hlock, hxlate]

/-- A load or an atomic that meets no poison as it issues sends its request, behind its release; one that does raises 10.00 (Table 13.1, step 7). -/
theorem State.word_returning {body : Fibre → OpenGroup → WordOut} {l : LitMem} {r : Target → MemReq} {pre : List Fx} (h : s.Runs f i m.g)
    (hp : s.Passes f ad n w t)
    (hb : body f (s.openGroup f) = s.access f ad n w fun t => s.returning f l (r t) pre) :
    (s.meetsPoison f (r t) = false → s.word i m body = .next (s.adds f m.chains m.words (pre ++ memFx l (r t)))) ∧
    (s.meetsPoison f (r t) = true → s.word i m body = .next (s.groupRaise f (s.openGroup f) (mkCause 10 0) (r t).addr.off)) := by
  rw [State.access_of_passes hp, State.returning] at hb
  exact ⟨fun hq => State.word_ok h (by rw [hb, hq]; rfl), fun hq => State.word_raise h (by rw [hb, hq]; rfl)⟩

/-- A load or an atomic sends its access or raises, whichever its poison says. -/
theorem State.returning_sends {body : Fibre → OpenGroup → WordOut} {l : LitMem} {r : Target → MemReq} (hi : exec i s = s.word i m body)
    (hk : (r t).kind ≠ .store) (hb : body f (s.openGroup f) = s.access f ad n w fun t => s.returning f l (r t) []) (h : s.Runs f i m.g)
    (hp : s.Passes f ad n w t) :
    ((r t).kind = .store ∨ s.meetsPoison f (r t) = false → s.Issues f i m.chains m.words (memFx l (r t))) ∧
    ((r t).kind ≠ .store → s.meetsPoison f (r t) = true → s.Traps f i (mkCause 10 0) (r t).addr.off) := by
  obtain ⟨hok, hraise⟩ := State.word_returning h hp hb
  exact ⟨fun hq => hi.trans (hok (hq.resolve_left hk)), fun _ hq => hi.trans (hraise hq)⟩

end

/-- A `chkh` keeps its value where it has an entry that the words of its group before it leave valid (R236). -/
theorem State.hoistKept_iff (s : State) (f : Fibre) (og : OpenGroup) (d : RegIx) (l : LitMem) (a : RegIx) :
    s.hoistKept f og d l a = true ↔
      ∃ h, s.hoistEntry f (f.abs d) (f.memAddr l a) (l.ty.bits / 8) = some h ∧ ∀ x ∈ og.fx, h.struck x = false := by
  unfold State.hoistKept
  cases s.hoistEntry f (f.abs d) (f.memAddr l a) (l.ty.bits / 8) <;> simp

/-- An atomic sends its access or raises (R239). -/
theorem State.atomWord_sends {s : State} {f : Fibre} {i : Instr} {op : AtomOp} {m : Mods LitMem} {d a b : RegIx} {t : Target}
    (hi : exec i s = s.atomWord i op m d a b) (h : s.Runs f i m.g)
    (hp : s.Passes f (f.memAddr (m.body .dflt) a) ((m.body .dflt).ty.bits / 8) true t) :
    let l := m.body .dflt
    let r := f.memReq (.atom op) l d a (f.raw b l.ty) (f.raw d l.ty) false t
    (r.kind = .store ∨ s.meetsPoison f r = false → s.Issues f i m.chains m.words (memFx l r)) ∧
    (r.kind ≠ .store → s.meetsPoison f r = true → s.Traps f i (mkCause 10 0) r.addr.off) :=
  State.returning_sends (r := fun t => f.memReq (.atom op) (m.body .dflt) d a (f.raw b (m.body .dflt).ty) (f.raw d (m.body .dflt).ty) false t)
    hi nofun rfl h hp

/-- Settles O13: a word past its checks answers at its target (`State.access_of_passes`), with its access or with the poison that it meets
(`State.word_returning`); a `chkh` first asks for its entry (`State.hoistKept_iff`). -/
theorem memoryWordsSendTheirAccess : Obligations.MemoryWordsSendTheirAccess := by
  intro s f m d a b t
  refine ⟨?ld, ?ldh, ?chkh, ?pref, ?st, State.atomWord_sends rfl, State.atomWord_sends rfl, State.atomWord_sends rfl, State.atomWord_sends rfl,
    State.atomWord_sends rfl, State.atomWord_sends rfl, State.atomWord_sends rfl, State.atomWord_sends rfl, State.atomWord_sends rfl,
    State.atomWord_sends rfl, State.atomWord_sends rfl⟩
  case ld => exact State.returning_sends (r := fun t => f.memReq .load (m.body .dflt) d a 0 0 false t) rfl nofun rfl
  case ldh => exact State.returning_sends (r := fun t => f.memReq .load (m.body .dflt) d a 0 0 true t) rfl nofun rfl
  case pref => exact fun h => State.word_ok h rfl
  case st => exact fun h hp => ⟨fun _ => State.word_ok h (State.access_of_passes hp _), fun hk => absurd rfl hk⟩
  case chkh =>
    intro kept r h
    have hkept := s.hoistKept_iff f (s.openGroup f) d (m.body .dflt) a
    refine ⟨fun hk => State.word_ok h (if_pos (hkept.2 hk)), fun hk hp => ?_⟩
    exact State.word_returning (l := m.body .dflt) (r := fun t => f.memReq .load (m.body .dflt) d a 0 0 false t) (pre := [.unhoist (f.abs d)])
      h hp (if_neg fun hq => hk (hkept.1 hq))

end Sys2Proof.Machine

/-! ## O33: the words of special registers

`movs` gives the value that `State.sreg` reads, split into the words of its register or pair. A special register of the fibre written alone in
its group leaves that register and the PC (`State.leaves_sreg`); %tgprog stands in the crew. -/

namespace Sys2Proof.Machine

/-! ### The words of a value (R92) -/

theorem regWords_one (v : DWord) : regWords 1 v.toNat = [v.setWidth 32] := by
  simp [regWords]

theorem regWords_two (v : DWord) : regWords 2 v.toNat = [v.setWidth 32, (v >>> 32).setWidth 32] := by
  simp [regWords, List.range_succ, ← BitVec.toNat_inj, Nat.shiftRight_eq_div_pow]

/-! ### `movs` and `movw` (R98, R99, R385) -/

theorem sregRegs_cases (n : RegIx) : sregRegs n = 1 ∨ sregRegs n = 2 := by
  unfold sregRegs
  split
  · split <;> simp
  · exact .inl rfl

section
variable {s : State} {f : Fibre} {m : Plain} {d a n : RegIx}

/-- A word without a LIT word whose own meaning raises a cause raises it. -/
theorem State.plain_raise {i : Instr} {body : Fibre → OpenGroup → WordOut} {c : Cause} {tv : DWord} (h : s.Runs f i m.g)
    (hb : body f (s.openGroup f) = .raise c tv) : s.plain i m body = .next (s.groupRaise f (s.openGroup f) c tv) :=
  State.word_raise (m := (⟨m.c, m.g, none⟩ : Mods Unit)) h hb

/-- `movs` gives the register's value, in as many registers as its width takes. -/
theorem State.movs_gives {k : Nat} {v : DWord} (h : s.Runs f (.movs m d n) m.g) (hk : sregRegs n = k) (hv : s.sreg f n.toNat = v) :
    s.Gives f (.movs m d n) m.c 1 24 (f.wr d (regWords k v.toNat)) [] 0 := by
  subst hk hv
  exact State.gives_of h.issuer (f.wr_nodup d _) .nil (State.plain_ok h rfl)

/-- A register of 32 bits or less moves into one register. -/
theorem State.movs_gives_one {v : DWord} {w : Word} (h : s.Runs f (.movs m d n) m.g) (hk : sregRegs n = 1) (hv : s.sreg f n.toNat = v)
    (hw : v.setWidth 32 = w) : s.Gives f (.movs m d n) m.c 1 24 (f.wr d [w]) [] 0 := by
  rw [← hw, ← regWords_one]
  exact State.movs_gives h hk hv

/-- The value that `movw` writes: a register, or a pair where the special register is wider (R99). -/
def movwValue (f : Fibre) (n a : RegIx) : DWord := if sregRegs n = 2 then f.VP a else (f.V a).setWidth 64

/-- `movw` writes where its register is no H register, or in handler mode. -/
theorem State.movw_issues (h : s.Runs f (.movw m n a) m.g) (ha : (sregInfo n.toNat).map (·.2) ≠ some 2 ∨ f.arch.handler = true) :
    s.Issues f (.movw m n a) m.c 1 [.sreg n.toNat (movwValue f n a)] :=
  State.plain_ok h (if_neg fun ⟨hH, hm⟩ => ha.elim (· hH) fun ht => by simp [ht] at hm)

theorem State.movw_traps (h : s.Runs f (.movw m n a) m.g) (hH : (sregInfo n.toNat).map (·.2) = some 2) (hm : f.arch.handler = false) :
    s.Traps f (.movw m n a) (mkCause 5 0) (n.setWidth 64) :=
  State.plain_raise h (if_pos ⟨hH, by simp [hm]⟩)

end

/-! ### A special register alone in its group -/

theorem Fibre.setSreg_uid (f : Fibre) (k : Nat) (v : DWord) : (f.setSreg k v).uid = f.uid := by
  unfold Fibre.setSreg
  split <;> rfl

theorem Fibre.setSreg_arch_congr {f g : Fibre} (h : f.arch = g.arch) (k : Nat) (v : DWord) : (f.setSreg k v).arch = (g.setSreg k v).arch := by
  unfold Fibre.setSreg
  split <;> simp only [h]

/-- Of the special registers only %tgprog stands outside the fibre. -/
theorem State.applyCrew_sreg (f : Fibre) (s : State) {k : Nat} (hk : k ≠ 35) (v : DWord) : State.applyCrew f s (.sreg k v) = s := by
  unfold State.applyCrew
  split
  · rename_i h; cases h
  · rename_i h; cases h; exact absurd rfl hk
  · rename_i h; cases h
  · rfl

/-- A group that writes one special register of its fibre, unchained, takes effect on the fibre. -/
theorem State.commit_sreg (s : State) (f : Fibre) (og : OpenGroup) {k : Nat} {v : DWord} (hk : k ≠ 35) (h : og.fx = [.sreg k v]) :
    s.commit f og = s.issuedAs f ((s.moved f og []).setSreg k v) 1 := by
  have hd : dropSent f.sent [.sreg k v] = [.sreg k v] := by cases f.sent <;> rfl
  have hc := fun t => State.applyCrew_sreg f t hk v
  unfold State.commit State.takeEffect
  rw [h, hd]
  exact hc _

/-- A special register of the fibre written alone in its group: the fibre's registers with it, and the PC past the word. -/
theorem State.leaves_sreg {s : State} {f : Fibre} {i : Instr} {chains : Bool} {words k : Nat} {v : DWord} {arch : ArchState}
    (hi : s.issuer = some f) (hk : k ≠ 35) (h : s.Issues f i chains words [.sreg k v])
    (ha : (Fibre.setSreg { f with arch := { f.arch with pc := f.arch.pc + BitVec.ofNat 32 words } } k v).arch = arch) :
    s.Leaves f i chains words [.sreg k v] arch := by
  refine ⟨h, fun _ hg => ?_⟩
  rw [State.adds_alone f words _ hg, State.commit_sreg s f _ hk rfl]
  generalize hG : s.moved f ((OpenGroup.fresh f).add words [.sreg k v]) [] = G
  rw [State.moved_fresh] at hG
  have hu : (G.setSreg k v).uid = f.uid := by rw [Fibre.setSreg_uid, ← hG]
  have hA : G.arch = { f.arch with pc := f.arch.pc + BitVec.ofNat 32 words } := by rw [← hG]
  exact ⟨⟨_, State.issuedAs_fibre 1 hi hu, (Fibre.setSreg_arch_congr hA k v).trans ha⟩, State.issuedAs_onlyFibre 1 hu⟩

/-- %tgprog of the fibre's crew after a write (R322). -/
theorem State.applyCrew_tgprog {s : State} {f : Fibre} {co : Cohort} {w : Crew} (v : DWord) (hc : s.cohort? f.cohort = some co)
    (hw : co.crew? f.crew = some w) : (State.applyCrew f s (.sreg 35 v)).HasCrew f.cohort f.crew { w with tgprog := v } :=
  State.HasCrew.updCrew (fun _ => rfl) ⟨co, hc, hw⟩

section
variable {s : State} {f : Fibre} {m : Plain} {d a n : RegIx}

theorem State.sreg_level (s : State) (f : Fibre) {i : Nat} (hi : i < 8) : s.sreg f (8 + i) = (f.arch.levels.getD i 0).setWidth 64 := by
  unfold State.sreg
  rw [if_pos ⟨by omega, by omega⟩, Nat.add_sub_cancel_left]

theorem State.sreg_extent (s : State) (f : Fibre) {i : Nat} (hi : i < 8) : s.sreg f (16 + i) = (f.arch.extents.getD i 0).setWidth 64 := by
  unfold State.sreg
  rw [if_neg (by omega), if_pos ⟨by omega, by omega⟩, Nat.add_sub_cancel_left]

theorem State.sreg_space (s : State) (f : Fibre) {i : Nat} (hi : i < 4) : s.sreg f (40 + i) = (f.arch.spaces.getD i 0).setWidth 64 := by
  unfold State.sreg
  rw [if_neg (by omega), if_neg (by omega), if_pos ⟨by omega, by omega⟩, Nat.add_sub_cancel_left]

/-- The level, extent and space registers take one register each. -/
theorem sregRegs_one {k i : Nat} (hk : k = 8 ∧ i < 8 ∨ k = 16 ∧ i < 8 ∨ k = 40 ∧ i < 4) (hn : n.toNat = k + i) : sregRegs n = 1 := by
  unfold sregRegs
  rw [hn]
  rcases hk with ⟨rfl, hi⟩ | ⟨rfl, hi⟩ | ⟨rfl, hi⟩ <;> interval_cases i <;> rfl

theorem regIx_eq {k : Nat} (h : n.toNat = k) : n = BitVec.ofNat 6 k := by
  subst h
  simp
end

/-- `movw` of a register of its own fibre. -/
theorem State.movw_leaves {s : State} {f : Fibre} {m : Plain} {n a : RegIx} {v : DWord} {arch : ArchState} (h : s.Runs f (.movw m n a) m.g)
    (ha : (sregInfo n.toNat).map (·.2) ≠ some 2 ∨ f.arch.handler = true) (hn : n.toNat ≠ 35) (hv : movwValue f n a = v)
    (harch : (Fibre.setSreg { f with arch := { f.arch with pc := f.arch.pc + 1 } } n.toNat v).arch = arch) :
    s.Leaves f (.movw m n a) m.c 1 [.sreg n.toNat v] arch := by
  subst hv
  exact State.leaves_sreg h.issuer hn (State.movw_issues h ha) harch

/-- Settles O33: `movs` by the rows of Table 5.6, each read by its own number (`State.movs_gives`), `movw` by the registers that it may write. -/
theorem specialRegisterWordsMoveTheirRegister : Obligations.SpecialRegisterWordsMoveTheirRegister := by
  intro s f m d a n
  refine ⟨fun h k v hv => ?table, fun h i => ⟨fun hi hn => ?level, fun hi hn => ?extent, fun hi hn => ?space⟩, fun h hn w hw => ?tgprog, fun h => ?any,
    fun h => ⟨fun hn hm => ?trap, ?setPword, ?setFflags, ?setEpc, ?setRepc, ?setFrm, ?setCause, ?setTval, ?setTgprog, ?setSpace,
      fun ha => ⟨_, State.movw_issues h ha⟩⟩⟩
  case table =>
    have row : sregRegs n = k ∧ s.sreg f n.toNat = v := by
      simp only [List.mem_cons, Prod.mk.injEq, List.not_mem_nil, or_false] at hv
      rcases hv with ⟨hn, rfl, rfl⟩ | ⟨hn, rfl, rfl⟩ | ⟨hn, rfl, rfl⟩ | ⟨hn, rfl, rfl⟩ | ⟨hn, rfl, rfl⟩ | ⟨hn, rfl, rfl⟩ | ⟨hn, rfl, rfl⟩ |
        ⟨hn, rfl, rfl⟩ | ⟨hn, rfl, rfl⟩ | ⟨hn, rfl, rfl⟩ | ⟨hn, rfl, rfl⟩ | ⟨hn, rfl, rfl⟩ | ⟨hn, rfl, rfl⟩ | ⟨hn, rfl, rfl⟩ | ⟨hn, rfl, rfl⟩ |
        ⟨hn, rfl, rfl⟩ | ⟨hn, rfl, rfl⟩ | ⟨hn, rfl, rfl⟩ | ⟨hn, rfl, rfl⟩ | ⟨hn, rfl, rfl⟩ | ⟨hn, rfl, rfl⟩ | ⟨hn, rfl, rfl⟩ | ⟨hn, rfl, rfl⟩
      all_goals
        obtain rfl := regIx_eq hn
        exact ⟨rfl, rfl⟩
    exact State.movs_gives h row.1 row.2
  case level => exact State.movs_gives_one h (sregRegs_one (.inl ⟨rfl, hi⟩) hn) (by rw [hn, s.sreg_level f hi]) (by simp)
  case extent => exact State.movs_gives_one h (sregRegs_one (.inr (.inl ⟨rfl, hi⟩)) hn) (by rw [hn, s.sreg_extent f hi]) (by simp)
  case space => exact State.movs_gives_one h (sregRegs_one (.inr (.inr ⟨rfl, hi⟩)) hn) (by rw [hn, s.sreg_space f hi]) (by simp)
  case tgprog =>
    subst hn
    have hv : s.sreg f (35 : RegIx).toNat = w.tgprog := by
      show (((s.cohortOf f).crew? f.crew).map (·.tgprog)).getD 0 = w.tgprog
      rw [hw]
      rfl
    rw [← regWords_two]
    exact State.movs_gives h rfl hv
  case any => exact ⟨_, by simpa [regWords] using sregRegs_cases n, State.movs_gives h rfl rfl⟩
  case trap =>
    refine State.movw_traps h ?_ hm
    simp only [List.mem_cons, List.not_mem_nil, or_false] at hn
    rcases hn with hn | hn | hn | hn | hn <;> rw [hn] <;> rfl
  case setPword => rintro rfl; exact State.movw_leaves h (.inl nofun) (by decide) rfl (by simp [Fibre.setSreg])
  case setFflags => rintro rfl; exact State.movw_leaves h (.inl nofun) (by decide) rfl (by simp [Fibre.setSreg])
  case setFrm => rintro rfl; exact State.movw_leaves h (.inl nofun) (by decide) rfl (by simp [Fibre.setSreg])
  case setEpc => rintro rfl hm; exact State.movw_leaves h (.inr hm) (by decide) rfl (by simp [Fibre.setSreg])
  case setRepc => rintro rfl hm; exact State.movw_leaves h (.inr hm) (by decide) rfl (by simp [Fibre.setSreg])
  case setCause => rintro rfl hm; exact State.movw_leaves h (.inr hm) (by decide) rfl (by simp [Fibre.setSreg])
  case setTval => rintro rfl hm; exact State.movw_leaves h (.inr hm) (by decide) rfl rfl
  case setTgprog =>
    rintro rfl hm
    refine ⟨State.movw_issues h (.inr hm), fun co w hc hw => ?_⟩
    obtain ⟨c, hc', hw'⟩ := State.applyCrew_tgprog (f.VP a) hc hw
    exact ⟨c, _, hc', hw', rfl, rfl, rfl, rfl⟩
  case setSpace =>
    intro i hi hn
    interval_cases i <;> obtain rfl := regIx_eq hn <;> exact State.movw_leaves h (.inl nofun) (by decide) rfl (by simp [Fibre.setSreg])

end Sys2Proof.Machine

/-! ## O44: results and loads land

A landing writes the registers that are still its own (`Fibre.land_reg`). The return of an access changes its fibre by `MemOp.landing`, and what
it lets go on, the next step of a release or the arrival of a fence, leaves of every fibre all but the marks of those steps (`State.Paced`). A
load whose copy in the L1 is dropped reads the line that fills from memory (`State.loadValue_dev`). -/

namespace Sys2Proof.Machine

/-! ### A result that lands (R84, R437) -/

theorem lookup_filter_key (l : List (Nat × Word)) (p : Nat → Bool) (r : Nat) :
    (l.filter fun x => p x.1).lookup r = if p r then l.lookup r else none := by
  induction l with
  | nil => simp
  | cons x l ih =>
    obtain ⟨k, w⟩ := x
    by_cases hk : r = k
    · subst hk
      cases hp : p r <;> simp [hp, ih]
    · have hne : (r == k) = false := by simpa using hk
      cases hp : p k <;> simp [hp, ih, List.lookup_cons, hne]

/-- The words of consecutive registers from d on: register r takes its own word. -/
theorem lookup_zipIdx (ws : List Word) (d r : Nat) :
    (ws.zipIdx.map fun (w, i) => (d + i, w)).lookup r = if d ≤ r ∧ r < d + ws.length then some (ws.getD (r - d) 0) else none := by
  suffices h : ∀ k, ((ws.zipIdx k).map fun (w, i) => (d + i, w)).lookup r =
      if d + k ≤ r ∧ r < d + k + ws.length then some (ws.getD (r - (d + k)) 0) else none from h 0
  induction ws with
  | nil => intro k; simp
  | cons w ws ih =>
    intro k
    rw [List.zipIdx_cons, List.map_cons, List.lookup_cons, ih (k + 1)]
    by_cases hr : r = d + k
    · simp [hr]
    · have hne : (r == d + k) = false := by simpa using hr
      have hin : (d + (k + 1) ≤ r ∧ r < d + (k + 1) + ws.length) ↔ (d + k ≤ r ∧ r < d + k + (w :: ws).length) := by
        simp only [List.length_cons]
        omega
      simp only [hne, hin]
      split
      · next h =>
        have hi : r - (d + k) = r - (d + (k + 1)) + 1 := by omega
        rw [hi, List.getD_cons_succ]
      · rfl

theorem nodup_zipIdx (ws : List Word) (d : Nat) : ((ws.zipIdx.map fun (w, i) => (d + i, w)).map (·.1)).Nodup := by
  rw [List.map_map, show ((fun x : Nat × Word => x.1) ∘ fun (x : Word × Nat) => (d + x.2, x.1)) = (d + ·) ∘ Prod.snd from rfl, ← List.map_map,
    List.zipIdx_map_snd]
  exact (List.nodup_range' : (List.range' 0 ws.length).Nodup).map fun _ _ h => Nat.add_left_cancel h

namespace Fibre

theorem land_none {f : Fibre} {name : Nat} (h : f.pend.find? (·.src == .op name) = none) (regs : List (Nat × Word)) (preds : List (Nat × Bool)) :
    f.land name regs preds = f := by
  rw [land, h]

theorem land_some {f : Fibre} {name : Nat} {p : Pend} (h : f.pend.find? (·.src == .op name) = some p) (hx : f.exited = false)
    (regs : List (Nat × Word)) :
    f.land name regs [] = { f with pend := f.pend.erase p }.putRegs (regs.filter fun x => p.regs.contains x.1) := by
  simp only [land, h, hx, Bool.false_eq_true, if_false]
  rfl

/-- Of registers that land, those are written that are still the result's to write. -/
theorem land_reg {f : Fibre} {regs : List (Nat × Word)} {r : Nat} (name : Nat) (hx : f.exited = false) (hn : (regs.map (·.1)).Nodup)
    (hr : r < f.arch.regs.length) :
    (f.land name regs []).arch.regs.getD r 0 =
      if ∃ p, f.pend.find? (·.src == .op name) = some p ∧ r ∈ p.regs then (regs.lookup r).getD (f.arch.regs.getD r 0) else f.arch.regs.getD r 0 := by
  cases h : f.pend.find? (·.src == .op name) with
  | none => simp [land_none h]
  | some p =>
    rw [land_some h hx, putRegs_getD { f with pend := f.pend.erase p } _ r hr (hn.sublist (List.filter_sublist.map _)), lookup_filter_key]
    simp only [List.contains_iff_mem, Option.some.injEq, exists_eq_left']
    split <;> rfl

/-- Registers apart, a landing changes what is to land and the hoist entries alone. -/
theorem land_rest {f : Fibre} (name : Nat) (regs : List (Nat × Word)) (hx : f.exited = false) :
    f.land name regs [] = { f with
      arch := { f.arch with regs := (f.land name regs []).arch.regs }
      pend := (f.land name regs []).pend, hoist := (f.land name regs []).hoist } := by
  cases h : f.pend.find? (·.src == .op name) with
  | none => rw [land_none h]
  | some p =>
    rw [land_some h hx, putRegs_rest, putRegs_arch]

end Fibre

namespace State

variable {s t : State} {u : Nat} {f : Fibre}

/-! ### What a step of a release leaves of the fibres (R214, R216, R396) -/

/-- From s to t no byte of memory changed, and of the fibres the marks of a release's steps alone. -/
structure Paced (s t : State) : Prop where
  mem : t.mem = s.mem
  fibre : ∀ u f, s.fibre? u = some f → ∃ g, t.fibre? u = some g ∧ g = { f with flushed := g.flushed, durable := g.durable }

theorem Paced.of_eq (hm : t.mem = s.mem) (hf : t.fibres = s.fibres) : s.Paced t :=
  ⟨hm, fun u f h => ⟨f, by rw [State.fibre?, hf]; exact h, rfl⟩⟩

theorem Paced.refl (s : State) : s.Paced s := .of_eq rfl rfl

theorem Paced.trans {r : State} (h : r.Paced s) (k : s.Paced t) : r.Paced t where
  mem := k.mem.trans h.mem
  fibre u f hf := by
    obtain ⟨g, hg, eg⟩ := h.fibre u f hf
    obtain ⟨g', hg', eg'⟩ := k.fibre u g hg
    refine ⟨g', hg', ?_⟩
    rw [eg', eg]

theorem Paced.foldl {α : Type} {g : State → α → State} {l : List α} (hg : ∀ (s : State), ∀ x ∈ l, s.Paced (g s x)) (s : State) :
    s.Paced (l.foldl g s) :=
  List.foldlRecOn (motive := s.Paced) l g (.refl s) fun t ht x hx => ht.trans (hg t x hx)

theorem Paced.updFibre {g : Fibre → Fibre} (hg : ∀ f, g f = { f with flushed := (g f).flushed, durable := (g f).durable }) :
    s.Paced (s.updFibre u g) where
  mem := rfl
  fibre v f hf := by
    have hu : ∀ f : Fibre, f.uid = u → (g f).uid = u := fun f h => by rw [hg f]; exact h
    rw [fibre?_updFibre hu, hf]
    refine ⟨_, rfl, ?_⟩
    dsimp only
    split
    · exact hg f
    · rfl

/-- An access that is translated after it is sent moves no counter of its fibre. -/
theorem sendMem_late {name : Nat} {r : MemReq} (h : r.kind.late = true) : s.Paced (s.sendMem u name r) := by
  obtain ⟨kind, _, _, _, _, _, _, _, _⟩ := r
  unfold sendMem
  split
  · exact .refl s
  · cases kind with
    | load | store | atom => cases h
    | joinDec | writeBack => exact .of_eq rfl rfl

theorem writeBackReq_late {c : Cohort} {l : StashLine} {r : MemReq} (h : writeBackReq c l = some r) : r.kind.late = true := by
  unfold writeBackReq at h
  split at h
  · split at h
    · cases h
    · cases h
      rfl
  · cases h

theorem writeBacks_paced (s : State) (uid cohort : Nat) (p : Nat → Bool) : s.Paced (s.writeBacks uid cohort p) := by
  unfold writeBacks
  split
  · exact .refl s
  · next c _ =>
    extract_lets rs base s₁ s₂
    have h₁ : s.Paced s₁ := by
      refine Paced.foldl (fun t x hx => ?_) s
      obtain ⟨l, _, hl⟩ := List.mem_filterMap.1 (List.fst_mem_of_mem_zipIdx hx)
      obtain ⟨r, hr, e⟩ := Option.map_eq_some_iff.1 hl
      have hlate : x.1.1.kind.late = true := by rw [← e]; exact writeBackReq_late hr
      exact (sendMem_late hlate).trans (.of_eq rfl rfl)
    exact h₁.trans (.of_eq rfl rfl)

theorem releaseStep2_paced (s : State) (uid : Nat) : s.Paced (s.releaseStep2 uid) := by
  unfold releaseStep2
  split
  · exact .refl s
  · split
    · exact .refl s
    · split
      · exact .refl s
      · exact (Paced.updFibre fun _ => rfl).trans (writeBacks_paced _ _ _ _)

theorem refreshUnits_paced (s : State) (ctx : Nat) : s.Paced (s.refreshUnits ctx) := by
  unfold refreshUnits
  split
  · exact .refl s
  · exact .of_eq rfl rfl

theorem rcvStart_paced (s : State) (uid : Nat) : s.Paced (s.rcvStart uid) := by
  unfold rcvStart
  split
  · exact .refl s
  · next f _ =>
    extract_lets ctx s₁
    have h₁ : s.Paced s₁ := refreshUnits_paced s ctx
    split
    · exact h₁
    · dsimp only
      split
      · exact h₁
      · refine (h₁.trans (Paced.updFibre (u := uid) fun _ => rfl)).trans (Paced.foldl (fun t x _ => ?_) _)
        exact .of_eq rfl rfl

/-- The next step of a release changes of its fibre the marks of the steps alone. -/
theorem releaseAdvance_paced (s : State) (uid : Nat) : s.Paced (s.releaseAdvance uid) := by
  unfold releaseAdvance
  split
  · exact .refl s
  · split
    · split
      · split
        · exact .refl s
        · exact rcvStart_paced s uid
      · split
        · exact .refl s
        · exact releaseStep2_paced s uid
    · exact releaseStep2_paced s uid

theorem arriveFence_paced (s : State) (uid : Nat) : s.Paced (s.arriveFence uid) := by
  unfold arriveFence
  split
  · exact .refl s
  · split
    · dsimp only
      split
      · exact .of_eq rfl rfl
      · exact .refl s
    · exact .refl s

end State

/-! ### Loads and atomics return (R201, R212, R235, R239) -/

theorem Ty.length_words (t : Ty) (x : Nat) : (t.words x).length = t.regs := by
  cases t <;> simp [Ty.words, Ty.regs, Ty.bits]

theorem Fibre.returned_rest (f : Fibre) (n : Nat) : f.returned n = { f with acq := (f.returned n).acq } := by
  unfold Fibre.returned
  split <;> rfl

namespace MemOp

/-- The fibre of an access that returns, its registers yet to be written: its counter, %gwct and its acquire. -/
def counted (o : MemOp) (f : Fibre) : Fibre := (f.dropLd.raiseGwct o.gwct).returned o.id

/-- The words that an access's value puts into its registers. -/
def results (o : MemOp) : List (Nat × Word) := (o.req.ty.words o.value).zipIdx.map fun (w, i) => (o.req.dst + i, w)

/-- The fibre to which an unpoisoned access of it has returned, at a time. -/
def landing (o : MemOp) (now : Nat) (f : Fibre) : Fibre :=
  let g := (o.counted f).land o.id o.results []
  if o.req.hoist && (o.counted f).awaits o && !g.exited && o.expiry != 0 then
    g.record now { reg := o.req.dst, addr := o.req.addr, size := o.req.size, target := o.req.target, expiry := o.expiry }
  else g

variable {o : MemOp} {now : Nat} {f : Fibre}

theorem counted_eq (o : MemOp) (f : Fibre) :
    o.counted f = { f with ld := f.ld - 1, arch := { f.arch with gwct := max f.arch.gwct o.gwct }, acq := (o.counted f).acq } :=
  Fibre.returned_rest _ _

/-- A hoist entry apart, the access lands. -/
theorem landing_eq (o : MemOp) (now : Nat) (f : Fibre) :
    o.landing now f = { (o.counted f).land o.id o.results [] with hoist := (o.landing now f).hoist } := by
  unfold landing
  dsimp only
  split <;> rfl

theorem landing_uid : (o.landing now f).uid = f.uid := by
  rw [landing_eq, counted_eq]
  exact Fibre.land_uid _ _ _ _

theorem landing_rest (hx : f.exited = false) :
    (o.landing now f).ld = f.ld - 1 ∧
      (o.landing now f).arch = { f.arch with gwct := max f.arch.gwct o.gwct, regs := (o.landing now f).arch.regs } := by
  have hx' : (o.counted f).exited = false := by rw [counted_eq]; exact hx
  rw [landing_eq, Fibre.land_rest _ _ hx', counted_eq]
  exact ⟨rfl, rfl⟩

theorem lookup_results (r : Nat) : o.results.lookup r =
    if o.req.dst ≤ r ∧ r < o.req.dst + o.req.ty.regs then some ((o.req.ty.words o.value).getD (r - o.req.dst) 0) else none := by
  rw [results, lookup_zipIdx, Ty.length_words]

theorem landing_reg (hx : f.exited = false) {r : Nat} (hr : r < f.arch.regs.length) :
    (o.landing now f).arch.regs.getD r 0 =
      if o.req.dst ≤ r ∧ r < o.req.dst + o.req.ty.regs ∧ ∃ p, f.pend.find? (·.src == .op o.id) = some p ∧ r ∈ p.regs
      then (o.req.ty.words o.value).getD (r - o.req.dst) 0 else f.arch.regs.getD r 0 := by
  have hland : ((o.counted f).land o.id o.results []).arch.regs.getD r 0 = _ :=
    Fibre.land_reg o.id (by rw [counted_eq]; exact hx) (nodup_zipIdx _ _) (by rw [counted_eq]; exact hr)
  rw [landing_eq]
  refine hland.trans ?_
  rw [counted_eq, lookup_results]
  dsimp only
  split <;> split <;> simp_all

end MemOp

namespace State
variable {s : State} {f : Fibre} {o : MemOp}

/-- An access without poison returns: its fibre lands, then what its return lets go on. -/
theorem returnOp_eq (hp : o.poison = false) : s.returnOp o =
    ((((s.raiseSlot (((s.fibre? o.uid).map fun f => (s.cohortOf f).slot).getD 0) o.gwct).dropOp o.id).updFibre o.uid
      (o.landing (s.ltimeAt (dieOfHearth o.hearth)))).releaseAdvance o.uid).arriveFence o.uid := by
  unfold returnOp
  simp only [hp, Bool.false_and, Bool.false_eq_true, if_false]
  rfl

/-- What the return of an access without poison leaves of its fibre and of memory. -/
theorem returnOp_lands (hf : s.fibre? o.uid = some f) (hx : f.exited = false) (hp : o.poison = false) :
    ∃ g, (s.returnOp o).fibre? o.uid = some g ∧ g.ld = f.ld - 1 ∧ g.arch.gwct = max f.arch.gwct o.gwct ∧ g.arch.pc = f.arch.pc ∧
      (s.returnOp o).mem = s.mem ∧ ∀ r, r < f.arch.regs.length → g.arch.regs.getD r 0 =
        if o.req.dst ≤ r ∧ r < o.req.dst + o.req.ty.regs ∧ ∃ p, f.pend.find? (·.src == .op o.id) = some p ∧ r ∈ p.regs
        then (o.req.ty.words o.value).getD (r - o.req.dst) 0 else f.arch.regs.getD r 0 := by
  rw [returnOp_eq hp]
  generalize hs : s.raiseSlot _ o.gwct = s₁
  have hm : s₁.mem = s.mem := by rw [← hs, raiseSlot_mem]
  have hf₁ : (s₁.dropOp o.id).fibre? o.uid = some f := by
    rw [← hs, ← hf, raiseSlot]
    split <;> rfl
  generalize s.ltimeAt _ = now
  have hland : ((s₁.dropOp o.id).updFibre o.uid (o.landing now)).fibre? o.uid = some (o.landing now f) := by
    rw [fibre?_updFibre_same _ _ _ (fun _ h => MemOp.landing_uid.trans h), hf₁]
    rfl
  have hpace := (releaseAdvance_paced ((s₁.dropOp o.id).updFibre o.uid (o.landing now)) o.uid).trans (arriveFence_paced _ o.uid)
  obtain ⟨g, hg, eg⟩ := hpace.fibre _ _ hland
  obtain ⟨hld, harch⟩ := MemOp.landing_rest (o := o) (now := now) hx
  have hga : g.arch = (o.landing now f).arch := by rw [eg]
  refine ⟨g, hg, by rw [eg]; exact hld, by rw [hga, harch], by rw [hga, harch], hpace.mem.trans hm, fun r hr => ?_⟩
  rw [hga, MemOp.landing_reg hx hr]

/-! ### A load that reads at the L2 (R201) -/

/-- A run of bytes within a run. -/
theorem bytes_drop_take (m : Memory) (a k n w : Nat) (h : k + n ≤ w) :
    (((List.range w).map fun i => m.get (a + i)).drop k).take n = m.bytes (a + k) n := by
  refine List.ext_getElem (by simp; omega) fun i _ hi => ?_
  have hin : i < n := by simpa using hi
  rw [← List.getD_eq_getElem _ 0 hi, Memory.bytes_getD m (a + k) n i hin]
  simp [Nat.add_assoc]

/-- A line that fills from the L2 holds what stands in memory, and no fibre changes. -/
theorem l1Fill_spec (s : State) (hearth lease line : Nat) :
    ∃ t c, s.l1Fill hearth none lease line = (t, c) ∧ t.mem = s.mem ∧ t.fibres = s.fibres ∧
      c.bytes = (List.range 64).map fun i => s.mem.get (line * 64 + i) := by
  obtain ⟨_, honly⟩ := grantLease_spec s (dieOfHearth hearth) false (line / 4) lease
  unfold l1Fill
  dsimp only
  generalize s.grantLease (dieOfHearth hearth) false (line / 4) lease = r at honly
  obtain ⟨t, e⟩ := r
  replace honly : s.L2Only t := honly
  have hm : t.mem = s.mem := by rw [honly]
  have hf : t.fibres = s.fibres := by rw [honly]
  exact ⟨_, _, rfl, hm, hf, by rw [← hm]; rfl⟩

/-- A load whose L1 copy is dropped, from a sound target of this device, reads what stands in memory. -/
theorem loadValue_dev {s : State} {f : Fibre} {r : MemReq} {pa : Nat} (hf : s.fibre? f.uid = some f) (ht : r.target = .dev pa)
    (hline : pa % 64 + r.size ≤ 64) (hp : s.poisoned r.target r.size = false) (hn : (s.slotOf f).node = none) :
    ∃ t e last, s.loadValue f r true = (t, s.mem.readLE pa r.size, false, e) ∧ t.mem = s.mem ∧ t.fibre? f.uid = some { f with lastL2 := last } := by
  obtain ⟨s₁, hs₁⟩ : ∃ s₁, s₁ = s.updHearth (s.hearthOf f) fun x => { x with l1 := x.l1.filter fun l => l.line != pa / 64 } := ⟨_, rfl⟩
  have hgone : s₁.l1Live (s.hearthOf f) (pa / 64) = none := by
    rw [hs₁, l1Live, hearth_updHearth _ _ _ _ (by simp), if_pos rfl]
    simp only [List.find?_eq_none, List.mem_filter]
    rintro l ⟨_, hl⟩
    simp_all
  have hsound : s₁.poisonedFor none (.dev pa) r.size = false := by
    rw [hs₁, ← hp, ht]
    rfl
  obtain ⟨t, c, hfill, hm, hfib, hbytes⟩ := l1Fill_spec s₁ (s.hearthOf f) (s.slotOf f).leaseNs (pa / 64)
  have hmem : s₁.mem = s.mem := by rw [hs₁]; rfl
  have hval : leNat ((c.bytes.drop (pa % 64)).take r.size) = s.mem.readLE pa r.size := by
    rw [hbytes, bytes_drop_take _ _ _ _ _ hline, hmem, Nat.div_add_mod' pa 64]
    rfl
  have hft : t.fibre? f.uid = some f := by
    rw [fibre?, hfib, hs₁]
    exact hf
  refine ⟨t.updFibre f.uid fun g => g.setLast (pa / 64) c.stamp, c.expiry, (f.setLast (pa / 64) c.stamp).lastL2, ?_, hm.trans hmem, ?_⟩
  · unfold loadValue
    simp only [ht, if_true, ← hs₁, hgone, Option.filter_none, hn, hsound, Bool.false_eq_true, if_false, hfill, hval]
  · rw [fibre?_updFibre_same t f.uid (fun g => g.setLast (pa / 64) c.stamp) fun _ h => h, hft]
    rfl

end State

/-! ### The events -/

/-- A result in its latency lands, the n-th in turn of those that there are. -/
def Fibre.landsLane (f : Fibre) (n : Nat) : Fibre :=
  match (f.pend.filter (·.src == .lane))[n % max 1 (f.pend.filter (·.src == .lane)).length]? with
  | some p => { f with pend := f.pend.erase p }
  | none => f

theorem Fibre.landsLane_uid (f : Fibre) (n : Nat) : (f.landsLane n).uid = f.uid := by
  unfold landsLane
  split <;> rfl

theorem Fibre.landsLane_of {f : Fibre} (h : ∃ p ∈ f.pend, p.src = .lane) (n : Nat) :
    ∃ p ∈ f.pend, p.src = .lane ∧ f.landsLane n = { f with pend := f.pend.erase p } := by
  obtain ⟨q, hq, hqs⟩ := h
  have hmem : q ∈ f.pend.filter (·.src == .lane) := List.mem_filter.2 ⟨hq, by simp [hqs]⟩
  have hpos := List.length_pos_of_mem hmem
  have hlt : n % max 1 (f.pend.filter (·.src == .lane)).length < (f.pend.filter (·.src == .lane)).length :=
    Nat.lt_of_lt_of_eq (Nat.mod_lt _ (by omega)) (by omega)
  obtain ⟨hp, hs⟩ := List.mem_filter.1 (List.getElem_mem hlt)
  refine ⟨_, hp, by simpa using hs, ?_⟩
  rw [landsLane, List.getElem?_eq_getElem hlt]

namespace State
variable {s : State} {f : Fibre} {o : MemOp}

/-- A result in its latency lands: one of those that there are, whichever is chosen. -/
theorem exec_resultWriteback {u : Nat} (hf : s.fibre? u = some f) (h : ∃ p ∈ f.pend, p.src = .lane) :
    ∃ p ∈ f.pend, p.src = .lane ∧ ∃ t, exec (.resultWriteback u) s = .next t ∧ t.fibre? u = some { f with pend := f.pend.erase p } ∧
      (∀ v, v ≠ u → t.fibre? v = s.fibre? v) ∧ t = { s with fibres := t.fibres } := by
  obtain ⟨p, hp, hs, e⟩ := Fibre.landsLane_of h (Config.choice s.run.tick 13 u)
  refine ⟨p, hp, hs, s.updFibre u (·.landsLane (Config.choice s.run.tick 13 u)), rfl, ?_, fun v hv => ?_, rfl⟩
  · rw [fibre?_updFibre_same _ _ _ fun f h => (f.landsLane_uid _).trans h, hf, Option.map_some, e]
  · exact fibre?_updFibre_other _ _ _ _ (fun f h => (f.landsLane_uid _).trans h) hv

/-- An access that has been performed returns. -/
theorem exec_loadReturn_performed {op : Nat} {evict : Bool} (ho : s.op? op = some o) (hf : s.fibre? o.uid = some f)
    (hk : o.req.kind = .load ∨ ∃ k, o.req.kind = .atom k) (hp : o.performed = true) :
    exec (.loadReturn op evict) s = .next (s.returnOp o) := by
  show execLoadReturn op evict s = _
  obtain hk | ⟨k, hk⟩ := hk <;> simp only [execLoadReturn, ho, hk, hf, hp, if_true]

/-- A load that nothing of its fibre stands before takes its value and returns. -/
theorem exec_loadReturn_load {op : Nat} {evict : Bool} {t : State} {v e : Nat} {bad : Bool} (ho : s.op? op = some o) (hf : s.fibre? o.uid = some f)
    (hk : o.req.kind = .load) (hp : o.performed = false) (hold : s.olderOverlap o (fun _ => true) = false) (hlink : o.req.target.linked s = true)
    (hv : s.loadValue f o.req evict = (t, v, bad, e)) :
    exec (.loadReturn op evict) s =
      .next (t.returnOp { o with performed := true, value := v, poison := bad || o.poison, expiry := e }) := by
  have hans : s.answers f o.req.target = true := by simp [answers, hlink]
  show execLoadReturn op evict s = _
  simp only [execLoadReturn, ho, hk, hf, hp, hold, hans, hlink, Bool.not_true, Bool.or_self, Bool.false_eq_true, if_false, Bool.and_true, hv]

end State

/-- Settles O44: a result that is chosen among those in their latency (`Fibre.landsLane_of`), a pipe's entry, and an access that returns to its
fibre (`State.returnOp_lands`), a load with what memory holds at its address (`State.loadValue_dev`). -/
theorem resultsAndLoadsLand : Obligations.ResultsAndLoadsLand := by
  intro s
  refine ⟨fun u f hf h => State.exec_resultWriteback hf h, fun h g l cls hm => ?_, fun op evict o f ho hf hx =>
    ⟨fun hk hp hq => ?_, fun pa hk hp hq hold ht hup hline hs hn => ?_⟩⟩
  · show Host.Outcome.next _ = _
    rw [if_pos (by simpa using hm)]
    rfl
  · obtain ⟨g, hg⟩ := State.returnOp_lands hf hx hq
    exact ⟨_, g, State.exec_loadReturn_performed ho hf hk hp, hg⟩
  · have huid := State.fibre?_uid hf
    rw [← huid] at hf
    obtain ⟨t, e, last, hv, hm, hft⟩ := State.loadValue_dev hf ht hline hs hn
    rw [huid] at hft hf
    have hlink : o.req.target.linked s = true := by simp [ht, Target.linked, hup]
    have hexec := State.exec_loadReturn_load ho hf hk hp hold hlink hv
    obtain ⟨g, hg, hld, hgw, hpc, hmem, hregs⟩ :=
      State.returnOp_lands (s := t) (o := { o with performed := true, value := _, poison := false || o.poison, expiry := e }) hft hx hq
    exact ⟨_, g, hexec, hg, hld, hgw, hpc, hmem.trans hm, hregs⟩

end Sys2Proof.Machine

/-! ## O48: waits end

An event that wakes changes the fibres that waited, each by one map over the list that holds them. A counter that is read again, a service and a
`tlbi` first change what is no fibre: the lines of the L2 (`State.L2Only`), the memory (`State.engRead_fibres`), the translations
(`State.hearth_tlbDrop`). -/

namespace Sys2Proof.Machine

namespace State

variable {s t : State} {u : Nat} {f : Fibre}

/-! ### Sleepers and device barriers (R162, R171) -/

/-- The fibre without its sleeps whose time has come. -/
def woken (s : State) (f : Fibre) : Fibre :=
  { f with waits := f.waits.filter fun w => match w with | .sleep _ => !s.waitOver f w | _ => true }

theorem sleepWake_eq (hf : s.fibre? u = some f) : exec (.sleepWake u) s = .next (s.setFibre (s.woken f)) := by
  show execSleepWake u s = _
  simp only [execSleepWake, hf]
  rfl

/-- A sleeper whose time has come wakes. -/
theorem sleepWake_wakes {n : Nat} (hf : s.fibre? u = some f) (hn : n ≤ s.ltimeAt (dieOfHearth (s.hearthOf f))) :
    ∃ t g, exec (.sleepWake u) s = .next t ∧ t.fibre? u = some g ∧ Wait.sleep n ∉ g.waits ∧ g.arch = f.arch ∧
      (∀ v, v ≠ u → t.fibre? v = s.fibre? v) ∧ t = { s with fibres := t.fibres } := by
  have hu : (s.woken f).uid = u := show f.uid = u from fibre?_uid hf
  have hin : (s.fibre? (s.woken f).uid).isSome := by rw [hu, hf]; rfl
  refine ⟨_, s.woken f, sleepWake_eq hf, ?_, fun hm => ?_, rfl, fun v hv => ?_, rfl⟩
  · rw [← hu]
    exact fibre?_setFibre_same _ _ hin
  · simpa [waitOver, hn] using (List.mem_filter.1 hm).2
  · exact fibre?_setFibre_other _ _ v (by rw [hu]; exact hv)

/-- The fibres that a window wakes no longer wait at its barrier; the others stand. -/
theorem devWake_wakes {slot n : Nat} {b : DevBar} {w : Nat × List Nat} (hb : s.devBar? slot n = some b)
    (hw : (b.wakes.find? fun w => decide (w.1 ≤ s.ltime)) = some w) :
    ∃ t, exec (.devBarrierWakeWindow slot n) s = .next t ∧ t.devBar? slot n = some { b with wakes := b.wakes.erase w } ∧
      (∀ u f, u ∈ w.2 → s.fibre? u = some f → t.fibre? u = some { f with waits := f.waits.erase (.devBar n) }) ∧
      (∀ u, u ∉ w.2 → t.fibre? u = s.fibre? u) := by
  have hexec : exec (.devBarrierWakeWindow slot n) s = .next { s.updDevBar slot n fun b => { b with wakes := b.wakes.erase w } with
      fibres := s.fibres.map fun f => if w.2.contains f.uid then { f with waits := f.waits.erase (.devBar n) } else f } := by
    show Host.Outcome.next (s.devWake slot n) = _
    simp only [devWake, hb, hw]
    rfl
  have hfib : ∀ u, (s.fibres.map fun f => if w.2.contains f.uid then { f with waits := f.waits.erase (.devBar n) } else f).find? (·.uid == u) =
      (s.fibre? u).map fun f => if w.2.contains f.uid then { f with waits := f.waits.erase (.devBar n) } else f := fun u => by
    rw [List.find?_map, fibre?]
    congr 2
    funext f
    simp only [Function.comp_apply]
    split <;> rfl
  refine ⟨_, hexec, ?_, fun u f hu hf => ?_, fun u hu => ?_⟩
  · have hdev : (s.devBars.map fun b => if b.is slot n then { b with wakes := b.wakes.erase w } else b).find? (·.is slot n) =
        (s.devBar? slot n).map fun b => if b.is slot n then { b with wakes := b.wakes.erase w } else b := by
      rw [List.find?_map, devBar?]
      congr 2
      funext b
      simp only [Function.comp_apply]
      split <;> rfl
    have his : b.is slot n = true := List.find?_some (p := fun b : DevBar => b.is slot n) hb
    exact hdev.trans (by simp [hb, his])
  · exact (hfib u).trans (by simp [hf, fibre?_uid hf, hu])
  · refine (hfib u).trans ?_
    cases hf : s.fibre? u with
    | none => rfl
    | some f => simp [fibre?_uid hf, hu]

/-! ### `jwait` reads its counter again (R220, R279, R282) -/

theorem L2Only.foldl {α : Type} {g : State → α → State} (hg : ∀ (s : State) x, s.L2Only (g s x)) (l : List α) (s : State) :
    s.L2Only (l.foldl g s) :=
  List.foldlRecOn (motive := s.L2Only) l g (.refl s) fun t ht x _ => ht.trans (hg t x)

theorem invalidate_l2Only (s : State) (die : Nat) (host : Bool) (line : Nat) : s.L2Only (s.invalidate die host line) :=
  (L2Only.foldl (fun s _ => evictL2_l2Only s _ host line) _ s).trans rfl

theorem l2Store_l2Only (s : State) (die : Nat) (host : Bool) (line sector : Nat) : s.L2Only (s.l2Store die host line sector).1 := by
  unfold l2Store
  extract_lets s₁ s₂ horizon old new
  have h₁ : s.L2Only s₁ := invalidate_l2Only s die host line
  have h₂ : s.L2Only s₂ := by
    dsimp only [s₂]
    split
    · exact h₁
    · exact h₁.trans (makeRoom_l2Only _ _ _)
  clear_value s₂
  split
  · exact h₂.trans rfl
  · exact h₂.trans (foldHorizon_l2Only _ _ _)

theorem takeLines_l2Only (s : State) (die : Nat) (t : Target) : s.L2Only (s.takeLines die t).1 := by
  cases t with
  | dev | host => exact l2Store_l2Only _ _ _ _ _
  | peer => rfl

end State

/-- The fibre without the counter that it waits for. -/
def Fibre.leaveJwait (f : Fibre) : Fibre := { f with waits := f.waits.filter fun w => match w with | .jwait _ _ => false | _ => true }

namespace State
variable {s t : State} {u : Nat} {f : Fibre}

/-- A counter read again: the state with its lines taken, from which the wait ends, a cause is raised or the wait begins again. -/
theorem jwaitRead_again {a : GAddr} {pa : Nat} (hp : s.poisonedFor (s.slotOf f).node (.dev pa) 8 = false) :
    ∃ t, (s.updFibre f.uid Fibre.leaveJwait).L2Only t ∧
      let c : DWord := BitVec.ofNat 64 (s.targetNat (s.slotOf f).node (.dev pa) 8)
      s.jwaitRead f a (.dev pa) true =
        if c = 0 then t else if c.toInt < 0 then t.raise f.uid (mkCause 11 3) c f.head
        else t.updFibre f.uid fun g => { g with waits := g.waits ++ [.jwait a s.ltime] } := by
  have honly := takeLines_l2Only (s.updFibre f.uid Fibre.leaveJwait)
    ((s.updFibre f.uid Fibre.leaveJwait).servingDie (dieOfHearth (s.hearthOf f)) (s.slotOf f).node (.dev pa)) (.dev pa)
  generalize hr : ((s.updFibre f.uid Fibre.leaveJwait).takeLines _ _).1 = t at honly
  have hlook : s.jwaitRead f a (.dev pa) true =
      let c : DWord := BitVec.ofNat 64 (t.targetNat (t.slotOf f).node (.dev pa) 8)
      if t.poisonedFor (t.slotOf f).node (.dev pa) 8 then t.raise f.uid (mkCause 10 0) a.off f.head
      else if c = 0 then t else if c.toInt < 0 then t.raise f.uid (mkCause 11 3) c f.head
      else t.updFibre f.uid fun g => { g with waits := g.waits ++ [.jwait a t.ltime] } := by
    rw [← hr]
    rfl
  have hslot : t.slotOf f = s.slotOf f := by rw [honly]; rfl
  have hval : t.targetNat (s.slotOf f).node (.dev pa) 8 = s.targetNat (s.slotOf f).node (.dev pa) 8 := by rw [honly]; rfl
  have hsound : t.poisonedFor (s.slotOf f).node (.dev pa) 8 = false := by rw [honly]; exact hp
  have htime : t.ltime = s.ltime := by rw [honly]; rfl
  refine ⟨t, honly, ?_⟩
  rw [hlook]
  simp only [hslot, hsound, hval, htime, Bool.false_eq_true, if_false]

/-- What a counter that is read again leaves: the fibre goes on, enters its handler with 11.03, or waits anew. -/
theorem jwaitRead_leaves {a : GAddr} {pa : Nat} (hf : s.fibre? f.uid = some f) (hp : s.poisonedFor (s.slotOf f).node (.dev pa) 8 = false) :
    let c : DWord := BitVec.ofNat 64 (s.targetNat (s.slotOf f).node (.dev pa) 8)
    let t := s.jwaitRead f a (.dev pa) true
    (c = 0 → t.fibre? f.uid = some f.leaveJwait ∧ t.mem = s.mem) ∧
    (∀ h, c.toInt < 0 → f.arch.handler = false → (s.slotOf f).record.handler = h → h ≠ 0xFFFFFFFF →
      t.fibre? f.uid = some (f.leaveJwait.enter h (mkCause 11 3) c f.head) ∧ t.mem = s.mem) ∧
    (0 < c.toInt → t.fibre? f.uid = some { f.leaveJwait with waits := f.leaveJwait.waits ++ [.jwait a s.ltime] } ∧ t.mem = s.mem) := by
  intro c
  obtain ⟨t, honly, hread⟩ := jwaitRead_again (a := a) hp
  dsimp only at hread
  have hft : t.fibre? f.uid = some f.leaveJwait := by
    rw [honly]
    exact (fibre?_updFibre_same s f.uid Fibre.leaveJwait fun _ h => h).trans (by rw [hf]; rfl)
  have hmem : t.mem = s.mem := by rw [honly]; rfl
  have hslot : t.slotOf f.leaveJwait = s.slotOf f := by rw [honly]; rfl
  rw [hread]
  refine ⟨fun hc => ?_, fun h hc hh he hn => ?_, fun hc => ?_⟩
  · rw [if_pos hc]
    exact ⟨hft, hmem⟩
  · have hne : c ≠ 0 := fun e => by simp [e] at hc
    have henter := raise_enters (c := mkCause 11 3) (tv := c) (pc := f.head) hft (by decide) hh (by rw [hslot]; exact handlerPc_of_ne he hn)
    rw [if_neg hne, if_pos hc, henter]
    exact ⟨(fibre?_updFibre_same t f.uid (fun g => g.enter h (mkCause 11 3) c f.head) fun _ h => h).trans (by rw [hft]; rfl), hmem⟩
  · have hne : c ≠ 0 := fun e => by simp [e] at hc
    have hge : ¬c.toInt < 0 := not_lt.2 hc.le
    rw [if_neg hne, if_neg hge]
    exact ⟨(fibre?_updFibre_same t f.uid (fun g => { g with waits := g.waits ++ [.jwait a s.ltime] }) fun _ h => h).trans (by rw [hft]; rfl), hmem⟩

/-- The reread of a counter whose time has come, at an address that this device serves. -/
theorem jwaitReread_reads {a : GAddr} {since pa : Nat} (hf : s.fibre? u = some f)
    (hw : (f.waits.findSome? fun w => match w with | .jwait a since => some (a, since) | _ => none) = some (a, since))
    (ht : since + (s.slotOf f).leaseNs ≤ s.ltime) (hwalk : (f.waits.any fun w => match w with | .walk _ | .parked _ => true | _ => false) = false)
    (hx : f.exited = false) (hd : f.deferred = []) (hrun : (s.cohortOf f).run = .running)
    (hxl : s.translate (s.hearthOf f) (s.ctxOf f) 0 a a.off = .ok (.dev pa)) (hup : s.stackUp pa = true) :
    exec (.jwaitReread u) s = .next (s.jwaitRead f a (.dev pa) true) := by
  have hlink : Target.linked (.dev pa) s = true := by simp [Target.linked, hup]
  have htime : ¬s.ltime < since + (s.slotOf f).leaseNs := by omega
  show execJwaitReread u s = _
  simp only [execJwaitReread, hf]
  split
  · next hm => cases hm.symm.trans hw
  · next b m hm =>
    obtain ⟨rfl, rfl⟩ := Prod.mk.inj (Option.some.inj (hm.symm.trans hw))
    rw [if_neg, hxl]
    · simp only [hlink, if_true]
    · intro hc
      simp only [hx, htime, hd, hrun, decide_false, List.isEmpty_nil, Bool.not_true, bne_self_eq_false, Bool.or_false] at hc
      cases hc.symm.trans hwalk

/-- Before its time has come, a counter is not read again. -/
theorem jwaitReread_early {a : GAddr} {since : Nat} (hf : s.fibre? u = some f)
    (hw : (f.waits.findSome? fun w => match w with | .jwait a since => some (a, since) | _ => none) = some (a, since))
    (ht : s.ltime < since + (s.slotOf f).leaseNs) : exec (.jwaitReread u) s = .next s := by
  show execJwaitReread u s = _
  simp only [execJwaitReread, hf]
  split
  · rfl
  · next b m hm =>
    obtain ⟨rfl, rfl⟩ := Prod.mk.inj (Option.some.inj (hm.symm.trans hw))
    rw [if_pos]
    simp [ht]

/-! ### Fetches (R81) -/

/-- A packet that is fetched stands ready in its fibre. -/
theorem instructionFetchComplete_ready {bs : List Byte} (hf : s.fibre? u = some f) (hx : f.exited = false)
    (hwalk : (f.waits.any fun w => match w with | .walk _ | .parked _ => true | _ => false) = false)
    (hbuf : ∀ p, f.ibuf = some p → p.number ≠ f.arch.pc.toNat / 3) (hrun : (s.cohortOf f).run = .running) (hturn : u ∉ s.run.issuing)
    (hbytes : s.fetchBytes f ((s.slotOf f).record.codeBase + 12 * (f.arch.pc.toNat / 3)) = .bytes bs) :
    ∃ t, exec (.instructionFetchComplete u) s = .next t ∧ t = { s with fibres := t.fibres } ∧
      t.fibre? u = some { f with ibuf := some ⟨f.arch.pc.toNat / 3, bytesWords bs 3⟩ } := by
  have hexec : exec (.instructionFetchComplete u) s =
      .next (s.updFibre u fun g => { g with ibuf := some ⟨f.arch.pc.toNat / 3, bytesWords bs 3⟩ }) := by
    show execInstructionFetchComplete u s = _
    simp only [execInstructionFetchComplete, hf]
    rw [if_neg, hbytes]
    intro hc
    have hnew : (f.ibuf.map (·.number) == some (f.arch.pc.toNat / 3)) = false := by
      rw [beq_eq_false_iff_ne]
      intro e
      obtain ⟨p, hp, hn⟩ := Option.map_eq_some_iff.1 e
      exact hbuf p hp hn
    have hidle : s.run.issuing.contains u = false := by simpa using hturn
    simp only [hx, hnew, hrun, hidle, bne_self_eq_false, Bool.or_false] at hc
    cases hc.symm.trans hwalk
  refine ⟨_, hexec, rfl, ?_⟩
  rw [fibre?_updFibre_same s u (fun g => { g with ibuf := some ⟨f.arch.pc.toNat / 3, bytesWords bs 3⟩ }) fun _ h => h, hf]
  rfl

end State
/-! ### Services (R386) -/

/-- The state that a unit's translation answers has the fibres of another state. -/
def UnitXlate.keepsFibres (s : State) : UnitXlate → Prop
  | .ok t _ => t.fibres = s.fibres
  | _ => True

/-- The state that an access of a unit answers has the fibres of another state. -/
def EngAcc.keepsFibres (s : State) : EngAcc → Prop
  | .ok t _ _ => t.fibres = s.fibres
  | _ => True

namespace State
variable {s t : State} {u : Nat} {f : Fibre}

theorem L2Only.fibres (h : s.L2Only t) : t.fibres = s.fibres := by rw [h]

theorem unitXlate_fibres (s : State) (unit ctx kind : Nat) (a : GAddr) : (s.unitXlate unit ctx kind a).keepsFibres s := by
  unfold unitXlate
  split
  · trivial
  · split
    · split
      · exact noteWrite_fibres _ _ _
      all_goals trivial
    · split
      · rfl
      · trivial

theorem engRead1_fibres (s : State) (ctx unit : Nat) (node : Option Nat) (kind : Nat) (a : GAddr) (n : Nat) :
    (s.engRead1 ctx unit node kind a n).keepsFibres s := by
  have hx := unitXlate_fibres s unit ctx kind a
  unfold engRead1
  split
  · trivial
  · trivial
  · trivial
  · next t tg h =>
    rw [h] at hx
    split
    · trivial
    · split
      · trivial
      · cases tg with
        | dev | host => exact (l2Load_l2Only _ _ _ _).fibres.trans hx
        | peer => exact hx

theorem engRead_fibres (s : State) (ctx unit : Nat) (node : Option Nat) (kind : Nat) (a : GAddr) (n : Nat) :
    (s.engRead ctx unit node kind a n).keepsFibres s := by
  refine List.foldlRecOn (motive := EngAcc.keepsFibres s) _ _ rfl fun r hr p _ => ?_
  cases r with
  | ok t bs g =>
    have h1 := engRead1_fibres t ctx unit node kind (gplus a p.1) p.2
    dsimp only
    generalize t.engRead1 ctx unit node kind (gplus a p.1) p.2 = r1 at h1 ⊢
    cases r1 with
    | ok t1 bs1 g1 => exact Eq.trans h1 hr
    | _ => trivial
  | _ => trivial

theorem svcBytes_fibres {a : GAddr} {bs : List Byte} {bad : Bool} (h : s.svcBytes f a = (t, bs, bad)) : t.fibres = s.fibres := by
  have hr := engRead_fibres s (s.ctxOf f) (dieOfHearth (s.hearthOf f)) (s.slotOf f).node 0 a 32
  unfold svcBytes at h
  split at h
  · next e =>
    rw [e] at hr
    obtain ⟨rfl, -⟩ := Prod.mk.inj h
    exact hr
  · obtain ⟨rfl, -⟩ := Prod.mk.inj h
    rfl
  · obtain ⟨rfl, -⟩ := Prod.mk.inj h
    rfl

theorem writeRecord_fibres (s : State) (ctx : Nat) (bytes : List Byte) : (s.writeRecord ctx bytes).1.fibres = s.fibres := by
  simp only [writeRecord]
  split
  · rfl
  · split
    · exact noteWrite_fibres _ _ _
    · exact noteWrite_fibres _ _ _

/-- A reply lands in its pair, and the fibre no longer waits for it. -/
theorem svcDone_lands {w : Wait} {name dst : Nat} (v : DWord) (hf : s.fibre? f.uid = some f) (hx : f.exited = false) :
    ∃ g, (s.svcDone f w name dst v).fibre? f.uid = some g ∧ g.waits = f.waits.erase w ∧ g.arch.pc = f.arch.pc ∧
      ∀ r, r < f.arch.regs.length → g.arch.regs.getD r 0 =
        if (r = dst ∨ r = dst + 1) ∧ ∃ p, f.pend.find? (·.src == .op name) = some p ∧ r ∈ p.regs
        then (if r = dst then v.setWidth 32 else (v >>> 32).setWidth 32) else f.arch.regs.getD r 0 := by
  let regs : List (Nat × Word) := [(dst, v.setWidth 32), (dst + 1, (v >>> 32).setWidth 32)]
  have hrest := Fibre.land_rest name regs hx
  have hsame : (s.svcDone f w name dst v).fibre? f.uid = some { f.land name regs [] with waits := f.waits.erase w } := by
    refine (fibre?_updFibre_same s f.uid (fun g => { g.land name regs [] with waits := g.waits.erase w })
      fun g h => (Fibre.land_uid g _ _ _).trans h).trans ?_
    rw [hf]
    rfl
  have hpc : (f.land name regs []).arch.pc = f.arch.pc := by rw [hrest]
  refine ⟨_, hsame, rfl, hpc, fun r hr => ?_⟩
  have hreg := Fibre.land_reg (regs := regs) name hx (by simp [regs]) hr
  have hlook : regs.lookup r = if r = dst then some (v.setWidth 32) else if r = dst + 1 then some ((v >>> 32).setWidth 32) else none := by
    simp only [regs, List.lookup, beq_eq_decide]
    by_cases h0 : r = dst
    · simp [h0]
    · by_cases h1 : r = dst + 1 <;> simp [h0, h1]
  rw [hreg, hlook]
  by_cases h0 : r = dst
  · simp [h0]
  · by_cases h1 : r = dst + 1
    · simp [h1]
    · simp [h0, h1]

/-- Service 0 answers the version of the ROM. -/
theorem svcReply_version {name dst : Nat} {a : GAddr} (hf : s.fibre? u = some f)
    (hw : (f.waits.find? fun w => match w with | .svc .. => true | _ => false) = some (.svc name 0 dst a)) :
    exec (.svcReply u) s = .next (s.svcDone f (.svc name 0 dst a) name dst Config.romVersion) := by
  show execSvcReply u s = _
  simp only [execSvcReply, hf]
  split
  · next hm =>
    obtain ⟨rfl, rfl, rfl, rfl⟩ := Wait.svc.inj (Option.some.inj (hm.symm.trans hw))
    rfl
  · next hno => exact (hno _ _ _ _ hw).elim

/-- Another service writes its record and answers whether the ring took it. -/
theorem svcReply_record {name n dst : Nat} {a : GAddr} {bs : List Byte} (hf : s.fibre? u = some f) (hn : n ≠ 0)
    (hw : (f.waits.find? fun w => match w with | .svc .. => true | _ => false) = some (.svc name n dst a))
    (hb : s.svcBytes f a = (t, bs, false)) :
    let r := t.writeRecord (t.ctxOf f) (t.serviceRecord f bs)
    exec (.svcReply u) s = .next (r.1.svcDone f (.svc name n dst a) name dst (if r.2 then 0 else 1)) := by
  show execSvcReply u s = _
  simp only [execSvcReply, hf]
  split
  · next hm =>
    obtain ⟨rfl, rfl, rfl, rfl⟩ := Wait.svc.inj (Option.some.inj (hm.symm.trans hw))
    rw [if_neg hn, hb]
    rfl
  · next hno => exact (hno _ _ _ _ hw).elim

/-! ### `tlbi` (R386) -/

theorem hearth_tlbDrop {hearthIn dieIn : Nat → Bool} {p : TlbEntry → Bool} {q : Nat × Nat × Nat × Nat → Bool} {k : Nat} (hk : hearthIn k = true) :
    ∀ e ∈ ((s.tlbDrop hearthIn dieIn p q).hearth k).tlb, p e = false := by
  have hfind : (s.tlbDrop hearthIn dieIn p q).hearths.find? (·.id == k) =
      (s.hearths.find? (·.id == k)).map fun h => if hearthIn h.id then { h with tlb := h.tlb.filter fun e => !p e } else h := by
    rw [tlbDrop, List.find?_map]
    congr 2
    funext h
    simp only [Function.comp_apply]
    split <;> rfl
  intro e he
  rw [hearth, hfind] at he
  cases hh : s.hearths.find? (·.id == k) with
  | none =>
    rw [hh] at he
    cases he
  | some h =>
    have hid : h.id = k := by simpa using List.find?_some hh
    simp only [hh, Option.map_some, Option.getD_some, hid, hk, if_true, List.mem_filter] at he
    simpa using he.2

theorem die_tlbDrop {hearthIn dieIn : Nat → Bool} {p : TlbEntry → Bool} {q : Nat × Nat × Nat × Nat → Bool} {n : Nat} (hn : dieIn n = true) :
    ∀ e ∈ ((s.tlbDrop hearthIn dieIn p q).die n).tlb, p e = false := by
  have hfind : (s.tlbDrop hearthIn dieIn p q).dies.find? (·.n == n) = (s.dies.find? (·.n == n)).map fun d =>
      if dieIn d.n then { d with tlb := d.tlb.filter (fun e => !p e), walkCache := d.walkCache.filter fun x => !q x } else d := by
    rw [tlbDrop, List.find?_map]
    congr 2
    funext d
    simp only [Function.comp_apply]
    split <;> rfl
  intro e he
  rw [die, hfind] at he
  cases hd : s.dies.find? (·.n == n) with
  | none =>
    rw [hd] at he
    cases he
  | some d =>
    have hid : d.n = n := by simpa using List.find?_some hd
    simp only [hd, Option.map_some, Option.getD_some, hid, hn, if_true, List.mem_filter] at he
    simpa using he.2

theorem hearth_tlbDropPage {hearthIn dieIn : Nat → Bool} {ctx k : Nat} {a : GAddr} (hk : hearthIn k = true) :
    ∀ e ∈ ((s.tlbDropPage hearthIn dieIn ctx a).hearth k).tlb, e.covers ctx (vaOf a) = false := hearth_tlbDrop hk

theorem die_tlbDropPage {hearthIn dieIn : Nat → Bool} {ctx n : Nat} {a : GAddr} (hn : dieIn n = true) :
    ∀ e ∈ ((s.tlbDropPage hearthIn dieIn ctx a).die n).tlb, e.covers ctx (vaOf a) = false := die_tlbDrop hn

/-- The hearths whose translations a `tlbi` of a scope on a hearth drops. -/
def tlbiHearth (sc : Scope) (h x : Nat) : Bool := if sc = .hth then x == h else if sc = .die then dieOfHearth x == dieOfHearth h else true
/-- The dies whose translations a `tlbi` of a scope on a hearth drops. -/
def tlbiDie (sc : Scope) (h d : Nat) : Bool := if sc = .hth then false else if sc = .die then d == dieOfHearth h else true

theorem tlbiHearth_covered {sc : Scope} {h k : Nat} (h1 : sc = .hth → k = h) (h2 : sc = .die → dieOfHearth k = dieOfHearth h) :
    tlbiHearth sc h k = true := by
  unfold tlbiHearth
  split
  · next e => simp [h1 e]
  · split
    · next e => simp [h2 e]
    · rfl

theorem tlbiDie_covered {sc : Scope} {h d : Nat} (h1 : sc ≠ .hth) (h2 : sc = .die → d = dieOfHearth h) : tlbiDie sc h d = true := by
  unfold tlbiDie
  rw [if_neg h1]
  split
  · next e => simp [h2 e]
  · rfl

/-- `tlbi` drops its page and ends its wait. -/
theorem tlbiComplete_drops {sc : Scope} {a : GAddr} (hf : s.fibre? u = some f)
    (hw : (f.waits.find? fun w => match w with | .tlbi .. => true | _ => false) = some (.tlbi sc a)) :
    exec (.tlbiComplete u) s =
      .next ((s.tlbDropPage (tlbiHearth sc (s.hearthOf f)) (tlbiDie sc (s.hearthOf f)) (s.ctxOf f) a).updFibre u
        fun g => { g with waits := g.waits.erase (.tlbi sc a) }) := by
  show execTlbiComplete u s = _
  simp only [execTlbiComplete, hf]
  split
  · next hm =>
    obtain ⟨rfl, rfl⟩ := Wait.tlbi.inj (Option.some.inj (hm.symm.trans hw))
    rfl
  · next hno => exact (hno _ _ hw).elim

/-- No translation of the page of a `tlbi` is left in what its scope covers. -/
theorem tlbiComplete_clears {sc : Scope} {a : GAddr} (hf : s.fibre? u = some f)
    (hw : (f.waits.find? fun w => match w with | .tlbi .. => true | _ => false) = some (.tlbi sc a)) :
    let h := s.hearthOf f
    ∃ t, exec (.tlbiComplete u) s = .next t ∧ t.fibre? u = some { f with waits := f.waits.erase (.tlbi sc a) } ∧ t.mem = s.mem ∧
      (∀ k, (sc = .hth → k = h) → (sc = .die → dieOfHearth k = dieOfHearth h) →
        ∀ e ∈ (t.hearth k).tlb, e.covers (s.ctxOf f) (vaOf a) = false) ∧
      (∀ d, sc ≠ .hth → (sc = .die → d = dieOfHearth h) → ∀ e ∈ (t.die d).tlb, e.covers (s.ctxOf f) (vaOf a) = false) := by
  intro h
  refine ⟨_, tlbiComplete_drops hf hw, ?_, rfl, fun k h1 h2 => ?_, fun d h1 h2 => ?_⟩
  · refine (fibre?_updFibre_same _ u (fun g => { g with waits := g.waits.erase (.tlbi sc a) }) fun _ h => h).trans ?_
    rw [show (s.tlbDropPage _ _ _ _).fibre? u = s.fibre? u from rfl, hf]
    rfl
  · exact hearth_tlbDropPage (s := s) (dieIn := tlbiDie sc h) (tlbiHearth_covered h1 h2)
  · exact die_tlbDropPage (s := s) (hearthIn := tlbiHearth sc h) (tlbiDie_covered h1 h2)

end State

/-- Settles O48: each wait ends by the lemma of its event. -/
theorem wakeUpsFetchesAndReplies : Obligations.WakeUpsFetchesAndReplies := by
  unfold Obligations.WakeUpsFetchesAndReplies
  intro s
  refine ⟨fun u f n hf _ hn => State.sleepWake_wakes hf hn, fun slot n b w hb hw => State.devWake_wakes hb hw, ?_,
    fun u f a since hf hw ht => State.jwaitReread_early hf hw ht,
    fun u f bs hf hx hwalk hbuf hrun hturn hbytes => State.instructionFetchComplete_ready hf hx hwalk hbuf hrun hturn hbytes, ?_,
    fun u f sc a hf hw => State.tlbiComplete_clears hf hw⟩
  · intro u f a since pa hf hw ht hwalk hx hd hrun hxl hup hp c others leaves
    obtain rfl := State.fibre?_uid hf
    have hread := State.jwaitReread_reads hf hw ht hwalk hx hd hrun hxl hup
    obtain ⟨hzero, hneg, hpos⟩ := State.jwaitRead_leaves (a := a) hf hp
    refine ⟨fun hc => ?_, fun h hc hh he hn => ?_, fun hc => ?_⟩
    · obtain ⟨hg, hm⟩ := hzero hc
      exact ⟨_, _, hread, hg, hm, rfl⟩
    · obtain ⟨hg, hm⟩ := hneg h hc hh he hn
      exact ⟨_, _, hread, hg, hm, rfl⟩
    · obtain ⟨hg, hm⟩ := hpos hc
      exact ⟨_, _, hread, hg, hm, rfl⟩
  · intro u f name n dst a hf hx hw replies
    obtain rfl := State.fibre?_uid hf
    refine ⟨fun hn => ?_, fun s1 bs hn hb => ?_⟩
    · subst hn
      obtain ⟨g, hg⟩ := State.svcDone_lands (w := .svc name 0 dst a) (name := name) (dst := dst) Config.romVersion hf hx
      exact ⟨_, g, State.svcReply_version hf hw, hg⟩
    · have hkeep : (s1.writeRecord (s1.ctxOf f) (s1.serviceRecord f bs)).1.fibre? f.uid = some f := by
        rw [State.fibre?, State.writeRecord_fibres, State.svcBytes_fibres hb]
        exact hf
      obtain ⟨g, hg⟩ := State.svcDone_lands (w := .svc name n dst a) (name := name) (dst := dst)
        (if (s1.writeRecord (s1.ctxOf f) (s1.serviceRecord f bs)).2 then 0 else 1) hkeep hx
      exact ⟨_, g, State.svcReply_record hf hn hw hb, hg⟩

end Sys2Proof.Machine

/-! ## O12: the words of the SFU

The statement speaks of every LIT word, the rounding mode included, and rounds the exact cases of Table 10.7 by that mode. The model gives an
approximated function's result to nearest whatever the mode says: R189 asks rnd = 0 of these words, so that the decoder refuses any other mode
(`RoundedFex2.refused`) and the meaning need not read it. The two differ where 2^a overflows under `.rz`: R113 then leaves the largest finite
number, and the model an infinity. -/

namespace Sys2Proof

/-- An overflow toward zero leaves the largest finite magnitude (R113). -/
theorem FFmt.finish_rz_overflow {f : FFmt} {ftz n : Bool} {m : Nat} {e : Int} {st : Bool}
    (h : (f.finish .rz ftz (.num n m e st)).2 = fOF ||| fNX) : (f.finish .rz ftz (.num n m e st)).1 = f.signBit n + f.maxCode := by
  have hno : ∀ b c : Bool, (flagIf b fUF ||| flagIf c fNX) ≠ fOF ||| fNX := by decide
  cases hovf : (f.round .rz 0 n m e st).ovf
  · simp only [FFmt.finish, hovf, Bool.false_eq_true, if_false] at h
    split at h
    · exact absurd h (hno true true)
    · exact absurd h (hno _ _)
  · simp [FFmt.finish, hovf]

end Sys2Proof

namespace Sys2Proof.Machine

/-- A word of one operand adds the results of its elements to its group. -/
theorem State.flt1_ok {s : State} {f : Fibre} {i : Instr} {m : Mods LitFlt} {cls : Nat} {d a : RegIx} {op : LitFlt → Ty → FVal → Nat × FFlags}
    (h : s.Runs f i m.g) :
    s.flt1 i m cls d a op = .next (s.adds f m.chains m.words [f.fres cls ((fltBody m .f32 .s32 d).ty .f32) d
      ((f.fsrc ((fltBody m .f32 .s32 d).ty .f32) (fltBody m .f32 .s32 d).den a).map (op (fltBody m .f32 .s32 d) ((fltBody m .f32 .s32 d).ty .f32)))]) :=
  State.word_ok h rfl

namespace RoundedFex2

/-- The fields of a word that rounds toward zero, and the word: `fex2 v4, v5`, which chains. -/
def lit : LitFlt := .fields .f32 .s32 .rz .none false 0 4
def mods : Mods LitFlt := ⟨true, 7, some ⟨true, lit⟩⟩

/-- The device after power-on with one fibre that issues, 200.0 in its v5. -/
def state : State :=
  let s := State.reset.withFetchWord 96 0
  s.setFibre (match s.issuer with
    | some f => { f with arch := { f.arch with regs := f.arch.regs.set 5 0x43480000 } }
    | none => default)

def fibre : Fibre := state.issuer.getD default

/-- The decoder refuses the mode. -/
theorem refused : (Instr.fex2 mods 4 5).wf = false := by decide

theorem runs : state.Runs fibre (.fex2 mods 4 5) mods.g := by
  have hissuer : state.issuer.isSome = true := by decide +kernel
  refine ⟨?_, by decide +kernel, by decide +kernel, by decide +kernel⟩
  obtain ⟨f, hf⟩ := Option.isSome_iff_exists.1 hissuer
  rw [fibre, hf, Option.getD_some]

theorem operand : fibre.elA lit .f32 5 0 = .fin false 13107200 (-16) := by decide +kernel

theorem operand_num : (FVal.fin false 13107200 (-16)).num = (200 : Int) := by
  norm_num [FVal.num, sgn]

/-- The flags and the words of the one result that a group holds. -/
def result (s : State) : Option (FFlags × List Word) :=
  match s.run.group.map OpenGroup.fx with
  | some [Fx.res _ rs _ fl] => some (fl, rs.map (·.2))
  | _ => none

/-- The model leaves an infinity. -/
theorem elements_of_model : (fibre.fsrc .f32 lit.den 5).map (sfuElem sfuFex2 lit .f32) = [(0x7F800000, fOF ||| fNX)] := by decide +kernel

theorem result_of_adds (v : Nat × FFlags) :
    result (state.adds fibre mods.chains mods.words [fibre.fres 9 .f32 4 [v]]) = some (v.2, [BitVec.ofNat 32 v.1]) := by
  have hopen : (state.openGroup fibre).fx = [] := by decide +kernel
  simp [result, State.adds, OpenGroup.add, hopen, mods, lit, Mods.chains, Fibre.fres, Fibre.wr, Ty.regs, Ty.bits, regWords, joinElems,
    Sys2Proof.orFlags]

theorem exec_of_model : exec (.fex2 mods 4 5) state =
    .next (state.adds fibre mods.chains mods.words [fibre.fres 9 .f32 4 [(0x7F800000, fOF ||| fNX)]]) := by
  have hexec := State.flt1_ok (cls := 9) (d := 4) (a := 5) (op := sfuElem sfuFex2) runs
  exact hexec.trans (congrArg (fun rs => Host.Outcome.next (state.adds fibre mods.chains mods.words [fibre.fres 9 .f32 4 rs])) elements_of_model)

end RoundedFex2

/-- Refutes O12 at `fex2` of 200.0 in a word that names `.rz`: 2^200 overflows to an infinity, where the statement rounds it toward zero. The
decoder refuses such a word (R189), which the statement does not leave out. -/
theorem not_sfuWordsWriteTheirResult : ¬ Obligations.SfuWordsWriteTheirResult := by
  intro h
  obtain ⟨-, -, -, -, hfex2, -⟩ := h RoundedFex2.state RoundedFex2.fibre RoundedFex2.mods 4 5 0
  obtain ⟨rs, hlen, hrule, hexec, -⟩ := hfex2 RoundedFex2.runs
  obtain ⟨v, rfl⟩ := List.length_eq_one_iff.1 hlen
  have hsame := congrArg RoundedFex2.result (Host.Outcome.next.inj (hexec.symm.trans RoundedFex2.exec_of_model))
  obtain ⟨hflags, hword⟩ := Prod.mk.inj (Option.some.inj
    ((RoundedFex2.result_of_adds v).symm.trans (hsame.trans (RoundedFex2.result_of_adds _))))
  obtain ⟨⟨-, -, hpow, -⟩, -⟩ := hrule 0 v rfl
  rw [show RoundedFex2.mods.body (.dflt .f32 .s32 4) = RoundedFex2.lit from rfl, show RoundedFex2.lit.ty .f32 = .f32 from rfl,
    RoundedFex2.operand] at hpow
  obtain ⟨m, e, st, -, hv⟩ := ((hpow rfl).2.2 200 rfl RoundedFex2.operand_num).2 (zpow_ne_zero _ two_ne_zero)
  have hmax : v.1 = fmtF32.signBit (decide ((2 : ℚ) ^ (200 : Int) < 0)) + fmtF32.maxCode := by
    rw [hv] at hflags ⊢
    exact FFmt.finish_rz_overflow hflags
  rw [hmax, decide_eq_false (zpow_pos two_pos _).not_gt] at hword
  exact absurd hword (by decide)

end Sys2Proof.Machine

/-! ## O43: one rounding chooses a neighbour, as its mode says

Everything is said of the magnitude y = |x| ÷ 2^q, in units of the place q. `Rnd.Chooses` is what R110 asks of the integer that stands for y;
the cut of m × 2^e at the place q meets it (`Cut.chooses`). What has a threshold, overflow and tininess (R113), follows from it alone: the chosen
integer lies past N exactly where y does (`Rnd.Chooses.past_iff`). -/

namespace Sys2Proof

namespace Rnd

/-- The mode takes the lower neighbour of a magnitude, or the upper one (R110). -/
def Down (mode : Rnd) (neg : Bool) : Prop := mode = .rz ∨ (mode = .ru ∧ neg = true) ∨ (mode = .rd ∧ neg = false)
def Up (mode : Rnd) (neg : Bool) : Prop := (mode = .ru ∧ neg = false) ∨ (mode = .rd ∧ neg = true)

theorem direction {mode : Rnd} (h : mode ≠ .rs) (neg : Bool) : mode = .rne ∨ mode.Down neg ∨ mode.Up neg := by
  cases mode with
  | rne => exact .inl rfl
  | rz => exact .inr (.inl (.inl rfl))
  | ru => cases neg <;> simp [Down, Up]
  | rd => cases neg <;> simp [Down, Up]
  | rs => exact absurd rfl h

/-- n is the integer that the mode chooses for y: y itself or a neighbour of it, a tie going to the even one. -/
structure Chooses (mode : Rnd) (neg : Bool) (y : ℚ) (n : Nat) : Prop where
  near : |(n : ℚ) - y| < 1
  down : mode.Down neg → (n : ℚ) ≤ y
  up : mode.Up neg → y ≤ n
  nearest : mode = .rne → |(n : ℚ) - y| ≤ 1 / 2 ∧ (|(n : ℚ) - y| = 1 / 2 → n % 2 = 0)

/-- y lies so far past N that it rounds past N. -/
def Past (mode : Rnd) (neg : Bool) (N : Nat) (y : ℚ) : Prop :=
  (mode.Down neg ∧ (N : ℚ) + 1 ≤ y) ∨ (mode.Up neg ∧ (N : ℚ) < y) ∨
    (mode = .rne ∧ ((N : ℚ) + 1 / 2 < y ∨ (y = (N : ℚ) + 1 / 2 ∧ N % 2 = 1)))

variable {mode : Rnd} {neg : Bool} {y : ℚ} {n N : Nat}

theorem Down.ne_rne (h : mode.Down neg) : mode ≠ .rne := by
  rintro rfl
  simp [Down] at h

theorem Up.ne_rne (h : mode.Up neg) : mode ≠ .rne := by
  rintro rfl
  simp [Up] at h

theorem Down.not_up (h : mode.Down neg) : ¬mode.Up neg := by
  rcases h with rfl | ⟨rfl, rfl⟩ | ⟨rfl, rfl⟩ <;> simp [Up]

theorem past_down (h : mode.Down neg) : mode.Past neg N y ↔ (N : ℚ) + 1 ≤ y := by simp [Past, h, h.not_up, h.ne_rne]
theorem past_up (h : mode.Up neg) : mode.Past neg N y ↔ (N : ℚ) < y := by
  simp [Past, h, h.ne_rne, show ¬mode.Down neg from fun k => k.not_up h]
theorem past_rne : Rnd.Past .rne neg N y ↔ (N : ℚ) + 1 / 2 < y ∨ (y = (N : ℚ) + 1 / 2 ∧ N % 2 = 1) := by simp [Past, Down, Up]

theorem past_of_ge (hm : mode ≠ .rs) (h : (N : ℚ) + 1 ≤ y) : mode.Past neg N y := by
  rcases direction hm neg with rfl | hd | hu
  · exact past_rne.2 (.inl (by linarith))
  · exact (past_down hd).2 h
  · exact (past_up hu).2 (by linarith)

theorem not_past_of_le (hm : mode ≠ .rs) (h : y ≤ N) : ¬mode.Past neg N y := by
  rcases direction hm neg with rfl | hd | hu
  · rw [past_rne]
    rintro (h1 | ⟨h1, -⟩) <;> linarith
  · rw [past_down hd]
    linarith
  · rw [past_up hu]
    linarith

theorem Chooses.of_down (hd : mode.Down neg) (hle : (n : ℚ) ≤ y) (hlt : y < n + 1) : mode.Chooses neg y n :=
  ⟨by rw [abs_lt]; constructor <;> linarith, fun _ => hle, fun hu => absurd hu hd.not_up, fun hr => absurd hr hd.ne_rne⟩

theorem Chooses.of_up (hu : mode.Up neg) (hlt : (n : ℚ) < y + 1) (hle : y ≤ n) : mode.Chooses neg y n :=
  ⟨by rw [abs_lt]; constructor <;> linarith, fun hd => absurd hu hd.not_up, fun _ => hle, fun hr => absurd hr hu.ne_rne⟩

theorem Chooses.of_rne (hnear : |(n : ℚ) - y| ≤ 1 / 2) (htie : |(n : ℚ) - y| = 1 / 2 → n % 2 = 0) : Rnd.Chooses .rne neg y n :=
  ⟨by linarith, fun hd => absurd rfl hd.ne_rne, fun hu => absurd rfl hu.ne_rne, fun _ => ⟨hnear, htie⟩⟩

/-- The chosen integer lies past N exactly where y rounds past N. -/
theorem Chooses.past_iff (h : mode.Chooses neg y n) (hm : mode ≠ .rs) (N : Nat) : N < n ↔ mode.Past neg N y := by
  obtain ⟨hlow, hhigh⟩ := abs_lt.1 h.near
  rcases lt_or_ge N n with hN | hN
  · have hN' : (N : ℚ) + 1 ≤ n := by exact_mod_cast hN
    refine iff_of_true hN ?_
    rcases direction hm neg with rfl | hd | hu
    · obtain ⟨hnear, htie⟩ := h.nearest rfl
      have hhalf : (N : ℚ) + 1 / 2 ≤ y := by linarith [(abs_le.1 hnear).2]
      refine past_rne.2 (hhalf.lt_or_eq.imp_right fun hy => ⟨hy.symm, ?_⟩)
      have hdist : (n : ℚ) - y = 1 / 2 := by linarith [(abs_le.1 hnear).2]
      have hn : n = N + 1 := by exact_mod_cast (by linarith : (n : ℚ) = N + 1)
      have heven := htie (by rw [hdist]; norm_num)
      omega
    · exact (past_down hd).2 (by linarith [h.down hd])
    · exact (past_up hu).2 (by linarith)
  · have hN' : (n : ℚ) ≤ N := by exact_mod_cast hN
    refine iff_of_false (not_lt.2 hN) ?_
    rcases direction hm neg with rfl | hd | hu
    · obtain ⟨hnear, htie⟩ := h.nearest rfl
      have hy := (abs_le.1 hnear).1
      rw [past_rne]
      rintro (h1 | ⟨h1, hodd⟩)
      · linarith
      · have hdist : (n : ℚ) - y = -(1 / 2) := by linarith
        have hn : n = N := by exact_mod_cast (by linarith : (n : ℚ) = N)
        have heven := htie (by rw [hdist]; norm_num)
        omega
    · rw [past_down hd]
      linarith
    · rw [past_up hu]
      linarith [h.up hu]

theorem Chooses.ge_of_ge (h : mode.Chooses neg y n) (hm : mode ≠ .rs) (hy : (N : ℚ) ≤ y) : N ≤ n := by
  cases N with
  | zero => exact Nat.zero_le n
  | succ k => exact (h.past_iff hm k).2 (past_of_ge hm (by exact_mod_cast hy))

theorem Chooses.le_of_le (h : mode.Chooses neg y n) (hm : mode ≠ .rs) (hy : y ≤ N) : n ≤ N :=
  not_lt.1 fun hlt => not_past_of_le hm hy ((h.past_iff hm N).1 hlt)

end Rnd

/-! ### The cut of a significand at a place -/

/-- The integer n and the remainder r of 2^k, with the bits below them (`st`), place y between n and n + 1: at n, under, at or over the half. -/
structure Cut (y : ℚ) (n r k : Nat) (st : Bool) : Prop where
  le : (n : ℚ) ≤ y
  lt : y < n + 1
  rest : (r ≠ 0 ∨ st = true) ↔ (n : ℚ) < y
  above : (k ≠ 0 ∧ (2 ^ (k - 1) < r ∨ (r = 2 ^ (k - 1) ∧ st = true))) ↔ (n : ℚ) + 1 / 2 < y
  tie : (k ≠ 0 ∧ r = 2 ^ (k - 1) ∧ st = false) ↔ y = (n : ℚ) + 1 / 2

/-- The integer that is taken, n or n + 1. -/
def roundCut (mode : Rnd) (neg : Bool) (n r k : Nat) (st : Bool) (rand : Nat) : Nat :=
  if roundUp mode neg (n % 2 == 1) r k st rand then n + 1 else n

theorem roundUp_down {mode : Rnd} {neg : Bool} (h : mode.Down neg) (odd : Bool) (r k : Nat) (st : Bool) (rand : Nat) :
    roundUp mode neg odd r k st rand = false := by
  rcases h with rfl | ⟨rfl, rfl⟩ | ⟨rfl, rfl⟩ <;> rfl

theorem roundUp_up {mode : Rnd} {neg : Bool} (h : mode.Up neg) (odd : Bool) (r k : Nat) (st : Bool) (rand : Nat) :
    roundUp mode neg odd r k st rand = true ↔ r ≠ 0 ∨ st = true := by
  rcases h with ⟨rfl, rfl⟩ | ⟨rfl, rfl⟩ <;> simp [roundUp]

namespace Cut

variable {y : ℚ} {n r k : Nat} {st : Bool}

theorem roundUp_rne (h : Cut y n r k st) (neg : Bool) (rand : Nat) :
    roundUp .rne neg (n % 2 == 1) r k st rand = true ↔ (n : ℚ) + 1 / 2 < y ∨ (y = (n : ℚ) + 1 / 2 ∧ n % 2 = 1) := by
  rw [← h.above, ← h.tie]
  by_cases hk : k = 0
  · simp [roundUp, hk]
  · cases st <;> simp [roundUp, hk]

/-- What the mode takes is what R110 asks for. -/
theorem chooses (h : Cut y n r k st) {mode : Rnd} (hm : mode ≠ .rs) (neg : Bool) (rand : Nat) :
    mode.Chooses neg y (roundCut mode neg n r k st rand) := by
  have hle := h.le
  have hlt := h.lt
  unfold roundCut
  rcases Rnd.direction hm neg with rfl | hd | hu
  · have hup := h.roundUp_rne neg rand
    split
    · next hyes =>
      have hdist : ((n + 1 : Nat) : ℚ) - y = n + 1 - y := by push_cast; rfl
      have habs : |((n + 1 : Nat) : ℚ) - y| = n + 1 - y := hdist ▸ abs_of_nonneg (by linarith)
      refine .of_rne ?_ fun htie => ?_
      · rcases hup.1 hyes with h1 | ⟨h1, -⟩ <;> linarith
      · rcases hup.1 hyes with h1 | ⟨-, hodd⟩
        · linarith
        · omega
    · next hno =>
      have hy : y ≤ (n : ℚ) + 1 / 2 := not_lt.1 fun h1 => hno (hup.2 (.inl h1))
      have habs : |(n : ℚ) - y| = y - n := by rw [abs_sub_comm, abs_of_nonneg (by linarith)]
      refine .of_rne (by linarith) fun htie => ?_
      by_contra hodd
      exact hno (hup.2 (.inr ⟨by linarith, by omega⟩))
  · rw [roundUp_down hd, if_neg Bool.false_ne_true]
    exact .of_down hd hle hlt
  · have hup := (roundUp_up hu (n % 2 == 1) r k st rand).trans h.rest
    split
    · next hyes =>
      have hy := hup.1 hyes
      exact .of_up hu (by push_cast; linarith) (by push_cast; linarith)
    · next hno => exact .of_up hu (by linarith) (not_lt.1 (mt hup.2 hno))

/-- Something was cut off exactly where the integer taken is not y. -/
theorem rest_iff (h : Cut y n r k st) {mode : Rnd} (hm : mode ≠ .rs) (neg : Bool) (rand : Nat) :
    (r != 0 || st) = true ↔ (roundCut mode neg n r k st rand : ℚ) ≠ y := by
  have hnear := abs_lt.1 (h.chooses hm neg rand).near
  have hlt := h.lt
  rw [Bool.or_eq_true, bne_iff_ne, h.rest]
  unfold roundCut at hnear ⊢
  split
  · next hyes =>
    rw [if_pos hyes] at hnear
    push_cast at hnear ⊢
    exact ⟨fun _ => by linarith, fun _ => by linarith⟩
  · exact ⟨fun h1 => h1.ne, fun h1 => lt_of_le_of_ne h.le h1⟩

/-- A number under half a unit, above 0. -/
theorem of_small (h0 : 0 < y) (h1 : y < 1 / 2) (hk : 1 < k) (st : Bool) : Cut y 0 1 k st := by
  have hpow : 1 < 2 ^ (k - 1) := Nat.one_lt_two_pow (by omega)
  refine ⟨by simpa using h0.le, by simpa using h1.trans (by norm_num), by simpa using h0, ?_, ?_⟩
  · simp only [CharP.cast_eq_zero, zero_add, not_lt.2 h1.le, iff_false]
    omega
  · simp only [CharP.cast_eq_zero, zero_add, h1.ne, iff_false]
    omega

/-- A remainder z of 2^k, its whole part r, against the half. -/
theorem half {z : ℚ} (hlt : r < 2 ^ k) (hlow : (r : ℚ) ≤ z) (hhigh : z < r + 1) (hst : st = true ↔ (r : ℚ) < z) (hk : st = true → k ≠ 0) :
    ((k ≠ 0 ∧ (2 ^ (k - 1) < r ∨ (r = 2 ^ (k - 1) ∧ st = true))) ↔ 1 / 2 * 2 ^ k < z) ∧
    ((k ≠ 0 ∧ r = 2 ^ (k - 1) ∧ st = false) ↔ z = 1 / 2 * 2 ^ k) := by
  have hexact : st = false ↔ z = r := by
    rw [← Bool.not_eq_true, hst, not_lt]
    exact ⟨fun h => le_antisymm h hlow, fun h => h.le⟩
  cases k with
  | zero =>
    obtain rfl : r = 0 := by simpa using hlt
    have hz : z = 0 := by simpa using hexact.1 (by simpa using hk)
    simp [hz]
  | succ j =>
    have hH : (1 : ℚ) / 2 * 2 ^ (j + 1) = ((2 ^ j : Nat) : ℚ) := by
      rw [pow_succ]
      push_cast
      ring
    rw [hH, hexact, hst, Nat.add_sub_cancel]
    generalize 2 ^ j = H
    refine ⟨⟨?_, fun h => ⟨by omega, ?_⟩⟩, ⟨?_, fun h => ⟨by omega, ?_⟩⟩⟩
    · rintro ⟨-, h | ⟨rfl, h⟩⟩
      · exact lt_of_lt_of_le (by exact_mod_cast h) hlow
      · exact h
    · have hle : H < r + 1 := by exact_mod_cast h.trans hhigh
      rcases Nat.lt_or_eq_of_le (Nat.le_of_lt_succ hle) with h1 | rfl
      · exact .inl h1
      · exact .inr ⟨rfl, h⟩
    · rintro ⟨-, rfl, h⟩
      exact h
    · have h1 : r ≤ H := by exact_mod_cast h ▸ hlow
      have h2 : H < r + 1 := by exact_mod_cast h ▸ hhigh
      obtain rfl : r = H := by omega
      exact ⟨rfl, h⟩

/-- m units of 2^−k, with something below them or not, cut at the unit. -/
theorem of_div {m k : Nat} (hlow : (m : ℚ) ≤ y * 2 ^ k) (hhigh : y * 2 ^ k < m + 1) (hst : st = true ↔ (m : ℚ) < y * 2 ^ k)
    (hk : st = true → k ≠ 0) : Cut y (m / 2 ^ k) (m % 2 ^ k) k st := by
  have hT : (0 : ℚ) < 2 ^ k := by positivity
  have hdiv : 2 ^ k * (m / 2 ^ k) + m % 2 ^ k = m := Nat.div_add_mod m (2 ^ k)
  have hlt : m % 2 ^ k < 2 ^ k := Nat.mod_lt _ (by positivity)
  generalize m / 2 ^ k = n at hdiv
  generalize m % 2 ^ k = r at hdiv hlt
  have hm : (m : ℚ) = 2 ^ k * n + r := by exact_mod_cast hdiv.symm
  have hr : (r : ℚ) + 1 ≤ 2 ^ k := by exact_mod_cast hlt
  have hr0 : (0 : ℚ) ≤ r := by positivity
  -- the remainder, with what is below it, in units of 2^−k
  have hscale : ∀ c : ℚ, (n + c < y ↔ c * 2 ^ k < y * 2 ^ k - 2 ^ k * n) ∧ (y = n + c ↔ y * 2 ^ k - 2 ^ k * n = c * 2 ^ k) := fun c =>
    ⟨by rw [← mul_lt_mul_iff_left₀ hT, lt_sub_iff_add_lt]; ring_nf,
     by rw [← mul_left_inj' hT.ne', sub_eq_iff_eq_add]; ring_nf⟩
  have hz1 : (r : ℚ) ≤ y * 2 ^ k - 2 ^ k * n := by linarith
  have hz2 : y * 2 ^ k - 2 ^ k * n < r + 1 := by linarith
  have hz3 : st = true ↔ (r : ℚ) < y * 2 ^ k - 2 ^ k * n := by
    rw [hst, hm, lt_sub_iff_add_lt, add_comm]
  generalize hz : y * 2 ^ k - 2 ^ k * n = z at hscale hz1 hz2 hz3
  have hstf : st = false → z = r := fun h => le_antisymm (not_lt.1 fun h1 => by simp [hz3.2 h1] at h) hz1
  refine ⟨le_of_mul_le_mul_right (by linarith) hT, lt_of_mul_lt_mul_right (by linarith) hT.le, ?_, ?_, ?_⟩
  · rw [← add_zero (n : ℚ), (hscale 0).1, zero_mul]
    constructor
    · rintro (h | h)
      · exact lt_of_lt_of_le (by exact_mod_cast Nat.pos_of_ne_zero h) hz1
      · exact lt_of_le_of_lt hr0 (hz3.1 h)
    · intro h
      by_contra hno
      rw [not_or, not_not, Bool.not_eq_true] at hno
      rw [hstf hno.2, hno.1] at h
      simp at h
  · rw [(hscale _).1]
    exact (half hlt hz1 hz2 hz3 hk).1
  · rw [(hscale _).2]
    exact (half hlt hz1 hz2 hz3 hk).2

end Cut

/-- The quotient and the remainder of m × 2^e at the place q, the remainder in units of 2^e where it is not 0. -/
def quotAt (m : Nat) (e q : Int) : Nat := m * 2 ^ (e - q).toNat / 2 ^ (q - e).toNat
def remAt (m : Nat) (e q : Int) : Nat := m * 2 ^ (e - q).toNat % 2 ^ (q - e).toNat

/-- m × 2^e (with sticky), rounded at the place q. -/
def roundAt (mode : Rnd) (neg : Bool) (m : Nat) (e : Int) (st : Bool) (q : Int) (rand : Nat) : Nat :=
  roundCut mode neg (quotAt m e q) (remAt m e q) (q - e).toNat st rand

/-! ### The magnitude that a significand and an exponent place -/

theorem two_zpow_pos (k : Int) : (0 : ℚ) < (2 : ℚ) ^ k := zpow_pos two_pos k

theorem two_zpow_add (j k : Int) : (2 : ℚ) ^ (j + k) = (2 : ℚ) ^ j * (2 : ℚ) ^ k := zpow_add₀ two_ne_zero j k

theorem two_zpow_le {j k : Int} (h : j ≤ k) : (2 : ℚ) ^ j ≤ (2 : ℚ) ^ k := zpow_le_zpow_right₀ one_le_two h

/-- Units of 2^e counted in units of 2^q, up to a whole power of two on either side. -/
theorem div_two_zpow_mul (a : ℚ) (e q : Int) : a / (2 : ℚ) ^ q * 2 ^ (q - e).toNat = a / (2 : ℚ) ^ e * 2 ^ (e - q).toNat := by
  have hexp : (2 : ℚ) ^ e * 2 ^ (q - e).toNat = 2 ^ (e - q).toNat * (2 : ℚ) ^ q := by
    rw [← zpow_natCast, ← zpow_natCast, ← two_zpow_add, ← two_zpow_add]
    congr 1
    omega
  rw [div_mul_eq_mul_div, div_mul_eq_mul_div, div_eq_div_iff (two_zpow_pos q).ne' (two_zpow_pos e).ne', mul_assoc, mul_assoc, ← hexp]
  ring

namespace Places

variable {x : ℚ} {m : Nat} {e : Int} {st : Bool}

theorem low (h : Places x m e st) : (m : ℚ) * (2 : ℚ) ^ e ≤ |x| := by
  unfold Places at h
  split at h
  · exact h.2.1.le
  · exact h.le

theorem high (h : Places x m e st) : |x| < (m + 1) * (2 : ℚ) ^ e := by
  unfold Places at h
  split at h
  · exact h.2.2
  · rw [← h]
    exact mul_lt_mul_of_pos_right (by linarith) (two_zpow_pos e)

theorem sticky_iff (h : Places x m e st) : st = true ↔ (m : ℚ) * (2 : ℚ) ^ e < |x| := by
  unfold Places at h
  split at h
  · next hst => simp [hst, h.2.1]
  · next hst => simp [hst, h]

theorem large (h : Places x m e st) (hst : st = true) : 60 ≤ Nat.log2 m := by
  rw [Places, if_pos hst] at h
  rw [Nat.le_log2 (by have := h.1; omega)]
  exact h.1

/-- The binade of a magnitude is that of its significand. -/
theorem binade (h : Places x m e st) (hm : m ≠ 0) :
    (2 : ℚ) ^ ((Nat.log2 m : Int) + e) ≤ |x| ∧ |x| < (2 : ℚ) ^ ((Nat.log2 m : Int) + e + 1) := by
  have hlow : ((2 ^ Nat.log2 m : Nat) : ℚ) ≤ m := by exact_mod_cast Nat.log2_self_le hm
  have hhigh : (m : ℚ) + 1 ≤ ((2 ^ (Nat.log2 m + 1) : Nat) : ℚ) := by exact_mod_cast Nat.lt_log2_self
  have hpos := two_zpow_pos e
  push_cast at hlow hhigh
  rw [add_right_comm, two_zpow_add, two_zpow_add _ e]
  refine ⟨?_, ?_⟩
  · rw [zpow_natCast]
    exact (mul_le_mul_of_nonneg_right hlow hpos.le).trans h.low
  · rw [show (Nat.log2 m : Int) + 1 = ((Nat.log2 m + 1 : Nat) : Int) by push_cast; rfl, zpow_natCast]
    exact h.high.trans_le (mul_le_mul_of_nonneg_right hhigh hpos.le)

/-- m × 2^e, cut at the place q. -/
theorem cut (h : Places x m e st) {q : Int} (hq : st = true → e < q) :
    Cut (|x| / (2 : ℚ) ^ q) (quotAt m e q) (remAt m e q) (q - e).toNat st := by
  unfold quotAt remAt
  have hpos := two_zpow_pos e
  have hunits := div_two_zpow_mul |x| e q
  have hlow : (m : ℚ) ≤ |x| / (2 : ℚ) ^ e := (le_div_iff₀ hpos).2 h.low
  have hhigh : |x| / (2 : ℚ) ^ e < m + 1 := (div_lt_iff₀ hpos).2 h.high
  have hst : st = true ↔ (m : ℚ) < |x| / (2 : ℚ) ^ e := h.sticky_iff.trans (lt_div_iff₀ hpos).symm
  generalize |x| / (2 : ℚ) ^ e = b at hunits hlow hhigh hst
  cases st with
  | true =>
    have hj : (e - q).toNat = 0 := by have := hq rfl; omega
    rw [hj, pow_zero, mul_one] at hunits ⊢
    exact Cut.of_div (hunits ▸ hlow) (hunits ▸ hhigh) (hunits ▸ hst) fun _ => by have := hq rfl; omega
  | false =>
    obtain rfl : b = m := le_antisymm (not_lt.1 fun h1 => by simpa using hst.2 h1) hlow
    have hbig : ((m * 2 ^ (e - q).toNat : Nat) : ℚ) = |x| / (2 : ℚ) ^ q * 2 ^ (q - e).toNat := by
      rw [hunits]
      push_cast
      rfl
    exact Cut.of_div hbig.le (by rw [← hbig]; linarith) (by simp [hbig]) (by simp)

end Places

/-! ### The rounding of a format -/

namespace FFmt

/-- What the nine formats have in common. -/
structure Sound (f : FFmt) : Prop where
  mb : f.mb ≤ 52
  exps : f.emin < f.emax
  low : 2 ^ f.mb ≤ f.maxN
  high : f.maxN < 2 ^ (f.mb + 1)

theorem sound_of_mem {f : FFmt} (h : f ∈ [fmtF64, fmtF32, fmtH16, fmtBf16, fmtE4m3, fmtE5m2, fmtE3m2, fmtE2m3, fmtE2m1]) : f.Sound := by
  simp only [List.mem_cons, List.not_mem_nil, or_false] at h
  rcases h with rfl | rfl | rfl | rfl | rfl | rfl | rfl | rfl | rfl <;> exact ⟨by decide, by decide, by decide, by decide⟩

/-- The place at which a magnitude of the binade E is cut. -/
def place (f : FFmt) (E : Int) : Int := max f.emin (min f.emax E) - f.mb

/-- A magnitude of the binade E is tiny: it lies under the least normal one, and its rounding at full precision does not reach that (R113). -/
def tinyAt (f : FFmt) (mode : Rnd) (neg : Bool) (m : Nat) (e : Int) (st : Bool) (E : Int) : Bool :=
  decide (E < f.emin) && !(decide (E = f.emin - 1) &&
    (roundUp mode neg (quotAt m e (E - f.mb) % 2 == 1) (remAt m e (E - f.mb)) (E - f.mb - e).toNat st 0 &&
      quotAt m e (E - f.mb) == 2 ^ (f.mb + 1) - 1))

variable {f : FFmt} {mode : Rnd} {rand m : Nat} {e : Int} {neg st : Bool}

/-- Past the binade after the top one, rounding overflows. -/
theorem round_past (hm : m ≠ 0) (hE : f.emax + 1 < Nat.log2 m + e) :
    f.round mode rand neg m e st = ⟨f.maxN + 1, f.emax - f.mb, true, false, true⟩ := by
  simp [FFmt.round, hm, hE]

/-- Far under the least place, only that something is there counts. -/
theorem round_far (hf : f.Sound) (hm : m ≠ 0) (hfar : (Nat.log2 m : Int) + e < f.place (Nat.log2 m + e) - 80) :
    f.round mode rand neg m e st = ⟨roundCut mode neg 0 1 80 true rand, f.qmin, true, true, false⟩ := by
  have hexps := hf.exps
  have hplace : max f.emin (min f.emax (Nat.log2 m + e)) - f.mb = f.qmin := by
    unfold place at hfar
    unfold qmin
    omega
  have hE : ¬f.emax + 1 < Nat.log2 m + e := by
    unfold place at hfar
    omega
  have hlow : (Nat.log2 m : Int) + e < f.qmin - 80 := hplace ▸ hfar
  have htop : (f.qmin == f.emax - f.mb) = false := by
    rw [beq_eq_false_iff_ne]
    unfold qmin
    omega
  have hless : f.qmin - 80 < f.emin := by
    unfold qmin
    omega
  have hnot : ¬f.qmin - 80 = f.emin - 1 := by
    unfold qmin
    omega
  simp [FFmt.round, hE, hplace, hm, hlow, htop, hless, hnot, roundCut]

/-- A value near the format's exponents is cut at its place. -/
theorem round_near {E q : Int} (hm : m ≠ 0) (hmode : mode ≠ .rs) (hEe : Nat.log2 m + e = E) (hqE : f.place E = q) (hE : ¬f.emax + 1 < E)
    (hfar : ¬E < q - 80) :
    f.round mode rand neg m e st = ⟨roundAt mode neg m e st q rand, q, remAt m e q != 0 || st, f.tinyAt mode neg m e st E,
      q == f.emax - f.mb && decide (f.maxN < roundAt mode neg m e st q rand)⟩ := by
  subst hEe hqE
  have hfar' : decide ((Nat.log2 m : Int) + e < max f.emin (min f.emax (Nat.log2 m + e)) - f.mb - 80) = false := decide_eq_false hfar
  simp only [FFmt.round, hE, hfar', hm, hmode, beq_eq_false_iff_ne.2 hm, Bool.or_false, decide_false, Bool.false_and, Bool.false_eq_true,
    if_false, Bool.and_assoc]
  rfl

/-- r is a rounding of the magnitude a (R110, R113). -/
structure RoundsTo (f : FFmt) (mode : Rnd) (neg : Bool) (a : ℚ) (r : Rounded) : Prop where
  value : r.ovf = false → mode.Chooses neg (a / (2 : ℚ) ^ r.q) r.n
  inexact : r.ovf = false → (r.inexact = true ↔ (r.n : ℚ) ≠ a / (2 : ℚ) ^ r.q)
  place : r.ovf = false → f.qmin ≤ r.q ∧ r.q ≤ f.emax - f.mb
  full : r.ovf = false → r.q = f.qmin ∨ 2 ^ f.mb ≤ r.n
  small : r.ovf = false → r.n ≤ 2 ^ (f.mb + 1)
  ovf : r.ovf = true ↔ mode.Past neg f.maxN (a / (2 : ℚ) ^ (f.emax - f.mb))
  tiny : r.tiny = true ↔ ¬mode.Past neg (2 ^ (f.mb + 1) - 1) (a / (2 : ℚ) ^ (f.emin - 1 - f.mb))

theorem le_div_two_zpow {a : ℚ} {q : Int} {n : Nat} (h : (2 : ℚ) ^ (q + n) ≤ a) : ((2 ^ n : Nat) : ℚ) ≤ a / (2 : ℚ) ^ q := by
  rw [le_div_iff₀ (two_zpow_pos q)]
  push_cast
  rwa [← zpow_natCast, ← two_zpow_add, add_comm]

theorem div_two_zpow_lt {a : ℚ} {q : Int} {n : Nat} (h : a < (2 : ℚ) ^ (q + n)) : a / (2 : ℚ) ^ q < ((2 ^ n : Nat) : ℚ) := by
  rw [div_lt_iff₀ (two_zpow_pos q)]
  push_cast
  rwa [← zpow_natCast, ← two_zpow_add, add_comm]

variable {a : ℚ}

theorem past_maxN (hf : f.Sound) (hmode : mode ≠ .rs) (ha : (2 : ℚ) ^ (f.emax + 1) ≤ a) :
    mode.Past neg f.maxN (a / (2 : ℚ) ^ (f.emax - f.mb)) := by
  have hmax : (f.maxN : ℚ) + 1 ≤ ((2 ^ (f.mb + 1) : Nat) : ℚ) := by exact_mod_cast hf.high
  exact Rnd.past_of_ge hmode (hmax.trans (le_div_two_zpow (by convert ha using 2; push_cast; ring)))

theorem not_past_maxN (hf : f.Sound) (hmode : mode ≠ .rs) (ha : a < (2 : ℚ) ^ f.emax) :
    ¬mode.Past neg f.maxN (a / (2 : ℚ) ^ (f.emax - f.mb)) := by
  have hmax : ((2 ^ f.mb : Nat) : ℚ) ≤ f.maxN := by exact_mod_cast hf.low
  exact Rnd.not_past_of_le hmode ((div_two_zpow_lt (by convert ha using 2; ring)).le.trans hmax)

theorem past_of_normal (hmode : mode ≠ .rs) (ha : (2 : ℚ) ^ f.emin ≤ a) :
    mode.Past neg (2 ^ (f.mb + 1) - 1) (a / (2 : ℚ) ^ (f.emin - 1 - f.mb)) := by
  have hone : (1 : Nat) ≤ 2 ^ (f.mb + 1) := Nat.one_le_two_pow
  have hN : ((2 ^ (f.mb + 1) - 1 : Nat) : ℚ) + 1 = ((2 ^ (f.mb + 1) : Nat) : ℚ) := by
    rw [Nat.cast_sub hone, Nat.cast_one, sub_add_cancel]
  refine Rnd.past_of_ge hmode (hN ▸ le_div_two_zpow ?_)
  convert ha using 2
  push_cast
  ring

theorem not_past_of_low (hmode : mode ≠ .rs) (ha : a < (2 : ℚ) ^ (f.emin - 1)) :
    ¬mode.Past neg (2 ^ (f.mb + 1) - 1) (a / (2 : ℚ) ^ (f.emin - 1 - f.mb)) := by
  have hN : 2 ^ f.mb ≤ 2 ^ (f.mb + 1) - 1 := by
    have : 1 ≤ 2 ^ f.mb := Nat.one_le_two_pow
    rw [pow_succ]
    omega
  exact Rnd.not_past_of_le hmode ((div_two_zpow_lt (by convert ha using 2; ring)).le.trans (by exact_mod_cast hN))

/-- Which of n and n + 1 is taken decides whether a bound that n does not pass is passed. -/
theorem lt_roundCut {n r k N : Nat} (h : n ≤ N) :
    N < roundCut mode neg n r k st rand ↔ (roundUp mode neg (n % 2 == 1) r k st rand && n == N) = true := by
  unfold roundCut
  cases roundUp mode neg (n % 2 == 1) r k st rand
  · simpa using h
  · simp only [if_true, Bool.true_and, beq_iff_eq]
    omega

theorem tinyAt_iff {x : ℚ} {E : Int} (hmode : mode ≠ .rs) (hm : m ≠ 0) (hx : Places x m e st) (hE : Nat.log2 m + e = E)
    (hst : st = true → e < E - f.mb) :
    f.tinyAt mode neg m e st E = true ↔ ¬mode.Past neg (2 ^ (f.mb + 1) - 1) (|x| / (2 : ℚ) ^ (f.emin - 1 - f.mb)) := by
  obtain ⟨hlow, hhigh⟩ := hx.binade hm
  rw [hE] at hlow hhigh
  unfold tinyAt
  rcases lt_trichotomy E (f.emin - 1) with hlt | heq | hgt
  · have hsmall : |x| < (2 : ℚ) ^ (f.emin - 1) := hhigh.trans_le (two_zpow_le (by omega))
    have hless : E < f.emin := by omega
    simp [not_past_of_low hmode hsmall, hlt.ne, hless]
  · have hless : E < f.emin := by omega
    have hcut := hx.cut hst
    have hquot : quotAt m e (E - f.mb) ≤ 2 ^ (f.mb + 1) - 1 := by
      have hexp : E + 1 = E - f.mb + ((f.mb + 1 : Nat) : Int) := by push_cast; ring
      have hlt : quotAt m e (E - f.mb) < 2 ^ (f.mb + 1) := by
        exact_mod_cast hcut.le.trans_lt (div_two_zpow_lt (n := f.mb + 1) (hexp ▸ hhigh))
      omega
    have hpast := (hcut.chooses hmode neg 0).past_iff hmode (2 ^ (f.mb + 1) - 1)
    rw [lt_roundCut hquot, heq] at hpast
    rw [← hpast, heq]
    simp only [← heq, hless, decide_true, Bool.true_and, Bool.not_eq_true', Bool.not_eq_true]
  · have hnormal : f.emin ≤ E := by omega
    simp [past_of_normal hmode ((two_zpow_le hnormal).trans hlow), hnormal]

section

variable {x : ℚ} (hf : f.Sound) (hmode : mode ≠ .rs) (hm : m ≠ 0) (hx : Places x m e st)
include hf hmode hm hx

theorem roundsTo_past (hE : f.emax + 1 < Nat.log2 m + e) : f.RoundsTo mode neg |x| (f.round mode rand neg m e st) := by
  obtain ⟨hlow, -⟩ := hx.binade hm
  have hexps := hf.exps
  have hnormal : f.emin ≤ Nat.log2 m + e := by omega
  rw [round_past hm hE]
  refine ⟨by simp, by simp, by simp, by simp, by simp, ?_, ?_⟩
  · simp [past_maxN hf hmode ((two_zpow_le hE.le).trans hlow)]
  · simp [past_of_normal hmode ((two_zpow_le hnormal).trans hlow)]

theorem roundsTo_far (hfar : (Nat.log2 m : Int) + e < f.place (Nat.log2 m + e) - 80) :
    f.RoundsTo mode neg |x| (f.round mode rand neg m e st) := by
  obtain ⟨hlow, hhigh⟩ := hx.binade hm
  have hexps := hf.exps
  have hunder : (Nat.log2 m : Int) + e + 1 ≤ f.qmin - 1 := by
    unfold place at hfar
    unfold qmin
    omega
  have hmin : f.qmin - 1 ≤ f.emin - 1 := by
    unfold qmin
    omega
  have hpos : 0 < |x| / (2 : ℚ) ^ f.qmin := div_pos ((two_zpow_pos _).trans_le hlow) (two_zpow_pos _)
  have hhalf : |x| / (2 : ℚ) ^ f.qmin < 1 / 2 := by
    rw [div_lt_iff₀ (two_zpow_pos _)]
    refine (hhigh.trans_le (two_zpow_le hunder)).trans_eq ?_
    rw [sub_eq_neg_add, two_zpow_add]
    norm_num
  have hcut : Cut (|x| / (2 : ℚ) ^ f.qmin) 0 1 80 true := Cut.of_small hpos hhalf (by decide) true
  have hsmall : roundCut mode neg 0 1 80 true rand ≤ 1 := by
    unfold roundCut
    split <;> omega
  rw [round_far hf hm hfar]
  refine ⟨fun _ => hcut.chooses hmode neg rand, fun _ => hcut.rest_iff hmode neg rand, fun _ => ⟨le_rfl, ?_⟩, fun _ => .inl rfl,
    fun _ => hsmall.trans Nat.one_le_two_pow, ?_, ?_⟩
  · show f.qmin ≤ f.emax - f.mb
    unfold qmin
    omega
  · have hlt : |x| < (2 : ℚ) ^ f.emax := hhigh.trans_le (two_zpow_le (by omega))
    simp [not_past_maxN hf hmode hlt]
  · have hlt : |x| < (2 : ℚ) ^ (f.emin - 1) := hhigh.trans_le (two_zpow_le (by omega))
    simp [not_past_of_low hmode hlt]

theorem roundsTo_near (hE : ¬f.emax + 1 < Nat.log2 m + e) (hfar : ¬(Nat.log2 m : Int) + e < f.place (Nat.log2 m + e) - 80) :
    f.RoundsTo mode neg |x| (f.round mode rand neg m e st) := by
  obtain ⟨hlow, hhigh⟩ := hx.binade hm
  have hexps := hf.exps
  have hmb := hf.mb
  have hmaxN := hf.high
  have hlarge := hx.large
  have hplace : f.place (Nat.log2 m + e) = max f.emin (min f.emax (Nat.log2 m + e)) - f.mb := rfl
  generalize hqE : f.place (Nat.log2 m + e) = q at hplace hfar
  generalize hEe : (Nat.log2 m : Int) + e = E at hplace hfar hlow hhigh hE hqE
  rw [round_near hm hmode hEe hqE hE hfar]
  have hcut := hx.cut (q := q) fun h => by have := hlarge h; omega
  have hchoose : mode.Chooses neg (|x| / 2 ^ q) (roundAt mode neg m e st q rand) := hcut.chooses hmode neg rand
  refine ⟨fun _ => hchoose, fun _ => hcut.rest_iff hmode neg rand, fun _ => ?_, fun _ => ?_, fun hno => ?_, ?_, ?_⟩
  · show f.qmin ≤ q ∧ q ≤ f.emax - f.mb
    unfold qmin
    omega
  · by_cases hq : q = f.qmin
    · exact .inl hq
    · refine .inr (hchoose.ge_of_ge hmode (le_div_two_zpow ((two_zpow_le ?_).trans hlow)))
      unfold qmin at hq
      omega
  · by_cases hq : q = f.emax - f.mb
    · have hle : roundAt mode neg m e st q rand ≤ f.maxN := by simpa [hq] using hno
      exact hle.trans hmaxN.le
    · have hexp : E + 1 ≤ q + ((f.mb + 1 : Nat) : Int) := by push_cast; omega
      exact hchoose.le_of_le hmode (div_two_zpow_lt (hhigh.trans_le (two_zpow_le hexp))).le
  · by_cases hq : q = f.emax - f.mb
    · have hpast := hchoose.past_iff hmode f.maxN
      rw [hq] at hpast
      simpa [hq] using hpast
    · have hlt : |x| < (2 : ℚ) ^ f.emax := hhigh.trans_le (two_zpow_le (by omega))
      simp [hq, not_past_maxN hf hmode hlt]
  · exact tinyAt_iff hmode hm hx hEe fun h => by have := hlarge h; omega

theorem roundsTo : f.RoundsTo mode neg |x| (f.round mode rand neg m e st) := by
  by_cases hE : f.emax + 1 < Nat.log2 m + e
  · exact roundsTo_past hf hmode hm hx hE
  · by_cases hfar : (Nat.log2 m : Int) + e < f.place (Nat.log2 m + e) - 80
    · exact roundsTo_far hf hmode hm hx hfar
    · exact roundsTo_near hf hmode hm hx hE hfar

end

/-- Only `.rs` reads the random bits. -/
theorem round_rand (hmode : mode ≠ .rs) : f.round mode rand neg m e st = f.round mode 0 neg m e st := by
  have hup : ∀ odd r k b i, roundUp mode neg odd r k b i = roundUp mode neg odd r k b 0 := fun odd r k b i => by
    cases mode with
    | rs => exact absurd rfl hmode
    | _ => rfl
  simp only [FFmt.round, hup _ _ _ _ rand]

/-- How an overflow, a flush and a rounded magnitude are delivered (R113). -/
theorem finish_num (hmode : mode ≠ .rs) {r : Rounded} (hr : f.round mode rand neg m e st = r) (ftz : Bool) :
    f.finish mode ftz (.num neg m e st) =
      if r.ovf then
        (f.signBit neg + (if mode = .rne ∨ (mode = .ru ∧ neg = false) ∨ (mode = .rd ∧ neg = true) then f.maxCode + 1 else f.maxCode), fOF ||| fNX)
      else if r.tiny && ftz then (f.signBit neg, fUF ||| fNX)
      else (f.signBit neg + ((r.q - f.qmin).toNat * 2 ^ f.mb + r.n),
        (if r.tiny && r.inexact then fUF else 0) ||| (if r.inexact then fNX else 0)) := by
  rw [round_rand hmode] at hr
  cases mode with
  | rs => exact absurd rfl hmode
  | _ => simp [FFmt.finish, hr, infCode, codeOf, flagIf]

end FFmt

namespace Rnd

variable {mode : Rnd} {neg : Bool} {a u : ℚ} {n N : Nat}

/-- A choice in units of u. -/
theorem Chooses.scaled (h : mode.Chooses neg (a / u) n) (hu : 0 < u) :
    |n * u - a| < u ∧ (mode.Down neg → n * u ≤ a) ∧ (mode.Up neg → a ≤ n * u) ∧
      (mode = .rne → |n * u - a| ≤ u / 2 ∧ (|n * u - a| = u / 2 → n % 2 = 0)) := by
  have habs : |n * u - a| = |n - a / u| * u := by
    rw [← abs_of_pos hu, ← abs_mul, abs_of_pos hu, sub_mul, div_mul_cancel₀ _ hu.ne']
  rw [habs, div_eq_mul_one_div u 2, mul_comm u (1 / 2)]
  refine ⟨?_, fun hd => (le_div_iff₀ hu).1 (h.down hd), fun hup => (div_le_iff₀ hu).1 (h.up hup), fun hr => ?_⟩
  · simpa using mul_lt_mul_of_pos_right h.near hu
  · obtain ⟨hle, htie⟩ := h.nearest hr
    exact ⟨mul_le_mul_of_nonneg_right hle hu.le, fun heq => htie (mul_right_cancel₀ hu.ne' heq)⟩

/-- The thresholds in units of u. -/
theorem past_scaled (hu : 0 < u) :
    (mode.Down neg → (mode.Past neg N (a / u) ↔ (N + 1) * u ≤ a)) ∧ (mode.Up neg → (mode.Past neg N (a / u) ↔ N * u < a)) ∧
      (mode = .rne → (mode.Past neg N (a / u) ↔ (N + 1 / 2) * u < a ∨ (a = (N + 1 / 2) * u ∧ N % 2 = 1))) := by
  refine ⟨fun hd => ?_, fun hup => ?_, ?_⟩
  · rw [past_down hd, le_div_iff₀ hu]
  · rw [past_up hup, lt_div_iff₀ hu]
  · rintro rfl
    rw [past_rne, lt_div_iff₀ hu, div_eq_iff hu.ne']

end Rnd

namespace FFmt

variable {f : FFmt} {mode : Rnd} {neg : Bool} {a : ℚ} {r : Rounded}

/-- Where a rounding is tiny: under the least normal magnitude, by what the mode rounds up to it (R113). -/
theorem RoundsTo.tiny_iff (h : f.RoundsTo mode neg a r) :
    let least : ℚ := (2 : ℚ) ^ f.emin
    (mode.Down neg → (r.tiny = true ↔ a < least)) ∧ (mode.Up neg → (r.tiny = true ↔ a ≤ least - least / 2 ^ (f.mb + 1))) ∧
      (mode = .rne → (r.tiny = true ↔ a < least - least / 2 ^ (f.mb + 2))) := by
  intro least
  have hu := two_zpow_pos (f.emin - 1 - f.mb)
  have hleast : least = 2 ^ (f.mb + 1) * (2 : ℚ) ^ (f.emin - 1 - f.mb) := by
    rw [← zpow_natCast, ← two_zpow_add, show ((f.mb + 1 : Nat) : Int) + (f.emin - 1 - f.mb) = f.emin by push_cast; ring]
  have htiny := h.tiny
  have hN : ((2 ^ (f.mb + 1) - 1 : Nat) : ℚ) = 2 ^ (f.mb + 1) - 1 := by
    rw [Nat.cast_sub Nat.one_le_two_pow]
    push_cast
    rfl
  have hodd : (2 ^ (f.mb + 1) - 1) % 2 = 1 := by
    have : 1 ≤ 2 ^ f.mb := Nat.one_le_two_pow
    rw [pow_succ]
    omega
  obtain ⟨hdown, hup, hrne⟩ := Rnd.past_scaled (mode := mode) (neg := neg) (a := a) (N := 2 ^ (f.mb + 1) - 1) hu
  have hT : (0 : ℚ) < 2 ^ (f.mb + 1) := by positivity
  rw [hN] at hdown hup hrne
  generalize (2 : ℚ) ^ (f.emin - 1 - f.mb) = w at *
  have hquot : least / 2 ^ (f.mb + 1) = w := by rw [hleast, mul_div_cancel_left₀ _ hT.ne']
  have hhalf : least / 2 ^ (f.mb + 2) = w / 2 := by rw [← hquot, div_div, ← pow_succ]
  rw [hquot, hhalf, htiny]
  refine ⟨fun hd => ?_, fun hu' => ?_, fun hr => ?_⟩
  · rw [hdown hd, not_le, sub_add_cancel, hleast]
  · rw [hup hu', not_lt, hleast, sub_mul, one_mul]
  · rw [hrne hr, not_or, not_lt, hleast]
    simp only [hodd, and_true]
    rw [← lt_iff_le_and_ne]
    ring_nf

end FFmt

/-- Settles O43: the rounding meets `FFmt.RoundsTo`, whose thresholds are those of the statement in units of their places. -/
theorem roundingChoosesByMode : Obligations.RoundingChoosesByMode := by
  intro f hf mode rand m e neg st ftz x hmode hm hx r a v u top least down up
  have hr : f.RoundsTo mode neg a r := FFmt.roundsTo (FFmt.sound_of_mem hf) hmode hm hx
  have hu : 0 < u := two_zpow_pos r.q
  obtain ⟨hdown, hup, hrne⟩ := Rnd.past_scaled (mode := mode) (neg := neg) (a := a) (N := f.maxN) (two_zpow_pos (f.emax - f.mb))
  obtain ⟨htinyDown, htinyUp, htinyRne⟩ := hr.tiny_iff
  refine ⟨fun hovf => ?_, fun hd => hr.ovf.trans (hdown hd), fun hu => hr.ovf.trans (hup hu), fun hn => hr.ovf.trans (hrne hn),
    htinyDown, htinyUp, htinyRne, FFmt.finish_num hmode rfl ftz⟩
  obtain ⟨hnear, hlow, hhigh, hnearest⟩ := (hr.value hovf).scaled hu
  obtain ⟨hmin, hmax⟩ := hr.place hovf
  refine ⟨hnear, hlow, hhigh, hnearest, (hr.inexact hovf).trans (not_congr ?_), hmin, hmax, hr.full hovf, hr.small hovf⟩
  exact eq_div_iff hu.ne'

end Sys2Proof

/-! ## O10: conversions

Three parts. A number rounded to an integral value is the chosen integer of R110 at the place 0 (`toInt_of_chooses`). A magnitude under NL4 lies
between two points of its table, or past the last, and the mode chooses between them (`nl4Rounded_cvtToNl4`). Of a block, the exponent is that of R122
(`blockExp_spec`); it and the codes of one NL4 type are determined by the values, so that the errors of R123 can be compared
(`Nl4Block.unique`). -/

namespace Sys2Proof

/-! ### Rounding to an integral value (R185, R188) -/

theorem sgn_cast (s : Bool) (n : Nat) : ((sgn s n : Int) : ℚ) = if s then -(n : ℚ) else n := by
  cases s <;> simp [sgn]

theorem places_num (s : Bool) (m : Nat) (e : Int) : Places ((FVal.fin s m e).num) m e false := by
  cases s <;> simp [Places, FVal.num, sgn, abs_mul]

theorem abs_num (s : Bool) (m : Nat) (e : Int) : |(FVal.fin s m e).num| = (m : ℚ) * (2 : ℚ) ^ e := by
  have h := places_num s m e
  simpa [Places] using h.symm

theorem num_eq_abs (s : Bool) (m : Nat) (e : Int) : (FVal.fin s m e).num = if s then -|(FVal.fin s m e).num| else |(FVal.fin s m e).num| := by
  rw [abs_num, FVal.num, sgn_cast]
  cases s <;> simp

/-- The integer nearest to a number, the even one of two. -/
theorem Rnd.toInt_rne {q : ℚ} {z : Int} (hnear : |(z : ℚ) - q| ≤ 1 / 2) (htie : |(z : ℚ) - q| = 1 / 2 → z % 2 = 0) : Rnd.toInt .rne q = z := by
  obtain ⟨hlo, hhi⟩ := abs_le.1 hnear
  rcases le_or_gt (z : ℚ) q with hle | hgt
  · have hfloor : ⌊q⌋ = z := Int.floor_eq_iff.2 ⟨hle, by linarith⟩
    have hfrac : |(z : ℚ) - q| = q - z := by rw [abs_of_nonpos (by linarith)]; ring
    rw [hfrac] at hnear htie
    simp only [toInt, hfloor]
    split
    · rfl
    · next hlt => rw [if_neg (by linarith), if_pos (htie (by linarith))]
  · have hfloor : ⌊q⌋ = z - 1 := Int.floor_eq_iff.2 ⟨by push_cast; linarith, by push_cast; linarith⟩
    have hceil : ⌈q⌉ = z := Int.ceil_eq_iff.2 ⟨by linarith, hgt.le⟩
    have hfrac : |(z : ℚ) - q| = z - q := abs_of_pos (by linarith)
    rw [hfrac] at hnear htie
    simp only [toInt, hfloor, hceil]
    push_cast
    rw [if_neg (by linarith)]
    split
    · rfl
    · next hlt =>
      have heven := htie (by linarith)
      rw [if_neg (by omega)]

/-- What the mode chooses for a magnitude, with its sign, is the integer that R110 names. -/
theorem Rnd.toInt_of_chooses {mode : Rnd} (hm : mode ≠ .rs) {s : Bool} {y : ℚ} {n : Nat} (h : mode.Chooses s y n) (hy : 0 ≤ y) :
    mode.toInt (if s then -y else y) = sgn s n := by
  obtain ⟨hlo, hhi⟩ := abs_lt.1 h.near
  have hfloor : mode.Down s → ⌊y⌋ = n := fun hd => Int.floor_eq_iff.2 ⟨by exact_mod_cast h.down hd, by push_cast; linarith⟩
  have hceil : mode.Up s → ⌈y⌉ = n := fun hu => Int.ceil_eq_iff.2 ⟨by push_cast; linarith, by exact_mod_cast h.up hu⟩
  cases mode with
  | rs => exact absurd rfl hm
  | rne =>
    obtain ⟨hnear, htie⟩ := h.nearest rfl
    have habs : |((sgn s n : Int) : ℚ) - (if s then -y else y)| = |(n : ℚ) - y| := by
      rw [sgn_cast]
      cases s
      · rfl
      · rw [if_pos rfl, if_pos rfl, neg_sub_neg, abs_sub_comm]
    refine Rnd.toInt_rne (habs ▸ hnear) fun ht => ?_
    have heven := htie (habs ▸ ht)
    cases s <;> simp only [sgn, Bool.false_eq_true, if_false, if_true] <;> omega
  | rz =>
    have hf := hfloor (.inl rfl)
    cases s with
    | false => simp [toInt, sgn, hf, not_lt.2 hy]
    | true =>
      rcases hy.eq_or_lt with rfl | hpos
      · simpa [toInt, sgn, eq_comm] using hf
      · simp [toInt, sgn, hf, hpos, Int.ceil_neg]
  | ru =>
    cases s with
    | false => simpa [toInt, sgn] using hceil (.inl ⟨rfl, rfl⟩)
    | true => simpa [toInt, sgn, Int.ceil_neg] using hfloor (.inr (.inl ⟨rfl, rfl⟩))
  | rd =>
    cases s with
    | false => simpa [toInt, sgn] using hfloor (.inr (.inr ⟨rfl, rfl⟩))
    | true => simpa [toInt, sgn, Int.floor_neg] using hceil (.inr ⟨rfl, rfl⟩)

/-- `toIntegral` cuts the magnitude at the place 0. -/
theorem toIntegral_cut (s : Bool) (m : Nat) (e : Int) : ∃ n r k, Cut |(FVal.fin s m e).num| n r k false ∧
    ∀ mode : Rnd, toIntegral mode s m e = (roundCut mode s n r k false 0, r != 0) := by
  have hplaces := places_num s m e
  by_cases hm : m = 0
  · subst hm
    refine ⟨0, 0, 1, ⟨?_, ?_, ?_, ?_, ?_⟩, fun mode => ?_⟩
    · simp
    · simp [abs_num]
    · simp [abs_num]
    · simp [abs_num]
    · simp [abs_num]
    · simp [toIntegral, roundCut]
  · by_cases hfar : Nat.log2 m + 3 < (-e).toNat
    · obtain ⟨hlow, hhigh⟩ := hplaces.binade hm
      have hpos := (two_zpow_pos _).trans_le hlow
      have hhalf : |(FVal.fin s m e).num| < 1 / 2 := by
        refine hhigh.trans_le ((two_zpow_le (k := -1) (by omega)).trans_eq ?_)
        norm_num
      exact ⟨0, 1, 3, Cut.of_small hpos hhalf (by decide) false, fun mode => by simp [toIntegral, roundCut, hm, hfar]⟩
    · have hcut := hplaces.cut (q := 0) (by simp)
      rw [zpow_zero, div_one] at hcut
      exact ⟨_, _, _, hcut, fun mode => by simp [toIntegral, roundCut, quotAt, remAt, hm, hfar]⟩

/-- A number rounded to an integral value, and whether it differs. -/
theorem toIntegral_spec {mode : Rnd} (hm : mode ≠ .rs) (s : Bool) (m : Nat) (e : Int) :
    sgn s (toIntegral mode s m e).1 = mode.toInt (FVal.fin s m e).num ∧
    ((toIntegral mode s m e).2 = true ↔ ((mode.toInt (FVal.fin s m e).num : Int) : ℚ) ≠ (FVal.fin s m e).num) := by
  obtain ⟨n, r, k, hcut, heq⟩ := toIntegral_cut s m e
  have hint := Rnd.toInt_of_chooses hm (hcut.chooses hm s 0) (abs_nonneg _)
  have hrest := hcut.rest_iff hm s 0
  rw [← num_eq_abs] at hint
  rw [heq, hint]
  refine ⟨rfl, ?_⟩
  rw [Bool.or_false] at hrest
  rw [hrest, sgn_cast, not_iff_not]
  conv_rhs => rw [num_eq_abs]
  cases s <;> simp

theorem toIntegral_chooses {mode : Rnd} (hm : mode ≠ .rs) (s : Bool) (m : Nat) (e : Int) :
    mode.Chooses s |(FVal.fin s m e).num| (toIntegral mode s m e).1 := by
  obtain ⟨n, r, k, hcut, heq⟩ := toIntegral_cut s m e
  rw [heq]
  exact hcut.chooses hm s 0

/-! ### Conversion to an integer type (R185) -/

theorem Ty.int_bounds {t : Ty} (h : t.isI = true) : -2 ^ 63 ≤ t.minVal ∧ t.minVal ≤ 0 ∧ 0 ≤ t.maxVal ∧ t.maxVal < 2 ^ 64 := by
  revert h
  cases t <;> decide

/-- A number in an integer type: the integer that R110 names, saturated where it lies outside. -/
theorem cvtToInt_fin {t : Ty} (ht : t.isI = true) {mode : Rnd} (hm : mode ≠ .rs) (s : Bool) (m : Nat) (e : Int) :
    let c := FVal.fin s m e
    let x := mode.toInt c.num
    (t.minVal ≤ x ∧ x ≤ t.maxVal → cvtToInt t mode c = (x, if (x : ℚ) = c.num then 0 else fNX)) ∧
    (x < t.minVal → cvtToInt t mode c = (t.minVal, fNV)) ∧ (t.maxVal < x → cvtToInt t mode c = (t.maxVal, fNV)) := by
  intro c x
  obtain ⟨hlo, hlo0, hhi0, hhi⟩ := Ty.int_bounds ht
  obtain ⟨hint, hinexact⟩ := toIntegral_spec hm s m e
  have hflag : flagIf (toIntegral mode s m e).2 fNX = if (x : ℚ) = c.num then 0 else fNX := by
    unfold flagIf
    by_cases hx : (x : ℚ) = c.num
    · rw [if_neg fun h => hinexact.1 h hx, if_pos hx]
    · rw [if_pos (hinexact.2 hx), if_neg hx]
  by_cases hbig : 0 < m ∧ 70 < Nat.log2 m + e
  · have hlow := ((places_num s m e).binade hbig.1.ne').1
    have hmag : ((2 ^ 71 : Nat) : ℚ) ≤ |c.num| := by
      refine le_trans ?_ ((two_zpow_le (j := 71) (by omega)).trans hlow)
      norm_num
    have hN := (toIntegral_chooses hm s m e).ge_of_ge hm hmag
    have heq : cvtToInt t mode c = (if s then t.minVal else t.maxVal, fNV) := by simp only [cvtToInt, c, hbig, and_self, if_true]
    have hx : x = sgn s (toIntegral mode s m e).1 := hint.symm
    rw [heq]
    cases s
    · simp only [sgn, Bool.false_eq_true, if_false] at hx
      exact ⟨fun h => by omega, fun h => by omega, fun _ => rfl⟩
    · simp only [sgn, if_true] at hx
      exact ⟨fun h => by omega, fun _ => rfl, fun h => by omega⟩
  · have heq : cvtToInt t mode c = if t.minVal ≤ x ∧ x ≤ t.maxVal then (x, if (x : ℚ) = c.num then 0 else fNX) else (t.sat x, fNV) := by
      simp only [cvtToInt, c, hbig, if_false, hint, hflag, x]
    rw [heq]
    refine ⟨fun h => if_pos h, fun h => ?_, fun h => ?_⟩
    · rw [if_neg (by omega), Ty.sat, max_eq_left (by omega)]
    · rw [if_neg (by omega), Ty.sat, min_eq_left h.le, max_eq_right (by omega)]

/-! ### Conversion to a narrow kind (R120) -/

theorem narrowed_cvtToNarrow (f : FFmt) (mode : Rnd) (rand : Nat) (nan : Bool) (a : FVal) :
    f.Narrowed mode rand nan a (cvtToNarrow f mode rand nan a) := by
  cases a with
  | nan s => exact ⟨fun _ => rfl, by simp, by simp⟩
  | inf s => exact ⟨by simp [FVal.isNan], fun u hu => by cases hu; rfl, by simp⟩
  | fin s m e =>
    refine ⟨by simp [FVal.isNan], by simp, fun u n g hu => ?_⟩
    cases hu
    refine ⟨fun hm => ?_, fun hovf => ?_, fun _ hovf => ?_⟩
    · subst hm
      simp [cvtToNarrow, FFmt.round, FFmt.codeOf, flagIf]
    · simp only [cvtToNarrow, hovf, if_true]
    · simp only [cvtToNarrow, hovf, Bool.false_eq_true, if_false, FFmt.codeOf, flagIf]

/-- A value scaled by 2^n, rounded (R176). -/
theorem LitFlt.itself_fScale_times (l : LitFlt) (t : Ty) (c : FVal) (n : Int) : l.Itself t (c.times n) (l.fin t (fScale c n)) := by
  have h := l.itself_fScale t (c.times n)
  cases c with
  | nan s => exact h
  | inf s => exact h
  | fin s m e => simpa [fScale, FVal.times] using h

/-- An integer in a binary type, rounded (R185). -/
theorem LitFlt.rounds_int (l : LitFlt) (t : Ty) (x : Int) :
    l.Rounds t (x : ℚ) false (l.fin t (fScale (.fin (decide (x < 0)) x.natAbs 0) 0)) := by
  have h := l.rounds_dyRes t x 0 false
  have hres : dyRes x 0 false = fScale (.fin (decide (x < 0)) x.natAbs 0) 0 := by
    by_cases hx : x = 0
    · subst hx
      rfl
    · simp [dyRes, fScale, hx]
  rw [hres, zpow_zero, mul_one] at h
  exact h

end Sys2Proof

namespace Sys2Proof.Machine

/-! ### The words -/

/-- What `fcvt` leaves: words and flags (R184 to R187). -/
def Fibre.cvtOut (f : Fibre) (l : LitFlt) (t st : Ty) (r : Nat) (a : RegIx) : List Word × FFlags :=
  if cvtBlock st t l.sel.toNat then
    if t.isNarrow || t == .nl4 then cvtToBlock l t r ((f.blockElems st a).map fun x => st.fmt.daz l.den.dazOn (st.fmt.decode x))
    else cvtFromBlock l t st (f.blockCodes st a)
  else cvtScalar l t r (cvtSource st l.den (f.raw a st))

theorem State.fcvt_gives {s : State} {f : Fibre} {m : Mods LitFlt} {d a : RegIx} (h : s.Runs f (.fcvt m d a) m.g) {ws : List Word} {fl : FFlags} :
    let l := m.body (.dflt .f32 .s32 d)
    f.cvtOut l (l.ty .f32) (l.stype .s32) (f.V (m.xf (s.openGroup f).pin d)).toNat a = (ws, fl) →
      s.Gives f (.fcvt m d a) m.chains m.words 6 (f.wr d ws) [] fl := by
  intro l hout
  refine State.gives_of h.issuer (f.wr_nodup d ws) List.nodup_nil ?_
  rw [show ws = _ from (congrArg Prod.fst hout).symm, show fl = _ from (congrArg Prod.snd hout).symm]
  exact State.word_ok h rfl

/-- A word of one operand gives the results of its elements. -/
theorem State.flt1_gives {s : State} {f : Fibre} {i : Instr} {m : Mods LitFlt} {cls : Nat} {d a : RegIx} {op : LitFlt → Ty → FVal → Nat × FFlags}
    {rule : Nat → Nat × FFlags → Prop} (h : s.Runs f i m.g) (hexec : exec i s = s.flt1 i m cls d a op) :
    let l := m.body (.dflt .f32 .s32 d)
    let t := l.ty .f32
    (∀ k, rule k (op l t (f.elA l t a k))) → s.GivesElems f i m.chains m.words cls t d rule := by
  intro l t hrule
  refine ⟨(f.fsrc t l.den a).map (op l t), by simp [Fibre.fsrc, Fibre.elems, elemsOf], fun k v hv => ?_, ?_⟩
  · rw [List.getElem?_map] at hv
    obtain ⟨c, hc, rfl⟩ := Option.map_eq_some_iff.1 hv
    have hel : f.elA l t a k = c := by simp [Fibre.elA, List.getD_eq_getElem?_getD, hc]
    exact hel ▸ hrule k
  · exact State.gives_of h.issuer (f.wr_nodup d _) List.nodup_nil (hexec.trans (State.flt1_ok h))

end Sys2Proof.Machine

namespace Sys2Proof

/-! ### The exponent of a block (R122) -/

/-- The number that a significand and an exponent stand for. -/
def magVal (a : Nat × Int) : ℚ := (a.1 : ℚ) * (2 : ℚ) ^ a.2

theorem magVal_nonneg (a : Nat × Int) : 0 ≤ magVal a := mul_nonneg (Nat.cast_nonneg _) (two_zpow_pos _).le

theorem magVal_eq_zero {a : Nat × Int} : magVal a = 0 ↔ a.1 = 0 := by simp [magVal, (two_zpow_pos a.2).ne']

/-- The sign of a difference tells how two numbers compare. -/
theorem dyAdd_neg_iff (a b : Int) (e g : Int) :
    ((dyAdd a e (-b) g).1 < 0 ↔ (a : ℚ) * (2 : ℚ) ^ e < b * (2 : ℚ) ^ g) ∧
      ((dyAdd a e (-b) g).1 ≤ 0 ↔ (a : ℚ) * (2 : ℚ) ^ e ≤ b * (2 : ℚ) ^ g) := by
  have hv := dyAdd_value a (-b) e g
  have hpos := two_zpow_pos (dyAdd a e (-b) g).2
  rw [Int.cast_neg, neg_mul, ← sub_eq_add_neg] at hv
  rw [← sub_neg (a := (a : ℚ) * (2 : ℚ) ^ e), ← sub_nonpos (a := (a : ℚ) * (2 : ℚ) ^ e), ← hv]
  exact ⟨by rw [mul_neg_iff]; simp [hpos, not_lt.2 hpos.le], by rw [mul_nonpos_iff]; simp [hpos.le, not_le.2 hpos]⟩

theorem magVal_magMax (a b : Nat × Int) : magVal (magMax a b) = max (magVal a) (magVal b) := by
  have h := (dyAdd_neg_iff a.1 b.1 a.2 b.2).1
  unfold magMax
  split
  · next hlt => exact (max_eq_right (h.1 hlt).le).symm
  · next hge => exact (max_eq_left (not_lt.1 fun hlt => hge (h.2 hlt))).symm

/-- The greatest magnitude of a block, from a start on. -/
def magFold (xs : List FVal) (a : Nat × Int) : Nat × Int :=
  xs.foldl (fun acc v => match v with | .fin _ m e => magMax acc (m, e) | _ => acc) a

theorem magFold_spec (xs : List FVal) (a : Nat × Int) :
    magVal a ≤ magVal (magFold xs a) ∧ (∀ x ∈ xs, |x.num| ≤ magVal (magFold xs a)) ∧
      (magVal (magFold xs a) = magVal a ∨ ∃ x ∈ xs, |x.num| = magVal (magFold xs a)) := by
  induction xs generalizing a with
  | nil => simp [magFold]
  | cons v xs ih =>
    have hstep : ∃ b, magFold (v :: xs) a = magFold xs b ∧ magVal b = max (magVal a) |v.num| := by
      cases v with
      | nan s => exact ⟨a, rfl, by simp [FVal.num, magVal_nonneg]⟩
      | inf s => exact ⟨a, rfl, by simp [FVal.num, magVal_nonneg]⟩
      | fin s m e => exact ⟨magMax a (m, e), rfl, by rw [magVal_magMax, abs_num]; rfl⟩
    obtain ⟨b, heq, hb⟩ := hstep
    obtain ⟨hge, hall, hmem⟩ := ih b
    rw [heq]
    rw [hb] at hge hmem
    refine ⟨(le_max_left _ _).trans hge, ?_, ?_⟩
    · rintro x (_ | ⟨_, hx⟩)
      · exact (le_max_right _ _).trans hge
      · exact hall x hx
    · rcases hmem with hmem | ⟨x, hx, hmem⟩
      · rcases max_choice (magVal a) |v.num| with h | h
        · exact .inl (hmem.trans h)
        · exact .inr ⟨v, List.mem_cons_self, (hmem.trans h).symm⟩
      · exact .inr ⟨x, List.mem_cons_of_mem _ hx, hmem⟩

/-- ceil(log2) of a quotient: the least power of two that is not under it. -/
theorem ceilLog2Ratio_spec {m M : Nat} (hm : m ≠ 0) (hM : M ≠ 0) (a u : Int) :
    (m : ℚ) * (2 : ℚ) ^ a ≤ (M : ℚ) * (2 : ℚ) ^ u * (2 : ℚ) ^ (ceilLog2Ratio m a M u) ∧
      (M : ℚ) * (2 : ℚ) ^ u * (2 : ℚ) ^ (ceilLog2Ratio m a M u - 1) < (m : ℚ) * (2 : ℚ) ^ a := by
  have hplace : ∀ (n : Nat) (k : Int), Places ((n : ℚ) * (2 : ℚ) ^ k) n k false := fun n k => by
    simp [Places, abs_mul]
  have habs : ∀ (n : Nat) (k : Int), |(n : ℚ) * (2 : ℚ) ^ k| = (n : ℚ) * (2 : ℚ) ^ k := fun n k =>
    abs_of_nonneg (mul_nonneg (Nat.cast_nonneg _) (two_zpow_pos _).le)
  obtain ⟨hmlow, hmhigh⟩ := (hplace m a).binade hm
  obtain ⟨hMlow, hMhigh⟩ := (hplace M u).binade hM
  rw [habs] at hmlow hmhigh hMlow hMhigh
  have hle := (dyAdd_neg_iff m M a (u + (Nat.log2 m + a - (Nat.log2 M + u)))).2
  simp only [Int.cast_natCast] at hle
  unfold ceilLog2Ratio
  generalize he : (Nat.log2 m : Int) + a - (Nat.log2 M + u) = k at hle ⊢
  rw [two_zpow_add, ← mul_assoc] at hle
  dsimp only
  split
  · next h =>
    refine ⟨hle.1 h, lt_of_lt_of_le (mul_lt_mul_of_pos_right hMhigh (two_zpow_pos _)) (le_trans ?_ hmlow)⟩
    rw [← two_zpow_add]
    exact two_zpow_le (by omega)
  · next h =>
    refine ⟨hmhigh.le.trans (le_trans ?_ (mul_le_mul_of_nonneg_right hMlow (two_zpow_pos _).le)), ?_⟩
    · rw [← two_zpow_add]
      exact two_zpow_le (by omega)
    · rw [Int.add_sub_cancel]
      exact not_le.1 fun h1 => h (hle.2 h1)

/-- The exponent that the model computes is that of R122. -/
theorem blockExp_spec (xs : List FVal) {M : Nat} (hM : M ≠ 0) (u lo hi : Int) :
    BlockExp xs ((M : ℚ) * (2 : ℚ) ^ u) lo hi (blockExp xs M u lo hi) := by
  obtain ⟨-, hall, hmem⟩ := magFold_spec xs (0, 0)
  have heq : blockExp xs M u lo hi =
      max lo (min hi (if (magFold xs (0, 0)).1 = 0 then 0 else ceilLog2Ratio (magFold xs (0, 0)).1 (magFold xs (0, 0)).2 M u)) := rfl
  rw [heq]
  generalize magFold xs (0, 0) = amax at hall hmem
  by_cases h0 : amax.1 = 0
  · have hzero : ∀ x ∈ xs, x.num = 0 := fun x hx => abs_nonpos_iff.1 (magVal_eq_zero.2 h0 ▸ hall x hx)
    rw [if_pos h0]
    exact ⟨fun _ => rfl, fun ⟨x, hx, hne⟩ => absurd (hzero x hx) hne⟩
  · have hpos : magVal amax ≠ 0 := fun h => h0 (magVal_eq_zero.1 h)
    obtain ⟨x, hx, hxmax⟩ := hmem.resolve_left fun h => hpos (h.trans (magVal_eq_zero.2 rfl))
    obtain ⟨hle, hlt⟩ := ceilLog2Ratio_spec h0 hM amax.2 u
    rw [if_neg h0]
    refine ⟨fun hzero => absurd hxmax (by simp [hzero x hx, hpos.symm]), fun _ => ⟨_, fun y hy => (hall y hy).trans hle, ⟨x, hx, ?_⟩, rfl⟩⟩
    rw [hxmax]
    exact hlt

/-- The values of a block determine its exponent. -/
theorem BlockExp.unique {xs : List FVal} {maxf : ℚ} (hmax : 0 < maxf) {lo hi e g : Int} (he : BlockExp xs maxf lo hi e)
    (hg : BlockExp xs maxf lo hi g) : e = g := by
  by_cases hzero : ∀ x ∈ xs, x.num = 0
  · rw [he.1 hzero, hg.1 hzero]
  · push Not at hzero
    obtain ⟨j, hj, ⟨x, hx, hxj⟩, rfl⟩ := he.2 hzero
    obtain ⟨k, hk, ⟨y, hy, hyk⟩, rfl⟩ := hg.2 hzero
    have hle : ∀ {j k : Int} {b : ℚ}, b ≤ maxf * (2 : ℚ) ^ j → maxf * (2 : ℚ) ^ (k - 1) < b → k ≤ j := fun h1 h2 => by
      have h3 := (zpow_lt_zpow_iff_right₀ one_lt_two).1 (lt_of_mul_lt_mul_left (h2.trans_le h1) hmax.le)
      omega
    rw [le_antisymm (hle (hk x hx) hxj) (hle (hj y hy) hyk)]

/-! ### The elements of a block -/

/-- The elements of a block, each converted by itself. -/
theorem blockOf_zipIdx {xs : List FVal} {fn : FVal × Nat → Nat × FFlags} {rule : Nat → FVal → Nat × FFlags → Prop}
    (h : ∀ i x, xs[i]? = some x → rule i x (fn (x, i))) :
    BlockOf xs ((xs.zipIdx.map fn).map (·.1)) (orFlags (xs.zipIdx.map fn)) rule := by
  refine ⟨xs.zipIdx.map fn, by simp, rfl, rfl, fun i x v hx hv => ?_⟩
  rw [List.getElem?_map, List.getElem?_zipIdx, hx] at hv
  obtain rfl : fn (x, i) = v := by simpa using hv
  exact h i x hx

/-- Where a rule leaves one result, the elements of a block determine their codes. -/
theorem BlockOf.unique {xs : List FVal} {cs ds : List Nat} {fl gl : FFlags} {rule : Nat → FVal → Nat × FFlags → Prop}
    (hrule : ∀ i x v w, rule i x v → rule i x w → v = w) (hc : BlockOf xs cs fl rule) (hd : BlockOf xs ds gl rule) : cs = ds := by
  obtain ⟨vs, hvlen, rfl, -, hv⟩ := hc
  obtain ⟨ws, hwlen, rfl, -, hw⟩ := hd
  congr 1
  refine List.ext_getElem (hvlen.trans hwlen.symm) fun i h1 h2 => ?_
  have hx : i < xs.length := hvlen ▸ h1
  exact hrule i xs[i] _ _ (hv i _ _ (List.getElem?_eq_getElem hx) (List.getElem?_eq_getElem h1))
    (hw i _ _ (List.getElem?_eq_getElem hx) (List.getElem?_eq_getElem h2))

theorem any_not_fin {xs : List FVal} : (xs.any fun v => v.isNan || v.isInf) = true ↔ ∃ x ∈ xs, x.isFin = false := by
  rw [List.any_eq_true]
  refine exists_congr fun x => and_congr_right fun _ => ?_
  cases x <;> simp [FVal.isNan, FVal.isInf, FVal.isFin]

theorem FVal.exists_of_isFin {x : FVal} (h : x.isFin = true) : ∃ s m e, x = .fin s m e := by
  cases x with
  | fin s m e => exact ⟨s, m, e, rfl⟩
  | nan s => cases h
  | inf s => cases h

/-- A block of a narrow kind, as the model converts it, is that of R122. -/
theorem blockE8m0_cvtBlockE8m0 {f : FFmt} (hM : f.maxN ≠ 0) (mode : Rnd) (r : Nat) (nan : Bool) (xs : List FVal) :
    let b := cvtBlockE8m0 f mode r nan xs
    f.BlockE8m0 mode r nan xs b.1 b.2.1 b.2.2 := by
  intro b
  by_cases hfin : ∃ x ∈ xs, x.isFin = false
  · have hb : b = (xs.map fun _ => 0, 255, fNV) := if_pos (any_not_fin.2 hfin)
    rw [hb]
    exact ⟨fun _ => ⟨rfl, rfl, rfl⟩, fun hall => by obtain ⟨x, hx, hno⟩ := hfin; simp [hall x hx] at hno⟩
  · simp only [b, cvtBlockE8m0, if_neg (mt any_not_fin.1 hfin)]
    refine ⟨fun h => absurd h hfin, fun hall => ⟨blockExp xs f.maxN (f.emax - f.mb) (-127) 127, blockExp_spec xs hM _ _ _, ?_, ?_⟩⟩
    · have hlow : -127 ≤ blockExp xs f.maxN (f.emax - f.mb) (-127) 127 := le_max_left _ _
      omega
    · refine blockOf_zipIdx fun i x hx => ?_
      obtain ⟨s, n, g, rfl⟩ := FVal.exists_of_isFin (hall x (List.mem_of_getElem? hx))
      exact narrowed_cvtToNarrow f mode (randOf r i) nan _

/-! ### The points of an NL4 type (Table 7.7) -/

/-- The magnitudes of an NL4 type, continued by twice the largest, in its unit. -/
def nl4Pts (ty : Nat) : List Nat := (nl4Mags ty).1 ++ [2 * (nl4Mags ty).1.getD 7 0]

theorem nl4Mags_length (ty : Nat) : (nl4Mags ty).1.length = 8 := by
  unfold nl4Mags
  split <;> rfl

theorem nl4Pts_length (ty : Nat) : (nl4Pts ty).length = 9 := by simp [nl4Pts, nl4Mags_length]

theorem nl4Pts_increasing (ty : Nat) : (nl4Pts ty).Pairwise (· < ·) := by
  unfold nl4Pts nl4Mags
  split <;> decide

theorem nl4Pts_zero (ty : Nat) : (nl4Pts ty).getD 0 0 = 0 := by
  unfold nl4Pts nl4Mags
  split <;> rfl

theorem nl4Pts_lt (ty : Nat) {i j : Nat} (h : i < j) (hj : j ≤ 8) : (nl4Pts ty).getD i 0 < (nl4Pts ty).getD j 0 := by
  have hlen := nl4Pts_length ty
  rw [List.getD_eq_getElem _ _ (by omega), List.getD_eq_getElem _ _ (by omega)]
  exact List.pairwise_iff_getElem.1 (nl4Pts_increasing ty) i j (by omega) (by omega) h

theorem nl4Point_eq (ty : Nat) {i : Nat} (hi : i ≤ 8) : nl4Point ty i = ((nl4Pts ty).getD i 0 : ℚ) * (2 : ℚ) ^ (nl4Mags ty).2 := by
  have hlen := nl4Mags_length ty
  unfold nl4Point nl4Pts
  congr 2
  split
  · next h => rw [h, List.getD_append_right _ _ _ _ (by omega), hlen]; rfl
  · next h => rw [List.getD_append _ _ _ _ (by omega)]

theorem nl4Point_lt (ty : Nat) {i j : Nat} (h : i < j) (hj : j ≤ 8) : nl4Point ty i < nl4Point ty j := by
  rw [nl4Point_eq ty (by omega), nl4Point_eq ty hj]
  exact mul_lt_mul_of_pos_right (by exact_mod_cast nl4Pts_lt ty h hj) (two_zpow_pos _)

/-- Of a rising list, those that x is not under come first. -/
theorem filter_le_split {l : List Nat} (hl : l.Pairwise (· < ·)) (x : Nat) :
    (∀ j < (l.filter (· ≤ x)).length, l.getD j 0 ≤ x) ∧ (∀ j < l.length, (l.filter (· ≤ x)).length ≤ j → x < l.getD j 0) := by
  induction l with
  | nil => simp
  | cons a l ih =>
    obtain ⟨hhead, htail⟩ := List.pairwise_cons.1 hl
    obtain ⟨hle, hlt⟩ := ih htail
    by_cases ha : a ≤ x
    · have hfilter : ((a :: l).filter (· ≤ x)).length = (l.filter (· ≤ x)).length + 1 := by
        rw [List.filter_cons_of_pos (by simpa using ha), List.length_cons]
      refine ⟨fun j hj => ?_, fun j h hj => ?_⟩
      · cases j with
        | zero => exact ha
        | succ j => exact hle j (by omega)
      · cases j with
        | zero => omega
        | succ j => exact hlt j (by simpa using h) (by omega)
    · have hnone : (a :: l).filter (· ≤ x) = [] := by
        refine List.filter_eq_nil_iff.2 fun b hb => ?_
        rcases List.mem_cons.1 hb with rfl | hb
        · simpa using ha
        · have := hhead b hb
          simp only [decide_eq_true_eq]
          omega
      rw [hnone]
      refine ⟨fun j hj => absurd hj (by simp), fun j h _ => ?_⟩
      cases j with
      | zero => exact not_le.1 ha
      | succ j =>
        have hj : j < l.length := by simpa using h
        rw [List.getD_cons_succ, List.getD_eq_getElem _ _ hj]
        exact (not_le.1 ha).trans (hhead _ (List.getElem_mem hj))

end Sys2Proof

namespace Sys2Proof

/-! ### Rounding to a point of an NL4 type (R110, R111, R120) -/

/-- Whether the upper of two points is chosen, the lower of index i, from the remainder r of their distance d. -/
def nl4Up (mode : Rnd) (neg : Bool) (i r d rand : Nat) : Bool :=
  match mode with
  | .rne => decide (d < 2 * r) || (2 * r == d && i % 2 == 1)
  | .rz => false
  | .ru => !neg && r != 0
  | .rd => neg && r != 0
  | .rs => decide (rand < r * 2 ^ 32 / d)

/-- The index of the greatest point that x units of 2^−k are not under. -/
def nl4Index (ty x k : Nat) : Nat := (((nl4Pts ty).map (· * 2 ^ k)).filter (· ≤ x)).length - 1

/-- The code chosen for x units of 2^−k. -/
def nl4Pick (ty : Nat) (mode : Rnd) (rand : Nat) (neg : Bool) (x k : Nat) : Nat × FFlags :=
  let i := nl4Index ty x k
  let lo := (nl4Pts ty).getD i 0 * 2 ^ k
  let hi := (nl4Pts ty).getD (i + 1) 0 * 2 ^ k
  let j := if i = 8 then 8 else if nl4Up mode neg i (x - lo) (hi - lo) rand then i + 1 else i
  if j = 8 then (nl4Code ty 7 neg, fOF ||| fNX) else (nl4Code ty j neg, flagIf (x - lo != 0) fNX)

/-- The model picks in units of the type, or, far under them, from one unit of 2^−40. -/
theorem cvtToNl4_eq (ty : Nat) (mode : Rnd) (rand : Nat) (neg : Bool) (m : Nat) (e : Int) :
    cvtToNl4 ty mode rand neg m e =
      if m ≠ 0 ∧ Nat.log2 m + e < (nl4Mags ty).2 - 40 then nl4Pick ty mode rand neg 1 40
      else nl4Pick ty mode rand neg (m * 2 ^ (e - (nl4Mags ty).2).toNat) ((nl4Mags ty).2 - e).toNat := by
  have htail : ∀ x k : Nat, nl4Pick ty mode rand neg x k =
      let i := nl4Index ty x k
      if i = 8 then (nl4Code ty 7 neg, fOF ||| fNX)
      else
        let lo := (nl4Pts ty).getD i 0 * 2 ^ k
        let hi := (nl4Pts ty).getD (i + 1) 0 * 2 ^ k
        let j := if nl4Up mode neg i (x - lo) (hi - lo) rand then i + 1 else i
        if j = 8 then (nl4Code ty 7 neg, fOF ||| fNX) else (nl4Code ty j neg, flagIf (x - lo != 0) fNX) := fun x k => by
    unfold nl4Pick
    by_cases h : nl4Index ty x k = 8 <;> simp [h]
  rw [htail, htail]
  generalize hu : (nl4Mags ty).2 = u
  by_cases hfar : m ≠ 0 ∧ Nat.log2 m + e < u - 40
  · have hk : (u - (u - 40)).toNat = 40 := by omega
    have hj : (u - 40 - u).toNat = 0 := by omega
    rw [if_pos hfar]
    unfold cvtToNl4
    simp only [hu, decide_eq_true hfar, if_true, hk, hj, pow_zero, mul_one]
    rfl
  · rw [if_neg hfar]
    unfold cvtToNl4
    simp only [hu, decide_eq_false hfar, Bool.false_eq_true, if_false]
    rfl

/-- A remainder r of d, as a fraction. -/
theorem fraction_facts (r : Nat) {d : Nat} (hd : 0 < d) :
    (d < 2 * r ↔ (1 : ℚ) / 2 < r / d) ∧ (2 * r = d ↔ (r : ℚ) / d = 1 / 2) ∧ (r ≠ 0 ↔ (0 : ℚ) < r / d) ∧
      ((r * 2 ^ 32 / d : Nat) : Int) = ⌊(r : ℚ) / d * 2 ^ 32⌋ := by
  have hD : (0 : ℚ) < d := by exact_mod_cast hd
  refine ⟨?_, ?_, ?_, ?_⟩
  · rw [div_lt_div_iff₀ two_pos hD]
    exact_mod_cast (by rw [one_mul, mul_comm] : d < 2 * r ↔ 1 * d < r * 2)
  · rw [div_eq_div_iff hD.ne' two_ne_zero]
    exact_mod_cast (by rw [one_mul, mul_comm] : 2 * r = d ↔ r * 2 = 1 * d)
  · rw [lt_div_iff₀ hD, zero_mul, Nat.cast_pos, Nat.pos_iff_ne_zero]
  · have hfloor := Rat.floor_natCast_div_natCast (r * 2 ^ 32) d
    rw [div_mul_eq_mul_div]
    push_cast at hfloor ⊢
    exact hfloor.symm

/-- x units of 2^−k stand for y: they lie between the same integers, and at the same fraction of the way as far as any mode can see. -/
structure Stands (y : ℚ) (x k : Nat) : Prop where
  point : ∀ p : Nat, p * 2 ^ k ≤ x ↔ (p : ℚ) ≤ y
  fraction : ∀ lo hi : Nat, lo < hi → (lo : ℚ) ≤ y → y < hi →
    let r := x - lo * 2 ^ k
    let d := hi * 2 ^ k - lo * 2 ^ k
    let t := (y - lo) / (hi - lo)
    (d < 2 * r ↔ 1 / 2 < t) ∧ (2 * r = d ↔ t = 1 / 2) ∧ (r ≠ 0 ↔ 0 < t) ∧ ((r * 2 ^ 32 / d : Nat) : Int) = ⌊t * 2 ^ 32⌋

theorem Stands.of_eq {y : ℚ} {x k : Nat} (h : (x : ℚ) = y * 2 ^ k) : Stands y x k := by
  have hT : (0 : ℚ) < 2 ^ k := by positivity
  have hpoint : ∀ p : Nat, p * 2 ^ k ≤ x ↔ (p : ℚ) ≤ y := fun p => by
    rw [← mul_le_mul_iff_left₀ hT, ← h]
    exact_mod_cast Iff.rfl
  refine ⟨hpoint, ?_⟩
  intro lo hi hlt hlo _ r d t
  have hd : 0 < d := Nat.sub_pos_of_lt (Nat.mul_lt_mul_of_pos_right hlt (by positivity))
  have ht : t = r / d := by
    have hgap : (hi : ℚ) - lo ≠ 0 := (sub_pos.2 (by exact_mod_cast hlt)).ne'
    simp only [t, r, d]
    rw [Nat.cast_sub ((hpoint lo).2 hlo), Nat.cast_sub (Nat.mul_le_mul_right _ hlt.le), h]
    push_cast
    rw [← sub_mul, ← sub_mul, mul_div_mul_right _ _ hT.ne']
  rw [ht]
  exact fraction_facts r hd

theorem Stands.of_far {y : ℚ} (h0 : 0 < y) (h1 : y * 2 ^ 40 < 1) : Stands y 1 40 := by
  have hy : y < 1 / 2 ^ 40 := by rwa [lt_div_iff₀ (by positivity)]
  have hsmall : (1 : ℚ) / 2 ^ 40 < 1 := by norm_num
  have hzero : ∀ p : Nat, (p : ℚ) ≤ y → p = 0 := fun p hp => by
    have hp1 : (p : ℚ) < 1 := by linarith
    exact Nat.lt_one_iff.1 (by exact_mod_cast hp1)
  refine ⟨fun p => ⟨fun hp => ?_, fun hp => by simp [hzero p hp]⟩, ?_⟩
  · obtain rfl : p = 0 := by omega
    simpa using h0.le
  · intro lo hi hlt hlo _ r d t
    obtain rfl := hzero lo hlo
    have hhi : (1 : ℚ) ≤ hi := by exact_mod_cast hlt
    have ht : t = y / hi := by simp [t]
    have ht0 : 0 < t := ht ▸ div_pos h0 (by linarith)
    have ht1 : t < 1 / 2 ^ 40 := ht ▸ (div_le_self h0.le hhi).trans_lt hy
    have hr : r = 1 := by simp [r]
    have hd : 2 ^ 40 ≤ d := by
      simp only [d, zero_mul, Nat.sub_zero]
      exact Nat.le_mul_of_pos_left _ hlt
    have hfloor : ⌊t * 2 ^ 32⌋ = 0 := Int.floor_eq_zero_iff.2 ⟨by positivity, by norm_num at ht1 ⊢; linarith⟩
    have hshare : r * 2 ^ 32 / d = 0 := Nat.div_eq_of_lt (by omega)
    norm_num at ht1
    refine ⟨⟨fun h => by omega, fun h => by linarith⟩, ⟨fun h => by omega, fun h => by linarith⟩, ⟨fun _ => ht0, fun _ => by omega⟩, ?_⟩
    rw [hshare, hfloor]
    rfl

/-- Where a number stands among the points of its type. -/
theorem nl4Index_spec (ty : Nat) {y : ℚ} {x k : Nat} (h : Stands y x k) :
    nl4Index ty x k ≤ 8 ∧ ((nl4Pts ty).getD (nl4Index ty x k) 0 : ℚ) ≤ y ∧
      (nl4Index ty x k < 8 → y < (nl4Pts ty).getD (nl4Index ty x k + 1) 0) := by
  have hlen := nl4Pts_length ty
  have hsorted : ((nl4Pts ty).map (· * 2 ^ k)).Pairwise (· < ·) :=
    (nl4Pts_increasing ty).map _ fun a b hab => Nat.mul_lt_mul_of_pos_right hab (by positivity)
  have hget : ∀ j, ((nl4Pts ty).map (· * 2 ^ k)).getD j 0 = (nl4Pts ty).getD j 0 * 2 ^ k := fun j => by
    simpa using List.getD_map (f := (· * 2 ^ k)) (d := 0) (l := nl4Pts ty) (n := j)
  obtain ⟨hle, hlt⟩ := filter_le_split hsorted x
  simp only [hget, List.length_map, hlen] at hle hlt
  have hcount : (((nl4Pts ty).map (· * 2 ^ k)).filter (· ≤ x)).length ≤ 9 := by
    simpa [hlen] using List.length_filter_le (fun b => decide (b ≤ x)) ((nl4Pts ty).map (· * 2 ^ k))
  have hpos : (((nl4Pts ty).map (· * 2 ^ k)).filter (· ≤ x)).length ≠ 0 := fun h0 => by
    have := hlt 0 (by omega) (by omega)
    rw [nl4Pts_zero] at this
    omega
  unfold nl4Index
  generalize (((nl4Pts ty).map (· * 2 ^ k)).filter (· ≤ x)).length = c at hle hlt hcount hpos
  refine ⟨by omega, (h.point _).1 (hle _ (by omega)), fun hi => ?_⟩
  have hnext := hlt (c - 1 + 1) (by omega) (by omega)
  exact not_le.1 fun hno => absurd ((h.point _).2 hno) (by omega)

theorem nl4Up_zero {mode : Rnd} {neg : Bool} {i d rand : Nat} (hd : 0 < d) : nl4Up mode neg i 0 d rand = false := by
  cases mode <;> simp [nl4Up, hd.ne]

/-- The mode takes the upper of the points lo and hi about the magnitude a, the lower one of index i (R110, R111). -/
def Nl4GoesUp (mode : Rnd) (rand : Nat) (neg : Bool) (i : Nat) (lo hi a : ℚ) : Prop :=
  match mode with
  | .rne => hi - a < a - lo ∨ (hi - a = a - lo ∧ i % 2 = 1)
  | .rz => False
  | .ru => neg = false ∧ lo < a
  | .rd => neg = true ∧ lo < a
  | .rs => (rand : Int) < ⌊(a - lo) / (hi - lo) * 2 ^ 32⌋

/-- The rule of R110 and R120 with its five modes in one. -/
theorem nl4Rounded_iff {ty : Nat} {mode : Rnd} {rand : Nat} {q : ℚ} {v : Nat × FFlags} :
    Nl4Rounded ty mode rand q v ↔ (q = 0 → v = (0, 0)) ∧
      (q ≠ 0 → ∃ i j, i ≤ 8 ∧ nl4Point ty i ≤ |q| ∧ (i < 8 → |q| < nl4Point ty (i + 1)) ∧
        v = (if j = 8 then (nl4Code ty 7 (decide (q < 0)), fOF ||| fNX)
          else (nl4Code ty j (decide (q < 0)), if nl4Point ty j = |q| then 0 else fNX)) ∧
        (i = 8 → j = 8) ∧
        (i < 8 → (Nl4GoesUp mode rand (decide (q < 0)) i (nl4Point ty i) (nl4Point ty (i + 1)) |q| → j = i + 1) ∧
          (¬Nl4GoesUp mode rand (decide (q < 0)) i (nl4Point ty i) (nl4Point ty (i + 1)) |q| → j = i))) := by
  unfold Nl4Rounded
  cases mode <;> simp [Nl4GoesUp]

theorem nl4Up_iff {ty : Nat} {y w : ℚ} {x k i : Nat} (h : Stands y x k) (hw : 0 < w) (hi : i < 8)
    (hlo : ((nl4Pts ty).getD i 0 : ℚ) ≤ y) (hhi : y < (nl4Pts ty).getD (i + 1) 0) (mode : Rnd) (neg : Bool) (rand : Nat) :
    nl4Up mode neg i (x - (nl4Pts ty).getD i 0 * 2 ^ k) ((nl4Pts ty).getD (i + 1) 0 * 2 ^ k - (nl4Pts ty).getD i 0 * 2 ^ k) rand = true ↔
      Nl4GoesUp mode rand neg i ((nl4Pts ty).getD i 0 * w) ((nl4Pts ty).getD (i + 1) 0 * w) (y * w) := by
  have hlt := nl4Pts_lt ty (Nat.lt_succ_self i) hi
  obtain ⟨hover, htie, hrest, hshare⟩ := h.fraction _ _ hlt hlo hhi
  have hgap : (0 : ℚ) < (nl4Pts ty).getD (i + 1) 0 - (nl4Pts ty).getD i 0 := sub_pos.2 (by exact_mod_cast hlt)
  generalize ((nl4Pts ty).getD (i + 1) 0 : ℚ) = hi at *
  generalize ((nl4Pts ty).getD i 0 : ℚ) = lo at *
  have hlow : lo * w < y * w ↔ 0 < (y - lo) / (hi - lo) := by
    rw [mul_lt_mul_iff_left₀ hw, lt_div_iff₀ hgap, zero_mul, sub_pos]
  cases mode with
  | rne =>
    have hover' : hi * w - y * w < y * w - lo * w ↔ 1 / 2 < (y - lo) / (hi - lo) := by
      rw [← sub_mul, ← sub_mul, mul_lt_mul_iff_left₀ hw, lt_div_iff₀ hgap]
      constructor <;> intro h <;> linarith
    have htie' : hi * w - y * w = y * w - lo * w ↔ (y - lo) / (hi - lo) = 1 / 2 := by
      rw [← sub_mul, ← sub_mul, mul_left_inj' hw.ne', div_eq_iff hgap.ne']
      constructor <;> intro h <;> linarith
    simp only [nl4Up, Nl4GoesUp, Bool.or_eq_true, Bool.and_eq_true, decide_eq_true_eq, beq_iff_eq, hover, htie, hover', htie']
  | rz => simp [nl4Up, Nl4GoesUp]
  | ru => simp only [nl4Up, Nl4GoesUp, Bool.and_eq_true, Bool.not_eq_true', bne_iff_ne, hrest, hlow]
  | rd => simp only [nl4Up, Nl4GoesUp, Bool.and_eq_true, bne_iff_ne, hrest, hlow]
  | rs =>
    have hshare' : (y * w - lo * w) / (hi * w - lo * w) = (y - lo) / (hi - lo) := by
      rw [← sub_mul, ← sub_mul, mul_div_mul_right _ _ hw.ne']
    simp only [nl4Up, Nl4GoesUp, decide_eq_true_eq, hshare', ← hshare, Nat.cast_lt]

/-- Which of two points is taken for a number between them is that number itself exactly where nothing is left over. -/
theorem nl4_exact_iff {ty : Nat} {mode : Rnd} {neg : Bool} {rand : Nat} {y : ℚ} {x k i : Nat} (h : Stands y x k) (hi : i < 8)
    (hle : ((nl4Pts ty).getD i 0 : ℚ) ≤ y) (hlt : y < (nl4Pts ty).getD (i + 1) 0) :
    let r := x - (nl4Pts ty).getD i 0 * 2 ^ k
    let d := (nl4Pts ty).getD (i + 1) 0 * 2 ^ k - (nl4Pts ty).getD i 0 * 2 ^ k
    ((nl4Pts ty).getD (if nl4Up mode neg i r d rand then i + 1 else i) 0 : ℚ) = y ↔ r = 0 := by
  intro r d
  have hP := nl4Pts_lt ty (Nat.lt_succ_self i) hi
  have hgap : (0 : ℚ) < ((nl4Pts ty).getD (i + 1) 0 : ℚ) - ((nl4Pts ty).getD i 0 : ℚ) := sub_pos.2 (by exact_mod_cast hP)
  have hd : 0 < d := Nat.sub_pos_of_lt (Nat.mul_lt_mul_of_pos_right hP (by positivity))
  have hrest : r ≠ 0 ↔ ((nl4Pts ty).getD i 0 : ℚ) < y := by
    rw [(h.fraction _ _ hP hle hlt).2.2.1, lt_div_iff₀ hgap, zero_mul, sub_pos]
  constructor
  · intro heq
    by_contra hr
    split at heq
    · exact hlt.ne heq.symm
    · exact (hrest.1 hr).ne heq
  · intro hr
    rw [hr, nl4Up_zero hd, if_neg Bool.false_ne_true]
    exact le_antisymm hle (not_lt.1 fun h1 => hrest.2 h1 hr)

/-- A number that is 0 is picked as 0. -/
theorem nl4Pick_zero (ty : Nat) (mode : Rnd) (rand : Nat) (neg : Bool) {x k : Nat} (h : Stands 0 x k) :
    nl4Pick ty mode rand neg x k = (0, 0) := by
  obtain ⟨hi8, hle, hnext⟩ := nl4Index_spec ty h
  have hi : nl4Index ty x k = 0 := by
    by_contra hi
    have hP := nl4Pts_lt ty (Nat.pos_of_ne_zero hi) hi8
    have hzero : (nl4Pts ty).getD (nl4Index ty x k) 0 ≤ 0 := by exact_mod_cast hle
    omega
  rw [hi] at hle hnext
  have hP := nl4Pts_lt ty Nat.zero_lt_one (by decide)
  have hd : 0 < (nl4Pts ty).getD (0 + 1) 0 * 2 ^ k - (nl4Pts ty).getD 0 0 * 2 ^ k :=
    Nat.sub_pos_of_lt (Nat.mul_lt_mul_of_pos_right hP (by positivity))
  have hr : x - (nl4Pts ty).getD 0 0 * 2 ^ k = 0 := by
    have hrest := (h.fraction _ _ hP hle (hnext (by decide))).2.2.1
    rw [nl4Pts_zero] at hrest ⊢
    by_contra hno
    exact absurd (hrest.1 hno) (by simp)
  simp only [nl4Pick, hi, hr, nl4Up_zero hd]
  rfl

/-- The code that is picked is that of R110 and R120. -/
theorem nl4Rounded_nl4Pick (ty : Nat) (mode : Rnd) (rand : Nat) {neg : Bool} {q : ℚ} (hneg : q ≠ 0 → neg = decide (q < 0)) {x k : Nat}
    (h : Stands (|q| / (2 : ℚ) ^ (nl4Mags ty).2) x k) : Nl4Rounded ty mode rand q (nl4Pick ty mode rand neg x k) := by
  rw [nl4Rounded_iff]
  refine ⟨fun h0 => nl4Pick_zero ty mode rand neg (by simpa [h0] using h), fun h0 => ?_⟩
  obtain ⟨hi8, hle, hnext⟩ := nl4Index_spec ty h
  have hw := two_zpow_pos (nl4Mags ty).2
  have ha : |q| = |q| / (2 : ℚ) ^ (nl4Mags ty).2 * (2 : ℚ) ^ (nl4Mags ty).2 := (div_mul_cancel₀ _ hw.ne').symm
  have hpoint := @nl4Point_eq ty
  unfold nl4Pick
  generalize nl4Index ty x k = i at hi8 hle hnext
  generalize |q| / (2 : ℚ) ^ (nl4Mags ty).2 = y at h hle hnext ha
  generalize (2 : ℚ) ^ (nl4Mags ty).2 = w at hw ha hpoint
  rw [← hneg h0, ha]
  rcases Nat.lt_or_eq_of_le hi8 with hi | rfl
  · have hlt := hnext hi
    have hup := nl4Up_iff h hw hi hle hlt mode neg rand
    have hexact := nl4_exact_iff (mode := mode) (neg := neg) (rand := rand) h hi hle hlt
    rw [← hpoint hi8, ← hpoint hi] at hup
    simp only [hi.ne, if_false]
    dsimp only at hexact
    generalize nl4Up mode neg i _ _ rand = up at hup hexact ⊢
    have hj8 : (if up = true then i + 1 else i) ≤ 8 := by split <;> omega
    have hflag : flagIf (x - (nl4Pts ty).getD i 0 * 2 ^ k != 0) fNX =
        if nl4Point ty (if up = true then i + 1 else i) = y * w then 0 else fNX := by
      simp only [hpoint hj8, mul_left_inj' hw.ne', hexact, flagIf, bne_iff_ne, ne_eq, ite_not]
    refine ⟨i, if up = true then i + 1 else i, hi8, ?_, fun _ => ?_, ?_, fun h8 => absurd h8 hi.ne, fun _ => ⟨fun hgo => ?_, fun hno => ?_⟩⟩
    · rw [hpoint hi8]
      exact mul_le_mul_of_nonneg_right hle hw.le
    · rw [hpoint hi]
      exact mul_lt_mul_of_pos_right hlt hw
    · rw [hflag]
    · rw [if_pos (hup.2 hgo)]
    · rw [if_neg (mt hup.1 hno)]
  · refine ⟨8, 8, le_rfl, ?_, fun h1 => absurd h1 (lt_irrefl _), rfl, fun _ => rfl, fun h1 => absurd h1 (lt_irrefl _)⟩
    rw [hpoint le_rfl]
    exact mul_le_mul_of_nonneg_right hle hw.le

/-- What the model makes of a number under NL4 is what R110 and R120 ask. -/
theorem nl4Rounded_cvtToNl4 (ty : Nat) (mode : Rnd) (rand : Nat) (s : Bool) (m : Nat) (e : Int) :
    Nl4Rounded ty mode rand (FVal.fin s m e).num (cvtToNl4 ty mode rand s m e) := by
  have hsign : (FVal.fin s m e).num ≠ 0 → s = decide ((FVal.fin s m e).num < 0) := fun h0 => by
    have habs := abs_pos.2 h0
    rw [num_eq_abs] at h0 ⊢
    cases s
    · simp [habs.le]
    · simp [habs]
  rw [cvtToNl4_eq]
  refine (apply_ite (Nl4Rounded ty mode rand _) _ _ _).mpr ?_
  split
  · next hfar =>
    obtain ⟨hlow, hhigh⟩ := (places_num s m e).binade hfar.1
    refine nl4Rounded_nl4Pick ty mode rand hsign (Stands.of_far (div_pos ((two_zpow_pos _).trans_le hlow) (two_zpow_pos _)) ?_)
    have hlt : |(FVal.fin s m e).num| < (2 : ℚ) ^ ((nl4Mags ty).2 - 40) := hhigh.trans_le (two_zpow_le (by omega))
    rw [div_mul_eq_mul_div, div_lt_one (two_zpow_pos _)]
    refine (mul_lt_mul_of_pos_right hlt (by positivity)).trans_eq ?_
    rw [← zpow_natCast, ← two_zpow_add]
    congr 1
    push_cast
    ring
  · refine nl4Rounded_nl4Pick ty mode rand hsign (Stands.of_eq ?_)
    rw [div_two_zpow_mul, abs_num, mul_div_cancel_right₀ _ (two_zpow_pos e).ne']
    push_cast
    rfl

/-- A number rounds to one code of an NL4 type. -/
theorem Nl4Rounded.unique {ty : Nat} {mode : Rnd} {rand : Nat} {q : ℚ} {v w : Nat × FFlags} (hv : Nl4Rounded ty mode rand q v)
    (hw : Nl4Rounded ty mode rand q w) : v = w := by
  rw [nl4Rounded_iff] at hv hw
  by_cases h0 : q = 0
  · rw [hv.1 h0, hw.1 h0]
  · obtain ⟨i, j, hi8, hi, hnext, rfl, htop, hj⟩ := hv.2 h0
    obtain ⟨k, l, hk8, hk, hknext, rfl, hktop, hl⟩ := hw.2 h0
    have hle : ∀ {i k : Nat}, k ≤ 8 → (i < 8 → |q| < nl4Point ty (i + 1)) → nl4Point ty k ≤ |q| → k ≤ i := fun {i k} hk8 hnext hk => by
      by_contra hlt
      rcases (show i + 1 ≤ k by omega).eq_or_lt with rfl | hlt'
      · exact absurd (hnext (by omega)) (not_lt.2 hk)
      · exact absurd ((hnext (by omega)).trans (nl4Point_lt ty hlt' hk8)) (not_lt.2 hk)
    obtain rfl := le_antisymm (hle hi8 hknext hi) (hle hk8 hnext hk)
    have hjl : j = l := by
      rcases Nat.lt_or_eq_of_le hi8 with h | h
      · by_cases hgo : Nl4GoesUp mode rand (decide (q < 0)) i (nl4Point ty i) (nl4Point ty (i + 1)) |q|
        · exact ((hj h).1 hgo).trans ((hl h).1 hgo).symm
        · exact ((hj h).2 hgo).trans ((hl h).2 hgo).symm
      · exact (htop h).trans (hktop h).symm
    rw [hjl]

end Sys2Proof

namespace Sys2Proof

/-! ### Blocks under NL4 (R122, R123) -/

theorem nl4Point_seven_pos (ty : Nat) : 0 < nl4Point ty 7 := by
  have hpos : nl4Point ty 0 < nl4Point ty 7 := nl4Point_lt ty (by decide) (by decide)
  rwa [nl4Point_eq ty (by decide), nl4Pts_zero, Nat.cast_zero, zero_mul] at hpos

/-- A block of one type, as the model converts it, is that of R122. -/
theorem nl4Block_cvtBlockNl4Ty (ty : Nat) (mode : Rnd) (r : Nat) {xs : List FVal} (hxs : ∀ x ∈ xs, x.isFin = true) :
    let b := cvtBlockNl4Ty ty mode r xs
    Nl4Block ty mode r xs b.1 b.2.1 b.2.2 := by
  intro b
  have htop : nl4Point ty 7 = ((nl4Mags ty).1.getD 7 0 : ℚ) * (2 : ℚ) ^ (nl4Mags ty).2 := rfl
  have hM : (nl4Mags ty).1.getD 7 0 ≠ 0 := fun h0 => by
    have hpos := nl4Point_seven_pos ty
    rw [htop, h0, Nat.cast_zero, zero_mul] at hpos
    exact lt_irrefl _ hpos
  have hexp := blockExp_spec xs hM (nl4Mags ty).2 (-32) (if ty = 3 then 30 else 31)
  rw [← htop] at hexp
  refine ⟨hexp, blockOf_zipIdx fun i x hx => ?_⟩
  obtain ⟨s, m, g, rfl⟩ := FVal.exists_of_isFin (hxs x (List.mem_of_getElem? hx))
  have hnum : ∀ e : Int, (FVal.fin s m g).num * (2 : ℚ) ^ (-e) = (FVal.fin s m (g - e)).num := fun e => by
    rw [FVal.num, FVal.num, sub_eq_add_neg, two_zpow_add, mul_assoc]
  rw [show b.2.1 = blockExp xs ((nl4Mags ty).1.getD 7 0) (nl4Mags ty).2 (-32) (if ty = 3 then 30 else 31) from rfl, hnum]
  exact nl4Rounded_cvtToNl4 ty mode (randOf r i) s m _

/-- The values of a block determine its exponent and its codes under one type. -/
theorem Nl4Block.unique {ty : Nat} {mode : Rnd} {r : Nat} {xs : List FVal} {cs ds : List Nat} {e g : Int} {fl gl : FFlags}
    (hc : Nl4Block ty mode r xs cs e fl) (hd : Nl4Block ty mode r xs ds g gl) : cs = ds ∧ e = g := by
  obtain rfl := hc.1.unique (nl4Point_seven_pos ty) hd.1
  refine ⟨BlockOf.unique ?_ hc.2 hd.2, rfl⟩
  exact fun _ _ _ _ hv hw => hv.unique hw

theorem nl4Val_fin (ty c : Nat) : ∃ s m e, nl4Val ty c = .fin s m e := by
  unfold nl4Val
  dsimp only
  split
  · exact ⟨_, _, _, rfl⟩
  · split
    · exact ⟨_, _, _, rfl⟩
    · split <;> exact ⟨_, _, _, rfl⟩
    · exact ⟨_, _, _, rfl⟩

/-- The number of a sum of squares that is kept as a significand and an exponent. -/
def dyVal (a : Int × Int) : ℚ := (a.1 : ℚ) * (2 : ℚ) ^ a.2

/-- One more squared error. -/
def errStep (ty : Nat) (e : Int) (a : Int × Int) (x : FVal × Nat) : Int × Int :=
  match x.1, nl4Val ty x.2 with
  | .fin s m g, .fin t n h =>
    let d := dyAdd (sgn s m) g (-(sgn t n)) (h + e)
    dyAdd a.1 a.2 (d.1 * d.1) (2 * d.2)
  | _, _ => a

theorem dyVal_errStep (ty : Nat) (e : Int) (a : Int × Int) {x : FVal × Nat} (hx : x.1.isFin = true) :
    dyVal (errStep ty e a x) = dyVal a + (x.1.num - (nl4Val ty x.2).num * (2 : ℚ) ^ e) ^ 2 := by
  obtain ⟨c, code⟩ := x
  obtain ⟨s, m, g, rfl⟩ := FVal.exists_of_isFin hx
  obtain ⟨t, n, h, hval⟩ := nl4Val_fin ty code
  have hd := dyAdd_value (sgn s m) (-(sgn t n)) g (h + e)
  simp only [errStep, hval, dyVal, dyAdd_value]
  rw [Int.cast_neg, neg_mul, ← sub_eq_add_neg, two_zpow_add, ← mul_assoc] at hd
  rw [FVal.num, FVal.num, ← hd, mul_pow, two_mul, two_zpow_add]
  push_cast
  ring

theorem dyVal_foldl_errStep (ty : Nat) (e : Int) (l : List (FVal × Nat)) (a : Int × Int) (hl : ∀ x ∈ l, x.1.isFin = true) :
    dyVal (l.foldl (errStep ty e) a) = dyVal a + (l.map fun x => (x.1.num - (nl4Val ty x.2).num * (2 : ℚ) ^ e) ^ 2).sum := by
  induction l generalizing a with
  | nil => simp
  | cons x l ih =>
    rw [List.foldl_cons, ih _ fun y hy => hl y (List.mem_cons_of_mem _ hy), dyVal_errStep ty e a (hl x List.mem_cons_self), List.map_cons,
      List.sum_cons, add_assoc]

/-- The model's error of a block is that of R123. -/
theorem dyVal_blockErr (ty : Nat) (codes : List Nat) (e : Int) {xs : List FVal} (hxs : ∀ x ∈ xs, x.isFin = true) :
    dyVal (blockErr ty codes e xs) = nl4Err ty xs codes e := by
  have hzip : ∀ x ∈ xs.zip codes, x.1.isFin = true := fun x hx => hxs x.1 (List.of_mem_zip hx).1
  have hfold : blockErr ty codes e xs = (xs.zip codes).foldl (errStep ty e) (0, 0) := rfl
  rw [hfold, dyVal_foldl_errStep ty e _ _ hzip]
  simp [dyVal, nl4Err]

/-! ### The type of least error (R123) -/

/-- The better of two candidates, the first on a tie. -/
def betterErr (best x : Nat × Int × Int) : Nat × Int × Int :=
  if (dyAdd x.2.1 x.2.2 (-best.2.1) best.2.2).1 < 0 then x else best

theorem betterErr_eq (best x : Nat × Int × Int) : betterErr best x = if dyVal x.2 < dyVal best.2 then x else best := by
  have h := (dyAdd_neg_iff x.2.1 best.2.1 x.2.2 best.2.2).1
  unfold betterErr dyVal
  by_cases hlt : (dyAdd x.2.1 x.2.2 (-best.2.1) best.2.2).1 < 0
  · rw [if_pos hlt, if_pos (h.1 hlt)]
  · rw [if_neg hlt, if_neg (mt h.2 hlt)]

/-- The best of a list is in it, none is better, and none before it is as good. -/
theorem foldl_betterErr_spec (l : List (Nat × Int × Int)) (b : Nat × Int × Int) (hkeys : (b :: l).Pairwise fun x y => x.1 < y.1) :
    let best := l.foldl betterErr b
    best ∈ b :: l ∧ ∀ x ∈ b :: l, dyVal best.2 ≤ dyVal x.2 ∧ (x.1 < best.1 → dyVal best.2 < dyVal x.2) := by
  induction l generalizing b with
  | nil => simp
  | cons y l ih =>
    obtain ⟨hb, hyl⟩ := List.pairwise_cons.1 hkeys
    obtain ⟨hy, hl⟩ := List.pairwise_cons.1 hyl
    rw [List.foldl_cons, betterErr_eq]
    split
    · next hlt =>
      obtain ⟨hmem, hall⟩ := ih y hyl
      refine ⟨List.mem_cons_of_mem _ hmem, fun x hx => ?_⟩
      rcases List.mem_cons.1 hx with rfl | hx
      · have hle := (hall y List.mem_cons_self).1
        exact ⟨hle.trans hlt.le, fun _ => hle.trans_lt hlt⟩
      · exact hall x hx
    · next hge =>
      have hkeys' : (b :: l).Pairwise fun x y => x.1 < y.1 := List.pairwise_cons.2 ⟨fun x hx => hb x (List.mem_cons_of_mem _ hx), hl⟩
      obtain ⟨hmem, hall⟩ := ih b hkeys'
      obtain ⟨hbest, hfirst⟩ := hall b List.mem_cons_self
      refine ⟨?_, fun x hx => ?_⟩
      · rcases List.mem_cons.1 hmem with h | h
        · exact List.mem_cons.2 (.inl h)
        · exact List.mem_cons_of_mem _ (List.mem_cons_of_mem _ h)
      · rcases List.mem_cons.1 hx with rfl | hx
        · exact ⟨hbest, hfirst⟩
        · rcases List.mem_cons.1 hx with rfl | hx
          · refine ⟨hbest.trans (not_lt.1 hge), fun hlt => ?_⟩
            exact (hfirst ((hb x List.mem_cons_self).trans hlt)).trans_le (not_lt.1 hge)
          · exact hall x (List.mem_cons_of_mem _ hx)

/-- The candidates of R123: a type with the error of the block under it. -/
def nl4Candidate (mode : Rnd) (r : Nat) (xs : List FVal) (ty : Nat) : Nat × Int × Int :=
  (ty, blockErr ty (cvtBlockNl4Ty ty mode r xs).1 (cvtBlockNl4Ty ty mode r xs).2.1 xs)

/-- The type that the model takes: no other has a smaller error, and none before it the same. -/
theorem bestNl4_spec (mode : Rnd) (r : Nat) (xs : List FVal) :
    bestNl4 mode r xs < 4 ∧ ∀ t < 4,
      dyVal (nl4Candidate mode r xs (bestNl4 mode r xs)).2 ≤ dyVal (nl4Candidate mode r xs t).2 ∧
        (t < bestNl4 mode r xs → dyVal (nl4Candidate mode r xs (bestNl4 mode r xs)).2 < dyVal (nl4Candidate mode r xs t).2) := by
  have hfold : bestNl4 mode r xs = ([1, 2, 3].map (nl4Candidate mode r xs) |>.foldl betterErr (nl4Candidate mode r xs 0)).1 := by
    have hfirst : betterErr (nl4Candidate mode r xs 0) (nl4Candidate mode r xs 0) = nl4Candidate mode r xs 0 := by
      rw [betterErr_eq, if_neg (lt_irrefl _)]
    rw [← hfirst]
    rfl
  have hkeys : (nl4Candidate mode r xs 0 :: [1, 2, 3].map (nl4Candidate mode r xs)).Pairwise fun x y => x.1 < y.1 := by
    simp [nl4Candidate]
  obtain ⟨hmem, hall⟩ := foldl_betterErr_spec _ _ hkeys
  rw [hfold]
  generalize ([1, 2, 3].map (nl4Candidate mode r xs)).foldl betterErr (nl4Candidate mode r xs 0) = best at hmem hall
  have hrange : nl4Candidate mode r xs 0 :: [1, 2, 3].map (nl4Candidate mode r xs) = (List.range 4).map (nl4Candidate mode r xs) := rfl
  rw [hrange] at hmem hall
  obtain ⟨ty, hty, rfl⟩ := List.mem_map.1 hmem
  exact ⟨List.mem_range.1 hty, fun t ht => hall _ (List.mem_map.2 ⟨t, List.mem_range.2 ht, rfl⟩)⟩

/-- A block under NL4, as the model converts it, is that of R122 and R123. -/
theorem blockNl4_cvtBlockNl4 (sel : Nat) (mode : Rnd) (r : Nat) (xs : List FVal) :
    let b := cvtBlockNl4 sel mode r xs
    BlockNl4 sel mode r xs b.1 b.2.1 b.2.2 := by
  intro b
  by_cases hfin : ∃ x ∈ xs, x.isFin = false
  · have hb : b = (xs.map fun _ => 0, 255, fNV) := if_pos (any_not_fin.2 hfin)
    rw [hb]
    exact ⟨fun _ => ⟨rfl, rfl, rfl⟩, fun hall => by obtain ⟨x, hx, hno⟩ := hfin; simp [hall x hx] at hno⟩
  · obtain ⟨hbest, hleast⟩ := bestNl4_spec mode r xs
    have hty : (if sel < 4 then sel else bestNl4 mode r xs) < 4 := by split <;> omega
    generalize hsel : (if sel < 4 then sel else bestNl4 mode r xs) = ty at hty
    have hb : b = ((cvtBlockNl4Ty ty mode r xs).1, ty * 64 + ((cvtBlockNl4Ty ty mode r xs).2.1 + 32).toNat, (cvtBlockNl4Ty ty mode r xs).2.2) :=
      hsel ▸ if_neg (mt any_not_fin.1 hfin)
    have hlow : -32 ≤ (cvtBlockNl4Ty ty mode r xs).2.1 := le_max_left _ _
    rw [hb]
    refine ⟨fun h => absurd h hfin, fun hall => ⟨ty, (cvtBlockNl4Ty ty mode r xs).2.1, hty, fun h => by rw [← hsel, if_pos h],
      nl4Block_cvtBlockNl4Ty ty mode r hall, by push_cast; omega, fun h4 t ht cs g gl hblock => ?_⟩⟩
    obtain ⟨rfl, rfl⟩ := hblock.unique (nl4Block_cvtBlockNl4Ty t mode r hall)
    have hbetter := hleast t ht
    rw [if_neg (not_lt.2 h4)] at hsel
    simp only [nl4Candidate, dyVal_blockErr _ _ _ hall, hsel] at hbetter
    exact hbetter

end Sys2Proof

namespace Sys2Proof.Machine

/-! ### The words on their operands -/

theorem Ty.fmt_maxN_ne_zero (t : Ty) : t.fmt.maxN ≠ 0 := by
  cases t <;> decide

/-- A block from a narrow kind or from NL4: each code by itself (R187). -/
theorem cvtFromBlock_spec (l : LitFlt) (t st : Ty) (cs : List Nat × Nat) : ∃ vs : List (Nat × FFlags), vs.length = cs.1.length ∧
    cvtFromBlock l t st cs = (blockWords t (vs.map (·.1)), Sys2Proof.orFlags vs) ∧
    ∀ (i c : Nat) (v : Nat × FFlags), cs.1[i]? = some c → vs[i]? = some v →
      (cs.2 = 255 → v = (t.fmt.nanCode, 0)) ∧ (cs.2 ≠ 255 → l.Itself t ((narrowVal st cs.2 c).times (scaleExp st cs.2)) v) := by
  refine ⟨_, ?_, rfl, fun i c v hc hv => ?_⟩
  · simp
  · rw [List.getElem?_map, hc] at hv
    obtain rfl := Option.some.inj hv
    exact ⟨fun h => if_pos h, fun h => by simpa only [if_neg h] using l.itself_fScale_times t _ _⟩

/-- `frnd` of an element (R188). -/
theorem frnd_spec (l : LitFlt) (t : Ty) (c : FVal) (hrs : l.rnd ≠ .rs) :
    let v := ((l.fin t (fRnd l.rnd (l.sel == 1) c).1).1, (l.fin t (fRnd l.rnd (l.sel == 1) c).1).2 ||| (fRnd l.rnd (l.sel == 1) c).2)
    (c.isNan → v = t.quiet c.isSig) ∧ (∀ n, c = .inf n → v = t.infinite n) ∧
      (c.isFin → ∃ w, l.Rounds t (l.rnd.toInt c.num : ℚ) c.sign w ∧
        v = (w.1, w.2 ||| if l.sel = 1 ∧ (l.rnd.toInt c.num : ℚ) ≠ c.num then fNX else 0)) := by
  intro v
  cases c with
  | nan s => simp [v, fRnd, FVal.isNan, FVal.isSig, FVal.isFin]
  | inf s => simp [v, fRnd, FVal.isNan, FVal.isFin]
  | fin s m e =>
    obtain ⟨hint, hinexact⟩ := toIntegral_spec hrs s m e
    refine ⟨by simp [FVal.isNan], by simp, fun _ => ⟨l.fin t (.num s (toIntegral l.rnd s m e).1 0 false), ?_, ?_⟩⟩
    · have h := l.rounds_num t s (toIntegral l.rnd s m e).1 0
      rw [zpow_zero, mul_one, hint] at h
      exact h
    · have hflag : flagIf ((toIntegral l.rnd s m e).2 && l.sel == 1) fNX =
          if l.sel = 1 ∧ ((l.rnd.toInt (FVal.fin s m e).num : Int) : ℚ) ≠ (FVal.fin s m e).num then fNX else 0 := by
        simp only [flagIf, Bool.and_eq_true, beq_iff_eq, hinexact, and_comm]
      rw [← hflag]
      rfl

theorem State.frnd_gives {s : State} {f : Fibre} {m : Mods LitFlt} {d a : RegIx} (h : s.Runs f (.frnd m d a) m.g) :
    let l := m.body (.dflt .f32 .s32 d)
    let t := l.ty .f32
    l.rnd ≠ .rs → s.GivesElems f (.frnd m d a) m.chains m.words 6 t d fun k v =>
      let c := f.elA l t a k
      (c.isNan → v = t.quiet c.isSig) ∧ (∀ n, c = .inf n → v = t.infinite n) ∧
        (c.isFin → ∃ w, l.Rounds t (l.rnd.toInt c.num : ℚ) c.sign w ∧
          v = (w.1, w.2 ||| if l.sel = 1 ∧ (l.rnd.toInt c.num : ℚ) ≠ c.num then fNX else 0)) := by
  intro l t hrs
  refine State.flt1_gives (a := a) (op := fun l t x => ((l.fin t (fRnd l.rnd (l.sel == 1) x).1).1,
    (l.fin t (fRnd l.rnd (l.sel == 1) x).1).2 ||| (fRnd l.rnd (l.sel == 1) x).2)) h rfl fun k => ?_
  exact frnd_spec l t (f.elA l t a k) hrs

/-! ### The kinds of source and destination (R184) -/

theorem Ty.of_isBin {t : Ty} (h : t.isBin = true) : t.isI = false ∧ t.isNarrow = false := by
  revert h
  cases t <;> decide

theorem Ty.of_isNarrow {t : Ty} (h : t.isNarrow = true) : t.isI = false := by
  revert h
  cases t <;> decide

theorem cvtSource_int {st : Ty} (h : st.isI = true) (den : Den) (x : Nat) :
    cvtSource st den x = .fin (decide (st.num x < 0)) (st.num x).natAbs 0 := by
  simp only [cvtSource, h, if_true]

theorem cvtSource_bin {st : Ty} (h : st.isBin = true) (den : Den) (x : Nat) : cvtSource st den x = st.fmt.daz den.dazOn (st.fmt.decode x) := by
  simp only [cvtSource, Ty.of_isBin h, Bool.false_eq_true, if_false]

theorem cvtSource_narrow {st : Ty} (h : st.isNarrow = true) (den : Den) (x : Nat) : cvtSource st den x = st.fmt.decode x := by
  simp only [cvtSource, Ty.of_isNarrow h, h, Bool.false_eq_true, if_false, if_true]

theorem cvtScalar_bin {t : Ty} (h : t.isBin = true) (l : LitFlt) (r : Nat) (v : FVal) :
    cvtScalar l t r v = (regWords t.regs (l.fin t (fScale v 0)).1, (l.fin t (fScale v 0)).2) := by
  simp only [cvtScalar, Ty.of_isBin h, Bool.false_eq_true, if_false]

theorem cvtScalar_int {t : Ty} (h : t.isI = true) (l : LitFlt) (r : Nat) (v : FVal) :
    cvtScalar l t r v = (t.words (modPow t.bits (cvtToInt t l.rnd v).1), (cvtToInt t l.rnd v).2) := by
  simp only [cvtScalar, h, if_true]

theorem cvtScalar_narrow {t : Ty} (h : t.isNarrow = true) (l : LitFlt) (r : Nat) (v : FVal) :
    cvtScalar l t r v = (regWords 1 (cvtToNarrow t.fmt l.rnd r l.nan v).1, (cvtToNarrow t.fmt l.rnd r l.nan v).2) := by
  simp only [cvtScalar, Ty.of_isNarrow h, h, Bool.false_eq_true, if_false, if_true]

theorem cvtToInt_nan (t : Ty) (mode : Rnd) {c : FVal} (h : c.isNan = true) : cvtToInt t mode c = (0, fNV) := by
  cases c with
  | nan s => rfl
  | inf s => cases h
  | fin s m e => cases h

/-- A block of a narrow kind or of NL4, with its scale byte (R187). -/
theorem cvtToBlock_spec (l : LitFlt) (t : Ty) (r : Nat) (xs : List FVal) : ∃ codes scale fl,
    (t ≠ .nl4 → t.fmt.BlockE8m0 l.rnd r l.nan xs codes scale fl) ∧ (t = .nl4 → BlockNl4 l.sel.toNat l.rnd r xs codes scale fl) ∧
      cvtToBlock l t r xs = (regWords (blockRun t - 1) (packCodes t.bits codes) ++ [BitVec.ofNat 32 scale], fl) := by
  by_cases ht : t = .nl4
  · exact ⟨_, _, _, fun h => absurd ht h, fun _ => blockNl4_cvtBlockNl4 l.sel.toNat l.rnd r xs, by simp only [cvtToBlock, ht, if_true]⟩
  · exact ⟨_, _, _, fun _ => blockE8m0_cvtBlockE8m0 (Ty.fmt_maxN_ne_zero t) l.rnd r l.nan xs, fun h => absurd h ht,
      by simp only [cvtToBlock, ht, if_false]⟩

/-- Settles O10: each conversion by the rule of its kinds. -/
theorem conversionWordsRoundOnce : Obligations.ConversionWordsRoundOnce := by
  intro s f m d a l t st raw r src gives
  refine ⟨fun hrun => ?_, fun hrun => State.frnd_gives hrun⟩
  have hgives : ∀ {ws fl}, f.cvtOut l t st r a = (ws, fl) → gives ws fl := State.fcvt_gives hrun
  refine ⟨fun _ hno => ?_, fun hblk => ⟨fun hto => ?_, fun hfrom => ?_⟩⟩
  · have hout : f.cvtOut l t st r a = cvtScalar l t r (cvtSource st l.den raw) := by simp only [Fibre.cvtOut, hno, Bool.false_eq_true, if_false, raw]
    refine ⟨fun hst ht => ?_, fun hst ht => ?_, fun hst ht => ?_, fun hst ht hrs => ?_, fun hst ht => ?_⟩
    · exact ⟨_, l.rounds_int t (st.num raw), hgives (by rw [hout, cvtScalar_bin ht, cvtSource_int hst])⟩
    · exact ⟨_, l.itself_fScale t src, hgives (by rw [hout, cvtScalar_bin ht, cvtSource_bin hst])⟩
    · exact ⟨_, l.itself_fScale t (st.fmt.decode raw), hgives (by rw [hout, cvtScalar_bin ht, cvtSource_narrow hst])⟩
    · have hint : ∀ {x fl}, cvtToInt t l.rnd src = (x, fl) → gives (t.words (modPow t.bits x)) fl := fun h =>
        hgives (by rw [hout, cvtScalar_int ht, cvtSource_bin hst, show st.fmt.daz l.den.dazOn (st.fmt.decode raw) = src from rfl, h])
      refine ⟨fun hnan => ?_, fun n hn => ?_, fun hfin x hx => ?_⟩
      · have hzero : modPow t.bits 0 = 0 := by simp [modPow]
        exact hzero ▸ hint (cvtToInt_nan t l.rnd hnan)
      · exact hint (by rw [hn]; rfl)
      · obtain ⟨n, k, e, hsrc⟩ := FVal.exists_of_isFin hfin
        obtain ⟨hin, hlow, hhigh⟩ := cvtToInt_fin ht hrs n k e
        rw [← hsrc, ← hx] at hin hlow hhigh
        exact ⟨fun h => hint (hin h), fun h => hint (hlow h), fun h => hint (hhigh h)⟩
    · exact ⟨_, narrowed_cvtToNarrow t.fmt l.rnd r l.nan src, hgives (by rw [hout, cvtScalar_narrow ht, cvtSource_bin hst])⟩
  · obtain ⟨codes, scale, fl, he8m0, hnl4, hblock⟩ :=
      cvtToBlock_spec l t r ((f.blockElems st a).map fun x => st.fmt.daz l.den.dazOn (st.fmt.decode x))
    refine ⟨codes, scale, fl, he8m0, hnl4, hgives ?_⟩
    have hto' : (t.isNarrow || t == .nl4) = true := by simpa using hto
    simp only [Fibre.cvtOut, hblk, hto', if_true, hblock]
  · obtain ⟨vs, hlen, hblock, hrule⟩ := cvtFromBlock_spec l t st (f.blockCodes st a)
    refine ⟨vs, hlen, hgives ?_, hrule⟩
    have hfrom' : (t.isNarrow || t == .nl4) = false := by simpa using hfrom
    simp only [Fibre.cvtOut, hblk, hfrom', if_true, Bool.false_eq_true, if_false, hblock]

end Sys2Proof.Machine

/-! ## O1 to O6: the integer words

A word of classes IALU, IBIT, IMUL and IDIV gives the result that its function of `IntArith` computes (`State.intWord_gives` and its variants). What
is left is arithmetic: each of those functions, which cut counts short or work bit by bit, has the value that the rule names. O3 fails in one clause
only, that of `brev`, at a number below zero. -/

namespace Sys2Proof

/-! ### Types and the numbers they hold (R106, R107, R133) -/

theorem Ty.bits_pos (t : Ty) : 0 < t.bits := by cases t <;> decide

theorem Ty.bits_le (t : Ty) : t.bits ≤ 128 := by cases t <;> decide

/-- A sign-extended number has the low bits that it was read from. -/
theorem sext_emod (w x : Nat) : sext w x % 2 ^ w = (x : Int) % 2 ^ w := by
  unfold sext
  split
  · simp
  · rw [← Int.sub_emod_right]
    simp

/-- The N bits of the number that an operand holds are the operand's own. -/
theorem Ty.modPow_num (t : Ty) (x : Nat) : modPow t.bits (t.num x) = x % 2 ^ t.bits := by
  have hlow : t.num x % 2 ^ t.bits = ((x % 2 ^ t.bits : Nat) : Int) := by
    unfold Ty.num
    split
    · simp [sext_emod]
    · simp
  rw [modPow, hlow, Int.toNat_natCast]

theorem sext_bounds (w x : Nat) : -(2 ^ w : Int) ≤ sext w x ∧ sext w x < 2 ^ w := by
  have hlt : ((x % 2 ^ w : Nat) : Int) < 2 ^ w := by exact_mod_cast Nat.mod_lt x (Nat.two_pow_pos w)
  unfold sext
  split <;> omega

/-- Zero lies in the range of a type, whose limits lie within ±2^k for every k of N or more. -/
theorem Ty.range_bounds (t : Ty) {k : Nat} (hk : t.bits ≤ k) :
    -(2 ^ k : Int) ≤ t.minVal ∧ t.minVal ≤ 0 ∧ 0 ≤ t.maxVal ∧ t.maxVal ≤ 2 ^ k := by
  have hmono : (2 : Int) ^ t.bits ≤ 2 ^ k := pow_le_pow_right₀ (by norm_num) hk
  have hhalf := mul_pow_sub_one t.bits_pos.ne' (2 : Int)
  have hpos : (0 : Int) < 2 ^ (t.bits - 1) := by positivity
  unfold Ty.minVal Ty.maxVal
  split <;> omega

/-! ### Carry and borrow (R137) -/

/-- A difference borrows where the minuend is less than what is taken from it. -/
theorem subbVal_eq (N ra rb : Nat) (c : Bool) :
    subbVal N ra rb c = ((((ra : Int) - rb - c.toNat) % 2 ^ N).toNat, decide (ra < rb + c.toNat)) := by
  refine Prod.ext rfl (decide_eq_decide.2 ?_)
  omega

/-! ### Shifts (R139) -/

/-- Saturation sees only the sign of a product with 2^k, for k of N or more. -/
theorem Ty.sat_mul_pow (t : Ty) (a : Int) {k : Nat} (hk : t.bits ≤ k) :
    t.sat (a * 2 ^ k) = if a < 0 then t.minVal else if a = 0 then 0 else t.maxVal := by
  obtain ⟨hlow, hmin, hmax, hhigh⟩ := t.range_bounds hk
  have hpos : (0 : Int) < 2 ^ k := by positivity
  unfold Ty.sat
  split
  · have : a * 2 ^ k ≤ -1 * 2 ^ k := by gcongr; omega
    omega
  split
  · next hzero =>
    rw [hzero, zero_mul]
    omega
  · have : 1 * 2 ^ k ≤ a * 2 ^ k := by gcongr; omega
    omega

theorem modPow_mul_pow (a : Int) {n k : Nat} (hk : n ≤ k) : modPow n (a * 2 ^ k) = 0 := by
  rw [modPow, Int.emod_eq_zero_of_dvd ((pow_dvd_pow 2 hk).mul_left a), Int.toNat_zero]

/-- A left shift by N or more writes the same, whatever the count. -/
theorem Ty.wr_mul_pow (t : Ty) (o : Ovf) (a : Int) {k : Nat} (hk : t.bits ≤ k) : t.wr o (a * 2 ^ k) = t.wr o (a * 2 ^ t.bits) := by
  cases o with
  | sat => simp only [Ty.wr, t.sat_mul_pow a hk, t.sat_mul_pow a le_rfl]
  | wrap | trap => simp only [Ty.wr, modPow_mul_pow a hk, modPow_mul_pow a le_rfl]

theorem Ty.wr_shlVal (t : Ty) (o : Ovf) (a : Int) (c : Nat) : t.wr o (shlVal t a c) = t.wr o (a * 2 ^ c) := by
  unfold shlVal
  rcases le_total c (t.bits + 1) with h | h
  · rw [min_eq_left h]
  · rw [min_eq_right h, t.wr_mul_pow o a (Nat.le_succ _), ← t.wr_mul_pow o a (k := c) (by omega)]

/-- The model's bound of 128 on the count loses nothing of a value of 128 bits or fewer. -/
theorem shrVal_eq {ra : Nat} (hra : ra < 2 ^ 128) (c : Nat) : shrVal ra c = (ra / 2 ^ c : Nat) := by
  unfold shrVal
  rcases le_total c 128 with h | h
  · rw [min_eq_left h]
  · rw [min_eq_right h, Nat.div_eq_of_lt hra, Nat.div_eq_of_lt (hra.trans_le (Nat.pow_le_pow_right two_pos h))]

/-- An arithmetic right shift by N or more leaves the sign. -/
theorem sext_ediv_pow {w k : Nat} (hk : w ≤ k) (x : Nat) : sext w x / 2 ^ k = if sext w x < 0 then -1 else 0 := by
  obtain ⟨hlow, hhigh⟩ := sext_bounds w x
  have hmono : (2 : Int) ^ w ≤ 2 ^ k := pow_le_pow_right₀ (by norm_num) hk
  split
  · next hneg => exact Int.ediv_eq_neg_one_of_neg_of_le hneg (by omega)
  · exact Int.ediv_eq_zero_of_lt (by omega) (by omega)

theorem sarVal_eq (N ra c : Nat) : sarVal N ra c = sext N ra / 2 ^ c := by
  unfold sarVal
  rcases le_total c N with h | h
  · rw [min_eq_left h]
  · rw [min_eq_right h, sext_ediv_pow h, sext_ediv_pow le_rfl]

/-! ### Counts and bits (R142, R144) -/

theorem popCount_eq_countP (n x : Nat) : popCount n x = (List.range n).countP x.testBit :=
  List.countP_eq_length_filter.symm

theorem clzVal_eq {n x : Nat} (hx : x < 2 ^ n) : clzVal n x = if x = 0 then n else n - 1 - x.log2 := by
  induction n with
  | zero => simp [clzVal]
  | succ n ih =>
    have hstep : clzVal (n + 1) x = if x.testBit n then 0 else clzVal n x + 1 := by
      cases h : x.testBit n <;> simp [clzVal, List.range_succ, h]
    rw [hstep]
    by_cases htop : x < 2 ^ n
    · rw [Nat.testBit_lt_two_pow htop, ih htop]
      by_cases h0 : x = 0
      · simp [h0]
      · have := (Nat.log2_lt h0).2 htop
        simp only [Bool.false_eq_true, if_false, h0]
        omega
    · have h0 : x ≠ 0 := by rintro rfl; exact htop (Nat.two_pow_pos n)
      have hlog : x.log2 = n := (Nat.log2_eq_iff h0).2 ⟨not_lt.1 htop, hx⟩
      have hbit : x.testBit n = true := hlog ▸ Nat.testBit_log2 h0
      simp [hbit, h0, hlog]

/-- A number that is zero has no 1 bit below N; any other has its lowest at k. -/
theorem ctzVal_eq {n x k : Nat}
    (h : (x = 0 ∧ k = n) ∨ (k < n ∧ x.testBit k = true ∧ ∀ j, j < k → x.testBit j = false)) : ctzVal n x = k := by
  have hidx : (List.range n).findIdx (fun i => !!x.testBit i) = k := by
    rcases h with ⟨rfl, rfl⟩ | ⟨hlt, hbit, hlow⟩
    · conv_rhs => rw [← List.length_range (n := k)]
      rw [List.findIdx_eq_length]
      simp
    · rw [List.findIdx_eq (by simpa using hlt)]
      simpa using ⟨hbit, hlow⟩
  have hle : k ≤ n := by rcases h with ⟨-, rfl⟩ | ⟨hlt, -⟩ <;> omega
  rw [ctzVal, List.takeWhile_eq_take_findIdx_not, hidx, List.length_take, List.length_range, min_eq_left hle]

theorem testBit_ofBits (l : List Bool) (i : Nat) : (ofBits l).testBit i = l.getD i false := by
  induction l generalizing i with
  | nil => simp [ofBits]
  | cons b l ih =>
    have hbit : ofBits (b :: l) = Nat.bit b (ofBits l) := by
      rw [ofBits, Nat.bit_val, add_comm]
    rw [hbit]
    cases i with
    | zero => simp
    | succ i => rw [Nat.testBit_bit_succ, ih, List.getD_cons_succ]

/-- A number below 2^n is the one that its n bits make. -/
theorem ofBits_range_eq {n v : Nat} {b : Nat → Bool} (hv : v < 2 ^ n) (h : ∀ i, i < n → v.testBit i = b i) :
    ofBits ((List.range n).map b) = v := by
  refine Nat.eq_of_testBit_eq fun i => ?_
  rw [testBit_ofBits]
  by_cases hi : i < n
  · simp [hi, h i hi]
  · have hle : 2 ^ n ≤ 2 ^ i := Nat.pow_le_pow_right two_pos (not_lt.1 hi)
    simp [hi, Nat.testBit_lt_two_pow (hv.trans_le hle)]

theorem brevVal_eq {n x v : Nat} (hv : v < 2 ^ n) (h : ∀ i, i < n → v.testBit i = x.testBit (n - 1 - i)) : brevVal n x = v :=
  ofBits_range_eq hv h

theorem plogVal_eq {n ra rb rc T v : Nat} (hv : v < 2 ^ n)
    (h : ∀ i, i < n → v.testBit i = T.testBit (4 * (ra.testBit i).toNat + 2 * (rb.testBit i).toNat + (rc.testBit i).toNat)) :
    plogVal n ra rb rc T = v :=
  ofBits_range_eq hv h

/-! ### Bytes (R143, R147) -/

theorem sum_range_four {α : Type} [AddMonoid α] (g : Nat → α) : ((List.range 4).map g).sum = g 0 + (g 1 + (g 2 + g 3)) := by
  simp [List.range_succ]

theorem sum_bytes_eq {v : Nat} (hv : v < 2 ^ 32) : ((List.range 4).map fun k => v / 2 ^ (8 * k) % 256 * 2 ^ (8 * k)).sum = v := by
  rw [sum_range_four]
  omega

theorem bprmVal_eq {src s v : Nat} (hv : v < 2 ^ 32)
    (h : ∀ k, k < 4 → v / 2 ^ (8 * k) % 256 =
      if s / 2 ^ (4 * k) % 16 < 8 then byteAt src (s / 2 ^ (4 * k) % 16 % 8) else if 128 ≤ byteAt src (s / 2 ^ (4 * k) % 16 % 8) then 255 else 0) :
    bprmVal src s = v := by
  rw [← sum_bytes_eq hv, bprmVal]
  refine congrArg List.sum (List.map_congr_left fun k hk => ?_)
  rw [h k (List.mem_range.1 hk)]

theorem idp4Val_eq (t : Ty) (su : Bool) (ra rb : Nat) (x : Int) :
    let dot (k : Nat) := byteNum ra k t.signed * byteNum rb k (if su then !t.signed else t.signed)
    idp4Val t su ra rb x = x + (dot 0 + dot 1 + dot 2 + dot 3) := by
  simp only [idp4Val, sum_range_four, add_assoc]

/-! ### Comparison and division (R138, R149) -/

theorem cmpVal_eq {c : BitVec 3} {x y : Int} {v : Bool}
    (h : (c = 0 ∧ v = decide (x = y)) ∨ (c = 1 ∧ v = decide (x ≠ y)) ∨ (c = 2 ∧ v = decide (x < y)) ∨
      (c = 3 ∧ v = decide (x ≤ y)) ∨ (c = 4 ∧ v = decide (x > y)) ∨ (c = 5 ∧ v = decide (x ≥ y))) : cmpVal c.toNat x y = v := by
  rcases h with ⟨rfl, rfl⟩ | ⟨rfl, rfl⟩ | ⟨rfl, rfl⟩ | ⟨rfl, rfl⟩ | ⟨rfl, rfl⟩ | ⟨rfl, rfl⟩ <;> rfl

section
variable {t : Ty} {trap : Bool} {a b : Int}

theorem divVal_zero_traps : divVal t true a 0 = .error 0 := rfl

theorem divVal_overflow_traps (hb : b ≠ 0) (hq : t.maxVal < Int.tdiv a b) : divVal t true a b = .error 1 := by
  simp [divVal, tdiv, hb, hq]

theorem divVal_ok (h : ¬(trap = true ∧ (b = 0 ∨ t.maxVal < Int.tdiv a b))) :
    divVal t trap a b =
      .ok (if b = 0 then (if t.signed then t.sat (a * 2 ^ (t.bits - 1)) else 2 ^ t.bits - 1) else t.sat (Int.tdiv a b)) := by
  cases trap with
  | false => by_cases hb : b = 0 <;> simp [divVal, tdiv, hb]
  | true =>
    obtain ⟨hb, hq⟩ := not_or.1 (not_and.1 h rfl)
    simp [divVal, tdiv, hb, hq]

theorem remVal_zero_traps : remVal t true a 0 = .error 0 := rfl

theorem remVal_ok (h : ¬(trap = true ∧ b = 0)) : remVal t trap a b = .ok (if b = 0 then a else Int.tmod a b) := by
  by_cases hb : b = 0
  · have : trap = false := by simpa [hb] using h
    simp [remVal, hb, this]
  · simp [remVal, trem, hb]

end

end Sys2Proof

namespace Sys2Proof.Machine

/-! ### Operands (R133) -/

theorem Fibre.raw_lt (f : Fibre) (k : RegIx) (t : Ty) : f.raw k t < 2 ^ t.bits := Nat.mod_lt _ (Nat.two_pow_pos _)

theorem Fibre.raw_lt_128 (f : Fibre) (k : RegIx) (t : Ty) : f.raw k t < 2 ^ 128 :=
  (f.raw_lt k t).trans_le (Nat.pow_le_pow_right two_pos t.bits_le)

/-- `Raw(A)` is the N bits of `Rd(A)`. -/
theorem Fibre.modPow_rd (f : Fibre) (k : RegIx) (t : Ty) : modPow t.bits (f.rd k t) = f.raw k t := by
  rw [Fibre.rd, t.modPow_num, Nat.mod_eq_of_lt (f.raw_lt k t)]

/-! ### Words that give an integer result

`e` is the meaning that the dispatcher calls for the word: named, it is compared with the form of its family before any value is worked out. -/

section
variable {s : State} {f : Fibre} {i : Instr} {m : Mods LitInt} {cls : Nat} {d a b : RegIx} (e : Host.Outcome State Fault Refusal)

/-- A word of R132 to R149 that writes a value to field D gives it. -/
theorem State.intWord_gives {val : Fibre → LitInt → Ty → RegIx → Nat} {n : Nat} (h : s.Runs f i m.g) (hexec : exec i s = e)
    (hword : e = s.intWord i m cls d val) :
    let l := m.body (.dflt d)
    val f l l.ty (m.xi (s.openGroup f).pin d) = n → s.Gives f i m.chains m.words cls (f.wr d (l.ty.words n)) [] 0 := by
  rintro l rfl
  exact State.gives_of h.issuer (f.wr_nodup d _) .nil ((hexec.trans hword).trans (State.word_ok h rfl))

/-- A word that writes one register gives it. -/
theorem State.countWord_gives {val : Fibre → LitInt → RegIx → Nat} {n : Nat} (h : s.Runs f i m.g) (hexec : exec i s = e)
    (hword : e = s.countWord i m cls d val)
    (hn : val f (m.body (.dflt d)) (m.xi (s.openGroup f).pin d) = n) :
    s.Gives f i m.chains m.words cls (f.wr d [BitVec.ofNat 32 n]) [] 0 := by
  subst hn
  exact State.gives_of h.issuer (f.wr_nodup d _) .nil ((hexec.trans hword).trans (State.word_ok h rfl))

theorem State.ialu_gives {op : IaluOp} {v : Int} (h : s.Runs f i m.g) (hexec : exec i s = s.ialu i op m d a b) :
    let l := m.body (.dflt d)
    ialuVal op l.ty (f.rd a l.ty) (f.bsrc l b) = v → s.Gives f i m.chains m.words 0 (f.wr d (l.ty.words (l.ty.wr l.ovf v))) [] 0 := by
  rintro l rfl
  exact State.intWord_gives _ h rfl hexec rfl

/-- A word of R137 gives its result and its carry or borrow. -/
theorem State.carryWord_gives {val : Nat → Nat → Nat → Bool → Nat × Bool} {n : Nat} {c : Bool} (h : s.Runs f i m.g) (hexec : exec i s = e)
    (hword : e = s.carryWord i m d a b val) :
    let l := m.body (.dflt d)
    val l.ty.bits (f.raw a l.ty) (f.braw l b) (f.P l.sel) = (n, c) →
      s.Gives f i m.chains m.words 0 (f.wr d (l.ty.words n)) [(l.sel.toNat, c)] 0 := by
  intro l hval
  refine State.gives_of h.issuer (f.wr_nodup d _) (List.nodup_singleton _) ((hexec.trans hword).trans (State.word_ok h ?_))
  simp only [intBody, l, hval]

section
variable {val : Ty → Bool → Int → Int → Except Nat Int} (h : s.Runs f i m.g) (hexec : exec i s = e)
  (hword : e = s.divWord i m d a b val)
include h hexec hword

/-- `div` and `rem` give the value that they compute. -/
theorem State.divWord_gives {q : Int} :
    let l := m.body (.dflt d)
    val l.ty (l.ovf == .trap) (f.rd a l.ty) (f.bsrc l b) = .ok q →
      s.Gives f i m.chains m.words 3 (f.wr d (l.ty.words (l.ty.wr .wrap q))) [] 0 := by
  intro l hq
  refine State.gives_of h.issuer (f.wr_nodup d _) .nil ((hexec.trans hword).trans (State.word_ok h ?_))
  simp only [intBody, l, hq]

/-- `div` and `rem` raise a cause of class 2, the dividend in %tval (R150). -/
theorem State.divWord_traps {k : Nat} :
    let l := m.body (.dflt d)
    val l.ty (l.ovf == .trap) (f.rd a l.ty) (f.bsrc l b) = .error k →
      exec i s = .next (s.groupRaise f (s.openGroup f) (mkCause 2 k) (BitVec.ofNat 64 (f.raw a l.ty))) := by
  intro l hk
  refine (hexec.trans hword).trans (State.word_raise h ?_)
  simp only [intBody, l, hk]

end

end

/-! ### The obligations -/

/-- Settles O1: the value of each word is a case of `ialuVal`, whose operands' N bits are the raw operands. -/
theorem ialuWordsWriteTheirResult : Obligations.IaluWordsWriteTheirResult := by
  intro s f m d a b l t x y ra rb gives
  have hra : modPow t.bits x = ra := f.modPow_rd a t
  refine ⟨fun h => State.ialu_gives h rfl rfl, fun h => State.ialu_gives h rfl rfl, fun h => State.ialu_gives (b := a) h rfl rfl,
    fun h => State.ialu_gives (b := a) h rfl rfl, fun h => State.ialu_gives h rfl rfl, fun h => State.ialu_gives h rfl rfl,
    fun h => State.ialu_gives h rfl ?_, fun h => State.ialu_gives h rfl ?_, fun h => State.ialu_gives h rfl ?_,
    fun h => State.ialu_gives h rfl ?_, fun h => State.ialu_gives h rfl ?_, fun h => State.intWord_gives (execSel m d a b s) h rfl rfl rfl,
    fun h => State.ialu_gives (a := b) h rfl rfl⟩ <;>
  · rw [← hra]
    rfl

/-- Settles O2: the sum and the difference are those of `addcVal` and `subbVal`, the predicate of `cmp` that of `cmpVal`. -/
theorem carryAndCompareWordsWriteTheirResult : Obligations.CarryAndCompareWordsWriteTheirResult := by
  intro s f m d a b p
  refine ⟨⟨fun h => State.carryWord_gives (execAddc m d a b s) h rfl rfl rfl,
    fun h => State.carryWord_gives (execSubb m d a b s) h rfl rfl (subbVal_eq _ _ _ _)⟩, fun h v hv => ?_⟩
  rw [← cmpVal_eq hv]
  exact State.gives_of h.issuer .nil (List.nodup_singleton _) (State.word_ok h rfl)

/-- What R139 to R142 give, the reversed bits read as a natural number: the counts that the model cuts short give what the full counts give. -/
theorem shiftFieldAndCountWords_give (s : State) (f : Fibre) (m : Mods LitInt) (d a b : RegIx) :
    let l := m.body (.dflt d)
    let t := l.ty
    let N := t.bits
    let ra := f.raw a t
    let c := f.bcount l b
    let x := m.xi (s.openGroup f).pin d
    let o := c % 64
    let w := (f.V x).toNat % 64
    let pair := ra * 2 ^ N + f.raw x t
    let gives (i : Instr) (ws : List Word) : Prop := s.Runs f i m.g → s.Gives f i m.chains m.words 1 (f.wr d ws) [] 0
    gives (.shl m d a b) (t.words (t.wr l.ovf (f.rd a t * 2 ^ c))) ∧
    gives (.shr m d a b) (t.words (t.wr l.ovf (ra / 2 ^ c : Nat))) ∧
    gives (.sar m d a b) (t.words (t.wr l.ovf (sext N ra / 2 ^ c))) ∧
    gives (.rotl m d a b) (t.words (t.wr l.ovf ((ra * 2 ^ (c % N) + ra / 2 ^ (N - c % N)) % 2 ^ N : Nat))) ∧
    (l.sel = 0 → gives (.fsh m d a b) (t.words (pair * 2 ^ (c % N) / 2 ^ N % 2 ^ N))) ∧
    (l.sel = 1 → gives (.fsh m d a b) (t.words (pair / 2 ^ (c % N) % 2 ^ N))) ∧
    gives (.bfx m d a b) (t.words (t.wr l.ovf (if t.signed ∧ 0 < w then sext w (ra / 2 ^ o % 2 ^ w) else (ra / 2 ^ o % 2 ^ w : Nat)))) ∧
    gives (.bfi m d a b) (t.words (bfiVal t l.ovf (f.rd a t) (f.raw d t) o w)) ∧
    gives (.popc m d a) [BitVec.ofNat 32 ((List.range N).countP ra.testBit)] ∧
    gives (.clz m d a) [BitVec.ofNat 32 (if ra = 0 then N else N - 1 - ra.log2)] ∧
    (∀ k, (ra = 0 ∧ k = N) ∨ (k < N ∧ ra.testBit k = true ∧ ∀ j, j < k → ra.testBit j = false) → gives (.ctz m d a) [BitVec.ofNat 32 k]) ∧
    (∀ v : Nat, v < 2 ^ N → (∀ i, i < N → v.testBit i = ra.testBit (N - 1 - i)) → gives (.brev m d a) (t.words (t.wr l.ovf v))) := by
  intro l t N ra c x o w pair gives
  refine ⟨fun h => State.intWord_gives (execShl m d a b s) h rfl rfl (t.wr_shlVal l.ovf _ c),
    fun h => State.intWord_gives (execShr m d a b s) h rfl rfl (congrArg (t.wr l.ovf) (shrVal_eq (f.raw_lt_128 a t) c)),
    fun h => State.intWord_gives (execSar m d a b s) h rfl rfl (congrArg (t.wr l.ovf) (sarVal_eq N ra c)),
    fun h => State.intWord_gives (execRotl m d a b s) h rfl rfl rfl,
    fun hsel h => State.intWord_gives (execFsh m d a b s) h rfl rfl (congrArg (fun sel : BitVec 3 => fshVal N ra (f.raw x t) c (sel == 1)) hsel),
    fun hsel h => State.intWord_gives (execFsh m d a b s) h rfl rfl (congrArg (fun sel : BitVec 3 => fshVal N ra (f.raw x t) c (sel == 1)) hsel),
    fun h => State.intWord_gives (execBfx m d a b s) h rfl rfl ?bfx,
    fun h => State.intWord_gives (execBfi m d a b s) h rfl rfl ?bfi,
    fun h => State.countWord_gives (execPopc m d a s) h rfl rfl (popCount_eq_countP N ra),
    fun h => State.countWord_gives (execClz m d a s) h rfl rfl (clzVal_eq (f.raw_lt a t)),
    fun k hk h => State.countWord_gives (execCtz m d a s) h rfl rfl (ctzVal_eq hk),
    fun v hv hbits h => State.intWord_gives (execBrev m d a s) h rfl rfl (congrArg (fun n : Nat => t.wr l.ovf n) (brevVal_eq hv hbits))⟩
  case bfx => simp [bfxVal, Nat.pos_iff_ne_zero, l, t, ra, c, o, w, x]
  case bfi => simp [bfiVal, l, t, c, o, w, x]

namespace SaturatedBrev

/-- `brev.s32.sat v4, v6` of a zero, which chains, on the device of `RoundedFex2`. -/
def lit : LitInt := .fields .s32 .sat 0 4
def mods : Mods LitInt := ⟨true, 7, some ⟨true, lit⟩⟩

/-- The decoder refuses the policy (R135). -/
theorem refused : (Instr.brev mods 4 6).wf = false := by decide

theorem runs : RoundedFex2.state.Runs RoundedFex2.fibre (.brev mods 4 6) mods.g :=
  ⟨RoundedFex2.runs.issuer, by decide +kernel, by decide +kernel, by decide +kernel⟩

theorem source_zero : RoundedFex2.fibre.raw 6 .s32 = 0 := by decide +kernel

/-- The word that the group holds for the result. -/
theorem result_of_adds (w : Word) :
    RoundedFex2.result (RoundedFex2.state.adds RoundedFex2.fibre mods.chains mods.words [.res 1 (RoundedFex2.fibre.wr 4 [w]) [] 0]) =
      some (0, [w]) := by
  have hopen : (RoundedFex2.state.openGroup RoundedFex2.fibre).fx = [] := by decide +kernel
  simp [RoundedFex2.result, State.adds, OpenGroup.add, hopen, mods, lit, Mods.chains, Fibre.wr]

/-- The model leaves a zero. -/
theorem exec_of_model : exec (.brev mods 4 6) RoundedFex2.state =
    .next (RoundedFex2.state.adds RoundedFex2.fibre mods.chains mods.words [.res 1 (RoundedFex2.fibre.wr 4 [0]) [] 0]) := by
  have hval : Ty.s32.wr .sat (brevVal 32 (RoundedFex2.fibre.raw 6 .s32)) = 0 := by
    rw [source_zero]
    decide
  exact (State.intWord_gives (execBrev mods 4 6 RoundedFex2.state) runs rfl rfl hval).1

/-- The low 32 bits of −2^32 are those of a reversed zero. -/
theorem testBit_of_number : ∀ i, i < 32 → (-2 ^ 32 : Int).testBit i = Nat.testBit 0 (32 - 1 - i) := by decide

end SaturatedBrev

/-- Refutes O3 at `brev` of a zero in a word that names `.sat`. The number that the statement saturates is an integer below 2^N, told by its low N
bits alone: −2^32 has those of the reversed zero, and saturates to −2^31, where the model writes 0. The decoder refuses such a word (R135), which
the statement does not leave out. With a natural number the statement holds (`shiftFieldAndCountWords_give`). -/
theorem not_shiftFieldAndCountWordsWriteTheirResult : ¬ Obligations.ShiftFieldAndCountWordsWriteTheirResult := by
  intro h
  obtain ⟨-, -, -, -, -, -, -, -, -, -, -, hbrev⟩ := h RoundedFex2.state RoundedFex2.fibre SaturatedBrev.mods 4 6 0
  have hbits : ∀ i, i < 32 → (-2 ^ 32 : Int).testBit i = (RoundedFex2.fibre.raw 6 .s32).testBit (32 - 1 - i) := by
    rw [SaturatedBrev.source_zero]
    exact SaturatedBrev.testBit_of_number
  obtain ⟨hexec, -⟩ := hbrev (-2 ^ 32) (by decide) hbits SaturatedBrev.runs
  have hsame := congrArg RoundedFex2.result (Host.Outcome.next.inj (hexec.symm.trans SaturatedBrev.exec_of_model))
  have hword := (SaturatedBrev.result_of_adds _).symm.trans (hsame.trans (SaturatedBrev.result_of_adds _))
  exact absurd hword (by decide)

/-- Settles O4: the four bytes and the N bits name the numbers that `bprm` and `plog` build from them. -/
theorem permuteTableAndAddressWordsWriteTheirResult : Obligations.PermuteTableAndAddressWordsWriteTheirResult := by
  intro s f m d a b l t N x src sel byte gives
  refine ⟨fun v hv hbytes h => State.countWord_gives (execBprm m d a b s) h rfl rfl (bprmVal_eq hv hbytes),
    fun v hv hbits h => State.intWord_gives (execPlog m d a b s) h rfl rfl (plogVal_eq hv hbits), fun h => ?_⟩
  exact State.gives_of h.issuer (f.wr_nodup d _) .nil (State.word_ok h rfl)

/-- Settles O5: the products are exact, and the four terms of `idp4` are those of its sum. -/
theorem multiplyWordsWriteTheirResult : Obligations.MultiplyWordsWriteTheirResult := by
  intro s f m d a b l t x y z sb byte dot gives
  refine ⟨fun h => State.intWord_gives (execMul m d a b s) h rfl rfl rfl, fun h => State.intWord_gives (execMulh m d a b s) h rfl rfl rfl,
    fun h => State.intWord_gives (execMad m d a b s) h rfl rfl rfl, fun h => State.intWord_gives (execMadh m d a b s) h rfl rfl rfl,
    fun h => State.intWord_gives (execIdp4 m d a b s) h rfl rfl (congrArg (t.wr l.ovf) ?_)⟩
  rw [idp4Val_eq]
  simp only [beq_iff_eq]
  rfl

/-- Settles O6: `divVal` and `remVal` answer an error exactly where `.trap` raises, and else the quotient and the remainder. -/
theorem divideWordsWriteOrTrap : Obligations.DivideWordsWriteOrTrap := by
  intro s f m d a b l t x y q r gives traps
  have htrap : ∀ {o : Ovf}, o = .trap → (o == Ovf.trap) = true := fun h => beq_iff_eq.2 h
  refine ⟨fun h => ⟨fun ho hy => State.divWord_traps (execDiv m d a b s) h rfl rfl ?_,
      fun ho hy hq => State.divWord_traps (execDiv m d a b s) h rfl rfl ?_,
      fun hno => State.divWord_gives (execDiv m d a b s) h rfl rfl (divVal_ok ?_)⟩,
    fun h => ⟨fun ho hy => State.divWord_traps (execRem m d a b s) h rfl rfl ?_,
      fun hno => State.divWord_gives (execRem m d a b s) h rfl rfl (remVal_ok ?_)⟩⟩
  · rw [htrap ho, show f.bsrc _ b = 0 from hy]
    exact divVal_zero_traps
  · rw [htrap ho]
    exact divVal_overflow_traps hy hq
  · rwa [beq_iff_eq]
  · rw [htrap ho, show f.bsrc _ b = 0 from hy]
    exact remVal_zero_traps
  · rwa [beq_iff_eq]

end Sys2Proof.Machine

/-! ## O19, O20, O22, O23: words that transfer control, raise causes or arrive at barriers

One effect on the issuing fibre itself, alone in its group, leaves that fibre with it and nothing else changed (`State.leaves_ownEffect`): so do
the transfers of R154 to R158 and the words of R160 and R162. A word's own checks decide between its effects and its cause. -/

namespace Sys2Proof.Machine

/-! ### One effect on the fibre itself (R153) -/

/-- The effects that touch their own fibre alone and hold nothing for later: a transfer, the end of an age, a sleep. -/
inductive Fx.Own : Fx → Prop
  | jump (t : Word) : Own (.jump t)
  | call (wb link : Nat) (v t : Word) : Own (.call wb link v t)
  | ret (wb : Nat) (t : Word) : Own (.ret wb t)
  | yield : Own .yield
  | sleep (n : Nat) : Own (.sleep n)

section
variable {s : State} {f : Fibre} {x : Fx}

/-- A group of one such effect, unchained, takes effect on its fibre. -/
theorem State.commit_own (og : OpenGroup) (hx : x.Own) (h : og.fx = [x]) :
    s.commit f og = s.issuedAs f (Fibre.apply false (s.moved f og []) x) 1 := by
  have hd : dropSent f.sent og.fx = [x] := by
    rw [h]
    cases hx <;> cases f.sent <;> rfl
  unfold State.commit State.takeEffect
  rw [hd, h]
  cases hx <;> rfl

theorem Fibre.apply_own_uid (hx : x.Own) (g : Fibre) : (Fibre.apply false g x).uid = g.uid := by
  cases hx <;> rfl

/-- The registers after such an effect are made of the registers before it. -/
theorem Fibre.apply_own_arch (hx : x.Own) {g h : Fibre} (ha : g.arch = h.arch) : (Fibre.apply false g x).arch = (Fibre.apply false h x).arch := by
  cases hx with
  | jump t => exact congrArg (fun a : ArchState => { a with pc := t }) ha
  | call wb link v t => exact congrArg (fun a : ArchState => { a with wbase := wb, pc := t, regs := a.regs.set link v }) ha
  | ret wb t => exact congrArg (fun a : ArchState => { a with wbase := wb, pc := t }) ha
  | yield | sleep => exact ha

/-- Such an effect alone in its group: the fibre has it, past its words. -/
theorem State.adds_own (hx : x.Own) (hi : s.issuer = some f) (words : Nat) (hg : s.run.group = none) :
    (s.adds f false words [x]).fibre? f.uid = some (Fibre.apply false (s.moved f ((OpenGroup.fresh f).add words [x]) []) x) ∧
    s.OnlyFibre (s.adds f false words [x]) f.uid := by
  rw [State.adds_alone f words [x] hg, State.commit_own _ hx rfl]
  exact ⟨State.issuedAs_fibre 1 hi (Fibre.apply_own_uid hx _), State.issuedAs_onlyFibre 1 (Fibre.apply_own_uid hx _)⟩

theorem State.leaves_own {i : Instr} {chains : Bool} {words : Nat} {arch : ArchState} (hx : x.Own) (hi : s.issuer = some f)
    (h : s.Issues f i chains words [x])
    (ha : (Fibre.apply false { f with arch := { f.arch with pc := f.arch.pc + BitVec.ofNat 32 words } } x).arch = arch) :
    s.Leaves f i chains words [x] arch := by
  refine ⟨h, fun _ hg => ?_⟩
  obtain ⟨hfib, honly⟩ := State.adds_own hx hi words hg
  refine ⟨⟨_, hfib, (Fibre.apply_own_arch hx ?_).trans ha⟩, honly⟩
  rw [State.moved_fresh]

/-- A word with no effect leaves its fibre past its words. -/
theorem State.leaves_nil {i : Instr} {chains : Bool} {words : Nat} (hi : s.issuer = some f) (h : s.Issues f i chains words []) :
    s.Leaves f i chains words [] { f.arch with pc := f.arch.pc + BitVec.ofNat 32 words } := by
  refine ⟨h, fun _ hg => ?_⟩
  rw [State.adds_alone f words [] hg, State.commit_nil s f _ rfl]
  exact ⟨⟨_, State.issuedAs_fibre 0 hi rfl, by rw [State.moved_fresh]⟩, State.issuedAs_onlyFibre 0 rfl⟩

end

/-! ### BRANCH (R153 to R158) -/

section
variable {s : State} {f : Fibre} {m : Plain} {off : BitVec 18}

theorem toTarget_of_mem {t : Int} {k : Word → WordOut} (h0 : 0 ≤ t) (h1 : t < 2 ^ 32) : toTarget t k = k (BitVec.ofInt 32 t) :=
  if_neg (by omega)

theorem toTarget_of_not_mem {t : Int} {k : Word → WordOut} (h : t < 0 ∨ 2 ^ 32 ≤ t) : toTarget t k = .raise (mkCause 9 4) (BitVec.ofInt 64 t) :=
  if_pos h

/-- A word of class BRANCH that no later branch of its group voids, whose own meaning raises a cause, raises it. -/
theorem State.issueWord_raise {i : Instr} {g : GuardBits} {chains branch : Bool} {words : Nat} {body : Fibre → OpenGroup → WordOut} {c : Cause}
    {tv : DWord} (h : s.Runs f i g) (hv : f.voided (s.openGroup f) words = false) (hb : body f (s.openGroup f) = .raise c tv) :
    s.issueWord i g chains words branch body = .next (s.groupRaise f (s.openGroup f) c tv) := by
  have hw : wordOut i body f (s.openGroup f) = .raise c tv := by
    rw [wordOut, Fibre.firstRegs_ok h.within h.sound]
    exact hb
  rw [State.issueWord, h.issuer]
  simp only [h.guard, hv, Bool.not_true, Bool.and_false, Bool.or_self, Bool.false_eq_true, if_false, hw]

/-- Code that is found is read (R157). -/
theorem State.readCode_found {og : OpenGroup} {addr n pa : Nat} {k : Nat → WordOut} (h : s.codeAt f og.head addr n = .found pa) :
    s.readCode f og addr n k = k (leNat (s.codeBytes (s.slotOf f) pa n)) := by
  rw [State.readCode, h]

/-- The fields of a link: the slide above the return PC. -/
theorem link_slide (l : Word) : (l.extractLsb' 27 5).toNat = l.toNat / 2 ^ 27 := by
  have := l.isLt
  simp only [BitVec.extractLsb'_toNat, Nat.shiftRight_eq_div_pow]
  omega

theorem link_pc (l : Word) : (l.extractLsb' 0 27).setWidth 32 = BitVec.ofNat 32 (l.toNat % 2 ^ 27) := by
  apply BitVec.eq_of_toNat_eq
  simp [BitVec.extractLsb'_toNat]

end

/-- Settles O19: each word passes its checks to one effect on its own fibre (`State.leaves_own`). -/
theorem branchWordsTransfer : Obligations.BranchWordsTransfer := by
  intro s f off og here target wb
  refine ⟨fun m h hv h0 h1 => ?br, fun m h hv hfit hret h0 h1 => ?call, fun m h hv hwb hbad hk hfit => ?ret,
    fun m t a pe pt h hv hdir hzero hi hcount hoff htable => ?jt⟩
  case br => exact State.leaves_own (.jump _) h.issuer (State.issueWord_ok h (.inr hv) (toTarget_of_mem h0 h1)) rfl
  case call =>
    refine State.leaves_own (.call _ _ _ _) h.issuer (State.issueWord_ok h (.inr hv) ?_) rfl
    exact (if_neg (Nat.not_lt.2 hfit)).trans ((if_neg (Nat.not_le.2 hret)).trans (toTarget_of_mem h0 h1))
  case ret =>
    refine State.leaves_own (.ret _ _) h.issuer (State.issueWord_ok h (.inr hv) ?_) rfl
    refine (if_neg hwb.ne').trans ((if_neg (Bool.eq_false_iff.1 hbad)).trans ((if_neg ?_).trans ?_))
    · rw [link_slide]
      exact not_or.2 ⟨hk.ne', Nat.not_lt.2 hfit⟩
    · rw [link_slide, link_pc]
  case jt =>
    refine State.leaves_own (.jump _) h.issuer (State.issueWord_ok h (.inr hv) ?_) rfl
    refine (State.readCode_found hdir).trans ?_
    refine (if_neg ?_).trans ((if_neg ?_).trans ((if_neg ?_).trans (State.readCode_found htable)))
    all_goals omega

/-- Settles O20: the first check that fails raises its cause (`State.issueWord_raise`). -/
theorem branchWordsTrap : Obligations.BranchWordsTrap := by
  intro s f off og target wb
  refine ⟨fun m h hv ht => State.issueWord_raise h hv (toTarget_of_not_mem ht), fun m h hv => ⟨fun hfit => ?window, fun hfit hret => ?far,
    fun hfit hret ht => ?target⟩, fun m h hv => ⟨fun hwb => ?none, fun hwb hbad => ?spoiled, fun hwb hbad hk => ?link⟩⟩
  case window => exact State.issueWord_raise h hv (if_pos hfit)
  case far => exact State.issueWord_raise h hv ((if_neg (Nat.not_lt.2 hfit)).trans (if_pos hret))
  case target =>
    exact State.issueWord_raise h hv ((if_neg (Nat.not_lt.2 hfit)).trans ((if_neg (Nat.not_le.2 hret)).trans (toTarget_of_not_mem ht)))
  case none => exact State.issueWord_raise h hv (if_pos hwb)
  case spoiled => exact State.issueWord_raise h hv ((if_neg hwb.ne').trans (if_pos hbad))
  case link =>
    refine State.issueWord_raise h hv ((if_neg hwb.ne').trans ((if_neg (Bool.eq_false_iff.1 hbad)).trans (if_pos ?_)))
    rwa [link_slide]

end Sys2Proof.Machine

namespace Sys2Proof

/-! ### Words of `trap` (R161) -/

/-- The number of a concatenation. -/
theorem toNat_concat {m n : Nat} (x : BitVec m) (y : BitVec n) : (x ++ y).toNat = x.toNat * 2 ^ n + y.toNat := by
  rw [BitVec.toNat_append, ← Nat.shiftLeft_add_eq_or_of_lt y.isLt, Nat.shiftLeft_eq]

/-- The fields of a word of `trap` (Table 6.1). -/
def trapRaw (c : Bool) (d : RegIx) (g : GuardBits) : Raw := ⟨c, 18, 2, d, 0, 0, g⟩

/-- The number of a word of `trap` with d in field D. -/
def trapWord (c : Bool) (d : Nat) (g : GuardBits) : Word := BitVec.ofNat 32 (c.toNat * 2 ^ 31 + 0x48800000 + d * 2 ^ 16 + g.toNat)

theorem trapRaw_toWord (c : Bool) (d : RegIx) (g : GuardBits) :
    (trapRaw c d g).toWord = trapWord c d.toNat g := by
  apply BitVec.eq_of_toNat_eq
  have hd := d.isLt
  have hg := g.isLt
  have hc := c.toNat_le
  simp only [trapRaw, trapWord, Raw.toWord, toNat_concat, BitVec.toNat_ofBool, BitVec.toNat_ofNat, BitVec.ofNat_eq_ofNat]
  omega

/-- A word of `trap` is one exactly where D[5:4] is 0 (R161, R102). -/
theorem decode_trapRaw (c : Bool) (d : RegIx) (g : GuardBits) :
    decode (trapRaw c d g).toWord none = if fitsT d = true then .ok (.trap ⟨c, g⟩ (toT d)) else .error (.word 18) := by
  have hlit : litOf (trapRaw c d g).toWord none = none := by
    unfold litOf
    split <;> rfl
  have hraw : decodeRaw (trapRaw c d g) none = need (trapRaw c d g) (fitsT d && true && true) (.ok (.trap ⟨c, g⟩ (toT d))) := rfl
  rw [decode, Raw.ofWord_toWord, hlit, hraw, Bool.and_true, Bool.and_true]
  cases fitsT d <;> rfl

end Sys2Proof

namespace Sys2Proof.Machine

/-- Settles O22: `trap` has no other answer than its cause, and its word is the one of `trapRaw`. -/
theorem trapWordRaisesItsCause : Obligations.TrapWordRaisesItsCause := by
  refine ⟨fun s f m n h => State.plain_raise h rfl, fun c n g => ⟨?ok, fun k hk hk3 => ?refused⟩⟩
  case ok =>
    have hn : n.toNat = (n.setWidth 6).toNat := by simp; omega
    show decode (trapWord c n.toNat g) none = _
    rw [hn, ← trapRaw_toWord, decode_trapRaw, if_pos (fitsT_setWidth n), toT_setWidth]
  case refused =>
    have hn := n.isLt
    have hd : 16 * k + n.toNat = (BitVec.ofNat 6 (16 * k + n.toNat)).toNat := by simp; omega
    show decode (trapWord c (16 * k + n.toNat) g) none = _
    rw [hd, ← trapRaw_toWord, decode_trapRaw, if_neg fun hfits => ?_]
    have hhigh : (16 * k + n.toNat) / 2 ^ 4 % 2 ^ 2 = 0 := by
      rw [hd, ← Nat.shiftRight_eq_div_pow, ← BitVec.extractLsb'_toNat, beq_iff_eq.1 hfits]
      rfl
    omega

/-! ### Barrier words (R166 to R170) -/

section
variable {s : State} {f : Fibre} {m : Mods LitBar} {n : BitVec 5}

theorem barrier_tval (n : BitVec 5) : BitVec.ofNat 64 n.toNat = n.setWidth 64 := by
  apply BitVec.eq_of_toNat_eq
  simp

section
variable {og : OpenGroup} {sc : Scope} {fx : List Fx}

theorem State.barWord_beyond (h : (s.cohortOf f).decl.bars ≤ n.toNat) : s.barWord f og n sc fx = .raise (mkCause 1 1) (n.setWidth 64) := if_pos h

theorem State.barWord_near (h : n.toNat < (s.cohortOf f).decl.bars) (hsc : sc ≠ .dev) : s.barWord f og n sc fx = .ok fx :=
  (if_neg (Nat.not_le.2 h)).trans (if_neg hsc)

theorem State.barWord_scattered (h : n.toNat < (s.cohortOf f).decl.bars) (hr : (s.slot (s.cohortOf f).slot).resident = false) :
    s.barWord f og n .dev fx = .raise (mkCause 6 21) (n.setWidth 64) :=
  (if_neg (Nat.not_le.2 h)).trans ((if_pos rfl).trans (if_pos (by rw [hr]; rfl)))

/-- In a resident launch a device barrier's entry decides: whether the table has room for it. -/
theorem State.barWord_resident (h : n.toNat < (s.cohortOf f).decl.bars) (hr : (s.slot (s.cohortOf f).slot).resident = true) :
    s.barWord f og n .dev fx = match s.barCause f og.fx (.devBar n.toNat) with
      | some (c, tv) => .raise c tv
      | none => .ok (.devBar n.toNat :: fx) :=
  (if_neg (Nat.not_le.2 h)).trans ((if_pos rfl).trans (if_neg (by rw [hr]; decide)))

theorem State.barCause_full (hb : s.devBar? (s.cohortOf f).slot n.toNat = none)
    (hfull : 64 ≤ s.devBars.length + (s.newBars (s.cohortOf f).slot og.fx n.toNat).length) :
    s.barCause f og.fx (.devBar n.toNat) = some (mkCause 6 22, n.setWidth 64) := by
  rw [← barrier_tval]
  exact if_pos ⟨by rw [hb]; rfl, hfull⟩

theorem State.barCause_room
    (h : s.devBar? (s.cohortOf f).slot n.toNat ≠ none ∨ s.devBars.length + (s.newBars (s.cohortOf f).slot og.fx n.toNat).length < 64) :
    s.barCause f og.fx (.devBar n.toNat) = none :=
  if_neg fun ⟨hnone, hfull⟩ => h.elim (· (Option.isNone_iff_eq_none.1 hnone)) (Nat.not_lt.2 hfull)

end

/-- A word that answers as a barrier word raises or issues as it does. -/
theorem State.word_bar {i : Instr} {fx : List Fx} {body : Fibre → OpenGroup → WordOut}
    (hi : exec i s = s.word i m body) (hb : body f (s.openGroup f) = s.barWord f (s.openGroup f) n (m.body .dflt).scope fx) (h : s.Runs f i m.g) :
    let c := s.cohortOf f
    let tv : DWord := n.setWidth 64
    let sc := (m.body .dflt).scope
    let new := (s.newBars c.slot (s.openGroup f).fx n.toNat).length
    (c.decl.bars ≤ n.toNat → s.Traps f i (mkCause 1 1) tv) ∧
    (n.toNat < c.decl.bars →
      (sc ≠ .dev → s.Issues f i m.chains m.words fx) ∧
      (sc = .dev → (s.slot c.slot).resident = false → s.Traps f i (mkCause 6 21) tv) ∧
      (sc = .dev → (s.slot c.slot).resident = true → s.devBar? c.slot n.toNat = none → 64 ≤ s.devBars.length + new →
        s.Traps f i (mkCause 6 22) tv) ∧
      (sc = .dev → (s.slot c.slot).resident = true → (s.devBar? c.slot n.toNat ≠ none ∨ s.devBars.length + new < 64) →
        s.Issues f i m.chains m.words (.devBar n.toNat :: fx))) := by
  have raises : ∀ {k tv}, s.barWord f (s.openGroup f) n (m.body .dflt).scope fx = .raise k tv → s.Traps f i k tv := fun e =>
    hi.trans (State.word_raise h (hb.trans e))
  have issues : ∀ {fx'}, s.barWord f (s.openGroup f) n (m.body .dflt).scope fx = .ok fx' → s.Issues f i m.chains m.words fx' := fun e =>
    hi.trans (State.word_ok h (hb.trans e))
  refine ⟨fun hn => raises (State.barWord_beyond hn), fun hn => ⟨fun hsc => issues (State.barWord_near hn hsc), fun hsc hr => raises ?_,
    fun hsc hr hnone hfull => raises ?_, fun hsc hr hroom => issues ?_⟩⟩ <;> rw [hsc]
  · exact State.barWord_scattered hn hr
  · rw [State.barWord_resident hn hr, State.barCause_full hnone hfull]
  · rw [State.barWord_resident hn hr, State.barCause_room hroom]

end

/-- `bar.expect` asks first whether PEND has room for its bytes, those of the words before it counted (R167). -/
theorem State.barCause_expect (s : State) (f : Fibre) (pre : List Fx) (n : Nat) (v : Word) :
    s.barCause f pre (.barExpect n v) =
      if 2 ^ 31 - 1 < ((s.cohortOf f).bar n).pend + expected n pre + v.toNat then some (mkCause 6 20, v.setWidth 64) else none :=
  if_congr (by omega) rfl rfl

/-- Settles O23: `bar`, `bar.arrive` and `bar.wait` answer as `State.word_bar` says; `bar.expect` asks first whether PEND has room. -/
theorem barrierWordsIssueOrTrap : Obligations.BarrierWordsIssueOrTrap := by
  intro s f m n a sc c tv bar
  refine ⟨State.word_bar rfl rfl, State.word_bar rfl rfl, State.word_bar rfl rfl, fun h => ⟨fun hn => State.word_raise h ?beyond,
    fun hn hmore => State.word_raise h ?full, fun hn hmore => State.word_ok h ?room⟩⟩ <;> dsimp only
  case beyond => rw [if_neg (Nat.not_lt.2 hn), State.barWord_beyond hn]
  case full => rw [if_pos hn, State.barCause_expect, if_pos hmore]
  case room =>
    rw [if_pos hn, State.barCause_expect, if_neg (not_lt.2 hmore)]
    exact State.barWord_near hn (by decide)

end Sys2Proof.Machine

/-! ## O21: `exit`, `yield`, `sleep`, `waitc` and `nop`

`exit` ends a fibre that has not exited: what its leaving completes wakes other fibres and leaves it as it ended (`State.Ended`). -/

namespace Sys2Proof.Machine

/-- What is found after a change that keeps what is looked for is what stood there, changed. -/
theorem find?_map_of_key {α : Type} {p : α → Bool} {g : α → α} (h : ∀ x, p (g x) = p x) (l : List α) : (l.map g).find? p = (l.find? p).map g := by
  rw [List.find?_map]
  exact congrArg (fun q => (l.find? q).map g) (funext h)

namespace State

variable {s : State} {f : Fibre} {u : Nat}

/-- Fibre u has exited, and waits for nothing. -/
def Ended (s : State) (u : Nat) : Prop := ∃ g, s.fibre? u = some g ∧ g.exited = true ∧ g.waits = [] ∧ g.hoist = []

theorem Ended.of_fibres {t : State} (h : s.Ended u) (ht : t.fibres = s.fibres) : t.Ended u := by
  obtain ⟨g, hg, hend⟩ := h
  exact ⟨g, by rw [fibre?, ht]; exact hg, hend⟩

theorem Ended.updFibre {g : Fibre → Fibre} (hf : s.fibre? u = some f) (hu : ∀ f, (g f).uid = f.uid)
    (hg : (g f).exited = true ∧ (g f).waits = [] ∧ (g f).hoist = []) : (s.updFibre u g).Ended u :=
  ⟨g f, by rw [fibre?_updFibre_same _ _ _ fun f h => (hu f).trans h, hf]; rfl, hg⟩

theorem Ended.barCheck (h : s.Ended u) (cohort n : Nat) : (s.barCheck cohort n).Ended u := by
  unfold State.barCheck
  split
  · exact h
  split
  · obtain ⟨g, hg, hexit, hwaits, hhoist⟩ := h
    refine ⟨if g.cohort = cohort then { g with waits := g.waits.filter fun w => w != .bar n } else g,
      (find?_map_of_key (fun f => by split <;> rfl) s.fibres).trans (congrArg (Option.map _) hg), ?_⟩
    split <;> simp [hexit, hwaits, hhoist]
  · exact h

theorem devBarCheck_fibres (s : State) (slot n : Nat) : (s.devBarCheck slot n).fibres = s.fibres := by
  unfold devBarCheck
  split
  · rfl
  · split <;> rfl

/-- A fibre that exits has ended, whatever barriers are whole without it. -/
theorem exitAll_ended (hf : s.fibre? u = some f) (hx : f.exited = false) : (s.exitAll u).Ended u := by
  have hexit : (s.exitFibre u).Ended u := by
    simp only [exitFibre, hf]
    exact Ended.updFibre (f := f) hf (fun _ => rfl) ⟨rfl, rfl, rfl⟩
  have hcohort : ((s.exitFibre u).barCheckAll f.cohort).Ended u := by
    unfold barCheckAll
    split
    · exact hexit
    · exact List.foldlRecOn (motive := fun t : State => t.Ended u) _ _ hexit fun t ht n _ => ht.barCheck _ n
  have hall : s.exitAll u = ((s.exitFibre u).barCheckAll f.cohort).devBarCheckAll (s.cohortOf f).slot := by
    simp only [exitAll, hf, hx, Bool.false_eq_true, if_false]
  rw [hall]
  exact hcohort.of_fibres (foldl_keeps (m := State.fibres) (fun _ _ => devBarCheck_fibres _ _ _) _ _)

/-- `exit` alone in its group ends its fibre (R159). -/
theorem adds_exit_ended (hi : s.issuer = some f) (hg : s.run.group = none) (hx : f.exited = false) : (s.adds f false 1 [.exit]).Ended f.uid := by
  have hd : dropSent f.sent [.exit] = [.exit] := by cases f.sent <;> rfl
  have hcommit : s.adds f false 1 [.exit] = (s.issuedAs f (s.moved f ((OpenGroup.fresh f).add 1 [.exit]) []) 1).exitAll f.uid := by
    rw [adds_alone f 1 [.exit] hg, commit, takeEffect, show ((OpenGroup.fresh f).add 1 [.exit]).fx = [.exit] from rfl, hd]
    rfl
  rw [hcommit]
  exact exitAll_ended (issuedAs_fibre 1 hi rfl) hx

end State

/-- What O21 says, of a fibre that has not exited yet where it says that `exit` ends it. -/
theorem flowWords_issue (s : State) (f : Fibre) :
    let next (words : Nat) : ArchState := { f.arch with pc := f.arch.pc + BitVec.ofNat 32 words }
    (∀ m : Plain, s.Runs f (.nop m) m.g → s.Leaves f (.nop m) m.c 1 [] (next 1)) ∧
    (∀ m : Mods LitWaitc, s.Runs f (.waitc m) m.g → s.Leaves f (.waitc m) m.chains m.words [] (next m.words)) ∧
    (∀ m : Plain, s.Runs f (.yield m) m.g → s.Leaves f (.yield m) m.c 1 [.yield] (next 1)) ∧
    (∀ m : Mods LitSleep, s.Runs f (.sleep m) m.g →
      let ns := ((m.body .dflt).ns).toNat
      (ns = 0 → s.Leaves f (.sleep m) m.chains m.words [] (next m.words)) ∧
      (0 < ns → s.Leaves f (.sleep m) m.chains m.words [.sleep (s.ltimeAt (dieOfHearth (s.hearthOf f)) + ns)] (next m.words) ∧
        (m.chains = false → s.run.group = none →
          ∃ g, (s.adds f false m.words [.sleep (s.ltimeAt (dieOfHearth (s.hearthOf f)) + ns)]).fibre? f.uid = some g ∧
            g.waits = f.waits ++ [.sleep (s.ltimeAt (dieOfHearth (s.hearthOf f)) + ns)]))) ∧
    (∀ m : Plain, s.Runs f (.exit m) m.g → s.Issues f (.exit m) m.c 1 [.exit] ∧
      (m.c = false → s.run.group = none → f.exited = false → (s.adds f false 1 [.exit]).Ended f.uid)) := by
  intro next
  refine ⟨fun m h => State.leaves_nil h.issuer (State.plain_ok h rfl), fun m h => State.leaves_nil h.issuer (State.word_ok h rfl),
    fun m h => State.leaves_own .yield h.issuer (State.plain_ok h rfl) rfl, fun m h => ⟨fun hns => ?awake, fun hns => ⟨?asleep, fun _ hg => ?waits⟩⟩,
    fun m h => ⟨State.plain_ok h rfl, fun _ hg hx => State.adds_exit_ended h.issuer hg hx⟩⟩
  case awake => exact State.leaves_nil h.issuer (State.word_ok h (if_pos hns))
  case asleep => exact State.leaves_own (.sleep _) h.issuer (State.word_ok h (if_neg hns.ne')) rfl
  case waits => exact ⟨_, (State.adds_own (.sleep _) h.issuer m.words hg).1, by rw [State.moved_fresh]; rfl⟩

namespace ExitedSleeper

/-- The device after power-on with one fibre that issues: it has exited, asleep. -/
def state : State :=
  let s := State.reset.withFetchWord 32 0x00482077
  s.setFibre (match s.issuer with
    | some f => { f with exited := true, waits := [.sleep 0] }
    | none => default)

def fibre : Fibre := state.issuer.getD default
def word : Plain := ⟨false, 7⟩

theorem runs : state.Runs fibre (.exit word) word.g := by
  have hissuer : state.issuer.isSome = true := by decide +kernel
  refine ⟨?_, by decide +kernel, by decide +kernel, by decide +kernel⟩
  obtain ⟨f, hf⟩ := Option.isSome_iff_exists.1 hissuer
  rw [fibre, hf, Option.getD_some]

theorem alone : state.run.group = none ∧ fibre.order = none := by decide +kernel

/-- The sleep stands. -/
theorem waits_of_model : ((state.adds fibre false 1 [.exit]).fibre? fibre.uid).map (·.waits) = some [.sleep 0] := by decide +kernel

end ExitedSleeper

/-- Refutes O21 at an `exit` of a fibre that has exited already: the model ends a fibre once, and leaves such a one, which the statement does not
leave out, as it stands, with what it waits for. No turn gives it a word (`State.turnFrom`); of the others the statement holds
(`flowWords_issue`). -/
theorem not_flowWordsIssue : ¬ Obligations.FlowWordsIssue := by
  intro h
  obtain ⟨-, -, -, -, hexit⟩ := h ExitedSleeper.state ExitedSleeper.fibre
  obtain ⟨-, hends⟩ := hexit ExitedSleeper.word ExitedSleeper.runs
  obtain ⟨g, hg, -, hwaits, -⟩ := hends rfl ExitedSleeper.alone.1 ExitedSleeper.alone.2
  have hmodel := ExitedSleeper.waits_of_model
  rw [hg, Option.map_some, hwaits] at hmodel
  exact absurd hmodel (by decide)

end Sys2Proof.Machine

/-! ## O24: barriers

Every row of Table 9.6 is one change of a barrier, after which its phase completes if it is whole (`State.barStep`). -/

namespace Sys2Proof.Machine

/-! ### Cohort barriers (R165 to R169, Table 9.6) -/

@[simp] theorem Cohort.bar_n (c : Cohort) (n : Nat) : (c.bar n).n = n := by
  unfold Cohort.bar
  cases h : c.bars.find? (·.n == n) with
  | none => rfl
  | some b => simpa using List.find?_some h

theorem Cohort.bar_updBar_same {c : Cohort} {n : Nat} {g : Barrier → Barrier} (hg : ∀ b, (g b).n = b.n) : (c.updBar n g).bar n = g (c.bar n) := by
  have hn : ((g (c.bar n)).n == n) = true := by rw [hg, c.bar_n, beq_self_eq_true]
  rw [Cohort.updBar, Cohort.bar, List.find?_cons, hn]
  rfl

/-- The phase of a barrier is whole once every live fibre has arrived and no bytes are pending. -/
abbrev Barrier.Whole (b : Barrier) (live : Nat) : Prop := b.pend = 0 ∧ b.arrived ≠ [] ∧ b.arrived.length = live

/-- A barrier whose phase completes if it is whole. -/
def Barrier.settled (b : Barrier) (live : Nat) : Barrier := if b.Whole live then b.complete else b

/-- A row of Table 9.6: barrier n of a cohort changes, and its phase completes if it is whole. -/
def State.barStep (s : State) (u n : Nat) (g : Barrier → Barrier) : State := (s.updCohort u (·.updBar n g)).barCheck u n

/-- The arrival at place k. -/
def Barrier.arrive (k : Nat) (b : Barrier) : Barrier := if b.arrived.contains k then b else { b with arrived := b.arrived ++ [k] }

/-- The barrier is expected v more bytes. -/
def Barrier.expect (v : Nat) (b : Barrier) : Barrier := { b with pend := b.pend + v }

/-- The barrier of a command that halts takes the bytes that it owed. -/
def Barrier.halt (owed : Nat) (b : Barrier) : Barrier := { b.deliver owed with flt := true }

theorem Barrier.arrive_n (k : Nat) (b : Barrier) : (b.arrive k).n = b.n := by
  unfold Barrier.arrive
  split <;> rfl

theorem Barrier.deliver_n (bytes : Nat) (b : Barrier) : (b.deliver bytes).n = b.n := by
  simp only [Barrier.deliver]
  split <;> rfl

theorem Barrier.halt_n (owed : Nat) (b : Barrier) : (b.halt owed).n = b.n := b.deliver_n owed

namespace State

theorem fibre?_updFibre_found {s : State} {u : Nat} {f : Fibre} {g : Fibre → Fibre} (hu : ∀ f, (g f).uid = f.uid) (hf : s.fibre? u = some f) :
    (s.updFibre u g).fibre? u = some (g f) := by
  rw [fibre?_updFibre_same _ _ _ fun f h => (hu f).trans h, hf]
  rfl

variable {s : State} {u n : Nat} {c : Cohort} {g : Barrier → Barrier}

theorem barArrive_eq (s : State) (f : Fibre) (n : Nat) : s.barArrive f n = s.barStep f.cohort n (Barrier.arrive f.place) := rfl
theorem barExpect_eq (s : State) (f : Fibre) (n v : Nat) : s.barExpect f n v = s.barStep f.cohort n (Barrier.expect v) := rfl
theorem barDeliver_eq (s : State) (u n bytes : Nat) : s.barDeliver u n bytes = s.barStep u n (·.deliver bytes) := rfl
theorem barHalt_eq (s : State) (u n owed : Nat) : s.barHalt u n owed = s.barStep u n (Barrier.halt owed) := rfl

theorem barWhole_iff (s : State) (u : Nat) (b : Barrier) : s.barWhole u b = true ↔ b.Whole (s.liveOf u).length := by
  simp only [barWhole, Bool.and_eq_true, beq_iff_eq, Bool.not_eq_true', List.isEmpty_eq_false_iff]
  tauto

/-- The fibres of a cohort no longer wait at barrier n. -/
def awaken (s : State) (u n : Nat) : State :=
  { s with fibres := s.fibres.map fun f => if f.cohort = u then { f with waits := f.waits.filter fun w => w != .bar n } else f }

section
variable (hc : s.cohort? u = some c) (hg : ∀ b, (g b).n = b.n)
include hc hg

/-- A change that leaves a barrier whole completes its phase, and its waiters go on. -/
theorem barStep_whole (hw : (g (c.bar n)).Whole (s.liveOf u).length) :
    s.barStep u n g = ((s.updCohort u (·.updBar n g)).updCohort u (·.updBar n Barrier.complete)).awaken u n := by
  have hc' : (s.updCohort u (·.updBar n g)).cohort? u = some (c.updBar n g) := cohort?_updCohort_same (fun _ h => h) hc
  have hwhole : (s.updCohort u (·.updBar n g)).barWhole u ((c.updBar n g).bar n) = true := by
    rw [barWhole_iff, Cohort.bar_updBar_same hg]
    exact hw
  rw [barStep, barCheck, hc']
  exact if_pos hwhole

/-- One that does not changes the barrier alone. -/
theorem barStep_part (hw : ¬(g (c.bar n)).Whole (s.liveOf u).length) : s.barStep u n g = s.updCohort u (·.updBar n g) := by
  have hc' : (s.updCohort u (·.updBar n g)).cohort? u = some (c.updBar n g) := cohort?_updCohort_same (fun _ h => h) hc
  have hpart : ¬(s.updCohort u (·.updBar n g)).barWhole u ((c.updBar n g).bar n) = true := by
    rw [barWhole_iff, Cohort.bar_updBar_same hg]
    exact hw
  rw [barStep, barCheck, hc']
  exact if_neg hpart

end

theorem awaken_fibre (s : State) (u n v : Nat) :
    (s.awaken u n).fibre? v = (s.fibre? v).map fun f => if f.cohort = u then { f with waits := f.waits.filter fun w => w != .bar n } else f :=
  find?_map_of_key (fun f => by split <;> rfl) s.fibres

/-- No fibre of the cohort waits at the barrier then. -/
theorem not_mem_waits_of_awaken {v : Nat} {f : Fibre} (hf : (s.awaken u n).fibre? v = some f) (hu : f.cohort = u) : Wait.bar n ∉ f.waits := by
  rw [awaken_fibre, Option.map_eq_some_iff] at hf
  obtain ⟨f₀, -, rfl⟩ := hf
  split at hu
  · next h => simp [h]
  · next h => exact absurd hu h

section
variable (hc : s.cohort? u = some c) (hg : ∀ b, (g b).n = b.n)
include hc hg

theorem barStep_completes (hw : (g (c.bar n)).Whole (s.liveOf u).length) :
    ∃ e, (s.barStep u n g).cohort? u = some e ∧ e.bar n = (g (c.bar n)).complete ∧
      ∀ v f, (s.barStep u n g).fibre? v = some f → f.cohort = u → Wait.bar n ∉ f.waits := by
  have hc' : (s.updCohort u (·.updBar n g)).cohort? u = some (c.updBar n g) := cohort?_updCohort_same (fun _ h => h) hc
  rw [barStep_whole hc hg hw]
  refine ⟨_, cohort?_updCohort_same (fun _ h => h) hc', ?_, fun v f hf hu => not_mem_waits_of_awaken hf hu⟩
  rw [Cohort.bar_updBar_same (g := Barrier.complete) fun _ => rfl, Cohort.bar_updBar_same hg]

theorem barStep_goesOn (hw : ¬(g (c.bar n)).Whole (s.liveOf u).length) :
    ∃ e, (s.barStep u n g).cohort? u = some e ∧ e.bar n = g (c.bar n) ∧ (s.barStep u n g).fibres = s.fibres := by
  rw [barStep_part hc hg hw]
  exact ⟨_, cohort?_updCohort_same (fun _ h => h) hc, Cohort.bar_updBar_same hg, rfl⟩

/-- The barrier after its change. -/
theorem barStep_bar : ∃ e, (s.barStep u n g).cohort? u = some e ∧ e.bar n = (g (c.bar n)).settled (s.liveOf u).length := by
  by_cases hw : (g (c.bar n)).Whole (s.liveOf u).length
  · obtain ⟨e, he, hbar, -⟩ := barStep_completes hc hg hw
    exact ⟨e, he, hbar.trans (if_pos hw).symm⟩
  · obtain ⟨e, he, hbar, -⟩ := barStep_goesOn hc hg hw
    exact ⟨e, he, hbar.trans (if_neg hw).symm⟩

end

end State

/-! ### Device barriers (R170, R171) -/

namespace State

variable {s : State} {slot n : Nat} {d : DevBar} {g : DevBar → DevBar}

theorem devBar?_is (h : s.devBar? slot n = some d) : d.is slot n = true := List.find?_some (p := fun b : DevBar => b.is slot n) h

theorem devBar?_updDevBar (hg : ∀ b, (g b).is slot n = b.is slot n) (h : s.devBar? slot n = some d) :
    (s.updDevBar slot n g).devBar? slot n = some (g d) := by
  have hfind : (s.updDevBar slot n g).devBar? slot n = (s.devBar? slot n).map fun b => if b.is slot n then g b else b :=
    find?_map_of_key (fun b => by split <;> simp [hg]) s.devBars
  rw [hfind, h, Option.map_some, if_pos (devBar?_is h)]

theorem devBar?_devBarAlloc (h : s.devBar? slot n = none) :
    (s.devBarAlloc slot n).devBar? slot n = some { slot := slot, n := n, phase := 0, arrived := [], waiting := [], wakes := [] } := by
  have hnone : s.devBars.find? (·.is slot n) = none := h
  simp [devBarAlloc, devBar?, List.find?_append, hnone]
  simp [DevBar.is]

end State

/-! #### The windows of R171 -/

/-- The place of a hearth in the order of a phase. -/
def wakePlace (phase h : Nat) : Nat := (h + 192 - phase * 7 % 192) % 192

/-- The hearths that hold waiters, in the order of a phase. -/
def wakeOrder (phase : Nat) (holds : Nat → Bool) : List Nat := ((List.range 192).map fun i => (phase * 7 + i) % 192).filter holds

/-- How many of them come before a hearth. -/
def wakeRank (phase : Nat) (holds : Nat → Bool) (h : Nat) : Nat :=
  ((List.range 192).filter fun k => holds k && decide (wakePlace phase k < wakePlace phase h)).length

/-- In a list that rises by a measure, as many elements are below an element as stand before it. -/
theorem length_filter_lt_of_rising {m : Nat → Nat} {l : List Nat} (hl : l.Pairwise fun a b => m a < m b) {i : Nat} {x : Nat} (hx : l[i]? = some x) :
    (l.filter fun a => decide (m a < m x)).length = i := by
  induction l generalizing i with
  | nil => simp at hx
  | cons a t ih =>
    obtain ⟨ha, ht⟩ := List.pairwise_cons.1 hl
    cases i with
    | zero =>
      obtain rfl : a = x := by simpa using hx
      have hnone : ∀ b ∈ a :: t, ¬decide (m b < m a) = true := by
        intro b hb
        rcases List.mem_cons.1 hb with rfl | hb
        · simp
        · simpa using (ha b hb).le
      rw [List.filter_eq_nil_iff.2 hnone, List.length_nil]
    | succ i =>
      have hx' : t[i]? = some x := by simpa using hx
      have hlt : m a < m x := ha x (List.mem_of_getElem? hx')
      rw [List.filter_cons_of_pos (by simpa using hlt), List.length_cons, ih ht hx']

section
variable {phase h : Nat} {holds : Nat → Bool}

theorem wakePlace_add {i : Nat} (hi : i < 192) : wakePlace phase ((phase * 7 + i) % 192) = i := by
  unfold wakePlace
  omega

theorem wakeOrder_rising (phase : Nat) (holds : Nat → Bool) : (wakeOrder phase holds).Pairwise fun a b => wakePlace phase a < wakePlace phase b := by
  refine List.Pairwise.filter _ (List.pairwise_map.2 ((List.pairwise_lt_range (n := 192)).imp_of_mem fun ha hb hab => ?_))
  rwa [wakePlace_add (List.mem_range.1 ha), wakePlace_add (List.mem_range.1 hb)]

theorem mem_wakeOrder : h ∈ wakeOrder phase holds ↔ h < 192 ∧ holds h = true := by
  rw [wakeOrder, List.mem_filter, List.mem_map]
  refine and_congr_left fun _ => ⟨fun ⟨i, _, hi⟩ => by omega, fun hh => ⟨wakePlace phase h, List.mem_range.2 (Nat.mod_lt _ (by decide)), ?_⟩⟩
  unfold wakePlace
  omega

/-- The hearth at place i of the order has rank i. -/
theorem wakeRank_of_getElem? {i : Nat} (hi : (wakeOrder phase holds)[i]? = some h) : wakeRank phase holds h = i := by
  have hrise := wakeOrder_rising phase holds
  have hperm : (wakeOrder phase holds).Perm ((List.range 192).filter holds) := by
    have hnodup : (wakeOrder phase holds).Nodup := hrise.imp fun {a b} hab heq => by subst heq; exact lt_irrefl _ hab
    refine (List.perm_ext_iff_of_nodup hnodup (List.nodup_range.filter _)).2 fun k => ?_
    rw [mem_wakeOrder, List.mem_filter, List.mem_range]
  have hbelow := (hperm.filter fun k => decide (wakePlace phase k < wakePlace phase h)).length_eq
  rw [length_filter_lt_of_rising hrise hi, List.filter_filter] at hbelow
  rw [wakeRank, hbelow]
  congr 2
  funext k
  exact Bool.and_comm _ _

theorem wakeRank_lt (hh : h ∈ wakeOrder phase holds) : wakeRank phase holds h < (wakeOrder phase holds).length := by
  obtain ⟨i, hi⟩ := List.mem_iff_getElem?.1 hh
  rw [wakeRank_of_getElem? hi]
  exact (List.getElem?_eq_some_iff.1 hi).1

/-- Window k holds the hearths of ranks 16 k to 16 k + 15. -/
theorem mem_wakeWindow {k : Nat} : h ∈ ((wakeOrder phase holds).drop (16 * k)).take 16 ↔ h ∈ wakeOrder phase holds ∧ wakeRank phase holds h / 16 = k := by
  constructor
  · intro hh
    obtain ⟨j, hj⟩ := List.mem_iff_getElem?.1 hh
    have hj16 : j < 16 := by
      have := (List.getElem?_eq_some_iff.1 hj).1
      simp at this
      omega
    rw [List.getElem?_take_of_lt hj16, List.getElem?_drop] at hj
    refine ⟨List.mem_of_getElem? hj, ?_⟩
    rw [wakeRank_of_getElem? hj]
    omega
  · rintro ⟨hh, hk⟩
    obtain ⟨i, hi⟩ := List.mem_iff_getElem?.1 hh
    rw [wakeRank_of_getElem? hi] at hk
    refine List.mem_of_getElem? (i := i - 16 * k) ?_
    rw [List.getElem?_take_of_lt (by omega), List.getElem?_drop, show 16 * k + (i - 16 * k) = i by omega]
    exact hi

end

/-- The hearths, modulo 192, that hold some of these waiters. -/
def wakeHolds (ws : List (Nat × Nat)) (h : Nat) : Bool := ws.any fun w => w.2 % 192 == h

section
variable {t0 phase u h : Nat} {ws : List (Nat × Nat)}

theorem wakeWindows_eq : wakeWindows t0 phase ws = (List.range (((wakeOrder phase (wakeHolds ws)).length + 15) / 16)).map fun k =>
    (t0 + 100 * k, (ws.filter fun w => (((wakeOrder phase (wakeHolds ws)).drop (16 * k)).take 16).contains (w.2 % 192)).map (·.1)) := rfl

theorem mem_wakeOrder_of_mem (hu : (u, h) ∈ ws) : h % 192 ∈ wakeOrder phase (wakeHolds ws) :=
  mem_wakeOrder.2 ⟨Nat.mod_lt _ (by decide), List.any_eq_true.2 ⟨_, hu, beq_self_eq_true _⟩⟩

/-- A window of 100 ns wakes the waiters of its sixteen hearths. -/
theorem wakeWindow_spec {w : Nat × List Nat} (hw : w ∈ wakeWindows t0 phase ws) :
    ∃ k, w.1 = t0 + 100 * k ∧ ∀ u, u ∈ w.2 ↔ ∃ h, (u, h) ∈ ws ∧ wakeRank phase (wakeHolds ws) (h % 192) / 16 = k := by
  rw [wakeWindows_eq, List.mem_map] at hw
  obtain ⟨k, -, rfl⟩ := hw
  refine ⟨k, rfl, fun u => ?_⟩
  simp only [List.mem_map, List.mem_filter, List.contains_iff_mem, mem_wakeWindow]
  constructor
  · rintro ⟨⟨v, h⟩, ⟨hm, -, hk⟩, rfl⟩
    exact ⟨h, hm, hk⟩
  · rintro ⟨h, hm, hk⟩
    exact ⟨(u, h), ⟨hm, mem_wakeOrder_of_mem hm, hk⟩, rfl⟩

/-- Every waiter has its window. -/
theorem exists_wakeWindow (hu : (u, h) ∈ ws) : ∃ w ∈ wakeWindows t0 phase ws, u ∈ w.2 := by
  have hlt := wakeRank_lt (mem_wakeOrder_of_mem (phase := phase) hu)
  have hmem : h % 192 ∈ ((wakeOrder phase (wakeHolds ws)).drop (16 * (wakeRank phase (wakeHolds ws) (h % 192) / 16))).take 16 :=
    mem_wakeWindow.2 ⟨mem_wakeOrder_of_mem hu, rfl⟩
  refine ⟨_, wakeWindows_eq ▸ List.mem_map.2 ⟨wakeRank phase (wakeHolds ws) (h % 192) / 16, List.mem_range.2 (by omega), rfl⟩, ?_⟩
  exact List.mem_map.2 ⟨(u, h), List.mem_filter.2 ⟨hu, List.contains_iff_mem.2 hmem⟩, rfl⟩

end

namespace State

variable {s : State} {f : Fibre} {slot n : Nat} {d : DevBar}

/-- The waiters that still stand, each with its hearth. -/
def waitersOf (s : State) (us : List Nat) : List (Nat × Nat) := us.filterMap fun u => (s.fibre? u).map fun f => (u, s.hearthOf f)

theorem mem_waitersOf {us : List Nat} {u h : Nat} : (u, h) ∈ s.waitersOf us ↔ u ∈ us ∧ ∃ f, s.fibre? u = some f ∧ s.hearthOf f = h := by
  simp only [waitersOf, List.mem_filterMap, Option.map_eq_some_iff, Prod.mk.injEq]
  constructor
  · rintro ⟨v, hv, f, hf, rfl, rfl⟩
    exact ⟨hv, f, hf, rfl⟩
  · rintro ⟨hu, f, hf, rfl⟩
    exact ⟨u, hu, f, hf, rfl, rfl⟩

theorem wakeHolds_waitersOf (s : State) (us : List Nat) :
    wakeHolds (s.waitersOf us) = fun k => us.any fun u => ((s.fibre? u).map fun f => s.hearthOf f % 192) == some k := by
  funext k
  rw [wakeHolds, waitersOf, List.any_filterMap]
  congr 1
  funext u
  cases s.fibre? u <;> simp

/-- A device barrier completes its phase once every live fibre of its launch has arrived, and its waiters take their windows. -/
theorem devBarCheck_whole (hd : s.devBar? slot n = some d) (hw : d.arrived ≠ [] ∧ d.arrived.length = (s.launchLive slot).length) :
    (s.devBarCheck slot n).fibres = s.fibres ∧ (s.devBarCheck slot n).devBar? slot n = some
      { d with arrived := [], waiting := [], phase := (d.phase + 1) % 2 ^ 32, wakes := d.wakes ++ wakeWindows s.ltime d.phase (s.waitersOf d.waiting) } := by
  obtain ⟨hne, hlen⟩ := hw
  have hwhole : (!d.arrived.isEmpty && d.arrived.length == (s.launchLive slot).length) = true := by simp [hne, hlen]
  refine ⟨devBarCheck_fibres s slot n, ?_⟩
  simp only [devBarCheck, hd, hwhole, if_true]
  exact devBar?_updDevBar (g := fun b => { b with
    arrived := [], waiting := [], phase := (b.phase + 1) % 2 ^ 32, wakes := b.wakes ++ wakeWindows s.ltime b.phase (s.waitersOf d.waiting) })
    (fun _ => rfl) hd

theorem devBarCheck_part (hd : s.devBar? slot n = some d) (hw : d.arrived.length ≠ (s.launchLive slot).length) : s.devBarCheck slot n = s := by
  simp only [devBarCheck, hd, beq_eq_false_iff_ne.2 hw, Bool.and_false, Bool.false_eq_true, if_false]

/-- An arrival at a device barrier. -/
def arriveDev (u : Nat) (b : DevBar) : DevBar := if b.arrived.contains u then b else { b with arrived := b.arrived ++ [u] }

theorem arriveDev_is (u : Nat) (b : DevBar) (slot n : Nat) : (arriveDev u b).is slot n = b.is slot n := by
  unfold arriveDev
  split <;> rfl

theorem devArrive_eq {c : Cohort} (hc : s.cohort? f.cohort = some c) (n : Nat) :
    s.devArrive f n = (s.updDevBar c.slot n (arriveDev f.uid)).devBarCheck c.slot n := by
  have hslot : (s.cohortOf f).slot = c.slot := by rw [cohortOf, hc]; rfl
  rw [← hslot]
  rfl

theorem devWait_eq {c : Cohort} (hc : s.cohort? f.cohort = some c) (hd : s.devBar? c.slot n = some d) :
    s.devWait f n = if f.uid ∈ d.arrived then
      (s.updDevBar c.slot n fun b => { b with waiting := b.waiting ++ [f.uid] }).updFibre f.uid fun f => { f with waits := f.waits ++ [.devBar n] }
      else s := by
  have hslot : (s.cohortOf f).slot = c.slot := by rw [cohortOf, hc]; rfl
  simp only [devWait, hslot, hd, Option.map_some, Option.getD_some, List.contains_iff_mem]

/-- No window whose time has come: the event changes nothing (log 2). -/
theorem devWake_none (hd : s.devBar? slot n = some d) (hw : ∀ w ∈ d.wakes, s.ltime < w.1) : exec (.devBarrierWakeWindow slot n) s = .next s := by
  have hnone : d.wakes.find? (fun w => decide (w.1 ≤ s.ltime)) = none := List.find?_eq_none.2 fun w h => by simpa using hw w h
  show Host.Outcome.next (s.devWake slot n) = _
  simp only [devWake, hd, hnone]

/-- The fibres of a window no longer wait at its barrier; each other stands as it was. -/
theorem devWake_fibre? {w : Nat × List Nat} (hd : s.devBar? slot n = some d)
    (hw : d.wakes.find? (fun w => decide (w.1 ≤ s.ltime)) = some w) : ∃ t, exec (.devBarrierWakeWindow slot n) s = .next t ∧
      t.devBar? slot n = some { d with wakes := d.wakes.erase w } ∧
      ∀ u, t.fibre? u = (s.fibre? u).map fun g => if u ∈ w.2 then { g with waits := g.waits.erase (.devBar n) } else g := by
  obtain ⟨t, hexec, hdev, -, -⟩ := devWake_wakes hd hw
  obtain rfl : s.devWake slot n = t := Host.Outcome.next.inj hexec
  refine ⟨_, hexec, hdev, fun u => ?_⟩
  have hfibres : (s.devWake slot n).fibres = s.fibres.map fun g => if w.2.contains g.uid then { g with waits := g.waits.erase (.devBar n) } else g := by
    simp only [devWake, hd, hw]
    rfl
  rw [fibre?, hfibres, find?_map_of_key (fun g => by split <;> rfl), ← fibre?]
  cases hf : s.fibre? u with
  | none => rfl
  | some g => simp only [Option.map_some, fibre?_uid hf, List.contains_iff_mem]

end State

/-- What O24 says of one device barrier. -/
theorem State.deviceBarrier_spec {s : State} {f : Fibre} {c : Cohort} {n : Nat} {d : DevBar} (hc : s.cohort? f.cohort = some c)
    (hd : s.devBar? c.slot n = some d) :
    let arr := if f.uid ∈ d.arrived then d.arrived else d.arrived ++ [f.uid]
    let live := (s.launchLive c.slot).length
    let t := s.devArrive f n
    (arr.length ≠ live → t.devBar? c.slot n = some { d with arrived := arr } ∧ t.fibres = s.fibres) ∧
    (arr.length = live → t.fibres = s.fibres ∧ t.devBar? c.slot n = some
      { d with arrived := [], waiting := [], phase := (d.phase + 1) % 2 ^ 32, wakes := d.wakes ++ wakeWindows s.ltime d.phase (s.waitersOf d.waiting) }) := by
  intro arr live t
  have harr : State.arriveDev f.uid d = { d with arrived := arr } := by
    simp only [State.arriveDev, arr, List.contains_iff_mem]
    split <;> rfl
  have hne : arr ≠ [] := by
    simp only [arr]
    split
    · next h => exact List.ne_nil_of_mem h
    · simp
  have hd' := State.devBar?_updDevBar (fun b => State.arriveDev_is f.uid b c.slot n) hd
  rw [harr] at hd'
  have ht : t = (s.updDevBar c.slot n (State.arriveDev f.uid)).devBarCheck c.slot n := State.devArrive_eq hc n
  rw [ht]
  refine ⟨fun hlen => ?_, fun hlen => State.devBarCheck_whole (d := { d with arrived := arr }) hd' ⟨hne, hlen⟩⟩
  rw [State.devBarCheck_part hd' hlen]
  exact ⟨hd', rfl⟩

/-- Settles O24: a cohort's barrier by `State.barStep_completes` and `State.barStep_goesOn`, a device barrier by `State.deviceBarrier_spec`; each
waiter wakes in the window of its hearth's rank (`wakeWindow_spec`). -/
theorem barrierPhaseCompletesWhenWhole : Obligations.BarrierPhaseCompletesWhenWhole := by
  intro s f c n v hc b arr live
  have harr : Barrier.arrive f.place (c.bar n) = { b with arrived := arr } := by
    simp only [Barrier.arrive, arr, b, List.contains_iff_mem]
    split <;> rfl
  have hne : arr ≠ [] := by
    simp only [arr]
    split
    · next h => exact List.ne_nil_of_mem h
    · simp
  refine ⟨fun hpend hlen => ?whole, fun hpart => ?part, fun hpart => ?expect, fun d hd => ?device, fun hd => State.devBar?_devBarAlloc hd⟩
  case whole =>
    have hw : (Barrier.arrive f.place (c.bar n)).Whole (s.liveOf f.cohort).length := harr ▸ ⟨hpend, hne, hlen⟩
    have hend := State.barStep_completes hc (Barrier.arrive_n f.place) hw
    rwa [harr] at hend
  case part =>
    have hw : ¬(Barrier.arrive f.place (c.bar n)).Whole (s.liveOf f.cohort).length := harr ▸ fun ⟨hp, _, hl⟩ => hpart.elim (· hp) (· hl)
    have hend := State.barStep_goesOn hc (Barrier.arrive_n f.place) hw
    rwa [harr] at hend
  case expect =>
    have hw : ¬(Barrier.expect v (c.bar n)).Whole (s.liveOf f.cohort).length := fun ⟨hp, he, hl⟩ => hpart.elim (· hp) (·.elim (· hl) he)
    exact State.barStep_goesOn hc (g := Barrier.expect v) (fun _ => rfl) hw
  case device =>
    intro arr live place hearthOf rank t
    obtain ⟨hpart, hwhole⟩ := State.deviceBarrier_spec hc hd
    have hrank : ∀ h, wakeRank d.phase (wakeHolds (s.waitersOf d.waiting)) h = rank h := fun h => by rw [State.wakeHolds_waitersOf]; rfl
    refine ⟨hpart, fun hlen => ⟨(hwhole hlen).1, _, (hwhole hlen).2, fun w hw => ?window, fun u hu hf => ?every⟩, fun hu => ?pass, fun hu hf => ?wait,
      State.devWake_none hd, fun w => State.devWake_fibre? hd⟩
    case window =>
      obtain ⟨k, hk, hmem⟩ := wakeWindow_spec hw
      refine ⟨k, hk, fun u => (hmem u).trans ?_⟩
      simp only [State.mem_waitersOf, hrank, hearthOf, Option.map_eq_some_iff]
      constructor
      · rintro ⟨h, ⟨hu, g, hg, rfl⟩, hr⟩
        exact ⟨hu, _, ⟨g, hg, rfl⟩, hr⟩
      · rintro ⟨hu, _, ⟨g, hg, rfl⟩, hr⟩
        exact ⟨_, ⟨hu, g, hg, rfl⟩, hr⟩
    case every =>
      obtain ⟨g, hg⟩ := Option.isSome_iff_exists.1 hf
      exact exists_wakeWindow (State.mem_waitersOf.2 ⟨hu, g, hg, rfl⟩)
    case pass => rw [State.devWait_eq hc hd, if_neg hu]
    case wait =>
      rw [State.devWait_eq hc hd, if_pos hu]
      exact ⟨State.devBar?_updDevBar (g := fun b => { b with waiting := b.waiting ++ [f.uid] }) (fun _ => rfl) hd,
        State.fibre?_updFibre_found (s := s.updDevBar c.slot n _) (fun _ => rfl) hf⟩

end Sys2Proof.Machine

/-! ## O15: a relaxed access stands in flight

Nothing holds a relaxed access back (`State.runOrdered_single`), and sending it leaves its operation, its counter and, where it writes, the
hoist entries over its bytes (`State.doFx_relaxed`). -/

namespace Sys2Proof.Machine

/-- What an access leaves of the hoist entries of a fibre: one that writes strikes those over its bytes, in the fibres of its hearth (R226). -/
def State.hoistLeft (s : State) (hearth : Nat) (r : MemReq) (f : Fibre) : List HoistEntry :=
  if r.kind.writes = true ∧ ((s.cohorts.filter (·.hearth == hearth)).map (·.uid)).contains f.cohort = true then
    f.hoist.filter fun h => !h.target.overlaps h.size r.target r.size
  else f.hoist

/-- What an access leaves of an operation in flight: one that writes over the bytes of an `ldh` in its hearth has it record no entry. -/
def MemReq.passes (r : MemReq) (hearth : Nat) (o : MemOp) : MemOp :=
  if r.kind.writes = true ∧ o.hearth = hearth ∧ o.req.target.overlaps o.req.size r.target r.size = true then
    { o with req := { o.req with hoist := false } }
  else o

/-- The operation of an access that a fibre sends under a name. -/
def State.sentOp (s : State) (f : Fibre) (name : Nat) (r : MemReq) : MemOp :=
  { id := name, uid := f.uid, hearth := s.hearthOf f, pc := f.head, rep := f.rep, req := r, ready := true, performed := false, value := 0,
    gwct := 0, expiry := 0, poison := false }

theorem State.mem_hoistLeft {s : State} {hearth : Nat} {r : MemReq} {f : Fibre} {e : HoistEntry} : e ∈ s.hoistLeft hearth r f ↔ e ∈ f.hoist ∧
    ¬(r.kind.writes = true ∧ (∃ c ∈ s.cohorts, c.uid = f.cohort ∧ c.hearth = hearth) ∧ e.target.overlaps e.size r.target r.size = true) := by
  have hin : ((s.cohorts.filter (·.hearth == hearth)).map (·.uid)).contains f.cohort = true ↔ ∃ c ∈ s.cohorts, c.uid = f.cohort ∧ c.hearth = hearth := by
    simp only [List.contains_iff_mem, List.mem_map, List.mem_filter, beq_iff_eq]
    exact ⟨fun ⟨c, ⟨hc, hh⟩, hu⟩ => ⟨c, hc, hu, hh⟩, fun ⟨c, hc, hu, hh⟩ => ⟨c, ⟨hc, hh⟩, hu⟩⟩
  rw [State.hoistLeft, ← hin]
  split
  · next h => rw [List.mem_filter, h.2, Bool.not_eq_true']; simp only [h.1, true_and, Bool.not_eq_true]
  · next h => exact ⟨fun he => ⟨he, fun ⟨hw, hc, _⟩ => h ⟨hw, hc⟩⟩, fun he => he.1⟩

/-- Loads, stores and atomics: the accesses that are translated before they are sent. -/
def MemKind.Plain (k : MemKind) : Prop := k = .load ∨ k = .store ∨ ∃ op, k = .atom op

theorem MemKind.writes_iff {k : MemKind} (h : k.Plain) : k.writes = true ↔ k ≠ .load := by
  rcases h with rfl | rfl | ⟨op, rfl⟩ <;> simp [MemKind.writes]

section
variable {s : State} {u name pa : Nat} {f : Fibre} {r : MemReq}

/-- From s to t fibre u has sent an access. -/
structure State.Sent (s t : State) (u name : Nat) (r : MemReq) (f : Fibre) : Prop where
  rest : t = { s with ops := t.ops, fibres := t.fibres }
  ops : t.ops = (s.ops ++ [s.sentOp f name r]).map (r.passes (s.hearthOf f))
  sender : ∃ g, t.fibre? u = some g ∧ g = { f with
    ld := f.ld + if r.kind = .store then 0 else 1, st := f.st + if r.kind = .store then 1 else 0
    hoist := s.hoistLeft (s.hearthOf f) r f, stored := g.stored }
  others : ∀ v, v ≠ u → t.fibre? v = (s.fibre? v).map fun k => { k with hoist := s.hoistLeft (s.hearthOf f) r k }

theorem State.unhoist_fibre? (hw : r.kind.writes = true) (hearth v : Nat) :
    (s.unhoist hearth r.target r.size).fibre? v = (s.fibre? v).map fun k => { k with hoist := s.hoistLeft hearth r k } := by
  refine (find?_map_of_key (fun f => by split <;> rfl) s.fibres).trans (congrArg (fun g => Option.map g (s.fibre? v)) ?_)
  funext k
  unfold State.hoistLeft
  by_cases h : ((s.cohorts.filter (·.hearth == hearth)).map (·.uid)).contains k.cohort = true
  · rw [if_pos h, if_pos ⟨hw, h⟩]
  · rw [if_neg h, if_neg fun hh => h hh.2]

theorem State.unhoist_ops (hw : r.kind.writes = true) (hearth : Nat) : (s.unhoist hearth r.target r.size).ops = s.ops.map (r.passes hearth) := by
  refine List.map_congr_left fun o _ => ?_
  unfold MemReq.passes
  simp only [hw, true_and]

theorem State.hoistLeft_load (hk : r.kind = .load) (hearth : Nat) (f : Fibre) : s.hoistLeft hearth r f = f.hoist :=
  if_neg fun h => by simp [hk, MemKind.writes] at h

theorem MemReq.passes_load (hk : r.kind = .load) (hearth : Nat) : r.passes hearth = id := by
  funext o
  exact if_neg fun h => by simp [hk, MemKind.writes] at h

theorem State.unhoist_rest (hearth : Nat) (t : Target) (n : Nat) :
    s.unhoist hearth t n = { s with ops := (s.unhoist hearth t n).ops, fibres := (s.unhoist hearth t n).fibres } := rfl

/-- A load joins the operations in flight. -/
theorem State.Sent.of_load (hf : s.fibre? u = some f) (hk : r.kind = .load) :
    s.Sent (State.updFibre { s with ops := s.ops ++ [s.sentOp f name r] } u Fibre.bumpLd) u name r f where
  rest := rfl
  ops := by rw [MemReq.passes_load hk, List.map_id]; rfl
  sender := by
    refine ⟨_, State.fibre?_updFibre_found (fun _ => rfl) hf, ?_⟩
    rw [State.hoistLeft_load hk, hk]
    rfl
  others v hv := by
    simp only [State.hoistLeft_load hk, Option.map_id_fun']
    exact State.fibre?_updFibre_other _ _ _ _ (fun _ h => h) hv

/-- A write joins them too, and the hoist entries over its bytes fall. -/
theorem State.Sent.of_write {bump : Fibre → Fibre} (hf : s.fibre? u = some f) (hw : r.kind.writes = true)
    (hb : ∀ k, bump k = { k with ld := k.ld + if r.kind = .store then 0 else 1, st := k.st + if r.kind = .store then 1 else 0 }) :
    s.Sent ((State.updFibre { s with ops := s.ops ++ [s.sentOp f name r] } u bump).unhoist (s.hearthOf f) r.target r.size) u name r f where
  rest := rfl
  ops := State.unhoist_ops hw _
  sender := by
    have hbump := State.fibre?_updFibre_found (s := { s with ops := s.ops ++ [s.sentOp f name r] }) (g := bump) (fun k => by rw [hb]) hf
    refine ⟨_, (State.unhoist_fibre? hw (s.hearthOf f) u).trans (congrArg (Option.map _) hbump), ?_⟩
    rw [hb]
    rfl
  others v hv := by
    rw [State.unhoist_fibre? hw, State.fibre?_updFibre_other _ _ _ _ (fun k h => by rw [hb]; exact h) hv]
    rfl

/-- The granules that a store notes change nothing else of it. -/
theorem State.Sent.note {t : State} {note : Fibre → Fibre} (h : s.Sent t u name r f) (hn : ∀ k, note k = { k with stored := (note k).stored }) :
    s.Sent (t.updFibre u note) u name r f where
  rest := by
    conv_lhs => rw [h.rest]
    rfl
  ops := h.ops
  sender := by
    obtain ⟨g, hg, hgf⟩ := h.sender
    refine ⟨note g, State.fibre?_updFibre_found (fun k => by rw [hn]) hg, ?_⟩
    rw [hn, hgf]
  others v hv := (State.fibre?_updFibre_other _ _ _ _ (fun k hk => by rw [hn]; exact hk) hv).trans (h.others v hv)

/-- A relaxed access of device memory is sent at once (R163, R221). -/
theorem State.doFx_relaxed (hf : s.fibre? u = some f) (hk : r.kind.Plain) (ha : r.acq = none) (ht : r.target = .dev pa) :
    ∃ t, s.doFx u name (.mem r) = .go t ∧ s.Sent t u name r f := by
  obtain rfl : f.uid = u := State.fibre?_uid hf
  have hdem : (Fx.mem r).demotes = false := by simp [Fx.demotes, ht]
  rcases hk with hk | hk | ⟨op, hk⟩
  · refine ⟨_, ?_, .of_load hf hk⟩
    simp only [State.doFx, hf, hdem, State.sendMem, hk, ha, Bool.false_eq_true, if_false, reduceCtorEq]
    rfl
  · have hsent := State.Sent.of_write (name := name) (r := r) (bump := Fibre.bumpSt) hf (by simp [hk, MemKind.writes]) fun k => by rw [hk]; rfl
    refine ⟨_, ?_, hsent.note (note := fun k => k.noteStore r.target r.size) fun k => by rw [ht]; rfl⟩
    simp only [State.doFx, hf, hdem, State.sendMem, hk, ha, Bool.false_eq_true, if_false, reduceCtorEq]
    rfl
  · refine ⟨_, ?_, .of_write (bump := Fibre.bumpLd) hf (by simp [hk, MemKind.writes]) fun k => by rw [hk]; rfl⟩
    simp only [State.doFx, hf, hdem, State.sendMem, hk, ha, Bool.false_eq_true, if_false, reduceCtorEq]
    rfl

/-- Nothing holds it back behind a fibre with no release and no acquire pending (R214, R215). -/
theorem State.gated_relaxed (hf : s.fibre? u = some f) (ho : f.order = none) (ha : s.acquiring f = false) (ht : r.target = .dev pa) :
    s.gated u (.mem r) = false := by
  have hdem : (Fx.mem r).demotes = false := by simp [Fx.demotes, ht]
  simp only [State.gated, hf, ho, ha, hdem]
  simp [Fx.isPresent, Fx.isSequence]

/-- One effect that nothing holds back is made. -/
theorem State.runOrdered_single {x : Fx} {t : State} (hg : s.gated u x = false) (hd : s.doFx u name x = .go t) :
    State.runOrdered u [(name, x)] s = t := by
  simp [State.runOrdered, State.runFrom, Fx.behind, hg, hd]

end

/-- A group of one access: its fibre moves on, and the access is made. -/
theorem State.commit_mem (s : State) (f : Fibre) (og : OpenGroup) {r : MemReq} (h : og.fx = [.mem r]) :
    s.commit f og = State.runOrdered f.uid [(s.run.nextOp, .mem r)] (s.issuedAs f (s.moved f og (pendsOf [(s.run.nextOp, .mem r)])) 1) := by
  have hd : dropSent f.sent og.fx = [.mem r] := by
    rw [h]
    cases f.sent <;> rfl
  unfold State.commit State.takeEffect
  rw [hd, h]
  rfl

section
variable {s t : State} {f : Fibre} {r : MemReq}

/-- A fibre as it has moved past the words of an access alone in its group. -/
def State.pastAccess (s : State) (f : Fibre) (words : Nat) (r : MemReq) : Fibre :=
  s.moved f ((OpenGroup.fresh f).add words [.mem r]) (pendsOf [(s.run.nextOp, .mem r)])

theorem State.pastAccess_eq (s : State) (f : Fibre) (words : Nat) (r : MemReq) :
    s.pastAccess f words r =
      { f with
        arch := { f.arch with pc := f.arch.pc + BitVec.ofNat 32 words }
        head := f.arch.pc, rep := none, pend := f.pend ++ pendsOf [(s.run.nextOp, .mem r)], held := none
        turn := (s.pastAccess f words r).turn, since := none, sent := 0 } :=
  s.moved_fresh f words _ _

/-- Once its group has issued alone, a relaxed access has been sent by the fibre that has moved on. -/
theorem State.adds_relaxed {pa : Nat} (words : Nat) (hi : s.issuer = some f) (hg : s.run.group = none) (hk : r.kind.Plain)
    (ha : r.acq = none) (ht : r.target = .dev pa) (ho : f.order = none) (hacq : s.acquiring f = false) :
    (s.issuedAs f (s.pastAccess f words r) 1).Sent (s.adds f false words [.mem r]) f.uid s.run.nextOp r (s.pastAccess f words r) := by
  have hf := State.issuedAs_fibre (g := s.pastAccess f words r) 1 hi rfl
  obtain ⟨t, hdo, hsent⟩ := State.doFx_relaxed (name := s.run.nextOp) hf hk ha ht
  have hrun := State.runOrdered_single (State.gated_relaxed hf ho hacq ht) hdo
  rw [State.adds_alone f words [.mem r] hg, State.commit_mem s f _ rfl]
  exact hrun ▸ hsent

theorem MemReq.passes_unhoisted (r : MemReq) (hearth : Nat) (o : MemOp) :
    { r.passes hearth o with req := { (r.passes hearth o).req with hoist := false } } = { o with req := { o.req with hoist := false } } := by
  unfold MemReq.passes
  split <;> rfl

/-- An operation over the bytes of a write of its hearth records no hoist entry. -/
theorem MemReq.passes_hoist {hearth : Nat} {o : MemOp} (hw : r.kind.writes = true) (hh : (r.passes hearth o).hearth = hearth)
    (ho : (r.passes hearth o).req.target.overlaps (r.passes hearth o).req.size r.target r.size = true) :
    (r.passes hearth o).req.hoist = false := by
  unfold MemReq.passes at hh ho ⊢
  split at hh
  · next h => rw [if_pos h]
  · next h =>
    rw [if_neg h] at ho
    exact absurd ⟨hw, hh, ho⟩ h

end

/-- Settles O15: the access is sent at once (`State.adds_relaxed`), by the fibre that its group has moved on (`State.pastAccess_eq`). -/
theorem relaxedAccessStandsInFlight : Obligations.RelaxedAccessStandsInFlight := by
  intro s f words r pa hi hg ht ha ho hacq hk
  have hsent := State.adds_relaxed words hi hg hk ha ht ho hacq
  have hpast := s.pastAccess_eq f words r
  have hf := State.issuer_fibre hi
  have honly := State.issuedAs_onlyFibre (s := s) (f := f) (g := s.pastAccess f words r) 1 rfl
  obtain ⟨hrest, hops, ⟨g, hgt, hgf⟩, hothers⟩ := hsent
  refine ⟨_, g, rfl, hgt, ?_, ?_, ?_, ⟨?_, ?_⟩, ?_, ?_, ?_, ?_⟩
  · rw [hgf, hpast]
  · rw [hgf, hpast]
  · rw [hgf, hpast]
  · rw [hops, List.map_map]
    exact List.map_congr_left fun o _ => r.passes_unhoisted _ o
  · intro hl
    rw [hops, MemReq.passes_load hl, List.map_id]
    rfl
  · intro o hin hl
    rw [hops] at hin
    obtain ⟨o', -, rfl⟩ := List.mem_map.1 hin
    exact MemReq.passes_hoist ((MemKind.writes_iff hk).2 hl)
  · intro v h k hv hk' e
    have hleft : h.hoist = s.hoistLeft (s.hearthOf f) r k := by
      by_cases hvu : v = f.uid
      · subst hvu
        cases hgt.symm.trans hv
        cases hf.symm.trans hk'
        rw [hgf]
        rfl
      · rw [hothers v hvu, honly.others v hvu, hk'] at hv
        cases hv
        rfl
    rw [hleft, State.mem_hoistLeft, MemKind.writes_iff hk]
  · rw [hrest]
    rfl
  · intro v hv
    rw [hothers v hv, honly.others v hv, Option.map_map]
    rfl

end Sys2Proof.Machine

/-! ## O52: the flues

A command leaves its barriers by rows of Table 9.6 on every cohort that it reaches (`State.barSteps`); a delivery puts bytes into one line of a
stash (`Cohort.takeLine_taken`), a tile or global memory. -/

namespace Sys2Proof.Machine

/-! ### The barriers that a command reaches (R163, R167) -/

/-- What bytes that are delivered leave of a barrier. -/
theorem Barrier.deliver_eq (b : Barrier) (bytes : Nat) :
    b.deliver bytes = { b with
      pend := if b.pend - (bytes : Int) < -(2 ^ 31) then 0 else b.pend - bytes, flt := b.flt || decide (b.pend - (bytes : Int) < -(2 ^ 31)) } := by
  simp only [Barrier.deliver]
  split
  · next h => rw [decide_eq_true h, Bool.or_true]
  · next h => rw [decide_eq_false h, Bool.or_false]

theorem Barrier.took_deliver (b : Barrier) (bytes live : Nat) : b.Took bytes false live ((b.deliver bytes).settled live) := by
  rw [Barrier.deliver_eq, Barrier.settled]
  simp only [Barrier.Took, Bool.or_false, decide_eq_true_eq]
  refine ⟨fun h => ?_, fun h => if_neg h⟩
  rw [if_pos h, Barrier.complete, h.1]

theorem Barrier.took_halt (b : Barrier) (owed live : Nat) : b.Took owed true live ((b.halt owed).settled live) := by
  rw [Barrier.halt, Barrier.deliver_eq, Barrier.settled]
  simp only [Barrier.Took, Bool.or_true, Bool.true_or, decide_eq_true_eq]
  refine ⟨fun h => ?_, fun h => if_neg h⟩
  rw [if_pos h, Barrier.complete, h.1]

namespace State

/-- From s to t only cohorts and the waits of fibres changed. -/
structure BarsMoved (s t : State) : Prop where
  rest : t = { s with cohorts := t.cohorts, fibres := t.fibres }
  fibre : ∀ v f, s.fibre? v = some f → ∃ w, t.fibre? v = some { f with waits := w }
  live : ∀ u, (t.liveOf u).length = (s.liveOf u).length

theorem BarsMoved.trans {s t r : State} (h : s.BarsMoved t) (k : t.BarsMoved r) : s.BarsMoved r where
  rest := by
    rw [k.rest, h.rest]
  fibre v f hf := by
    obtain ⟨w, hw⟩ := h.fibre v f hf
    obtain ⟨w', hw'⟩ := k.fibre v _ hw
    exact ⟨w', hw'⟩
  live u := (k.live u).trans (h.live u)

/-- What reads neither cohorts nor fibres stands. -/
theorem BarsMoved.keeps {β : Type} {s t : State} (h : s.BarsMoved t) (m : State → β)
    (hm : ∀ (t : State) cs fs, m { t with cohorts := cs, fibres := fs } = m t) : m t = m s := by
  rw [h.rest]
  exact hm _ _ _

variable {s s₁ : State} {c : EngineCmd} {u v n : Nat} {g : Barrier → Barrier}

theorem BarsMoved.of_fibres {t : State} (hr : t = { s with cohorts := t.cohorts }) : s.BarsMoved t where
  rest := by
    rw [hr]
  fibre v f hf := ⟨f.waits, by rw [hr]; exact hf⟩
  live u := by
    rw [hr]
    rfl

theorem awaken_moved (s : State) (u n : Nat) : s.BarsMoved (s.awaken u n) where
  rest := rfl
  fibre v f hf := by
    rw [awaken_fibre, hf, Option.map_some]
    split
    · exact ⟨_, rfl⟩
    · exact ⟨f.waits, rfl⟩
  live v := by
    have hkeeps : (fun f : Fibre => f.cohort == v && !f.exited) ∘
        (fun f : Fibre => if f.cohort = u then { f with waits := f.waits.filter fun w => w != .bar n } else f) =
        fun f => f.cohort == v && !f.exited := by
      funext f
      rw [Function.comp_apply]
      split <;> rfl
    rw [awaken, liveOf, List.filter_map, List.length_map, hkeeps]
    rfl

theorem cohort?_updCohort_other {g : Cohort → Cohort} (hg : ∀ c, (g c).uid = c.uid) (hv : v ≠ u) : (s.updCohort u g).cohort? v = s.cohort? v := by
  rw [cohort?_updCohort fun c h => (hg c).trans h]
  refine (Option.map_congr fun c hc => if_neg ?_).trans Option.map_id'
  rw [cohort?_uid hc]
  exact hv

/-- A row of Table 9.6 leaves all but its cohort and the waits of fibres. -/
theorem barStep_moved (s : State) (u n : Nat) (g : Barrier → Barrier) : s.BarsMoved (s.barStep u n g) := by
  unfold barStep barCheck
  split
  · exact .of_fibres rfl
  · split
    · exact BarsMoved.trans (.of_fibres (t := (s.updCohort u (·.updBar n g)).updCohort u (·.updBar n Barrier.complete)) rfl) (awaken_moved _ u n)
    · exact .of_fibres rfl

theorem barStep_other (s : State) (g : Barrier → Barrier) (hv : v ≠ u) : (s.barStep u n g).cohort? v = s.cohort? v := by
  have hupd : (s.updCohort u (·.updBar n g)).cohort? v = s.cohort? v := cohort?_updCohort_other (fun _ => rfl) hv
  unfold barStep barCheck
  split
  · exact hupd
  · split
    · exact (cohort?_updCohort_other (s := s.updCohort u (·.updBar n g)) (g := (·.updBar n Barrier.complete)) (fun _ => rfl) hv).trans hupd
    · exact hupd

/-! #### A change of each of some cohorts -/

section
variable {step : State → Nat → State} (hother : ∀ s u v, v ≠ u → (step s u).cohort? v = s.cohort? v)
include hother

theorem cohort?_foldl_other (s : State) {us : List Nat} (hv : v ∉ us) : (us.foldl step s).cohort? v = s.cohort? v :=
  List.foldlRecOn (motive := fun t : State => t.cohort? v = s.cohort? v) us _ rfl fun t ht w hw =>
    (hother t w v fun e : v = w => hv (e ▸ hw)).trans ht

/-- A cohort is changed once, from a state in which it and what every change keeps stand as at the start. -/
theorem cohort?_foldl_mem {P : State → Prop} (hP : ∀ s u, P s → P (step s u)) (hs : P s) {us : List Nat} (hus : us.Nodup) (hu : u ∈ us) :
    ∃ t, P t ∧ t.cohort? u = s.cohort? u ∧ (us.foldl step s).cohort? u = (step t u).cohort? u := by
  induction us generalizing s with
  | nil => simp at hu
  | cons w us ih =>
    obtain ⟨hw, hus⟩ := List.nodup_cons.1 hus
    rcases List.mem_cons.1 hu with rfl | hu
    · exact ⟨s, hs, rfl, cohort?_foldl_other hother _ hw⟩
    · obtain ⟨t, ht, hstart, hend⟩ := ih (hP s w hs) hus hu
      exact ⟨t, ht, hstart.trans (hother s w u fun h => hw (h ▸ hu)), hend⟩

end

/-- The same row of Table 9.6 on each of some cohorts. -/
def barSteps (s : State) (us : List Nat) (n : Nat) (g : Barrier → Barrier) : State := us.foldl (fun s u => s.barStep u n g) s

theorem barSteps_moved (s : State) (us : List Nat) (n : Nat) (g : Barrier → Barrier) : s.BarsMoved (s.barSteps us n g) :=
  List.foldlRecOn (motive := s.BarsMoved) us _ (.of_fibres rfl) fun t ht u _ => ht.trans (t.barStep_moved u n g)

theorem barSteps_other (s : State) {us : List Nat} (g : Barrier → Barrier) (hv : v ∉ us) : (s.barSteps us n g).cohort? v = s.cohort? v :=
  cohort?_foldl_other (fun s _ _ hv => s.barStep_other g hv) s hv

/-- Each of the cohorts has its barrier changed once. -/
theorem barSteps_bar (hg : ∀ b, (g b).n = b.n) {us : List Nat} (hus : us.Nodup) (hu : u ∈ us) {e : Cohort} (he : s.cohort? u = some e) :
    ∃ e', (s.barSteps us n g).cohort? u = some e' ∧ e'.bar n = (g (e.bar n)).settled (s.liveOf u).length := by
  obtain ⟨t, hlive, hstart, hend⟩ := cohort?_foldl_mem (step := fun s u => s.barStep u n g) (P := fun t => (t.liveOf u).length = (s.liveOf u).length)
    (fun s _ _ hv => s.barStep_other g hv) (fun t w ht => ((t.barStep_moved w n g).live u).trans ht) rfl hus hu
  obtain ⟨e', he', hbar⟩ := barStep_bar (hstart.trans he) hg
  exact ⟨e', hend.trans he', hlive ▸ hbar⟩

/-! #### Which cohorts those are -/

theorem barCohorts_nodup (hs : (s.cohorts.map (·.uid)).Nodup) (c : EngineCmd) : (s.barCohorts c).Nodup := by
  unfold barCohorts
  split
  · exact hs.sublist (List.filter_sublist.map _)
  · exact List.nodup_singleton _

theorem barCohorts_congr (hc : s₁.cohorts = s.cohorts) (hs : s₁.slots = s.slots) : s₁.barCohorts c = s.barCohorts c := by
  unfold barCohorts receivers cmdCohort State.cohort? slot
  rw [hc, hs]

/-- The row of a command on every cohort that it reaches, where the way from s to there left barriers and the number of live fibres. -/
theorem barriersTook_of_steps {bytes : Nat} {halt : Bool} (hg : ∀ b, (g b).n = b.n)
    (hto : ∀ (b : Barrier) live, b.Took bytes halt live ((g b).settled live)) (hb : c.bar = some n) (hco : s₁.barCohorts c = s.barCohorts c) (hlive : ∀ u, (s₁.liveOf u).length = (s.liveOf u).length)
    (hbars : ∀ u e, s.cohort? u = some e → ∃ e₁, s₁.cohort? u = some e₁ ∧ e₁.bar n = e.bar n) :
    s.BarriersTook c bytes halt (s₁.barSteps (s₁.barCohorts c) n g) := by
  intro k u e hk hnodup hu he
  obtain rfl : n = k := Option.some.inj (hb.symm.trans hk)
  obtain ⟨e₁, he₁, hbar₁⟩ := hbars u e he
  rw [hco]
  obtain ⟨e', he', hbar⟩ := barSteps_bar hg (barCohorts_nodup hnodup c) hu he₁
  refine ⟨e', he', ?_⟩
  rw [hbar, hbar₁, hlive]
  exact hto _ _

end State

/-! ### The first command of a flue -/

/-- Spoiling the destination of a flue command leaves the cohort's name and its barriers. -/
theorem Cohort.spoil_keeps (c : Cohort) (formats : List Word) {op : EngOp} (hf : op.isFlue = true) (block : List Byte) :
    (c.spoil formats op block).uid = c.uid ∧ (c.spoil formats op block).bars = c.bars := by
  cases op with
  | cpyTile t =>
    simp only [Cohort.spoil]
    split <;> exact ⟨rfl, rfl⟩
  | cpyStash | cpyl | cpylSt | cpylGg | cpym => exact ⟨rfl, rfl⟩
  | _ => cases hf

namespace State

variable {s t : State} {hearth flue : Nat} {c : EngineCmd} {rest : List EngineCmd}

/-- The first command of a flue stands at its hearth and flue. -/
theorem flueCmds_head (h : s.flueCmds hearth flue = c :: rest) : c.hearth = hearth ∧ c.flue = flue ∧ c.op.isFlue = true := by
  have hc : c ∈ s.flueCmds hearth flue := h ▸ List.mem_cons_self
  simp only [flueCmds, List.mem_filter, Bool.and_eq_true, beq_iff_eq] at hc
  obtain ⟨-, ⟨⟨hh, ho⟩, hf⟩, -⟩ := hc
  exact ⟨hh, hf, ho⟩

theorem cmdRuns_of (hr : c.run = .running ∧ (s.cmdCohort c).run = .running) : s.cmdRuns c = true := by
  simp [cmdRuns, hr]

theorem cmd?_updCmd {id : Nat} {g : EngineCmd → EngineCmd} (hg : ∀ d, (g d).id = d.id) {d : EngineCmd} (h : s.cmd? id = some d) :
    (s.updCmd id g).cmd? id = some (g d) := by
  have hid : d.id = id := by simpa using List.find?_some h
  have hfind : (s.updCmd id g).cmd? id = (s.cmd? id).map fun d => if d.id = id then g d else d :=
    find?_map_of_key (fun d => by split <;> simp [hg]) s.cmds
  rw [hfind, h, Option.map_some, if_pos hid]

theorem cohort?_of_mem {x : Cohort} (hs : (s.cohorts.map (·.uid)).Nodup) (hx : x ∈ s.cohorts) : s.cohort? x.uid = some x := by
  obtain ⟨y, hy⟩ := Option.isSome_iff_exists.1 (List.find?_isSome (p := (·.uid == x.uid)).2 ⟨x, hx, beq_self_eq_true x.uid⟩)
  have hyx : y.uid = x.uid := by simpa using List.find?_some hy
  exact hy.trans (congrArg some (List.inj_on_of_nodup_map hs (List.mem_of_find?_eq_some hy) hx hyx))

/-! #### Its start (R308, R313, R342) -/

/-- The receivers of a `cpym` whose range holds a mapped line. -/
def mappedReceivers (s : State) (c : EngineCmd) (o n : Nat) : List Cohort := (s.receivers c).filter fun x => (x.badLine o n true).isSome

/-- The error record of a `cpym` for its first mapped line. -/
def mappedRecord (s : State) (c : EngineCmd) (o n : Nat) : State :=
  s.engineRecord c 0x05 (stashDetail (128 * (((s.mappedReceivers c o n).filterMap fun x => x.badLine o n true).headD 0)))

/-- The receivers with a mapped line take nothing: their barriers halt. -/
def mappedHalt (s : State) (c : EngineCmd) (o n : Nat) : State :=
  match c.bar with
  | some b => (s.mappedRecord c o n).barSteps ((s.mappedReceivers c o n).map (·.uid)) b (Barrier.halt n)
  | none => s.mappedRecord c o n

theorem cpymStart_whole {o n : Nat} (h : n ≠ 0 → ∀ x ∈ s.receivers c, x.badLine o n true = none) : s.cpymStart c o n = s := by
  refine if_pos (List.filter_eq_nil_iff.2 fun x hx hb => ?_)
  rw [Bool.and_eq_true, bne_iff_ne] at hb
  obtain ⟨hn, hbad⟩ := hb
  rw [h hn x hx] at hbad
  cases hbad

theorem cpymStart_mapped {o n : Nat} (hn : n ≠ 0) (hbad : s.mappedReceivers c o n ≠ []) :
    s.cpymStart c o n = (s.mappedHalt c o n).updCmd c.id fun d => { d with skip := (s.mappedReceivers c o n).map (·.uid) } := by
  have hn' : (n != 0) = true := bne_iff_ne.2 hn
  unfold cpymStart
  simp only [hn', Bool.true_and]
  refine (if_neg hbad).trans ?_
  unfold mappedHalt barSteps
  cases c.bar with
  | none => rfl
  | some b =>
    simp only [List.foldl_map]
    rfl

theorem writeRecord_cohorts (s : State) (ctx : Nat) (bytes : List Byte) : (s.writeRecord ctx bytes).1.cohorts = s.cohorts := by
  simp only [writeRecord]
  split
  · rfl
  · split <;> exact noteWrite_cohorts _ _ _

theorem writeRecord_slots (s : State) (ctx : Nat) (bytes : List Byte) : (s.writeRecord ctx bytes).1.slots = s.slots := by
  simp only [writeRecord]
  split
  · rfl
  · split <;> exact noteWrite_slots _ _ _

/-- A record of an engine leaves cohorts, fibres, commands and launch slots. -/
theorem engineRecord_keeps (s : State) (c : EngineCmd) (reason : Nat) (detail : List Byte) :
    (s.engineRecord c reason detail).cohorts = s.cohorts ∧ (s.engineRecord c reason detail).fibres = s.fibres ∧
    (s.engineRecord c reason detail).cmds = s.cmds ∧ (s.engineRecord c reason detail).slots = s.slots :=
  ⟨writeRecord_cohorts _ _ _, writeRecord_fibres _ _ _, writeRecord_cmds _ _ _, writeRecord_slots _ _ _⟩

theorem liveOf_congr (h : t.fibres = s.fibres) (u : Nat) : t.liveOf u = s.liveOf u := congrArg (List.filter _) h
theorem cohort?_congr (h : t.cohorts = s.cohorts) (u : Nat) : t.cohort? u = s.cohort? u := congrArg (List.find? _) h
theorem cmd?_congr (h : t.cmds = s.cmds) (id : Nat) : t.cmd? id = s.cmd? id := congrArg (List.find? _) h

theorem mappedRecord_keeps (s : State) (c : EngineCmd) (o n : Nat) :
    (s.mappedRecord c o n).cohorts = s.cohorts ∧ (s.mappedRecord c o n).fibres = s.fibres ∧ (s.mappedRecord c o n).cmds = s.cmds ∧
    (s.mappedRecord c o n).slots = s.slots := engineRecord_keeps s c _ _

/-- What the halt of the barriers of mapped receivers leaves. -/
theorem mappedHalt_keeps (s : State) (c : EngineCmd) (o n : Nat) :
    (s.mappedHalt c o n).cmds = s.cmds ∧
    ∀ u, u ∉ (s.mappedReceivers c o n).map (·.uid) → (s.mappedHalt c o n).cohort? u = s.cohort? u := by
  obtain ⟨hco, -, hcmds, -⟩ := s.mappedRecord_keeps c o n
  unfold mappedHalt
  split
  · next b _ =>
    exact ⟨((barSteps_moved _ _ b (Barrier.halt n)).keeps State.cmds fun _ _ _ => rfl).trans hcmds,
      fun u hu => (barSteps_other _ _ hu).trans (cohort?_congr hco u)⟩
  · exact ⟨hcmds, fun u _ => cohort?_congr hco u⟩

theorem mappedHalt_took {o n k : Nat} {x : Cohort} (hk : c.bar = some k) (hx : x ∈ s.mappedReceivers c o n)
    (hs : (s.cohorts.map (·.uid)).Nodup) :
    ∃ x', (s.mappedHalt c o n).cohort? x.uid = some x' ∧ (x.bar k).Took n true (s.liveOf x.uid).length (x'.bar k) := by
  obtain ⟨hco, hfib, -, -⟩ := s.mappedRecord_keeps c o n
  have hnodup : ((s.mappedReceivers c o n).map (·.uid)).Nodup := hs.sublist ((List.filter_sublist.trans List.filter_sublist).map _)
  have hmem : x ∈ s.cohorts := (List.mem_filter.1 (List.mem_filter.1 hx).1).1
  obtain ⟨x', hx', hbar⟩ := barSteps_bar (n := k) (Barrier.halt_n n) hnodup (List.mem_map_of_mem hx)
    ((cohort?_congr hco x.uid).trans (cohort?_of_mem hs hmem))
  rw [liveOf_congr hfib] at hbar
  unfold mappedHalt
  rw [hk]
  exact ⟨x', hx', hbar ▸ (x.bar k).took_halt n _⟩

/-- A `cpym` is ready once the barriers of receivers with mapped lines have halted. -/
def cpymReady (s : State) (c : EngineCmd) : State := match c.op with | .cpym o _ n => s.cpymStart c o n | _ => s

/-- A `cpy` reads its layout record as it starts. -/
def layoutRead (s : State) (c : EngineCmd) : Option (List Byte) :=
  match c.op with
  | .cpyStash _ h _ | .cpyTile _ h _ => some (s.layoutBytes (s.cmdSlot c).ctx h)
  | _ => none

/-! #### Its halt and its end (R163, R167, R317) -/

theorem endCmd_flue (hf : c.op.isFlue = true) :
    s.endCmd c = ({ s with cmds := s.cmds.filter fun d => d.id != c.id }.dropLocks c.hearth c.id).updFibre c.uid Fibre.dropCp := by
  unfold endCmd
  cases hop : c.op with
  | cpyStash | cpyTile | cpyl | cpylSt | cpylGg | cpym => rfl
  | _ =>
    rw [hop] at hf
    cases hf

theorem liveOf_endCmd (hf : c.op.isFlue = true) (u : Nat) : ((s.endCmd c).liveOf u).length = (s.liveOf u).length := by
  have hkeeps : (fun f : Fibre => f.cohort == u && !f.exited) ∘ (fun f : Fibre => if f.uid = c.uid then f.dropCp else f) =
      fun f => f.cohort == u && !f.exited := by
    funext f
    rw [Function.comp_apply]
    split <;> rfl
  rw [endCmd_flue hf, updFibre, liveOf, List.filter_map, List.length_map, hkeeps]
  rfl

/-- A completing command ends, and then its barriers alone change. -/
theorem finishCmd_moved (s : State) (c : EngineCmd) (bytes : Nat) : (s.endCmd c).BarsMoved (s.finishCmd c bytes) := by
  unfold finishCmd
  split
  · exact barSteps_moved _ _ _ _
  · exact .of_fibres rfl

theorem finishCmd_took (hf : c.op.isFlue = true) (bytes : Nat) : s.BarriersTook c bytes false (s.finishCmd c bytes) := by
  intro k u e hk
  have hfin : s.finishCmd c bytes = (s.endCmd c).barSteps ((s.endCmd c).barCohorts c) k (·.deliver bytes) := by
    unfold finishCmd
    rw [hk]
    rfl
  have hco : (s.endCmd c).cohorts = s.cohorts := by
    rw [endCmd_flue hf]
    rfl
  have hslots : (s.endCmd c).slots = s.slots := by
    rw [endCmd_flue hf]
    rfl
  rw [hfin]
  exact barriersTook_of_steps (Barrier.deliver_n bytes) (fun b live => b.took_deliver bytes live) hk (barCohorts_congr hco hslots)
    (liveOf_endCmd hf) (fun u e he => ⟨e, (cohort?_congr hco u).trans he, rfl⟩) k u e hk

/-- The state once the record of a halting flue command is written, its destination spoiled, and the command gone. -/
def spoiled (s : State) (c : EngineCmd) (reason : Nat) (detail : List Byte) : State :=
  ((s.engineRecord c reason detail).updCohort c.cohort fun co =>
    co.spoil ((s.engineRecord c reason detail).cmdFormats c) c.op (c.block.getD [])).endCmd c

/-- A flue command that halts: its destination is spoiled, it ends, and its barriers take what it owed. -/
theorem haltCmd_flue {k : Nat} (hf : c.op.isFlue = true) (hk : c.bar = some k) (reason : Nat) (detail : List Byte) :
    s.haltCmd c reason detail =
      (s.spoiled c reason detail).barSteps ((s.spoiled c reason detail).barCohorts c) k (Barrier.halt (s.countHalt c - c.bytes)) := by
  have hread : c.op.isRead = false := by
    cases hop : c.op with
    | mfc | tacc | tstatTile | tstatBarrier =>
      rw [hop] at hf
      cases hf
    | _ => rfl
  have htile : c.op.isTile = false := by simp [EngOp.isTile, hf]
  simp only [haltCmd, hread, htile, hk, Bool.false_eq_true, if_false]
  rfl

theorem barCohorts_spoiled (reason : Nat) (detail : List Byte) (hf : c.op.isFlue = true) :
    (s.spoiled c reason detail).barCohorts c = s.barCohorts c := by
  obtain ⟨hco, -, -, hslots⟩ := s.engineRecord_keeps c reason detail
  have hend := endCmd_flue (s := (s.engineRecord c reason detail).updCohort c.cohort fun co =>
    co.spoil ((s.engineRecord c reason detail).cmdFormats c) c.op (c.block.getD [])) hf
  cases hop : c.op with
  | cpym o a n =>
    refine barCohorts_congr ?_ ?_
    · rw [spoiled, hend, ← hco, hop]
      exact (List.map_congr_left fun x _ => ite_self x).trans (List.map_id _)
    · rw [spoiled, hend]
      exact hslots
  | _ => simp only [barCohorts, hop]

theorem haltCmd_took (hf : c.op.isFlue = true) (reason : Nat) (detail : List Byte) :
    s.BarriersTook c (s.countHalt c - c.bytes) true (s.haltCmd c reason detail) := by
  intro k u e hk
  obtain ⟨hco, hfib, -, -⟩ := s.engineRecord_keeps c reason detail
  rw [haltCmd_flue hf hk]
  refine barriersTook_of_steps (Barrier.halt_n _) (fun b live => b.took_halt _ live) hk (barCohorts_spoiled reason detail hf)
    (fun u => ?_) (fun u e he => ?_) k u e hk
  · rw [spoiled, liveOf_endCmd hf]
    exact congrArg List.length (liveOf_congr hfib u)
  · have hcohorts : (s.spoiled c reason detail).cohort? u = (s.cohort? u).map fun co => if co.uid = c.cohort then
        co.spoil ((s.engineRecord c reason detail).cmdFormats c) c.op (c.block.getD []) else co := by
      rw [spoiled, endCmd_flue hf, ← cohort?_congr hco]
      exact cohort?_updCohort (fun co h => (co.spoil_keeps _ hf _).1.trans h) u
    refine ⟨_, hcohorts.trans (congrArg _ he), ?_⟩
    dsimp only
    split
    · exact congrArg (fun bs : List Barrier => (bs.find? (·.n == k)).getD (Barrier.fresh k)) (e.spoil_keeps _ hf _).2
    · rfl

/-! #### The events -/

section
variable (h : s.flueCmds hearth flue = c :: rest)
include h

theorem flueStart_again (hm : s.flueMayStart c = true) (hb : c.begun = true) :
    exec (.flueCommandStart hearth flue) s = .next (s.updCmd c.id fun d => { d with run := .running }) := by
  show execFlueCommandStart hearth flue s = _
  simp only [execFlueCommandStart, flueStart, h, hm, hb, Bool.not_true, Bool.false_eq_true, if_false, if_true]

theorem flueStart_halts {r : Nat} {d : List Byte} (hm : s.flueMayStart c = true) (hb : c.begun = false) (hc : s.flueCheck c = some (r, d)) :
    exec (.flueCommandStart hearth flue) s = .next (s.haltCmd c r d) := by
  show execFlueCommandStart hearth flue s = _
  simp only [execFlueCommandStart, flueStart, h, hm, hb, hc, Bool.not_true, Bool.false_eq_true, if_false]

/-- A command that passes its checks starts. -/
theorem flueStart_passes (hm : s.flueMayStart c = true) (hb : c.begun = false) (hc : s.flueCheck c = none) :
    exec (.flueCommandStart hearth flue) s =
      .next ((s.cpymReady c).updCmd c.id fun d => { d with run := .running, block := s.layoutRead c }) := by
  show execFlueCommandStart hearth flue s = _
  simp only [execFlueCommandStart, flueStart, h, hm, hb, hc, Bool.not_true, Bool.false_eq_true, if_false, cpymReady, layoutRead]
  cases c.op <;> rfl

theorem flueStart_mapped {o n : Nat} {a : GAddr} (hm : s.flueMayStart c = true) (hb : c.begun = false) (hc : s.flueCheck c = none)
    (hop : c.op = .cpym o a n) (hn : n ≠ 0) (hbad : s.mappedReceivers c o n ≠ []) :
    ∃ t, exec (.flueCommandStart hearth flue) s = .next t ∧
      (∀ d, s.cmd? c.id = some d → t.cmd? c.id = some { d with run := .running, block := none, skip := (s.mappedReceivers c o n).map (·.uid) }) ∧
      (∀ u, u ∉ (s.mappedReceivers c o n).map (·.uid) → t.cohort? u = s.cohort? u) ∧
      (∀ k x, c.bar = some k → x ∈ s.mappedReceivers c o n → (s.cohorts.map (·.uid)).Nodup → ∃ x', t.cohort? x.uid = some x' ∧
        (x.bar k).Took n true (s.liveOf x.uid).length (x'.bar k)) := by
  have hexec := flueStart_passes h hm hb hc
  simp only [cpymReady, layoutRead, hop, cpymStart_mapped hn hbad] at hexec
  obtain ⟨hcmds, hothers⟩ := s.mappedHalt_keeps c o n
  refine ⟨_, hexec, fun d hd => ?_, hothers, fun k x hk hx hs => mappedHalt_took hk hx hs⟩
  have hd' : (s.mappedHalt c o n).cmd? c.id = some d := (cmd?_congr hcmds c.id).trans hd
  have hskip := cmd?_updCmd (g := fun d => { d with skip := (s.mappedReceivers c o n).map (·.uid) }) (fun _ => rfl) hd'
  exact cmd?_updCmd (g := fun d => { d with run := .running, block := none }) (fun _ => rfl) hskip

/-- A command with all its deliveries made and its writes globally complete leaves (R163, R320). -/
theorem flueCommandComplete_leaves (hr : c.run = .running ∧ (s.cmdCohort c).run = .running) (hl : s.flueLines c ≤ c.done)
    (hg : c.gwct = 0 ∨ c.gwct + 8 ≤ s.ltimeAt (dieOfHearth c.hearth)) {f : Fibre} (hf : s.fibre? c.uid = some f) :
    ∃ t f', exec (.flueCommandComplete hearth flue) s = .next t ∧ (∀ d ∈ t.cmds, d.id ≠ c.id) ∧ t.mem = s.mem ∧
      t.fibre? c.uid = some f' ∧ f'.cp = f.cp - 1 ∧ f'.arch = f.arch ∧ (∀ l ∈ (t.hearth c.hearth).locks, l.cmd ≠ c.id) ∧
      (c.bar = none → t.cohorts = s.cohorts) ∧ s.BarriersTook c (s.countDone c) false t := by
  obtain ⟨-, -, hflue⟩ := flueCmds_head h
  have hdone : s.flueDone c = true := by simp [flueDone, hr.1, hl, hg]
  have hexec : exec (.flueCommandComplete hearth flue) s = .next (s.finishCmd c (s.countDone c)) := by
    show execFlueCommandComplete hearth flue s = _
    simp only [execFlueCommandComplete, h, cmdRuns_of hr, hdone, Bool.and_self, if_true]
  have hmoved := s.finishCmd_moved c (s.countDone c)
  have hend := endCmd_flue (s := s) hflue
  have hf' : (s.endCmd c).fibre? c.uid = some f.dropCp := by
    rw [hend]
    exact fibre?_updFibre_found (fun _ => rfl) hf
  obtain ⟨w, hw⟩ := hmoved.fibre _ _ hf'
  refine ⟨_, _, hexec, fun d hd => ?_, (hmoved.keeps State.mem fun _ _ _ => rfl).trans (endCmd_mem s c), hw, rfl, rfl, fun l hl => ?_, fun hn => ?_,
    finishCmd_took hflue _⟩
  · rw [hmoved.keeps State.cmds fun _ _ _ => rfl, endCmd_cmds, List.mem_filter] at hd
    simpa using hd.2
  · rw [hmoved.keeps (fun t => (t.hearth c.hearth).locks) fun _ _ _ => rfl, hend] at hl
    have hlock : ((State.dropLocks { s with cmds := s.cmds.filter fun d => d.id != c.id } c.hearth c.id).hearth c.hearth).locks =
        (s.hearth c.hearth).locks.filter fun l => l.cmd != c.id := by
      rw [dropLocks, hearth_updHearth _ _ _ _ (by simp), if_pos rfl]
      rfl
    have hmem := List.mem_filter.1 (hlock ▸ hl)
    simpa using hmem.2
  · simp only [finishCmd, hn, hend]
    rfl

end

end State

/-! ### Bytes at their places -/

theorem leBytes_getD (n v : Nat) {i : Nat} (hi : i < n) : (leBytes n v).getD i 0 = BitVec.ofNat 8 (v / 256 ^ i) := by
  induction n generalizing v i with
  | zero => omega
  | succ n ih =>
    cases i with
    | zero => simp [leBytes]
    | succ i =>
      have := ih (v / 256) (i := i) (by omega)
      rw [Nat.div_div_eq_div_mul, ← pow_succ'] at this
      simpa [leBytes] using this

/-- Bytes, each at a place that its index gives. -/
def placedAt (p : Nat → Nat) (bs : List Byte) : List (Nat × Byte) := bs.zipIdx.map fun x => (p x.2, x.1)

theorem placedAt_eq (p : Nat → Nat) (bs : List Byte) : placedAt p bs = (List.range bs.length).map fun i => (p i, bs.getD i 0) := by
  refine List.ext_getElem (by simp [placedAt]) fun i h _ => ?_
  have hi : i < bs.length := by simpa [placedAt] using h
  simp [placedAt, hi]

theorem placedAt_nodup {p : Nat → Nat} (hp : Function.Injective p) (bs : List Byte) : ((placedAt p bs).map (·.1)).Nodup := by
  rw [placedAt_eq, List.map_map]
  exact List.nodup_range.map hp

theorem placedAt_find (p : Nat → Nat) (bs : List Byte) (a : Nat) :
    ((placedAt p bs).find? (·.1 == a)).map (·.2) = ((List.range bs.length).find? fun i => decide (p i = a)).map (bs.getD · 0) := by
  rw [placedAt_eq, List.find?_map, Option.map_map]
  rfl

/-- In a run the byte at an address is that of its distance. -/
theorem placedAt_run (o : Nat) (bs : List Byte) (a : Nat) : ((placedAt (o + ·) bs).find? (·.1 == a)).map (·.2) = bytesAt o bs a := by
  rw [placedAt_find, bytesAt]
  by_cases h : o ≤ a ∧ a - o < bs.length
  · obtain ⟨hle, hlt⟩ := h
    have hfind : (List.range bs.length).find? (fun i => decide (o + i = a)) = some (a - o) := by
      rw [List.find?_range_eq_some]
      refine ⟨by simpa using Nat.add_sub_cancel' hle, by simpa using hlt, fun j hj => ?_⟩
      have : o + j ≠ a := by omega
      simpa using this
    rw [hfind, if_pos hle, Option.map_some, List.getD_eq_getElem _ _ hlt, List.getElem?_eq_getElem hlt]
  · have hfind : (List.range bs.length).find? (fun i => decide (o + i = a)) = none := by
      refine List.find?_eq_none.2 fun i hi => ?_
      have := List.mem_range.1 hi
      have hne : o + i ≠ a := by omega
      simpa using hne
    rw [hfind]
    split
    · rw [List.getElem?_eq_none (by omega)]
      rfl
    · rfl

/-! #### Packed codes (R124, R315) -/

/-- Codes of w bits packed, the first lowest. -/
def packed (w : Nat) (codes : List Nat) : Nat := Nat.ofDigits (2 ^ w) (codes.map (· % 2 ^ w))

theorem sum_zipIdx_eq_packed (w : Nat) (codes : List Nat) : (codes.zipIdx.map fun x => x.1 % 2 ^ w * 2 ^ (w * x.2)).sum = packed w codes := by
  rw [packed, Nat.ofDigits_eq_sum_mapIdx, List.mapIdx_eq_zipIdx_map, List.zipIdx_map, List.map_map]
  congr 2
  funext x
  simp [pow_mul]

theorem packed_lt {w : Nat} (hw : 0 < w) (codes : List Nat) : packed w codes < 2 ^ (w * codes.length) := by
  rw [pow_mul]
  have := Nat.ofDigits_lt_base_pow_length (b := 2 ^ w) (l := codes.map (· % 2 ^ w)) (Nat.one_lt_two_pow hw.ne') fun x hx => by
    obtain ⟨c, -, rfl⟩ := List.mem_map.1 hx
    exact Nat.mod_lt _ (by positivity)
  simpa [packed] using this

theorem packed_padded (w : Nat) (codes : List Nat) : packed w (codes ++ [0, 0, 0]) = packed w codes := by
  simp [packed, Nat.ofDigits_append, Nat.ofDigits]

theorem packBytes_eq (w : Nat) (codes : List Nat) : packBytes w codes = leBytes (codes.length * w / 8) (packed w codes) := by
  rw [← sum_zipIdx_eq_packed]
  rfl

theorem packedByte_eq (w skip : Nat) (codes : List Nat) (i : Nat) : packedByte w skip codes i = BitVec.ofNat 8 (packed w codes / 2 ^ (skip + 8 * i)) := by
  rw [packedByte, sum_zipIdx_eq_packed]

/-- The padding codes take the whole number of bytes past the last code. -/
theorem leNat_packBytes_padded {w : Nat} (hw : 4 ≤ w) (codes : List Nat) : leNat (packBytes w (codes ++ [0, 0, 0])) = packed w codes := by
  rw [packBytes_eq, leNat_leBytes, packed_padded]
  refine Nat.mod_eq_of_lt ((packed_lt (by omega) codes).trans_le (Nat.pow_le_pow_right (by decide) ?_))
  rw [List.length_append, Nat.add_mul, Nat.mul_comm w]
  show codes.length * w ≤ 8 * ((codes.length * w + 3 * w) / 8)
  omega

theorem packBytes_getD (w : Nat) (codes : List Nat) {i : Nat} (hi : i < codes.length * w / 8) :
    (packBytes w codes).getD i 0 = packedByte w 0 codes i := by
  rw [packBytes_eq, leBytes_getD _ _ hi, packedByte_eq, Nat.zero_add, pow_mul]
  norm_num

/-- Packed codes put from address 0 on. -/
theorem get_putRun_packBytes (m : Memory) (w : Nat) (codes : List Nat) (a : Nat) :
    Memory.get (putRun m 0 (packBytes w codes)) a = if a < codes.length * w / 8 then packedByte w 0 codes a else Memory.get m a := by
  have hlen : (packBytes w codes).length = codes.length * w / 8 := by rw [packBytes_eq, leBytes_length]
  unfold putRun
  split
  · next h =>
    have hget := Memory.get_putBytes_same (packBytes w codes) m 0 a (by rwa [hlen])
    rwa [Nat.zero_add, packBytes_getD w codes h] at hget
  · next h => exact Memory.get_putBytes_other _ m 0 a (.inr (by omega))

/-- Bytes of packed codes after some bits. -/
theorem leBytes_skip_getD (w skip n : Nat) (codes : List Nat) {i : Nat} (hi : i < n) :
    (leBytes n (packed w codes / 2 ^ skip)).getD i 0 = packedByte w skip codes i := by
  rw [leBytes_getD _ _ hi, packedByte_eq, Nat.div_div_eq_div_mul, pow_add, pow_mul]
  norm_num

/-! #### The swizzle (R316) -/

theorem swizzle_injective {k : Nat} (hk : k ≤ 3) : Function.Injective (swizzle k) := by
  have hlt (x : Nat) : (x % 128 / 16 ^^^ (x / 128 % 2 ^ k)) < 8 :=
    Nat.xor_lt_two_pow (n := 3) (by omega) ((Nat.mod_lt _ (by positivity)).trans_le (Nat.pow_le_pow_right (by decide) hk))
  intro x y h
  have hx := hlt x
  have hy := hlt y
  unfold swizzle at h
  dsimp only at h
  generalize hX : x % 128 / 16 ^^^ (x / 128 % 2 ^ k) = X at h hx
  generalize hY : y % 128 / 16 ^^^ (y / 128 % 2 ^ k) = Y at h hy
  have hdiv : x / 128 = y / 128 := by omega
  have hXY : X = Y := by omega
  have hmid : x % 128 / 16 = y % 128 / 16 := by
    rw [← hX, ← hY, hdiv] at hXY
    simpa [Nat.xor_assoc] using congrArg (· ^^^ (y / 128 % 2 ^ k)) hXY
  omega

/-! ### A line of a stash takes bytes (R309, R310) -/

theorem Cohort.foldl_putStash (c : Cohort) (bs : List (Nat × Byte)) :
    bs.foldl (fun (c : Cohort) (x : Nat × Byte) => c.putStash x.1 [x.2]) c =
      { c with stash := bs.foldl (fun (m : Memory) x => m.put x.1 x.2) c.stash } := by
  induction bs generalizing c with
  | nil => rfl
  | cons x bs ih => exact ih _

/-- The pointers of a cohort's flues, that of one flue raised. -/
def raisedPointers (w : List Nat) (flue : Nat) : List Nat := w.zipIdx.map fun x => if x.2 = flue then x.1 + 128 else x.1

theorem raisedPointers_getD {w : List Nat} {flue : Nat} (k : Nat) (h : flue < w.length) :
    (raisedPointers w flue).getD k 0 = if k = flue then w.getD k 0 + 128 else w.getD k 0 := by
  by_cases hk : k < w.length
  · simp [raisedPointers, List.getD_eq_getElem?_getD, hk]
  · have hne : k ≠ flue := by omega
    simp [raisedPointers, List.getD_eq_getElem?_getD, hk, hne]

/-- A cohort once a flue has delivered bytes to the line at o. -/
def Cohort.takeLine (c : Cohort) (flue o : Nat) (bs : List (Nat × Byte)) : Cohort :=
  let d : Cohort := { c with stash := bs.foldl (fun (m : Memory) x => m.put x.1 x.2) c.stash }
  let d := if bs.length = 128 then d.updLine (o / 128) fun l => { l with poison := false } else d
  { d with wptr := raisedPointers c.wptr flue }.updLine (o / 128) fun l => { l with full := true }

theorem Cohort.takeLine_taken {c : Cohort} {flue o : Nat} {bs : List (Nat × Byte)} (hf : flue < c.wptr.length) (hbs : (bs.map (·.1)).Nodup) :
    c.LineTaken flue (o / 128) (fun a => (bs.find? (·.1 == a)).map (·.2)) (c.takeLine flue o bs) := by
  have hstash : (c.takeLine flue o bs).stash = bs.foldl (fun (m : Memory) x => m.put x.1 x.2) c.stash := by
    simp only [Cohort.takeLine, Cohort.updLine, Cohort.setLine_stash]
    split <;> rfl
  have hline : ((c.takeLine flue o bs).line (o / 128)).full = true := by
    simp only [Cohort.takeLine, Cohort.updLine]
    rw [Cohort.line_setLine_same (by simp)]
  refine ⟨fun a => ?_, hline, ?_, fun k hk => ?_⟩
  · rw [hstash]
    exact Memory.get_foldl_put bs hbs c.stash a
  · exact (raisedPointers_getD flue hf).trans (if_pos rfl)
  · exact (raisedPointers_getD k hf).trans (if_neg hk)

namespace State

variable {s t : State} {u v flue o : Nat} {c : Cohort} {bs : List (Nat × Byte)}

/-- What a delivery to a line changes of its cohort, before the line is full. -/
theorem deliverLine_upd (s : State) (u flue o : Nat) (bs : List (Nat × Byte)) : ∃ g : Cohort → Cohort,
    (∀ c, (g c).uid = c.uid) ∧ (∀ c, (g c).updLine (o / 128) (fun l => { l with full := true }) = c.takeLine flue o bs) ∧
    s.deliverLine u flue o bs = (s.updCohort u g).fillLine u (o / 128) := by
  refine ⟨_, fun c => ?_, fun c => ?_, rfl⟩
  · simp only [Cohort.foldl_putStash]
    split <;> rfl
  · simp only [Cohort.foldl_putStash, Cohort.takeLine]
    split <;> rfl

theorem deliverLine_cohort (h : s.cohort? u = some c) : (s.deliverLine u flue o bs).cohort? u = some (c.takeLine flue o bs) := by
  obtain ⟨g, hg, htake, heq⟩ := s.deliverLine_upd u flue o bs
  rw [heq, ← htake]
  exact cohort?_updCohort_same (s := s.updCohort u g) (g := fun c => c.updLine (o / 128) fun l => { l with full := true }) (fun _ h => h)
    (cohort?_updCohort_same (fun c h => (hg c).trans h) h)

theorem deliverLine_other (s : State) (bs : List (Nat × Byte)) (hv : v ≠ u) : (s.deliverLine u flue o bs).cohort? v = s.cohort? v := by
  obtain ⟨g, hg, -, heq⟩ := s.deliverLine_upd u flue o bs
  rw [heq]
  exact (cohort?_updCohort_other (s := s.updCohort u g) (g := fun c => c.updLine (o / 128) fun l => { l with full := true }) (fun _ => rfl) hv).trans
    (cohort?_updCohort_other hg hv)

/-- The same bytes delivered to the line of each of some cohorts. -/
def deliverLines (s : State) (us : List Nat) (flue o : Nat) (bs : List (Nat × Byte)) : State :=
  us.foldl (fun s u => s.deliverLine u flue o bs) s

theorem deliverLines_mem (s : State) (us : List Nat) (flue o : Nat) (bs : List (Nat × Byte)) : (s.deliverLines us flue o bs).mem = s.mem :=
  foldl_keeps (m := State.mem) (f := fun s u => s.deliverLine u flue o bs) (fun _ _ => rfl) us s

theorem deliverLines_cmds (s : State) (us : List Nat) (flue o : Nat) (bs : List (Nat × Byte)) : (s.deliverLines us flue o bs).cmds = s.cmds :=
  foldl_keeps (m := State.cmds) (f := fun s u => s.deliverLine u flue o bs) (fun _ _ => rfl) us s

theorem deliverLines_other (s : State) (bs : List (Nat × Byte)) {us : List Nat} (hv : v ∉ us) :
    (s.deliverLines us flue o bs).cohort? v = s.cohort? v :=
  cohort?_foldl_other (fun s _ _ hv => s.deliverLine_other bs hv) s hv

theorem deliverLines_cohort {us : List Nat} (hus : us.Nodup) (hu : u ∈ us) (h : s.cohort? u = some c) :
    (s.deliverLines us flue o bs).cohort? u = some (c.takeLine flue o bs) := by
  obtain ⟨t, -, hstart, hend⟩ := cohort?_foldl_mem (step := fun s u => s.deliverLine u flue o bs) (P := fun _ => True)
    (fun s _ _ hv => s.deliverLine_other bs hv) (fun _ _ h => h) trivial hus hu
  exact hend.trans (deliverLine_cohort (hstart.trans h))

/-! ### A delivery is counted (R311, R318) -/

theorem delivered_mem (s : State) (c : EngineCmd) (bytes : Nat) : (s.delivered c bytes 0).mem = s.mem := by
  unfold delivered
  dsimp only
  split <;> rfl

theorem delivered_cohorts (s : State) (c : EngineCmd) (bytes : Nat) : (s.delivered c bytes 0).cohorts = s.cohorts := by
  unfold delivered
  dsimp only
  split <;> rfl

theorem delivered_cmds (s : State) (c : EngineCmd) (bytes : Nat) : (s.delivered c bytes 0).cmds = (s.progress c bytes 0).cmds := by
  unfold delivered
  dsimp only
  split <;> rfl

theorem delivered_counts {r : State} {c : EngineCmd} (hr : r.cmds = s.cmds) (bytes : Nat) : s.Delivered c bytes 0 (r.delivered c bytes 0) := by
  intro d hd
  have hd' : r.cmd? c.id = some d := (cmd?_congr hr c.id).trans hd
  exact (cmd?_congr (delivered_cmds r c bytes) c.id).trans
    (cmd?_updCmd (g := fun c => { c with done := c.done + 1, bytes := c.bytes + bytes, gwct := max c.gwct 0, since := none }) (fun _ => rfl) hd')

end State

/-! ### Tiles -/

@[simp] theorem Cohort.tile_n (c : Cohort) (n : Nat) : (c.tile n).n = n := by
  unfold Cohort.tile
  cases h : c.tiles.find? (·.n == n) with
  | none => rfl
  | some x => simpa using List.find?_some h

theorem Cohort.tile_setTile_same {c : Cohort} {x : Tile} {n : Nat} (h : x.n = n) : (c.setTile x).tile n = x := by
  simp [Cohort.setTile, Cohort.tile, h]

theorem Cohort.tile_setTile_other {c : Cohort} {x : Tile} {n k : Nat} (h : x.n = n) (hk : k ≠ n) : (c.setTile x).tile k = c.tile k := by
  have hne : (x.n == k) = false := by simpa [h] using Ne.symm hk
  have hfind : (c.tiles.filter fun y => y.n != x.n).find? (·.n == k) = c.tiles.find? (·.n == k) := by
    rw [List.find?_filter]
    congr 1
    funext y
    by_cases hy : y.n = k <;> simp [hy, h, hk]
  simp only [Cohort.tile, Cohort.setTile, List.find?_cons, hne, hfind]

theorem bytesAt_getD (o : Nat) (bs : List Byte) (a : Nat) (b : Byte) :
    (bytesAt o bs a).getD b = if o ≤ a ∧ a < o + bs.length then bs.getD (a - o) 0 else b := by
  unfold bytesAt
  by_cases h : o ≤ a ∧ a < o + bs.length
  · obtain ⟨hle, hlt⟩ := h
    have hlt' : a - o < bs.length := by omega
    simp [hle, hlt, List.getD_eq_getElem?_getD, List.getElem?_eq_getElem hlt']
  · rw [if_neg h]
    split
    · next hle => rw [List.getElem?_eq_none (by omega), Option.getD_none]
    · rfl

theorem swizzle_eq (k x : Nat) : swizzle k x = x / 128 * 128 + (x % 128 / 16 ^^^ (x / 128 % 2 ^ k)) * 16 + x % 16 := by
  unfold swizzle
  dsimp only
  omega

/-- Packed bytes put at their swizzled places: an address takes the one whose place it is. -/
theorem placedAt_swizzled (w skip n k o : Nat) (codes : List Nat) (a : Nat) :
    ((placedAt (fun i => swizzle k (o + i)) (leBytes n (packed w codes / 2 ^ skip))).find? (·.1 == a)).map (·.2) =
      ((List.range n).find? fun i => decide (swizzle k (o + i) = a)).map (packedByte w skip codes) := by
  rw [placedAt_find, leBytes_length]
  refine Option.map_congr fun i hi => ?_
  exact leBytes_skip_getD w skip n codes (List.mem_range.1 (List.mem_of_find?_eq_some hi))

/-! ### The codes of a box (R313, R315) -/

namespace State

variable {s s1 t : State} {hearth flue : Nat} {c : EngineCmd} {rest : List EngineCmd}

/-- A code of the box read in t: the padding, or the bits at its address. -/
def CodeRead (s t : State) (c : EngineCmd) (l : LayoutRec) (e : Option (Int × Nat)) (x : Nat) : Prop :=
  (e = none → x = l.padCode) ∧
  ∀ a sh, e = some (a, sh) → ∃ s3 bs g3,
    t.engRead (s.cmdSlot c).ctx c.unit (s.cmdSlot c).node 0 ⟨l.base.space, BitVec.ofInt 64 a⟩ ((sh + l.width + 7) / 8) = .ok s3 bs g3 ∧
    x = leNat bs / 2 ^ sh % 2 ^ l.width

/-- One code more is read after the others. -/
theorem boxCodes_succ {l : LayoutRec} {cs : List Int} {first n : Nat} {b : List Byte} {g : Nat} {codes : List Nat}
    (h : s.boxCodes c l cs first (n + 1) = (.ok s1 b g, codes)) : ∃ s2 b2 g2 codes' x,
      s.boxCodes c l cs first n = (.ok s2 b2 g2, codes') ∧ codes = codes' ++ [x] ∧ s.CodeRead s2 c l (l.elemAt cs (first + n)) x := by
  unfold boxCodes at h ⊢
  dsimp only at h ⊢
  rw [List.range_succ, List.foldl_append, List.foldl_cons, List.foldl_nil] at h
  generalize List.foldl _ _ (List.range n) = r at h ⊢
  obtain ⟨r, codes'⟩ := r
  dsimp only at h
  split at h
  · next s2 b2 g2 =>
    refine ⟨s2, b2, g2, codes', ?_⟩
    split at h
    · next he =>
      obtain ⟨-, rfl⟩ := Prod.mk.inj h
      exact ⟨_, rfl, rfl, ⟨fun _ => rfl, fun a sh h => nomatch he.symm.trans h⟩⟩
    · next a sh he =>
      split at h
      · next s3 bs g3 hread =>
        obtain ⟨-, rfl⟩ := Prod.mk.inj h
        refine ⟨_, rfl, rfl, ⟨fun h => (nomatch he.symm.trans h), fun a' sh' h => ?_⟩⟩
        rw [he] at h
        cases h
        exact ⟨s3, bs, g3, hread, rfl⟩
      · next hread =>
        exact absurd (Prod.mk.inj h).1 (hread _ _ _)
  · next hr => exact absurd (Prod.mk.inj h).1 (hr _ _ _)

/-- The codes of a box, one by one. -/
theorem boxCodes_read {l : LayoutRec} {cs : List Int} {first n : Nat} {b : List Byte} {g : Nat} {codes : List Nat}
    (h : s.boxCodes c l cs first n = (.ok s1 b g, codes)) : codes.length = n ∧
      ∀ i < n, ∃ s2 b2 g2 x, (s.boxCodes c l cs first i).1 = .ok s2 b2 g2 ∧ codes[i]? = some x ∧ s.CodeRead s2 c l (l.elemAt cs (first + i)) x := by
  induction n generalizing s1 b g codes with
  | zero =>
    cases h
    exact ⟨rfl, fun i hi => absurd hi (Nat.not_lt_zero i)⟩
  | succ n ih =>
    obtain ⟨s2, b2, g2, codes', x, hn, rfl, hx⟩ := boxCodes_succ h
    obtain ⟨hlen, hcodes⟩ := ih hn
    refine ⟨by simp [hlen], fun i hi => ?_⟩
    rcases Nat.lt_succ_iff_lt_or_eq.1 hi with hi | rfl
    · obtain ⟨s3, b3, g3, y, h3, hy, hread⟩ := hcodes i hi
      exact ⟨s3, b3, g3, y, h3, by rw [List.getElem?_append_left (hlen ▸ hi), hy], hread⟩
    · exact ⟨s2, b2, g2, x, by rw [hn], by simp [← hlen], hx⟩

/-! ### The deliveries (R308 to R316, R340 to R342) -/

/-- No write outside a node is staged. -/
theorem stages_of_outside (h : (s.cmdSlot c).node = none) : s.stages c = false := by
  simp only [stages, stagingFull, h]
  split
  · split <;> rfl
  · rfl

section
variable (h : s.flueCmds hearth flue = c :: rest) (hr : c.run = .running ∧ (s.cmdCohort c).run = .running)
include h hr

theorem flueLineDelivery_delivers (hd : c.done < s.flueLines c) (hs : s.stages c = false) :
    exec (.flueLineDelivery hearth flue) s = .next (s.flueDeliver c) := by
  show execFlueLineDelivery hearth flue s = _
  simp only [execFlueLineDelivery, h, cmdRuns_of hr, hd, flueStep, hs, decide_true, Bool.and_self, if_true, Bool.false_eq_true, if_false]

end

/-- A line delivered to the cohort of a command, and counted. -/
theorem deliverLine_delivered {o b : Nat} {bs : List (Nat × Byte)} {co : Cohort} (hco : s1.cohort? c.cohort = some co)
    (hf : c.flue < co.wptr.length) (hbs : (bs.map (·.1)).Nodup) (hexec : t = (s1.deliverLine c.cohort c.flue o bs).delivered c b 0) :
    t.mem = s1.mem ∧ s1.Delivered c b 0 t ∧
    ∃ co', t.cohort? c.cohort = some co' ∧ co.LineTaken c.flue (o / 128) (fun a => (bs.find? (·.1 == a)).map (·.2)) co' := by
  subst hexec
  have hcmds : (s1.deliverLine c.cohort c.flue o bs).cmds = s1.cmds := rfl
  exact ⟨delivered_mem _ _ _, delivered_counts hcmds b, _, (cohort?_congr (delivered_cohorts _ _ _) c.cohort).trans (deliverLine_cohort hco),
    Cohort.takeLine_taken hf hbs⟩

section
variable (h : s.flueCmds hearth flue = c :: rest) (hr : c.run = .running ∧ (s.cmdCohort c).run = .running)
include h hr

theorem cpyl_delivers {o n g : Nat} {src : GAddr} {bs : List Byte} {co : Cohort} (hop : c.op = .cpyl o src n) (hd : c.done < (n + 127) / 128)
    (hread : s.engRead (s.cmdSlot c).ctx c.unit (s.cmdSlot c).node 0 (gplus src (128 * c.done)) (min 128 (n - 128 * c.done)) = .ok s1 bs g)
    (hco : s1.cohort? c.cohort = some co) (hf : flue < co.wptr.length) :
    ∃ t co', exec (.flueLineDelivery hearth flue) s = .next t ∧ t.mem = s1.mem ∧ t.cohort? c.cohort = some co' ∧ s1.Delivered c bs.length 0 t ∧
      co.LineTaken flue ((o + 128 * c.done) / 128) (bytesAt (o + 128 * c.done) bs) co' := by
  obtain ⟨-, rfl, -⟩ := flueCmds_head h
  have hexec := flueLineDelivery_delivers h hr (by simpa [flueLines, hop] using hd) (by simp [stages, hop])
  simp only [flueDeliver, hop, hread] at hexec
  obtain ⟨hmem, hcount, co', hco', htaken⟩ := deliverLine_delivered hco hf (placedAt_nodup (add_right_injective (o + 128 * c.done)) bs) rfl
  rw [funext (placedAt_run (o + 128 * c.done) bs)] at htaken
  exact ⟨_, co', hexec, hmem, hco', hcount, htaken⟩

theorem cpylSt_delivers {o n g : Nat} {dst : GAddr} {bs : List Byte} (hop : c.op = .cpylSt o dst n) (hd : c.done < (n + 127) / 128)
    (hready : s.engReady c (o / 128 + c.done) = true) (hpoison : ((s.cmdCohort c).line (o / 128 + c.done)).poison = false)
    (hnode : (s.cmdSlot c).node = none)
    (hwrite : s.engWrite (s.cmdSlot c).ctx c.unit c.hearth (s.cmdSlot c).node (gplus dst (128 * c.done))
      (Memory.bytes (s.cmdCohort c).stash (o + 128 * c.done) (min 128 (n - 128 * c.done))) = .ok s1 bs g) :
    exec (.flueLineDelivery hearth flue) s = .next (s1.delivered c (min 128 (n - 128 * c.done)) g) := by
  rw [flueLineDelivery_delivers h hr (by simpa [flueLines, hop] using hd) (stages_of_outside hnode)]
  simp only [flueDeliver, hop, hready, hpoison, hwrite, Memory.bytes_length, Bool.not_true, Bool.false_eq_true, if_false]

theorem cpylGg_delivers {n g g2 : Nat} {src dst : GAddr} {s2 : State} {bs bs2 : List Byte} (hop : c.op = .cpylGg src dst n)
    (hd : c.done < (n + 127) / 128) (hnode : (s.cmdSlot c).node = none)
    (hread : s.engRead (s.cmdSlot c).ctx c.unit (s.cmdSlot c).node 0 (gplus src (128 * c.done)) (min 128 (n - 128 * c.done)) = .ok s1 bs g)
    (hwrite : s1.engWrite (s.cmdSlot c).ctx c.unit c.hearth (s.cmdSlot c).node (gplus dst (128 * c.done)) bs = .ok s2 bs2 g2) :
    exec (.flueLineDelivery hearth flue) s = .next (s2.delivered c bs.length g2) := by
  rw [flueLineDelivery_delivers h hr (by simpa [flueLines, hop] using hd) (stages_of_outside hnode)]
  simp only [flueDeliver, hop, hread, hwrite]

theorem cpym_delivers {o n g : Nat} {src : GAddr} {bs : List Byte} (hop : c.op = .cpym o src n) (hd : c.done < (n + 127) / 128)
    (hread : s.engRead (s.cmdSlot c).ctx c.unit (s.cmdSlot c).node 0 (gplus src (128 * c.done)) (min 128 (n - 128 * c.done)) = .ok s1 bs g)
    (hs1 : (s1.cohorts.map (·.uid)).Nodup) :
    ∃ t, exec (.flueLineDelivery hearth flue) s = .next t ∧ t.mem = s1.mem ∧ s1.Delivered c bs.length 0 t ∧
      (∀ u, u ∉ (s1.receivers c).map (·.uid) → t.cohort? u = s1.cohort? u) ∧
      (∀ x ∈ s1.receivers c, flue < x.wptr.length → ∃ x', t.cohort? x.uid = some x' ∧
        x.LineTaken flue ((o + 128 * c.done) / 128) (bytesAt (o + 128 * c.done) bs) x') := by
  obtain ⟨-, rfl, -⟩ := flueCmds_head h
  let placed := placedAt (o + 128 * c.done + ·) bs
  let us := (s1.receivers c).map (·.uid)
  have hexec : exec (.flueLineDelivery hearth c.flue) s = .next ((s1.deliverLines us c.flue (o + 128 * c.done) placed).delivered c bs.length 0) := by
    rw [flueLineDelivery_delivers h hr (by simpa [flueLines, hop] using hd) (by simp [stages, hop])]
    simp only [flueDeliver, hop, hread, us, deliverLines, List.foldl_map]
    rfl
  have hcohort (u : Nat) := cohort?_congr (delivered_cohorts (s1.deliverLines us c.flue (o + 128 * c.done) placed) c bs.length) u
  refine ⟨_, hexec, (delivered_mem _ _ _).trans (deliverLines_mem _ _ _ _ _), delivered_counts (deliverLines_cmds _ _ _ _ _) _,
    fun u hu => (hcohort u).trans (deliverLines_other _ _ hu), fun x hx hf => ?_⟩
  have hus : us.Nodup := hs1.sublist (List.filter_sublist.map _)
  have hx' := cohort?_of_mem hs1 (List.mem_filter.1 hx).1
  have htaken := Cohort.takeLine_taken (o := o + 128 * c.done) hf (placedAt_nodup (add_right_injective (o + 128 * c.done)) bs)
  rw [funext (placedAt_run (o + 128 * c.done) bs)] at htaken
  exact ⟨_, (hcohort x.uid).trans (deliverLines_cohort hus (List.mem_map_of_mem hx) hx'), htaken⟩

theorem cpyStash_delivers {o g : Nat} {hd : Word} {cs : List Word} {b : List Byte} {codes : List Nat} {co : Cohort} (hop : c.op = .cpyStash o hd cs)
    (hdone : c.done < s.flueLines c)
    (hcodes : s.boxCodes c (s.cmdLayout c hd) (coordInts cs) (1024 * c.done / (s.cmdLayout c hd).width)
      ((1024 * c.done + 8 * min 128 ((s.cmdLayout c hd).bytes - 128 * c.done) + (s.cmdLayout c hd).width - 1) / (s.cmdLayout c hd).width -
        1024 * c.done / (s.cmdLayout c hd).width) = (.ok s1 b g, codes))
    (hw : 4 ≤ (s.cmdLayout c hd).width) (hco : s1.cohort? c.cohort = some co) (hf : flue < co.wptr.length) :
    let n := min 128 ((s.cmdLayout c hd).bytes - 128 * c.done)
    ∃ t co', exec (.flueLineDelivery hearth flue) s = .next t ∧ t.mem = s1.mem ∧ t.cohort? c.cohort = some co' ∧ s1.Delivered c n 0 t ∧
      co.LineTaken flue ((o + 128 * c.done) / 128)
        (fun a => ((List.range n).find? fun i => decide (swizzle (s.cmdLayout c hd).swz (o + 128 * c.done + i) = a)).map
          (packedByte (s.cmdLayout c hd).width
            (1024 * c.done - (s.cmdLayout c hd).width * (1024 * c.done / (s.cmdLayout c hd).width)) codes)) co' := by
  intro n
  obtain ⟨-, rfl, -⟩ := flueCmds_head h
  have hexec := flueLineDelivery_delivers h hr hdone (by simp [stages, hop])
  simp only [flueDeliver, hop, hcodes, leNat_packBytes_padded hw] at hexec
  have hswz : (s.cmdLayout c hd).swz ≤ 3 := Nat.lt_succ_iff.1 (Nat.mod_lt _ (by decide))
  have hplaces : Function.Injective fun i => swizzle (s.cmdLayout c hd).swz (o + 128 * c.done + i) :=
    (swizzle_injective hswz).comp (add_right_injective (o + 128 * c.done))
  obtain ⟨hmem, hcount, co', hco', htaken⟩ := deliverLine_delivered (o := o + 128 * c.done) (b := n) hco hf (placedAt_nodup hplaces
    (leBytes n (packed (s.cmdLayout c hd).width codes /
      2 ^ (1024 * c.done - (s.cmdLayout c hd).width * (1024 * c.done / (s.cmdLayout c hd).width))))) rfl
  rw [funext (placedAt_swizzled _ _ n _ (o + 128 * c.done) codes)] at htaken
  exact ⟨_, co', hexec, hmem, hco', hcount, htaken⟩

theorem cpyTile_delivers {n g : Nat} {hd : Word} {cs : List Word} {b : List Byte} {codes : List Nat} {co : Cohort} (hop : c.op = .cpyTile n hd cs)
    (hdone : c.done = 0)
    (hcodes : s.boxCodes c (s.cmdLayout c hd) (coordInts cs) 0 (s.cmdLayout c hd).elems = (.ok s1 b g, codes))
    (hco : s1.cohort? c.cohort = some co) :
    ∃ t co', exec (.flueLineDelivery hearth flue) s = .next t ∧ t.mem = s1.mem ∧ t.cohort? c.cohort = some co' ∧
      s1.Delivered c (s.cmdLayout c hd).bytes 0 t ∧ co'.stash = co.stash ∧ (∀ k, k ≠ n → co'.tile k = co.tile k) ∧
      co'.tile n = { co.tile n with
        elems := putRun (co.tile n).elems 0 (packBytes (s.cmdLayout c hd).width codes), fault := false, poison := false } := by
  have hexec := flueLineDelivery_delivers h hr (by simp [flueLines, hop, hdone]) (by simp [stages, hop])
  simp only [flueDeliver, hop, hcodes] at hexec
  let fill (co : Cohort) : Cohort := co.setTile { co.tile n with
    elems := putRun (co.tile n).elems 0 (packBytes (s.cmdLayout c hd).width codes), fault := false, poison := false }
  have hco' : (s1.updCohort c.cohort fill).cohort? c.cohort = some (fill co) := cohort?_updCohort_same (fun _ h => h) hco
  have hcmds : (s1.updCohort c.cohort fill).cmds = s1.cmds := rfl
  exact ⟨_, fill co, hexec, delivered_mem (s1.updCohort c.cohort fill) _ _,
    (cohort?_congr (delivered_cohorts (s1.updCohort c.cohort fill) _ _) _).trans hco', delivered_counts hcmds _, rfl,
    fun k hk => Cohort.tile_setTile_other (co.tile_n n) hk, Cohort.tile_setTile_same (co.tile_n n)⟩

end
end State

/-- Settles O52: each event is one branch of its meaning, and what it leaves is that of the layers above: barriers (`State.barriersTook_of_steps`),
lines (`Cohort.takeLine_taken`), tiles and codes (`State.boxCodes_read`). -/
theorem fluesStartDeliverAndComplete : Obligations.FluesStartDeliverAndComplete := by
  intro s hearth flue c rest h slot die len running
  obtain ⟨-, hflue, hop⟩ := State.flueCmds_head h
  refine ⟨?start, fun o a n hm hb hc hcpym hn => State.flueStart_mapped h hm hb hc hcpym hn, State.flueStart_again h,
    fun r d => State.flueStart_halts h, ?cpyl, fun o dst n s1 bs g hr hcpy hd hready hpoison => State.cpylSt_delivers h hr hcpy hd hready hpoison,
    fun src dst n s1 bs g s2 bs2 g2 hr hcpy hd => State.cpylGg_delivers h hr hcpy hd,
    fun o src n s1 bs g hr hcpy hd => State.cpym_delivers h hr hcpy hd, ?cpyStash, ?cpyTile, ?codes, ?lines, ?gg, ?boxes,
    fun r d => State.haltCmd_took hop r d, fun hr hl hg f => State.flueCommandComplete_leaves h hr hl hg⟩
  case start =>
    intro hm hb hc hmapped lay
    rw [State.flueStart_passes h hm hb hc]
    cases hcpym : c.op with
    | cpym o a n =>
      simp only [State.cpymReady, State.layoutRead, State.cpymStart_whole (hmapped o a n hcpym), lay, hcpym]
    | _ => simp only [State.cpymReady, State.layoutRead, lay, hcpym, slot]
  case cpyl =>
    intro o src n s1 bs g co hr hcpy hd hread hco hf
    obtain ⟨t, co', hexec, hmem, hco', hcount, hstash, hline, hptr, hptrs⟩ := State.cpyl_delivers h hr hcpy hd hread hco hf
    exact ⟨t, co', hexec, hmem, hco', fun i => (hstash i).trans (bytesAt_getD _ _ _ _), hline, hptr, hptrs, hcount⟩
  case cpyStash =>
    intro o hd cs hr hcpy hdone l n first last place s1 b g codes co hcodes hw hco hf
    have hplace : place = swizzle l.swz := funext fun x => (swizzle_eq l.swz x).symm
    rw [hplace]
    exact State.cpyStash_delivers h hr hcpy hdone hcodes hw hco hf
  case cpyTile =>
    intro n hd cs hr hcpy hdone l s1 b g codes co hcodes hco
    obtain ⟨t, co', hexec, hmem, hco', hcount, hstash, hothers, htile⟩ := State.cpyTile_delivers h hr hcpy hdone hcodes hco
    refine ⟨t, co', hexec, hmem, hco', hcount, ?_⟩
    rw [htile]
    exact ⟨rfl, rfl, rfl, hstash, hothers, fun a => get_putRun_packBytes _ _ _ a⟩
  case codes =>
    intro l cs first n s1 b g codes hcodes
    obtain ⟨hlen, hread⟩ := State.boxCodes_read hcodes
    refine ⟨hlen, fun i hi => ?_⟩
    obtain ⟨s2, b2, g2, x, hs2, hx, hpad, hbits⟩ := hread i hi
    refine ⟨fun he => hpad he ▸ hx, fun a sh he => ?_⟩
    obtain ⟨s3, bs, g3, h3, rfl⟩ := hbits a sh he
    exact ⟨s2, b2, g2, s3, bs, g3, hs2, h3, hx⟩
  case lines =>
    intro o a n hcpy
    unfold State.countDone State.countHalt
    rcases hcpy with hcpy | hcpy | hcpy <;> rw [hcpy] <;> exact ⟨rfl, rfl⟩
  case gg =>
    intro a b n hcpy
    unfold State.countDone State.countHalt
    rw [hcpy]
    exact ⟨rfl, rfl⟩
  case boxes =>
    rintro hd ⟨o, cs, hcpy | hcpy⟩ <;> unfold State.countDone State.countHalt <;> rw [hcpy] <;> exact ⟨rfl, rfl⟩

end Sys2Proof.Machine

/-! ## O7, O8, O9, O11: the floating-point words

A word of classes FADD, FMUL and F64 gives one result for each element (`State.fltWord_gives`), so that what is left is arithmetic on values. A product
is a NaN, an infinity or a number (`fMul_cases`); the fused sum of R175 and the sum of products of R182 rest on that. -/

namespace Sys2Proof

/-! ### Products (R175) -/

namespace FVal

theorem num_times (c : FVal) (n : Int) : (c.times n).num = c.num * (2 : ℚ) ^ n := by
  cases c <;> simp [times, num, two_zpow_add, mul_assoc]

/-- One operand is an infinity and the other a zero: their product is undefined. -/
def clashes (a b : FVal) : Bool := (a.isInf && b.isZero) || (a.isZero && b.isInf)

/-- The product is a NaN. -/
def nanTimes (a b : FVal) : Bool := a.isNan || b.isNan || a.clashes b

/-- Only a NaN signals. -/
theorem isSig_of_not_isNan {a : FVal} (h : a.isNan = false) : a.isSig = false := by
  cases a with
  | nan s => cases h
  | inf s => rfl
  | fin s m e => rfl

theorem isFin_of_not {a : FVal} (hnan : a.isNan = false) (hinf : a.isInf = false) : a.isFin = true := by
  cases a with
  | nan s => cases hnan
  | inf s => cases hinf
  | fin s m e => rfl

theorem isNan_of_isFin {a : FVal} (h : a.isFin = true) : a.isNan = false := by
  obtain ⟨s, m, e, rfl⟩ := exists_of_isFin h
  rfl

theorem clashes_of_isNan {a b : FVal} (h : a.isNan = true ∨ b.isNan = true) : a.clashes b = false := by
  rcases h with h | h
  · cases a with
    | nan s => rfl
    | _ => cases h
  · cases b with
    | nan t => simp [clashes, isInf, isZero]
    | _ => cases h

/-- Where a product is an infinity, as R182 asks it: no operand is a NaN or a zero. -/
theorem inf_and_not_nanTimes (a b : FVal) :
    ((a.isInf || b.isInf) && !a.isNan && !b.isNan && !a.isZero && !b.isZero) = ((a.isInf || b.isInf) && !a.nanTimes b) := by
  cases a <;> cases b <;> simp [nanTimes, clashes, isNan, isInf, isZero]

end FVal

theorem flagIf_or (b c : Bool) (fl : FFlags) : flagIf b fl ||| flagIf c fl = flagIf (b || c) fl := by
  cases b <;> cases c <;> simp [flagIf]

theorem fMul_of_isNan {a b : FVal} (h : a.isNan = true ∨ b.isNan = true) : fMul a b = .nan (flagIf (a.isSig || b.isSig) fNV) := by
  cases a with
  | nan s => rfl
  | _ => cases b with
    | nan t => simp [fMul, FVal.isSig]
    | _ => simp [FVal.isNan] at h

theorem fMul_of_clashes {a b : FVal} (h : a.clashes b = true) : fMul a b = .nan fNV := by
  cases a <;> cases b <;> simp_all [FVal.clashes, FVal.isInf, FVal.isZero, fMul]

/-- A product with an infinity is one, where it is defined. -/
theorem fMul_of_isInf {a b : FVal} (h : a.nanTimes b = false) (hinf : (a.isInf || b.isInf) = true) : fMul a b = .inf (a.sign != b.sign) 0 := by
  cases a <;> cases b <;>
    simp_all [FVal.nanTimes, FVal.clashes, FVal.isNan, FVal.isInf, FVal.isZero, fMul, FVal.sign, Bool.xor_comm]

/-- What a product can be: a NaN, with NV where it is undefined or an operand signals; an infinity; or a number. -/
theorem fMul_cases (a b : FVal) :
    (a.nanTimes b = true ∧ fMul a b = .nan (flagIf (a.isSig || b.isSig || a.clashes b) fNV)) ∨
    (a.nanTimes b = false ∧ (a.isInf || b.isInf) = true ∧ fMul a b = .inf (a.sign != b.sign) 0) ∨
    (a.isFin = true ∧ b.isFin = true) := by
  by_cases hnan : a.isNan = true ∨ b.isNan = true
  · have hno := FVal.clashes_of_isNan hnan
    exact .inl ⟨by simpa [FVal.nanTimes, hno] using hnan, by rw [hno, Bool.or_false, fMul_of_isNan hnan]⟩
  · cases hclash : a.clashes b with
    | true => exact .inl ⟨by simp [FVal.nanTimes, hclash], by rw [fMul_of_clashes hclash, Bool.or_true]; rfl⟩
    | false =>
      have hno : a.nanTimes b = false := by simpa [FVal.nanTimes, hclash] using hnan
      cases hinf : a.isInf || b.isInf with
      | true => exact .inr (.inl ⟨hno, rfl, fMul_of_isInf hno hinf⟩)
      | false =>
        obtain ⟨ha, hb⟩ := not_or.1 hnan
        obtain ⟨hia, hib⟩ := Bool.or_eq_false_iff.1 hinf
        exact .inr (.inr ⟨FVal.isFin_of_not (Bool.eq_false_iff.2 ha) hia, FVal.isFin_of_not (Bool.eq_false_iff.2 hb) hib⟩)

/-- The product of two numbers is the number of their product. -/
theorem fMul_of_isFin {a b : FVal} (ha : a.isFin = true) (hb : b.isFin = true) :
    a.nanTimes b = false ∧ (fMul a b).flags = 0 ∧ ∃ m e, fMul a b = .num (a.sign != b.sign) m e false ∧
      (FVal.fin (a.sign != b.sign) m e).num = a.num * b.num ∧ (m == 0) = (a.isZero || b.isZero) := by
  obtain ⟨s, m, e, rfl⟩ := FVal.exists_of_isFin ha
  obtain ⟨t, n, g, rfl⟩ := FVal.exists_of_isFin hb
  refine ⟨by simp [FVal.nanTimes, FVal.clashes, FVal.isNan, FVal.isInf], rfl, m * n, e + g, rfl, ?_, Bool.eq_iff_iff.2 (by simp [FVal.isZero])⟩
  rw [FVal.num, FVal.num, FVal.num, two_zpow_add]
  cases s <;> cases t <;> simp [FVal.sign, sgn] <;> ring

theorem fMul_isNan (a b : FVal) : (fMul a b).toVal.isNan = a.nanTimes b := by
  rcases fMul_cases a b with ⟨hn, h⟩ | ⟨hn, -, h⟩ | ⟨ha, hb⟩
  · rw [h, hn]; rfl
  · rw [h, hn]; rfl
  · obtain ⟨hn, -, m, e, h, -, -⟩ := fMul_of_isFin ha hb
    rw [h, hn]; rfl

theorem fMul_flags (a b : FVal) : (fMul a b).flags = flagIf (a.isSig || b.isSig || a.clashes b) fNV := by
  have hquiet : a.nanTimes b = false → flagIf (a.isSig || b.isSig || a.clashes b) fNV = 0 := fun hn => by
    simp only [FVal.nanTimes, Bool.or_eq_false_iff] at hn
    obtain ⟨⟨ha, hb⟩, hc⟩ := hn
    simp [FVal.isSig_of_not_isNan ha, FVal.isSig_of_not_isNan hb, hc, flagIf]
  rcases fMul_cases a b with ⟨-, h⟩ | ⟨hn, -, h⟩ | ⟨ha, hb⟩
  · rw [h]; rfl
  · rw [h, hquiet hn]; rfl
  · obtain ⟨hn, hfl, -⟩ := fMul_of_isFin ha hb
    rw [hfl, hquiet hn]

theorem fMul_inf (a b : FVal) (n : Bool) : ((fMul a b).toVal == .inf n) =
    ((a.isInf || b.isInf) && !a.isNan && !b.isNan && !a.isZero && !b.isZero && (a.sign != b.sign) == n) := by
  rw [FVal.inf_and_not_nanTimes]
  rcases fMul_cases a b with ⟨hn, h⟩ | ⟨hn, hi, h⟩ | ⟨ha, hb⟩
  · simp [h, hn, FRes.toVal]
  · rw [h, hn, hi]
    cases a.sign != b.sign <;> cases n <;> rfl
  · obtain ⟨-, -, m, e, h, -, -⟩ := fMul_of_isFin ha hb
    obtain ⟨s, m, e, rfl⟩ := FVal.exists_of_isFin ha
    obtain ⟨t, n, g, rfl⟩ := FVal.exists_of_isFin hb
    simp [h, FRes.toVal, FVal.isInf]

/-- A NaN that a fused sum makes has NV where its product is undefined or an operand signals. -/
theorem fFma_of_nan {mode : Rnd} {a b x : FVal} (h : (a.nanTimes b || x.isNan) = true) :
    fFma mode a b x = .nan (flagIf (a.isSig || b.isSig || a.clashes b || x.isSig) fNV) := by
  simp only [fFma, fMul_isNan, fMul_flags, flagIf_or, h, if_true]

theorem fFma_of_not_nan {mode : Rnd} {a b x : FVal} (h : (a.nanTimes b || x.isNan) = false) :
    fFma mode a b x = fAdd mode (fMul a b).toVal x := by
  simp only [fFma, fMul_isNan, h, Bool.false_eq_true, if_false]

namespace LitFlt

/-- The model's product, rounded by a word's fields, is the product of R175. -/
theorem product_fMul (l : LitFlt) (t : Ty) (a b : FVal) : l.Product t a b (l.fin t (fMul a b)) := by
  refine ⟨fun h => ?_, fun h => ?_, fun h => ?_, fun ha hb => ?_⟩
  · rw [fMul_of_isNan h, fin_nan]
  · rw [fMul_of_clashes (by simpa [FVal.clashes] using h), fin_invalid]
  · have hi : ((a.isInf || b.isInf) && !a.isNan && !b.isNan && !a.isZero && !b.isZero) = true := by
      cases a <;> cases b <;> simp_all [FVal.isNan, FVal.isInf, FVal.isZero]
    rw [FVal.inf_and_not_nanTimes, Bool.and_eq_true_iff, Bool.not_eq_true'] at hi
    rw [fMul_of_isInf hi.2 hi.1]
    exact fin_inf l t _
  · obtain ⟨-, -, m, e, h, hnum, -⟩ := fMul_of_isFin ha hb
    rw [h, ← hnum]
    exact l.rounds_num t _ m e

/-- The model's fused sum, rounded by a word's fields, is that of R175. -/
theorem fused_fFma (l : LitFlt) (t : Ty) (a b x : FVal) : l.Fused t a b x (l.fin t (fFma l.rnd a b x)) := by
  have not_nan : x.isNan = false → a.nanTimes b = false → fFma l.rnd a b x = fAdd l.rnd (fMul a b).toVal x :=
    fun hx hn => fFma_of_not_nan (by rw [hx, hn]; rfl)
  obtain ⟨-, hinfs, hinf, hinf', hfin⟩ := l.sum_fAdd t (fMul a b).toVal x
  refine ⟨fun h => ?_, fun h => ?_, fun ha hb => ?_⟩
  · rw [fFma_of_nan h, fin_nan]
    rfl
  · have hi : a.nanTimes b = false ∧ (a.isInf || b.isInf) = true := by
      simpa only [FVal.nanTimes, FVal.clashes, Bool.and_eq_true, Bool.not_eq_true', Bool.or_eq_false_iff] using h
    have hp : (fMul a b).toVal = .inf (a.sign != b.sign) := by rw [fMul_of_isInf hi.1 hi.2]; rfl
    refine ⟨fun c hc => ?_, fun hx => ?_⟩
    · rw [not_nan (by rw [hc]; rfl) hi.1]
      exact hinfs _ _ hp hc
    · rw [not_nan (FVal.isNan_of_isFin hx) hi.1]
      exact hinf _ hp hx
  · obtain ⟨hn, -, m, e, h, hnum, hzero⟩ := fMul_of_isFin ha hb
    have hp : (fMul a b).toVal = .fin (a.sign != b.sign) m e := by rw [h]; rfl
    refine ⟨fun c hc => ?_, fun hx => ?_⟩
    · rw [not_nan (by rw [hc]; rfl) hn]
      exact hinf' c hc (by rw [hp]; rfl)
    · rw [not_nan (FVal.isNan_of_isFin hx) hn]
      have hsum := hfin (by rw [hp]; rfl) hx
      rw [hp, hnum] at hsum
      rw [hp, ← hzero]
      exact hsum

/-- A value scaled by 2^n, rounded, is that of R176. -/
theorem scaled_fScale (l : LitFlt) (t : Ty) (c : FVal) (n : Int) :
    (c.isNan = true → l.fin t (fScale c n) = t.quiet c.isSig) ∧ (∀ s, c = .inf s → l.fin t (fScale c n) = t.infinite s) ∧
      (c.isFin = true → l.Rounds t (c.num * (2 : ℚ) ^ n) c.sign (l.fin t (fScale c n))) := by
  have h := l.itself_fScale_times t c n
  rw [Itself, FVal.num_times] at h
  cases c with
  | nan s => exact h
  | inf s => exact h
  | fin s m e => exact ⟨nofun, nofun, h.2.2⟩

end LitFlt

/-! ### Comparison and class (R178, R179) -/

/-- The model's comparison of numbers is the numeric order of R178. -/
theorem fLess_iff_less (a b : FVal) : fLess false a b = true ↔ a.less b := by
  cases a with
  | nan s => cases b <;> simp [fLess, FVal.less]
  | inf s => cases b <;> simp [fLess, FVal.less]
  | fin s m e =>
    cases b with
    | nan u => simp [fLess, FVal.less]
    | inf u => simp [fLess, FVal.less]
    | fin u n g =>
      have hpos : (0 : ℚ) < (2 : ℚ) ^ (dyAdd (sgn s m) e (-(sgn u n)) g).2 := zpow_pos (by norm_num) _
      have hv := dyAdd_value (sgn s m) (-(sgn u n)) e g
      rw [Int.cast_neg, neg_mul, ← sub_eq_add_neg] at hv
      simp only [fLess, FVal.less, FVal.num, Bool.and_false, Bool.false_and, Bool.or_false, decide_eq_true_eq]
      rw [← sub_neg (b := (sgn u n : ℚ) * (2 : ℚ) ^ g), ← hv, mul_neg_iff]
      simp [hpos, not_lt.2 hpos.le]

theorem FVal.less_asymm {a b : FVal} (h : a.less b) : ¬b.less a := by
  cases a with
  | nan s => exact h.elim
  | inf s => cases b <;> simp_all [FVal.less]
  | fin s m e =>
    cases b with
    | nan u => exact id
    | inf u => simp_all [FVal.less]
    | fin u n g => exact lt_asymm h

/-- A NaN is not less than anything, nor anything less than it. -/
theorem fLess_of_isNan {a b : FVal} (h : (a.isNan || b.isNan) = true) (z : Bool) : fLess z a b = false := by
  cases a <;> cases b <;> simp_all [fLess, FVal.isNan]

/-- Against a NaN only `.ne` and `.un` hold (R178). -/
theorem fCmp_of_isNan (sel : BitVec 3) {a b : FVal} (h : (a.isNan || b.isNan) = true) : fCmp sel.toNat a b = (sel == 1 || sel == 6) := by
  simp only [fCmp, h, fLess_of_isNan h, fLess_of_isNan (Bool.or_comm _ _ ▸ h)]
  revert sel
  decide

/-- What `fcmp` of two numbers gives, by its selector (R178): it depends only on which of the two is less. -/
theorem fCmp_of_numbers (sel : BitVec 3) {a b : FVal} (h : (a.isNan || b.isNan) = false) (v : Bool)
    (hv : (sel = 0 → (v = true ↔ ¬a.less b ∧ ¬b.less a)) ∧ (sel = 1 → (v = true ↔ a.less b ∨ b.less a)) ∧ (sel = 2 → (v = true ↔ a.less b)) ∧
      (sel = 3 → (v = true ↔ ¬b.less a)) ∧ (sel = 4 → (v = true ↔ b.less a)) ∧ (sel = 5 → (v = true ↔ ¬a.less b)) ∧ (sel = 6 → v = false) ∧
      (sel = 7 → v = true)) : fCmp sel.toNat a b = v := by
  have hasymm : ¬(fLess false a b = true ∧ fLess false b a = true) := by
    rw [fLess_iff_less, fLess_iff_less]
    exact fun h => FVal.less_asymm h.1 h.2
  simp only [← fLess_iff_less] at hv
  simp only [fCmp, h]
  generalize fLess false a b = lt, fLess false b a = gt at *
  obtain ⟨heq, hne, hlt, hle, hgt, hge, hun, hord⟩ := hv
  have hsel : ∀ c : BitVec 3, c = 0 ∨ c = 1 ∨ c = 2 ∨ c = 3 ∨ c = 4 ∨ c = 5 ∨ c = 6 ∨ c = 7 := by decide
  rcases hsel sel with rfl | rfl | rfl | rfl | rfl | rfl | rfl | rfl
  · exact Bool.eq_iff_iff.2 (.trans (by simp) (heq rfl).symm)
  · exact Bool.eq_iff_iff.2 (.trans (by simp) (hne rfl).symm)
  · exact Bool.eq_iff_iff.2 (.trans (by simp) (hlt rfl).symm)
  · exact Bool.eq_iff_iff.2 (.trans (by cases lt <;> simp_all) (hle rfl).symm)
  · exact Bool.eq_iff_iff.2 (.trans (by simp) (hgt rfl).symm)
  · exact Bool.eq_iff_iff.2 (.trans (by cases gt <;> simp_all) (hge rfl).symm)
  · exact (hun rfl).symm
  · exact (hord rfl).symm

/-- The exponent field of a code (Table 7.1). -/
theorem expField_eq (x mb w : Nat) (h : mb < w) : x % 2 ^ w % 2 ^ (w - 1) / 2 ^ mb = x / 2 ^ mb % 2 ^ (w - 1 - mb) := by
  rw [Nat.mod_mod_of_dvd _ (pow_dvd_pow 2 (Nat.sub_le w 1)), ← Nat.mod_mul_right_div_self, ← pow_add, Nat.add_sub_cancel' (by omega)]

/-- A number that a code holds is subnormal, or a zero, where the exponent field is 0. -/
theorem FFmt.decode_fin_low {f : FFmt} (hf : f.mb < f.width) {x : Nat} {n : Bool} {g : Nat} {e : Int} (h : f.decode x = .fin n g e) :
    (decide (g < 2 ^ f.mb) && e == f.qmin) = decide (x / 2 ^ f.mb % 2 ^ (f.width - 1 - f.mb) = 0) := by
  have hfr : x % 2 ^ f.width % 2 ^ (f.width - 1) % 2 ^ f.mb < 2 ^ f.mb := Nat.mod_lt _ (Nat.two_pow_pos _)
  rw [← expField_eq x f.mb f.width hf]
  simp only [decode] at h
  split at h
  · split at h <;> cases h
  · split at h
    · cases h
    · split at h
      · next h0 => cases h; simp [h0, hfr]
      · next h0 => cases h; simp [h0]

/-- The class of a code (R179), by the value that it holds. -/
theorem fClass_eq (t : Ty) (x : Nat) (c : Nat)
    (hc : match t.fmt.decode x with
      | .nan q => c = if q then 8 else 9
      | .inf n => c = if n then 0 else 7
      | .fin n g _ => c = if g = 0 then (if n then 3 else 4)
          else if x / 2 ^ t.fmt.mb % 2 ^ (t.fmt.width - 1 - t.fmt.mb) = 0 then (if n then 2 else 5)
          else (if n then 1 else 6)) : fClass t.fmt x = c := by
  have hwidth : t.fmt.mb < t.fmt.width := by cases t <;> decide
  unfold fClass
  cases h : t.fmt.decode x with
  | nan q => rw [h] at hc; exact hc.symm
  | inf n => rw [h] at hc; exact hc.symm
  | fin n g e =>
    rw [h] at hc
    rw [hc]
    simp only [FFmt.decode_fin_low hwidth h, decide_eq_true_eq]

end Sys2Proof

namespace Sys2Proof.Machine

/-! ### Words of elements (R173) -/

theorem Fibre.fsrc_eq (f : Fibre) (l : LitFlt) (t : Ty) (a : RegIx) : f.fsrc t l.den a = (List.range t.lanes).map (f.elA l t a) := by
  have hlen : (f.fsrc t l.den a).length = t.lanes := by simp [Fibre.fsrc, Fibre.elems, elemsOf]
  refine List.ext_getElem (by simp [hlen]) fun k hk _ => ?_
  simp [Fibre.elA, List.getD_eq_getElem?_getD, hk]

theorem Fibre.zip_fsrc (f : Fibre) (l : LitFlt) (t : Ty) (a b : RegIx) :
    (f.fsrc t l.den a).zip (f.fsrc t l.den b) = (List.range t.lanes).map fun k => (f.elA l t a k, f.elA l t b k) := by
  rw [f.fsrc_eq, f.fsrc_eq, List.zip_map']

theorem Fibre.fbsrc_eq (f : Fibre) (l : LitFlt) (t : Ty) (b : RegIx) : f.fbsrc t l b = (List.range t.lanes).map (f.elB l t b) := by
  have hlen : (f.fbsrc t l b).length = t.lanes := by cases l <;> simp [Fibre.fbsrc, Fibre.fsrc, Fibre.elems, elemsOf]
  refine List.ext_getElem (by simp [hlen]) fun k hk _ => ?_
  simp [Fibre.elB, List.getD_eq_getElem?_getD, hk]

section
variable {s : State} {f : Fibre} {i : Instr} {m : Mods LitFlt} {dt : Ty} {cls : Nat} {d a b : RegIx} {rule : Nat → Nat × FFlags → Prop}
  (h : s.Runs f i m.g)
include h

/-- A word whose result for element k is `g k` gives one result for each element. -/
theorem State.fltWord_gives {val : Fibre → LitFlt → Ty → RegIx → List (Nat × FFlags)} {g : Nat → Nat × FFlags}
    (hexec : exec i s = s.fltWord i m dt cls d val) :
    let l := m.body (.dflt dt .s32 d)
    let t := l.ty dt
    val f l t (m.xf (s.openGroup f).pin d) = (List.range t.lanes).map g → (∀ k, rule k (g k)) →
      s.GivesElems f i m.chains m.words cls t d rule := by
  intro l t hval hrule
  refine ⟨(List.range t.lanes).map g, by simp, fun k v hv => ?_, ?_⟩
  · obtain ⟨n, hn, rfl⟩ := Option.map_eq_some_iff.1 ((List.getElem?_map ..).symm.trans hv)
    obtain ⟨-, rfl⟩ := List.getElem?_eq_some_iff.1 hn
    simpa using hrule k
  · refine State.gives_of h.issuer (f.wr_nodup d _) .nil (hexec.trans (State.word_ok h ?_))
    rw [← hval]
    rfl

/-- A word of two operands. -/
theorem State.flt2_gives {op : LitFlt → Ty → FVal → FVal → Nat × FFlags} (hexec : exec i s = s.flt2 i m dt cls d a b op) :
    let l := m.body (.dflt dt .s32 d)
    let t := l.ty dt
    (∀ k, rule k (op l t (f.elA l t a k) (f.elB l t b k))) → s.GivesElems f i m.chains m.words cls t d rule := by
  intro l t
  refine State.fltWord_gives h hexec ?_
  rw [f.fsrc_eq, f.fbsrc_eq, List.zipWith_map, List.zipWith_self]

/-- `ffma`, a word of three operands. -/
theorem State.flt3_gives (hexec : exec i s = s.flt3 i m dt cls d a b) :
    let l := m.body (.dflt dt .s32 d)
    let t := l.ty dt
    (∀ k, rule k (l.fin t (fFma l.rnd (f.elA l t a k) (f.elB l t b k) (f.elA l t (m.xf (s.openGroup f).pin d) k)))) →
      s.GivesElems f i m.chains m.words cls t d rule := by
  intro l t
  refine State.fltWord_gives h hexec ?_
  rw [f.fsrc_eq, f.fbsrc_eq, f.fsrc_eq, List.zip_map', List.zipWith_map, List.zipWith_self]

end

/-- Settles O7: a sum is `fAdd`, a product `fMul`, and a fused sum `fFma`, each rounded once. -/
theorem sumsAndProductsRoundOnce : Obligations.SumsAndProductsRoundOnce := by
  intro s f m d a b
  exact ⟨⟨fun h => State.flt2_gives h rfl fun k => LitFlt.sum_fAdd _ _ _ _, fun h => State.flt2_gives h rfl fun k => LitFlt.sum_fAdd _ _ _ _,
    fun h => State.flt2_gives h rfl fun k => LitFlt.product_fMul _ _ _ _, fun h => State.flt3_gives h rfl fun k => LitFlt.fused_fFma _ _ _ _ _⟩,
    fun h => State.flt2_gives h rfl fun k => LitFlt.sum_fAdd _ _ _ _, fun h => State.flt2_gives h rfl fun k => LitFlt.sum_fAdd _ _ _ _,
    fun h => State.flt2_gives h rfl fun k => LitFlt.product_fMul _ _ _ _, fun h => State.flt3_gives h rfl fun k => LitFlt.fused_fFma _ _ _ _ _⟩

/-- Settles O9: element 0 decides, by `fCmp`. -/
theorem floatCompareWritesOnePredicate : Obligations.FloatCompareWritesOnePredicate := by
  intro s f m p a b i t0 cls hi l t x y un hrun v hun hnum
  have hcmp : fCmp l.sel.toNat x y = v := by
    cases h : un with
    | true => rw [fCmp_of_isNan _ h, hun h]
    | false => exact fCmp_of_numbers _ h v (hnum h)
  have hexec : exec i s = s.fltCmp i m t0 cls p a b := by
    rcases hi with ⟨rfl, rfl, rfl⟩ | ⟨rfl, rfl, rfl⟩ <;> rfl
  refine State.gives_of hrun.issuer .nil (List.nodup_singleton _) (hexec.trans (State.word_ok hrun ?_))
  rw [← hcmp]
  dsimp only
  rw [List.headD_eq_getD, List.headD_eq_getD]
  rfl

/-- The mask that `fcls` writes, by the class of each element (R179). -/
theorem Fibre.classMask_eq (f : Fibre) (t : Ty) (a : RegIx) {c : Nat → Nat}
    (hc : ∀ k, k < t.lanes → fClass t.fmt ((f.elems a t).getD k 0) = c k) :
    ((f.elems a t).zipIdx.map fun p => 2 ^ fClass t.fmt p.1 * 2 ^ (16 * p.2)).sum =
      ((List.range t.lanes).map fun k => 2 ^ c k * 2 ^ (16 * k)).sum := by
  have hlen : (f.elems a t).length = t.lanes := by simp [Fibre.elems, elemsOf]
  refine congrArg List.sum (List.ext_getElem (by simp [hlen]) fun k hk _ => ?_)
  have hk' : k < (f.elems a t).length := by simpa using hk
  have hclass := hc k (hlen ▸ hk')
  rw [List.getD_eq_getElem _ _ hk'] at hclass
  simp [hclass]

/-- Settles O8: `fScale` before one rounding, the extremes of `fMinMax`, and the class of each raw element by `fClass`. -/
theorem scaleExtremeAndClassWords : Obligations.ScaleExtremeAndClassWords := by
  intro s f m d a b
  refine ⟨⟨fun h => ?scale, fun h => ?min, fun h => ?max, fun h c hc => ?cls⟩, fun h => ?min64, fun h => ?max64⟩
  case scale =>
    refine State.fltWord_gives h (show exec (.fscl m d a b) s = execFscl m d a b s from rfl) ?_ fun k => LitFlt.scaled_fScale _ _ (f.elA _ _ a k) _
    rw [Fibre.fsrc_eq, List.map_map]
    rfl
  case min => exact State.flt2_gives h rfl fun k => LitFlt.extreme_fMinMax _ _ false _ _
  case max => exact State.flt2_gives h rfl fun k => LitFlt.extreme_fMinMax _ _ true _ _
  case min64 => exact State.flt2_gives h rfl fun k => LitFlt.extreme_fMinMax _ _ false _ _
  case max64 => exact State.flt2_gives h rfl fun k => LitFlt.extreme_fMinMax _ _ true _ _
  case cls =>
    refine State.gives_of h.issuer (f.wr_nodup d _) .nil (State.word_ok h ?_)
    exact congrArg (fun v => WordOut.ok [.res 4 (f.wr d [BitVec.ofNat 32 v]) [] 0]) (f.classMask_eq _ a fun k hk => fClass_eq _ _ _ (hc k hk))

end Sys2Proof.Machine

namespace Sys2Proof

/-! ### Sums of products (R182) -/

/-- The addends of a sum of products: the accumulator and each product. -/
def dotTerms (c : FVal) (ps : List (FVal × FVal)) : List FVal := c :: ps.map fun p => (fMul p.1 p.2).toVal

/-- Two addends are infinities of opposite signs. -/
def dotOpposed (c : FVal) (ps : List (FVal × FVal)) : Bool := (dotTerms c ps).any (· == .inf true) && (dotTerms c ps).any (· == .inf false)

theorem any_or {α : Type} (l : List α) (g h : α → Bool) : (l.any fun x => g x || h x) = (l.any g || l.any h) := by
  induction l with
  | nil => rfl
  | cons x l ih => simp only [List.any_cons, ih]; ac_rfl

theorem dotTerms_any_isNan (c : FVal) (ps : List (FVal × FVal)) :
    (dotTerms c ps).any FVal.isNan = (c.isNan || (ps.any fun p => p.1.isNan || p.2.isNan) || ps.any fun p => p.1.clashes p.2) := by
  rw [Bool.or_assoc, ← any_or]
  simp only [dotTerms, List.any_cons, List.any_map, Function.comp_def, fMul_isNan, FVal.nanTimes]

theorem dotTerms_any_inf (c : FVal) (ps : List (FVal × FVal)) (n : Bool) : (dotTerms c ps).any (· == .inf n) =
    (c == .inf n || ps.any fun p => (p.1.isInf || p.2.isInf) && !p.1.isNan && !p.2.isNan && !p.1.isZero && !p.2.isZero &&
      (p.1.sign != p.2.sign) == n) := by
  simp only [dotTerms, List.any_cons, List.any_map, Function.comp_def, fMul_inf]

/-- The flags of the products. -/
theorem foldl_fMul_flags (ps : List (FVal × FVal)) (b : Bool) :
    (ps.map fun p => fMul p.1 p.2).foldl (fun fl p => fl ||| p.flags) (flagIf b fNV) =
      flagIf (b || ps.any fun p => p.1.isSig || p.2.isSig || p.1.clashes p.2) fNV := by
  induction ps generalizing b with
  | nil => simp
  | cons p ps ih => rw [List.map_cons, List.foldl_cons, fMul_flags, flagIf_or, ih, List.any_cons, Bool.or_assoc]

/-- One addend more of an exact sum. -/
def dotStep (a : Int × Int) (v : FVal) : Int × Int :=
  match v with
  | .fin s m e => dyAdd a.1 a.2 (sgn s m) e
  | _ => a

theorem dyVal_foldl_dotStep (vs : List FVal) (a : Int × Int) (h : ∀ v ∈ vs, v.isFin = true) :
    dyVal (vs.foldl dotStep a) = dyVal a + (vs.map FVal.num).sum := by
  induction vs generalizing a with
  | nil => simp
  | cons v vs ih =>
    obtain ⟨s, m, e, rfl⟩ := FVal.exists_of_isFin (h v List.mem_cons_self)
    rw [List.foldl_cons, ih _ fun w hw => h w (List.mem_cons_of_mem _ hw), List.map_cons, List.sum_cons, ← add_assoc]
    exact congrArg (· + _) (dyAdd_value a.1 (sgn s m) a.2 e)

/-- The model's sum of products by its addends. -/
theorem fDot_eq (mode : Rnd) (c : FVal) (ps : List (FVal × FVal)) :
    fDot mode c ps =
      if (dotTerms c ps).any FVal.isNan || dotOpposed c ps then
        .nan (flagIf (c.isSig || (ps.any fun p => p.1.isSig || p.2.isSig) || (ps.any fun p => p.1.clashes p.2) || dotOpposed c ps) fNV)
      else match (dotTerms c ps).find? FVal.isInf with
        | some v => .inf v.sign 0
        | none => dyRes ((dotTerms c ps).foldl dotStep (0, 0)).1 ((dotTerms c ps).foldl dotStep (0, 0)).2
            (if (dotTerms c ps).all fun v => v.isZero && v.sign == c.sign then c.sign else decide (mode = .rd)) := by
  have hterms : c :: (ps.map fun p => fMul p.1 p.2).map FRes.toVal = dotTerms c ps := by simp [dotTerms]
  have hflags : (ps.map fun p => fMul p.1 p.2).foldl (fun fl p => fl ||| p.flags) 0 ||| flagIf c.isSig fNV ||| flagIf (dotOpposed c ps) fNV =
      flagIf (c.isSig || (ps.any fun p => p.1.isSig || p.2.isSig) || (ps.any fun p => p.1.clashes p.2) || dotOpposed c ps) fNV := by
    have h := foldl_fMul_flags ps false
    rw [show flagIf false fNV = 0 from rfl] at h
    rw [h, flagIf_or, flagIf_or, any_or, Bool.false_or]
    congr 1
    ac_rfl
  rw [← hflags]
  unfold dotOpposed
  rw [← hterms]
  rfl

section
variable {mode : Rnd} {c : FVal} {ps : List (FVal × FVal)}

theorem fDot_of_nan (h : ((dotTerms c ps).any FVal.isNan || dotOpposed c ps) = true) : fDot mode c ps =
    .nan (flagIf (c.isSig || (ps.any fun p => p.1.isSig || p.2.isSig) || (ps.any fun p => p.1.clashes p.2) || dotOpposed c ps) fNV) := by
  rw [fDot_eq, if_pos h]

/-- Infinities of one sign give the infinity of that sign. -/
theorem fDot_of_inf {n : Bool} (hnan : (dotTerms c ps).any FVal.isNan = false) (hn : (dotTerms c ps).any (· == .inf n) = true)
    (hno : (dotTerms c ps).any (· == .inf (!n)) = false) : fDot mode c ps = .inf n 0 := by
  have hopp : dotOpposed c ps = false := by
    cases n
    · exact Bool.and_eq_false_iff.2 (.inl hno)
    · exact Bool.and_eq_false_iff.2 (.inr hno)
  rw [fDot_eq, hnan, hopp, Bool.or_false, if_neg Bool.false_ne_true]
  cases hfind : (dotTerms c ps).find? FVal.isInf with
  | none =>
    obtain ⟨v, hv, hvn⟩ := List.any_eq_true.1 hn
    exact absurd (eq_of_beq hvn ▸ rfl) (List.find?_eq_none.1 hfind v hv)
  | some v =>
    have hv := List.mem_of_find?_eq_some hfind
    cases v with
    | inf s =>
      rcases Bool.eq_or_eq_not s n with rfl | rfl
      · rfl
      · exact absurd hv (fun hv => List.any_eq_false.1 hno _ hv (beq_self_eq_true _))
    | _ => exact absurd (List.find?_some hfind) Bool.false_ne_true

theorem fDot_of_fin (hc : c.isFin = true) (hps : ∀ p ∈ ps, p.1.isFin = true ∧ p.2.isFin = true) :
    ∃ (a : Int × Int) (z : Bool), fDot mode c ps = dyRes a.1 a.2 z ∧ dyVal a = c.num + (ps.map fun p => p.1.num * p.2.num).sum := by
  have hprod : ∀ p ∈ ps, (fMul p.1 p.2).toVal.isFin = true ∧ (fMul p.1 p.2).toVal.num = p.1.num * p.2.num := fun p hp => by
    obtain ⟨-, -, m, e, h, hnum, -⟩ := fMul_of_isFin (hps p hp).1 (hps p hp).2
    rw [h, ← hnum]
    exact ⟨rfl, rfl⟩
  have hfin : ∀ v ∈ dotTerms c ps, v.isFin = true := by
    simp only [dotTerms, List.forall_mem_cons, List.forall_mem_map]
    exact ⟨hc, fun p hp => (hprod p hp).1⟩
  have hnone : ∀ {q : FVal → Bool}, (∀ s m e, q (.fin s m e) = false) → ∀ v ∈ dotTerms c ps, ¬q v = true := fun hq v hv => by
    obtain ⟨s, m, e, rfl⟩ := FVal.exists_of_isFin (hfin v hv)
    rw [hq]
    exact Bool.false_ne_true
  have hnan : ((dotTerms c ps).any FVal.isNan || dotOpposed c ps) = false := by
    rw [dotOpposed, List.any_eq_false.2 (hnone fun _ _ _ => rfl), List.any_eq_false.2 (hnone (q := (· == .inf true)) fun _ _ _ => rfl)]
    rfl
  have h := fDot_eq mode c ps
  rw [hnan, List.find?_eq_none.2 (hnone fun _ _ _ => rfl)] at h
  refine ⟨_, _, h, ?_⟩
  rw [dyVal_foldl_dotStep _ _ hfin, dotTerms, List.map_cons, List.sum_cons, List.map_map]
  simp only [dyVal, Int.cast_zero, zero_mul, zero_add]
  exact congrArg (c.num + ·) (congrArg List.sum (List.map_congr_left fun p hp => (hprod p hp).2))

end

end Sys2Proof

namespace Sys2Proof.Machine

/-- One result in one register. -/
theorem Fibre.fres_single (f : Fibre) (cls : Nat) (d : RegIx) (v : Nat × FFlags) :
    f.fres cls .f32 d [v] = .res cls (f.wr d (regWords 1 v.1)) [] v.2 := by
  simp [Fibre.fres, joinElems, Sys2Proof.orFlags, Ty.regs, Ty.bits]

/-- A word of FDOT gives the exact sum of the accumulator and the products, rounded once. -/
theorem State.dot_gives {s : State} {f : Fibre} {i : Instr} {m : Mods LitFlt} {d x : RegIx} {l : LitFlt} {ps : List (FVal × FVal)}
    {body : Fibre → OpenGroup → WordOut} (h : s.Runs f i m.g) (hexec : exec i s = s.word i m body)
    (hbody : body f (s.openGroup f) = dotWord f l d x ps) :
    let v := l.fin .f32 (fDot l.rnd (f.elA l .f32 x 0) ps)
    s.Gives f i m.chains m.words 7 (f.wr d (regWords 1 v.1)) [] v.2 := by
  intro v
  refine State.gives_of h.issuer (f.wr_nodup d _) .nil (hexec.trans (State.word_ok h (hbody.trans ?_)))
  rw [← Fibre.fres_single, dotWord, List.headD_eq_getD]
  rfl

/-- Settles O11: the addends that make a sum of products a NaN or an infinity are those of the statement, and else it is their exact sum. -/
theorem dotWordsRoundTheExactSum : Obligations.DotWordsRoundTheExactSum := by
  intro s f m d a b i ps l hi c nan sig undefd inf hrun
  have hgives : s.Gives f i m.chains m.words 7 (f.wr d (regWords 1 (l.fin .f32 (fDot l.rnd c ps)).1)) [] (l.fin .f32 (fDot l.rnd c ps)).2 := by
    rcases hi with ⟨rfl, rfl, rfl, hlanes⟩ | ⟨rfl, rfl, rfl⟩
    · refine State.dot_gives hrun (show _ = execFdot2 m d a b s from rfl) (congrArg (dotWord f _ d _) ?_)
      exact (f.zip_fsrc _ _ a b).trans (congrArg (fun n => (List.range n).map _) hlanes)
    · exact State.dot_gives hrun (show _ = execFdot4 m d a b s from rfl) rfl
  have hnan : (dotTerms c ps).any FVal.isNan = (nan || undefd) := dotTerms_any_isNan c ps
  have hinf : ∀ n, (dotTerms c ps).any (· == .inf n) = inf n := dotTerms_any_inf c ps
  have hopp : dotOpposed c ps = (inf true && inf false) := by rw [dotOpposed, hinf, hinf]
  have hquiet : ((nan || undefd) || (inf true && inf false)) = true →
      l.fin .f32 (fDot l.rnd c ps) = Ty.f32.quiet (sig || undefd || (inf true && inf false)) := fun h => by
    rw [fDot_of_nan (by rw [hnan, hopp, h]), hopp]
    exact l.fin_nan .f32 _
  refine ⟨_, hgives, fun h => ?_, fun hn hu => ⟨fun h1 h2 => ?_, fun n h1 h2 => ?_⟩, fun hc hps => ?_⟩
  · exact hquiet (by rw [Bool.or_eq_true_iff.2 h, Bool.true_or])
  · rw [hquiet (by rw [h1, h2, Bool.and_self, Bool.or_true]), h1, h2, Bool.and_self, Bool.or_true]
  · rw [fDot_of_inf (by rw [hnan, hn, hu]; rfl) ((hinf n).trans h1) ((hinf _).trans h2)]
    rfl
  · obtain ⟨x, z, hdot, hval⟩ := fDot_of_fin (mode := l.rnd) hc hps
    refine ⟨z, ?_⟩
    rw [hdot, ← hval]
    exact l.rounds_dyRes .f32 x.1 x.2 z

end Sys2Proof.Machine
